-- ==== Sys2Proof/Word.lean ====
section
/-! DEFINITION. The word types of the Ikivik and the plainest facts about them (00 R3). -/

namespace Sys2Proof

/-- A byte of memory (00 R3). -/
abbrev Byte := BitVec 8

/-- A 32-bit register, a parcel, or one half of a 64-bit operand. -/
abbrev W32 := BitVec 32

/-- A 64-bit address or value. -/
abbrev W64 := BitVec 64

/-- A record, ring slot or image whose bytes are held in ascending address order. -/
abbrev Bytes := List Byte

end Sys2Proof
end

