-- ==== Sys2Proof/Syntax.lean ====
section
/-! DEFINITION. The instructions and happenings of the Ikivik: one constructor for each row of
spec/opcode_table.json. The core rows carry the fields of their format (04 R51 to R53), the bolter rows the
fields of 23 Table 23.8a, and the happenings name the agent or register they concern
(spec/95_what_each_step_holds.md). -/

namespace Sys2Proof

/-- The rounding modes (05 Table 5.2), in the order in which `CVT` and `FRND` number them (08 R139, R149). -/
inductive RMode where
  | rn | rz | rd | ru
  deriving DecidableEq, Repr

/-- The operations of `ATOM` in opcode order (12 Table 12.4). -/
inductive AtomOp where
  | add | min | max | and | or | xor | exch | cas | incw | decw | fadd
  deriving DecidableEq, Repr

/-- The operations of `RED` in opcode order (12 Table 12.4). -/
inductive RedOp where
  | add | min | max | and | or | xor | fadd
  deriving DecidableEq, Repr

/-- The three kinds of barrier (17 R304). -/
inductive BarKind where
  | group | gang | stage
  deriving DecidableEq, Repr

/-- Formats L and X (04 R52, R53): `lit` is the third parcel, present in format X only. -/
structure LongForm where
  g   : BitVec 5
  dst : BitVec 8
  w   : Bool
  sa  : BitVec 9
  sb  : BitVec 9
  sc  : BitVec 9
  mod : BitVec 11
  lit : Option W32
  deriving DecidableEq, Repr

/-- Format S1 (04 Table 4.4). -/
structure ShortForm where
  g   : BitVec 5
  dst : BitVec 8
  sa  : BitVec 9
  deriving DecidableEq, Repr

/-- Format S2 (04 Table 4.4): a 17-bit signed count of parcel positions. -/
structure ShortBranch where
  g   : BitVec 5
  off : BitVec 17
  deriving DecidableEq, Repr

/-- Format LB (04 Table 4.5): a 29-bit signed count of parcel positions. -/
structure LongBranch where
  g   : BitVec 5
  off : BitVec 29
  deriving DecidableEq, Repr

/-- An access that enters from the fabric (26 R379, R380, R383): a load of some bytes, a store, a store of the bits that a mask
enables, an addition, a counted release once the accesses that it counts have arrived, or the recall of a line. -/
inductive FabOp where
  | load (n : Nat)
  | store (bytes : Bytes)
  | release (bytes : Bytes)
  | masked (bytes mask : Bytes)
  | add32 (v : W32)
  | recall
  deriving DecidableEq, Repr

/-- What a patrol scrub finds in a granule (27 R399, R400). -/
inductive ScrubFound where
  | clean | corrected | uncorrectable
  deriving DecidableEq, Repr

/-- The functions that report ready (01 R19, 27 Table 27.3). -/
inductive DevFn where
  | host
  | channel (n : Nat)
  | granary (d : Nat)
  | coreDie (d : Nat)
  | hamlet (h : Nat)
  | hayward (d : Nat)
  | reeve (d : Nat)
  deriving DecidableEq, Repr

/-- A firmware image as its controller finds it (27 R402): its header words, whether the header's reserved
bytes are zero, whether each signature verifies under the fused digests, the device number that it loads (26 R376), and
its bytes, which a measurement covers (27 R403). -/
structure FwImage where
  magic    : W32
  kind     : W32
  sv       : W32
  minv     : W32
  rsvZero  : Bool
  ecdsaOk  : Bool
  lmsOk    : Bool
  did      : Option (BitVec 10)
  body     : Bytes
  deriving DecidableEq, Repr

/-- One constructor for each row of spec/opcode_table.json. -/
inductive Instr where
  /-- NOP_S (R131): Short form of NOP, which does nothing. -/
  | nopS (g : BitVec 5)
  /-- EXIT_S (R132): Short form of EXIT, which ends each active thread. -/
  | exitS (g : BitVec 5)
  /-- RET_S (R128): Short form of RET, which pops to the topmost call entry and returns through it. -/
  | retS (g : BitVec 5)
  /-- YIELD_S (R38): Short form of YIELD, which moves the warp's issue address to the next address at once. -/
  | yieldS (g : BitVec 5)
  /-- TRET_S (R172): Short form of TRET, which resumes each active thread at its xpc and leaves handler mode. -/
  | tretS (g : BitVec 5)
  /-- PDONE_S (R177): Short form of PDONE, which stops a thread that entered the handler for pre-emption. -/
  | pdoneS (g : BitVec 5)
  /-- GRPBAR_S (R305): Short form of GRPBAR, in which active threads arrive at the group barrier. -/
  | grpbarS (g : BitVec 5)
  /-- GANGBAR_S (R305): Short form of GANGBAR, in which active threads arrive at the gang barrier. -/
  | gangbarS (g : BitVec 5)
  /-- STAGEBAR_S (R305): Short form of STAGEBAR, in which active threads arrive at the stage barrier. -/
  | stagebarS (g : BitVec 5)
  /-- BRA_S (R125): Short form of BRA, which transfers active threads to a target at most 2^16 parcels away. -/
  | braS (f : ShortBranch)
  /-- CALL_S (R127): Short form of CALL, which pushes a call entry and transfers to the target. -/
  | callS (f : ShortBranch)
  /-- MEET_S (R129): Short form of MEET, which records a meeting address and pushes a meet entry. -/
  | meetS (f : ShortBranch)
  /-- MOV_S (R110): Short MOV.b32, which copies one register. -/
  | movS (f : ShortForm)
  /-- NOT_S (R117): Short NOT.b32, a bitwise complement. -/
  | notS (f : ShortForm)
  /-- INEG_S (R113): Short INEG.i32, which negates with wrapping. -/
  | inegS (f : ShortForm)
  /-- IABS_S (R113): Short IABS.i32, the absolute value with wrapping. -/
  | iabsS (f : ShortForm)
  /-- POPC_S (R120): Short POPC.b32, a population count. -/
  | popcS (f : ShortForm)
  /-- CLZ_S (R120): Short CLZ.b32, a count of leading zeros. -/
  | clzS (f : ShortForm)
  /-- BREV_S (R120): Short BREV.b32, a bit reversal. -/
  | brevS (f : ShortForm)
  /-- SRD_S (R133): Short SRD, which reads a special register. -/
  | srdS (f : ShortForm)
  /-- SWR_S (R104): Short SWR, which writes a special register. -/
  | swrS (f : ShortForm)
  /-- KMOV_S (R123): Short KMOV, which copies a lane mask. -/
  | kmovS (f : ShortForm)
  /-- KNOT_S (R123): Short KNOT, which complements a lane mask. -/
  | knotS (f : ShortForm)
  /-- KPOP_S (R123): Short KPOP, which counts the active threads whose mask bit is set. -/
  | kpopS (f : ShortForm)
  /-- RCP_S (R155): Short RCP.f32, a reciprocal. -/
  | rcpS (f : ShortForm)
  /-- RSQ_S (R155): Short RSQ.f32, a reciprocal square root. -/
  | rsqS (f : ShortForm)
  /-- SQRT_S (R155): Short SQRT.f32, a square root. -/
  | sqrtS (f : ShortForm)
  /-- MWAIT_S (R342): Short MWAIT, which waits on a dependency slot and raises its failure. -/
  | mwaitS (g : BitVec 5) (d : BitVec 8)
  /-- HINT_S (R66): A short opcode of the hint space, which executes as NOP and does not advance the latches. -/
  | hintS (g : BitVec 5) (h : BitVec 4) (x : BitVec 17)
  /-- MOV (R110): Copies a 32-bit or 64-bit value. -/
  | mov (f : LongForm)
  /-- MOVL (R111): Builds a 64-bit value from a low half and a literal high half. -/
  | movl (f : LongForm)
  /-- LEA (R112): Forms a 64-bit address from a base and a scaled offset. -/
  | lea (f : LongForm)
  /-- IADD (R113): Integer add, which wraps or saturates. -/
  | iadd (f : LongForm)
  /-- ISUB (R113): Integer subtract, which wraps or saturates. -/
  | isub (f : LongForm)
  /-- IMUL (R113): Integer multiply, which wraps or saturates. -/
  | imul (f : LongForm)
  /-- IMULH (R114): Returns the high half of an exact product. -/
  | imulh (f : LongForm)
  /-- IMAD (R113): Integer multiply-add with a single narrowing. -/
  | imad (f : LongForm)
  /-- IDIV (R115): Truncating integer division, defined for a zero divisor. -/
  | idiv (f : LongForm)
  /-- IREM (R115): Integer remainder, which takes the sign of the dividend. -/
  | irem (f : LongForm)
  /-- IMIN (R116): Integer minimum. -/
  | imin (f : LongForm)
  /-- IMAX (R116): Integer maximum. -/
  | imax (f : LongForm)
  /-- IABS (R113): Integer absolute value. -/
  | iabs (f : LongForm)
  /-- INEG (R113): Integer negation. -/
  | ineg (f : LongForm)
  /-- AND (R117): Bitwise AND. -/
  | and (f : LongForm)
  /-- OR (R117): Bitwise OR. -/
  | or (f : LongForm)
  /-- XOR (R117): Bitwise XOR. -/
  | xor (f : LongForm)
  /-- ANDN (R117): Bitwise a AND NOT b. -/
  | andn (f : LongForm)
  /-- NOT (R117): Bitwise complement. -/
  | not (f : LongForm)
  /-- SHL (R118): Shift left; the amount is not reduced modulo the width. -/
  | shl (f : LongForm)
  /-- SHR (R118): Logical shift right. -/
  | shr (f : LongForm)
  /-- SAR (R118): Arithmetic shift right. -/
  | sar (f : LongForm)
  /-- ROL (R118): Rotate left. -/
  | rol (f : LongForm)
  /-- BFX (R119): Extracts a bit field. -/
  | bfx (f : LongForm)
  /-- BFI (R119): Inserts a bit field. -/
  | bfi (f : LongForm)
  /-- POPC (R120): Population count. -/
  | popc (f : LongForm)
  /-- CLZ (R120): Count of leading zeros. -/
  | clz (f : LongForm)
  /-- BREV (R120): Bit reversal. -/
  | brev (f : LongForm)
  /-- SEL (R121): Selects one of two values by a mask bit. -/
  | sel (f : LongForm)
  /-- ICMP (R122): Integer compare into a lane mask, with an optional combine. -/
  | icmp (f : LongForm)
  /-- KAND (R123): Mask AND. -/
  | kand (f : LongForm)
  /-- KOR (R123): Mask OR. -/
  | kor (f : LongForm)
  /-- KXOR (R123): Mask XOR. -/
  | kxor (f : LongForm)
  /-- KNOT (R123): Mask complement. -/
  | knot (f : LongForm)
  /-- KMOV (R123): Mask copy. -/
  | kmov (f : LongForm)
  /-- KPOP (R123): Counts the active threads whose mask bit is set. -/
  | kpop (f : LongForm)
  /-- BRA (R125): Long branch, which checks its target and empties the latches. -/
  | bra (f : LongBranch)
  /-- BRX (R126): Per-thread indirect branch to a 64-bit address. -/
  | brx (f : LongForm)
  /-- CALL (R127): Long call, which pushes a call entry and transfers. -/
  | call (f : LongBranch)
  /-- RET (R128): Long return, through the stack or to an address. -/
  | ret (f : LongForm)
  /-- MEET (R129): Long form of MEET, which records a meeting address. -/
  | meet (f : LongBranch)
  /-- YIELD (R38): Long YIELD. -/
  | yield (f : LongForm)
  /-- EXIT (R132): Long EXIT. -/
  | exit (f : LongForm)
  /-- NOP (R131): Long NOP. -/
  | nop (f : LongForm)
  /-- SRD (R133): Reads a special register. -/
  | srd (f : LongForm)
  /-- SWR (R104): Writes a special register. -/
  | swr (f : LongForm)
  /-- REGGROW (R134): Requests a larger register budget, waiting in the grow state. -/
  | reggrow (f : LongForm)
  /-- REGSHRINK (R135): Shrinks the register budget at once. -/
  | regshrink (f : LongForm)
  /-- SHAPE (R136): Copies a value and sets its shape tag to the tightest fit or to gen. -/
  | shape (f : LongForm)
  /-- IDX (R137): Writes base + stride × tid. -/
  | idx (f : LongForm)
  /-- UNIF (R138): Broadcasts the value of the lowest active tid. -/
  | unif (f : LongForm)
  /-- FADD (R142): Floating-point add with one rounding. -/
  | fadd (f : LongForm)
  /-- FSUB (R142): Floating-point subtract. -/
  | fsub (f : LongForm)
  /-- FMUL (R142): Floating-point multiply. -/
  | fmul (f : LongForm)
  /-- FFMA (R142): Fused multiply-add with one rounding. -/
  | ffma (f : LongForm)
  /-- FMIN (R143): Floating-point minimum. -/
  | fmin (f : LongForm)
  /-- FMAX (R143): Floating-point maximum. -/
  | fmax (f : LongForm)
  /-- FCMP (R144): Floating-point compare into a mask. -/
  | fcmp (f : LongForm)
  /-- FCLASS (R145): Writes a one-hot class word. -/
  | fclass (f : LongForm)
  /-- FRND (R146): Rounds to an integral value. -/
  | frnd (f : LongForm)
  /-- HADD2 (R147): Packed 16-bit add. -/
  | hadd2 (f : LongForm)
  /-- HMUL2 (R147): Packed 16-bit multiply. -/
  | hmul2 (f : LongForm)
  /-- HFMA2 (R147): Packed 16-bit fused multiply-add. -/
  | hfma2 (f : LongForm)
  /-- DOT4 (R148): Four-element 8-bit dot product with an addend. -/
  | dot4 (f : LongForm)
  /-- DOT2 (R148): Two-element 16-bit dot product with an addend. -/
  | dot2 (f : LongForm)
  /-- CVT (R150): Converts one element between types in the opcode's rounding mode. -/
  | cvt (r : RMode) (f : LongForm)
  /-- CVTS (R151): Scaled conversion, or the computation of a UE8M0 scale code. -/
  | cvts (r : RMode) (f : LongForm)
  /-- PACK4 (R153): Converts four registers into one packed narrow word. -/
  | pack4 (f : LongForm)
  /-- UNPACK4 (R154): Decodes a packed word into four registers. -/
  | unpack4 (f : LongForm)
  /-- RCP (R155): Reciprocal. -/
  | rcp (f : LongForm)
  /-- RSQ (R155): Reciprocal square root. -/
  | rsq (f : LongForm)
  /-- SQRT (R155): Square root. -/
  | sqrt (f : LongForm)
  /-- EX2 (R155): Base-2 exponential. -/
  | ex2 (f : LongForm)
  /-- LG2 (R155): Base-2 logarithm. -/
  | lg2 (f : LongForm)
  /-- SIN (R155): Sine of an argument given in turns. -/
  | sin (f : LongForm)
  /-- COS (R155): Cosine of an argument given in turns. -/
  | cos (f : LongForm)
  /-- TANH (R155): Hyperbolic tangent. -/
  | tanh (f : LongForm)
  /-- SHFL (R158): Shuffles values between logical lanes, with a validity mask. -/
  | shfl (f : LongForm)
  /-- VOTE (R159): Vote across the sub-group into a mask. -/
  | vote (f : LongForm)
  /-- BALLOT (R160): Gathers participants' mask bits into a word. -/
  | ballot (f : LongForm)
  /-- MATCH (R160): Marks the participants whose value equals the thread's own. -/
  | matchL (f : LongForm)
  /-- LSCAN (R161): Scan across participants in logical-lane order. -/
  | lscan (f : LongForm)
  /-- LRED (R161): Reduction across participants. -/
  | lred (f : LongForm)
  /-- LFIRST (R162): Value of the lowest-lane participant. -/
  | lfirst (f : LongForm)
  /-- TRAP (R172): Enters the handler with class 7 and the given code. -/
  | trap (f : LongForm)
  /-- TRET (R172): Long TRET. -/
  | tret (f : LongForm)
  /-- CTXSAVE (R174): Writes a register range of every thread of the group to the save area. -/
  | ctxsave (f : LongForm)
  /-- CTXSAVE_KEEP (R175): Adds a register range to the keep set of a pre-emption save. -/
  | ctxsaveKeep (f : LongForm)
  /-- CTXLOAD (R174): Reads a register range back from the save area under a dependency slot. -/
  | ctxload (f : LongForm)
  /-- PDONE (R177): Long PDONE. -/
  | pdone (f : LongForm)
  /-- DEPWAIT (R182): Waits on a slot until a save area's pend reads 0. -/
  | depwait (f : LongForm)
  /-- FREC_GET (R173): Stores the thread's current fault record to memory. -/
  | frecGet (f : LongForm)
  /-- FREC_FWD (R173): Forwards the trap to the reeve and fails the gang. -/
  | frecFwd (f : LongForm)
  /-- LD (R226): Plain or acquire load. -/
  | ld (f : LongForm)
  /-- ST (R227): Plain or release store. -/
  | st (f : LongForm)
  /-- LDG (R228): Gather load with a completion mask, which does not hold on class 3 faults. -/
  | ldg (f : LongForm)
  /-- STG (R229): Scatter store with a completion mask. -/
  | stg (f : LongForm)
  /-- LDE (R232): Loads one packed narrow element by index. -/
  | lde (f : LongForm)
  /-- STE (R232): Stores one packed narrow element with enables. -/
  | ste (f : LongForm)
  /-- ATOM (R234): Atomic read-modify-write that returns the old value, with aggregation. -/
  | atom (op : AtomOp) (f : LongForm)
  /-- RED (R234): Atomic reduction without a result. -/
  | red (op : RedOp) (f : LongForm)
  /-- WAITC (R236): Waits until a word compares true, through a monitor. -/
  | waitc (f : LongForm)
  /-- FLD (R239): Reads a future, waiting or being deferred while it is empty. -/
  | fld (f : LongForm)
  /-- FSET (R240): Fills or fails an empty future and answers its deferred requests. -/
  | fset (f : LongForm)
  /-- MBSEND (R244): Sends a 64-byte message to a mailbox of the die. -/
  | mbsend (f : LongForm)
  /-- MBRECV (R245): Takes a message from the core's mailbox, waiting if it is empty. -/
  | mbrecv (f : LongForm)
  /-- MBPEEK (R246): Returns a mailbox's count and binding. -/
  | mbpeek (f : LongForm)
  /-- FENCE (R247): Fence at a scope. -/
  | fence (f : LongForm)
  /-- XFENCE (R213): Fence that also admits chains from path P to path Q. -/
  | xfence (f : LongForm)
  /-- CFLUSH (R248): Writes back the dirty bytes of a range. -/
  | cflush (f : LongForm)
  /-- CINV (R249): Drops the L1 copies of a range and covers it. -/
  | cinv (f : LongForm)
  /-- CINV_CODE (R250): Drops instruction-cache lines of a range on every core. -/
  | cinvCode (f : LongForm)
  /-- PREF (R251): Prefetches a line with a hint. -/
  | pref (f : LongForm)
  /-- EVPOST (R264): Posts an event record with a register-pair payload to a stream. -/
  | evpost (f : LongForm)
  /-- EVPOST_BUF (R264): Posts an event record whose 48-byte payload is read from memory. -/
  | evpostBuf (f : LongForm)
  /-- EVBAR (R265): Posts barrier records to the listed streams. -/
  | evbar (f : LongForm)
  /-- AMLOAD (R281): Loads an automaton image into a hayward slot. -/
  | amload (f : LongForm)
  /-- AMARM (R282): Arms an automaton on its stream. -/
  | amarm (f : LongForm)
  /-- AMDISARM (R282): Disarms an automaton and discards its candidates. -/
  | amdisarm (f : LongForm)
  /-- AMDISARM_FREE (R282): Disarms an automaton and frees its slot. -/
  | amdisarmFree (f : LongForm)
  /-- AMSAVE (R283): Writes a snapshot of an automaton as a save record. -/
  | amsave (f : LongForm)
  /-- AMSAVE_STOP (R283): Snapshots an automaton, disarms it, and frees it on success. -/
  | amsaveStop (f : LongForm)
  /-- AMRESTORE (R284): Restores an automaton and its candidates from a save record. -/
  | amrestore (f : LongForm)
  /-- BEQUEATH (R302): Records up to eight registers in the group's bequest area. -/
  | bequeath (f : LongForm)
  /-- GRPBAR (R305): Long group barrier. -/
  | grpbar (f : LongForm)
  /-- GANGBAR (R305): Long gang barrier. -/
  | gangbar (f : LongForm)
  /-- STAGEBAR (R305): Long stage barrier. -/
  | stagebar (f : LongForm)
  /-- OWN_CLAIM (R311): Claims an ownership record for the next launch of a template. -/
  | ownClaim (f : LongForm)
  /-- OWN_SELF (R311): Binds the group to an ownership record. -/
  | ownSelf (f : LongForm)
  /-- OWN_WORD (R311): Enters a word-to-record entry in the owner directory. -/
  | ownWord (f : LongForm)
  /-- OWN_MBOX (R311): Binds a record to a mailbox. -/
  | ownMbox (f : LongForm)
  /-- DISOWN_CLAIM (R311): Removes an unconsumed claim. -/
  | disownClaim (f : LongForm)
  /-- DISOWN_SELF (R311): Writes ostate 6 and ends the group's binding. -/
  | disownSelf (f : LongForm)
  /-- DISOWN_WORD (R311): Removes an owner-directory entry. -/
  | disownWord (f : LongForm)
  /-- DISOWN_MBOX (R311): Removes a mailbox's record binding. -/
  | disownMbox (f : LongForm)
  /-- HELPQ (R317): Adopts a record's owner if it is adoptable, without waiting, and returns a status word. -/
  | helpq (f : LongForm)
  /-- MTASK (R341): Reads and checks a tile-task record and captures its wait slots. -/
  | mtask (f : LongForm)
  /-- MWAIT (R342): Long MWAIT. -/
  | mwait (f : LongForm)
  /-- MPOLL (R343): Returns a slot's state without waiting. -/
  | mpoll (f : LongForm)
  /-- BINLD (R344): Reads a bin word. -/
  | binld (f : LongForm)
  /-- BINST (R344): Writes a bin word. -/
  | binst (f : LongForm)
  /-- BINZ (R344): Zeros a bin region. -/
  | binz (f : LongForm)
  /-- BLDP (R347): Loads or clears a bolter program slot. -/
  | bldp (f : LongForm)
  /-- CPY (R364): Queues a one-row byte copy. -/
  | cpy (f : LongForm)
  /-- CPY2 (R364): Queues a two-dimensional byte copy. -/
  | cpy2 (f : LongForm)
  /-- CPYT (R364): Queues a converting tensor copy. -/
  | cpyt (f : LongForm)
  /-- CPYR (R364): Queues a reducing copy. -/
  | cpyr (f : LongForm)
  /-- CPYQ (R366): Returns the carter's queue status. -/
  | cpyq (f : LongForm)
  /-- STREL (R383): Counted release store to the peer aperture. -/
  | strel (f : LongForm)
  /-- NETQ (R373): Samples the core's droveway node status. -/
  | netq (f : LongForm)
  /-- HINT_L (R66): A long opcode of the hint space, which executes as NOP. -/
  | hintL (g : BitVec 5) (h : BitVec 6) (x : BitVec 47) (lit : Option W32)
  /-- BEND (R354): Ends the bolter program for the row. -/
  | bend
  /-- BNOP (R356): Bolter no-operation. -/
  | bnop
  /-- BLD (R356): Loads the bin row into an element register, optionally from INT32. -/
  | bld (d : BitVec 3) (int : Bool)
  /-- BST (R356): Stores an element register to the bin row at commit. -/
  | bst (a : BitVec 3)
  /-- BCONST (R356): Broadcasts a constant into an element register. -/
  | bconst (d x : BitVec 3)
  /-- BCOLV (R356): Loads a per-column vector. -/
  | bcolv (d x : BitVec 3) (bf16 : Bool)
  /-- BROWV (R356): Loads a per-row value into every lane. -/
  | browv (d x : BitVec 3) (bf16 : Bool)
  /-- BADD (R357): Bolter add. -/
  | badd (d a b : BitVec 3)
  /-- BSUB (R357): Bolter subtract. -/
  | bsub (d a b : BitVec 3)
  /-- BMUL (R357): Bolter multiply. -/
  | bmul (d a b : BitVec 3)
  /-- BFMA (R357): Bolter fused multiply-add. -/
  | bfma (d a b x : BitVec 3)
  /-- BMIN (R356): Bolter minimum. -/
  | bmin (d a b : BitVec 3)
  /-- BMAX (R356): Bolter maximum. -/
  | bmax (d a b : BitVec 3)
  /-- BCLAMP (R356): Bolter clamp. -/
  | bclamp (d a b x : BitVec 3)
  /-- BRELU (R356): Bolter ReLU. -/
  | brelu (d a : BitVec 3)
  /-- BGELU (R357): Bolter GELU. -/
  | bgelu (d a : BitVec 3)
  /-- BSILU (R357): Bolter SiLU. -/
  | bsilu (d a : BitVec 3)
  /-- BTANH (R357): Bolter tanh. -/
  | btanh (d a : BitVec 3)
  /-- BAMAX (R356): Maximum magnitude across the row, broadcast to every lane. -/
  | bamax (d a : BitVec 3)
  /-- BSCALE (R358): Computes a power-of-two scale for a narrow format. -/
  | bscale (d a : BitVec 3) (fmt : BitVec 4)
  /-- BSTO (R358): Converts a row and stores it at tout + i × opitch. -/
  | bsto (a b : BitVec 3) (i : BitVec 7)
  /-- BSTSC (R358): Stores the row's scale. -/
  | bstsc (a x : BitVec 3) (wide : Bool)
  /-- BAMAXG (R358): Global unsigned maximum of a magnitude into a memory word. -/
  | bamaxg (a x : BitVec 3)
  /-- STAIL_WRITE (R260): A write of a stream's tail, accepted, ignored as stale, or setting ovf. -/
  | stailWrite (n : Nat) (v : W32)
  /-- STREAM_ENABLE (R257): A write of SCTL en, accepted or refused with cfgerr. -/
  | streamEnable (n : Nat) (v : W32)
  /-- STREAM_RESET (R267): A write of rst stops the stream, discards its candidates and kills the gangs it launched. -/
  | streamReset (n : Nat)
  /-- SWAP_OUT (R36): A waiting group is parked into its save area. -/
  | swapOut (tag grp : Nat)
  /-- GROUP_RESUME (R36): A parked group resumes on a core of the die once its wake condition holds. -/
  | groupResume (tag grp core : Nat)
  /-- PREEMPT_SIGNAL (R176): The reeve signals a gang; runnable threads enter the handler with class 8. -/
  | preemptSignal (tag : Nat)
  /-- LOAD_REPLY (R226): A load or atomic reply arrives and writes its destination. -/
  | loadReply (id : Nat)
  /-- DEFERRED_ERROR (R223): An error found at the performing place is raised imprecisely in the thread. -/
  | deferredError (id : Nat)
  /-- DEPOSIT_ARRIVAL (R182): A reply or slot completion for a saved group is written to the save area and pend drops. -/
  | depositArrival (id : Nat)
  /-- MONITOR_REPLY (R236): A write that makes a monitored comparison true replies to the waiting thread. -/
  | monitorReply (tag grp tid : Nat)
  /-- FUTURE_ANSWER (R242): A write that fills a future answers its deferred FLD requests. -/
  | futureAnswer (tag grp tid : Nat)
  /-- MILL_HOLD (R334): Setting hold stops the mill's task at the next interruptible boundary. -/
  | millHold (ham mill : Nat)
  /-- MILL_RELEASE (R334): Clearing hold continues the held task at its next step. -/
  | millRelease (ham mill : Nat)
  /-- COPY_UNIT (R367): The carter performs one unit of a copy. -/
  | copyUnit (ham copy unit : Nat)
  /-- COPY_COMPLETION (R368): The carter writes the completion word and posts the copy's event. -/
  | copyCompletion (ham copy : Nat)
  /-- STREL_APPLY (R216): The switch applies a held STREL once its counted accesses have arrived. -/
  | strelApply (id : Nat)
  /-- FAB_ACCESS (R379): An access from the fabric arrives at a home slice, including recalls. -/
  | fabAccess (peer : Option Nat) (off : Nat) (op : FabOp)
  /-- HOST_MARKED_READ (R217): The first acquire of a marked word writes back deferred lines. -/
  | hostMarkedRead (addr : Nat)
  /-- HOST_OWNERSHIP_REQUEST (R217): A host request for ownership of a deferred line writes back its dirty bytes first. -/
  | hostOwnershipRequest (line : Nat)
  /-- EVICTION_ERROR (R204): An uncorrectable error at eviction poisons the granule and writes a record to the last writer's die. -/
  | evictionError (granule : Nat)
  /-- NODE_THROTTLE (R372): A node's deflection count crosses 64 or falls to 32, which throttles or unthrottles it. -/
  | nodeThrottle (core count : Nat)
  /-- WINDOW_ENABLE (R192): A write of en = 1 starts a window enable or refuses it. -/
  | windowEnable (w : Nat) (v : W32)
  /-- WINDOW_DISABLE (R194): A write of en = 0 clears on and starts write-back. -/
  | windowDisable (w : Nat) (v : W32)
  /-- XLI_INVALIDATE (R200): A write of act = 1 starts removing cached translations of a range. -/
  | xliInvalidate (v : W32)
  /-- RQ_RETRY (R389): Reeve action retry on a class 3 record replays its joined accesses. -/
  | rqRetry (die slot : Nat)
  /-- RQ_FAIL (R389): Reeve action fail on a class 3 record raises cause 0x30 in its accesses. -/
  | rqFail (die slot : Nat)
  /-- RQ_DROP (R389): Reeve action drop ends an overflow hold by dropping the new candidate. -/
  | rqDrop (die slot : Nat)
  /-- RQCONS_WRITE (R388): A write of RQCONS frees reeve queue slots if it is in range. -/
  | rqconsWrite (die : Nat) (v : W32)
  /-- RQBASE_WRITE (R387): A write of RQBASE is accepted only if it is aligned and local. -/
  | rqbaseWrite (die : Nat) (v : W64)
  /-- REEVE_RESTART (R395): A write of rrst restarts a hung reeve alone. -/
  | reeveRestart (die : Nat)
  /-- HEARTBEAT (R392): A reeve heartbeat reaches a partner and hbeat advances. -/
  | heartbeat (die : Nat) (column : Bool)
  /-- HANG_DECLARE (R392): After 1,000 µs without a heartbeat, the partner declares the reeve hung. -/
  | hangDeclare (die : Nat)
  /-- COLUMN_HANG_DECLARE (R392): After 1,200 µs, the column partner declares the reeve hung and adopts its streams. -/
  | columnHangDeclare (die : Nat)
  /-- MARGIN_SAMPLE (R398): The reeve samples path-delay margin, adjusts the supply, and may declare the margin exhausted. -/
  | marginSample (die : Nat) (pdm : BitVec 16)
  /-- CODE_TABLE_REFRESH (R295): The reeve refreshes the temperature, droop and injection tables. -/
  | codeTableRefresh (die : Nat) (temp droop inj : Bytes)
  /-- PATROL_SCRUB (R399): Patrol scrubbing reads and corrects granules. -/
  | patrolScrub (granule : Nat) (found : ScrubFound)
  /-- CONTROLLER_BOOT (R386): A controller verifies and starts its firmware image after reset. -/
  | controllerBoot (ctl : Nat) (img : FwImage)
  /-- FUNCTION_READY (R391): A function finishes bring-up and sets its ready bit. -/
  | functionReady (f : DevFn)
  /-- BRINGUP_FAIL (R19): A function's bring-up fails; its failure bit is set and its held accesses complete poisoned. -/
  | bringupFail (f : DevFn)
  /-- LSTATE_WRITE (R295): A write of the lottery state, in which 0 stores 1. -/
  | lstateWrite (die : Nat) (v : W32)
  /-- FSTRIPE_WRITE (R376): A write of FSTRIPE, which leaves out-of-range fields unchanged. -/
  | fstripeWrite (v : W32)
  /-- REGISTER_WRITE (R4): A write of a control register that has no behaviour of its own. -/
  | registerWrite (bar off : Nat) (v : W32)
  /-- HOST_MEMORY_WRITE (R17): A host write, to a location in host memory, or through CXL.mem (BAR2) to device memory at its home slice: the latter is discarded above 1.5 TiB, held while the channel is not ready, and otherwise applied, waking monitors and answering futures. -/
  | hostMemoryWrite (addr : Nat) (bytes : Bytes)
  /-- STORE_ACKNOWLEDGEMENT (R247): The acknowledgement that an earlier write has been applied at its home, or by the fabric, arrives and lets a waiting FENCE, XFENCE or CFLUSH go on. -/
  | storeAcknowledgement (tag grp tid : Nat)
  /-- NACK_RESEND (R241): Every 1,024 cycles, a negatively acknowledged FLD or WAITC is sent again. -/
  | nackResend (tag grp tid : Nat)
  /-- PREEMPT_DEADLINE (R178): The pre-emption budget expires and unanswered groups are fully saved. -/
  | preemptDeadline (tag : Nat)
  /-- HELPER_RESUME (R314): When an adopted owner exits or parks, the helper below it resumes and presents its waits again. -/
  | helperResume (tag grp : Nat)
  /-- ADOPTION (R314): At its adoption point, a group is parked and an adoptable owner runs on its resources. -/
  | adoption (tag grp : Nat)
  /-- PROGRESS_TIMEOUT (R255): The progress timeout expires; the reeve stops the gang and writes a class 9 record. -/
  | progressTimeout (tag : Nat)
  /-- FAIRNESS_MOVE (R37): The fairness count reaches fair and moves the warp's issue address. -/
  | fairnessMove (tag grp warp : Nat)
  /-- BARRIER_COMPLETE (R305): A barrier instance completes and its threads are released. -/
  | barrierComplete (tag : Nat) (kind : BarKind) (idx : Nat)
  /-- MEETING_RELEASE (R31): Threads held at a meeting address are released together and re-formed. -/
  | meetingRelease (tag grp : Nat) (addr : W64)
  /-- REGGROW_FAIL (R106): When every resident group's request is stuck, the youngest fails. -/
  | reggrowFail (core : Nat)
  /-- REGGROW_GRANT (R105): A pending budget request is granted once free storage covers it. -/
  | reggrowGrant (tag grp : Nat)
  /-- CTXLOAD_DONE (R174): A CTXLOAD finishes reading and sets or fails its slot. -/
  | ctxloadDone (tag grp slot : Nat)
  /-- TASK_COMPLETION (R335): The miller sets or fails the task's slot and the completion event is posted. -/
  | taskCompletion (ham task : Nat)
  /-- EPILOGUE_STEP (R354): Step E(p) runs the bolter program over each row and commits its stores. -/
  | epilogueStep (ham mill : Nat)
  /-- LOAD_ADD_STEP (R351): Step L(p) of MBADD adds a scaled matrix into the bin. -/
  | loadAddStep (ham mill : Nat)
  /-- K_STEP (R85): Step X(p,s) accumulates one K-step into the bin, whole or not at all. -/
  | kStep (ham mill : Nat)
  /-- ZERO_STEP (R333): Step Z(p) writes +0 to the pass's bin region. -/
  | zeroStep (ham mill : Nat)
  /-- TASK_ISSUE (R329): The miller issues the oldest ready task to a free mill. -/
  | taskIssue (ham : Nat)
  /-- COPY_ENQUEUE (R364): A held copy instruction enqueues its copy once the carter queue has room. -/
  | copyEnqueue (tag grp warp : Nat)
  /-- BLDP_REPLACE (R347): Once the slot's references read zero, BLDP replaces or clears the bolter program. -/
  | bldpReplace (tag grp warp : Nat)
  /-- MTASK_ENQUEUE (R341): A held MTASK enqueues its task once the miller queue has room. -/
  | mtaskEnqueue (tag grp warp : Nat)
  /-- WINDOW_DISABLE_DONE (R194): The disable's write-back finishes and busy clears. -/
  | windowDisableDone (w : Nat)
  /-- WINDOW_ENABLE_DONE (R192): The enable's write-back finishes; on is set and busy clears. -/
  | windowEnableDone (w : Nat)
  /-- GANG_COMPLETE (R300): A gang completes, posts its completion event and writes astate. -/
  | gangComplete (tag : Nat)
  /-- GROUP_COMPLETE (R132): A group completes once every thread has exited and its accesses, tasks and copies are done. -/
  | groupComplete (tag grp : Nat)
  /-- LOTTERY_DRAW (R296): The reeve draws an eligible queue by lottery and tries to place its head record. -/
  | lotteryDraw (die : Nat)
  /-- GANG_COMMIT (R299): The beadles reserve and commit every group, write astate 2, inherit, and start the threads. -/
  | gangCommit (die : Nat)
  /-- LAUNCH_ENQUEUE (R294): A launch record enters its launch queue once that queue has room. -/
  | launchEnqueue (n : Nat)
  /-- ARG_BLOCK_WRITE (R291): Once the ring block's astate is 0, the hayward writes the argument block and builds the launch record. -/
  | argBlockWrite (n : Nat)
  /-- INVARIANT_EXPIRY (R276): A state invariant expires and the candidate is discarded. -/
  | invariantExpiry (die : Nat)
  /-- DEADLINE_EDGE (R276): A candidate's deadline falls due and its deadline edge is taken as a timer event. -/
  | deadlineEdge (die : Nat)
  /-- BARRIER_RECORD_DONE (R262): Once arr equals n, the barrier record is consumed and fetch goes on. -/
  | barrierRecordDone (n : Nat)
  /-- BARRIER_RECORD (R262): The hayward reaches a barrier record, adds an arrival and waits. -/
  | barrierRecord (n : Nat)
  /-- OVERFLOW_HOLD_END (R278): A stalled stream resumes its offer once room appears, or drops the new candidate. -/
  | overflowHoldEnd (n : Nat)
  /-- EVENT_OFFER (R274): The hayward consumes the published record at SHEAD and offers it to the armed automata. -/
  | eventOffer (n : Nat)
  /-- STREAM_RESET_DRAIN (R267): Once the killed gangs' outstanding counters read zero, the heads are reset and rst clears. -/
  | streamResetDrain (n : Nat)
  /-- XLI_DONE (R200): The invalidation completes and act reads 0. -/
  | xliDone
  /-- PORT_LOAD (R286): Port command hop 0 loads an automaton. -/
  | portLoad
  /-- PORT_ARM (R286): Port command hop 1 arms an automaton. -/
  | portArm
  /-- PORT_DISARM (R286): Port command hop 2 disarms an automaton. -/
  | portDisarm
  /-- PORT_DISARM_FREE (R286): Port command hop 3 disarms an automaton and frees its slot. -/
  | portDisarmFree
  /-- PORT_SAVE (R286): Port command hop 4 saves an automaton. -/
  | portSave
  /-- PORT_SAVE_STOP (R286): Port command hop 5 saves and stops an automaton. -/
  | portSaveStop
  /-- PORT_RESTORE (R286): Port command hop 6 restores an automaton. -/
  | portRestore
  /-- PORT_RESERVED_OP (R286): Port command hop 7 does nothing and returns err code 11. -/
  | portReservedOp
  /-- ATTEST_REQUEST (R403): A write of go produces a signed attestation report. -/
  | attestRequest
  /-- DEVICE_RESET (R391): A reset of the device returns every register, map, slot and counter to its reset value and starts bring-up. -/
  | deviceReset
  /-- FABRIC_PORT_TRAINED (R376): The fabric port finishes link training, and fon reads 1. -/
  | fabricPortTrained
  deriving DecidableEq, Repr

end Sys2Proof
end

