-- ==== Sys2Proof/WellFormed.lean ====
section
/-! DEFINITION. Which instructions are well formed: the rows of 04 Table 4.11 that give `ILLOP`, decided from the
encoding alone (types, `op`, scope, hint, unused fields, formats), and the ranges of the happenings' operands. -/

namespace Sys2Proof

/-- The fields of the three layouts of `mod` (04 Table 4.9). -/
def LongForm.ty (f : LongForm) : Nat := (f.mod >>> 6).toNat
def LongForm.op (f : LongForm) : Nat := (f.mod &&& 0x3F#11).toNat
def LongForm.scope (f : LongForm) : Nat := ((f.mod >>> 3) &&& 7#11).toNat
def LongForm.hint (f : LongForm) : Nat := ((f.mod >>> 1) &&& 3#11).toNat
def LongForm.dty (f : LongForm) : Nat := (f.mod >>> 6).toNat
def LongForm.sat (f : LongForm) : Bool := f.mod.getLsbD 5
def LongForm.sty (f : LongForm) : Nat := (f.mod &&& 0x1F#11).toNat
def LongForm.mod0 (f : LongForm) : Bool := f.mod.getLsbD 0

/-- The source code that names the literal parcel (04 Table 4.7). -/
def litCode : BitVec 9 := 0x17F#9

/-- A guard with `en` 0 must be all zero (04 Table 4.6). -/
def guardOk (g : BitVec 5) : Bool := g == 0#5 || g.getLsbD 4

namespace TypeSet

/-- The type sets of 07 R107, 08 R139 and 12 R220, as type codes of 04 Table 4.10. -/
def w32 : List Nat := [3, 7, 11]
def w64 : List Nat := [4, 8, 12]
def w : List Nat := w32 ++ w64
def b : List Nat := [3, 4]
def i : List Nat := [7, 8]
def n : List Nat := [11, 12]
def h : List Nat := [13, 14, 15]
def p : List Nat := [13, 14]
def e : List Nat := [17, 18, 19, 20, 21]
def ints : List Nat := [5, 6, 7, 8, 9, 10, 11, 12]
def floats : List Nat := [13, 14, 15, 16, 17, 18, 19, 20, 21]
def l : List Nat := [1, 2, 3, 4] ++ ints ++ [13, 14, 15]

end TypeSet

/-- Which fields an entry uses, whether it has a result, and whether format X is listed for it. -/
structure Uses where
  dst : Bool
  sa  : Bool
  sb  : Bool
  sc  : Bool
  res : Bool
  x   : Bool

/-- The checks common to every long entry: the guard, unused fields zero, `w` only with a result, and format X only
where it is listed and some used field holds `LIT` (04 R53, R64). -/
def LongForm.uses (f : LongForm) (u : Uses) : Bool :=
  guardOk f.g && (u.dst || f.dst == 0#8) && (u.sa || f.sa == 0#9) && (u.sb || f.sb == 0#9) && (u.sc || f.sc == 0#9) &&
  (u.res || !f.w) &&
  (f.lit.isNone || (u.x && ((u.sa && f.sa == litCode) || (u.sb && f.sb == litCode) || (u.sc && f.sc == litCode))))

/-- Layout A: a type of the set and an `op` that the row lists. -/
def LongForm.tyOp (f : LongForm) (tys : List Nat) (op : Bool) : Bool := tys.contains f.ty && op

/-- Layout M: a type, a scope and a hint that the row lists; bit [53] zero. -/
def LongForm.mem (f : LongForm) (tys scopes hints : List Nat) : Bool :=
  tys.contains f.ty && scopes.contains f.scope && hints.contains f.hint && !f.mod0

def allScopes : List Nat := [0, 1, 2, 3, 4, 5, 6, 7]
def allHints : List Nat := [0, 1, 2, 3]

/-- Fields of the common shapes. -/
def u1 : Uses := ⟨true, true, false, false, true, true⟩
def u2 : Uses := ⟨true, true, true, false, true, true⟩
def u3 : Uses := ⟨true, true, true, true, true, true⟩
def uNone : Uses := ⟨false, false, false, false, false, false⟩

/-- Types that an atomic operation takes (12 Table 12.4). -/
def AtomOp.types : AtomOp → List Nat
  | .add | .min | .max => [7, 8, 11, 12]
  | .and | .or | .xor | .exch | .cas => [3, 4]
  | .incw | .decw => [11]
  | .fadd => [15]

def RedOp.types : RedOp → List Nat
  | .add | .min | .max => [7, 8, 11, 12]
  | .and | .or | .xor => [3, 4]
  | .fadd => [15]

/-- `.sat` with a B type is illegal (07 R113). -/
def LongForm.satOk (f : LongForm) : Bool := f.op == 0 || (f.op == 1 && !TypeSet.b.contains f.ty)

/-- The width code and the type of a cross-lane instruction (08 R157, R161). -/
def LongForm.wc (f : LongForm) : Nat := f.op / 4 % 8
def LongForm.fnOk (f : LongForm) : Bool :=
  if f.op % 4 == 3 then f.ty == 3 else [7, 11, 15].contains f.ty

/-- The pairs of types of `CVTS` (08 R151, R152). -/
def LongForm.cvtsOk (f : LongForm) : Bool :=
  ((TypeSet.h ++ [16]).contains f.sty && TypeSet.e.contains f.dty) ||
  (TypeSet.e.contains f.sty && TypeSet.h.contains f.dty) || (f.dty == 1 && f.sty == 15)

/-- A condition and a combine of `ICMP` (07 R122). -/
def LongForm.icmpOk (f : LongForm) : Bool :=
  f.op < 24 && f.op % 8 ≤ 5 && (TypeSet.i ++ TypeSet.n).contains f.ty ||
  f.op < 24 && f.op % 8 ≤ 1 && TypeSet.b.contains f.ty

/-- Well-formedness of an instruction: false exactly where 04 Table 4.11 gives `ILLOP`. A happening is well formed when
its operands name something that exists. -/
def Instr.wf : Instr → Bool
  | .nopS g | .exitS g | .retS g | .yieldS g | .tretS g | .pdoneS g | .grpbarS g | .gangbarS g | .stagebarS g => guardOk g
  | .braS f | .callS f | .meetS f => guardOk f.g
  | .movS f | .notS f | .inegS f | .iabsS f | .popcS f | .clzS f | .brevS f | .srdS f | .swrS f | .kmovS f | .knotS f
  | .kpopS f | .rcpS f | .rsqS f | .sqrtS f => guardOk f.g
  | .mwaitS g _ => guardOk g
  | .hintS _ h _ => h.toNat < 16
  | .mov f => f.uses u1 && f.tyOp TypeSet.w (f.op == 0)
  | .movl f => f.uses u2 && f.lit.isSome && f.tyOp [4] (f.op == 0)
  | .lea f => f.uses u2 && f.tyOp [0, 7, 11] (f.op ≤ 4)
  | .iadd f | .isub f | .imul f => f.uses u2 && f.tyOp TypeSet.w f.satOk
  | .imad f => f.uses u3 && f.tyOp TypeSet.w f.satOk
  | .imulh f | .idiv f | .irem f | .imin f | .imax f => f.uses u2 && f.tyOp (TypeSet.i ++ TypeSet.n) (f.op == 0)
  | .iabs f | .ineg f => f.uses u1 && f.tyOp TypeSet.i (f.op ≤ 1)
  | .and f | .or f | .xor f | .andn f | .shl f | .shr f | .sar f | .rol f => f.uses u2 && f.tyOp TypeSet.b (f.op == 0)
  | .not f | .popc f | .clz f | .brev f => f.uses u1 && f.tyOp TypeSet.b (f.op == 0)
  | .bfx f => f.uses u2 && f.tyOp (TypeSet.b ++ TypeSet.i ++ TypeSet.n) (f.op == 0)
  | .bfi f | .sel f => f.uses u3 && f.tyOp TypeSet.b (f.op == 0)
  | .icmp f => f.uses ⟨true, true, true, f.op / 8 != 0, false, true⟩ && f.icmpOk
  | .kand f | .kor f | .kxor f => f.uses ⟨true, true, true, false, false, false⟩ && f.tyOp [0] (f.op == 0)
  | .knot f | .kmov f => f.uses ⟨true, true, false, false, false, false⟩ && f.tyOp [0] (f.op == 0)
  | .kpop f | .srd f => f.uses ⟨true, true, false, false, true, false⟩ && f.tyOp [0] (f.op == 0)
  | .bra f | .call f | .meet f => guardOk f.g
  | .brx f => f.uses ⟨false, true, false, false, false, false⟩ && f.tyOp [0] (f.op == 0)
  | .ret f => f.uses ⟨false, f.op == 1, false, false, false, false⟩ && f.tyOp [0] (f.op ≤ 1)
  | .yield f | .exit f | .nop f | .tret f | .pdone f | .grpbar f | .gangbar f | .stagebar f =>
    f.uses uNone && f.tyOp [0] (f.op == 0)
  | .swr f => f.uses ⟨true, true, false, false, false, false⟩ && f.tyOp [0] (f.op == 0)
  | .reggrow f => f.uses ⟨true, true, false, false, false, true⟩ && f.tyOp [0] (f.op == 0)
  | .regshrink f | .trap f => f.uses ⟨false, true, false, false, false, true⟩ && f.tyOp [0] (f.op == 0)
  | .shape f => f.uses u1 && f.tyOp [3] (f.op ≤ 1)
  | .idx f => f.uses u2 && f.tyOp [3] (f.op == 0)
  | .unif f => f.uses u1 && f.tyOp TypeSet.b (f.op == 0)
  | .fadd f | .fsub f | .fmul f => f.uses u2 && f.tyOp TypeSet.h (f.op ≤ 3)
  | .ffma f => f.uses u3 && f.tyOp TypeSet.h (f.op ≤ 7)
  | .fmin f | .fmax f => f.uses u2 && f.tyOp TypeSet.h (f.op ≤ 1)
  | .fcmp f => f.uses ⟨true, true, true, f.op / 8 != 0, false, true⟩ && f.tyOp TypeSet.h (f.op < 24)
  | .fclass f => f.uses u1 && f.tyOp TypeSet.h (f.op == 0)
  | .frnd f => f.uses u1 && f.tyOp TypeSet.h (f.op ≤ 3)
  | .hadd2 f | .hmul2 f => f.uses u2 && f.tyOp TypeSet.p (f.op ≤ 3)
  | .hfma2 f => f.uses u3 && f.tyOp TypeSet.p (f.op ≤ 7)
  | .dot4 f => f.uses u3 && f.tyOp [17, 18, 5, 9] (f.op == 0)
  | .dot2 f => f.uses u3 && f.tyOp [13, 14, 6, 10] (f.op == 0)
  | .cvt _ f => f.uses u1 && (TypeSet.ints ++ TypeSet.floats).contains f.dty &&
    (TypeSet.ints ++ TypeSet.floats).contains f.sty
  | .cvts _ f => f.uses u2 && f.cvtsOk
  | .pack4 f => f.uses ⟨true, true, true, false, true, false⟩ && TypeSet.h.contains f.sty && TypeSet.e.contains f.dty
  | .unpack4 f => f.uses ⟨true, true, true, false, true, false⟩ && !f.w && TypeSet.e.contains f.sty && TypeSet.h.contains f.dty
  | .rcp f | .rsq f | .sqrt f | .ex2 f | .lg2 f | .sin f | .cos f | .tanh f => f.uses u1 && f.tyOp [13, 15] (f.op == 0)
  | .shfl f => f.uses u3 && f.tyOp TypeSet.b (f.op < 24)
  | .vote f => f.uses ⟨true, true, false, false, false, true⟩ && f.tyOp [0] (f.op < 24 && f.op % 4 ≤ 2)
  | .ballot f => f.uses u1 && f.tyOp [0] (f.op < 24 && f.op % 4 == 0)
  | .matchL f | .lfirst f => f.uses u1 && f.tyOp TypeSet.b (f.op < 24 && f.op % 4 == 0)
  | .lscan f => f.uses u1 && f.wc ≤ 5 && f.fnOk
  | .lred f => f.uses u1 && f.op < 24 && f.fnOk
  | .ctxsave f => f.uses ⟨false, true, true, false, false, true⟩ && f.tyOp [0] (f.op == 0)
  | .ctxsaveKeep f => f.uses ⟨false, true, true, false, false, true⟩ && f.tyOp [0] (f.op == 1)
  | .ctxload f | .depwait f => f.uses ⟨true, true, true, false, false, true⟩ && f.tyOp [0] (f.op == 0)
  | .frecGet f => f.uses ⟨false, true, true, false, false, true⟩ && f.tyOp [0] (f.op == 0)
  | .frecFwd f => f.uses ⟨false, false, false, false, false, true⟩ && f.tyOp [0] (f.op == 1)
  | .ld f => f.uses u2 && f.mem TypeSet.l allScopes allHints
  | .st f => f.uses ⟨false, true, true, true, false, true⟩ && f.mem TypeSet.l allScopes allHints
  | .ldg f => f.uses u3 && f.mem TypeSet.l allScopes allHints
  | .stg f => f.uses ⟨true, true, true, true, false, true⟩ && f.mem TypeSet.l allScopes allHints
  | .lde f => f.uses u2 && f.mem TypeSet.e allScopes allHints
  | .ste f => f.uses ⟨false, true, true, true, false, true⟩ && f.mem TypeSet.e allScopes allHints
  | .atom op f => f.uses u3 && (op != .cas || !f.w) && f.mem op.types allScopes allHints
  | .red op f => f.uses ⟨false, true, true, true, false, true⟩ && f.mem op.types allScopes allHints
  | .waitc f => f.uses u3 && f.mem [3, 4, 7, 8, 11, 12] allScopes [0]
  | .fld f => f.uses u3 && f.mem [3, 4] allScopes [0]
  | .fset f => f.uses ⟨false, true, true, true, false, true⟩ && f.mem [0, 3, 4] allScopes [0]
  | .mbsend f => f.uses ⟨true, true, true, true, false, false⟩ && f.mem [0] allScopes [0]
  | .mbrecv f => f.uses ⟨true, true, true, true, true, false⟩ && f.mem [0] allScopes [0]
  | .mbpeek f => f.uses ⟨true, true, false, false, true, false⟩ && f.mem [0] [0] [0]
  | .fence f => f.uses ⟨false, false, false, false, false, true⟩ && f.mem [0] allScopes [0]
  | .xfence f => f.uses ⟨false, true, true, false, false, true⟩ && f.mem [0] allScopes [0]
  | .cflush f | .cinv f => f.uses ⟨false, true, true, true, false, true⟩ && f.mem [0] [0] [0]
  | .cinvCode f => f.uses ⟨false, true, true, true, false, true⟩ && f.mem [0] [0] [1]
  | .pref f => f.uses ⟨false, true, true, false, false, true⟩ && f.mem [0] [0] allHints
  | .evpost f => f.uses ⟨false, true, true, true, false, true⟩ && f.mem [0] allScopes [0]
  | .evpostBuf f => f.uses ⟨false, true, true, true, false, true⟩ && f.mem [0] allScopes [1]
  | .evbar f => f.uses ⟨true, true, true, false, false, true⟩ && f.mem [0] allScopes [0]
  | .amload f | .amrestore f => f.uses u3 && f.mem [0] [0] [0]
  | .amarm f | .amdisarm f => f.uses ⟨true, true, false, false, false, true⟩ && f.mem [0] [0] [0]
  | .amdisarmFree f => f.uses ⟨true, true, false, false, false, true⟩ && f.mem [0] [0] [1]
  | .amsave f => f.uses ⟨true, true, true, true, false, true⟩ && f.mem [0] [0] [0]
  | .amsaveStop f => f.uses ⟨true, true, true, true, false, true⟩ && f.mem [0] [0] [1]
  | .bequeath f => f.uses ⟨false, true, true, false, false, true⟩ && f.tyOp [0] (f.op == 0)
  | .ownClaim f => f.uses ⟨true, true, true, true, false, true⟩ && f.mem [0] [0] [0]
  | .ownSelf f => f.uses ⟨true, true, true, false, false, true⟩ && f.mem [0] [0] [1]
  | .ownWord f => f.uses ⟨true, true, true, true, false, true⟩ && f.mem [0] [0] [2]
  | .ownMbox f => f.uses ⟨true, true, true, true, false, true⟩ && f.mem [0] [0] [3]
  | .disownClaim f => f.uses ⟨true, true, true, false, false, true⟩ && f.mem [0] [0] [0]
  | .disownSelf f => f.uses ⟨true, false, false, false, false, true⟩ && f.mem [0] [0] [1]
  | .disownWord f => f.uses ⟨true, true, true, false, false, true⟩ && f.mem [0] [0] [2]
  | .disownMbox f => f.uses ⟨true, false, false, true, false, true⟩ && f.mem [0] [0] [3]
  | .helpq f => f.uses u2 && f.mem [0] [0] [0]
  | .mtask f => f.uses ⟨true, true, true, false, false, true⟩ && f.mem [0] [0] [0]
  | .mwait f => f.uses ⟨true, false, false, false, false, true⟩ && f.mem [0] [0] [0]
  | .mpoll f => f.uses u1 && f.mem [0] [0] [0]
  | .binld f => f.uses u1 && f.mem [3, 7, 15] [0] [0]
  | .binst f => f.uses ⟨false, true, false, true, false, true⟩ && f.mem [3, 7, 15] [0] [0]
  | .binz f => f.uses ⟨false, true, true, false, false, true⟩ && f.mem [0] [0] [0]
  | .bldp f => f.uses ⟨true, true, true, true, false, true⟩ && f.mem [0] [0] [0]
  | .cpy f | .cpy2 f | .cpyt f | .cpyr f => f.uses ⟨false, true, true, false, false, true⟩ && f.mem [0] [0] [0]
  | .cpyq f | .netq f => f.uses ⟨true, false, false, false, true, true⟩ && f.mem [0] [0] [0]
  | .strel f => f.uses ⟨false, true, true, true, false, true⟩ && f.mem [3, 4, 7, 8, 11, 12, 15] [0, 6, 7] [0]
  | .hintL _ h _ _ => h.toNat < 64
  | .bend | .bnop | .bld _ _ | .bst _ | .badd _ _ _ | .bsub _ _ _ | .bmul _ _ _ | .bfma _ _ _ _ | .bmin _ _ _
  | .bmax _ _ _ | .bclamp _ _ _ _ | .brelu _ _ | .bgelu _ _ | .bsilu _ _ | .btanh _ _ | .bamax _ _ => true
  | .bconst _ _ => true
  | .bcolv _ x _ | .browv _ x _ | .bstsc _ x _ | .bamaxg _ x => x.toNat < 4
  | .bscale _ _ f => 3 ≤ f.toNat && f.toNat ≤ 7
  | .bsto _ _ i => i.toNat % 16 < 8
  | .stailWrite n _ | .streamEnable n _ | .streamReset n | .streamResetDrain n | .eventOffer n | .overflowHoldEnd n
  | .barrierRecord n | .barrierRecordDone n | .argBlockWrite n | .launchEnqueue n => n < 4096
  | .deadlineEdge d | .invariantExpiry d | .lotteryDraw d | .gangCommit d | .rqRetry d _ | .rqFail d _ | .rqDrop d _
  | .rqconsWrite d _ | .rqbaseWrite d _ | .reeveRestart d | .heartbeat d _ | .hangDeclare d | .columnHangDeclare d
  | .marginSample d _ | .lstateWrite d _ => d < 8
  | .codeTableRefresh d t p j => d < 8 && t.length == 128 && p.length == 128 && j.length == 128
  | .groupComplete _ g | .meetingRelease _ g _ | .fairnessMove _ g _ | .swapOut _ g | .adoption _ g | .helperResume _ g
  | .monitorReply _ g _ | .futureAnswer _ g _ | .nackResend _ g _ | .ctxloadDone _ g _ | .mtaskEnqueue _ g _
  | .bldpReplace _ g _ | .copyEnqueue _ g _ | .storeAcknowledgement _ g _ | .reggrowGrant _ g => g < 16
  | .groupResume _ g c => g < 16 && c < 1024
  | .gangComplete _ | .barrierComplete _ _ _ | .progressTimeout _ | .preemptSignal _ | .preemptDeadline _ => true
  | .loadReply _ | .deferredError _ | .depositArrival _ | .strelApply _ => true
  | .reggrowFail c | .nodeThrottle c _ => c < 1024
  | .taskIssue h | .taskCompletion h _ | .copyUnit h _ _ | .copyCompletion h _ => h < 128
  | .zeroStep h m | .kStep h m | .loadAddStep h m | .epilogueStep h m | .millHold h m | .millRelease h m => h < 128 && m < 2
  | .fabAccess p _ _ => p.all (· < 576)
  | .hostMarkedRead _ | .hostOwnershipRequest _ | .evictionError _ | .patrolScrub _ _ => true
  | .windowEnable w _ | .windowEnableDone w | .windowDisable w _ | .windowDisableDone w => w < 16
  | .xliInvalidate _ | .xliDone | .portLoad | .portArm | .portDisarm | .portDisarmFree | .portSave | .portSaveStop
  | .portRestore | .portReservedOp | .attestRequest | .deviceReset | .fabricPortTrained => true
  | .controllerBoot c _ => c < 136
  | .functionReady _ | .bringupFail _ => true
  | .fstripeWrite _ | .registerWrite _ _ _ | .hostMemoryWrite _ _ => true

end Sys2Proof
end

