-- ==== Sys2Proof/Decode.lean ====
section
/-! DEFINITION. The decoder of fetch-line parcels and of bolter words, total on any bits and rejecting by name, and after
it the encoder, both from 04 Tables 4.4, 4.5, 4.12 and 4.13 and 23 Tables 23.8 and 23.8a. -/

namespace Sys2Proof

/-- Why a word is no instruction. All of them are `ILLOP` at a core (04 R64); `illFormed` names the entry whose fields
04 Table 4.11 forbids. -/
inductive Reject where
  | reservedLength
  | reservedOpcode
  | wrongFormat
  | illFormed (i : Instr)
  | notBolter
  deriving DecidableEq, Repr

/-- Bits [hi:lo] of a word, as a bit vector of the width that the use fixes. -/
def bitsOf (w : Nat) (lo n : Nat) : BitVec n := BitVec.ofNat n (w >>> lo)

/-- The short opcode space (04 Table 4.12) with the fields of formats S0, S1 and S2. -/
def parseShort (p : Nat) : Except Reject Instr :=
  let g : BitVec 5 := bitsOf p 2 5
  let opc := (bitsOf p 7 8).toNat
  let f : ShortForm := ⟨g, bitsOf p 24 8, bitsOf p 15 9⟩
  let b : ShortBranch := ⟨g, bitsOf p 15 17⟩
  let s0 (i : Instr) : Except Reject Instr := if bitsOf p 15 17 == 0#17 then .ok i else .error .wrongFormat
  if 0xF0 ≤ opc then .ok (.hintS g (bitsOf p 7 4) (bitsOf p 15 17)) else
  match opc with
  | 0x00 => s0 (.nopS g)
  | 0x01 => s0 (.exitS g)
  | 0x02 => s0 (.retS g)
  | 0x03 => s0 (.yieldS g)
  | 0x04 => s0 (.tretS g)
  | 0x05 => s0 (.pdoneS g)
  | 0x06 => s0 (.grpbarS g)
  | 0x07 => s0 (.gangbarS g)
  | 0x08 => s0 (.stagebarS g)
  | 0x10 => .ok (.braS b)
  | 0x11 => .ok (.callS b)
  | 0x12 => .ok (.meetS b)
  | 0x20 => .ok (.movS f)
  | 0x21 => .ok (.notS f)
  | 0x22 => .ok (.inegS f)
  | 0x23 => .ok (.iabsS f)
  | 0x24 => .ok (.popcS f)
  | 0x25 => .ok (.clzS f)
  | 0x26 => .ok (.brevS f)
  | 0x27 => .ok (.srdS f)
  | 0x28 => .ok (.swrS f)
  | 0x29 => .ok (.kmovS f)
  | 0x2a => .ok (.knotS f)
  | 0x2b => .ok (.kpopS f)
  | 0x2c => .ok (.rcpS f)
  | 0x2d => .ok (.rsqS f)
  | 0x2e => .ok (.sqrtS f)
  | 0x30 => if f.sa == 0#9 then .ok (.mwaitS g f.dst) else .error .wrongFormat
  | _ => .error .reservedOpcode

/-- The long opcode space (04 Table 4.13) but for the LB opcodes and the hint space; where one opcode has several rows
its `op` or `hint` chooses (09 Table 9.4, 12 R250, 15 Table 15.7, 16 Table 16.7a, 18 Table 18.4). -/
def longRow (opc : Nat) (f : LongForm) : Option Instr :=
  match opc with
  | 0x000 => some (.mov f)
  | 0x001 => some (.movl f)
  | 0x002 => some (.lea f)
  | 0x003 => some (.iadd f)
  | 0x004 => some (.isub f)
  | 0x005 => some (.imul f)
  | 0x006 => some (.imulh f)
  | 0x007 => some (.imad f)
  | 0x008 => some (.idiv f)
  | 0x009 => some (.irem f)
  | 0x00a => some (.imin f)
  | 0x00b => some (.imax f)
  | 0x00c => some (.iabs f)
  | 0x00d => some (.ineg f)
  | 0x010 => some (.and f)
  | 0x011 => some (.or f)
  | 0x012 => some (.xor f)
  | 0x013 => some (.andn f)
  | 0x014 => some (.not f)
  | 0x015 => some (.shl f)
  | 0x016 => some (.shr f)
  | 0x017 => some (.sar f)
  | 0x018 => some (.rol f)
  | 0x019 => some (.bfx f)
  | 0x01a => some (.bfi f)
  | 0x01b => some (.popc f)
  | 0x01c => some (.clz f)
  | 0x01d => some (.brev f)
  | 0x01e => some (.sel f)
  | 0x01f => some (.icmp f)
  | 0x020 => some (.kand f)
  | 0x021 => some (.kor f)
  | 0x022 => some (.kxor f)
  | 0x023 => some (.knot f)
  | 0x024 => some (.kmov f)
  | 0x025 => some (.kpop f)
  | 0x031 => some (.brx f)
  | 0x033 => some (.ret f)
  | 0x035 => some (.yield f)
  | 0x036 => some (.exit f)
  | 0x037 => some (.nop f)
  | 0x038 => some (.srd f)
  | 0x039 => some (.swr f)
  | 0x03a => some (.reggrow f)
  | 0x03b => some (.regshrink f)
  | 0x03c => some (.shape f)
  | 0x03d => some (.idx f)
  | 0x03e => some (.unif f)
  | 0x040 => some (.fadd f)
  | 0x041 => some (.fsub f)
  | 0x042 => some (.fmul f)
  | 0x043 => some (.ffma f)
  | 0x044 => some (.fmin f)
  | 0x045 => some (.fmax f)
  | 0x046 => some (.fcmp f)
  | 0x047 => some (.fclass f)
  | 0x048 => some (.frnd f)
  | 0x049 => some (.hadd2 f)
  | 0x04a => some (.hmul2 f)
  | 0x04b => some (.hfma2 f)
  | 0x04c => some (.dot4 f)
  | 0x04d => some (.dot2 f)
  | 0x050 => some (.cvt .rn f)
  | 0x051 => some (.cvt .rz f)
  | 0x052 => some (.cvt .rd f)
  | 0x053 => some (.cvt .ru f)
  | 0x054 => some (.cvts .rn f)
  | 0x055 => some (.cvts .rz f)
  | 0x056 => some (.cvts .rd f)
  | 0x057 => some (.cvts .ru f)
  | 0x058 => some (.pack4 f)
  | 0x059 => some (.unpack4 f)
  | 0x060 => some (.rcp f)
  | 0x061 => some (.rsq f)
  | 0x062 => some (.sqrt f)
  | 0x063 => some (.ex2 f)
  | 0x064 => some (.lg2 f)
  | 0x065 => some (.sin f)
  | 0x066 => some (.cos f)
  | 0x067 => some (.tanh f)
  | 0x068 => some (.shfl f)
  | 0x069 => some (.vote f)
  | 0x06a => some (.ballot f)
  | 0x06b => some (.matchL f)
  | 0x06c => some (.lscan f)
  | 0x06d => some (.lred f)
  | 0x06e => some (.lfirst f)
  | 0x070 => some (.trap f)
  | 0x071 => some (.tret f)
  | 0x072 => some (if f.op == 1 then .ctxsaveKeep f else .ctxsave f)
  | 0x073 => some (.ctxload f)
  | 0x074 => some (.pdone f)
  | 0x075 => some (.depwait f)
  | 0x076 => some (if f.op == 1 then .frecFwd f else .frecGet f)
  | 0x080 => some (.ld f)
  | 0x081 => some (.st f)
  | 0x082 => some (.ldg f)
  | 0x083 => some (.stg f)
  | 0x084 => some (.lde f)
  | 0x085 => some (.ste f)
  | 0x088 => some (.atom .add f)
  | 0x089 => some (.atom .min f)
  | 0x08a => some (.atom .max f)
  | 0x08b => some (.atom .and f)
  | 0x08c => some (.atom .or f)
  | 0x08d => some (.atom .xor f)
  | 0x08e => some (.atom .exch f)
  | 0x08f => some (.atom .cas f)
  | 0x090 => some (.atom .incw f)
  | 0x091 => some (.atom .decw f)
  | 0x092 => some (.atom .fadd f)
  | 0x098 => some (.red .add f)
  | 0x099 => some (.red .min f)
  | 0x09a => some (.red .max f)
  | 0x09b => some (.red .and f)
  | 0x09c => some (.red .or f)
  | 0x09d => some (.red .xor f)
  | 0x09e => some (.red .fadd f)
  | 0x0a0 => some (.waitc f)
  | 0x0a1 => some (.fld f)
  | 0x0a2 => some (.fset f)
  | 0x0a4 => some (.mbsend f)
  | 0x0a5 => some (.mbrecv f)
  | 0x0a6 => some (.mbpeek f)
  | 0x0a8 => some (.fence f)
  | 0x0a9 => some (.xfence f)
  | 0x0aa => some (.cflush f)
  | 0x0ab => some (if f.hint == 1 then .cinvCode f else .cinv f)
  | 0x0ac => some (.pref f)
  | 0x0c0 => some (if f.hint == 1 then .evpostBuf f else .evpost f)
  | 0x0c1 => some (.evbar f)
  | 0x0c2 => some (.amload f)
  | 0x0c3 => some (.amarm f)
  | 0x0c4 => some (if f.hint == 1 then .amdisarmFree f else .amdisarm f)
  | 0x0c5 => some (if f.hint == 1 then .amsaveStop f else .amsave f)
  | 0x0c6 => some (.amrestore f)
  | 0x0c8 => some (.bequeath f)
  | 0x0c9 => some (.grpbar f)
  | 0x0ca => some (.gangbar f)
  | 0x0cb => some (.stagebar f)
  | 0x0cc => some (if f.hint == 0 then .ownClaim f else if f.hint == 1 then .ownSelf f else if f.hint == 2 then .ownWord f else .ownMbox f)
  | 0x0cd => some (if f.hint == 0 then .disownClaim f else if f.hint == 1 then .disownSelf f else if f.hint == 2 then .disownWord f else .disownMbox f)
  | 0x0ce => some (.helpq f)
  | 0x0d0 => some (.mtask f)
  | 0x0d1 => some (.mwait f)
  | 0x0d2 => some (.mpoll f)
  | 0x0d3 => some (.binld f)
  | 0x0d4 => some (.binst f)
  | 0x0d5 => some (.binz f)
  | 0x0d6 => some (.bldp f)
  | 0x0d8 => some (.cpy f)
  | 0x0d9 => some (.cpy2 f)
  | 0x0da => some (.cpyt f)
  | 0x0db => some (.cpyr f)
  | 0x0dc => some (.cpyq f)
  | 0x0e0 => some (.strel f)
  | 0x0e1 => some (.netq f)
  | _ => none

/-- The LB opcodes (04 Table 4.13). -/
def branchRow (opc : Nat) (b : LongBranch) : Option Instr :=
  match opc with
  | 0x030 => some (.bra b)
  | 0x032 => some (.call b)
  | 0x034 => some (.meet b)
  | _ => none

/-- A long or literal instruction from its 64 bits and its literal parcel (04 R52, R53). -/
def parseLong (w : Nat) (lit : Option W32) : Except Reject Instr :=
  let g : BitVec 5 := bitsOf w 2 5
  let opc := (bitsOf w 7 10).toNat
  let f : LongForm := ⟨g, bitsOf w 17 8, w.testBit 25, bitsOf w 26 9, bitsOf w 35 9, bitsOf w 44 9, bitsOf w 53 11, lit⟩
  if 0x3C0 ≤ opc then .ok (.hintL g (bitsOf w 7 6) (bitsOf w 17 47) lit) else
  match branchRow opc ⟨g, bitsOf w 35 29⟩ with
  | some i => if lit.isNone && bitsOf w 17 18 == 0#18 then .ok i else .error .wrongFormat
  | none =>
    match longRow opc f with
    | some i => .ok i
    | none => .error .reservedOpcode

/-- The length in parcels that an instruction's first parcel gives (04 R47); 0 for the reserved length. -/
def lengthOf (p : W32) : Nat :=
  match (p &&& 3#32).toNat with
  | 0 => 1
  | 1 => 2
  | 2 => 3
  | _ => 0

/-- The fields of an instruction from its parcels, whether or not they are legal. -/
def parse (p0 p1 p2 : W32) : Except Reject Instr :=
  match lengthOf p0 with
  | 1 => parseShort p0.toNat
  | 2 => parseLong (p0.toNat + p1.toNat * 2 ^ 32) none
  | 3 => parseLong (p0.toNat + p1.toNat * 2 ^ 32) (some p2)
  | _ => .error .reservedLength

/-- The decoder of a core: the well-formed instruction that the parcels hold, or why they hold none. -/
def decode (p0 p1 p2 : W32) : Except Reject Instr :=
  match parse p0 p1 p2 with
  | .ok i => if i.wf then .ok i else .error (.illFormed i)
  | .error r => .error r

/-! ## Bolter words (23 R356) -/

/-- The bolter operation that a word's fields name (23 Tables 23.8, 23.8a), fields unchecked. -/
def parseBolter (p : Nat) : Option Instr :=
  let d : BitVec 3 := bitsOf p 23 3
  let a : BitVec 3 := bitsOf p 20 3
  let b : BitVec 3 := bitsOf p 17 3
  let x : BitVec 3 := bitsOf p 14 3
  match (bitsOf p 26 6).toNat with
  | 0x00 => some .bend
  | 0x01 => some .bnop
  | 0x02 => some (.bld d (p.testBit 0))
  | 0x03 => some (.bst a)
  | 0x04 => some (.bconst d x)
  | 0x05 => some (.bcolv d x (p.testBit 0))
  | 0x06 => some (.browv d x (p.testBit 0))
  | 0x07 => some (.badd d a b)
  | 0x08 => some (.bsub d a b)
  | 0x09 => some (.bmul d a b)
  | 0x0A => some (.bfma d a b x)
  | 0x0B => some (.bmin d a b)
  | 0x0C => some (.bmax d a b)
  | 0x0D => some (.bclamp d a b x)
  | 0x0E => some (.brelu d a)
  | 0x0F => some (.bgelu d a)
  | 0x10 => some (.bsilu d a)
  | 0x11 => some (.btanh d a)
  | 0x12 => some (.bamax d a)
  | 0x13 => some (.bscale d a (bitsOf p 0 4))
  | 0x14 => some (.bsto a b (bitsOf p 0 7))
  | 0x15 => some (.bstsc a x (p.testBit 0))
  | 0x16 => some (.bamaxg a x)
  | _ => none

/-- The word of a bolter operation, every unused field zero (23 Tables 23.8, 23.8a); none for any other instruction. -/
def bolterWord : Instr → Option Nat
  | .bend => some 0
  | .bnop => some (0x01 * 2 ^ 26)
  | .bld d i => some (0x02 * 2 ^ 26 + d.toNat * 2 ^ 23 + i.toNat)
  | .bst a => some (0x03 * 2 ^ 26 + a.toNat * 2 ^ 20)
  | .bconst d x => some (0x04 * 2 ^ 26 + d.toNat * 2 ^ 23 + x.toNat * 2 ^ 14)
  | .bcolv d x i => some (0x05 * 2 ^ 26 + d.toNat * 2 ^ 23 + x.toNat * 2 ^ 14 + i.toNat)
  | .browv d x i => some (0x06 * 2 ^ 26 + d.toNat * 2 ^ 23 + x.toNat * 2 ^ 14 + i.toNat)
  | .badd d a b => some (0x07 * 2 ^ 26 + d.toNat * 2 ^ 23 + a.toNat * 2 ^ 20 + b.toNat * 2 ^ 17)
  | .bsub d a b => some (0x08 * 2 ^ 26 + d.toNat * 2 ^ 23 + a.toNat * 2 ^ 20 + b.toNat * 2 ^ 17)
  | .bmul d a b => some (0x09 * 2 ^ 26 + d.toNat * 2 ^ 23 + a.toNat * 2 ^ 20 + b.toNat * 2 ^ 17)
  | .bfma d a b x => some (0x0A * 2 ^ 26 + d.toNat * 2 ^ 23 + a.toNat * 2 ^ 20 + b.toNat * 2 ^ 17 + x.toNat * 2 ^ 14)
  | .bmin d a b => some (0x0B * 2 ^ 26 + d.toNat * 2 ^ 23 + a.toNat * 2 ^ 20 + b.toNat * 2 ^ 17)
  | .bmax d a b => some (0x0C * 2 ^ 26 + d.toNat * 2 ^ 23 + a.toNat * 2 ^ 20 + b.toNat * 2 ^ 17)
  | .bclamp d a b x => some (0x0D * 2 ^ 26 + d.toNat * 2 ^ 23 + a.toNat * 2 ^ 20 + b.toNat * 2 ^ 17 + x.toNat * 2 ^ 14)
  | .brelu d a => some (0x0E * 2 ^ 26 + d.toNat * 2 ^ 23 + a.toNat * 2 ^ 20)
  | .bgelu d a => some (0x0F * 2 ^ 26 + d.toNat * 2 ^ 23 + a.toNat * 2 ^ 20)
  | .bsilu d a => some (0x10 * 2 ^ 26 + d.toNat * 2 ^ 23 + a.toNat * 2 ^ 20)
  | .btanh d a => some (0x11 * 2 ^ 26 + d.toNat * 2 ^ 23 + a.toNat * 2 ^ 20)
  | .bamax d a => some (0x12 * 2 ^ 26 + d.toNat * 2 ^ 23 + a.toNat * 2 ^ 20)
  | .bscale d a f => some (0x13 * 2 ^ 26 + d.toNat * 2 ^ 23 + a.toNat * 2 ^ 20 + f.toNat)
  | .bsto a b i => some (0x14 * 2 ^ 26 + a.toNat * 2 ^ 20 + b.toNat * 2 ^ 17 + i.toNat)
  | .bstsc a x i => some (0x15 * 2 ^ 26 + a.toNat * 2 ^ 20 + x.toNat * 2 ^ 14 + i.toNat)
  | .bamaxg a x => some (0x16 * 2 ^ 26 + a.toNat * 2 ^ 20 + x.toNat * 2 ^ 14)
  | _ => none

/-- The decoder of a bolter: a word is an instruction when its unused fields are zero and its operands are legal
(23 R355). -/
def decodeBolter (p : W32) : Except Reject Instr :=
  match parseBolter p.toNat with
  | some i => if i.wf && bolterWord i == some p.toNat then .ok i else .error .notBolter
  | none => .error .notBolter

/-! ## The encoder -/

/-- The parcel of a short form (04 Table 4.4). -/
def encS (opc : Nat) (g : BitVec 5) (hi : Nat) : List W32 := [BitVec.ofNat 32 (g.toNat * 4 + opc * 2 ^ 7 + hi * 2 ^ 15)]
def encS1 (opc : Nat) (f : ShortForm) : List W32 := encS opc f.g (f.sa.toNat + f.dst.toNat * 2 ^ 9)

/-- The parcels of formats L and X (04 R52, R53). -/
def encL (opc : Nat) (f : LongForm) : List W32 :=
  let w := (if f.lit.isSome then 2 else 1) + f.g.toNat * 4 + opc * 2 ^ 7 + f.dst.toNat * 2 ^ 17 + f.w.toNat * 2 ^ 25 +
    f.sa.toNat * 2 ^ 26 + f.sb.toNat * 2 ^ 35 + f.sc.toNat * 2 ^ 44 + f.mod.toNat * 2 ^ 53
  [BitVec.ofNat 32 w, BitVec.ofNat 32 (w >>> 32)] ++ f.lit.toList

/-- The parcels of format LB (04 R52). -/
def encLB (opc : Nat) (f : LongBranch) : List W32 :=
  let w := 1 + f.g.toNat * 4 + opc * 2 ^ 7 + f.off.toNat * 2 ^ 35
  [BitVec.ofNat 32 w, BitVec.ofNat 32 (w >>> 32)]

/-- The opcode of a long row (04 Table 4.13); none for every other constructor. -/
def longOpc : Instr → Option (Nat × LongForm)
  | .mov f => some (0x000, f)
  | .movl f => some (0x001, f)
  | .lea f => some (0x002, f)
  | .iadd f => some (0x003, f)
  | .isub f => some (0x004, f)
  | .imul f => some (0x005, f)
  | .imulh f => some (0x006, f)
  | .imad f => some (0x007, f)
  | .idiv f => some (0x008, f)
  | .irem f => some (0x009, f)
  | .imin f => some (0x00a, f)
  | .imax f => some (0x00b, f)
  | .iabs f => some (0x00c, f)
  | .ineg f => some (0x00d, f)
  | .and f => some (0x010, f)
  | .or f => some (0x011, f)
  | .xor f => some (0x012, f)
  | .andn f => some (0x013, f)
  | .not f => some (0x014, f)
  | .shl f => some (0x015, f)
  | .shr f => some (0x016, f)
  | .sar f => some (0x017, f)
  | .rol f => some (0x018, f)
  | .bfx f => some (0x019, f)
  | .bfi f => some (0x01a, f)
  | .popc f => some (0x01b, f)
  | .clz f => some (0x01c, f)
  | .brev f => some (0x01d, f)
  | .sel f => some (0x01e, f)
  | .icmp f => some (0x01f, f)
  | .kand f => some (0x020, f)
  | .kor f => some (0x021, f)
  | .kxor f => some (0x022, f)
  | .knot f => some (0x023, f)
  | .kmov f => some (0x024, f)
  | .kpop f => some (0x025, f)
  | .brx f => some (0x031, f)
  | .ret f => some (0x033, f)
  | .yield f => some (0x035, f)
  | .exit f => some (0x036, f)
  | .nop f => some (0x037, f)
  | .srd f => some (0x038, f)
  | .swr f => some (0x039, f)
  | .reggrow f => some (0x03a, f)
  | .regshrink f => some (0x03b, f)
  | .shape f => some (0x03c, f)
  | .idx f => some (0x03d, f)
  | .unif f => some (0x03e, f)
  | .fadd f => some (0x040, f)
  | .fsub f => some (0x041, f)
  | .fmul f => some (0x042, f)
  | .ffma f => some (0x043, f)
  | .fmin f => some (0x044, f)
  | .fmax f => some (0x045, f)
  | .fcmp f => some (0x046, f)
  | .fclass f => some (0x047, f)
  | .frnd f => some (0x048, f)
  | .hadd2 f => some (0x049, f)
  | .hmul2 f => some (0x04a, f)
  | .hfma2 f => some (0x04b, f)
  | .dot4 f => some (0x04c, f)
  | .dot2 f => some (0x04d, f)
  | .pack4 f => some (0x058, f)
  | .unpack4 f => some (0x059, f)
  | .rcp f => some (0x060, f)
  | .rsq f => some (0x061, f)
  | .sqrt f => some (0x062, f)
  | .ex2 f => some (0x063, f)
  | .lg2 f => some (0x064, f)
  | .sin f => some (0x065, f)
  | .cos f => some (0x066, f)
  | .tanh f => some (0x067, f)
  | .shfl f => some (0x068, f)
  | .vote f => some (0x069, f)
  | .ballot f => some (0x06a, f)
  | .matchL f => some (0x06b, f)
  | .lscan f => some (0x06c, f)
  | .lred f => some (0x06d, f)
  | .lfirst f => some (0x06e, f)
  | .trap f => some (0x070, f)
  | .tret f => some (0x071, f)
  | .ctxload f => some (0x073, f)
  | .pdone f => some (0x074, f)
  | .depwait f => some (0x075, f)
  | .ld f => some (0x080, f)
  | .st f => some (0x081, f)
  | .ldg f => some (0x082, f)
  | .stg f => some (0x083, f)
  | .lde f => some (0x084, f)
  | .ste f => some (0x085, f)
  | .waitc f => some (0x0a0, f)
  | .fld f => some (0x0a1, f)
  | .fset f => some (0x0a2, f)
  | .mbsend f => some (0x0a4, f)
  | .mbrecv f => some (0x0a5, f)
  | .mbpeek f => some (0x0a6, f)
  | .fence f => some (0x0a8, f)
  | .xfence f => some (0x0a9, f)
  | .cflush f => some (0x0aa, f)
  | .pref f => some (0x0ac, f)
  | .evbar f => some (0x0c1, f)
  | .amload f => some (0x0c2, f)
  | .amarm f => some (0x0c3, f)
  | .amrestore f => some (0x0c6, f)
  | .bequeath f => some (0x0c8, f)
  | .grpbar f => some (0x0c9, f)
  | .gangbar f => some (0x0ca, f)
  | .stagebar f => some (0x0cb, f)
  | .helpq f => some (0x0ce, f)
  | .mtask f => some (0x0d0, f)
  | .mwait f => some (0x0d1, f)
  | .mpoll f => some (0x0d2, f)
  | .binld f => some (0x0d3, f)
  | .binst f => some (0x0d4, f)
  | .binz f => some (0x0d5, f)
  | .bldp f => some (0x0d6, f)
  | .cpy f => some (0x0d8, f)
  | .cpy2 f => some (0x0d9, f)
  | .cpyt f => some (0x0da, f)
  | .cpyr f => some (0x0db, f)
  | .cpyq f => some (0x0dc, f)
  | .strel f => some (0x0e0, f)
  | .netq f => some (0x0e1, f)
  | .cvt .rn f => some (0x050, f)
  | .cvts .rn f => some (0x054, f)
  | .cvt .rz f => some (0x051, f)
  | .cvts .rz f => some (0x055, f)
  | .cvt .rd f => some (0x052, f)
  | .cvts .rd f => some (0x056, f)
  | .cvt .ru f => some (0x053, f)
  | .cvts .ru f => some (0x057, f)
  | .atom .add f => some (0x088, f)
  | .atom .min f => some (0x089, f)
  | .atom .max f => some (0x08a, f)
  | .atom .and f => some (0x08b, f)
  | .atom .or f => some (0x08c, f)
  | .atom .xor f => some (0x08d, f)
  | .atom .exch f => some (0x08e, f)
  | .atom .cas f => some (0x08f, f)
  | .atom .incw f => some (0x090, f)
  | .atom .decw f => some (0x091, f)
  | .atom .fadd f => some (0x092, f)
  | .red .add f => some (0x098, f)
  | .red .min f => some (0x099, f)
  | .red .max f => some (0x09a, f)
  | .red .and f => some (0x09b, f)
  | .red .or f => some (0x09c, f)
  | .red .xor f => some (0x09d, f)
  | .red .fadd f => some (0x09e, f)
  | .ctxsaveKeep f => some (0x072, f)
  | .ctxsave f => some (0x072, f)
  | .frecFwd f => some (0x076, f)
  | .frecGet f => some (0x076, f)
  | .cinvCode f => some (0x0ab, f)
  | .cinv f => some (0x0ab, f)
  | .evpostBuf f => some (0x0c0, f)
  | .evpost f => some (0x0c0, f)
  | .amdisarmFree f => some (0x0c4, f)
  | .amdisarm f => some (0x0c4, f)
  | .amsaveStop f => some (0x0c5, f)
  | .amsave f => some (0x0c5, f)
  | .ownClaim f => some (0x0cc, f)
  | .ownSelf f => some (0x0cc, f)
  | .ownWord f => some (0x0cc, f)
  | .ownMbox f => some (0x0cc, f)
  | .disownClaim f => some (0x0cd, f)
  | .disownSelf f => some (0x0cd, f)
  | .disownWord f => some (0x0cd, f)
  | .disownMbox f => some (0x0cd, f)
  | _ => none

/-- The parcels of a core instruction, or the word of a bolter instruction. A happening has none. -/
def encode : Instr → List W32
  | .nopS g => encS 0x00 g 0
  | .exitS g => encS 0x01 g 0
  | .retS g => encS 0x02 g 0
  | .yieldS g => encS 0x03 g 0
  | .tretS g => encS 0x04 g 0
  | .pdoneS g => encS 0x05 g 0
  | .grpbarS g => encS 0x06 g 0
  | .gangbarS g => encS 0x07 g 0
  | .stagebarS g => encS 0x08 g 0
  | .braS f => encS 0x10 f.g f.off.toNat
  | .callS f => encS 0x11 f.g f.off.toNat
  | .meetS f => encS 0x12 f.g f.off.toNat
  | .movS f => encS1 0x20 f
  | .notS f => encS1 0x21 f
  | .inegS f => encS1 0x22 f
  | .iabsS f => encS1 0x23 f
  | .popcS f => encS1 0x24 f
  | .clzS f => encS1 0x25 f
  | .brevS f => encS1 0x26 f
  | .srdS f => encS1 0x27 f
  | .swrS f => encS1 0x28 f
  | .kmovS f => encS1 0x29 f
  | .knotS f => encS1 0x2a f
  | .kpopS f => encS1 0x2b f
  | .rcpS f => encS1 0x2c f
  | .rsqS f => encS1 0x2d f
  | .sqrtS f => encS1 0x2e f
  | .mwaitS g d => encS 0x30 g (d.toNat * 2 ^ 9)
  | .hintS g h x => encS (0xF0 + h.toNat) g x.toNat
  | .bra f => encLB 0x030 f
  | .call f => encLB 0x032 f
  | .meet f => encLB 0x034 f
  | .hintL g h x lit =>
    let w := (if lit.isSome then 2 else 1) + g.toNat * 4 + (0x3C0 + h.toNat) * 2 ^ 7 + x.toNat * 2 ^ 17
    [BitVec.ofNat 32 w, BitVec.ofNat 32 (w >>> 32)] ++ lit.toList
  | i =>
    match longOpc i with
    | some (opc, f) => encL opc f
    | none =>
      match bolterWord i with
      | some w => [BitVec.ofNat 32 w]
      | none => []

/-- What a reader answers, if it accepts. -/
def accepted (r : Except Reject Instr) : Option Instr :=
  match r with
  | .ok i => some i
  | .error _ => none

/-- The instruction of a table word: the parcels are laid out in ascending addresses, the bits above `nbits` are zero. A
word of one parcel is a short core instruction or else a bolter word, and the all-zero word is `NOP_S` (NOTES.md). -/
def decodeTableWord (nbits w : Nat) : Option Instr :=
  let v := w % 2 ^ nbits
  let p := BitVec.ofNat 32 v
  let core := accepted (decode p (BitVec.ofNat 32 (v >>> 32)) (BitVec.ofNat 32 (v >>> 64)))
  if nbits ≤ 32 then
    if lengthOf p = 1 then core.or (accepted (decodeBolter p)) else (accepted (decodeBolter p)).or core
  else core

end Sys2Proof
end

