-- ==== Sys2Proof/Config.lean ====
section
/-! DEFINITION. What an implementation fixes, and the values the manual leaves open. Each open value is a constant
with no body: no proof can see what it is (notes/assumptions 6, 7, 8, 12, 20, 84, 90, 93, 98, 105, 111). -/

namespace Sys2Proof

/-- The functions whose `.f32` value the manual bounds and does not fix (08 R156, 23 R357). -/
inductive OpenFn where
  | rsq | ex2 | lg2 | sin | cos | tanh | gelu | silu | btanh
  deriving DecidableEq, Repr

namespace Config

/-- Free value: whether a stale L1 copy that a load may be served from is still there (10 R189). -/
opaque l1Kept : Nat → Bool

/-- Free value: whether a stale instruction-cache line is still there at a fetch (12 R250). -/
opaque lineKept : Nat → Bool

/-- Free value: which line of a full cache goes where another one is filled (10 R190, 12 R250). -/
opaque victim : Nat → Nat

/-- Free value: whether an overflow row that another agent has written reads as what was written (06 R92). -/
opaque rowTaken : Nat → Bool

/-- Free value: how many of the writes that a read of some bytes may miss it misses (11 R211). -/
opaque oldDepth : Nat → Nat → Nat

/-- Free value: whether packet 1 of a message of two packets arrives before packet 0 (26 R370). -/
opaque packetOne : Nat → Bool

/-- Free value: the result that the device gives within the bound of 08 Table 8.3 or 23 R357; it depends only on the
function and the input bits (08 R155). -/
opaque openResult : OpenFn → W32 → W32

/-- Free value: the bytes of the signature and the asig field of an attestation report (27 R403): field, byte. -/
opaque attestByte : Nat → Nat → Byte

/-- SHA-384 as 27 R403 names it: byte i of the digest of some bytes. The manual names the function and does not define it. -/
opaque sha384 : Bytes → Nat → Byte

/-- Free value: whether a saturating conversion of an infinity to its own type gives the largest magnitude, as 05 R76
has it, or the infinity, as 08 R150 has it. -/
opaque sameSat : Bool

/-- Free value: whether a thread of a group whose stage differs from the bequeathing group's is without a value, as 03
R44 has it, or receives it, as 17 R303 has it. -/
opaque bqByStage : Bool

/-- Core dies, hamlets of a die, cores of a hamlet (01 R5, R6). -/
def nDies : Nat := 8
def nHamlets : Nat := 128
def nCores : Nat := 1024

/-- Bytes of one core's register file (06 R91) and of one hamlet's commons (01 Table 1.3). -/
def regFileBytes : Nat := 262144
def commonsBytes : Nat := 0x200000

/-- Warp slots of a core (01 R8). -/
def warpSlots : Nat := 64

/-- Lines of a core's L1, 128 KiB of 128 bytes, and of its instruction cache, 64 KiB of 64 bytes (01 R8, R10). -/
def cacheLines : Nat := 1024

/-- Local memory of one die and of the device (01 Table 1.4, 10 R187). -/
def dieBytes : Nat := 0x3000000000
def localBytes : Nat := 0x18000000000

end Config
end Sys2Proof
end

