-- ==== Sys2Proof/Machine/State.lean ====
section
/-! DEFINITION. The state of the device as plain data: everything the manual gives the machine, and the few fields of
the model's own (named so), with the state after reset. -/

namespace Sys2Proof.Machine

open Sys2Proof

/-- A sparse table: entries in ascending key order. A key that is not listed holds the table's default. -/
abbrev Table (α : Type) := List (Nat × α)

/-- A group is named by its gang's launch tag and its coordinate (03 R24). -/
structure Gid where
  tag : Nat
  grp : Nat
  deriving DecidableEq, Repr

/-! ## Threads (03 R24, 06, 07 R124, 09 R166) -/

/-- Shape tags (06 Table 6.2). The value of a register is held by its threads. -/
inductive Tag where
  | uni
  | aff (base stride : W32)
  | gen
  deriving DecidableEq, Repr

/-- A full latch (06 R96): 64 bits, and a tag for each half. `due` names the reply that its value comes with, if one is
(03 R30). -/
structure Latch where
  lo  : W32
  hi  : W32
  tlo : Tag
  thi : Tag
  due : Option Nat
  deriving DecidableEq, Repr

/-- A control-stack entry (07 Table 7.4). -/
structure CsEntry where
  smeet : W64
  addr  : W64
  meet  : Bool
  deriving DecidableEq, Repr

/-- A wait on a monitored word (12 R236). `hit` is the reply once a write has made the comparison true. `placed` is clear
after a negative acknowledgement (R237), and `sent` is the cycle of the last request. `inst` tells the `WAITC`s apart, and
`peer` says that the word was reached through the peer aperture. -/
structure MonWait where
  va     : W64
  loc    : Nat
  peer   : Bool
  inst   : Nat
  cc     : Nat
  ty     : Nat
  cmp    : W64
  dst    : Nat
  toReg  : Bool
  scope  : Nat
  placed : Bool
  sent   : Nat
  orec   : Option W64
  hit    : Option W64
  deriving DecidableEq, Repr

/-- A wait on an empty future (12 R239, R241); `orec` is the ownership record that its `own` field names (18 R310).
`inst` tells the `FLD`s apart, and `peer` says that the future was reached through the peer aperture. -/
structure FutWait where
  va     : W64
  loc    : Nat
  peer   : Bool
  inst   : Nat
  wide   : Bool
  dst    : Nat
  toReg  : Bool
  kd     : Nat
  scope  : Nat
  placed : Bool
  sent   : Nat
  orec   : Option W64
  hit    : Option (W64 × Bool)
  deriving DecidableEq, Repr

/-- A wait on an empty mailbox (12 R245): the mailbox, the address that the message goes to, and the order of the
wait. -/
structure BoxWait where
  box   : Nat
  va    : W64
  dst   : Nat
  toReg : Bool
  scope : Nat
  since : Nat
  orec  : Option W64
  deriving DecidableEq, Repr

/-- A record of a reeve queue: die and slot; none is a record that waits for room (10 R202). -/
abbrev RecRef := Option (Nat × Nat)

/-- The waiting states of 03 Table 3.3. `held` is no constructor: a runnable thread whose pc equals its nonzero
`meet` is held (03 R31). While a thread waits its pc stays at the instruction (log 15). `grow` carries the order of its request
(06 R105). -/
inductive Wait where
  | run
  | barrier (k : BarKind) (since : Nat)
  | monitor (m : MonWait)
  | future (f : FutWait)
  | mailbox (m : BoxWait)
  | slot (d : Nat)
  | grow (n g kd since : Nat)
  | ring (stream : Nat) (va : W64)
  | fault (asn page kind : Nat) (addr : W64) (ref : RecRef)
  | exited
  | pdone
  deriving DecidableEq, Repr

/-- One thread: its own registers, masks, control stack and handler registers (03 R24, 06 R99, 07 R124, 09 R166).
`xlanes`, `xfpc` and `xtime` are `lanes`, `pc` and `time` of its current fault record (09 R184); `cover` is the stamp of its last covering event (11 R212), 
`owes` that it entered the handler for a signal which it has
not answered (09 R177), and, the model's own, `wnext`, the address after the
instruction that it waits at, and `evb`, the block of the `EVBAR` that it performs and the streams still to be posted to;
`rbad` are its registers that hold an uncorrectable error (27 R400, log 106). -/
structure Thread where
  tid     : Nat
  pc      : W64
  meet    : W64
  regs    : Table W32
  k       : BitVec 8
  stack   : List CsEntry
  wait    : Wait
  fflag   : BitVec 4
  hnd     : Bool
  pre     : Bool
  dph     : Option (W64 × Nat)
  xcause  : W32
  xpc     : W64
  xaddr   : W64
  xinfo   : W64
  xscr    : W64
  xlanes  : W32
  xfpc    : W64
  xtime   : Nat
  latches : List (Option Latch)
  cover   : Nat
  owes    : Bool
  wnext   : W64
  evb     : Option (W64 × List Nat)
  rbad    : List Nat
  deriving DecidableEq, Repr

/-! ## Warps, slots and groups (03, 06) -/

/-- What is pending on a dependency slot (06 Table 6.7): a task, a load of the `n` registers from `v` on, or deposits. -/
inductive SlotOp where
  | task (id : Nat)
  | ctxload (v n : Nat)
  | deposit (va : W64)
  deriving DecidableEq, Repr

/-- A dependency slot (06 Table 6.7). A failed slot holds its cause word and address (22 R336). -/
inductive Slot where
  | idle
  | pending (op : SlotOp)
  | set
  | failed (word addr : W64)
  deriving DecidableEq, Repr

/-- A tile task as the miller keeps it (22 R324, R327, R328): the record's bytes, who enqueued it, and the operations
captured on its wait slots. `follow` is the task whose mill it follows, and `onMill` that mill once it is known. -/
structure Task where
  id     : Nat
  img    : Bytes
  recVa  : W64
  gid    : Gid
  tid    : Nat
  who    : W32
  pc     : W64
  asn    : Nat
  slot   : Nat
  caps   : List (Nat × SlotOp)
  follow : Option Nat
  onMill : Option Nat
  failed : Option (W64 × W64)
  deriving DecidableEq, Repr

/-- A completion post that waits (15 R417): the event type, source, time and payload, the launch tag of the work that it
reports, whether that gang's own completion goes on after it, and a name. -/
structure Post where
  etype   : Nat
  source  : Nat
  ts      : Nat
  payload : Bytes
  tag     : Nat
  after   : Bool
  id      : Nat
  deriving DecidableEq, Repr

/-- A copy as the carter keeps it (25 R362, R367): the record's bytes, the form (0 `CPY`, 1 `CPY2`, 2 `CPYT`,
3 `CPYR`), the units performed, the bytes and the poisoned granules that this copy has overwritten (R365), the cause and the
unit of its failure, the record it holds for with the unit (none for the completion word), whether the completion word was
dropped, and its event while that waits. -/
structure Copy where
  id    : Nat
  img   : Bytes
  recVa : W64
  form  : Nat
  gid   : Gid
  tid   : Nat
  who   : W32
  pc    : W64
  asn   : Nat
  units : List Nat
  orig  : Table Byte
  opsn  : List Nat
  psn   : Bool
  fail  : Option (Nat × Nat)
  hold  : Option (RecRef × Option Nat)
  lost  : Bool
  post  : Option (Nat × Post)
  deriving DecidableEq, Repr

/-- What a warp's last instruction holds for, the warp not issuing meanwhile: 23 R341, R347, 25 R364. A `BLDP` keeps each
thread still to act, with the address of its image and its slot word; `again` is an `AM` instruction some of whose lanes
still wait (16 R280). -/
inductive Hold where
  | again
  | mtask (t : Task)
  | bldp (todo : List (Nat × W64 × W32)) (kd : Nat)
  | copy (c : Copy)
  deriving DecidableEq, Repr

/-- A held instruction: its threads, its pc and the pc after it. -/
structure Held where
  tids : List Nat
  pc   : W64
  next : W64
  what : Hold
  deriving DecidableEq, Repr

/-- What formed a warp (06 Table 6.8). -/
inductive Origin where
  | start | meeting | compaction | resumption
  deriving DecidableEq, Repr

/-- A physical warp (03 R29, 06 R93, R102): a slot names a thread by its index, none is an invalid entry. `rows` are the
`gen` registers that hold a row of the register file, the other `gen` registers overflow (06 R92). `fcnt` is the
fairness count (03 R37), `holder` the set that holds the issue address and `moved` the threads that a fairness
move or a `YIELD` gave it to (14 R254); `first` stands until the first issue of a role's start address (04 R62). -/
structure Warp where
  num    : Nat
  slots  : List (Option Nat)
  tags   : Table Tag
  rows   : List Nat
  fcnt   : Nat
  holder : List Nat
  moved  : List Nat
  origin : Origin
  first  : Bool
  held   : Option Held
  deriving DecidableEq, Repr

/-- Where a group stands: on a core, or parked (03 R36), or parked as part of a pre-empted gang (09 R178), or parked
as a helper below an owner it adopted (18 R314), or complete. -/
inductive Place where
  | core (c : Nat)
  | parked
  | preempted
  | below
  | done
  deriving DecidableEq, Repr

/-- The owner that a helper is to run (18 R314): a launch record of a queue, by its tag, or a parked group. -/
inductive Chosen where
  | queued (q tag : Nat)
  | parked (g : Gid)
  deriving DecidableEq, Repr

/-- The status word that `HELPQ` gives its threads as their group resumes (18 R317). -/
structure HelpRes where
  tids  : List Nat
  dst   : Nat
  toReg : Bool
  word  : W32
  deriving DecidableEq, Repr

/-- A group (03 R24, R27): budget, controls, slots, save area, threads, and, while it is resident, its warps. `searched`
stands once the records found at its adoption point have been read (18 R313), and `chosen` from the choice of an owner to
its placing, with whether the save is full, as for `HELPQ`, whose result is `helpq`. `spare` counts the compaction's warps that a helper below an owner keeps
reserved (21 R321). `puts` are writes to a saved group's area, by offset, that hold (09 R416), and `saving` the save or deposit entry that such a
hold interrupts: where the group is to stand after it, and whether the save is full. `present` are the threads of a resumed
helper whose waiting access is still to be presented (18 R314). -/
structure Group where
  gid      : Gid
  stage    : Nat
  role     : Nat
  nthr     : Nat
  width    : Nat
  asn      : Nat
  arg      : W64
  place    : Place
  lastCore : Nat
  n        : Nat
  g        : Nat
  ns       : Nat
  fair     : Nat
  cthr     : Nat
  xsave    : W64
  xhand    : W64
  slots    : List Slot
  threads  : List Thread
  warps    : List Warp
  deadline : Option Nat
  keep     : Option (List (Nat × Nat))
  full     : Bool
  derr     : Option (W64 × W32 × W32)
  pend     : Nat
  saveHold : Option (RecRef × W64)
  puts     : List (Nat × Bytes)
  saving   : Option (Bool × Place)
  present  : List Nat
  record   : Option (W64 × Nat)
  depth    : Nat
  helper   : Option Gid
  searched : Bool
  chosen   : Option (Chosen × Bool)
  helpq    : Option HelpRes
  spare    : Nat
  strel    : Table Nat
  deriving DecidableEq, Repr

/-! ## Gangs and launch (17) -/

/-- A role entry (17 Table 17.3). -/
structure Role where
  start : W64
  bud   : W32
  dim   : W32
  save  : W64
  sstr  : W32
  nmax  : W32
  deriving DecidableEq, Repr

/-- A launch template as read at an acceptance (17 Tables 17.1, 17.2). -/
structure Template where
  va     : W64
  gcfg   : W32
  gcomp  : W32
  gmsix  : W32
  ghand  : W64
  gbqa   : W64
  gbqs   : W32
  gptmo  : W32
  gpbud  : W32
  gsched : W32
  garing : W64
  galog  : W32
  roles  : List Role
  deriving DecidableEq, Repr

/-- A launch record (17 R291): the argument block, the tag, the template as read, the stream of the match, its ring
index, the completion event to inherit from (R303), and the record claimed for it (18 R311). -/
structure Launch where
  tag    : Nat
  block  : W64
  aix    : Nat
  tmpl   : Template
  stream : Nat
  inh    : Option Bytes
  claim  : Option (W64 × Nat)
  deriving DecidableEq, Repr

/-- A gang from its commit to its completion (17 R299, R300). `seq` orders the commits (06 R106), and `preDue` is the
deadline of its pre-emption (09 R176). -/
structure Gang where
  tag      : Nat
  die      : Nat
  launch   : Launch
  commit   : Nat
  seq      : Nat
  mark     : Nat
  bq       : Bool
  fail     : Option Nat
  stopped  : Bool
  started  : Bool
  preSaved : Bool
  preSent  : Bool
  preDue   : Nat
  phase    : Nat
  hold     : Option RecRef
  deriving DecidableEq, Repr

/-- A launch queue (17 Table 17.5). -/
structure Queue where
  blk    : Bool
  tick   : Nat
  nstart : W32
  recs   : List Launch
  deriving DecidableEq, Repr

/-- A launch record that is to start and whose beadles have not yet committed it (03 R27, 17 R298): the core of each group,
for an adopted owner the helper and the depth (18 R314), the writes of the commit that are over (0 is that of `astate`, and
1 + i the clear of group i's bequest area), the record that a write holds for, with the write (R418), and whether the
commit has begun. -/
structure Placement where
  queue  : Nat
  launch : Launch
  cores  : List Nat
  owner  : Option (Gid × Nat)
  past   : List Nat
  hold   : Option (RecRef × Nat)
  begun  : Bool
  deriving DecidableEq, Repr

/-! ## Streams and automata (15, 16) -/

/-- A candidate (16 R272, Table 16.9); `id`, the model's own, tells candidates apart. -/
structure Cand where
  id     : Nat
  state  : Nat
  born   : Nat
  resets : List Nat
  slots  : List (Option Bytes)
  deriving DecidableEq, Repr

/-- A loaded automaton (16 R268, R278, R279): its image, its stream, its place in the arming order, its candidates in
creation order. -/
structure Automaton where
  img    : Bytes
  stream : Nat
  armed  : Option Nat
  novf   : Nat
  cands  : List Cand
  deriving DecidableEq, Repr

/-- An acceptance whose launch is to be made (16 R277, 17 R288 to R291). `read` is the template as read, once read,
`index` the ring index taken from `ganext`, once taken, and `held` says that one of its accesses holds under the stream's
record. -/
structure Accept where
  die      : Nat
  slot     : Nat
  tmpl     : W64
  bound    : List (Option Bytes)
  tau      : Nat
  evIndex  : W32
  deadline : Bool
  read     : Option Template
  index    : Option Nat
  held     : Bool
  deriving DecidableEq, Repr

/-- An offer that has begun (16 R274): the event, its τ, the automaton that it is offered to, that automaton's candidates
that it is still to be offered to, whether the step from state 0 is still to come, the automata after it, and those whose
part is over; `times` stands while pending times up to τ are still to be processed. It holds for the launches of its acceptances (17 R291), or, with `full`, for room (16 R278), with the record of policy 3. -/
structure OfferHold where
  ev     : Bytes
  tau    : Nat
  times  : Bool
  slot   : Nat
  cands  : List Nat
  start  : Bool
  todo   : List Nat
  seen   : List Nat
  full   : Bool
  notice : RecRef
  told   : Bool
  deriving DecidableEq, Repr

/-- A stream (15 Tables 15.1 to 15.3) and what its hayward holds for it: the record of a fetch fault, the offer that
holds, acceptances and launch records that wait, completion posts, and, during a reset, `res` at its start and the
launches that it kills. `behind` is the time at which a move restored its automata (27 R394). -/
structure Stream where
  stail   : W32
  shead   : W32
  sbase   : W64
  scba    : W64
  rst     : Bool
  en      : Bool
  odie    : Nat
  lsize   : Nat
  asn     : Nat
  stall   : Bool
  gap     : Bool
  bar     : Option W64
  dead    : Bool
  cfgerr  : Bool
  ovf     : Bool
  drop    : Nat
  ref     : Option RecRef
  hold    : Option OfferHold
  accepts : List Accept
  queued  : List (Nat × Launch)
  posts   : List Post
  postRef : Option RecRef
  rstRes  : W32
  rstWait : Bool
  killed  : List Launch
  behind  : Nat
  deriving DecidableEq, Repr

/-! ## The reeve queue and the die (27, 17) -/

/-- What an unresolved record of a reeve queue stands for (10 R202, 13 R252, 16 R278); `notice` is 1 for an overflow notice
and 0 for a record of a stream or a launch, which no access joins. -/
structure OpenRec where
  asn    : Nat
  page   : Nat
  kind   : Nat
  nw     : Bool
  addr   : W64
  hw     : Option (Nat × Nat × Nat)
  notice : Option Nat
  deriving DecidableEq, Repr

/-- A record that waits for a free slot (27 R388). -/
structure WaitRec where
  bytes : Bytes
  deriving DecidableEq, Repr

/-- The margin status of a die (27 Table 27.6). -/
structure Margin where
  vnow   : Nat
  mexh   : Bool
  pdm    : BitVec 16
  vsteps : W32
  deriving DecidableEq, Repr

/-- One die: its reeve block (27 Table 27.2), scheduler block (17 Table 17.6), launch queues, automaton store, claims
(18 R311), adoption counters (18 Table 18.7), tag block (17 R292), margin and corrected count; `moving` are the streams
that are still to move to `adie` (27 R393). -/
structure Die where
  rqbase   : W64
  rqset    : Bool
  rqprod   : W32
  rqcons   : W32
  act      : Nat
  aerr     : Bool
  aslot    : Nat
  hung     : Bool
  moved    : Bool
  adie     : Nat
  moving   : List Nat
  hbeat    : W32
  rrst     : Bool
  svtype   : BitVec 16
  sven     : Bool
  svstr    : Nat
  beatP    : Nat
  beatC    : Nat
  recs     : Table OpenRec
  waiting  : List WaitRec
  lstate   : W32
  rrp      : Nat
  wt       : Nat
  wd       : Nat
  wi       : Nat
  ptemp    : Table Byte
  pdroop   : Table Byte
  pinj     : Table Byte
  lastZero : Nat
  queues   : Table Queue
  placed   : List Placement
  autos    : Table Automaton
  nextArm  : Nat
  tagCur   : Nat
  tagEnd   : Nat
  claims   : List (W64 × Nat × W64)
  hadopt   : W32
  hqueued  : W32
  hrefuse  : W32
  hmaxd    : Nat
  margin   : Margin
  ecc      : W32
  deriving DecidableEq, Repr

/-! ## Mills and carters (22, 23, 25) -/

/-- A store that a bolter has made and the end of its pass will commit (23 R354): bin words of its mill, bytes at places, a row
of elements that are no bytes (location, lowest bit, width, value), or a maximum. A store to memory keeps its address. -/
inductive BStore where
  | bin (key : Nat) (v : W32)
  | mem (va : W64) (locs : List Nat) (b : Bytes)
  | row (va : W64) (locs : List Nat) (fs : List (Nat × Nat × Nat × Nat))
  | max (va : W64) (locs : List Nat) (v : W32)
  deriving DecidableEq, Repr

/-- E(p) while it runs (23 R354): the pass, the row within the task, the next word, the element registers, the stores
made so far, oldest first, and the lowest address that failed a check (22 R336). -/
structure Bolt where
  pass   : Nat
  row    : Nat
  word   : Nat
  regs   : List (List W32)
  stores : List BStore
  chk    : Option W64
  deriving DecidableEq, Repr

/-- The task that a mill runs (22 R329, R333): the index of its next step, the record it holds for with the cause word
and the address that a fail gives it, the error that ended it, the windows of its operands, and whether it is killed. -/
structure Run where
  task   : Task
  step   : Nat
  start  : Nat
  hold   : Option (RecRef × W64 × W64)
  ended  : Option (W64 × W64)
  bolt   : Option Bolt
  winA   : Option Nat
  winB   : Option Nat
  killed : Bool
  deriving DecidableEq, Repr

/-- A mill (22 R333, R334, 23 R346): its bin, its bolter slots, its task, and the bin words that hold an uncorrectable error
(27 R400, log 106). -/
structure Mill where
  bin   : Table W32
  progs : Table Bytes
  run   : Option Run
  hold  : Bool
  held  : Bool
  bad   : List Nat
  deriving DecidableEq, Repr

/-- A hamlet's engines (01 R7): the miller's queue, both mills, the carter's queue. -/
structure Hamlet where
  queue  : List Task
  mill0  : Mill
  mill1  : Mill
  mdone  : W32
  copies : List Copy
  deriving DecidableEq, Repr

/-- A mailbox (06 R101, 12 R244): messages with their senders and names, the binding, the record bound to it (18 R311). -/
structure Mailbox where
  msgs  : List (Bytes × W32 × Nat)
  bound : Option Gid
  orec  : Option (W64 × Nat)
  deriving DecidableEq, Repr

/-- A droveway node (26 R372). -/
structure Node where
  rate : Nat
  thr  : Bool
  deriving DecidableEq, Repr

/-! ## Memory (10, 11, 12) -/

/-- A copy of a line in a core's L1 (10 R188, R189), with the stamp of its fill. `bytes` is none while the copy equals
the line at its home, and holds the old bytes once the home has been written; `psn` are then the granules that it holds
poisoned (10 R203). -/
structure L1Line where
  core  : Nat
  line  : Nat
  stamp : Nat
  bytes : Option Bytes
  psn   : List Nat
  deriving DecidableEq, Repr

/-- Where an agent stands, for the scope instances that contain it (11 R207): on this device (0), on a peer device (1) or
the host (2); its die, its group and its warp. -/
structure Spot where
  kind : Nat
  die  : Nat
  gid  : Option Gid
  warp : Nat
  deriving DecidableEq, Repr

/-- A release: its scope, and where it was made (11 R206, R207); with `all` every acquire reads it (11 Table 11.2, the
completion word of a copy). -/
structure Rel where
  scope : Nat
  spot  : Spot
  all   : Bool
  deriving DecidableEq, Repr

/-- Those who come to know of writes, by happens-before (11 R209): the later accesses of a thread, of every thread of a group,
of a gang; a task, a copy, a stream's hayward, a completion post, a dependency slot, who takes a
message, the host, the fabric; what follows a thread's last fence at a scope; the release sequence at some bytes; the releases
that a thread has read without acquiring them; and the reads of a thread (11 R210). -/
inductive Agent where
  | thread (g : Gid) (tid : Nat)
  | group (g : Gid)
  | gang (tag : Nat)
  | task (g : Gid) (id : Nat)
  | copy (g : Gid) (id : Nat)
  | stream (n : Nat)
  | post (id : Nat)
  | slot (g : Gid) (d : Nat)
  | msg (id : Nat) (rel : Rel)
  | host
  | fabric
  | fence (g : Gid) (tid scope : Nat)
  | word (locs : List Nat) (rel : Rel)
  | seen (g : Gid) (tid : Nat) (rel : Rel)
  | reads (g : Gid) (tid : Nat)
  deriving DecidableEq, Repr

/-- Someone who knows of a write: the paths that a chain to it admits beside the write's own (11 R211), and whether the chain
passes through a covering event (R212). -/
structure Know where
  who : Agent
  via : List Nat
  cov : Bool
  deriving DecidableEq, Repr

/-- A write that reads may still miss (11 R211): the bytes that it replaced, its path (01 Table 1.5: 0 `CORE`, 1 `MILL`, 2
`CART`, 3 `HAY`, 4 `FAB`; 5 for the host's), who made it, and who knows of it. -/
structure Past where
  was  : List (Nat × Byte)
  path : Nat
  by_  : Agent
  know : List Know
  deriving DecidableEq, Repr

/-- A line in a core's instruction cache (12 R250), by physical address; `bytes` and `psn` as in `L1Line`. -/
structure ILine where
  core  : Nat
  line  : Nat
  bytes : Option Bytes
  psn   : List Nat
  deriving DecidableEq, Repr

/-- A cached translation (10 R199): the engine that holds it (a core, or 1,024 + die for the die's walkers). -/
structure TlbEntry where
  who   : Nat
  asn   : Nat
  vpage : Nat
  pbase : Nat
  wr    : Bool
  x     : Bool
  unc   : Bool
  dty   : Bool
  deriving DecidableEq, Repr

/-- A format window (10 Tables 10.4, 10.5). -/
structure Window where
  base  : W64
  size  : W64
  scale : W64
  busy  : Bool
  cfgerr : Bool
  sfmt  : Nat
  geo   : Nat
  efmt  : Nat
  en    : Bool
  on    : Bool
  pitch : Nat
  rsv   : Bool
  deriving DecidableEq, Repr

/-- The memory system. `mem` holds every byte of every store by location: a physical address below 2^52, or, for peer
memory, 2^52 × (1 + device) + offset (26 R377). `xliWait` names the accesses that a running invalidation waits for
(10 R200), `deferred` holds the device's dirty bytes of host lines (11 R217),
`marks` the marked words with their lines, `writers` the dirty lines with their last writer, none where no gang wrote
(10 R204), `past` the writes that reads may still miss, the last first (11 R211). -/
structure MemSys where
  mem      : List Host.Cell
  poison   : List Nat
  deferred : Table Byte
  marks    : Table (List Nat)
  writers  : Table (Option (Nat × W32))
  l1       : List L1Line
  icache   : List ILine
  tlb      : List TlbEntry
  asnTab   : Table W64
  windows  : Table Window
  xliAddr  : W64
  xliCtl   : W32
  xliWait  : List Nat
  owners   : List (Nat × W64 × Nat × Gid)
  stamp    : Nat
  past     : List Past
  deriving DecidableEq, Repr

/-- A lane of a reply: its thread, its value, its address, and the error that it carries (12 R223). -/
structure ReqLane where
  tid  : Nat
  val  : W64
  addr : W64
  err  : Option Nat
  deriving DecidableEq, Repr

/-- A reply or acknowledgement that is owed (12 R223, R226, 26 R374): the destination register, whether it is written,
whether it is the acknowledgement of a write, the mask that `LDG` sets, the reassembly buffer of a message of two packets,
and which of its packets has arrived: 0 none, 1 packet 0, 2 packet 1. -/
structure Req where
  id    : Nat
  gid   : Gid
  lanes : List ReqLane
  dst   : Nat
  toReg : Bool
  wide  : Bool
  store : Bool
  kset  : Option Nat
  buf   : Option Nat
  arr   : Nat
  deriving DecidableEq, Repr

/-- An error that has arrived and that its thread has not yet taken (12 R223). -/
structure ImpErr where
  id    : Nat
  gid   : Gid
  tid   : Nat
  cause : Nat
  addr  : W64
  info  : W64
  deriving DecidableEq, Repr

/-- A `STREL` held at its switch home (26 R383). -/
structure HeldStrel where
  id    : Nat
  gid   : Gid
  tid   : Nat
  va    : W64
  dev   : Nat
  loc   : Nat
  bytes : Bytes
  count : Nat
  scope : Nat
  deriving DecidableEq, Repr

/-- The fabric port (26 Tables 26.4 to 26.6), the held `STREL`s and the switches' arrival counts (R382), and the devices to
which no access can be delivered (R381, log 106); `waits` are the accesses from the fabric that their homes hold (01 R19,
10 R194): the member, the offset and what each does. -/
structure Fabric where
  fon     : Bool
  did     : Nat
  sg      : Nat
  sn      : Nat
  members : Table W32
  strels  : List HeldStrel
  arrived : List (Gid × Nat × Nat)
  down    : List Nat
  waits   : List (Option Nat × Nat × FabOp)
  deriving DecidableEq, Repr

/-- The host automaton port (16 Table 16.13); `srsv` and `orsv` say that the last write of `hstr` or of the command set
a reserved bit. -/
structure Port where
  hptr : W64
  hstr : W32
  hhnd : W32
  go   : Bool
  hop  : W32
  hres : W32
  srsv : Bool
  orsv : Bool
  deriving DecidableEq, Repr

/-- What the host sees beside memory: the ready and failure maps (27 Table 27.3), the port, the MSI-X table and its
pending bits (01 Table 1.8), the messages sent (17 R293), the attestation block (27 R403), and the image that each controller
runs (R402). `spent` are the hamlets whose ready bit an exhausted margin has cleared (R398, log 108). -/
structure HostIf where
  ready   : List DevFn
  failed  : List DevFn
  port    : Port
  msix    : Table W32
  pba     : List Nat
  msgs    : List (Nat × W64 × W32)
  nonce   : Table W32
  report  : Bytes
  fused   : W32
  running : Table FwImage
  heldWr  : List (Nat × Bytes)
  spent   : List Nat
  deriving DecidableEq, Repr

/-- A write of an ownership record (18 Table 18.3): the 16 bytes, or a new state with its cause. -/
inductive RecOp where
  | whole (b : Bytes)
  | state (st cause : Nat)
  deriving DecidableEq, Repr

/-- A device write of an ownership record (18 R309): the core that makes it, the owner that it names, where
it goes, and what it writes. -/
structure RecWrite where
  core : Nat
  gid  : Gid
  who  : W32
  va   : W64
  asn  : Nat
  op   : RecOp
  deriving DecidableEq, Repr

/-- The issuing context of the instruction that runs: its group and warp, its issuing set, its address and the address
after it. -/
structure Cur where
  gid  : Gid
  warp : Nat
  set  : List Nat
  pc   : W64
  next : W64
  deriving DecidableEq, Repr

/-- A soft error that arises (27 R399, R400, log 106): one that is corrected in an array of a die, or one that is not, in a
register of some threads of a group, in a word of a mill's bin, in a granule of a core's L1 or of memory or the commons, or
in a line of a core's instruction cache; or a device of the domain that accesses stop reaching, or reach again (26 R381). -/
inductive Upset where
  | corrected (die : Nat)
  | reg (gid : Gid) (tids : List Nat) (r : Nat)
  | bin (ham mill word : Nat)
  | l1 (core granule : Nat)
  | home (granule : Nat)
  | fetch (core line : Nat)
  | link (dev : Nat) (down : Bool)
  deriving DecidableEq, Repr

/-- What the next step is to be (log 3): a happening, an issue of one warp of a core, a soft error that arises, or
nothing but the passing of time. -/
inductive Choice where
  | happen (i : Instr)
  | issue (core warp : Nat)
  | upset (u : Upset)
  | idle
  deriving DecidableEq, Repr

/-- The model's own fields: the choices named to come next, the time that each step takes (1 cycle where none is
listed), the rotation of issue, the counters of free values and of ids, the issuing context, the bolter that runs, and the
arithmetic cycles since reset (logs 3, 4, 6). -/
structure Sched where
  agenda : List Choice
  pace   : List Nat
  rot    : Nat
  free   : Nat
  ids    : Nat
  cur    : Option Cur
  bolt   : Option (Nat × Nat)
  cycle  : Nat
  deriving DecidableEq, Repr

/-- The state of the device. `recWr` are the writes of ownership records whose channel is not ready (01 R19), and `bqs` the
stages of the groups of each gang that bequeathed, by launch tag (03 R44). -/
structure State where
  sch     : Sched
  mm      : MemSys
  groups  : List Group
  gangs   : List Gang
  dies    : Table Die
  hams    : Table Hamlet
  streams : Table Stream
  boxes   : Table Mailbox
  nodes   : Table Node
  reqs    : List Req
  errs    : List ImpErr
  fab     : Fabric
  host    : HostIf
  recWr   : List RecWrite
  tagNext : Nat
  bqs     : Table (List Nat)
  deriving DecidableEq, Repr

/-- Why the machine stops. No meaning of this model raises one: every access to an address that does not exist raises
the exception the manual gives (10 R186). -/
inductive Fault where
  /-- Raised by no meaning; kept so that the type is inhabited. Safe: a stop allows nothing the device forbids. -/
  | unreachable
  deriving DecidableEq, Repr

/-- Why an instruction has no meaning. -/
inductive Refusal where
  /-- Raised by an arm of `exec` whose instruction has no meaning yet. Safe: nothing is claimed of it. -/
  | notModelled (mnemonic : String)
  deriving DecidableEq, Repr

/-! ## Reset -/

/-- The lottery state of a die at reset (17 Table 17.6). -/
def lstateReset (d : Nat) : W32 := 0x9E3779B9#32 ^^^ BitVec.ofNat 32 (d * 0x01010101)

/-- The ceiling of the supply (27 Table 27.6), hard-wired. -/
def Margin.vceil : Nat := 1440

/-- The margin left (27 Table 27.6): the ceiling less the supply. -/
def Margin.vleft (m : Margin) : Nat := Margin.vceil - m.vnow

def Margin.reset : Margin := ⟨1300, false, 0xFFFF#16, 0#32⟩

/-- A launch queue after reset: one ticket (17 Table 17.5). -/
def Queue.reset : Queue := ⟨false, 1, 0#32, []⟩

/-- A die after reset (27 Table 27.2, 17 Tables 17.5 and 17.6, R296, 18 Table 18.7, 27 Table 27.6). -/
def Die.reset (d : Nat) : Die where
  rqbase := 0#64
  rqset := false
  rqprod := 0#32
  rqcons := 0#32
  act := 0
  aerr := false
  aslot := 0
  hung := false
  moved := false
  adie := 0
  moving := []
  hbeat := 0#32
  rrst := false
  svtype := 0#16
  sven := false
  svstr := 0
  beatP := 0
  beatC := 0
  recs := []
  waiting := []
  lstate := lstateReset d
  rrp := 0
  wt := 1
  wd := 1
  wi := 1
  ptemp := []
  pdroop := []
  pinj := []
  lastZero := 63
  queues := []
  placed := []
  autos := []
  nextArm := 0
  tagCur := 0
  tagEnd := 0
  claims := []
  hadopt := 0#32
  hqueued := 0#32
  hrefuse := 0#32
  hmaxd := 0
  margin := Margin.reset
  ecc := 0#32

def Mill.reset : Mill := ⟨[], [], none, false, false, []⟩

def Hamlet.reset : Hamlet := ⟨[], Mill.reset, Mill.reset, 0#32, []⟩

/-- A stream after reset (15 Tables 15.1 to 15.3). -/
def Stream.reset : Stream where
  stail := 0#32
  shead := 0#32
  sbase := 0#64
  scba := 0#64
  rst := false
  en := false
  odie := 0
  lsize := 0
  asn := 0
  stall := false
  gap := false
  bar := none
  dead := false
  cfgerr := false
  ovf := false
  drop := 0
  ref := none
  hold := none
  accepts := []
  queued := []
  posts := []
  postRef := none
  rstRes := 0#32
  rstWait := false
  killed := []
  behind := 0

def Window.reset : Window := ⟨0#64, 0#64, 0#64, false, false, 0, 0, 0, false, false, 0, false⟩

def Mailbox.reset : Mailbox := ⟨[], none, none⟩

def Node.reset : Node := ⟨0, false⟩

def MemSys.reset : MemSys := ⟨[], [], [], [], [], [], [], [], [], [], 0#64, 0#32, [], [], 0, []⟩

/-- The fabric block after reset: `sg` 16, `sn` 0 (26 Tables 26.4 to 26.6). -/
def Fabric.reset : Fabric := ⟨false, 0, 16, 0, [], [], [], [], []⟩

def Port.reset : Port := ⟨0#64, 0#32, 0#32, false, 0#32, 0#32, false, false⟩

def HostIf.reset : HostIf := ⟨[], [], Port.reset, [], [], [], [], [], 0#32, [], [], []⟩

def Sched.reset : Sched := ⟨[], [], 0, 0, 0, none, none, 0⟩

/-- The device right after reset: no group, no gang, nothing ready, every register at its reset value. -/
def State.reset : State where
  sch := Sched.reset
  mm := MemSys.reset
  groups := []
  gangs := []
  dies := []
  hams := []
  streams := []
  boxes := []
  nodes := []
  reqs := []
  errs := []
  fab := Fabric.reset
  host := HostIf.reset
  recWr := []
  tagNext := 0
  bqs := []

end Sys2Proof.Machine
end

