-- ==== Sys2Proof/Machine/Sparse.lean ====
section
/-! DEFINITION. Sparse tables in canonical form, little-endian bytes, and the small list operations that the meanings
share. -/

namespace Sys2Proof.Machine

open Sys2Proof

/-- The entry of a key, if it is listed. -/
def tfind {α : Type} : Table α → Nat → Option α
  | [], _ => none
  | (k, v) :: t, n => if k = n then some v else tfind t n

/-- The value of a key in a table whose unlisted keys hold `d`. -/
def tget {α : Type} (d : α) (t : Table α) (n : Nat) : α := (tfind t n).getD d

/-- Lists a key with a value, keys ascending. -/
def tput {α : Type} : Table α → Nat → α → Table α
  | [], n, v => [(n, v)]
  | (k, w) :: t, n, v =>
    if n < k then (n, v) :: (k, w) :: t
    else if k = n then (n, v) :: t
    else (k, w) :: tput t n v

/-- Removes a key. -/
def tdel {α : Type} (t : Table α) (n : Nat) : Table α := t.filter fun x => x.1 ≠ n

/-- Writes a key of a table whose unlisted keys hold `d`: the value `d` is never listed. -/
def tset {α : Type} [DecidableEq α] (d : α) (t : Table α) (n : Nat) (v : α) : Table α :=
  if v = d then tdel t n else tput t n v

/-- Changes one key. -/
def tmod {α : Type} (d : α) (t : Table α) (n : Nat) (f : α → α) : Table α := tput t n (f (tget d t n))

/-- The canonical form: keys strictly rising, no entry equal to the default. -/
def twf {α : Type} [DecidableEq α] (d : α) : Table α → Bool
  | [] => true
  | (k, v) :: t => decide (v ≠ d) && (match t with
    | [] => true
    | (k', _) :: _ => decide (k < k')) && twf d t

/-- The number that little-endian bytes denote (00 R3). -/
def leNat : Bytes → Nat
  | [] => 0
  | b :: r => b.toNat + 256 * leNat r

/-- The `n` little-endian bytes of a number. -/
def natLe : Nat → Nat → Bytes
  | 0, _ => []
  | n + 1, v => BitVec.ofNat 8 v :: natLe n (v / 256)

def le32 (w : W32) : Bytes := natLe 4 w.toNat
def le64 (w : W64) : Bytes := natLe 8 w.toNat

/-- Bytes `o` to `o + n - 1` of a record, as a number; missing bytes are 0. -/
def field (img : Bytes) (o n : Nat) : Nat := leNat ((img.drop o).take n)
def f32 (img : Bytes) (o : Nat) : W32 := BitVec.ofNat 32 (field img o 4)
def f64 (img : Bytes) (o : Nat) : W64 := BitVec.ofNat 64 (field img o 8)

/-- Bits [hi:lo] of a number, `n` bits from `lo`. -/
def bits (v lo n : Nat) : Nat := v / 2 ^ lo % 2 ^ n
def bit (v i : Nat) : Bool := v.testBit i

/-- A record with the bytes `b` at offset `o`. -/
def overlay (img : Bytes) (o : Nat) (b : Bytes) : Bytes := img.take o ++ b ++ img.drop (o + b.length)

def zeros (n : Nat) : Bytes := List.replicate n 0#8

/-- The low and the high half of a 64-bit value, and back (04 R57, 06 R97). -/
def lo32 (w : W64) : W32 := w.setWidth 32
def hi32 (w : W64) : W32 := (w >>> 32).setWidth 32
def join64 (lo hi : W32) : W64 := hi ++ lo

/-- The first element that satisfies a test is changed by `f`. -/
def modFirst {α : Type} (p : α → Bool) (f : α → α) : List α → List α
  | [] => []
  | x :: r => if p x then f x :: r else x :: modFirst p f r

/-- Every element that satisfies a test is changed by `f`. -/
def modAll {α : Type} (p : α → Bool) (f : α → α) (l : List α) : List α := l.map fun x => if p x then f x else x

/-- Sorts by an order, keeping equal elements as they stand. -/
def insertBy {α : Type} (lt : α → α → Bool) (x : α) : List α → List α
  | [] => [x]
  | y :: r => if lt y x then y :: insertBy lt x r else x :: y :: r

def sortBy {α : Type} (lt : α → α → Bool) (l : List α) : List α := l.foldr (insertBy lt) []

/-- Distinct elements, in the order of their first occurrence. -/
def distinct {α : Type} [DecidableEq α] : List α → List α
  | [] => []
  | x :: r => x :: (distinct r).filter (· ≠ x)

/-- The logical lanes of threads as a mask. -/
def laneMask (tids : List Nat) : W32 := tids.foldl (fun m t => m ||| (1#32 <<< (t % 32))) 0#32

end Sys2Proof.Machine
end

