-- ==== Sys2Proof/Machine/Flags.lean ====
section
/-! DEFINITION. Widths and signs of the type codes, exact integers from bits and back, comparison conditions, and the
bits of `fflag`. -/

namespace Sys2Proof.Machine

open Sys2Proof

/-- Bits of an element of a type code (04 Table 4.10, 05 R70). -/
def tyBits (ty : Nat) : Nat :=
  match ty with
  | 1 | 5 | 9 | 17 | 18 => 8
  | 2 | 6 | 10 | 13 | 14 => 16
  | 4 | 8 | 12 => 64
  | 19 | 20 => 6
  | 21 => 4
  | _ => 32

/-- Whether a type has 64 bits, so that its registers are pairs (06, 04 R58). -/
def tyWide (ty : Nat) : Bool := tyBits ty == 64

/-- Whether a type is a signed integer type. -/
def tySigned (ty : Nat) : Bool := 5 ≤ ty && ty ≤ 8

/-- The exact integer that the low `n` bits of `v` denote under a type's signedness (07 R108). -/
def intOf (signed : Bool) (n v : Nat) : Int :=
  let u := v % 2 ^ n
  if signed && 2 ^ (n - 1) ≤ u then (u : Int) - (2 ^ n : Nat) else (u : Int)

/-- `Wrap`: the low `n` bits (07 R108). -/
def wrapN (n : Nat) (x : Int) : Nat := (x % ((2 ^ n : Nat) : Int)).toNat

/-- The least and the greatest integer of a width (05 R77). -/
def intMin (signed : Bool) (n : Nat) : Int := if signed then -((2 ^ (n - 1) : Nat) : Int) else 0
def intMax (signed : Bool) (n : Nat) : Int := if signed then ((2 ^ (n - 1) : Nat) : Int) - 1 else ((2 ^ n : Nat) : Int) - 1

/-- `Clamp` to `SatI(n)` or `SatN(n)` (05 R77, 07 R108). -/
def clampN (signed : Bool) (n : Nat) (x : Int) : Nat :=
  wrapN n (if x < intMin signed n then intMin signed n else if intMax signed n < x then intMax signed n else x)

/-- The conditions of `ICMP` (07 R122): `eq` 0, `ne` 1, `lt` 2, `le` 3, `gt` 4, `ge` 5. -/
def cmpInt (cc : Nat) (a b : Int) : Bool :=
  match cc with
  | 0 => a == b
  | 1 => a != b
  | 2 => a < b
  | 3 => a ≤ b
  | 4 => b < a
  | 5 => b ≤ a
  | _ => false

/-- `Compare(cc, a, b)` of values of a type, given by their bits. -/
def cmpTy (cc ty a b : Nat) : Bool :=
  cmpInt cc (intOf (tySigned ty) (tyBits ty) a) (intOf (tySigned ty) (tyBits ty) b)

/-- The combine of `ICMP` and `FCMP` (07 R122). -/
def combine (comb : Nat) (t k : Bool) : Bool :=
  match comb with
  | 1 => t && k
  | 2 => t || k
  | _ => t

/-- The bits of `fflag` (06 Table 6.14). -/
def flInv : BitVec 4 := 8#4
def flOvf : BitVec 4 := 4#4
def flUnf : BitVec 4 := 2#4
def flInx : BitVec 4 := 1#4

end Sys2Proof.Machine
end

