-- ==== Sys2Proof/Machine/Order.lean ====
section
/-! DEFINITION. Happens-before and the writes that reads may miss (11 R206 to R214, 29 R414): who knows of which writes. -/

namespace Sys2Proof.Machine

open Sys2Proof

/-! ## Who knows of a write -/

/-- Someone who reads or writes: whose writes are its own, those whose knowledge it has, and where it stands. -/
structure Who where
  own  : Agent
  all  : List Agent
  spot : Spot
  deriving DecidableEq, Repr

/-- The threads of a group share what its barriers and its launch give them. -/
def threadAgents (g : Gid) (tid : Nat) : List Agent := [.thread g tid, .group g, .gang g.tag]

/-- An engine of a die, and one that acts off the device. -/
def engineWho (a : Agent) (die : Nat) : Who := ⟨a, [a], ⟨0, die, none, 0⟩⟩
def hostWho : Who := ⟨.host, [.host], ⟨2, 0, none, 0⟩⟩
def fabricWho : Who := ⟨.fabric, [.fabric], ⟨1, 0, none, 0⟩⟩

/-- The path of the host's accesses, which are of no class (01 R12). -/
def hostPath : Nat := 5

/-- The paths through which some agents know of a write; none if they do not. -/
def Past.knownBy (r : Past) (as : List Agent) : Option (List Nat) :=
  match r.know.filter fun k => as.contains k.who with
  | [] => none
  | ks => some (distinct (ks.map (·.via)).flatten)

/-- The same for agents one of which may have made the write itself. -/
def Past.priorOf (r : Past) (as : List Agent) : Option (List Nat) :=
  if as.contains r.by_ then some ((r.knownBy as).getD []) else r.knownBy as
def Past.priorTo (r : Past) (me : Who) : Option (List Nat) := r.priorOf me.all

/-- One more that knows of a write, or knows more of it. -/
def Past.tell (r : Past) (k : Know) : Past :=
  if r.know.any fun x => x.who = k.who then
    { r with know := r.know.map fun x => if x.who = k.who then ⟨x.who, distinct (x.via ++ k.via), x.cov || k.cov⟩ else x }
  else { r with know := r.know ++ [k] }

/-- Whether a write is one of some group's threads. -/
def Past.ofGroup (r : Past) (g : Gid) : Bool :=
  match r.by_ with
  | .thread x _ => x == g
  | _ => false

/-- Whether a chain to someone counts as covering: it is one through an event that covers, or a write of the reader's own
group, which shares one L1 (R212). -/
def admits (cover : Bool) (me : Who) (r : Past) : Bool := cover || (match me.own with
  | .thread g _ => r.ofGroup g
  | _ => true)

def mapPast (mm : MemSys) (f : Past → Past) : MemSys := { mm with past := mm.past.map f }

/-- An edge of happens-before (R209): `dst` comes to know of the writes that `src` picks, through the paths that it gives, and
through those that the edge carries beside the write's own (R214). -/
def learn (mm : MemSys) (src : Past → Option (List Nat)) (dst : Agent) (carry : Nat → List Nat) (cov : Past → Bool) : MemSys :=
  mapPast mm fun r => match src r with
    | none => r
    | some via => r.tell ⟨dst, distinct (via ++ carry r.path), cov r⟩

def noCarry (_ : Nat) : List Nat := []
def carryAll (_ : Nat) : List Nat := [0, 1, 2, 3, 4]
def carryHay (_ : Nat) : List Nat := [3]
def carryFrom (p q : Nat) (x : Nat) : List Nat := if x = p then [q] else []

/-- An edge to an engine. -/
def learnTo (mm : MemSys) (src : Past → Option (List Nat)) (dst : Agent) (carry : Nat → List Nat) : MemSys :=
  learn mm src dst carry fun _ => true

/-- What someone knew is over: a slot or a word is used anew. -/
def forget (mm : MemSys) (p : Agent → Bool) : MemSys :=
  if mm.past.isEmpty then mm else mapPast mm fun r => { r with know := r.know.filter fun k => !p k.who }

/-! ## Scopes (R207) -/

/-- Whether two agents are in one instance of a scope. -/
def sameInstance (scope : Nat) (a b : Spot) : Bool :=
  match scope with
  | 7 => true
  | 6 => a.kind ≤ 1 && b.kind ≤ 1
  | 5 => a.kind = 0 && b.kind = 0
  | 4 => a.kind = 0 && b.kind = 0 && a.die = b.die
  | 3 => a.gid.isSome && a.gid.map (·.tag) == b.gid.map (·.tag)
  | 2 => a.gid.isSome && a.gid == b.gid
  | _ => a.gid.isSome && a.gid == b.gid && a.warp = b.warp

/-- Whether a release synchronises with an acquire at a scope. -/
def Rel.meets (r : Rel) (scope : Nat) (at_ : Spot) : Bool :=
  r.all || (sameInstance r.scope r.spot at_ && sameInstance scope r.spot at_)

/-! ## Releases, acquires and fences (R206, R209) -/

/-- What a thread's last fence at a scope has put before its later writes. -/
def fenceAgent (me : Who) (scope : Nat) : List Agent :=
  match me.own with
  | .thread g t => [.fence g t scope]
  | _ => []

/-- A release side, a release at its scope or what follows a fence: `mk` is what it leaves for acquires. -/
def releaseBy (mm : MemSys) (me : Who) (scope : Nat) (mk : Rel → Agent) (carry : Nat → List Nat) : MemSys :=
  if mm.past.isEmpty then mm else
  let m1 := if scope = 0 then mm else learnTo mm (·.priorTo me) (mk ⟨scope, me.spot, false⟩) carry
  [1, 2, 3, 4, 5, 6, 7].foldl (fun m sc =>
    learnTo m (·.knownBy (fenceAgent me sc)) (mk ⟨sc, me.spot, false⟩) carry) m1

/-- An acquire side, at its scope or, with scope 0, once a fence follows: `of` picks the releases that it reads. -/
def acquireBy (mm : MemSys) (me : Who) (scope : Nat) (of : Agent → Option Rel) : MemSys :=
  mapPast mm fun r => r.know.foldl (fun x k => match of k.who with
    | some rel =>
      if scope = 0 then (match me.own with
        | .thread g t => x.tell ⟨.seen g t rel, k.via, true⟩
        | _ => x)
      else if rel.meets scope me.spot then x.tell ⟨me.own, k.via, admits (3 ≤ scope) me r⟩
      else x
    | none => x) r

/-- The release that a release sequence at some bytes began with. -/
def wordRel (locs : List Nat) : Agent → Option Rel
  | .word ls rel => if ls.any locs.contains then some rel else none
  | _ => none

/-- A write at some bytes as a release side, and a read of some bytes as an acquire side. -/
def release (mm : MemSys) (me : Who) (scope : Nat) (locs : List Nat) (carry : Nat → List Nat) : MemSys :=
  releaseBy mm me scope (.word locs) carry
def acquire (mm : MemSys) (me : Who) (scope : Nat) (locs : List Nat) : MemSys := acquireBy mm me scope (wordRel locs)

/-- The release of a message of a mailbox (12 R244). -/
def msgRel (id : Nat) : Agent → Option Rel
  | .msg i rel => if i = id then some rel else none
  | _ => none

/-- A fence at a scope: what went before is before what follows (R213); `cross` are the paths that an `XFENCE` names. -/
def fenceAt (mm : MemSys) (me : Who) (scope : Nat) (cross : List Nat) : MemSys :=
  let carry (p : Nat) : List Nat := if cross.contains p then cross else []
  let cov := admits (3 ≤ scope) me
  let m1 := learn mm (·.priorTo me) me.own carry cov
  let m2 := mapPast m1 fun r => r.know.foldl (fun x k => match k.who, me.own with
    | .seen g t rel, .thread g' t' =>
      if g = g' && t = t' && rel.meets scope me.spot then x.tell ⟨me.own, distinct (k.via ++ carry r.path), cov r⟩ else x
    | _, _ => x) r
  (fenceAgent me scope).foldl (fun m a => learnTo m (·.knownBy [me.own]) a noCarry) m2

/-- A covering event of some threads: the chains to it from the writes that it covers are admitted now (R212). -/
def coverPast (mm : MemSys) (g : Gid) (tids : List Nat) (of : Past → Bool := fun _ => true) : MemSys :=
  mapPast mm fun r => if !of r then r else tids.foldl (fun x t =>
    match x.knownBy (threadAgents g t) with
    | some via => if r.know.all fun k => !(threadAgents g t).contains k.who || k.cov then x else x.tell ⟨.thread g t, via, true⟩
    | none => x) r

/-! ## Reads (R211) -/

/-- The reads of the threads that read together. -/
def Who.readers (me : Who) : List Agent := me.all.filterMap fun a => match a with
  | .thread g t => some (.reads g t)
  | _ => none

/-- Whether a reader on path `q` cannot miss a write: it is its own, or it happens before through an admitted chain, or the
thread has read it or a later one (R210). -/
def Past.binds (r : Past) (me : Who) (q : Nat) : Bool :=
  me.all.contains r.by_ || r.know.any fun k =>
    k.cov && (me.all.contains k.who || me.readers.contains k.who) &&
      (k.via.contains q || r.path = q || r.path = hostPath || q = hostPath)

def Past.touches (r : Past) (locs : List Nat) : Bool := r.was.any fun x => locs.contains x.1

/-- The writes to a unit of bytes that a read on path `q` misses, by a free value: some of the last ones, up to the last that
it cannot miss. `unit` is one that is read single-copy atomically (R210). -/
def missed (mm : MemSys) (free : Nat) (me : Who) (q : Nat) (unit : List Nat) : List Past :=
  match (mm.past.filter (·.touches unit)).takeWhile (!·.binds me q) with
  | [] => []
  | open_ => open_.take (Config.oldDepth free (unit.headD 0) % (open_.length + 1))

/-- A byte without the writes that are missed. -/
def undo (ps : List Past) (loc : Nat) (b : Byte) : Byte := ps.foldl (fun b r => (tfind r.was loc).getD b) b

/-- Threads that have read some bytes read nothing older of them from now on (R210). -/
def sawPast (mm : MemSys) (free : Nat) (me : Who) (q : Nat) (unit : List Nat) : MemSys :=
  if me.readers.isEmpty then mm else
  let ps := missed mm free me q unit
  mapPast mm fun r =>
    if r.touches unit && !ps.contains r && !r.binds me q then me.readers.foldl (fun x a => x.tell ⟨a, [q], true⟩) r else r

/-! ## Edges between engines (Table 11.2) -/

/-- Whether an agent is of one of some groups. -/
def Agent.inGroups (gs : List Gid) : Agent → Bool
  | .thread g _ | .group g | .task g _ | .copy g _ => gs.contains g
  | .gang t => gs.any fun g => g.tag = t
  | _ => false

/-- What every access of some groups, of their tasks and copies, has behind it. -/
def Past.priorGroups (r : Past) (gs : List Gid) : Option (List Nat) :=
  match r.know.filter fun k => k.who.inGroups gs with
  | [] => if r.by_.inGroups gs then some [] else none
  | ks => some (distinct (ks.map (·.via)).flatten)

/-- The same for a gang. -/
def Agent.inGang (tag : Nat) : Agent → Bool
  | .thread g _ | .group g | .task g _ | .copy g _ => g.tag == tag
  | .gang t => t == tag
  | _ => false

/-- What a gang that is gone leaves: no launch tag stands for it any more. -/
def Agent.gone (tag : Nat) : Agent → Bool
  | .slot g _ | .fence g _ _ | .seen g _ _ | .reads g _ => g.tag == tag
  | a => a.inGang tag

def Past.priorGang (r : Past) (tag : Nat) : Option (List Nat) :=
  match r.know.filter fun k => k.who.inGang tag with
  | [] => if r.by_.inGang tag then some [] else none
  | ks => some (distinct (ks.map (·.via)).flatten)

end Sys2Proof.Machine
end

