-- ==== Sys2Proof/Machine/Memory.lean ====
section
/-! DEFINITION. Memory: places and homes of physical addresses (10 R186, R187, 26 R377), bytes at their homes, copies in
L1 and in the instruction caches, monitors and futures answered by a write, translation (10 R197 to R199), and the
decision of an access before it is performed (12 R222). -/

namespace Sys2Proof.Machine

open Sys2Proof

/-! ## Places -/

/-- First addresses of the physical apertures (10 Table 10.1). -/
def commonsBase : Nat := 0x20000000000
def commonsEnd : Nat := 0x20010000000
def hostBase : Nat := 2 ^ 50
def peerBase : Nat := 2 ^ 51

/-- The virtual commons aperture (10 R185). -/
def apertureBase : Nat := 0xFFFFFFFFE00000
def apertureEnd : Nat := 0x100000000000000

/-- A virtual address is canonical when bits [63:57] equal bit 56 (10 R185). -/
def canonical (va : W64) : Bool := decide (va.toNat < 2 ^ 56) || decide (2 ^ 64 - 2 ^ 56 ≤ va.toNat)

/-- Home die, home slice within the die, and device channel of a local address, and the byte within its channel
(10 R187). -/
def homeDie (p : Nat) : Nat := p / Config.dieBytes
def homeSlice (p : Nat) : Nat :=
  let q := p % Config.dieBytes / 128
  Nat.xor q (q / 64) % 16
def channelOf (p : Nat) : Nat := 48 * homeDie p + p % Config.dieBytes / 128 / 2 % 48
def channelByte (p : Nat) : Nat := p % Config.dieBytes / 128 / 2 / 48 * 256 + p % Config.dieBytes % 256

/-- The member that a peer address selects and the offset in its memory (26 R377); none without members or through an
entry that is not valid. -/
def peerOf (fab : Fabric) (p : Nat) : Option (Nat × Nat) :=
  let a := p - peerBase
  if fab.sn = 0 then none else
  let s := a / 2 ^ fab.sg
  let e := (tget 0#32 fab.members (s % fab.sn)).toNat
  if bit e 31 then some (e % 1024, s / fab.sn * 2 ^ fab.sg + a % 2 ^ fab.sg) else none

/-- The location of a physical address (log 5); none for an unbacked one (10 R186, 26 R377). -/
def locOf (fab : Fabric) (p : Nat) : Option Nat :=
  if p < Config.localBytes then some p
  else if commonsBase ≤ p ∧ p < commonsEnd then some p
  else if hostBase ≤ p ∧ p < peerBase then some p
  else if peerBase ≤ p ∧ p < 2 ^ 52 then
    (peerOf fab p).map fun (m, off) => if m = fab.did ∧ off < Config.localBytes ∧ fab.fon then off else 2 ^ 52 * (1 + m) + off
  else none

/-- Whether a physical address lies in the peer aperture. -/
def isPeer (p : Nat) : Bool := peerBase ≤ p

/-- Whether the fabric answers an access to this location with an error reply: it cannot be delivered, or its offset
lies at or beyond 1.5 TiB (26 R381). -/
def fabricFails (fab : Fabric) (loc : Nat) : Bool :=
  2 ^ 52 ≤ loc && (!fab.fon || Config.localBytes ≤ loc % 2 ^ 52 || fab.down.contains (loc / 2 ^ 52 - 1))

def isHostLoc (loc : Nat) : Bool := hostBase ≤ loc && loc < peerBase
def isCommonsLoc (loc : Nat) : Bool := commonsBase ≤ loc && loc < commonsEnd

/-- The commons of hamlet `ham` of the device (10 Table 10.1). -/
def commonsAddr (ham off : Nat) : Nat := commonsBase + ham * Config.commonsBytes + off

/-- Whether a location's channel has not reported ready, and whether its bring-up failed (01 R19). -/
def channelWaits (h : HostIf) (loc : Nat) : Bool :=
  decide (loc < Config.localBytes) && !h.ready.contains (.channel (channelOf loc)) &&
    !h.failed.contains (.channel (channelOf loc))
def channelFailed (h : HostIf) (loc : Nat) : Bool :=
  decide (loc < Config.localBytes) && h.failed.contains (.channel (channelOf loc))

/-! ## Bytes at their homes -/

/-- Memory's canonical form: locations strictly rising, no listed byte equal to the 0 that an unlisted one reads as
(log 1). -/
def Memory.wf (m : List Host.Cell) : Bool := twf 0#8 m

/-- The byte that device agents see at a location's home (11 R217). -/
def homeByte (mm : MemSys) (loc : Nat) : Byte :=
  match tfind mm.deferred loc with
  | some b => b
  | none => tget 0#8 mm.mem loc

def homeBytes (mm : MemSys) (loc n : Nat) : Bytes := (List.range n).map fun i => homeByte mm (loc + i)

/-- A number of `n` bytes at a location's home. -/
def homeNat (mm : MemSys) (loc n : Nat) : Nat := leNat (homeBytes mm loc n)

/-- One byte written at its home: a device write to host memory stays deferred (11 R217). -/
def putByte (mm : MemSys) (loc : Nat) (b : Byte) : MemSys :=
  if isHostLoc loc then { mm with deferred := tput mm.deferred loc b }
  else { mm with mem := tset 0#8 mm.mem loc b }

def putBytes (mm : MemSys) (ws : List (Nat × Byte)) : MemSys := ws.foldl (fun m (l, b) => putByte m l b) mm

/-- Bytes `b` from location `loc` on, as single writes. -/
def writesAt (loc : Nat) (b : Bytes) : List (Nat × Byte) := b.zipIdx.map fun (x, i) => (loc + i, x)

def poisoned (s : State) (loc : Nat) : Bool := s.mm.poison.contains (loc / 32) || channelFailed s.host loc

/-- Who makes a write: the core whose L1 it goes through, the bytes that it writes past that L1, the bits that it enables
in a byte where not all (10 R195), the launch tag and `who` that 10 R204 records, none for a write by no gang, and, for a
write that reads may miss (11 R211), its path and its maker; `rmw` says that it is a read-modify-write (R209). -/
structure Writer where
  core : Option Nat
  rec_ : Option (Nat × W32)
  src  : Option (Nat × Agent) := none
  rmw  : Bool := false
  past : List Nat := []
  en   : Table Byte := []
  deriving DecidableEq, Repr

/-- The writer that an engine of the device is, and one that acts for a gang. -/
def deviceWriter : Writer := { core := none, rec_ := none }
def gangWriter (tag : Nat) (who : W32) : Writer := { core := none, rec_ := some (tag, who) }

/-- Whether a write covers byte `i` of a granule with every bit of it enabled. -/
def covers (w : Writer) (ws : List (Nat × Byte)) (g i : Nat) : Bool :=
  tget 0xFF#8 w.en (32 * g + i) == 0xFF#8 && ws.any fun (l, _) => l == 32 * g + i

/-- The writes that a granule's poison lets through, and the poison that they leave: a write of a whole granule clears
it, and a partial write to a poisoned granule is discarded (10 R203). -/
def throughPoison (s : State) (w : Writer) (ws : List (Nat × Byte)) : List (Nat × Byte) × List Nat :=
  let whole (g : Nat) : Bool := (List.range 32).all (covers w ws g)
  let pass := ws.filter fun (l, _) => !channelFailed s.host l && (!s.mm.poison.contains (l / 32) || whole (l / 32))
  (pass, s.mm.poison.filter fun g => !(ws.any fun (l, _) => l / 32 == g) || !whole g)

/-- A byte written with enables. -/
def mergeByte (en old new : Byte) : Byte := (old &&& ~~~en) ||| (new &&& en)

/-- Bytes of a line copy with the writes that fall into it and go through its cache. -/
def patch (w : Writer) (base : Nat) (b : Bytes) (ws : List (Nat × Byte)) : Bytes :=
  b.zipIdx.map fun (x, i) =>
    match (ws.filter fun (l, _) => l == base + i && !w.past.contains l).getLast? with
    | some (_, y) => mergeByte (tget 0xFF#8 w.en (base + i)) x y
    | none => x

/-- The granules of a line that are poisoned at their home, and those that a copy holds poisoned after some writes. -/
def poisonedIn (mm : MemSys) (loc n : Nat) : List Nat := mm.poison.filter fun g => loc ≤ 32 * g && 32 * g < loc + n
def stillBad (w : Writer) (ws : List (Nat × Byte)) (gs : List Nat) : List Nat :=
  gs.filter fun g => !((List.range 32).all (covers w ws g))

/-- An L1 copy after the writes `ws0`, of which poison lets `ws` through at the home: the writer's own copy takes all that
goes through L1, every other copy keeps the old bytes (10 R189, R195). -/
def snapLine (mm : MemSys) (w : Writer) (ws0 ws : List (Nat × Byte)) (l : L1Line) : L1Line :=
  let mine := w.core == some l.core
  let at_ := 128 * l.line
  let in_ (ws : List (Nat × Byte)) : List (Nat × Byte) := ws.filter fun (x, _) => x / 128 == l.line
  let hit := in_ (if mine then ws0 else ws)
  let old : Bytes × List Nat := match l.bytes with
    | some b => (b, l.psn)
    | none => (homeBytes mm at_ 128, poisonedIn mm at_ 128)
  if hit.isEmpty || (mine && l.bytes.isNone && hit == in_ ws && hit.all fun (x, _) => !w.past.contains x) then l
  else if mine then
    { l with bytes := some (patch w at_ old.1 hit), psn := stillBad w (hit.filter fun x => !w.past.contains x.1) old.2 }
  else { l with bytes := some old.1, psn := old.2 }

/-- An L1 copy with a poisoned granule (27 R400). -/
def spoilLine (mm : MemSys) (g : Nat) (l : L1Line) : L1Line :=
  if g / 4 != l.line then l else
  match l.bytes with
  | some _ => { l with psn := g :: l.psn }
  | none => { l with bytes := some (homeBytes mm (128 * l.line) 128), psn := g :: poisonedIn mm (128 * l.line) 128 }

def snapL1 (mm : MemSys) (w : Writer) (ws0 ws : List (Nat × Byte)) : List L1Line := mm.l1.map (snapLine mm w ws0 ws)

/-- The instruction-cache lines after a write: every copy keeps the old bytes (12 R250). -/
def snapI (mm : MemSys) (ws : List (Nat × Byte)) : List ILine :=
  mm.icache.map fun l =>
    if l.bytes.isNone && ws.any fun (x, _) => x / 64 == l.line then
      { l with bytes := some (homeBytes mm (64 * l.line) 64), psn := poisonedIn mm (64 * l.line) 64 }
    else l

/-- The reply that a write gives to a waiting thread: a monitored word that now compares true (12 R236), or a future
that is no longer empty (R242). -/
def wakeThread (mm : MemSys) (ws : List (Nat × Byte)) (t : Thread) : Thread :=
  match t.wait with
  | .monitor m =>
    let n := tyBits m.ty / 8
    if m.placed && m.hit.isNone && ws.any (fun (l, _) => m.loc ≤ l && l < m.loc + n) then
      let v := homeNat mm m.loc n
      if cmpTy m.cc m.ty v m.cmp.toNat then { t with wait := .monitor { m with hit := some (BitVec.ofNat 64 v) } } else t
    else t
  | .future f =>
    if f.placed && f.hit.isNone && ws.any (fun (l, _) => f.loc ≤ l && l < f.loc + 16) then
      let st := homeNat mm (f.loc + 8) 8 / 2 ^ 62
      if st ≠ 0 then
        { t with wait := .future { f with hit := some (BitVec.ofNat 64 (homeNat mm f.loc 8), st == 1) } }
      else t
    else t
  | _ => t

def wakeAll (s : State) (ws : List (Nat × Byte)) : State :=
  { s with groups := s.groups.map fun g => { g with threads := g.threads.map (wakeThread s.mm ws) } }

/-- The last writers of some lines (10 R204); a write by no gang leaves the line dirty with none (log 56). -/
def noteWriter (t : Table (Option (Nat × W32))) (w : Writer) (lines : List Nat) : Table (Option (Nat × W32)) :=
  lines.foldl (fun t l => tput t l w.rec_) t

/-- The writes that reads may still miss, after a write (11 R211): it stands first with the bytes that it replaced. One whose
maker is not known is missed by no read (log 20). A write that is no read-modify-write ends the release sequences at its bytes
(R209). -/
def notePast (mm : MemSys) (w : Writer) (ws : List (Nat × Byte)) : List Past :=
  let locs := distinct ((ws.map (·.1)).filter (· < peerBase))
  let kept := if w.rmw then mm.past else (forget mm fun a => match a with
    | .word ls _ => ls.any locs.contains
    | _ => false).past
  match w.src with
  | some (path, a) => if locs.isEmpty then kept else ⟨locs.map fun l => (l, homeByte mm l), path, a, []⟩ :: kept
  | none => (kept.map fun r => { r with was := r.was.filter fun x => !locs.contains x.1 }).filter fun r => !r.was.isEmpty

/-- One write applied at its home. -/
def applyWrite (s : State) (w : Writer) (ws0 : List (Nat × Byte)) : State :=
  let (ws, poison) := throughPoison s w ws0
  let l1 := snapL1 s.mm w ws0 ws
  let ic := snapI s.mm ws
  let lines := distinct ((ws.filter fun (l, _) => l < peerBase && !isCommonsLoc l).map fun (l, _) => l / 128)
  let mm := putBytes { s.mm with poison := poison, l1 := l1, icache := ic, past := notePast s.mm w ws } ws
  wakeAll { s with mm := { mm with writers := noteWriter mm.writers w lines } } ws

/-- Fields of bits within bytes (location, lowest bit, width, value) as the bytes of one write with their enables
(10 R195). -/
def bitWrites (mm : MemSys) (fs : List (Nat × Nat × Nat × Nat)) : Table Byte × Table Byte :=
  fs.foldl (fun (ws, en) (loc, b, n, v) =>
    let m := BitVec.ofNat 8 ((2 ^ n - 1) * 2 ^ b)
    (tput ws loc (mergeByte m (tget (homeByte mm loc) ws loc) (BitVec.ofNat 8 (v % 2 ^ n * 2 ^ b))),
      tput en loc (tget 0#8 en loc ||| m))) ([], [])

/-- Fields of bits written as one write. -/
def putBits (s : State) (w : Writer) (fs : List (Nat × Nat × Nat × Nat)) : State :=
  let (ws, en) := bitWrites s.mm fs
  applyWrite s { w with en := en } ws

/-- Writes the bytes `b` from location `loc` on. -/
def writeLoc (s : State) (w : Writer) (loc : Nat) (b : Bytes) : State := applyWrite s w (writesAt loc b)

/-- A write by an agent outside the device, or of the host to its own memory, which takes the ownership of a deferred
line first (11 R217): the device's bytes are written back before it. -/
def writeBackLine (mm : MemSys) (line : Nat) : MemSys :=
  let d := mm.deferred.filter fun (l, _) => l / 128 == line
  { mm with
    mem := d.foldl (fun m (l, b) => tset 0#8 m l b) mm.mem
    deferred := mm.deferred.filter fun (l, _) => l / 128 != line
    writers := tdel mm.writers line }

/-! ## Ordering state (11 R212, R217) -/

/-- A covering event of threads: from now on they read no L1 copy made before it (11 R212). -/
def coverNow (mm : MemSys) : MemSys := { mm with stamp := mm.stamp + 1 }

def deferredLines (mm : MemSys) : List Nat := distinct (mm.deferred.map fun (l, _) => l / 128)

/-- A release at `sys`, or a write after a fence at `sys`, marks its word with deferred lines (11 R217). -/
def markWord (mm : MemSys) (loc : Nat) (lines : List Nat) : MemSys :=
  let old := tget [] mm.marks (loc / 4)
  let new := distinct (old ++ lines)
  if new.isEmpty then mm else { mm with marks := tput mm.marks (loc / 4) new }

/-- The first acquire of a marked word at `sys` writes back every marked line and clears the mark (11 R217). -/
def takeMark (mm : MemSys) (loc : Nat) : MemSys :=
  let mm' := (tget [] mm.marks (loc / 4)).foldl writeBackLine mm
  { mm' with marks := tdel mm'.marks (loc / 4) }

/-! ## Reads -/

/-- A read's bytes, whether one of them is poisoned, the state after it, the locations that a copy in L1 served, and whether
it missed no write. -/
structure Read where
  bytes  : Bytes
  bad    : Bool
  st     : State
  hit    : List Nat
  newest : Bool

/-- A read at the homes, as the engines make it. -/
def readHome (s : State) (locs : List Nat) : Read :=
  ⟨locs.map (homeByte s.mm), locs.any (poisoned s), s, [], true⟩

/-- The bytes of `locs` that are read single-copy atomically with one of them, the units being told apart by `key`. -/
def unitOf (key : Nat → Nat) (locs : List Nat) (l : Nat) : List Nat := locs.filter fun x => key x = key l

/-- A byte as a read on a path returns it: as it stands at its home, less the writes that the read misses (11 R211). -/
def seenByte (s : State) (me : Who) (q : Nat) (unit : List Nat) (l : Nat) : Byte :=
  undo (missed s.mm s.sch.free me q unit) l (homeByte s.mm l)

/-- Bytes as a read returns them. -/
def seenBytes (s : State) (me : Who) (q : Nat) (key : Nat → Nat) (locs : List Nat) : Bytes :=
  locs.map fun l => seenByte s me q (unitOf key locs l) l

/-- The parts of eight aligned bytes, each of which is read single-copy atomically (11 R210). -/
def byPart (l : Nat) : Nat := l / 8

/-- A number that is read as one unit. -/
def seenNat (s : State) (me : Who) (q : Nat) (locs : List Nat) : Nat := leNat (locs.map (seenByte s me q locs))

/-- Whether a read misses no write of its bytes. -/
def readsNewest (s : State) (me : Who) (q : Nat) (key : Nat → Nat) (locs : List Nat) : Bool :=
  locs.all fun l => (missed s.mm s.sch.free me q (unitOf key locs l)).isEmpty

/-- The `w` bits from bit `off` on of some bytes, as one unit with the parts that they touch (R210). -/
def seenBits (s : State) (me : Who) (q : Nat) (locs : List Nat) (off w : Nat) : Nat :=
  let us := (locs.drop (off / 8)).take ((off + w + 7) / 8 - off / 8)
  let unit := locs.filter fun l => us.any fun x => byPart x = byPart l
  bits (leNat (us.map (seenByte s me q unit))) (off % 8) w

/-- The next read finds a fresh free value. -/
def nextLook (s : State) : State :=
  if s.mm.past.isEmpty then s else { s with sch := { s.sch with free := s.sch.free + 1 } }

/-- A read that may miss writes finds a fresh free value, and has read what it has read (R210). -/
def lookPast (s : State) (me : Who) (q : Nat) (key : Nat → Nat) (locs : List Nat) : State :=
  nextLook { s with
    mm := if s.mm.past.isEmpty then s.mm else
      (distinct (locs.map (unitOf key locs))).foldl (fun m u => sawPast m s.sch.free me q u) s.mm }

/-- A cache's lines with room for one more of a core: where the core holds as many as it can, one of them goes, by a free
value (01 R8, R10, log 84). -/
def roomIn {α : Type} [DecidableEq α] (mine : α → Bool) (pick : Nat) (l : List α) : List α × Bool :=
  let own := l.filter mine
  if own.length < Config.cacheLines then (l, false)
  else match own[pick % own.length]? with
    | some x => (l.erase x, true)
    | none => (l, false)

/-- Fills a line into a core's L1; a copy that is there is replaced. -/
def fillLine (s : State) (c line : Nat) : State :=
  let rest := s.mm.l1.filter fun l => !(l.core = c && l.line = line)
  let (kept, out) := roomIn (fun l : L1Line => l.core = c) (Config.victim s.sch.free) rest
  { s with
    mm := { s.mm with l1 := ⟨c, line, s.mm.stamp, none, []⟩ :: kept }
    sch := if out then { s.sch with free := s.sch.free + 1 } else s.sch }

/-- The line source of a load of core `c` (10 R188 to R190, 11 R211, R212): the copy in L1 that is not older than the
thread's last covering event, where it is stale or of peer memory only if, by a free value, it is still there (log 6); else
the home, which fills L1 but for the hint `bypass`. -/
def lineSource (s : State) (c cover : Nat) (fill : Bool) (line : Nat) : Option L1Line × State :=
  match s.mm.l1.find? fun l => l.core = c && l.line = line && decide (cover ≤ l.stamp) with
  | some l =>
    if l.bytes.isNone && decide (line < 2 ^ 45) then (some l, s) else
    let s1 := { s with sch := { s.sch with free := s.sch.free + 1 } }
    if Config.l1Kept s.sch.free then (some l, s1)
    else
      let s2 := { s1 with mm := { s1.mm with l1 := s1.mm.l1.filter fun x => !(x.core = c && x.line = line) } }
      (none, if fill then fillLine s2 c line else s2)
  | none => (none, if fill then fillLine s c line else s)

/-- A load of a core: locations of `unc` never read L1 (an uncached mapping, or the commons), the others go through it. What
no old copy serves is read as it stands at its home, less the writes that the load misses. -/
def readCore (s : State) (me : Who) (c cover : Nat) (unc : List Nat) (fill : Bool) (key : Nat → Nat) (locs : List Nat) : Read :=
  let step (acc : List L1Line × State) (line : Nat) : List L1Line × State :=
    match lineSource acc.2 c cover fill line with
    | (some l, s') => (l :: acc.1, s')
    | (none, s') => (acc.1, s')
  let (old, s') := (distinct ((locs.filter (!unc.contains ·)).map (· / 128))).foldl step ([], s)
  let copy (l : Nat) : Option L1Line := if unc.contains l then none else old.find? fun x => x.line = l / 128
  let stale (l : Nat) : Option Bytes := (copy l).bind (·.bytes)
  let home := locs.filter fun l => (stale l).isNone
  let byte (l : Nat) : Byte := match stale l with
    | some b => b.getD (l % 128) 0#8
    | none => seenByte s' me 0 (unitOf key home l) l
  let bad (l : Nat) : Bool := match copy l with
    | some x => if x.bytes.isSome then x.psn.contains (l / 32) else poisoned s l
    | none => poisoned s l
  ⟨locs.map byte, locs.any bad, lookPast s' me 0 key home, locs.filter fun l => (copy l).isSome,
    home.length = locs.length && readsNewest s' me 0 key home⟩

/-- Drops a core's L1 copies of the lines of some locations (12 R225, R249). -/
def dropL1 (mm : MemSys) (c : Nat) (locs : List Nat) : MemSys :=
  { mm with l1 := mm.l1.filter fun l => !(l.core = c && locs.any fun x => x / 128 == l.line) }

/-! ## Translation (10 R197 to R199) -/

/-- What an access does at a page: load, store or atomic, instruction fetch. -/
inductive Acc where
  | load | store | fetch
  deriving DecidableEq, Repr

/-- How a reeve record tells the kinds apart (10 R202). -/
def Acc.kind : Acc → Nat
  | .load => 0
  | .store => 1
  | .fetch => 2

/-- The levels of 10 Table 10.7: lowest index bit, index width, whether a leaf may stand there. -/
def xlatLevels : List (Nat × Nat × Bool) := [(48, 9, false), (39, 9, false), (30, 9, true), (21, 9, true), (16, 5, true)]

/-- Whether a valid entry at a level is malformed (10 R199). -/
def pteBad (sh : Nat) (leafOk : Bool) (e : Nat) : Bool :=
  let pa := bits e 8 44 * 256
  bits e 52 4 != 0 || bits e 0 8 != 0 || 2 ≤ bits e 58 2 ||
  (if bit e 62 then !leafOk || pa % 2 ^ sh != 0
   else sh == 16 || (sh != 21 && pa % 4096 != 0) || Config.localBytes < pa + (if sh == 21 then 256 else 4096))

/-- Whether a location lies in a window that is being disabled (10 R194). -/
def windowBusy (mm : MemSys) (loc : Nat) : Bool :=
  mm.windows.any fun (_, w) => w.busy && !w.en && w.base.toNat ≤ loc && loc < w.base.toNat + w.size.toNat

/-- No cause: an access that a channel which is not ready holds (01 R19). -/
def notReady : Nat := 0

/-- The walk from a table: the leaf's address, its page shift and the entry, or the cause. An entry is read at its home on
the path of the access: in a window that is being disabled it is held (R194), as is one on a channel that is not ready. DESIGN
CHOICE (log 115): an entry in a poisoned granule is used as it stands, and so is a level-4 table that the address-space entry
places outside local LPDDR. -/
def walkFrom (s : State) (a : Acc) (va : Nat) : List (Nat × Nat × Bool) → Nat → Except Nat (Nat × Nat × Nat)
  | [], _ => .error 0x33
  | (sh, w, leafOk) :: rest, base =>
    let at_ := base + 8 * bits va sh w
    let e := homeNat s.mm at_ 8
    if windowBusy s.mm at_ then .error 0x21
    else if channelWaits s.host at_ then .error notReady
    else if !bit e 63 then .error (if a = .fetch then 0x22 else 0x20)
    else if pteBad sh leafOk e then .error 0x33
    else if bit e 62 then .ok (at_, sh, e)
    else walkFrom s a va rest (bits e 8 44 * 256)

def walk (s : State) (asn : Nat) (a : Acc) (va : Nat) : Except Nat (Nat × Nat × Nat) :=
  let e := (tget 0#64 s.mm.asnTab asn).toNat
  if bit e 63 then walkFrom s a va xlatLevels (bits e 12 40 * 4096) else .error 0x33

/-- The rights of a translation against an access and a physical address: causes 0x31, 0x32, 0x35 in that order. -/
def permit (fab : Fabric) (a : Acc) (wr x : Bool) (p : Nat) : Option Nat :=
  if a = .store && !wr then some 0x31
  else if a = .fetch && (!x || Config.localBytes ≤ p) then some 0x32
  else if (locOf fab p).isNone then some 0x35
  else none

/-- A cached translation that serves an access (10 R199): one for a store must have seen `dty` set. -/
def tlbFind (mm : MemSys) (eng asn vpage : Nat) (a : Acc) : Option TlbEntry :=
  mm.tlb.find? fun e => e.who = eng && e.asn = asn && e.vpage = vpage && (a != .store || !e.wr || e.dty)

/-- Sets `acc`, and `dty` for a store, in a leaf by an atomic OR at its home (10 R199). -/
def setLeafBits (s : State) (at_ e : Nat) (a : Acc) : State :=
  let e' := e ||| 2 ^ 57 ||| (if a = .store then 2 ^ 56 else 0)
  if e' = e then s else writeLoc s deviceWriter at_ (natLe 8 e')

/-- Whether every byte of an access in one page is backed (10 R186, 26 R377). -/
def backed (fab : Fabric) (p n : Nat) : Bool := (List.range n).all fun i => (locOf fab (p + i)).isSome

/-- Translates the address of `n` bytes of one page for engine `eng` (a core, or 1,024 + die) in hamlet `ham`: the physical
address, whether it is uncached, and the state after the walk; or the cause of 10 Table 10.9. A walk for an access with an
unbacked byte sets no bit of the leaf. -/
def translate (s : State) (eng ham asn : Nat) (va : W64) (n : Nat) (a : Acc) : Except Nat (Nat × Bool × State) :=
  if !canonical va then .error 0x34
  else if apertureBase ≤ va.toNat ∧ va.toNat < apertureEnd then
    if a = .fetch then .error 0x32 else .ok (commonsAddr ham (va.toNat - apertureBase), true, s)
  else
    let v := va.toNat % 2 ^ 57
    match tlbFind s.mm eng asn (v / 65536) a with
    | some e =>
      let p := e.pbase + v % 65536
      match permit s.fab a e.wr e.x p with
      | some c => .error c
      | none => .ok (p, e.unc, s)
    | none =>
      match walk s asn a v with
      | .error c => .error c
      | .ok (at_, sh, e) =>
        let p := bits e 8 44 * 256 + v % 2 ^ sh
        match permit s.fab a (bit e 61) (bit e 60) p with
        | some c => .error c
        | none =>
          let t : TlbEntry := ⟨eng, asn, v / 65536, p - p % 65536, bit e 61, bit e 60, bits e 58 2 == 1, bit e 56 || a = .store⟩
          let keep := s.mm.tlb.filter fun x => !(x.who = eng && x.asn = asn && x.vpage = v / 65536)
          let s' := if backed s.fab p n then setLeafBits s at_ e a else s
          .ok (p, bits e 58 2 == 1, { s' with mm := { s'.mm with tlb := t :: keep } })

/-! ## Deciding an access (12 R222, 10 R201) -/

/-- The physical address that an access reaches, whatever its page permits; or the cause that its walk meets. -/
def physRes (s : State) (eng ham asn : Nat) (va : W64) : Except Nat Nat :=
  if !canonical va then .error 0x34
  else if apertureBase ≤ va.toNat ∧ va.toNat < apertureEnd then .ok (commonsAddr ham (va.toNat - apertureBase))
  else
    let v := va.toNat % 2 ^ 57
    match tlbFind s.mm eng asn (v / 65536) .load with
    | some e => .ok (e.pbase + v % 65536)
    | none =>
      match walk s asn .load v with
      | .ok (_, sh, e) => .ok (bits e 8 44 * 256 + v % 2 ^ sh)
      | .error c => .error c

def physOf (s : State) (eng ham asn : Nat) (va : W64) : Option Nat :=
  match physRes s eng ham asn va with
  | .ok p => some p
  | .error _ => none

/-- Places of the bytes of an access: those that never go through L1 (an uncached mapping, or the commons: 10 R185, R186,
12 R225), whether it reaches the peer aperture, and the bytes of this device's memory that it reaches through the fabric
(26 R377). -/
structure Places where
  locs : List Nat
  unc  : List Nat
  peer : Bool
  via  : List Nat
  deriving DecidableEq, Repr

/-- Whether the fabric answers an access with an error reply, one to this device's own memory among them (26 R377, R381). -/
def unreached (fab : Fabric) (p : Places) : Bool :=
  p.locs.any (fabricFails fab) || (!p.via.isEmpty && fab.down.contains fab.did)

/-- What is decided of an access before it is performed. `waits` is an access whose channel is not ready (01 R19). -/
inductive Decision where
  | ok (p : Places)
  | cls4 (cause : Nat) (addr : W64)
  | cls3 (cause : Nat) (addr : W64)
  | waits
  deriving DecidableEq, Repr

/-- The precedence of the causes (10 Table 10.9). -/
def causeRank (c : Nat) : Nat :=
  match c with
  | 0x34 => 0
  | 0x36 => 1
  | 0x33 => 2
  | 0x20 => 3
  | 0x22 => 4
  | 0x31 => 5
  | 0x32 => 6
  | 0x35 => 7
  | 0x38 => 8
  | 0x21 => 9
  | 0x37 => 10
  | _ => 11

def isCls3 (c : Nat) : Bool := 0x20 ≤ c && c ≤ 0x2F

/-- An access within one page: the places of its bytes, or the cause and the lowest byte that meets it. -/
def decidePiece (s : State) (eng ham asn : Nat) (va : W64) (n : Nat) (a : Acc) : Except (Nat × W64) Places × State :=
  match translate s eng ham asn va n a with
  | .error c => (.error (c, va), s)
  | .ok (p, unc, s') =>
    let locs := (List.range n).map fun i => locOf s.fab (p + i)
    match locs.findIdx? Option.isNone with
    | some i => (.error (0x35, va + BitVec.ofNat 64 i), s')
    | none =>
      let ls := locs.filterMap id
      match ls.findIdx? (windowBusy s.mm) with
      | some i => (.error (0x21, va + BitVec.ofNat 64 i), s')
      | none => (.ok ⟨ls, if unc then ls else ls.filter isCommonsLoc, isPeer p, if isPeer p then ls.filter (· < 2 ^ 52) else []⟩, s')

/-- The pieces of an access, one for each 64 KiB page; addresses wrap modulo 2^64. -/
def pagePieces (va : W64) (n : Nat) : List (W64 × Nat) :=
  let first := min n (65536 - va.toNat % 65536)
  if first < n then [(va, first), (va + BitVec.ofNat 64 first, n - first)] else [(va, first)]

/-- The best-ranked of some causes, the earlier where ranks are equal. -/
def firstCause : List (Nat × W64) → Option (Nat × W64)
  | [] => none
  | c :: r =>
    match firstCause r with
    | none => some c
    | some d => if causeRank d.1 < causeRank c.1 then some d else some c

/-- Decides an access of `n` bytes (at most 64 KiB), `align` its required alignment (1 for none): a class 4 condition in
any byte goes before a class 3 condition (12 R222). -/
def decideAccess (s : State) (eng ham asn : Nat) (va : W64) (n align : Nat) (a : Acc) : Decision × State :=
  let pcs := pagePieces va n
  if pcs.any fun (v, k) => !canonical v || !canonical (v + BitVec.ofNat 64 (k - 1)) then
    let bad := if canonical va then (pcs.find? fun (v, _) => !canonical v).map (·.1) |>.getD va else va
    (.cls4 0x34 bad, s)
  else if va.toNat % align ≠ 0 then (.cls4 0x36 va, s)
  else
    let step (acc : List (Except (Nat × W64) Places) × State) (pc : W64 × Nat) :=
      let (r, s') := decidePiece acc.2 eng ham asn pc.1 pc.2 a
      (acc.1 ++ [r], s')
    let (rs, s') := pcs.foldl step ([], s)
    let errs := rs.filterMap fun r => match r with
      | .error e => some e
      | .ok _ => none
    let oks := rs.filterMap fun r => match r with
      | .ok p => some p
      | .error _ => none
    match firstCause (errs.filter fun e => !isCls3 e.1 && e.1 != notReady) with
    | some (c, v) => (.cls4 c v, s')
    | none =>
      if errs.any fun e => e.1 = notReady then (.waits, s') else
      match firstCause errs with
      | some (c, v) => (.cls3 c v, s')
      | none =>
        let p : Places := ⟨(oks.map (·.locs)).flatten, (oks.map (·.unc)).flatten, oks.any (·.peer), (oks.map (·.via)).flatten⟩
        if p.locs.any (channelWaits s.host) then (.waits, s') else (.ok p, s')

/-! ## Fetch lines (04 R45 to R48) -/

/-- What comes of entering a line: its 64 bytes, a fault with its class and cause, or a channel that is not ready. -/
inductive LineRes where
  | ok (b : Bytes)
  | fault (cls cause : Nat)
  | waits
  deriving DecidableEq, Repr

def parcelAt (b : Bytes) (p : Nat) : W32 := f32 b (4 * p)
def lineWord (b : Bytes) : Nat := field b 60 4

/-- The parity of payload bits 60i to 60i + 59 (04 R46). -/
def parityBit (payload : Nat) (i : Nat) : Bool :=
  (List.range 60).foldl (fun x j => Bool.xor x (payload.testBit (60 * i + j))) false

def parityOk (b : Bytes) : Bool :=
  let payload := field b 0 60
  (List.range 8).all fun i => parityBit payload i == bit (lineWord b) (15 + i)

/-- The parcels that begin an instruction (04 R47), from parcel `p` on; none if a length is reserved or an instruction
would pass parcel 14. -/
def starts (b : Bytes) : Nat → Nat → Option (List Nat)
  | 0, p => if p = 15 then some [] else none
  | n + 1, p =>
    if p = 15 then some []
    else if 15 < p then none
    else
      match (parcelAt b p).toNat % 4 with
      | 3 => none
      | l => (starts b n (p + l + 1)).map (p :: ·)

def lineStarts (b : Bytes) : Option (List Nat) := starts b 15 0

/-- The `LINEFMT` conditions of 04 Table 4.2 that do not depend on the issue address. -/
def lineFormatOk (b : Bytes) : Bool :=
  match lineStarts b with
  | none => false
  | some st => bits (lineWord b) 28 4 == 0 && (List.range 15).all fun p => !bit (lineWord b) p || st.contains p

/-- Fills a line into a core's instruction cache. -/
def fillCode (s : State) (c line : Nat) : State :=
  let rest := s.mm.icache.filter fun l => !(l.core = c && l.line = line)
  let (kept, out) := roomIn (fun l : ILine => l.core = c) (Config.victim s.sch.free) rest
  { s with
    mm := { s.mm with icache := ⟨c, line, none, []⟩ :: kept }
    sch := if out then { s.sch with free := s.sch.free + 1 } else s.sch }

/-- The bytes of a line as core `c` holds or fills them (12 R250); a stale copy may still be there, by a free value
(log 7), and a copy that fails its check is fetched once more from its home (04 R48). -/
def lineBytes (s : State) (c loc : Nat) : Bytes × Bool × State :=
  let home := homeBytes s.mm loc 64
  let bad := poisoned s loc || poisoned s (loc + 32)
  let copy := s.mm.icache.find? fun l => l.core = c && l.line = loc / 64
  match copy.bind (·.bytes) with
  | some b =>
    let s1 := { s with sch := { s.sch with free := s.sch.free + 1 } }
    if Config.lineKept s.sch.free && (copy.all fun l => l.psn.isEmpty) && parityOk b then (b, false, s1)
    else (home, bad, fillCode s1 c (loc / 64))
  | none => (home, bad, if copy.isSome then s else fillCode s c (loc / 64))

/-- Enters the line that holds `pc`: translation, parity, format, in that order (04 R48). -/
def enterLine (s : State) (c asn : Nat) (pc : W64) : LineRes × State :=
  let base := pc &&& ~~~63#64
  match translate s c (c / 8) asn base 64 .fetch with
  | .error cause => (if cause = notReady then .waits else .fault (if isCls3 cause then 3 else 4) cause, s)
  | .ok (p, _, s1) =>
    if windowBusy s.mm p then (.fault 3 0x21, s1) else
    if channelWaits s.host p then (.waits, s1) else
    let (b, bad, s2) := lineBytes s1 c p
    if bad || !parityOk b then (.fault 2 0x06, s2)
    else if !lineFormatOk b then (.fault 2 0x07, s2)
    else (.ok b, s2)

/-- Whether an address names a parcel that begins an instruction of its line. -/
def beginsInstr (b : Bytes) (pc : W64) : Bool :=
  pc.toNat % 4 == 0 && (match lineStarts b with
    | some st => st.contains (pc.toNat % 64 / 4)
    | none => false)

/-- Whether an address is a permitted target (04 R62). -/
def markedTarget (b : Bytes) (pc : W64) : Bool :=
  pc.toNat % 4 == 0 && pc.toNat % 64 / 4 < 15 && bit (lineWord b) (pc.toNat % 64 / 4)

/-- The parcel after an instruction of `n` parcels at `pc`: line words are stepped over (04 R47). -/
def nextPc (pc : W64) (n : Nat) : W64 :=
  let p := pc + BitVec.ofNat 64 (4 * n)
  if p.toNat % 64 = 60 then p + 4#64 else p

end Sys2Proof.Machine
end

