-- ==== Sys2Proof/Machine/Reeve.lean ====
section
/-! DEFINITION. The timebase, fault records and notices, and the reeve queue of a die (09 R184, 10 R202, 13 R252, R253,
16 Table 16.6, 27 R387, R388). -/

namespace Sys2Proof.Machine

open Sys2Proof

/-- The 64-bit nanosecond timebase: an arithmetic cycle lasts 0.8 ns (01 R9, log 4). -/
def nowNs (s : State) : Nat := s.sch.cycle * 4 / 5

/-! ## Dies, hamlets, streams -/

def dieOf (s : State) (d : Nat) : Die := (tfind s.dies d).getD (Die.reset d)
def updDie (s : State) (d : Nat) (f : Die → Die) : State := { s with dies := tput s.dies d (f (dieOf s d)) }

def hamOf (s : State) (h : Nat) : Hamlet := (tfind s.hams h).getD Hamlet.reset
def updHam (s : State) (h : Nat) (f : Hamlet → Hamlet) : State := { s with hams := tput s.hams h (f (hamOf s h)) }

def streamOf (s : State) (n : Nat) : Stream := (tfind s.streams n).getD Stream.reset
def updStream (s : State) (n : Nat) (f : Stream → Stream) : State :=
  { s with streams := tput s.streams n (f (streamOf s n)) }

/-- A mailbox by its core and number (06 R101). -/
def boxOf (s : State) (core b : Nat) : Mailbox := (tfind s.boxes (16 * core + b)).getD Mailbox.reset
def updBox (s : State) (core b : Nat) (f : Mailbox → Mailbox) : State :=
  { s with boxes := tput s.boxes (16 * core + b) (f (boxOf s core b)) }

/-- The next free id of the model (log 3). -/
def freshId (s : State) : Nat × State := (s.sch.ids, { s with sch := { s.sch with ids := s.sch.ids + 1 } })

/-! ## Records -/

/-- The `who` word of 09 Table 9.8. -/
def whoWord (core grp stage hwarp : Nat) : W32 := BitVec.ofNat 32 (core + grp * 2 ^ 10 + stage * 2 ^ 14 + hwarp * 2 ^ 16)

/-- The fields of a fault record (09 Table 9.8). -/
structure FRec where
  cls   : Nat
  cause : Nat
  prec  : Bool
  fwd   : Bool
  rpl   : Bool
  lanes : W32
  who   : W32
  tag   : Nat
  pc    : W64
  addr  : W64
  info  : W64
  hlp   : Option (W32 × Nat)
  deriving DecidableEq, Repr

/-- A record's 64 bytes. -/
def FRec.bytes (r : FRec) (now : Nat) : Bytes :=
  natLe 4 (r.cls + r.cause * 2 ^ 8 + r.prec.toNat * 2 ^ 16 + r.hlp.isSome.toNat * 2 ^ 17 + r.fwd.toNat * 2 ^ 18 +
    r.rpl.toNat * 2 ^ 19) ++
  le32 r.lanes ++ le32 r.who ++ natLe 4 r.tag ++ le64 r.pc ++ le64 r.addr ++ le64 r.info ++
  (match r.hlp with
    | some (w, t) => le32 w ++ natLe 4 t
    | none => zeros 8) ++
  natLe 8 now ++ zeros 8

/-- A notice laid out as 16 Table 16.6, `rpl` 1: its code, `addr` and `info`. -/
def noticeBytes (code : Nat) (addr : W64) (info : Nat) (now : Nat) : Bytes :=
  natLe 4 (0xA0 + code * 2 ^ 8 + 2 ^ 19) ++ zeros 20 ++ le64 addr ++ natLe 8 info ++ zeros 8 ++
  natLe 8 now ++ zeros 8

/-! ## The queue -/

/-- The location of a slot of a die's queue. -/
def slotLoc (d : Die) (slot : Nat) : Nat := d.rqbase.toNat + 64 * slot

/-- Whether a record must wait: the queue of a die is full (27 R387, R388), or the access to its next slot is held, by a
channel that is not ready (01 R19) or by a window that is being disabled (10 R194; log 85). -/
def queueFull (s : State) (die : Nat) : Bool :=
  let d := dieOf s die
  let at_ := slotLoc d (d.rqprod.toNat % 1024)
  !d.rqset || 1024 ≤ (d.rqprod - d.rqcons).toNat || (tfind d.recs (d.rqprod.toNat % 1024)).isSome ||
    channelWaits s.host at_ || windowBusy s.mm at_

/-- Whether a new record must wait: no slot takes it, or earlier records still wait. -/
def queueTaken (s : State) (die : Nat) : Bool := queueFull s die || !(dieOf s die).waiting.isEmpty

/-- Writes a record at the next slot, which stays unresolved when it stands for something open. -/
def putRecord (s : State) (die : Nat) (b : Bytes) (o : Option OpenRec) : Nat × State :=
  let d := dieOf s die
  let slot := d.rqprod.toNat % 1024
  let s1 := writeLoc s deviceWriter (slotLoc d slot) b
  (slot, updDie s1 die fun d => { d with
    rqprod := d.rqprod + 1
    recs := match o with
      | some r => tput d.recs slot r
      | none => d.recs })

/-- A resolved record, written now or as soon as a slot frees (10 R202). -/
def postRecord (s : State) (die : Nat) (b : Bytes) : State :=
  if queueTaken s die then updDie s die fun d => { d with waiting := d.waiting ++ [⟨b⟩] }
  else (putRecord s die b none).2

/-- A notice that stays unresolved: the slot it takes, or none while the queue is full (16 R278). -/
def postNotice (s : State) (die : Nat) (b : Bytes) (o : OpenRec) : RecRef × State :=
  if queueTaken s die then (none, s) else
  let (slot, s') := putRecord s die b (some o)
  (some (die, slot), s')

/-- Records that wait are written while there is room (27 R388). -/
def flushRecords (die : Nat) : Nat → State → State
  | 0, s => s
  | n + 1, s =>
    match (dieOf s die).waiting with
    | [] => s
    | w :: rest =>
      if queueFull s die then s
      else flushRecords die n (putRecord (updDie s die fun d => { d with waiting := rest }) die w.bytes none).2

/-- The page of an access, as records name it. -/
def pageOf (va : W64) : Nat := va.toNat / 65536

/-- `info` of a class 3 record (10 R202, 12 R230). -/
def cls3Info (asn kind : Nat) (nw : Bool) : W64 :=
  BitVec.ofNat 64 (1 + asn * 2 ^ 16 + (if kind = 1 then 2 ^ 28 else 0) + (if kind = 2 then 2 ^ 29 else 0) +
    nw.toNat * 2 ^ 30)

/-- A class 3 condition: joins the unresolved record of the same address space, page and kind, or writes one
(10 R202, 13 R252). The answer names the record; none while the queue is full. -/
def class3 (s : State) (die asn kind : Nat) (nw : Bool) (hw : Option (Nat × Nat × Nat)) (r : FRec) : RecRef × State :=
  let d := dieOf s die
  let page := pageOf r.addr
  match d.recs.find? fun (_, o) => o.notice.isNone && o.asn = asn && o.page = page && o.kind = kind && o.nw = nw with
  | some (slot, o) =>
    let at_ := slotLoc d slot
    let n := homeNat s.mm (at_ + 32) 2
    let s1 := writeLoc s deviceWriter (at_ + 32) (natLe 2 (min 0xFFFF (n + 1)))
    let s2 := if hw.isSome && o.hw = hw then
        writeLoc s1 deviceWriter (at_ + 4) (natLe 4 (homeNat s1.mm (at_ + 4) 4 ||| r.lanes.toNat))
      else s1
    (some (die, slot), s2)
  | none =>
    if queueTaken s die then (none, s) else
    let rec3 : FRec := { r with cls := 3, rpl := true, info := cls3Info asn kind nw }
    let (slot, s') := putRecord s die (rec3.bytes (nowNs s)) (some ⟨asn, page, kind, nw, r.addr, hw, none⟩)
    (some (die, slot), s')


end Sys2Proof.Machine
end

