-- ==== Sys2Proof/Machine/Groups.lean ====
section
/-! DEFINITION. Groups, threads and warps: lookups, register values and tags, forming and merging warps, resources of a
core (03 R24 to R34, 06). -/

namespace Sys2Proof.Machine

open Sys2Proof

/-! ## Lookups and updates -/

def groupOf (s : State) (g : Gid) : Option Group := s.groups.find? fun x => x.gid = g
def updGroup (s : State) (g : Gid) (f : Group → Group) : State :=
  { s with groups := modAll (fun x => x.gid = g) f s.groups }

def gangOf (s : State) (tag : Nat) : Option Gang := s.gangs.find? fun x => x.tag = tag
def updGang (s : State) (tag : Nat) (f : Gang → Gang) : State :=
  { s with gangs := modAll (fun x => x.tag = tag) f s.gangs }

def gangGroups (s : State) (tag : Nat) : List Group := s.groups.filter fun g => g.gid.tag = tag

def updThread (s : State) (g : Gid) (tid : Nat) (f : Thread → Thread) : State :=
  updGroup s g fun x => { x with threads := modAll (fun t => t.tid = tid) f x.threads }

def threadOf (s : State) (g : Gid) (tid : Nat) : Option Thread :=
  (groupOf s g).bind fun x => x.threads.find? fun t => t.tid = tid

/-- The core a group stands on, or the one that it left. -/
def coreOf (g : Group) : Nat :=
  match g.place with
  | .core c => c
  | _ => g.lastCore

def onCore (g : Group) : Bool :=
  match g.place with
  | .core _ => true
  | _ => false

/-- Groups that hold resources of a core. -/
def residents (s : State) (c : Nat) : List Group := s.groups.filter fun g => g.place = .core c

/-- The writer that a group's accesses name (10 R204). -/
def groupWho (g : Group) (tid : Nat) : W32 := whoWord (coreOf g) g.gid.grp g.stage (tid / 32)
def groupWriter (g : Group) (tid : Nat) : Writer :=
  { core := some (coreOf g), rec_ := some (g.gid.tag, groupWho g tid), src := some (0, .thread g.gid tid) }

/-- A thread as a reader and a releaser (11 R207). -/
def threadWho (g : Group) (tid : Nat) : Who :=
  ⟨.thread g.gid tid, threadAgents g.gid tid,
    ⟨0, coreOf g / 128, some g.gid, ((g.warps.find? fun w => w.slots.contains (some tid)).map (·.num)).getD 0⟩⟩

/-! ## Thread states -/

def Thread.live (t : Thread) : Bool := t.wait != .exited

/-- Held at its meeting address (03 R31). -/
def Thread.held (t : Thread) : Bool := t.wait == .run && t.meet != 0#64 && t.pc == t.meet

/-- Runnable (03 R30). -/
def Thread.runnable (t : Thread) : Bool := t.wait == .run && !t.held

/-- The fault hold, the stop by `PDONE` and the other waiting states together: anything but runnable and exited. -/
def Thread.waits (t : Thread) : Bool := t.live && !t.runnable

def Thread.reg (t : Thread) (r : Nat) : W32 := tget 0#32 t.regs r
/-- Writes a register; an error that it holds goes with the old value (27 R400). -/
def Thread.setReg (t : Thread) (r : Nat) (v : W32) : Thread :=
  { t with regs := tset 0#32 t.regs r v, rbad := t.rbad.filter (· != r) }

/-- Mask `k0` reads as one (06 R99). -/
def Thread.mask (t : Thread) (n : Nat) : Bool := n == 0 || t.k.getLsbD n

/-- Writes a mask bit; `k0` discards it (04 R58). -/
def Thread.setMask (t : Thread) (n : Nat) (b : Bool) : Thread :=
  if n = 0 then t else { t with k := if b then t.k ||| (1#8 <<< n) else t.k &&& ~~~(1#8 <<< n) }

/-- A thread at the start of its group (03 Table 3.2, 09 Table 9.2). -/
def newThread (tid : Nat) (start : W64) (cover : Nat) : Thread where
  tid := tid
  pc := start
  meet := 0#64
  regs := []
  k := 0#8
  stack := []
  wait := .run
  fflag := 0#4
  hnd := false
  pre := false
  dph := none
  xcause := 0#32
  xpc := 0#64
  xaddr := 0#64
  xinfo := 0#64
  xscr := 0#64
  xlanes := 0#32
  xfpc := 0#64
  xtime := 0
  latches := []
  cover := cover
  owes := false
  wnext := 0#64
  evb := none
  rbad := []

/-! ## Warps -/

def homeWarps (nthr : Nat) : Nat := (nthr + 31) / 32

def Warp.tids (w : Warp) : List Nat := w.slots.filterMap id

def Warp.tag (w : Warp) (r : Nat) : Tag := tget Tag.uni w.tags r

def tableOfTags (n : Nat) (f : Nat → Tag) : Table Tag := (List.range n).foldl (fun t r => tset Tag.uni t r (f r)) []

/-- Registers tagged `gen` (06 R90). -/
def Warp.gens (w : Warp) : Nat := (w.tags.filter fun (_, t) => t == .gen).length

def warpOfThread (g : Group) (tid : Nat) : Option Warp := g.warps.find? fun w => w.tids.contains tid

/-- The tag that a formed warp takes for a register: the tag of every contributing warp where they agree, with the same
value for `uni` and the same base and stride for `aff`; else `gen` (06 R95). A register of `owed` is one that a reply is still to
write: the values that its tag speaks of are not there yet; it keeps the tag of a single contributing warp, and where several
contribute it becomes `gen` (log 86). -/
def mergeTag (g : Group) (owed : List Nat) (from_ : List Warp) (tids : List Nat) (r : Nat) : Tag :=
  match from_ with
  | [] => .uni
  | w :: rest =>
    let t := w.tag r
    if owed.contains r then (if rest.isEmpty then t else .gen) else
    if rest.all fun x => x.tag r == t then
      match t with
      | .uni =>
        match (g.threads.filter fun x => tids.contains x.tid).map fun x => x.reg r with
        | [] => .uni
        | v :: vs => if vs.all (· == v) then .uni else .gen
      | t => t
    else .gen

/-- The slots of a home warp for some of its threads: slot equal to logical lane (03 R32, 06 Table 6.8). -/
def homeSlots (tids : List Nat) (hw : Nat) : List (Option Nat) :=
  (List.range 32).map fun l => if tids.contains (32 * hw + l) then some (32 * hw + l) else none

def emptyLatches (tids : List Nat) (ts : List Thread) : List Thread :=
  modAll (fun t => tids.contains t.tid) (fun t => { t with latches := [] }) ts

/-- A warp as it is formed; its first G `gen` registers hold a row (06 R92). -/
def newWarp (num : Nat) (slots : List (Option Nat)) (tags : Table Tag) (rows : List Nat) (origin : Origin) : Warp where
  num := num
  slots := slots
  tags := tags
  rows := rows
  fcnt := 0
  holder := []
  moved := []
  origin := origin
  first := false
  held := none

/-- The registers of a table of tags that are `gen`, in ascending order. -/
def genRegs (tags : Table Tag) : List Nat := (tags.filter fun (_, t) => t == .gen).map (·.1)

/-- Numbers of physical warps in use on a core. -/
def usedNums (s : State) (c : Nat) : List Nat := ((residents s c).map fun g => g.warps.map (·.num)).flatten

/-- The number that a warp takes as it is formed: the lowest free one. DESIGN CHOICE (log 87): the manual names none, and
since a re-formation always takes place (06 R95), the search goes beyond 63 where all 64 are in use. -/
def freeNum (used : List Nat) : Nat := ((List.range (used.length + 1)).find? fun n => !used.contains n).getD used.length

/-- Takes threads out of the warps that hold them; warps left empty are freed (03 R32). -/
def takeOut (tids : List Nat) (ws : List Warp) : List Warp :=
  (ws.map fun w => { w with slots := w.slots.map fun x => x.filter fun t => !tids.contains t }).filter fun w =>
    !w.tids.isEmpty

/-- Re-forms threads of a group by home warp, each at the slot of its logical lane, with latches emptied in every warp
that is taken from or formed (03 R32, R34, 06 R95). `used` are the warp numbers in use on the core, and `owed` the registers
that replies are still to write. -/
def reform (g : Group) (used owed : List Nat) (origin : Origin) (tids : List Nat) : Group :=
  let src := g.warps.filter fun w => w.tids.any (tids.contains ·)
  let touched := (src.map (·.tids)).flatten
  let left := takeOut tids g.warps
  let step (acc : List Warp × List Nat) (hw : Nat) : List Warp × List Nat :=
    let mine := tids.filter fun t => t / 32 = hw
    let contrib := src.filter fun w => w.tids.any (mine.contains ·)
    let num := freeNum acc.2
    let tags := tableOfTags g.n (mergeTag g owed contrib mine)
    (acc.1 ++ [newWarp num (homeSlots mine hw) tags ((genRegs tags).take g.g) origin], num :: acc.2)
  let keepNums := used.filter fun n => !(g.warps.any fun w => w.num = n) || left.any fun w => w.num = n
  let (made, _) := (distinct (tids.map (· / 32))).foldl step ([], keepNums)
  { g with warps := left ++ made, threads := emptyLatches touched g.threads }

/-- Every live thread of a group in warps by home warp (06 Table 6.8: resumption; also the form that a save takes). -/
def reformAll (g : Group) (used owed : List Nat) : Group :=
  reform g used owed .resumption ((g.threads.filter Thread.live).map (·.tid))

/-! ## Resources of a core (06 R91, R95) -/

def warpCost (n g : Nat) : Nat := 8 * n + 128 * g

/-- Home warps of a group that still hold a live thread. -/
def liveHomes (g : Group) : Nat := (distinct ((g.threads.filter Thread.live).map fun t => t.tid / 32)).length

/-- Fresh warps of compactions. -/
def freshWarps (g : Group) : Nat := (g.warps.filter fun w => w.origin == .compaction).length

/-- The warps that a group holds: a reservation for each home warp with a live thread, the fresh warps, and those that a
helper below an owner keeps reserved (21 R321). -/
def groupWarps (g : Group) : Nat := liveHomes g + freshWarps g + g.spare

/-- The helper below an owner that has not stopped. -/
def below (s : State) (g : Group) : Option Group := (if g.place == .done then none else g.helper).bind (groupOf s)

/-- What a chain of adoption holds: the greatest need of its groups, since what a helper frees stays reserved for its owner
(21 R321). -/
def chainNeed (s : State) (need : Group → Nat) : Nat → Group → Nat
  | 0, g => need g
  | n + 1, g => max (need g) (match below s g with
    | some h => chainNeed s need n h
    | none => 0)

/-- Whether a group parked for an adoption has no owner above it any more. -/
def orphan (s : State) (g : Group) : Bool :=
  g.place == .below && !(s.groups.any fun x => x.helper == some g.gid && (onCore x || x.place == .below))

/-- What the groups of a core hold of a resource. -/
def heldOn (s : State) (c : Nat) (need : Group → Nat) : Nat :=
  ((s.groups.filter fun g => g.place = .core c || (orphan s g && g.lastCore = c)).map (chainNeed s need 5)).sum

/-! ### What roles need -/

def Role.groups (r : Role) : Nat := bits r.dim.toNat 28 4 + 1
def Role.threads (r : Role) : Nat := bits r.dim.toNat 16 11
def Role.n (r : Role) : Nat := bits r.bud.toNat 0 9
def Role.g (r : Role) : Nat := bits r.bud.toNat 16 9

/-- The groups of a template in group order: role number, index within the role, role. -/
def groupList (t : Template) : List (Nat × Nat × Role) :=
  (t.roles.zipIdx.map fun (r, k) => (List.range r.groups).map fun i => (k, i, r)).flatten

/-- Warp slots and storage that a role's group reserves (06 R91). -/
def needWarps (r : Role) : Nat := homeWarps r.threads
def needBytes (r : Role) : Nat := homeWarps r.threads * warpCost r.n r.g

/-- What a placement has reserved on a core beside what a helper below its owner keeps (21 R321). -/
def placedNeed (s : State) (c : Nat) (role : Role → Nat) (need : Group → Nat) (p : Placement) : Nat :=
  ((((groupList p.launch.tmpl).zip p.cores).filter fun x => x.2 = c).map fun x => role x.1.2.2).sum -
    (match p.owner.bind fun o => groupOf s o.1 with
      | some h => chainNeed s need 5 h
      | none => 0)

/-- What the commits that have begun and wait have reserved on a core (17 R299, R418). -/
def reservedOn (s : State) (c : Nat) (role : Role → Nat) (need : Group → Nat) : Nat :=
  (s.dies.map fun (_, d) => ((d.placed.filter fun p => p.begun || p.owner.isSome).map
    (placedNeed s c role need)).sum).sum

/-- The storage that a group's warps take. -/
def groupBytes (g : Group) : Nat := groupWarps g * warpCost g.n g.g

/-- Free warp slots and free storage of a core. -/
def freeSlots (s : State) (c : Nat) : Nat := Config.warpSlots - heldOn s c groupWarps - reservedOn s c needWarps groupWarps
def freeStorage (s : State) (c : Nat) : Nat :=
  Config.regFileBytes - heldOn s c groupBytes - reservedOn s c needBytes groupBytes

/-- Whether a group with `w` warps and a budget fits a core beside what it holds (17 R298). -/
def fitsCore (s : State) (c w n g : Nat) : Bool := w ≤ freeSlots s c && w * warpCost n g ≤ freeStorage s c

/-! ## What reads acquire (11 R209) -/

/-- What a read by some threads acquires, where it has missed nothing (R209). -/
def acquired (s : State) (g : Group) (scope : Nat) (newest : Bool) (locs tids : List Nat) : State :=
  if !newest then s else
  { s with mm := tids.foldl (fun m t => acquire m (threadWho g t) scope locs) s.mm }

/-- A wait that its home has answered: its scope and the bytes that were read. -/
def Wait.answered : Wait → Option (Nat × List Nat)
  | .monitor m => m.hit.map fun _ => (m.scope, (List.range (tyBits m.ty / 8)).map (m.loc + ·))
  | .future f => f.hit.map fun _ => (f.scope, (List.range 16).map (f.loc + ·))
  | _ => none

/-- The threads whose waits a write has answered acquire what it releases (R209, 12 R236, R242). -/
def acquireAnswered (before s : State) : State :=
  if s.mm.past.isEmpty then s else
  s.groups.foldl (fun s g => g.threads.foldl (fun s t =>
    match t.wait.answered with
    | some (scope, locs) =>
      if (threadOf before g.gid t.tid).any fun x => x.wait.answered.isNone then acquired s g scope true locs [t.tid] else s
    | none => s) s) s

/-! ## Covering, marks of progress -/

/-- A covering event of some threads of a group (11 R212). -/
def coverThreads (s : State) (g : Gid) (tids : List Nat) : State :=
  let s1 := { s with mm := coverPast (coverNow s.mm) g tids }
  updGroup s1 g fun x => { x with
    threads := modAll (fun t => tids.contains t.tid) (fun t => { t with cover := s1.mm.stamp }) x.threads }

/-- The helper at depth 0 of the chain below a group that runs as an adopted owner (18 R315). -/
def helperRoot (s : State) : Nat → Group → Option Group
  | 0, _ => none
  | n + 1, g =>
    match below s g with
    | none => none
    | some x => match helperRoot s n x with
      | some r => some r
      | none => some x

def helperOf (s : State) (g : Group) : Option Group := helperRoot s 5 g

/-- The gangs whose progress a mark of this group counts for: its own and those of the helpers in its chain (18 R315). -/
def markGangs (s : State) : Nat → Group → List Nat
  | 0, g => [g.gid.tag]
  | n + 1, g =>
    g.gid.tag :: (match below s g with
      | some h => markGangs s n h
      | none => [])

/-- A progress mark: a thread exit, a meeting release or a barrier completion (03 R40). -/
def progress (s : State) (g : Group) : State :=
  { s with gangs := modAll (fun x => (markGangs s 5 g).contains x.tag) (fun x => { x with mark := nowNs s }) s.gangs }

end Sys2Proof.Machine
end

