-- ==== Sys2Proof/Machine/Save.lean ====
section
/-! DEFINITION. The save area of a group: its layout (09 R180, R181, Tables 9.5 to 9.7), the image that a save writes, and
the device's own accesses to it (R416). -/

namespace Sys2Proof.Machine

open Sys2Proof

def roundUp (n m : Nat) : Nat := (n + m - 1) / m * m

/-- Offsets of 09 R180 for `t` threads and save budget `ns`. -/
def saOblk (t : Nat) : Nat := 0x100 + 608 * t
def saOrow (t ns : Nat) : Nat := roundUp (saOblk t + homeWarps t * (64 + 8 * ns)) 128
def saOrasm (t ns : Nat) : Nat := saOrow t ns + 128 * homeWarps t * ns

/-- Offset of the warp block of home warp `w`, of a compact entry, and of a row (09 R181). -/
def saWarp (g : Group) (w : Nat) : Nat := saOblk g.nthr + w * (64 + 8 * g.ns)
def saEntry (g : Group) (w r : Nat) : Nat := saWarp g w + 64 + 8 * r
def saRow (g : Group) (w r : Nat) : Nat := saOrow g.nthr g.ns + (w * g.ns + r) * 128

/-! ## The device's accesses to the area -/

/-- What an access to the area meets: the locations of its pieces of 4 KiB, of which no stripe is a part (26 R377), each by
its number; a class 3 condition; or another one. -/
inductive AreaRes where
  | ok (pages : List (Nat × Nat)) (s : State)
  | cls3 (cause : Nat) (addr : W64) (s : State)
  | cls4 (cause : Nat) (addr : W64) (s : State)
  | waits (s : State)

/-- The engine on whose path the device reaches the area of a group. -/
def areaEngine (g : Group) : Nat := 1024 + coreOf g / 128

/-- The 4 KiB pieces of an access to the bytes from `va` on: the number of each, and the location of its first byte less what
lies before the access. -/
def piecesOf (va : W64) (locs : List Nat) : List (Nat × Nat) :=
  (locs.zipIdx.filter fun (_, i) => i == 0 || (va.toNat + i) % 4096 == 0).map fun (l, i) =>
    ((va.toNat + i) / 4096, l - (va.toNat + i) % 4096)

/-- Translates the pages of bytes `off` to `off + n - 1` of the area, one after the other, on the path of an engine. An error
reply to the device's own access ends it; one to a thread's access is raised later (12 R223). -/
def areaPages (eng : Nat) (g : Group) (a : Acc) : Nat → Nat → Nat → List (Nat × Nat) → State → AreaRes
  | 0, _, _, acc, s => .ok acc s
  | fuel + 1, off, n, acc, s =>
    if n = 0 then .ok acc s else
    let va := g.xsave + BitVec.ofNat 64 off
    let k := min n (65536 - va.toNat % 65536)
    match decideAccess s eng (coreOf g / 8) g.asn va k 1 a with
    | (.ok p, s') =>
      if 1024 ≤ eng && unreached s'.fab p then .cls4 0x35 va s' else
      areaPages eng g a fuel (off + k) (n - k) (piecesOf va p.locs ++ acc) s'
    | (.cls3 cause addr, s') => .cls3 cause addr s'
    | (.cls4 cause addr, s') => .cls4 cause addr s'
    | (.waits, s') => .waits s'

/-- The location of an offset of the area. -/
def areaLoc (g : Group) (pages : List (Nat × Nat)) (o : Nat) : Option Nat :=
  let va := (g.xsave + BitVec.ofNat 64 o).toNat
  (pages.lookup (va / 4096)).map (· + va % 4096)

/-- Writes to the area, given by offset; `core` names the L1 that a thread's own accesses go through, and `src` their maker. -/
def areaWriteBy (s : State) (g : Group) (core : Option Nat) (src : Option (Nat × Agent)) (pages : List (Nat × Nat))
    (ws : List (Nat × Byte)) : State :=
  applyWrite s { core := core, rec_ := some (g.gid.tag, groupWho g 0), src := src } (ws.filterMap fun (o, b) => (areaLoc g pages o).map fun l => (l, b))

def areaWrite (s : State) (g : Group) (pages : List (Nat × Nat)) (ws : List (Nat × Byte)) : State :=
  areaWriteBy s g none none pages ws

/-- Bytes of the area at their homes. -/
def areaBytes (s : State) (g : Group) (pages : List (Nat × Nat)) (o n : Nat) : Bytes :=
  (List.range n).map fun i => ((areaLoc g pages (o + i)).map (homeByte s.mm)).getD 0#8

/-- A group that is stopped: no thread of it issues again, its warps are dropped, and its registers, masks and latches
discarded (14 R255). An adopted owner keeps its helper until its record says that it has failed (18 R316). -/
def stopGroup (g : Group) : Group :=
  { g with
    lastCore := coreOf g
    place := .done
    warps := []
    saveHold := none
    puts := []
    saving := none
    present := []
    chosen := none
    helpq := none
    spare := 0
    threads := g.threads.map fun t => { t with wait := .exited, latches := [], regs := [], rbad := [], k := 0#8, owes := false } }

/-- The pending replies and errors of a gang are dropped (14 R255). -/
def dropReplies (s : State) (tag : Nat) : State :=
  { s with reqs := s.reqs.filter fun r => r.gid.tag != tag, errs := s.errs.filter fun r => r.gid.tag != tag }

/-- Stops every group of a gang without a save. -/
def stopGang (s : State) (tag cause : Nat) : State :=
  let stop (g : Group) : Group := { stopGroup g with pend := 0 }
  updGang (dropReplies { s with groups := modAll (fun g => g.gid.tag = tag) stop s.groups } tag) tag fun x =>
    { x with fail := some (x.fail.getD cause), stopped := true }

/-- `hwho` and `hgang` of a helper. -/
def hlpWord (h : Group) : W32 × Nat := (whoWord (coreOf h) h.gid.grp h.stage 0, h.gid.tag)

/-- `hwho` and `hgang` of a record for an adopted owner: the helper at depth 0 of its chain (18 R315). -/
def hlpOf (s : State) (g : Group) : Option (W32 × Nat) := (helperOf s g).map hlpWord

/-- The same for an owner that is still to be placed on a helper's core. -/
def hlpBelow (s : State) (owner : Option (Gid × Nat)) : Option (W32 × Nat) :=
  (owner.bind fun o => groupOf s o.1).map fun h => hlpWord ((helperOf s h).getD h)

/-- The same for group 0 of a gang. -/
def hlpGang (s : State) (tag : Nat) : Option (W32 × Nat) := (groupOf s ⟨tag, 0⟩).bind (hlpOf s)

/-- A record of a group's own save area names the group and, for an adopted owner, the helper (09 R416, 18 R315). -/
def areaRec (s : State) (g : Group) (cls cause : Nat) (addr : W64) : FRec where
  cls := cls
  cause := cause
  prec := cls = 3
  fwd := false
  rpl := cls = 3
  lanes := 0#32
  who := groupWho g 0
  tag := g.gid.tag
  pc := 0#64
  addr := addr
  info := 0#64
  hlp := hlpOf s g

/-- A class 3 condition of a device access to the area writes or joins a record (R416). -/
def areaRecord (s : State) (g : Group) (cause : Nat) (addr : W64) (store : Bool) : RecRef × State :=
  class3 s (coreOf g / 128) g.asn (if store then 1 else 0) false none (areaRec s g 3 cause addr)

/-- A save area that cannot be reached ends the context: one record of class 4, and the gang stops without a save
(R416). -/
def areaEnds (s : State) (g : Group) (cause : Nat) (addr : W64) : State :=
  stopGang (postRecord s (coreOf g / 128) ((areaRec s g 4 cause addr).bytes (nowNs s))) g.gid.tag cause

/-- A device access to a group's area is held until the reeve's retry, or until the channel is ready. -/
def holdArea (s : State) (gid : Gid) (ref : RecRef) (addr : W64) : State :=
  updGroup s gid fun x => { x with saveHold := some (ref, addr) }

/-- What becomes of an access to the area that is not performed now: a class 3 condition holds it under a record, an
unready channel holds it without one, another condition ends the context (R416). -/
def areaMeets (s : State) (g : Group) (store : Bool) : AreaRes → State
  | .ok _ _ => s
  | .cls3 cause addr s' =>
    let (ref, s1) := areaRecord s' g cause addr store
    holdArea s1 g.gid ref addr
  | .waits s' => holdArea s' g.gid none 0#64
  | .cls4 cause addr s' => areaEnds s' g cause addr

/-- A write of a few bytes of the area. While it is held it stands in the group's `puts`, before every later one. -/
def areaPut (s : State) (g : Group) (off : Nat) (b : Bytes) : State :=
  let later (s : State) : State := updGroup s g.gid fun x => { x with puts := x.puts ++ [(off, b)] }
  if (groupOf s g.gid).any fun x => !x.puts.isEmpty then later s else
  match areaPages (areaEngine g) g .store 3 off b.length [] s with
  | .ok pages s' => areaWrite s' g pages (writesAt off b)
  | .cls4 cause addr s' => areaEnds s' g cause addr
  | r => later (areaMeets s g true r)

/-- The writes that are held are made again, in their order. -/
def flushPuts (s : State) (gid : Gid) : State :=
  match groupOf s gid with
  | none => s
  | some g =>
    g.puts.foldl (fun s (off, b) => match groupOf s gid with
      | some g => areaPut s g off b
      | none => s) (updGroup s gid fun x => { x with puts := [], saveHold := none })

/-! ## The image -/

def budgetWord (n g : Nat) : Nat := n + g * 2 ^ 16
def schedWord (g : Group) : Nat := g.fair + g.cthr * 2 ^ 20
def gdimWord (ngrp : Nat) (g : Group) : Nat := (ngrp - 1) * 2 ^ 28 + g.nthr * 2 ^ 16 + g.width

def slotWord : Slot → Nat
  | .idle => 0
  | .pending _ => 1
  | .set => 2
  | .failed w _ => 3 + bits w.toNat 0 8 * 2 ^ 8

/-- The pending growth request of a group: its budget word (09 Table 9.5). -/
def growReq (g : Group) : Option Nat :=
  g.threads.findSome? fun t => match t.wait with
    | .grow n q _ _ => some (budgetWord n q)
    | _ => none

/-- The header of 09 Table 9.5. -/
def headerBytes (s : State) (g : Group) (full : Bool) : Bytes :=
  let e := g.derr.getD (0#64, 0#32, 0#32)
  natLe 4 (1 + full.toNat * 2 + g.derr.isSome.toNat * 4 + (growReq g).isSome.toNat * 8) ++ natLe 4 g.pend ++
  natLe 4 (budgetWord g.n g.g) ++ natLe 4 (gdimWord (gangGroups s g.gid.tag).length g) ++ natLe 4 (schedWord g) ++
  natLe 4 g.gid.tag ++ natLe 4 (coreOf g + g.gid.grp * 2 ^ 10 + g.stage * 2 ^ 14) ++ natLe 4 ((growReq g).getD 0) ++
  ((List.range 16).map fun i => natLe 4 (slotWord (g.slots.getD i .idle))).flatten ++ natLe 8 (nowNs s) ++
  le64 e.1 ++ le32 e.2.1 ++ le32 e.2.2 ++ natLe 8 (saOblk g.nthr) ++ natLe 8 (saOrow g.nthr g.ns) ++
  natLe 8 (saOrasm g.nthr g.ns) ++ zeros 112

/-- The state code of 09 Table 9.7. DESIGN CHOICE (log 89): the table has no code for the slot state and the growth state,
and the model writes 0. -/
def waitCode (t : Thread) : Nat :=
  match t.wait with
  | .run => if t.held then 1 else 0
  | .barrier _ _ => 2
  | .monitor _ | .ring _ _ => 3
  | .future _ => 4
  | .mailbox _ => 5
  | .exited => 6
  | .pdone => 7
  | _ => 0

/-- The wait operand of 09 Table 9.6; a barrier scope is its code of 04 Table 4.10 (17 R306). -/
def waitOperand (t : Thread) : Nat :=
  match t.wait with
  | .barrier .group _ => 2
  | .barrier _ _ => 3
  | .monitor m => m.va.toNat
  | .ring _ va => va.toNat
  | .future f => f.va.toNat
  | .mailbox m => m.box % 16
  | _ => 0

def csBytes (e : CsEntry) : Bytes := le64 ((e.addr &&& ~~~3#64) ||| (if e.meet then 1#64 else 0#64)) ++ le64 e.smeet

/-- A thread control block (09 Table 9.6). The stack's bottom is its first entry. -/
def tcbBytes (t : Thread) : Bytes :=
  let sw := t.k.toNat / 2 + t.fflag.toNat * 2 ^ 8 + waitCode t * 2 ^ 12 + t.stack.length * 2 ^ 16 +
    t.hnd.toNat * 2 ^ 22 + t.pre.toNat * 2 ^ 23 + t.dph.isSome.toNat * 2 ^ 24
  let b := le64 t.pc ++ le64 t.meet ++ natLe 8 sw ++ natLe 8 (waitOperand t) ++ le64 t.xpc ++ le64 t.xaddr ++
    le64 t.xinfo ++ le64 t.xscr ++ le32 t.xcause ++ zeros 28 ++ (t.stack.map csBytes).flatten
  b ++ zeros (608 - b.length)

/-- A home warp's tag and values of a register, in a group whose warps are formed by home warp. -/
def homeTag (g : Group) (w r : Nat) : Tag :=
  match g.warps.find? fun x => x.tids.any fun t => t / 32 = w with
  | some x => x.tag r
  | none => .uni

def laneVal (g : Group) (w r l : Nat) : W32 :=
  match g.threads.find? fun t => t.tid = 32 * w + l && t.live with
  | some t => t.reg r
  | none => 0#32

def uniVal (g : Group) (w r : Nat) : W32 :=
  match g.threads.find? fun t => t.tid / 32 = w && t.live with
  | some t => t.reg r
  | none => 0#32

def tagCode : Tag → Nat
  | .uni => 0
  | .aff _ _ => 1
  | .gen => 2

def compactBytes (g : Group) (w r : Nat) : Bytes :=
  match homeTag g w r with
  | .uni => le32 (uniVal g w r) ++ zeros 4
  | .aff b st => le32 b ++ le32 st
  | .gen => zeros 8

def rowBytes (g : Group) (w r : Nat) : Bytes := ((List.range 32).map fun l => le32 (laneVal g w r l)).flatten

/-- The two tag bits of a register in the byte that holds them. -/
def withTag (old : Byte) (r code : Nat) : Byte :=
  let sh := 2 * (r % 4)
  (old &&& ~~~(3#8 <<< sh)) ||| (BitVec.ofNat 8 code <<< sh)

/-- The tag code and the compact entry of a register: those at or above N are zero (09 R181). -/
def savedCode (g : Group) (w r : Nat) : Nat := if r < g.n then tagCode (homeTag g w r) else 0
def savedEntry (g : Group) (w r : Nat) : Bytes := if r < g.n then compactBytes g w r else zeros 8

/-- The tag bytes of a home warp with the tags of some registers written and every other tag kept. -/
def tagWrites (g : Group) (w : Nat) (regs : List Nat) (old : Nat → Byte) : List (Nat × Byte) :=
  (distinct (regs.map (· / 4))).map fun q =>
    (saWarp g w + q, (regs.filter fun r => r / 4 = q).foldl (fun b r => withTag b r (savedCode g w r)) (old q))

/-- The compact entries of some registers of a home warp, and the rows of `gen` registers. -/
def entryWrites (g : Group) (w : Nat) (regs : List Nat) : List (Nat × Byte) :=
  (regs.map fun r => writesAt (saEntry g w r) (savedEntry g w r) ++
    (if savedCode g w r = 2 then writesAt (saRow g w r) (rowBytes g w r) else [])).flatten

/-- The writes of some registers of a home warp: tags, compact entries, and rows of `gen` registers. -/
def regWrites (g : Group) (w : Nat) (regs : List Nat) (old : Nat → Byte) : List (Nat × Byte) :=
  tagWrites g w regs old ++ entryWrites g w regs

/-- The lanes of a reply that its packet 0 (`p` false) or packet 1 carries (26 R374). -/
def packetLanes (r : Req) (p : Bool) : List ReqLane := r.lanes.filter fun l => decide (16 ≤ l.tid % 32) == p

/-- The lanes of a message of two packets whose packet has arrived: `arr` has bit p for packet p. -/
def arrivedLanes (r : Req) (arr : Nat) : List ReqLane :=
  (if arr.testBit 0 then packetLanes r false else []) ++ (if arr.testBit 1 then packetLanes r true else [])

/-- The descriptor of a reassembly buffer (26 Table 26.3). -/
def rasmDesc (r : Req) (arr : Nat) (valid : Bool) : Nat :=
  let tids := r.lanes.map (·.tid)
  valid.toNat + ((arrivedLanes r arr).findSome? (·.err)).getD 0 * 2 ^ 8 + arr * 2 ^ 16 + (tids.headD 0) / 32 * 2 ^ 19 +
    r.dst * 2 ^ 24 + (laneMask tids).toNat * 2 ^ 32

/-- The bytes of a reassembly buffer at `o`: its descriptor, and the values of the packets that have arrived (26
Table 26.2). -/
def rasmBuffer (o b : Nat) (r : Req) (arr : Nat) (valid : Bool) : List (Nat × Byte) :=
  writesAt (o + 0x40 + 8 * b) (natLe 8 (rasmDesc r arr valid)) ++
  ((arrivedLanes r arr).map fun l => writesAt (o + 0x80 + 256 * b + 8 * (l.tid % 32)) (le64 l.val)).flatten

/-- The reassembly region: the buffers whose message has not arrived whole; a buffer that holds none has a descriptor of 0
(26 R375, log 105). -/
def rasmWrites (s : State) (g : Group) : List (Nat × Byte) :=
  let held := s.reqs.filter fun r => r.gid = g.gid && r.buf.isSome
  let o := saOrasm g.nthr g.ns
  writesAt o (natLe 4 held.length) ++
  ((List.range 8).map fun b => match held.find? fun r => r.buf = some b with
    | some r => rasmBuffer o b r r.arr true
    | none => writesAt (o + 0x40 + 8 * b) (zeros 8)).flatten

/-- A save's writes: the header, every control block, the registers that `keep` names for each home warp, and the tags and
entries at or above N, the tags up to register 255 (09 R177, R179, R181). -/
def saveWrites (s : State) (g : Group) (full : Bool) (keep : Nat → Nat → Bool) (old : Nat → Nat → Byte) :
    List (Nat × Byte) :=
  writesAt 0 (headerBytes s g full) ++
  (g.threads.map fun t => writesAt (0x100 + 608 * t.tid) (tcbBytes t)).flatten ++
  ((List.range (homeWarps g.nthr)).map fun w =>
    let regs := (List.range g.ns).filter fun r => g.n ≤ r || full || keep w r
    tagWrites g w (regs ++ (List.range 256).filter (g.ns ≤ ·)) (old w) ++ entryWrites g w regs).flatten ++ rasmWrites s g

/-- Bytes of a save area, the reassembly region included (26 R375). -/
def saBytes (g : Group) : Nat := saOrasm g.nthr g.ns + 2176

/-- Writes the image of a group whose warps are formed by home warp. -/
def saveImage (s : State) (g : Group) (full : Bool) (keep : Nat → Nat → Bool) : AreaRes :=
  match areaPages (areaEngine g) g .store (saBytes g / 65536 + 2) 0 (saBytes g) [] s with
  | .ok pages s' =>
    let old (w q : Nat) : Byte := ((areaLoc g pages (saWarp g w + q)).map (homeByte s'.mm)).getD 0#8
    .ok pages (areaWrite s' g pages (saveWrites s' g full keep old))
  | r => r

/-- A deposit: a lane's value written into the row of the destination, whose tag is `gen` (09 R182). -/
def depositRow (s : State) (g : Group) (tid r : Nat) (v : W32) : State :=
  areaPut s g (saRow g (tid / 32) r + 4 * (tid % 32)) (le32 v)

/-- The deposit count in the header (09 Table 9.5). -/
def putPend (s : State) (g : Group) : State := areaPut s g 4 (natLe 4 g.pend)

/-! ## The group as a save takes it -/

/-- A thread as a save takes it: a fault hold is saved as not yet executed (10 R202), latches are empty. -/
def parkThread (t : Thread) : Thread :=
  { t with
    latches := []
    wait := match t.wait with
      | .fault _ _ _ _ _ => .run
      | w => w }

/-- Registers that a register range list keeps; none is every register (09 R175). -/
def kept (k : Option (List (Nat × Nat))) (r : Nat) : Bool :=
  match k with
  | none => true
  | some l => l.any fun (v, n) => v ≤ r && r < v + n

/-- The destination registers of the replies that are owed to a group's home warp, or that its waits will give
(09 R177, R182). -/
def owedRegs (s : State) (g : Group) (hw : Nat) : List Nat :=
  ((s.reqs.filter fun r => r.gid = g.gid && r.toReg && r.lanes.any fun l => l.tid / 32 = hw).map fun r =>
    if r.wide then [r.dst, r.dst + 1] else [r.dst]).flatten ++
  ((g.threads.filter fun t => t.tid / 32 = hw).map fun t => match t.wait with
    | .monitor m => if m.toReg then (if tyWide m.ty then [m.dst, m.dst + 1] else [m.dst]) else []
    | .future f => if f.toReg then (if f.wide then [f.dst, f.dst + 1] else [f.dst]) else []
    | .mailbox m => if m.toReg then [m.dst] else []
    | _ => []).flatten

/-- The tags of a home warp at a save: registers that are still to be written are `gen`. -/
def owedTags (s : State) (g : Group) (w : Warp) : Warp :=
  let regs := (owedRegs s g ((w.tids.headD 0) / 32)).filter (· < g.n)
  { w with tags := regs.foldl (fun t r => tset Tag.uni t r .gen) w.tags }

/-- Whether the next packet of a reply leaves it incomplete: the first packet of a message of two (26 R374). -/
def Req.more (r : Req) : Bool := r.buf.isSome && r.arr == 0

/-- Reply packets that a request still owes (26 R375). -/
def packetsOf (r : Req) : Nat := if r.more then 2 else 1

/-- Deposits that a save leaves outstanding: reply packets owed, and pending slots (09 R182). -/
def pendOf (s : State) (g : Group) : Nat :=
  ((s.reqs.filter fun r => r.gid = g.gid && !r.store).map packetsOf).sum +
  (g.slots.filter fun x => match x with
    | .pending (.task _) | .pending (.ctxload _ _) => true
    | _ => false).length

/-- The failed deposit of a save. DESIGN CHOICE (log 88): the manual speaks of error replies that are still owed; an error
that has arrived and that no thread has taken becomes the failed deposit too (09 R183, 12 R223), and further ones are
dropped. -/
def derrAtSave (s : State) (g : Group) : Option (W64 × W32 × W32) :=
  match s.errs.filter fun e => e.gid = g.gid with
  | [] => none
  | e :: rest => some (e.addr,
      laneMask ((e :: rest.filter fun x => x.id = e.id && x.tid / 32 = e.tid / 32).map (·.tid)),
      BitVec.ofNat 32 (e.cause + e.tid / 32 * 2 ^ 8 + e.info.toNat % 256 * 2 ^ 16))

/-- A slot as a save keeps it: of a failed one, the cause code alone (22 R336). -/
def keptSlot : Slot → Slot
  | .failed w _ => .failed (BitVec.ofNat 64 (bits w.toNat 0 8)) 0#64
  | x => x

/-- The group as it is saved: warps by home warp, the deposits counted. -/
def saveForm (s : State) (g : Group) (full : Bool) : Group :=
  let g1 := reformAll { g with threads := g.threads.map parkThread } [] []
  { g1 with warps := g1.warps.map (owedTags s g1), pend := pendOf s g, derr := derrAtSave s g, full := full
            slots := g1.slots.map keptSlot }

/-! ## Overflow rows (06 R92) -/

/-- The `gen` registers of a warp that hold no row of the register file. -/
def Warp.over (w : Warp) : List Nat := (genRegs w.tags).filter fun r => !w.rows.contains r

/-- The rows of a warp: those that it has, and, while its quota allows, rows for further `gen` registers. -/
def settleWarp (quota : Nat) (w : Warp) : Warp :=
  let gens := genRegs w.tags
  let keep := (w.rows.filter (gens.contains ·)).take quota
  { w with rows := keep ++ (gens.filter fun r => !keep.contains r).take (quota - keep.length) }

/-- The words of a group's overflow rows: thread, register and value. -/
def overWords (g : Group) : List (Nat × Nat × W32) :=
  (g.warps.map fun w => (w.over.map fun r =>
    (g.threads.filter fun t => w.tids.contains t.tid).map fun t => (t.tid, r, t.reg r)).flatten).flatten

/-- The location of a thread's word of an overflow row; none where its page does not translate. -/
def overLoc (s : State) (g : Group) (tid r : Nat) : Option Nat :=
  (physOf s (areaEngine g) (coreOf g / 8) g.asn (g.xsave + BitVec.ofNat 64 (saRow g (tid / 32) r + 4 * (tid % 32)))).bind
    (locOf s.fab)

/-- A word of an overflow row: written where its value is new (09 R416), and, where another agent has written it, taking
that value or keeping its own, by a free value (06 R92, log 90). `s0` is the state before the step, and `was` the words of
the rows then. -/
def settleWord (s0 : State) (was : List (Nat × Nat × W32)) (gid : Gid) (s : State) (x : Nat × Nat × W32) : State :=
  match groupOf s gid with
  | none => s
  | some g =>
    let (tid, r, v) := x
    if !onCore g then s
    else if !was.contains x then areaPut s g (saRow g (tid / 32) r + 4 * (tid % 32)) (le32 v)
    else match overLoc s g tid r with
      | none => s
      | some l =>
        if homeNat s.mm l 4 = homeNat s0.mm l 4 || homeNat s.mm l 4 = v.toNat then s
        else
          let s1 := { s with sch := { s.sch with free := s.sch.free + 1 } }
          if Config.rowTaken s.sch.free then
            updThread s1 gid tid fun t => t.setReg r (BitVec.ofNat 32 (homeNat s.mm l 4))
          else s1

/-- What reading some registers of a warp meets where they overflow: the rows' words are read in the save area before the
instruction that needs them, poison ends the context, and a held access keeps the group from issuing (09 R416). The answer
is whether the instruction goes on. -/
def readOver (s : State) (gid : Gid) (w : Warp) : List Nat → Bool × State
  | [] => (true, s)
  | r :: rest =>
    match groupOf s gid with
    | none => (false, s)
    | some g =>
      let hws := distinct (w.tids.map (· / 32))
      let tidsOf (h : Nat) : List Nat := w.tids.filter fun t => t / 32 = h
      let one (acc : Bool × State) (h : Nat) : Bool × State :=
        if !acc.1 then acc else
        match areaPages (areaEngine g) g .load 3 (saRow g h r) 128 [] acc.2 with
        | .ok pages s' =>
          let offs := (tidsOf h).map fun t => saRow g h r + 4 * (t % 32)
          (match offs.find? fun o => (areaLoc g pages o).any (poisoned s') with
            | some o => (false, areaEnds s' g 0x37 (g.xsave + BitVec.ofNat 64 o))
            | none => (true, s'))
        | m => (false, areaMeets acc.2 g false m)
      let (ok, s1) := hws.foldl one (true, s)
      if ok then readOver s1 gid w rest else (false, s1)

/-- The overflow rows of the groups on the cores after a step from `s0`. -/
def settleRows (s0 s : State) : State :=
  let s1 := { s with groups := s.groups.map fun g => if onCore g then { g with warps := g.warps.map (settleWarp g.g) } else g }
  (s1.groups.filter onCore).foldl (fun acc g =>
    (overWords g).foldl (settleWord s0 (((groupOf s0 g.gid).map overWords).getD []) g.gid) acc) s1

end Sys2Proof.Machine
end

