-- ==== Sys2Proof/Machine/Ops.lean ====
section
/-! DEFINITION. The shared operations of a core instruction: the issuing context and its guard, moving on, taking an
exception and returning from one, forwarding, failing a gang, holding on a class 3 condition, checking a target. -/

namespace Sys2Proof.Machine

open Sys2Proof

/-! ## The issuing context -/

/-- What an instruction acts on: its group and warp, its issuing set and its active threads in ascending `tid`. -/
structure Ctx where
  cur  : Cur
  grp  : Group
  warp : Warp
  set  : List Thread
  act  : List Thread
  deriving DecidableEq, Repr

/-- Whether a thread's guard holds (04 Table 4.6). A guard whose `en` is 0 and whose other bits are not zero is illegal;
the whole issuing set is then charged (log 9). -/
def guardHolds (g : BitVec 5) (t : Thread) : Bool :=
  !g.getLsbD 4 || (t.mask (g.toNat % 8) != g.getLsbD 3)

def ctxOf (s : State) (g : BitVec 5) : Option Ctx :=
  match s.sch.cur with
  | none => none
  | some cur =>
    match groupOf s cur.gid with
    | none => none
    | some grp =>
      match grp.warps.find? (fun w => w.num = cur.warp) with
      | none => none
      | some w =>
        let set := grp.threads.filter fun t => cur.set.contains t.tid
        some ⟨cur, grp, w, set, set.filter (guardHolds g)⟩

def Ctx.core (c : Ctx) : Nat := coreOf c.grp
def Ctx.die (c : Ctx) : Nat := c.core / 128
def Ctx.ham (c : Ctx) : Nat := c.core / 8
def Ctx.setTids (c : Ctx) : List Nat := c.set.map (·.tid)
def Ctx.actTids (c : Ctx) : List Nat := c.act.map (·.tid)

/-- A write is full when its active threads are every thread of the warp that has not exited (06 R94). -/
def Ctx.full (c : Ctx) : Bool := c.warp.tids.all fun t => c.actTids.contains t

/-- Changes the context's group. -/
def Ctx.upd (c : Ctx) (s : State) (f : Group → Group) : State := updGroup s c.cur.gid f

/-- Changes the threads of a group whose index is listed. -/
def modThreads (tids : List Nat) (f : Thread → Thread) (g : Group) : Group :=
  { g with threads := modAll (fun t => tids.contains t.tid) f g.threads }

/-- The latches of a thread after an instruction with a result (06 R96). -/
def pushLatch (l : Option Latch) (t : Thread) : Thread := { t with latches := (l :: t.latches).take 8 }

/-- Moves threads to the next address in sequence. -/
def Ctx.advance (c : Ctx) (s : State) (tids : List Nat) : State :=
  c.upd s (modThreads tids fun t => { t with pc := c.cur.next })

/-- An instruction that no thread is active for: the set moves on, and the latches advance with an empty `b1` where the
opcode has a result (04 R63). -/
def Ctx.skip (c : Ctx) (s : State) (res : Bool) : State :=
  c.upd s (modThreads c.setTids fun t =>
    { (if res then pushLatch none t else t) with pc := c.cur.next })

/-- An instruction without a result: `f` acts on the active threads, and the whole set moves on. -/
def Ctx.done (c : Ctx) (s : State) (f : Thread → Thread) : State :=
  c.upd s fun g => modThreads c.setTids (fun t => { t with pc := c.cur.next }) (modThreads c.actTids f g)

/-! ## Gangs that fail (09 R170, R173, 17 R300) -/

/-- Saves and stops groups of a gang that fails, one after the other; a class 3 condition holds a group's save, another
condition abandons those that are left (09 R179, R416). The replies that are owed become deposits (R182). -/
def saveAll : List Gid → State → State
  | [], s => s
  | gid :: rest, s =>
    match groupOf s gid with
    | none => saveAll rest s
    | some g =>
      if !onCore g then saveAll rest (updGroup s gid stopGroup) else
      let g1 := saveForm s g true
      match saveImage s g1 true fun _ _ => true with
      | .ok _ s' =>
        saveAll rest (updGroup { s' with errs := s'.errs.filter fun e => e.gid != gid } gid fun _ =>
          { stopGroup g1 with lastCore := coreOf g })
      | .cls4 cause addr s' => areaEnds s' g cause addr
      | r => saveAll rest (areaMeets s g true r)

/-- The gang fails: every group is stopped, saved fully, and the gang is to complete with failure (09 R173) once the
replies that are owed have been deposited. -/
def failGang (s : State) (tag cause : Nat) : State :=
  let s1 := updGang s tag fun x => { x with fail := some (x.fail.getD cause), stopped := true }
  saveAll ((gangGroups s tag).map (·.gid)) s1

/-! ## Taking an exception (09 R165 to R170, R184) -/

/-- One charged thread: its trap, the faulting instruction, the resumption address, `xaddr` and `xinfo`. -/
structure Charge where
  tid   : Nat
  cls   : Nat
  cause : Nat
  prec  : Bool
  pc    : W64
  xpc   : W64
  addr  : W64
  info  : W64
  deriving DecidableEq, Repr

/-- `xcause` (09 Table 9.3). -/
def xcauseWord (cls cause : Nat) (prec hlp : Bool) : W32 :=
  BitVec.ofNat 32 (cls + cause * 2 ^ 8 + prec.toNat * 2 ^ 16 + hlp.toNat * 2 ^ 17)

/-- The charged lanes of the home warp of a thread (09 R184). -/
def chargedLanes (cs : List Charge) (tid : Nat) : W32 :=
  laneMask ((cs.filter fun x => x.tid / 32 = tid / 32).map (·.tid))

/-- The record of a charge, for its home warp. -/
def chargeRecord (s : State) (g : Group) (cs : List Charge) (x : Charge) (fwd : Bool) : FRec where
  cls := x.cls
  cause := x.cause
  prec := x.prec
  fwd := fwd
  rpl := false
  lanes := chargedLanes cs x.tid
  who := groupWho g x.tid
  tag := g.gid.tag
  pc := x.pc
  addr := x.addr
  info := x.info
  hlp := hlpOf s g

/-- One charge for each home warp, in ascending home warp: the one of its lowest thread. -/
def perHome (cs : List Charge) : List Charge :=
  cs.filter fun x => cs.all fun y => y.tid / 32 ≠ x.tid / 32 || x.tid ≤ y.tid

/-- Hands traps to the reeve: one record for each home warp, then the gang fails (09 R168, R173, R184). -/
def forwardTraps (s : State) (g : Group) (cs : List Charge) : State :=
  let s1 := (perHome cs).foldl (fun s x => postRecord s (coreOf g / 128) ((chargeRecord s g cs x true).bytes (nowNs s))) s
  failGang s1 g.gid.tag ((cs.head?.map (·.cause)).getD 0)

/-- The lowest charged thread of a trap. -/
def lowestCharge (first : Charge) (cs : List Charge) : Charge := cs.foldl (fun m x => if x.tid < m.tid then x else m) first

/-- A double trap, named by its lowest charged thread (09 R170, R184). -/
def doubleTrap (s : State) (g : Group) (cs : List Charge) (x : Charge) : State :=
  let r : FRec := { chargeRecord s g cs x false with
    cls := 10, cause := 0x72, info := BitVec.ofNat 64 (x.cls + x.cause * 2 ^ 8) }
  let s1 := failGang s g.gid.tag 0x72
  postRecord s1 (coreOf g / 128) (r.bytes (nowNs s))

/-- A thread as it enters the handler (09 R167); a precise trap ends an `EVBAR` that it was performing. By class 8 it comes to owe an answer (R177), and a held entry is no
longer pending. -/
def enterThread (xhand : W64) (hlp : Bool) (now : Nat) (lanes : W32) (x : Charge) (t : Thread) : Thread :=
  { t with
    xcause := xcauseWord x.cls x.cause x.prec hlp
    xaddr := x.addr
    xinfo := x.info
    xpc := x.xpc
    xlanes := lanes
    xfpc := x.pc
    xtime := now
    latches := []
    hnd := true
    pre := t.pre && x.cls != 8
    dph := if x.cls = 6 then none else t.dph
    evb := if x.prec then none else t.evb
    owes := t.owes || x.cls = 8
    pc := xhand }

/-- Every charged thread of a group enters the handler; no other thread changes. -/
def enterGroup (cs : List Charge) (now : Nat) (g : Group) : Group :=
  let enter (t : Thread) : Thread :=
    match cs.find? (fun x => x.tid = t.tid) with
    | some x => enterThread g.xhand g.helper.isSome now (chargedLanes cs t.tid) x t
    | none => t
  { g with threads := g.threads.map enter }

/-- A thread whose entry for class 6 or 8 cannot be made yet keeps it pending (R176, R183): it is entered before the thread
issues again (log 91). -/
def awaitEntry (cs : List Charge) (g : Group) : Group :=
  { g with threads := g.threads.map fun t =>
      match cs.find? (fun x => x.tid = t.tid) with
      | some x =>
        if x.cls = 8 then { t with pre := true }
        else if x.cls = 6 && !x.prec then { t with dph := some (x.addr, x.info.toNat) }
        else t
      | none => t }

/-- What a taken transfer finds at its target (04 R62). -/
inductive TargetRes where
  | ok
  | fault (cls cause : Nat)
  | waits
  deriving DecidableEq, Repr

/-- Checks the target line of a transfer: `mark` where the `tgt` bit is required, else the start of an instruction. -/
def checkTarget (s : State) (g : Group) (pc : W64) (mark : Bool) : TargetRes × State :=
  match enterLine s (coreOf g) g.asn pc with
  | (.fault cls cause, s') => (.fault cls cause, s')
  | (.waits, s') => (.waits, s')
  | (.ok b, s') =>
    if (if mark then markedTarget b pc else beginsInstr b pc) then (.ok, s') else (.fault 1 0x05, s')

/-- Holds threads on a class 3 condition (10 R202, 13 R252): one record for each home warp and page. -/
def holdOne (s : State) (gid : Gid) (asn tid page kind : Nat) (addr : W64) (ref : RecRef) : State :=
  updGroup s gid (modThreads [tid] fun t => { t with wait := .fault asn page kind addr ref })

/-- A thread that meets a class 3 condition: its index, the cause and the lowest faulting byte. -/
structure Held3 where
  tid   : Nat
  cause : Nat
  addr  : W64
  deriving DecidableEq, Repr

/-- The accesses of 13 R252 among some held threads: one for each home warp and page. -/
def heldParts (hs : List Held3) : List (List Held3) :=
  (distinct (hs.map fun h => (h.tid / 32, pageOf h.addr))).map fun k =>
    hs.filter fun h => h.tid / 32 = k.1 && pageOf h.addr = k.2

/-- Writes or joins the records of some held threads; the answer names the record of each thread. -/
def record3 (s : State) (g : Group) (pc : W64) (kind : Nat) (nw : Bool) (hs : List Held3) :
    List (Nat × RecRef) × State :=
  (heldParts hs).foldl (fun acc part =>
    match part with
    | [] => acc
    | h :: rest =>
      let low := rest.foldl (fun m x => if x.addr.toNat < m.toNat then x.addr else m) h.addr
      let r : FRec :=
        { cls := 3, cause := h.cause, prec := true, fwd := false, rpl := true,
          lanes := laneMask (part.map (·.tid)), who := groupWho g h.tid, tag := g.gid.tag, pc := pc, addr := low,
          info := 0#64, hlp := hlpOf acc.2 g }
      let (ref, s') := class3 acc.2 (coreOf g / 128) g.asn kind nw (some (g.gid.tag, g.gid.grp, h.tid / 32)) r
      (acc.1 ++ part.map fun x => (x.tid, ref), s')) ([], s)

/-- Holds threads at the instruction that they stand at (12 R222). -/
def hold3 (s : State) (g : Group) (pc : W64) (kind : Nat) (hs : List Held3) : State :=
  let (refs, s1) := record3 s g pc kind false hs
  refs.foldl (fun s (tid, ref) =>
    holdOne s g.gid g.asn tid (((hs.find? fun h => h.tid = tid).map fun h => pageOf h.addr).getD 0) kind
      (((hs.find? fun h => h.tid = tid).map fun h => h.addr).getD 0#64) ref) s1

/-- TAKING AN EXCEPTION, for every class that goes to the handler (09 R167, R168, R170). The threads of the charges must
belong to one trap. -/
def takeTrap (s : State) (gid : Gid) (cs : List Charge) : State :=
  match groupOf s gid, cs with
  | none, _ | _, [] => s
  | some g, first :: _ =>
    if !onCore g then s else
    let inHandler (x : Charge) : Bool := g.threads.any fun t => t.tid = x.tid && t.hnd
    if cs.any inHandler then doubleTrap s g cs (lowestCharge first cs)
    else
      if g.xhand = 0#64 then forwardTraps s g cs else
      match checkTarget s g g.xhand true with
      | (.waits, s') => updGroup s' gid (awaitEntry cs)
      | (.fault 3 cause, s') =>
        hold3 (updGroup s' gid (awaitEntry cs)) g first.pc 2 (cs.map fun x => ⟨x.tid, cause, g.xhand &&& ~~~63#64⟩)
      | (.fault _ _, s') => forwardTraps s' g cs
      | (.ok, s') =>
        updGroup s' gid (enterGroup cs (nowNs s))

/-- Whether a trap of some threads has been taken: they are in the handler, or their gang has stopped. -/
def trapTaken (s : State) (gid : Gid) (tids : List Nat) : Bool :=
  (gangOf s gid.tag).any (·.stopped) ||
    (groupOf s gid).any fun g => g.threads.any fun t => tids.contains t.tid && t.hnd

/-- A precise trap of some threads at the instruction that issues. -/
def Ctx.trap (c : Ctx) (s : State) (cls cause : Nat) (who : List (Nat × W64 × W64)) : State :=
  takeTrap s c.cur.gid (who.map fun (t, addr, info) => ⟨t, cls, cause, true, c.cur.pc, c.cur.pc, addr, info⟩)

/-- The trap of every active thread (04 R64). -/
def Ctx.trapAct (c : Ctx) (s : State) (cause : Nat) : State :=
  c.trap s 1 cause (c.actTids.map fun t => (t, 0#64, 0#64))

/-- `ILLOP`, `ILLOPND`, `STKOVF`, `STKUNF`, `BTV` (09 Table 9.1). -/
def cILLOP : Nat := 0x01
def cILLOPND : Nat := 0x02
def cSTKOVF : Nat := 0x03
def cSTKUNF : Nat := 0x04
def cBTV : Nat := 0x05

/-- A mill error, raised as class 5 (22 R336, R338). -/
def Ctx.trapMill (c : Ctx) (s : State) (cause : Nat) (tids : List Nat) (addr info : W64) : State :=
  c.trap s 5 cause (tids.map fun t => (t, addr, info))

/-- The context without some threads, which stay at the instruction. -/
def Ctx.without (c : Ctx) (stay : List Nat) : Ctx :=
  { c with
    set := c.set.filter fun t => !stay.contains t.tid
    act := c.act.filter fun t => !stay.contains t.tid }

/-- Transfers of the active threads to their targets, each checked (04 R62): a class 3 condition at a target line holds
its threads; another fault charges the threads that would have transferred, and no thread transfers; else `go` acts.
`first` is the order in which failing targets count: the lowest `tid`. -/
def Ctx.transfer (c : Ctx) (s : State) (mark : Bool) (target : Thread → W64) (go : State → State) : State :=
  let targets := distinct (c.act.map target)
  let (rs, s') := targets.foldl (fun (acc : List (W64 × TargetRes) × State) pc =>
    let (r, s1) := checkTarget acc.2 c.grp pc mark
    (acc.1 ++ [(pc, r)], s1)) ([], s)
  let resOf (t : Thread) : TargetRes := (rs.lookup (target t)).getD .ok
  let bad := c.act.filter fun t => match resOf t with
    | .fault cls _ => cls != 3
    | _ => false
  match bad with
  | t :: _ =>
    match resOf t with
    | .fault cls cause =>
      -- the first failing target in ascending `tid` is the one recorded (07 R126)
      c.trap s' cls cause (bad.map fun x => (x.tid, target t, 0#64))
    | _ => s'
  | [] =>
    let held := c.act.filterMap fun t => match resOf t with
      | .fault _ cause => some (⟨t.tid, cause, target t &&& ~~~63#64⟩ : Held3)
      | _ => none
    if !held.isEmpty then hold3 s' c.grp c.cur.pc 2 held
    else if c.act.any fun t => resOf t = .waits then s'
    else go s'

end Sys2Proof.Machine
end

