-- ==== Sys2Proof/Machine/Park.lean ====
section
/-! DEFINITION. Parking a group into its save area and the writes of its ownership record (03 R36, 09 R177 to R179, R182,
R416, 18 R309, 21 R322). -/

namespace Sys2Proof.Machine

open Sys2Proof

/-! ## The group's ownership record (18 R309, 21 R322) -/

/-- The 16 bytes of a record with `ostate` changed, and `ocause` in state 7. -/
def recordState (b : Bytes) (st : Nat) (cause : Nat) : Bytes :=
  let w := field b 4 4
  let w1 := w - w % 16 + st
  overlay b 4 (natLe 4 (if st = 7 then bits w1 0 24 + cause * 2 ^ 24 else w1))

/-- The bytes that a write of a record leaves, from those that it finds. -/
def RecOp.apply (b : Bytes) : RecOp → Bytes
  | .whole x => x
  | .state st cause => recordState b st cause

/-- Makes a device write of a record, on the group's `CORE` path and as a release at `dev`: dropped with a notice on a fault or an error reply (18 R309, 26 R381), and kept for
later while its channel is not ready (01 R19) or while an earlier write of the record waits. -/
def tryRecWrite (s : State) (w : RecWrite) : State :=
  let drop (s : State) : State := postRecord s (w.core / 128) (noticeBytes 4 w.va 0 (nowNs s))
  match decideAccess s w.core (w.core / 8) w.asn w.va 16 16 .store with
  | (.waits, s') => { s' with recWr := s'.recWr ++ [w] }
  | (.ok p, s') =>
    if unreached s'.fab p then drop s'
    else
      let s1 := applyWrite s' { core := none, rec_ := some (w.gid.tag, w.who), src := some (0, .group w.gid) }
        (p.locs.zip (w.op.apply (p.locs.map (homeByte s'.mm))))
      let rel : Rel := ⟨5, ⟨0, w.core / 128, some w.gid, 0⟩, false⟩
      acquireAnswered s' { s1 with mm := learnTo s1.mm (·.priorGroups [w.gid]) (.word p.locs rel) noCarry }
  | (_, s') => drop s'

def writeRecord (s : State) (w : RecWrite) : State :=
  if s.recWr.any fun x => x.va = w.va && x.asn = w.asn then { s with recWr := s.recWr ++ [w] } else tryRecWrite s w

/-- The writes that wait are tried again. -/
def flushRecords18 (s : State) : State := s.recWr.foldl writeRecord { s with recWr := [] }

/-- Writes the state of a group's record, if it is bound to one (18 Table 18.3). -/
def ownState (s : State) (g : Group) (st cause : Nat) : State :=
  match g.record with
  | none => s
  | some (va, asn) => writeRecord s ⟨coreOf g, g.gid, groupWho g 0, va, asn, .state st cause⟩

/-- The binding ends. -/
def unbindRecord (s : State) (gid : Gid) : State := updGroup s gid fun g => { g with record := none }

/-! ## Parking -/

/-- Warp slots or storage have been freed on a die: every `blk` of it clears (17 R297). -/
def unblock (s : State) (die : Nat) : State :=
  if (dieOf s die).queues.any fun (_, q) => q.blk then
    updDie s die fun d => { d with queues := d.queues.map fun (k, q) => (k, { q with blk := false }) }
  else s

/-- Clears the `blk`s of a die where room has been freed on a core. -/
def unblockFreed (before after : State) (core : Nat) : State :=
  if freeSlots before core < freeSlots after core || freeStorage before core < freeStorage after core then
    unblock after (core / 128)
  else after

/-- What a group that resumes finds of registers that the save left out: 0, tagged `uni` (09 R179). -/
def forgetRegs (s : State) (g : Group) : Group :=
  let keep (hw r : Nat) : Bool := kept g.keep r || (owedRegs s g hw).contains r
  { g with
    threads := g.threads.map fun t => { t with regs := t.regs.filter (fun x => keep (t.tid / 32) x.1), rbad := t.rbad.filter (keep (t.tid / 32)) }
    warps := g.warps.map fun w => { w with tags := w.tags.filter fun x => keep ((w.tids.headD 0) / 32) x.1 } }

/-- Parks a group: its image is written, then its core's resources are free (03 R36, 09 R177, R178). `full` saves every
register, else the keep set decides. A class 3 condition holds the save, which a retry resumes; another ends the group's
context (R416). -/
def parkGroup (s : State) (gid : Gid) (full : Bool) (place : Place) : State :=
  match groupOf s gid with
  | none => s
  | some g =>
    if !onCore g || g.saveHold.isSome then s else
    let g1 := saveForm s g full
    match saveImage s g1 full fun hw r => full || kept g.keep r || (owedRegs s g hw).contains r with
    | .ok _ s' =>
      let g2 := if full then g1 else forgetRegs s g1
      let s1 := updGroup { s' with errs := s'.errs.filter fun e => e.gid != gid } gid fun _ =>
        { g2 with
          place := place
          saving := none
          present := []
          lastCore := coreOf g
          helper := if place = .below then g.helper else none
          depth := if place = .below then g.depth else 0
          spare := if place = .below then freshWarps g else 0 }
      ownState (unblockFreed s s1 (coreOf g)) g 4 0
    | r =>
      let s1 := areaMeets s g true r
      if place = .below then s1
      else updGroup s1 gid fun g => if g.saveHold.isSome then { g with saving := some (full, place) } else g

/-! ## The answer of a pre-empted group (09 R176, R177) -/

/-- Whether a thread still owes its answer to the signal: it has entered the handler for it, or its entry is held, and it
has neither executed `PDONE` nor exited (R177). -/
def owesAnswer (t : Thread) : Bool := t.live && (t.owes || t.pre)

/-- The answer of a signalled group is complete. -/
def answered (s : State) (g : Group) : Bool :=
  onCore g && (gangOf s g.gid.tag).any (fun x => x.preSent) && !(g.threads.any owesAnswer)

/-- A gang is pre-empted when every group of it is saved (09 R178). -/
def markSaved (s : State) (tag : Nat) : State :=
  if (gangOf s tag).any (fun x => x.preSent) && (gangGroups s tag).all fun g => g.place == .preempted || g.place == .done then
    updGang s tag fun x => { x with preSaved := true }
  else s

/-- The kept save of a group whose answer is complete. -/
def keptSave (s : State) (gid : Gid) : State :=
  match groupOf s gid with
  | none => s
  | some g => if answered s g then markSaved (parkGroup s gid false .preempted) gid.tag else s

end Sys2Proof.Machine
end

