-- ==== Sys2Proof/Machine/Operands.lean ====
section
/-! DEFINITION. Operands of core instructions: legality, values, shape tags, and the writing of results (04 R55 to R59, R64,
06 R92 to R97). -/

namespace Sys2Proof.Machine

open Sys2Proof

/-! ## Legality (04 Table 4.11, the `ILLOPND` rows) -/

/-- A register that an operand names: below the budget, and even for a pair (04 R58). -/
def regOk (c : Ctx) (r : Nat) (wide : Bool) : Bool :=
  if wide then r % 2 == 0 && r + 1 < c.grp.n else r < c.grp.n

/-- A latch as a source: full in every active slot (06 R97). -/
def latchOf (t : Thread) (k : Nat) : Option Latch := (t.latches.getD k none)
def latchOk (c : Ctx) (k : Nat) : Bool := c.act.all fun t => (latchOf t k).isSome

/-- A vector-class source (04 Table 4.7). -/
def srcOk (c : Ctx) (lit : Option W32) (wide : Bool) (code : BitVec 9) : Bool :=
  let n := code.toNat
  if n < 0x100 then regOk c n wide
  else if n < 0x108 then latchOk c (n - 0x100)
  else if n < 0x140 then true
  else n == 0x17F && lit.isSome

/-- A vector-class destination, a mask and a slot (04 R56, R58). -/
def dstOk (c : Ctx) (wide : Bool) (d : BitVec 8) : Bool := regOk c d.toNat wide
def maskDstOk (d : BitVec 8) : Bool := d.toNat < 8
def maskSrcOk (code : BitVec 9) : Bool := code.toNat < 8
def slotOk (d : BitVec 8) : Bool := d.toNat < 16
def slotSrcOk (code : BitVec 9) : Bool := code.toNat < 16

/-- A source that must be a register code, read only for its number (09 R174, 17 R302). -/
def regCodeOk (c : Ctx) (code : BitVec 9) : Bool := code.toNat < 0x100 && code.toNat < c.grp.n

/-! ## Values (04 R57) -/

/-- The floating-point constants of 04 Table 4.8, as FP32 patterns. -/
def fpConst (n : Nat) : W32 :=
  match n with
  | 0x130 => 0x00000000#32
  | 0x131 => 0x3F000000#32
  | 0x132 => 0x3F800000#32
  | 0x133 => 0x40000000#32
  | 0x134 => 0x40800000#32
  | 0x135 => 0xBF000000#32
  | 0x136 => 0xBF800000#32
  | 0x137 => 0xC0000000#32
  | 0x138 => 0xC0800000#32
  | 0x139 => 0x3E800000#32
  | 0x13A => 0x41000000#32
  | 0x13B => 0x3FB8AA3B#32
  | 0x13C => 0x3F317218#32
  | 0x13D => 0x40490FDB#32
  | 0x13E => 0x3E22F983#32
  | _ => 0x3E000000#32

def isFpConst (code : BitVec 9) : Bool := 0x130 ≤ code.toNat && code.toNat < 0x140

/-- A source read as an operand of 64 bits: registers and latches as they stand, an integer constant or `LIT`
sign-extended, a floating-point constant zero-extended (04 R57, 06 R97). -/
def rd64 (lit : Option W32) (code : BitVec 9) (t : Thread) : W64 :=
  let n := code.toNat
  if n < 0x100 then join64 (t.reg n) (t.reg (n + 1))
  else if n < 0x108 then
    match latchOf t (n - 0x100) with
    | some l => join64 l.lo l.hi
    | none => 0#64
  else if n < 0x130 then BitVec.ofInt 64 ((n : Int) - 0x110)
  else if n < 0x140 then (fpConst n).setWidth 64
  else (lit.getD 0#32).signExtend 64

/-- A source read as an operand of 32 bits. -/
def rd32 (lit : Option W32) (code : BitVec 9) (t : Thread) : W32 :=
  let n := code.toNat
  if n < 0x100 then t.reg n
  else if n < 0x108 then
    match latchOf t (n - 0x100) with
    | some l => l.lo
    | none => 0#32
  else if n < 0x130 then BitVec.ofInt 32 ((n : Int) - 0x110)
  else if n < 0x140 then fpConst n
  else lit.getD 0#32

/-- A source as the bits of an operand of `wide` or 32 bits. -/
def rdBits (lit : Option W32) (wide : Bool) (code : BitVec 9) (t : Thread) : Nat :=
  if wide then (rd64 lit code t).toNat else (rd32 lit code t).toNat

/-- `Rd(f, l, T)`: the exact integer of a source (07 R108). -/
def rdInt (lit : Option W32) (ty : Nat) (code : BitVec 9) (t : Thread) : Int :=
  intOf (tySigned ty) (tyBits ty) (rdBits lit (tyWide ty) code t)

/-- Whether a source holds an integer constant or `LIT` (04 R57, 12 R221). -/
def isIntConst (code : BitVec 9) : Bool := (0x108 ≤ code.toNat && code.toNat < 0x130) || code == litCode

/-! ## Shape tags of sources (06 R93, R94, R97) -/

/-- The tags of a latch over the active threads: `uni` only where they hold one value (log 16). -/
def latchTag (c : Ctx) (k : Nat) (high : Bool) : Tag :=
  let pick (t : Thread) : Option (Tag × W32) := (latchOf t k).map fun l => if high then (l.thi, l.hi) else (l.tlo, l.lo)
  match c.act.map pick with
  | some (tag, v) :: rest =>
    if rest.all fun x => match x with
      | some (t', v') => t' == tag && (tag != .uni || v' == v)
      | none => false
    then tag else .gen
  | _ => .gen

/-- The tag of a source's low or high half. -/
def srcTag (c : Ctx) (code : BitVec 9) (high : Bool) : Tag :=
  let n := code.toNat
  if n < 0x100 then c.warp.tag (if high then n + 1 else n)
  else if n < 0x108 then latchTag c (n - 0x100) high
  else .uni

/-- Whether a source of 32 or 64 bits is `uni`. -/
def srcUni (c : Ctx) (wide : Bool) (code : BitVec 9) : Bool :=
  srcTag c code false == .uni && (!wide || srcTag c code true == .uni)

/-- Base and stride of a 32-bit source that is `uni` or `aff`. -/
def srcAff (c : Ctx) (lit : Option W32) (code : BitVec 9) : Option (W32 × W32) :=
  match srcTag c code false with
  | .uni => some ((c.act.head?.map (rd32 lit code)).getD 0#32, 0#32)
  | .aff b st => some (b, st)
  | .gen => none

/-- An `aff` whose stride is 0 is recorded as `uni` (06 R93). -/
def mkAff (b st : W32) : Tag := if st = 0#32 then .uni else .aff b st

/-! ## Result tags (06 Table 6.3) -/

/-- The tag of a result that no `aff` row covers: `gen` on a partial write, `uni` if every source is `uni`, else `gen`. -/
def tagOf (c : Ctx) (uni : Bool) : Tag := if c.full && uni then .uni else .gen

/-- The tag of a 32-bit integer result: as `tagOf`, but `aff` where the row gives a base and a stride. -/
def tagAff (c : Ctx) (uni : Bool) (aff : Option (W32 × W32)) : Tag :=
  if !c.full then .gen
  else if uni then .uni
  else match aff with
    | some (b, st) => mkAff b st
    | none => .gen

/-! ## Writing results (06 R94, R96) -/

/-- A result: whether it fills a pair, each thread's bits, and the tags of its halves. -/
structure Result where
  wide : Bool
  val  : Thread → W64
  tlo  : Tag
  thi  : Tag

/-- The latch of a result (06 R97): a 32-bit result has the high half 0 with tag `uni`. -/
def Result.latch (r : Result) (t : Thread) : Latch :=
  if r.wide then ⟨lo32 (r.val t), hi32 (r.val t), r.tlo, r.thi, none⟩ else ⟨lo32 (r.val t), 0#32, r.tlo, .uni, none⟩

/-- A register pair or register written with a value. -/
def Thread.write (t : Thread) (d : Nat) (wide : Bool) (v : W64) : Thread :=
  let t1 := t.setReg d (lo32 v)
  if wide then t1.setReg (d + 1) (hi32 v) else t1

/-- The tags of a register or pair in one warp of a group. -/
def setTags (num d : Nat) (wide : Bool) (tlo thi : Tag) (g : Group) : Group :=
  { g with warps := modAll (fun w => w.num = num) (fun w =>
      { w with tags :=
          let t1 := tset Tag.uni w.tags d tlo
          if wide then tset Tag.uni t1 (d + 1) thi else t1 }) g.warps }

/-- An instruction with a result: the latches of the whole set advance, the active threads get the result in their
registers unless `w` is set (or `wr` says that the register is written later), the warp's tags change with it, `f` does
what the instruction does besides, and the set moves on. -/
def Ctx.result (c : Ctx) (s : State) (d : BitVec 8) (w : Bool) (r : Result) (f : Thread → Thread := id)
    (wr : Thread → Bool := fun _ => true) : State :=
  let act (t : Thread) : Bool := c.actTids.contains t.tid
  let one (t : Thread) : Thread :=
    if act t then
      let t1 := pushLatch (some (r.latch t)) (f t)
      { (if w || !wr t then t1 else t1.write d.toNat r.wide (r.val t)) with pc := c.cur.next }
    else { pushLatch none t with pc := c.cur.next }
  c.upd s fun g =>
    let g1 := { g with threads := modAll (fun t => c.setTids.contains t.tid) one g.threads }
    if w then g1 else setTags c.warp.num d.toNat r.wide r.tlo r.thi g1

/-- A 32-bit result and a 64-bit result. -/
def res32 (v : Thread → W32) (tag : Tag) : Result := ⟨false, fun t => (v t).setWidth 64, tag, .uni⟩
def res64 (v : Thread → W64) (tlo thi : Tag) : Result := ⟨true, v, tlo, thi⟩

/-- A result of a width with the default tags (06 Table 6.3). -/
def resW (c : Ctx) (wide : Bool) (v : Thread → Nat) (uni : Bool) : Result :=
  ⟨wide, fun t => if wide then BitVec.ofNat 64 (v t) else BitVec.ofNat 64 (v t % 2 ^ 32), tagOf c uni, if wide then tagOf c uni else .uni⟩

/-! ## Addresses (12 R221) -/

/-- The byte offset in `sb`: signed from an integer constant or `LIT`, else an unsigned 32-bit operand. -/
def offsetOf (lit : Option W32) (sb : BitVec 9) (t : Thread) : W64 :=
  if isIntConst sb then rd64 lit sb t else (rd32 lit sb t).setWidth 64

/-- `EA(l)`. -/
def effAddr (f : LongForm) (t : Thread) : W64 := rd64 f.lit f.sa t + offsetOf f.lit f.sb t

/-- Whether an address operand is `uni`: base and offset are. -/
def addrUni (c : Ctx) (f : LongForm) : Bool := srcUni c true f.sa && srcUni c false f.sb

/-- Legality of an address operand. -/
def addrOk (c : Ctx) (f : LongForm) : Bool := srcOk c f.lit true f.sa && srcOk c f.lit false f.sb

/-- Writes lane masks of the active threads. -/
def Ctx.masks (c : Ctx) (s : State) (d : Nat) (b : Thread → Bool) (f : Thread → Thread := id) : State :=
  c.done s fun t => (f t).setMask d (b t)

end Sys2Proof.Machine
end

