-- ==== Sys2Proof/Machine/Uses.lean ====
section
/-! DEFINITION. The registers that a core instruction writes and reads (03 R30, 12 R223), the errors of the register file
(27 R400), and the running of a core instruction (04 R63, R64). -/

namespace Sys2Proof.Machine

open Sys2Proof

/-! ## Operand codes -/

/-- Whether an instruction's type has 64 bits, and a special register. -/
def wideTy (f : LongForm) : Bool := tyWide f.ty
def sregWide (n : Nat) : Bool := [6, 7, 8, 9, 25, 26, 27, 28, 29, 31].contains n

/-- Registers from an operand code on; a code may name a latch too. -/
def wideRegs (f : LongForm) : Nat := if wideTy f then 2 else 1
def dstRegs (f : LongForm) (n : Nat) : List (Nat × Nat) := if f.w then [] else [(f.dst.toNat, n)]
def saRegs (f : LongForm) (n : Nat) : List (Nat × Nat) := [(f.sa.toNat, n)]
def sbRegs (f : LongForm) (n : Nat) : List (Nat × Nat) := [(f.sb.toNat, n)]
def scRegs (f : LongForm) (n : Nat) : List (Nat × Nat) := [(f.sc.toNat, n)]
def addrRegs (f : LongForm) : List (Nat × Nat) := saRegs f 2 ++ sbRegs f 1

/-- The codes of the registers that an instruction of a thread writes, each with its count. -/
def dstCodes (i : Instr) (t : Thread) : List (Nat × Nat) :=
  match i with
  | .mov f | .iabs f | .ineg f | .not f | .brev f | .unif f | .lfirst f | .iadd f | .isub f | .imul f | .imulh f | .idiv f
  | .irem f | .imin f | .imax f | .and f | .or f | .xor f | .andn f | .sel f | .imad f | .shl f | .shr f | .sar f | .rol f
  | .bfx f | .shfl f | .bfi f | .ld f | .ldg f | .fld f | .waitc f => dstRegs f (wideRegs f)
  | .fclass f | .frnd f | .rcp f | .rsq f | .sqrt f | .ex2 f | .lg2 f | .sin f | .cos f | .tanh f | .shape f
  | .lscan f | .lred f | .mbpeek f | .binld f | .popc f | .clz f | .matchL f | .fadd f | .fsub f | .fmul f | .fmin f
  | .fmax f | .hadd2 f | .hmul2 f | .cvts _ f | .idx f | .ffma f | .hfma2 f | .dot4 f | .dot2 f | .pack4 f | .kpop f
  | .ballot f | .mpoll f | .cpyq f | .netq f | .lde f | .helpq f | .mbrecv f | .amload f | .amrestore f => dstRegs f 1
  | .movl f | .lea f => dstRegs f 2
  | .cvt _ f => dstRegs f (if tyWide f.dty then 2 else 1)
  | .unpack4 f => dstRegs f 4
  | .srd f => dstRegs f (if sregWide (f.sa.toNat - 0x140) then 2 else 1)
  | .ctxload f => saRegs f (rd32 f.lit f.sb t).toNat
  | .atom op f => if op = .cas then [] else dstRegs f (wideRegs f)
  | .movS f | .notS f | .inegS f | .iabsS f | .popcS f | .clzS f | .brevS f | .rcpS f | .rsqS f | .sqrtS f | .kpopS f =>
    [(f.dst.toNat, 1)]
  | .srdS f => [(f.dst.toNat, if sregWide (f.sa.toNat - 0x140) then 2 else 1)]
  | _ => []

/-- The operand codes that an instruction of a thread reads as registers or latches, each with its count; the destination
of a compare-and-swap is read too. -/
def srcCodes (i : Instr) (t : Thread) : List (Nat × Nat) :=
  match i with
  | .mov f | .iabs f | .ineg f | .not f | .brev f | .unif f | .lfirst f | .popc f | .clz f | .matchL f =>
    saRegs f (wideRegs f)
  | .movl f | .fclass f | .frnd f | .rcp f | .rsq f | .sqrt f | .ex2 f | .lg2 f | .sin f | .cos f | .tanh f | .shape f
  | .lscan f | .lred f | .mbpeek f | .binld f | .trap f | .reggrow f | .regshrink f | .amarm f | .amdisarm f
  | .amdisarmFree f => saRegs f 1
  | .lea f | .ld f | .ldg f | .fld f | .lde f | .helpq f | .pref f | .evbar f | .depwait f | .frecGet f | .mtask f | .cpy f
  | .cpy2 f | .cpyt f | .cpyr f | .ownSelf f | .disownClaim f | .disownWord f => addrRegs f
  | .iadd f | .isub f | .imul f | .imulh f | .idiv f | .irem f | .imin f | .imax f | .and f | .or f | .xor f | .andn f
  | .sel f | .icmp f => saRegs f (wideRegs f) ++ sbRegs f (wideRegs f)
  | .imad f => saRegs f (wideRegs f) ++ sbRegs f (wideRegs f) ++ scRegs f (wideRegs f)
  | .shl f | .shr f | .sar f | .rol f | .bfx f | .shfl f => saRegs f (wideRegs f) ++ sbRegs f 1
  | .bfi f => saRegs f (wideRegs f) ++ sbRegs f (wideRegs f) ++ scRegs f 1
  | .fcmp f | .binz f | .fadd f | .fsub f | .fmul f | .fmin f | .fmax f | .hadd2 f | .hmul2 f | .cvts _ f | .idx f
  | .unpack4 f => saRegs f 1 ++ sbRegs f 1
  | .ffma f | .hfma2 f | .dot4 f | .dot2 f => saRegs f 1 ++ sbRegs f 1 ++ scRegs f 1
  | .cvt _ f => saRegs f (if tyWide f.sty then 2 else 1)
  | .pack4 f => saRegs f 4 ++ sbRegs f 1
  | .brx f => saRegs f 2
  | .ret f => if f.op = 1 then saRegs f 2 else []
  | .swr f => saRegs f (if sregWide f.dst.toNat then 2 else 1)
  | .ctxsave f | .bequeath f => sbRegs f 1 ++ saRegs f (rd32 f.lit f.sb t).toNat
  | .ctxload f | .ctxsaveKeep f => sbRegs f 1
  | .st f | .stg f | .fset f | .strel f | .red _ f => addrRegs f ++ scRegs f (wideRegs f)
  | .ste f | .mbsend f | .mbrecv f | .cflush f | .cinv f | .cinvCode f | .bldp f | .amload f | .amrestore f | .amsave f
  | .amsaveStop f | .ownMbox f => addrRegs f ++ scRegs f 1
  | .atom op f => (if op = .cas then [(f.dst.toNat, wideRegs f)] else []) ++ addrRegs f ++ scRegs f (wideRegs f)
  | .waitc f => saRegs f 2 ++ scRegs f (wideRegs f)
  | .evpost f | .evpostBuf f => saRegs f 1 ++ sbRegs f 1 ++ scRegs f 2
  | .ownClaim f | .ownWord f => addrRegs f ++ scRegs f 2
  | .disownMbox f => scRegs f 1
  | .binst f => saRegs f 1 ++ scRegs f 1
  | .movS f | .notS f | .inegS f | .iabsS f | .popcS f | .clzS f | .brevS f | .rcpS f | .rsqS f | .sqrtS f =>
    [(f.sa.toNat, 1)]
  | .swrS f => [(f.sa.toNat, if sregWide f.dst.toNat then 2 else 1)]
  | _ => []

/-- The registers among some codes. -/
def codeRegs (l : List (Nat × Nat)) : List Nat := (l.map fun (c, n) => if c < 0x100 then (List.range n).map (c + ·) else []).flatten

/-- The registers that an instruction of a thread reads. -/
def readRegs (i : Instr) (t : Thread) : List Nat := codeRegs (srcCodes i t)

/-! ## Errors of the register file (27 R399, R400, log 106) -/

/-- Whether an instruction of a thread reads a register that holds an uncorrectable error. -/
def readsBad (i : Instr) (t : Thread) : Bool := !t.rbad.isEmpty && (readRegs i t).any t.rbad.contains

/-- The lanes that consume an uncorrectable error raise class 4 cause 0x37; the others go on through `go`. -/
def Ctx.sparing (c : Ctx) (s : State) (res : Bool) (bad : List Nat) (go : Ctx → State) : State :=
  if bad.isEmpty then go c
  else
    let c' := c.without bad
    c.trap (if c'.act.isEmpty then c'.skip s res else go c') 4 0x37 (bad.map fun t => (t, 0#64, 0#64))

/-- Runs a core instruction (04 R63, R64): nothing without an active thread but the advance of the latches, `ILLOP` from
the encoding, `ILLOPND` from the operands, and else its effect, but for the lanes that read a bad register. -/
def runCore (s : State) (i : Instr) (g : BitVec 5) (res : Bool) (chk : Ctx → Bool) (body : Ctx → State) : State :=
  match ctxOf s g with
  | none => s
  | some c =>
    if c.act.isEmpty then c.skip s res
    else if !i.wf then c.trapAct s cILLOP
    else if !chk c then c.trapAct s cILLOPND
    else c.sparing s res ((c.act.filter (readsBad i)).map (·.tid)) body

end Sys2Proof.Machine
end

