-- ==== Sys2Proof/Machine/Integer.lean ====
section
/-! DEFINITION. Moves, addresses, integer arithmetic, logic, shifts, bit fields, selection, comparison and lane masks
(07 R107 to R123). -/

namespace Sys2Proof.Machine

open Sys2Proof

/-! ## Shapes shared by the families -/

/-- The long form that a short form stands for (04 R65): the type shown, `w` 0, `sb` and `sc` the constant 0. -/
def longOf (f : ShortForm) (ty op : Nat) : LongForm :=
  ⟨f.g, f.dst, false, f.sa, 0x110#9, 0x110#9, BitVec.ofNat 11 (64 * ty + op), none⟩

/-- A result with the tags of 06 Table 6.3: `aff` where a row gives base and stride and the result has 32 bits. -/
def intResult (c : Ctx) (wide uni : Bool) (aff : Option (W32 × W32)) (v : Thread → Nat) : Result :=
  if wide then res64 (fun t => BitVec.ofNat 64 (v t)) (tagOf c uni) (tagOf c uni)
  else res32 (fun t => BitVec.ofNat 32 (v t)) (tagAff c uni aff)

/-- One source of width `ws`, a result of width `wd`. -/
def op1 (s : State) (i : Instr) (f : LongForm) (wd ws : Bool) (aff : Ctx → Option (W32 × W32)) (v : Thread → Nat) :
    State :=
  runCore s i f.g true (fun c => dstOk c wd f.dst && srcOk c f.lit ws f.sa)
    fun c => c.result s f.dst f.w (intResult c wd (srcUni c ws f.sa) (aff c) v)

/-- Two sources of widths `wa`, `wb`. -/
def op2 (s : State) (i : Instr) (f : LongForm) (wd wa wb : Bool) (aff : Ctx → Option (W32 × W32)) (v : Thread → Nat) :
    State :=
  runCore s i f.g true (fun c => dstOk c wd f.dst && srcOk c f.lit wa f.sa && srcOk c f.lit wb f.sb)
    fun c => c.result s f.dst f.w (intResult c wd (srcUni c wa f.sa && srcUni c wb f.sb) (aff c) v)

/-- Three sources. -/
def op3 (s : State) (i : Instr) (f : LongForm) (wd wa wb wc : Bool) (aff : Ctx → Option (W32 × W32))
    (v : Thread → Nat) : State :=
  runCore s i f.g true
    (fun c => dstOk c wd f.dst && srcOk c f.lit wa f.sa && srcOk c f.lit wb f.sb && srcOk c f.lit wc f.sc)
    fun c => c.result s f.dst f.w
      (intResult c wd (srcUni c wa f.sa && srcUni c wb f.sb && srcUni c wc f.sc) (aff c) v)

def noAff (_ : Ctx) : Option (W32 × W32) := none

/-- Whether a source is `aff`. -/
def srcIsAff (c : Ctx) (code : BitVec 9) : Bool :=
  match srcTag c code false with
  | .aff _ _ => true
  | _ => false

/-- Base and stride of a sum, a difference and a negation (06 Table 6.3). -/
def affAdd (a b : Option (W32 × W32)) : Option (W32 × W32) :=
  match a, b with
  | some x, some y => some (x.1 + y.1, x.2 + y.2)
  | _, _ => none
def affSub (a b : Option (W32 × W32)) : Option (W32 × W32) :=
  match a, b with
  | some x, some y => some (x.1 - y.1, x.2 - y.2)
  | _, _ => none

/-- Base and stride of `aff` by `uni`, in either order. -/
def affMul (a b : Option (W32 × W32)) : Option (W32 × W32) :=
  match a, b with
  | some x, some y => if x.2 = 0#32 || y.2 = 0#32 then some (x.1 * y.1, x.2 * y.1 + x.1 * y.2) else none
  | _, _ => none

/-- The `aff` row applies to results of 32 bits without `.sat`. -/
def unsat (f : LongForm) (a : Option (W32 × W32)) : Option (W32 × W32) := if f.op = 0 then a else none

/-! ## Values -/

/-- Narrowing: a clamp with `.sat`, else the low bits (07 R113). -/
def narrow (ty : Nat) (sat : Bool) (x : Int) : Nat :=
  if sat then clampN (tySigned ty) (tyBits ty) x else wrapN (tyBits ty) x

/-- Unsigned bits of a source of a type. -/
def rdNat (f : LongForm) (ty : Nat) (code : BitVec 9) (t : Thread) : Nat := rdBits f.lit (tyWide ty) code t

def aInt (f : LongForm) (t : Thread) : Int := rdInt f.lit f.ty f.sa t
def bInt (f : LongForm) (t : Thread) : Int := rdInt f.lit f.ty f.sb t
def cInt (f : LongForm) (t : Thread) : Int := rdInt f.lit f.ty f.sc t

/-- Quotient and remainder (07 R115). -/
def quotient (ty : Nat) (a b : Int) : Nat := if b = 0 then 2 ^ tyBits ty - 1 else wrapN (tyBits ty) (a.tdiv b)
def remainder (ty : Nat) (a b : Int) : Nat := wrapN (tyBits ty) (if b = 0 then a else a - a.tdiv b * b)

/-- Shifts (07 R118): `n` bits, value `u`, amount `s`. -/
def shlVal (n u s : Nat) : Nat := if n ≤ s then 0 else u * 2 ^ s % 2 ^ n
def shrVal (n u s : Nat) : Nat := if n ≤ s then 0 else u / 2 ^ s
def sarVal (n u s : Nat) : Nat := wrapN n (intOf true n u / ((2 ^ min s (n - 1) : Nat) : Int))
def rolVal (n u s : Nat) : Nat := (u * 2 ^ (s % n) + u / 2 ^ (n - s % n)) % 2 ^ n

/-- Bit fields (07 R119). -/
def bfxVal (signed : Bool) (n u ctl : Nat) : Nat :=
  let pos := ctl % 256
  let len := ctl / 256 % 256
  let f := u / 2 ^ pos % 2 ^ len
  wrapN n (if signed && 0 < len && f.testBit (len - 1) then (f : Int) - (2 ^ len : Nat) else (f : Int))
def bfiVal (n ins base ctl : Nat) : Nat :=
  let pos := ctl % 256
  let len := ctl / 256 % 256
  let m := (2 ^ len - 1) * 2 ^ pos % 2 ^ n
  (base &&& (2 ^ n - 1 - m)) ||| (ins * 2 ^ pos % 2 ^ n &&& m)

/-- Counts and reversal (07 R120). -/
def popcVal (n u : Nat) : Nat := ((List.range n).filter fun i => u.testBit i).length
def clzVal (n u : Nat) : Nat := ((List.range n).find? fun i => u.testBit (n - 1 - i)).getD n
def brevVal (n u : Nat) : Nat := (List.range n).foldl (fun r i => 2 * r + (u.testBit i).toNat) 0

/-- A bitwise operation on the bits of the type. -/
def bitVal (f : LongForm) (op : Nat → Nat → Nat) (t : Thread) : Nat := op (rdNat f f.ty f.sa t) (rdNat f f.ty f.sb t)

/-! ## Moves and addresses (07 R110 to R112) -/

def movOp (s : State) (i : Instr) (f : LongForm) : State :=
  op1 s i f (wideTy f) (wideTy f) (fun c => srcAff c f.lit f.sa) (rdNat f f.ty f.sa)

def execMov (f : LongForm) (s : State) : Host.Outcome State Fault Refusal := .next (movOp s (.mov f) f)
def execMovS (f : ShortForm) (s : State) : Host.Outcome State Fault Refusal := .next (movOp s (.movS f) (longOf f 3 0))

def execMovl (f : LongForm) (s : State) : Host.Outcome State Fault Refusal :=
  .next (runCore s (.movl f) f.g true (fun c => dstOk c true f.dst && srcOk c f.lit false f.sa && f.sb == litCode)
    fun c => c.result s f.dst f.w (intResult c true (srcUni c false f.sa) none fun t =>
      (f.lit.getD 0#32).toNat * 2 ^ 32 + (rd32 f.lit f.sa t).toNat))

/-- The offset of `LEA` (07 R112, 04 R57). -/
def leaOffset (f : LongForm) (t : Thread) : W64 :=
  if isIntConst f.sb then rd64 f.lit f.sb t
  else if f.ty = 7 then (rd32 f.lit f.sb t).signExtend 64
  else (rd32 f.lit f.sb t).setWidth 64

def execLea (f : LongForm) (s : State) : Host.Outcome State Fault Refusal :=
  .next (op2 s (.lea f) f true true false noAff fun t =>
    (rd64 f.lit f.sa t + leaOffset f t * BitVec.ofNat 64 (2 ^ f.op)).toNat)

/-! ## Integer arithmetic (07 R113 to R116) -/

def execIadd (f : LongForm) (s : State) : Host.Outcome State Fault Refusal :=
  .next (op2 s (.iadd f) f (wideTy f) (wideTy f) (wideTy f)
    (fun c => unsat f (affAdd (srcAff c f.lit f.sa) (srcAff c f.lit f.sb)))
    fun t => narrow f.ty (f.op == 1) (aInt f t + bInt f t))

def execIsub (f : LongForm) (s : State) : Host.Outcome State Fault Refusal :=
  .next (op2 s (.isub f) f (wideTy f) (wideTy f) (wideTy f)
    (fun c => unsat f (affSub (srcAff c f.lit f.sa) (srcAff c f.lit f.sb)))
    fun t => narrow f.ty (f.op == 1) (aInt f t - bInt f t))

def execImul (f : LongForm) (s : State) : Host.Outcome State Fault Refusal :=
  .next (op2 s (.imul f) f (wideTy f) (wideTy f) (wideTy f)
    (fun c => unsat f (affMul (srcAff c f.lit f.sa) (srcAff c f.lit f.sb)))
    fun t => narrow f.ty (f.op == 1) (aInt f t * bInt f t))

def execImulh (f : LongForm) (s : State) : Host.Outcome State Fault Refusal :=
  .next (op2 s (.imulh f) f (wideTy f) (wideTy f) (wideTy f) noAff
    fun t => wrapN (tyBits f.ty) (aInt f t * bInt f t / ((2 ^ tyBits f.ty : Nat) : Int)))

/-- The `aff` row of `IMAD` asks for a product of `aff` by `uni` (06 Table 6.3). -/
def affMad (c : Ctx) (f : LongForm) : Option (W32 × W32) :=
  if srcIsAff c f.sa || srcIsAff c f.sb then
    affAdd (affMul (srcAff c f.lit f.sa) (srcAff c f.lit f.sb)) (srcAff c f.lit f.sc)
  else none

def execImad (f : LongForm) (s : State) : Host.Outcome State Fault Refusal :=
  .next (op3 s (.imad f) f (wideTy f) (wideTy f) (wideTy f) (wideTy f) (fun c => unsat f (affMad c f))
    fun t => narrow f.ty (f.op == 1) (aInt f t * bInt f t + cInt f t))

def execIdiv (f : LongForm) (s : State) : Host.Outcome State Fault Refusal :=
  .next (op2 s (.idiv f) f (wideTy f) (wideTy f) (wideTy f) noAff fun t => quotient f.ty (aInt f t) (bInt f t))

def execIrem (f : LongForm) (s : State) : Host.Outcome State Fault Refusal :=
  .next (op2 s (.irem f) f (wideTy f) (wideTy f) (wideTy f) noAff fun t => remainder f.ty (aInt f t) (bInt f t))

def execImin (f : LongForm) (s : State) : Host.Outcome State Fault Refusal :=
  .next (op2 s (.imin f) f (wideTy f) (wideTy f) (wideTy f) noAff
    fun t => wrapN (tyBits f.ty) (if aInt f t ≤ bInt f t then aInt f t else bInt f t))

def execImax (f : LongForm) (s : State) : Host.Outcome State Fault Refusal :=
  .next (op2 s (.imax f) f (wideTy f) (wideTy f) (wideTy f) noAff
    fun t => wrapN (tyBits f.ty) (if aInt f t ≤ bInt f t then bInt f t else aInt f t))

def iabsOp (s : State) (i : Instr) (f : LongForm) : State :=
  op1 s i f (wideTy f) (wideTy f) noAff fun t => narrow f.ty (f.op == 1) ((aInt f t).natAbs : Int)
def inegOp (s : State) (i : Instr) (f : LongForm) : State :=
  op1 s i f (wideTy f) (wideTy f) (fun c => unsat f (affSub (some (0#32, 0#32)) (srcAff c f.lit f.sa)))
    fun t => narrow f.ty (f.op == 1) (-(aInt f t))

def execIabs (f : LongForm) (s : State) : Host.Outcome State Fault Refusal := .next (iabsOp s (.iabs f) f)
def execIabsS (f : ShortForm) (s : State) : Host.Outcome State Fault Refusal := .next (iabsOp s (.iabsS f) (longOf f 7 0))
def execIneg (f : LongForm) (s : State) : Host.Outcome State Fault Refusal := .next (inegOp s (.ineg f) f)
def execInegS (f : ShortForm) (s : State) : Host.Outcome State Fault Refusal := .next (inegOp s (.inegS f) (longOf f 7 0))

/-! ## Logic, shifts and bit fields (07 R117 to R120) -/

def logicOp (s : State) (i : Instr) (f : LongForm) (op : Nat → Nat → Nat) : State :=
  op2 s i f (wideTy f) (wideTy f) (wideTy f) noAff (bitVal f op)

def execAnd (f : LongForm) (s : State) : Host.Outcome State Fault Refusal := .next (logicOp s (.and f) f fun a b => a &&& b)
def execOr (f : LongForm) (s : State) : Host.Outcome State Fault Refusal := .next (logicOp s (.or f) f fun a b => a ||| b)
def execXor (f : LongForm) (s : State) : Host.Outcome State Fault Refusal := .next (logicOp s (.xor f) f fun a b => a ^^^ b)
def execAndn (f : LongForm) (s : State) : Host.Outcome State Fault Refusal :=
  .next (logicOp s (.andn f) f fun a b => a &&& (2 ^ tyBits f.ty - 1 - b))

def notOp (s : State) (i : Instr) (f : LongForm) : State :=
  op1 s i f (wideTy f) (wideTy f) noAff fun t => 2 ^ tyBits f.ty - 1 - rdNat f f.ty f.sa t
def execNot (f : LongForm) (s : State) : Host.Outcome State Fault Refusal := .next (notOp s (.not f) f)
def execNotS (f : ShortForm) (s : State) : Host.Outcome State Fault Refusal := .next (notOp s (.notS f) (longOf f 3 0))

/-- A shift: the amount is a 32-bit operand read unsigned (07 R118). -/
def shiftOp (s : State) (i : Instr) (f : LongForm) (aff : Ctx → Option (W32 × W32)) (op : Nat → Nat → Nat → Nat) :
    State :=
  op2 s i f (wideTy f) (wideTy f) false aff fun t =>
    op (tyBits f.ty) (rdNat f f.ty f.sa t) (rd32 f.lit f.sb t).toNat

/-- `SHL` of `aff` by a `uni` amount (06 Table 6.3). -/
def affShl (c : Ctx) (f : LongForm) : Option (W32 × W32) :=
  match srcAff c f.lit f.sa, srcTag c f.sb false, c.act with
  | some (b, st), .uni, t :: _ => some (b <<< (rd32 f.lit f.sb t).toNat, st <<< (rd32 f.lit f.sb t).toNat)
  | _, _, _ => none

def execShl (f : LongForm) (s : State) : Host.Outcome State Fault Refusal := .next (shiftOp s (.shl f) f (affShl · f) shlVal)
def execShr (f : LongForm) (s : State) : Host.Outcome State Fault Refusal := .next (shiftOp s (.shr f) f noAff shrVal)
def execSar (f : LongForm) (s : State) : Host.Outcome State Fault Refusal := .next (shiftOp s (.sar f) f noAff sarVal)
def execRol (f : LongForm) (s : State) : Host.Outcome State Fault Refusal := .next (shiftOp s (.rol f) f noAff rolVal)

def execBfx (f : LongForm) (s : State) : Host.Outcome State Fault Refusal :=
  .next (shiftOp s (.bfx f) f noAff (bfxVal (tySigned f.ty)))

def execBfi (f : LongForm) (s : State) : Host.Outcome State Fault Refusal :=
  .next (op3 s (.bfi f) f (wideTy f) (wideTy f) (wideTy f) false noAff fun t =>
    bfiVal (tyBits f.ty) (rdNat f f.ty f.sa t) (rdNat f f.ty f.sb t) (rd32 f.lit f.sc t).toNat)

def popcOp (s : State) (i : Instr) (f : LongForm) : State :=
  op1 s i f false (wideTy f) noAff fun t => popcVal (tyBits f.ty) (rdNat f f.ty f.sa t)
def clzOp (s : State) (i : Instr) (f : LongForm) : State :=
  op1 s i f false (wideTy f) noAff fun t => clzVal (tyBits f.ty) (rdNat f f.ty f.sa t)
def brevOp (s : State) (i : Instr) (f : LongForm) : State :=
  op1 s i f (wideTy f) (wideTy f) noAff fun t => brevVal (tyBits f.ty) (rdNat f f.ty f.sa t)

def execPopc (f : LongForm) (s : State) : Host.Outcome State Fault Refusal := .next (popcOp s (.popc f) f)
def execPopcS (f : ShortForm) (s : State) : Host.Outcome State Fault Refusal := .next (popcOp s (.popcS f) (longOf f 3 0))
def execClz (f : LongForm) (s : State) : Host.Outcome State Fault Refusal := .next (clzOp s (.clz f) f)
def execClzS (f : ShortForm) (s : State) : Host.Outcome State Fault Refusal := .next (clzOp s (.clzS f) (longOf f 3 0))
def execBrev (f : LongForm) (s : State) : Host.Outcome State Fault Refusal := .next (brevOp s (.brev f) f)
def execBrevS (f : ShortForm) (s : State) : Host.Outcome State Fault Refusal := .next (brevOp s (.brevS f) (longOf f 3 0))

/-! ## Selection and comparison (07 R121, R122) -/

def execSel (f : LongForm) (s : State) : Host.Outcome State Fault Refusal :=
  .next (runCore s (.sel f) f.g true
    (fun c => dstOk c (wideTy f) f.dst && srcOk c f.lit (wideTy f) f.sa && srcOk c f.lit (wideTy f) f.sb && maskSrcOk f.sc)
    fun c => c.result s f.dst f.w (intResult c (wideTy f) false none fun t =>
      if t.mask f.sc.toNat then rdNat f f.ty f.sa t else rdNat f f.ty f.sb t))

/-- The fields of `op` in `ICMP` and `FCMP`. -/
def ccOf (f : LongForm) : Nat := f.op % 8
def combOf (f : LongForm) : Nat := f.op / 8

def execIcmp (f : LongForm) (s : State) : Host.Outcome State Fault Refusal :=
  .next (runCore s (.icmp f) f.g false
    (fun c => maskDstOk f.dst && srcOk c f.lit (wideTy f) f.sa && srcOk c f.lit (wideTy f) f.sb &&
      (combOf f == 0 || maskSrcOk f.sc))
    fun c => c.masks s f.dst.toNat fun t => combine (combOf f) (cmpInt (ccOf f) (aInt f t) (bInt f t)) (t.mask f.sc.toNat))

/-! ## Lane masks (07 R123) -/

def maskOp2 (s : State) (i : Instr) (f : LongForm) (op : Bool → Bool → Bool) : State :=
  runCore s i f.g false (fun _ => maskDstOk f.dst && maskSrcOk f.sa && maskSrcOk f.sb)
    fun c => c.masks s f.dst.toNat fun t => op (t.mask f.sa.toNat) (t.mask f.sb.toNat)

def maskOp1 (s : State) (i : Instr) (f : LongForm) (op : Bool → Bool) : State :=
  runCore s i f.g false (fun _ => maskDstOk f.dst && maskSrcOk f.sa)
    fun c => c.masks s f.dst.toNat fun t => op (t.mask f.sa.toNat)

def execKand (f : LongForm) (s : State) : Host.Outcome State Fault Refusal := .next (maskOp2 s (.kand f) f (· && ·))
def execKor (f : LongForm) (s : State) : Host.Outcome State Fault Refusal := .next (maskOp2 s (.kor f) f (· || ·))
def execKxor (f : LongForm) (s : State) : Host.Outcome State Fault Refusal := .next (maskOp2 s (.kxor f) f Bool.xor)
def execKnot (f : LongForm) (s : State) : Host.Outcome State Fault Refusal := .next (maskOp1 s (.knot f) f (!·))
def execKnotS (f : ShortForm) (s : State) : Host.Outcome State Fault Refusal :=
  .next (maskOp1 s (.knotS f) (longOf f 0 0) (!·))
def execKmov (f : LongForm) (s : State) : Host.Outcome State Fault Refusal := .next (maskOp1 s (.kmov f) f id)
def execKmovS (f : ShortForm) (s : State) : Host.Outcome State Fault Refusal :=
  .next (maskOp1 s (.kmovS f) (longOf f 0 0) id)

/-- `KPOP`: the active threads whose bit is 1; `uni` on a full write. -/
def kpopOp (s : State) (i : Instr) (f : LongForm) : State :=
  runCore s i f.g true (fun c => dstOk c false f.dst && maskSrcOk f.sa)
    fun c => c.result s f.dst f.w
      (intResult c false true none fun _ => (c.act.filter fun t => t.mask f.sa.toNat).length)

def execKpop (f : LongForm) (s : State) : Host.Outcome State Fault Refusal := .next (kpopOp s (.kpop f) f)
def execKpopS (f : ShortForm) (s : State) : Host.Outcome State Fault Refusal := .next (kpopOp s (.kpopS f) (longOf f 0 0))

end Sys2Proof.Machine
end

