-- ==== Sys2Proof/Machine/Control.lean ====
section
/-! DEFINITION. Control transfer and the control stack, meetings, compaction, fairness, special registers, register growth
and shapes (07 R124 to R138, 03 R30 to R38, 06 R103 to R106). -/

namespace Sys2Proof.Machine

open Sys2Proof

/-! ## Regrouping after a taken branch (03 R33, 06 R95) -/

/-- The runnable threads of a warp at an address. -/
def runnableAt (g : Group) (w : Warp) (pc : W64) : List Nat :=
  (g.threads.filter fun t => t.runnable && t.pc = pc && w.tids.contains t.tid).map (·.tid)

/-- The registers that replies are still to write in the home warps of some threads. -/
def owedOf (s : State) (g : Group) (tids : List Nat) : List Nat :=
  ((distinct (tids.map (· / 32))).map (owedRegs s g)).flatten

/-- Forms one fresh warp of some threads, or none where a condition of 06 R95 fails. -/
def freshWarp (s : State) (gid : Gid) (tids : List Nat) : Option State :=
  match groupOf s gid with
  | none => none
  | some g =>
    let c := coreOf g
    let src := g.warps.filter fun w => w.tids.any (tids.contains ·)
    let slots := (List.range 32).map fun i => tids[i]?
    let tags := tableOfTags g.n (mergeTag g (owedOf s g tids) src tids)
    if freeSlots s c < 1 || freeStorage s c < warpCost g.n g.g || g.g < (genRegs tags).length then none
    else
      let w := newWarp (freeNum (usedNums s c)) slots tags (genRegs tags) .compaction
      let touched := (src.map (·.tids)).flatten
      some (updGroup s gid fun g => { g with
        warps := takeOut tids g.warps ++ [w], threads := emptyLatches touched g.threads })

/-- Splits a list into parts of 32. -/
def parts32 : Nat → List Nat → List (List Nat)
  | 0, _ => []
  | n + 1, l => if l.isEmpty then [] else l.take 32 :: parts32 n (l.drop 32)

/-- The fresh warps of a compaction of more than 32 threads. DESIGN CHOICE (log 92): each is tried on its own, also where an
earlier one fails a condition of 06 R95. -/
def freshWarps32 (gid : Gid) (parts : List (List Nat)) (s : State) : State :=
  parts.foldl (fun s p => (freshWarp s gid p).getD s) s

/-- Compaction at one address; room that it frees clears the `blk`s of the die (17 R297). -/
def compactAt (s : State) (gid : Gid) (mine : List Nat) (pc : W64) : State :=
  match groupOf s gid with
  | none => s
  | some g =>
    let own := (g.threads.filter fun t => mine.contains t.tid && t.runnable && t.pc = pc).map (·.tid)
    if own.isEmpty || g.cthr ≤ own.length then s else
    let sets := (g.warps.map fun w => runnableAt g w pc).filter fun l => !l.isEmpty && l.length < g.cthr
    let tids := (g.threads.filter fun t => sets.any fun l => l.contains t.tid).map (·.tid)
    let s1 := freshWarps32 gid (parts32 32 tids) s
    unblockFreed s s1 (coreOf g)

/-- What follows a taken transfer: when it has parted the issuing set, sets below the threshold are compacted. -/
def Ctx.afterBranch (c : Ctx) (s : State) : State :=
  match groupOf s c.cur.gid with
  | none => s
  | some g =>
    let pcs := distinct ((g.threads.filter fun t => c.setTids.contains t.tid && t.live).map (·.pc))
    if g.cthr = 0 || pcs.length < 2 then s
    else (sortBy (fun a b => a.toNat < b.toNat) pcs).foldl (fun s pc => compactAt s c.cur.gid c.setTids pc) s

/-- A taken transfer: the active threads go to their targets with `f` done to each, the others go on in sequence, the
latches of the whole set empty (06 Table 6.6). With `fair` 0 a set that branches gives up the issue address that a `YIELD`
gave it (03 R37). -/
def Ctx.taken (c : Ctx) (s : State) (target : Thread → W64) (f : Thread → Thread) : State :=
  let s1 := c.upd s (modThreads c.setTids fun t =>
    if c.actTids.contains t.tid then { f t with pc := target t, latches := [] }
    else { t with pc := c.cur.next, latches := [] })
  let give (g : Group) : Group := if g.fair = 0 then
      { g with warps := modAll (fun w => w.num = c.cur.warp) (fun w => { w with moved := [] }) g.warps }
    else g
  c.afterBranch (c.upd s1 give)

/-- The target of `BRA`, `CALL` and `MEET` (04 R61). -/
def relTarget (c : Ctx) (off : Int) : W64 := c.cur.pc + BitVec.ofInt 64 (4 * off)

/-! ## Branches, calls, returns (07 R125 to R129) -/

def braOp (s : State) (i : Instr) (g : BitVec 5) (off : Int) : State :=
  runCore s i g false (fun _ => true) fun c =>
    c.transfer s true (fun _ => relTarget c off) fun s' => c.taken s' (fun _ => relTarget c off) id

def execBra (f : LongBranch) (s : State) : Host.Outcome State Fault Refusal := .next (braOp s (.bra f) f.g f.off.toInt)
def execBraS (f : ShortBranch) (s : State) : Host.Outcome State Fault Refusal := .next (braOp s (.braS f) f.g f.off.toInt)

def execBrx (f : LongForm) (s : State) : Host.Outcome State Fault Refusal :=
  .next (runCore s (.brx f) f.g false (fun c => srcOk c f.lit true f.sa) fun c =>
    c.transfer s true (rd64 f.lit f.sa) fun s' => c.taken s' (rd64 f.lit f.sa) id)

/-- Whether a thread's control stack is full (07 R124). The stack's last element is its top. -/
def stackFull (t : Thread) : Bool := 32 ≤ t.stack.length

/-- The threads that a control-stack fault charges, and the fault (07 R124). -/
def Ctx.stackFault (c : Ctx) (s : State) (cause : Nat) (bad : Thread → Bool) (go : State) : State :=
  if c.act.any bad then c.trapAct s cause else go

def callOp (s : State) (i : Instr) (g : BitVec 5) (off : Int) : State :=
  runCore s i g false (fun _ => true) fun c =>
    c.stackFault s cSTKOVF stackFull <|
      c.transfer s true (fun _ => relTarget c off) fun s' =>
        c.taken s' (fun _ => relTarget c off) fun t => { t with stack := t.stack ++ [⟨t.meet, c.cur.next, false⟩] }

def execCall (f : LongBranch) (s : State) : Host.Outcome State Fault Refusal := .next (callOp s (.call f) f.g f.off.toInt)
def execCallS (f : ShortBranch) (s : State) : Host.Outcome State Fault Refusal :=
  .next (callOp s (.callS f) f.g f.off.toInt)

/-- Pops down to and including the topmost entry that satisfies a test: the entry and the stack below it. -/
def popTo (p : CsEntry → Bool) : List CsEntry → Option (CsEntry × List CsEntry)
  | [] => none
  | e :: rest =>
    match popTo p rest with
    | some (x, below) => some (x, e :: below)
    | none => if p e then some (e, []) else none

def popCall (t : Thread) : Option (CsEntry × List CsEntry) := popTo (fun e => !e.meet) t.stack

/-- `RET`: `addr` gives the target where `op` is 1 (07 R128). -/
def retOp (s : State) (i : Instr) (g : BitVec 5) (chk : Ctx → Bool) (addr : Option (Thread → W64)) : State :=
  runCore s i g false chk fun c =>
    let target (t : Thread) : W64 := match addr with
      | some a => a t
      | none => ((popCall t).map fun e => e.1.addr).getD 0#64
    c.stackFault s cSTKUNF (fun t => (popCall t).isNone) <|
      c.transfer s true target fun s' =>
        c.taken s' target fun t => match popCall t with
          | some (e, below) => { t with stack := below, meet := e.smeet }
          | none => t

def execRet (f : LongForm) (s : State) : Host.Outcome State Fault Refusal :=
  .next (retOp s (.ret f) f.g (fun c => f.op == 0 || srcOk c f.lit true f.sa)
    (if f.op = 1 then some (rd64 f.lit f.sa) else none))
def execRetS (g : BitVec 5) (s : State) : Host.Outcome State Fault Refusal :=
  .next (retOp s (.retS g) g (fun _ => true) none)

/-- Whether a thread has already recorded a meeting address with its topmost entry (07 R129). -/
def hasMet (m : W64) (t : Thread) : Bool :=
  t.meet == m && (match t.stack.getLast? with
    | some e => e.meet && e.addr == m
    | none => false)

def meetOp (s : State) (i : Instr) (g : BitVec 5) (off : Int) : State :=
  runCore s i g false (fun _ => true) fun c =>
    let m := relTarget c off
    c.stackFault s cSTKOVF (fun t => !hasMet m t && stackFull t) <|
      c.done s fun t => if hasMet m t then t else { t with stack := t.stack ++ [⟨t.meet, m, true⟩], meet := m }

def execMeet (f : LongBranch) (s : State) : Host.Outcome State Fault Refusal := .next (meetOp s (.meet f) f.g f.off.toInt)
def execMeetS (f : ShortBranch) (s : State) : Host.Outcome State Fault Refusal :=
  .next (meetOp s (.meetS f) f.g f.off.toInt)

/-! ## Meetings (03 R31, R32, 07 R130) -/

/-- A thread released from the meeting at `m`. -/
def releaseThread (m : W64) (t : Thread) : Thread :=
  match popTo (fun e => e.meet && e.addr == m) t.stack with
  | some (e, below) => { t with stack := below, meet := e.smeet }
  | none => { t with meet := 0#64 }

/-- Whether the meeting of a group at `m` is complete: some thread is held there, and every thread whose `meet` is `m`
is held or has exited. -/
def meetingDue (g : Group) (m : W64) : Bool :=
  m != 0#64 && (g.threads.any fun t => t.held && t.meet = m) &&
    g.threads.all fun t => t.meet != m || t.held || !t.live

def execMeetingRelease (tag grp : Nat) (addr : W64) (s : State) : Host.Outcome State Fault Refusal :=
  .next (match groupOf s ⟨tag, grp⟩ with
    | none => s
    | some g =>
      if meetingDue g addr && onCore g then
        let tids := (g.threads.filter fun t => t.held && t.meet = addr).map (·.tid)
        let s1 := updGroup s g.gid fun x =>
          reform (modThreads tids (releaseThread addr) x) (usedNums s (coreOf g)) (owedOf s g tids) .meeting tids
        progress (unblockFreed s s1 (coreOf g)) g
      else s)

/-! ## Issue order (03 R30, R37, R38, 14 R254) -/

def runnables (g : Group) (w : Warp) : List Thread := g.threads.filter fun t => t.runnable && w.tids.contains t.tid

/-- The distinct addresses of some threads, ascending. -/
def addressesOf (ts : List Thread) : List W64 := sortBy (fun a b => a.toNat < b.toNat) (distinct (ts.map (·.pc)))

/-- A warp's addresses in the order in which they may issue: the issue address, then the others for the run-on rule
(26 R384). The set that a move gave the address keeps it while a thread of it is runnable (14 R254). -/
def issueOrder (g : Group) (w : Warp) : List W64 :=
  let ts := runnables g w
  let pcs := addressesOf ts
  match addressesOf (ts.filter fun t => w.moved.contains t.tid) with
  | pc :: _ => pc :: pcs.filter fun p => p != pc
  | [] => pcs

/-- The address that a move gives a warp: the next higher one, else the lowest. -/
def moveTarget (pcs : List W64) (cur : W64) : Option W64 :=
  match pcs.find? fun p => cur.toNat < p.toNat with
  | some p => some p
  | none => pcs.head?

/-- Gives a warp's issue address to the threads that are runnable at `pc`; its count restarts (14 R254). -/
def giveAddress (s : State) (gid : Gid) (num : Nat) (pc : W64) : State :=
  updGroup s gid fun g => { g with warps := modAll (fun w => w.num = num) (fun w =>
    { w with moved := runnableAt g w pc, holder := runnableAt g w pc, fcnt := 0 }) g.warps }

/-- Moves a warp's issue address on from `cur`; a warp that holds only one address stays as it is (03 R37). -/
def moveWarp (s : State) (gid : Gid) (num : Nat) (cur : W64) : State :=
  match (groupOf s gid).bind fun g => (g.warps.find? fun w => w.num = num).map fun w => addressesOf (runnables g w) with
  | none => s
  | some pcs =>
    match moveTarget pcs cur with
    | some pc => if pcs.length < 2 then s else giveAddress s gid num pc
    | none => s

/-- The address that a `YIELD` gives the warp: that of another set (03 R38); none where the warp holds only one. -/
def yieldTarget (c : Ctx) : Option W64 :=
  let others := addressesOf ((runnables c.grp c.warp).filter fun t => !c.setTids.contains t.tid)
  if others.all (· == c.cur.pc) then none else moveTarget others c.cur.pc

def yieldOp (s : State) (i : Instr) (g : BitVec 5) : State :=
  runCore s i g false (fun _ => true) fun c =>
    match yieldTarget c with
    | some pc => giveAddress (c.done s id) c.cur.gid c.cur.warp pc
    | none => c.done s id

def execYield (f : LongForm) (s : State) : Host.Outcome State Fault Refusal := .next (yieldOp s (.yield f) f.g)
def execYieldS (g : BitVec 5) (s : State) : Host.Outcome State Fault Refusal := .next (yieldOp s (.yieldS g) g)

/-- Whether a warp's count has reached the group's interval (03 R37). -/
def fairnessDue (g : Group) (w : Warp) : Bool := g.fair != 0 && g.fair ≤ w.fcnt && onCore g

def execFairnessMove (tag grp warp : Nat) (s : State) : Host.Outcome State Fault Refusal :=
  .next (match groupOf s ⟨tag, grp⟩ with
    | none => s
    | some g =>
      match g.warps.find? (fun w => w.num = warp) with
      | none => s
      | some w =>
        if fairnessDue g w then
          match issueOrder g w with
          | pc :: _ => moveWarp s g.gid warp pc
          | [] => s
        else s)

/-! ## `NOP`, hints and `EXIT` (04 R66, 07 R131, R132) -/

def nopOp (s : State) (i : Instr) (g : BitVec 5) : State :=
  runCore s i g false (fun _ => true) fun c => c.done s id

def execNop (f : LongForm) (s : State) : Host.Outcome State Fault Refusal := .next (nopOp s (.nop f) f.g)
def execNopS (g : BitVec 5) (s : State) : Host.Outcome State Fault Refusal := .next (nopOp s (.nopS g) g)

/-- A hint executes as `NOP` in every thread; its fields are ignored and it raises nothing (04 R66). -/
def hintOp (s : State) : State :=
  match ctxOf s 0#5 with
  | none => s
  | some c => c.done s id

def execHintS (_g : BitVec 5) (_h : BitVec 4) (_x : BitVec 17) (s : State) : Host.Outcome State Fault Refusal :=
  .next (hintOp s)
def execHintL (_g : BitVec 5) (_h : BitVec 6) (_x : BitVec 47) (_lit : Option W32) (s : State) :
    Host.Outcome State Fault Refusal := .next (hintOp s)

/-- A thread that has exited: its stack and registers are discarded (07 R132). -/
def exitThread (t : Thread) : Thread :=
  { t with wait := .exited, stack := [], regs := [], rbad := [], k := 0#8, latches := [], hnd := false, pre := false, dph := none,
           owes := false }

/-- Threads of a group exit: their remapping entries become invalid and a warp left empty is freed (06 Table 6.8). -/
def exitThreads (tids : List Nat) (g : Group) : Group :=
  { g with
    threads := modAll (fun t => tids.contains t.tid) exitThread g.threads
    warps := takeOut tids g.warps }

def exitOp (s : State) (i : Instr) (g : BitVec 5) : State :=
  runCore s i g false (fun _ => true) fun c =>
    let s1 := c.upd (c.done s id) (exitThreads c.actTids)
    keptSave (progress (unblockFreed s s1 c.core) c.grp) c.cur.gid

def execExit (f : LongForm) (s : State) : Host.Outcome State Fault Refusal := .next (exitOp s (.exit f) f.g)
def execExitS (g : BitVec 5) (s : State) : Host.Outcome State Fault Refusal := .next (exitOp s (.exitS g) g)

/-! ## Special registers (06 R103, R104, 07 R133, 09 R166) -/

/-- Registers that exist: 24 to 31 only in handler mode (07 R133). -/
def sregReadOk (c : Ctx) (n : Nat) : Bool := n ≤ 17 || (24 ≤ n && n ≤ 31 && c.act.all (·.hnd))
def sregWriteOk (c : Ctx) (n : Nat) : Bool :=
  [6, 14, 16].contains n || ([25, 29, 31].contains n && c.act.all (·.hnd))

/-- The physical slot of a thread. -/
def slotIn (w : Warp) (tid : Nat) : Nat := (w.slots.findIdx? fun x => x == some tid).getD 0

/-- Nanoseconds left before the pre-emption deadline (09 Table 9.2). -/
def deadlineLeft (s : State) (g : Group) : Nat :=
  match g.deadline with
  | some d => d - nowNs s
  | none => 0

/-- The value of a special register in a thread (06 Tables 6.5, 6.9 to 6.15, 09 Table 9.2). -/
def sregVal (s : State) (c : Ctx) (n : Nat) (t : Thread) : W64 :=
  let g := c.grp
  match n with
  | 0 => BitVec.ofNat 64 t.tid
  | 1 => BitVec.ofNat 64 (t.tid % 32)
  | 2 => BitVec.ofNat 64 (slotIn c.warp t.tid)
  | 3 => BitVec.ofNat 64 g.gid.grp
  | 4 => BitVec.ofNat 64 (g.gid.tag % 2 ^ 32)
  | 5 => BitVec.ofNat 64 g.stage
  | 6 => t.meet
  | 7 => BitVec.ofNat 64 s.sch.cycle
  | 8 => BitVec.ofNat 64 (nowNs s)
  | 9 => g.arg
  | 10 => BitVec.ofNat 64 (c.warp.num % 64 + t.tid / 32 * 2 ^ 8)
  | 11 => BitVec.ofNat 64 (gdimWord (gangGroups s g.gid.tag).length g)
  | 12 => BitVec.ofNat 64 c.core
  | 13 => BitVec.ofNat 64 (budgetWord g.n g.g)
  | 14 => BitVec.ofNat 64 (schedWord g)
  -- DESIGN CHOICE (log 66): a count that passes its 17 bits, as with `fair` 0, wraps
  | 15 => BitVec.ofNat 64 (c.warp.fcnt % 2 ^ 17)
  | 16 => t.fflag.setWidth 64
  | 17 => BitVec.ofNat 64 (2 ^ 15 + t.tid / 32 * 2 ^ 8 + t.tid % 32)
  | 24 => t.xcause.setWidth 64
  | 25 => t.xpc
  | 26 => t.xaddr
  | 27 => t.xinfo
  | 28 => g.xsave
  | 29 => g.xhand
  | 30 => BitVec.ofNat 64 (deadlineLeft s g % 2 ^ 32)
  | 31 => t.xscr
  | _ => 0#64

/-- Whether every valid slot of a warp holds its own home warp's lane (06 Table 6.5). -/
def laneAffine (w : Warp) : Bool :=
  (w.slots.zipIdx.all fun (x, i) => match x with
    | some t => t % 32 == i
    | none => true) && (distinct (w.tids.map (· / 32))).length ≤ 1

/-- The tag that `SRD` gives a register on a full write (06 Table 6.5, 09 Table 9.2). -/
def sregTag (c : Ctx) (n : Nat) : Tag :=
  match n with
  | 0 => .aff 0#32 1#32
  | 1 | 2 => if laneAffine c.warp then .aff (BitVec.ofInt 32 (-32 * ((c.warp.tids.headD 0 / 32 : Nat) : Int))) 1#32 else .gen
  | 10 => if c.warp.origin == .start || c.warp.origin == .meeting then .uni else .gen
  | 6 | 16 | 17 | 24 | 25 | 26 | 27 | 31 => .gen
  | _ => .uni

def srdOp (s : State) (i : Instr) (f : LongForm) : State :=
  let n := f.sa.toNat - 0x140
  runCore s i f.g true
    (fun c => 0x140 ≤ f.sa.toNat && f.sa.toNat < 0x160 && sregReadOk c n && dstOk c (sregWide n) f.dst) fun c =>
    let tag := if c.full then sregTag c n else .gen
    c.result s f.dst f.w ⟨sregWide n, sregVal s c n, tag, if sregWide n then tag else .uni⟩

def execSrd (f : LongForm) (s : State) : Host.Outcome State Fault Refusal := .next (srdOp s (.srd f) f)
def execSrdS (f : ShortForm) (s : State) : Host.Outcome State Fault Refusal := .next (srdOp s (.srdS f) (longOf f 0 0))

/-- Reserved bits of `sched` and `fflag` (06 Tables 6.13, 6.14). -/
def sregReserved (n : Nat) (v : W64) : Bool :=
  match n with
  | 14 => v &&& 0xFC0E0000#64 != 0#64
  | 16 => v &&& 0xFFFFFFF0#64 != 0#64
  | _ => false

/-- `fair` and `cthr` as a write stores them (06 Table 6.13). -/
def fairStored (v : Nat) : Nat := if v = 0 then 0 else if v < 256 then 256 else if 65536 < v then 65536 else v
def cthrStored (v : Nat) : Nat := min v 32

/-- What `SWR` of a per-thread register does to a thread. -/
def swrThread (n : Nat) (v : W64) (t : Thread) : Thread :=
  match n with
  | 6 => { t with meet := v }
  | 16 => { t with fflag := v.setWidth 4 }
  | 25 => { t with xpc := v }
  | 31 => { t with xscr := v }
  | _ => t

/-- What `SWR` of a per-group register does; the highest active `tid` supplies the value (06 R104, 09 R166). -/
def swrGroup (n : Nat) (v : W64) (g : Group) : Group :=
  match n with
  | 14 => { g with fair := fairStored (bits v.toNat 0 17), cthr := cthrStored (bits v.toNat 20 6) }
  | 29 => { g with xhand := v }
  | _ => g

def swrOp (s : State) (i : Instr) (f : LongForm) : State :=
  let n := f.dst.toNat
  let val (t : Thread) : W64 := if sregWide n then rd64 f.lit f.sa t else (rd32 f.lit f.sa t).setWidth 64
  runCore s i f.g false
    (fun c => sregWriteOk c n && srcOk c f.lit (sregWide n) f.sa && c.act.all fun t => !sregReserved n (val t)) fun c =>
    let s1 := c.done s fun t => swrThread n (val t) t
    match c.act.getLast? with
    | some t => c.upd s1 (swrGroup n (val t))
    | none => s1

def execSwr (f : LongForm) (s : State) : Host.Outcome State Fault Refusal := .next (swrOp s (.swr f) f)
def execSwrS (f : ShortForm) (s : State) : Host.Outcome State Fault Refusal := .next (swrOp s (.swrS f) (longOf f 0 0))

/-! ## Register budget (06 R105, R106, 07 R134, R135) -/

/-- A budget word whose reserved bits are zero and whose numbers keep the rules of 07 R134. -/
def budgetOk (b : Nat) : Bool :=
  bits b 9 7 == 0 && bits b 25 7 == 0 && 8 ≤ bits b 0 9 && bits b 16 9 ≤ bits b 0 9 && bits b 0 9 % 8 == 0 &&
    bits b 16 9 % 8 == 0

/-- The one value of a `uni` 32-bit source. -/
def uniSrc (c : Ctx) (f : LongForm) (code : BitVec 9) : Nat := ((c.act.head?.map (rd32 f.lit code)).getD 0#32).toNat

/-- A request that no core could meet even when empty, or that passes the save budget (06 R105). -/
def growHopeless (g : Group) (n' g' : Nat) : Bool :=
  256 < n' || g.ns < n' || Config.regFileBytes < groupWarps g * warpCost n' g'

/-- Whether free storage covers a request. -/
def growFits (s : State) (g : Group) (n' g' : Nat) : Bool :=
  groupWarps g * (warpCost n' g' - warpCost g.n g.g) ≤ freeStorage s (coreOf g)

/-- The pending request of a group, and its place in the order of issue. -/
def pendingGrow (g : Group) : Option (Nat × Nat) :=
  g.threads.findSome? fun t => match t.wait with
    | .grow n q _ _ => some (n, q)
    | _ => none
def growSince (g : Group) : Option Nat :=
  g.threads.findSome? fun t => match t.wait with
    | .grow _ _ _ since => some since
    | _ => none

/-- Whether a request is served: it fits, and no earlier one that is pending on the core does (06 R105). `since` is its
place, none for one that is being issued. -/
def growServed (s : State) (g : Group) (n' g' : Nat) (since : Option Nat) : Bool :=
  growFits s g n' g' &&
    !((residents s (coreOf g)).any fun x => x.gid != g.gid &&
      (match pendingGrow x, growSince x with
        | some (n, q), some k => growFits s x n q && since.all fun m => k < m
        | _, _ => false))

/-- Registers from N to N′ − 1 start at 0 with tag `uni` (07 R134). -/
def growGroup (n' g' : Nat) (g : Group) : Group := { g with n := n', g := g' }

/-- Registers at or above the new N are discarded in every warp (07 R135). -/
def shrinkGroup (n' g' : Nat) (g : Group) : Group :=
  { g with
    n := n'
    g := g'
    threads := g.threads.map fun t => { t with regs := t.regs.filter (fun x => x.1 < n'), rbad := t.rbad.filter (· < n') }
    warps := g.warps.map fun w => { w with tags := w.tags.filter fun x => x.1 < n' } }

/-- Whether a thread is part of an instruction that its warp holds. -/
def inHeld (g : Group) (tid : Nat) : Bool := g.warps.any fun w => w.held.any fun h => h.tids.contains tid

/-- The whole group waits in the grow state (03 R35, 06 R105): each of its runnable threads, of which those that made the
request take its predicate. -/
def growThread (c : Ctx) (n' g' kd since : Nat) (t : Thread) : Thread :=
  if !t.runnable || inHeld c.grp t.tid then t
  else { t with
    wait := .grow n' g' (if c.actTids.contains t.tid then kd else 0) since
    wnext := if c.setTids.contains t.tid then c.cur.next else t.pc }

def execReggrow (f : LongForm) (s : State) : Host.Outcome State Fault Refusal :=
  .next (runCore s (.reggrow f) f.g false
    (fun c => maskDstOk f.dst && srcOk c f.lit false f.sa && srcUni c false f.sa &&
      (let b := uniSrc c f f.sa
       budgetOk b && c.grp.n ≤ bits b 0 9 && c.grp.g ≤ bits b 16 9)) fun c =>
    let b := uniSrc c f f.sa
    let n' := bits b 0 9
    let g' := bits b 16 9
    let kd := f.dst.toNat
    if n' = c.grp.n ∧ g' = c.grp.g then c.masks s kd fun _ => true
    else if growHopeless c.grp n' g' then c.masks s kd fun _ => false
    else if growServed s c.grp n' g' none then c.upd (c.masks s kd fun _ => true) (growGroup n' g')
    else
      let (k, s1) := freshId s
      c.upd s1 fun g => { g with threads := g.threads.map (growThread c n' g' kd k) })

def execRegshrink (f : LongForm) (s : State) : Host.Outcome State Fault Refusal :=
  .next (runCore s (.regshrink f) f.g false
    (fun c => srcOk c f.lit false f.sa && srcUni c false f.sa &&
      (let b := uniSrc c f f.sa
       budgetOk b && bits b 0 9 ≤ c.grp.n && bits b 16 9 ≤ c.grp.g)) fun c =>
    let b := uniSrc c f f.sa
    unblockFreed s (c.upd (c.done s id) (shrinkGroup (bits b 0 9) (bits b 16 9))) c.core)

/-- A request ends: its completion predicate is set or cleared in every thread that made it, and they go on. -/
def endGrow (ok : Bool) (t : Thread) : Thread :=
  match t.wait with
  | .grow _ _ kd _ => { (t.setMask kd ok) with wait := .run, pc := t.wnext }
  | _ => t

def execReggrowGrant (tag grp : Nat) (s : State) : Host.Outcome State Fault Refusal :=
  .next (match groupOf s ⟨tag, grp⟩ with
    | none => s
    | some g =>
      match pendingGrow g with
      | none => s
      | some (n', g') =>
        if onCore g && growServed s g n' g' (growSince g) then
          updGroup s g.gid fun x => growGroup n' g' { x with threads := x.threads.map (endGrow true) }
        else s)

/-- Every resident group of a core has a pending request that cannot be met (06 R106). -/
def growStuck (s : State) (c : Nat) : Bool :=
  let rs := residents s c
  !rs.isEmpty && rs.all fun g => match pendingGrow g with
    | some (n', g') => !growFits s g n' g'
    | none => false

/-- The youngest resident group: the last commit, then the higher coordinate (06 R106). -/
def youngest (s : State) (c : Nat) : Option Group :=
  let age (g : Group) : Nat := ((gangOf s g.gid.tag).map (·.seq)).getD 0
  (residents s c).foldl (fun m g => match m with
    | none => some g
    | some x => if age x < age g || (age x = age g && x.gid.grp < g.gid.grp) then some g else m) none

def execReggrowFail (core : Nat) (s : State) : Host.Outcome State Fault Refusal :=
  .next (match youngest s core with
    | none => s
    | some g =>
      if growStuck s core then
        updGroup s g.gid fun x => { x with threads := x.threads.map (endGrow false) }
      else s)

/-! ## Shapes (07 R136 to R138) -/

/-- The tightest tag of values over the live threads of a warp (07 R136). -/
def fitTag (vals : List (Nat × W32)) : Tag :=
  match vals with
  | [] => .uni
  | (t0, v0) :: rest =>
    if rest.all fun x => x.2 == v0 then .uni
    else
      match rest with
      | (t1, v1) :: _ =>
        let st := v1 - v0
        let base := v0 - st * BitVec.ofNat 32 t0
        if t1 = t0 + 1 && vals.all fun x => x.2 == base + st * BitVec.ofNat 32 x.1 then mkAff base st else .gen
      | [] => .uni

def execShape (f : LongForm) (s : State) : Host.Outcome State Fault Refusal :=
  .next (runCore s (.shape f) f.g true (fun c => dstOk c false f.dst && srcOk c f.lit false f.sa) fun c =>
    let tag := if f.op = 1 || !c.full then Tag.gen else fitTag (c.act.map fun t => (t.tid, rd32 f.lit f.sa t))
    c.result s f.dst f.w (res32 (rd32 f.lit f.sa) tag))

def execIdx (f : LongForm) (s : State) : Host.Outcome State Fault Refusal :=
  .next (runCore s (.idx f) f.g true
    (fun c => dstOk c false f.dst && srcOk c f.lit false f.sa && srcOk c f.lit false f.sb) fun c =>
    let tag := if c.full && srcUni c false f.sa && srcUni c false f.sb then
        match c.act with
        | t :: _ => mkAff (rd32 f.lit f.sa t) (rd32 f.lit f.sb t)
        | [] => .gen
      else .gen
    c.result s f.dst f.w (res32 (fun t => rd32 f.lit f.sa t + rd32 f.lit f.sb t * BitVec.ofNat 32 t.tid) tag))

/-- `UNIF`: the value of the lowest active thread. -/
def execUnif (f : LongForm) (s : State) : Host.Outcome State Fault Refusal :=
  .next (runCore s (.unif f) f.g true (fun c => dstOk c (wideTy f) f.dst && srcOk c f.lit (wideTy f) f.sa) fun c =>
    let v := (c.act.head?.map (rdNat f f.ty f.sa)).getD 0
    c.result s f.dst f.w (intResult c (wideTy f) true none fun _ => v))

end Sys2Proof.Machine
end

