-- ==== Sys2Proof/Machine/Float.lean ====
section
/-! DEFINITION. Number formats, exact values, rounding and saturation (05 R68 to R81). A value is a sign, a magnitude
m × 2^e, an infinity or a NaN; every operation is exact and rounds once. -/

namespace Sys2Proof.Machine

open Sys2Proof

/-- The kinds of special encodings of 05 Table 5.1: infinities and NaNs, `.e4m3` with one NaN, none. -/
inductive Special where
  | ieee | e4m3 | none
  deriving DecidableEq, Repr

/-- A floating-point format (05 Table 5.1). -/
structure Fmt where
  ebits : Nat
  mbits : Nat
  bias  : Nat
  spec  : Special
  deriving DecidableEq, Repr

def fmtF32 : Fmt := ⟨8, 23, 127, .ieee⟩
def fmtTF19 : Fmt := ⟨8, 10, 127, .ieee⟩
def fmtBF16 : Fmt := ⟨8, 7, 127, .ieee⟩
def fmtF16 : Fmt := ⟨5, 10, 15, .ieee⟩
def fmtE4M3 : Fmt := ⟨4, 3, 7, .e4m3⟩
def fmtE5M2 : Fmt := ⟨5, 2, 15, .ieee⟩
def fmtE3M2 : Fmt := ⟨3, 2, 3, .none⟩
def fmtE2M3 : Fmt := ⟨2, 3, 1, .none⟩
def fmtE2M1 : Fmt := ⟨2, 1, 1, .none⟩

/-- The format of a type code (04 Table 4.10). -/
def fmtOf (ty : Nat) : Fmt :=
  match ty with
  | 13 => fmtF16
  | 14 => fmtBF16
  | 16 => fmtTF19
  | 17 => fmtE4M3
  | 18 => fmtE5M2
  | 19 => fmtE3M2
  | 20 => fmtE2M3
  | 21 => fmtE2M1
  | _ => fmtF32

/-- An exact value. -/
inductive FVal where
  | nan
  | inf (neg : Bool)
  | fin (neg : Bool) (m : Nat) (e : Int)
  deriving DecidableEq, Repr

/-- Bits of an encoding of the format. -/
def Fmt.width (f : Fmt) : Nat := 1 + f.ebits + f.mbits
/-- The exponent of one unit of the subnormal grid. -/
def Fmt.emin (f : Fmt) : Int := 1 - (f.bias : Int) - f.mbits

/-- The value of an encoding (05 R69). -/
def decodeF (f : Fmt) (c : Nat) : FVal :=
  let m := c % 2 ^ f.mbits
  let e := c / 2 ^ f.mbits % 2 ^ f.ebits
  let s := c.testBit (f.ebits + f.mbits)
  let finite : FVal :=
    if e = 0 then .fin s m f.emin else .fin s (2 ^ f.mbits + m) (f.emin + e - 1)
  match f.spec with
  | .ieee => if e = 2 ^ f.ebits - 1 then (if m = 0 then .inf s else .nan) else finite
  | .e4m3 => if e = 15 ∧ m = 7 then .nan else finite
  | .none => finite

/-- The canonical NaN (05 Table 5.1); a format without one gives +0 (Table 5.3). -/
def nanCode (f : Fmt) : Nat :=
  match f.spec with
  | .ieee => (2 ^ f.ebits - 1) * 2 ^ f.mbits + 2 ^ (f.mbits - 1)
  | .e4m3 => 0x7F
  | .none => 0

def signBit (f : Fmt) (neg : Bool) : Nat := if neg then 2 ^ (f.ebits + f.mbits) else 0
def infCode (f : Fmt) (neg : Bool) : Nat := signBit f neg + (2 ^ f.ebits - 1) * 2 ^ f.mbits

/-- The largest finite magnitude, as a code and as mantissa and exponent. -/
def maxMag (f : Fmt) : Nat :=
  match f.spec with
  | .ieee => (2 ^ f.ebits - 1) * 2 ^ f.mbits - 1
  | .e4m3 => 0x7E
  | .none => 2 ^ (f.ebits + f.mbits) - 1
def maxCode (f : Fmt) (neg : Bool) : Nat := signBit f neg + maxMag f

/-- Number of bits of a magnitude. -/
def bitLen (m : Nat) : Nat := if m = 0 then 0 else Nat.log2 m + 1

/-- Whether rounding m / 2^k away from zero is asked for, by mode (05 Table 5.2). -/
def roundUp? (r : RMode) (neg : Bool) (m k : Nat) : Bool :=
  let q := m / 2 ^ k
  let rem := m % 2 ^ k
  match r with
  | .rn => 2 ^ k < 2 * rem || (2 * rem == 2 ^ k && q % 2 == 1)
  | .rz => false
  | .rd => neg && rem != 0
  | .ru => !neg && rem != 0

/-- m × 2^e rounded onto multiples of 2^q: the multiple and whether it is inexact. A shift past the magnitude's bits is
cut to one that rounds alike. -/
def roundAt (r : RMode) (neg : Bool) (m : Nat) (e q : Int) : Nat × Bool :=
  if q ≤ e then (m * 2 ^ (e - q).toNat, false)
  else
    let k := min (q - e).toNat (bitLen m + 2)
    (m / 2 ^ k + (roundUp? r neg m k).toNat, m % 2 ^ k != 0)

/-- Rounds a nonzero magnitude to the precision of a format, exponent unbounded above (05 R75): mantissa, exponent,
inexact. -/
def roundMag (f : Fmt) (r : RMode) (neg : Bool) (m : Nat) (e : Int) : Nat × Int × Bool :=
  let q := max f.emin (e + (bitLen m : Int) - 1 - f.mbits)
  let (n, x) := roundAt r neg m e q
  if n = 2 ^ (f.mbits + 1) then (2 ^ f.mbits, q + 1, x) else (n, q, x)

/-- The code of a magnitude n × 2^q that the format represents, its exponent field not bounded. -/
def magCode (f : Fmt) (n : Nat) (q : Int) : Nat :=
  if n < 2 ^ f.mbits then n else (q - f.emin + 1).toNat * 2 ^ f.mbits + (n - 2 ^ f.mbits)

/-- `Sat` of a finite value whose rounded magnitude is above the largest (05 Table 5.3). -/
def satOver (f : Fmt) (r : RMode) (sat neg : Bool) : Nat :=
  match f.spec with
  | .ieee =>
    if sat then maxCode f neg else
    match r with
    | .rn => infCode f neg
    | .rz => maxCode f neg
    | .rd => if neg then infCode f neg else maxCode f neg
    | .ru => if neg then maxCode f neg else infCode f neg
  | .e4m3 => if sat then maxCode f neg else 0x7F
  | .none => maxCode f neg

/-- `Cvt(x, F, mode, sat)` (05 R76): the code and the conditions. -/
def cvt (f : Fmt) (r : RMode) (sat : Bool) (x : FVal) : Nat × BitVec 4 :=
  match x with
  | .nan => (nanCode f, flInv)
  | .inf neg =>
    match f.spec with
    | .ieee => if sat then (maxCode f neg, flInv) else (infCode f neg, 0#4)
    | .e4m3 => (if sat then maxCode f neg else 0x7F, flInv)
    | .none => (maxCode f neg, flInv)
  | .fin neg m e =>
    if m = 0 then (signBit f neg, 0#4) else
    let (n, q, x) := roundMag f r neg m e
    let c := magCode f n q
    if maxMag f < c then (satOver f r sat neg, flOvf ||| flInx)
    else
      let tiny := n != 0 && n < 2 ^ f.mbits
      (signBit f neg + c, (if x then flInx else 0#4) ||| (if x && tiny then flUnf else 0#4))

/-- The code without the conditions, by `RoundNE` with `sat` 0. -/
def encF (f : Fmt) (x : FVal) : Nat := (cvt f .rn false x).1

/-! ## Exact operations -/

def FVal.isNan : FVal → Bool
  | .nan => true
  | _ => false

def FVal.isInf : FVal → Bool
  | .inf _ => true
  | _ => false

def FVal.neg : FVal → FVal
  | .nan => .nan
  | .inf s => .inf (!s)
  | .fin s m e => .fin (!s) m e

/-- A signed integer times a power of two. -/
def ofIntExp (x e : Int) : FVal := .fin (decide (x < 0)) x.natAbs e
def FVal.ofInt (x : Int) : FVal := ofIntExp x 0

def signed (neg : Bool) (m : Nat) : Int := if neg then -(m : Int) else (m : Int)

/-- The exact sum. An exact zero is +0 unless both operands are −0 (05 R75, under `rn`). ∞ − ∞ is NaN. -/
def FVal.add : FVal → FVal → FVal
  | .nan, _ | _, .nan => .nan
  | .inf a, .inf b => if a = b then .inf a else .nan
  | .inf a, .fin _ _ _ => .inf a
  | .fin _ _ _, .inf b => .inf b
  | .fin sa ma ea, .fin sb mb eb =>
    if ma = 0 then (if mb = 0 then .fin (sa && sb) 0 0 else .fin sb mb eb)
    else if mb = 0 then .fin sa ma ea
    else
      let e := min ea eb
      let x := signed sa (ma * 2 ^ (ea - e).toNat) + signed sb (mb * 2 ^ (eb - e).toNat)
      .fin (decide (x < 0)) x.natAbs e

/-- The exact product. 0 × ∞ is NaN. -/
def FVal.mul : FVal → FVal → FVal
  | .nan, _ | _, .nan => .nan
  | .inf a, .inf b => .inf (Bool.xor a b)
  | .inf a, .fin b m _ | .fin b m _, .inf a => if m = 0 then .nan else .inf (Bool.xor a b)
  | .fin sa ma ea, .fin sb mb eb => .fin (Bool.xor sa sb) (ma * mb) (ea + eb)

/-- The exact product by 2^j. -/
def FVal.scale (x : FVal) (j : Int) : FVal :=
  match x with
  | .fin s m e => .fin s m (e + j)
  | y => y

/-- A quotient's proxy: 64 bits past the format's precision and a sticky bit, so that every rounding to at most 32 bits
gives what the exact quotient gives. -/
def quotProxy (ma mb : Nat) (e : Int) (neg : Bool) : FVal :=
  let k : Nat := 96 + bitLen mb
  let q := ma * 2 ^ k / mb
  .fin neg (2 * q + (decide (ma * 2 ^ k % mb ≠ 0)).toNat) (e - (k : Int) - 1)

/-- A square root's proxy, with a sticky bit. -/
def sqrtProxy (m : Nat) (e : Int) : FVal :=
  let odd := e % 2
  let m' := m * 2 ^ odd.toNat
  let k : Nat := 96
  let r := Nat.sqrt (m' * 2 ^ (2 * k))
  .fin false (2 * r + (decide (r * r ≠ m' * 2 ^ (2 * k))).toNat) ((e - odd) / 2 - (k : Int) - 1)

/-- The order of two values that are not NaN: negative, zero or positive difference; −0 equals +0. -/
def FVal.cmp (a b : FVal) : Ordering :=
  match a, b with
  | .inf s, .inf t => if s = t then .eq else if s then .lt else .gt
  | .inf s, _ => if s then .lt else .gt
  | _, .inf t => if t then .gt else .lt
  | .fin _ _ _, .fin _ _ _ =>
    match a.add b.neg with
    | .fin s m _ => if m = 0 then .eq else if s then .lt else .gt
    | _ => .eq
  | _, _ => .eq

/-- Whether an operation on these operands reports invalid although its value is computed elsewhere: a NaN operand. -/
def anyNan (xs : List FVal) : Bool := xs.any FVal.isNan

/-- Rounds a value to an integer in a mode (05 R77, 08 R146): the integer. -/
def roundInt (r : RMode) (neg : Bool) (m : Nat) (e : Int) : Int := signed neg (roundAt r neg m e 0).1

/-- A float converted to an integer type (05 R77): a value far outside saturates without being formed. A finite value that
saturates reports invalid (R77) and inexact, since what is delivered differs from it (08 R141). DESIGN CHOICE (log 114): an
infinity reports invalid alone, which is all that R77 names for it. -/
def cvtToInt (sg : Bool) (n : Nat) (r : RMode) (x : FVal) : Nat × BitVec 4 :=
  match x with
  | .nan => (0, flInv)
  | .inf neg => (wrapN n (if neg then intMin sg n else intMax sg n), flInv)
  | .fin neg m e =>
    if m = 0 then (0, 0#4)
    else if 80 < e + (bitLen m : Int) then (wrapN n (if neg then intMin sg n else intMax sg n), flInv ||| flInx)
    else
      let v := roundInt r neg m e
      if v < intMin sg n then (wrapN n (intMin sg n), flInv ||| flInx)
      else if intMax sg n < v then (wrapN n (intMax sg n), flInv ||| flInx)
      else (wrapN n v, if (roundAt r neg m e 0).2 then flInx else 0#4)

/-! ## FP32 addition and multiplication, as the atomics and the mill use them -/

def addF32 (a b : W32) : W32 := BitVec.ofNat 32 (encF fmtF32 ((decodeF fmtF32 a.toNat).add (decodeF fmtF32 b.toNat)))
def mulF32 (a b : W32) : W32 := BitVec.ofNat 32 (encF fmtF32 ((decodeF fmtF32 a.toNat).mul (decodeF fmtF32 b.toNat)))

end Sys2Proof.Machine
end

