-- ==== Sys2Proof/Machine/Special.lean ====
section
/-! DEFINITION. The special functions (08 R155, R156): exact special values, `.f16` forms and the rounded `.f32` forms from
values of 128 binary places, and the open `.f32` results within their bounds (log 8). -/

namespace Sys2Proof.Machine

open Sys2Proof

/-- The special functions in opcode order. -/
inductive SpFn where
  | rcp | rsq | sqrt | ex2 | lg2 | sin | cos | tanh
  deriving DecidableEq, Repr

/-! ## Values of 128 binary places -/

def fixP : Nat := 128
def fixOne : Nat := 2 ^ fixP

/-- π, and ln 2 as 2 atanh(1/3). -/
def piFix : Nat := 0x3243F6A8885A308D313198A2E03707344

/-- Σ z^(2i+1) / (2i+1) for i < n, z in 128 places. -/
def atanhFix (z : Nat) : Nat → Nat → Nat → Nat
  | 0, _, _ => 0
  | n + 1, t, k => t / k + atanhFix z n (t * z / fixOne * z / fixOne) (k + 2)

def lnRatio (num den : Nat) : Nat :=
  let z := num * fixOne / den
  2 * atanhFix z 64 z 1

def ln2Fix : Nat := lnRatio 1 3

/-- Σ y^k / k!, from the term t of index k. -/
def expTerms (y : Nat) : Nat → Nat → Nat → Nat
  | 0, _, _ => 0
  | n + 1, t, k => t + expTerms y n (t * y / fixOne / k) (k + 1)

/-- e^y for 0 ≤ y < 1. -/
def expFix (y : Nat) : Nat := expTerms y 48 fixOne 1

/-- Σ ± t, the terms of sine or cosine; `k` is the index of the next factor. -/
def trigTerms (y2 : Nat) : Nat → Nat → Nat → Int
  | 0, _, _ => 0
  | n + 1, t, k => (t : Int) - trigTerms y2 n (t * y2 / fixOne / (k * (k + 1))) (k + 2)

def sinFix (y : Nat) : Int := trigTerms (y * y / fixOne) 32 y 2
def cosFix (y : Nat) : Int := trigTerms (y * y / fixOne) 32 fixOne 1

/-- A value in 128 places as a value with a sticky bit, so that it is never a tie. -/
def ofFix (x : Int) : FVal := .fin (decide (x < 0)) (2 * x.natAbs + 1) (-(fixP : Int) - 1)

/-- 2^x for a value that is given as `v` in 128 places. -/
def exp2Fix (v : Int) : FVal :=
  let n := v / (fixOne : Int)
  let fr := (v % (fixOne : Int)).toNat
  if fr = 0 then .fin false 1 n
  else .fin false (2 * expFix (fr * ln2Fix / fixOne) + 1) (n - fixP - 1)

/-- A value in 128 places, floored; magnitudes of 2^20 and above are cut to that. -/
def toFix (s : Bool) (m : Nat) (e : Int) : Int :=
  if 20 < e + (bitLen m : Int) then signed s (2 ^ 20 * fixOne)
  else
    let k := e + fixP
    if 0 ≤ k then signed s (m * 2 ^ k.toNat)
    else signed s m / ((2 ^ min (-k).toNat (bitLen m + 2) : Nat) : Int)

/-- log₂ of m × 2^e, m > 0. -/
def log2Val (m : Nat) (e : Int) : FVal :=
  let k := bitLen m - 1
  if m = 2 ^ k then FVal.ofInt (e + k)
  else
    let ln := lnRatio (m - 2 ^ k) (m + 2 ^ k)
    ofFix ((e + k) * (fixOne : Int) + ((ln * fixOne / ln2Fix : Nat) : Int))

/-- The fraction of a turn of a value, in units of 2^-p: p and the numerator. -/
def turnOf (m : Nat) (e : Int) : Nat × Nat :=
  if 0 ≤ e then (0, 0) else
  let p := (-e).toNat
  (p, m % 2 ^ p)

/-- sine and cosine of 2π r / 2^p; `c` asks for the cosine. -/
def trigVal (p r : Nat) (c : Bool) : FVal :=
  let quad := 4 * r / 2 ^ p
  let fr := 4 * r % 2 ^ p
  let y := piFix * fr / 2 ^ (p + 1)
  let q := (quad + c.toNat) % 4
  let v : Int := if q % 2 = 0 then sinFix y else cosFix y
  if fr = 0 then
    match q with
    | 0 | 2 => .fin false 0 0
    | 1 => .fin false 1 0
    | _ => .fin true 1 0
  else ofFix (if q < 2 then v else -v)

/-- tanh of a positive value. -/
def tanhVal (m : Nat) (e : Int) : FVal :=
  let y := toFix false m e
  if 64 * (fixOne : Int) ≤ y then .fin false (2 ^ 130 - 1) (-130)
  else
    -- e^(−2y) = 2^(−2y / ln 2)
    let ex := match exp2Fix (-(2 * y * (fixOne : Int) / (ln2Fix : Int))) with
      | .fin _ m e => (toFix false m e).toNat
      | _ => 0
    quotProxy (fixOne - ex) (fixOne + ex) 0 false

/-! ## Bounds of the open results (08 Table 8.3) -/

def FVal.abs : FVal → FVal
  | .fin _ m e => .fin false m e
  | .inf _ => .inf false
  | .nan => .nan

/-- One unit in the last place of a format at a value. -/
def ulpOf (f : Fmt) (x : FVal) : FVal :=
  match x with
  | .fin _ m e => .fin false 1 (max f.emin (e + (bitLen m : Int) - 1 - f.mbits))
  | _ => .fin false 0 0

def leqVal (a b : FVal) : Bool := a.cmp b != .gt

/-- |cand − ref| ≤ bound. -/
def within (cand ref bound : FVal) : Bool := leqVal (cand.add ref.neg).abs bound

/-- k ulp of the exact value. -/
def ulps (k : Nat) (f : Fmt) (ref : FVal) : FVal := (ulpOf f ref).mul (.fin false k 0)

/-- The bound of an `.f32` function at an input. -/
def boundOf (fn : SpFn) (x ref : FVal) : FVal :=
  match fn with
  | .rsq => ulps 1 fmtF32 ref
  | .ex2 => ulps 2 fmtF32 ref
  | .lg2 =>
    if leqVal (.fin false 1 (-1)) x && leqVal x (.fin false 2 0) then .fin false 1 (-22) else ulps 2 fmtF32 ref
  | .sin | .cos => .fin false 1 (-22)
  | .tanh =>
    let u := ulps 2 fmtF32 ref
    if leqVal u (.fin false 1 (-24)) then .fin false 1 (-24) else u
  | _ => .fin false 0 0

/-- An exact zero keeps its sign in a zero result (05 R75). -/
def zeroSignOk (cand ref : FVal) : Bool :=
  match cand, ref with
  | .fin s 0 _, .fin s' 0 _ => s == s'
  | _, _ => true

/-- The name of an open function. -/
def openFn : SpFn → OpenFn
  | .rsq => .rsq
  | .ex2 => .ex2
  | .lg2 => .lg2
  | .sin => .sin
  | .cos => .cos
  | _ => .tanh

/-- The device's result for an exact value that the manual only bounds: a free value within the bound, which never
exceeds 1 in magnitude for `SIN`, `COS` and `TANH`; where the free value is out of bounds, the rounded exact value. -/
def openPick (fn : SpFn) (w : W32) (x ref : FVal) : Nat :=
  let c := Config.openResult (openFn fn) w
  let v := decodeF fmtF32 c.toNat
  let ok := match v with
    | .fin _ _ _ => within v ref (boundOf fn x ref) && zeroSignOk v ref &&
      (match fn with
        | .sin | .cos | .tanh => leqVal v.abs (.fin false 1 0)
        | _ => true)
    | _ => false
  if ok then c.toNat else encF fmtF32 ref

/-- Whether a function's `.f32` result is `RoundNE` of the exact value. -/
def roundedFn : SpFn → Bool
  | .rcp | .sqrt => true
  | _ => false

/-- Delivers an exact value: rounded for `.f16` and the rounded functions, open for the others; a result beyond the
format's range is infinite and reports overflow (08 R156). -/
def deliver (fn : SpFn) (f : Fmt) (w : W32) (x ref : FVal) : Nat × BitVec 4 :=
  let c := encF f ref
  let beyond := match decodeF f c with
    | .inf _ => true
    | _ => false
  if beyond then (c, flOvf)
  else if f = fmtF32 && !roundedFn fn then (openPick fn w x ref, 0#4)
  else (c, 0#4)

/-- A special function of an encoding of `.f32` or `.f16` (08 R156, Table 8.3): the code and the conditions. -/
def special (fn : SpFn) (f : Fmt) (w : W32) : Nat × BitVec 4 :=
  let x := decodeF f (w.toNat % 2 ^ f.width)
  let invalid : Nat × BitVec 4 := (nanCode f, flInv)
  let zero (s : Bool) : Nat × BitVec 4 := (signBit f s, 0#4)
  let inf (s : Bool) : Nat × BitVec 4 := (infCode f s, 0#4)
  let one (s : Bool) : Nat × BitVec 4 := (encF f (.fin s 1 0), 0#4)
  match x with
  | .nan => invalid
  | .inf s =>
    match fn with
    | .rcp => zero s
    | .rsq => if s then invalid else zero false
    | .sqrt | .lg2 => if s then invalid else inf false
    | .ex2 => if s then zero false else inf false
    | .sin | .cos => invalid
    | .tanh => one s
  | .fin s m e =>
    if m = 0 then
      match fn with
      | .rcp | .rsq => inf s
      | .sqrt | .sin | .tanh => zero s
      | .ex2 | .cos => one false
      | .lg2 => inf true
    else
      match fn with
      | .rcp => deliver fn f w x (quotProxy 1 m (-e) s)
      | .rsq =>
        if s then invalid
        else
          let odd := e % 2
          let m' := m * 2 ^ odd.toNat
          -- 1/√(m'·2^(e−odd)) = √(2^(2k)/m') · 2^(−k−(e−odd)/2)
          let r := Nat.sqrt (2 ^ 320 / m')
          deliver fn f w x (.fin false (2 * r + (decide (r * r * m' ≠ 2 ^ 320)).toNat) (-160 - (e - odd) / 2 - 1))
      | .sqrt => if s then invalid else deliver fn f w x (sqrtProxy m e)
      | .ex2 => deliver fn f w x (exp2Fix (toFix s m e))
      | .lg2 => if s then invalid else deliver fn f w x (log2Val m e)
      | .sin =>
        let (p, r) := turnOf m e
        if r = 0 then zero s
        else
          let v := trigVal p r false
          match v with
          | .fin _ 0 _ => deliver fn f w x (.fin s 0 0)
          | v => deliver fn f w x (if s then v.neg else v)
      | .cos =>
        let (p, r) := turnOf m e
        let q := if s then (2 ^ p - r) % 2 ^ p else r
        if 4 * q = 2 ^ p then zero false else deliver fn f w x (trigVal p q true)
      | .tanh =>
        let v := tanhVal m e
        deliver fn f w x (if s then v.neg else v)

end Sys2Proof.Machine
end

