-- ==== Sys2Proof/Machine/FloatOps.lean ====
section
/-! DEFINITION. Floating-point arithmetic, packed and dot-product forms, conversions and the special functions of the core
(08 R139 to R156). -/

namespace Sys2Proof.Machine

open Sys2Proof

/-! ## Operands and results (08 R140, 04 R57) -/

/-- The encoding that a 32-bit word holds for a type: `.tf19` reads bits [31:13] (05 R70). -/
def codeIn (ty : Nat) (w : W32) : Nat := if ty = 16 then w.toNat / 2 ^ 13 else w.toNat % 2 ^ (fmtOf ty).width

/-- An encoding of a type as a 32-bit word. -/
def codeOut (ty : Nat) (c : Nat) : Nat := if ty = 16 then c * 2 ^ 13 else c

/-- The encoding of a source read as a floating-point type; a floating-point constant is converted (04 R57). -/
def srcCode (lit : Option W32) (ty : Nat) (code : BitVec 9) (t : Thread) : Nat :=
  if isFpConst code then encF (fmtOf ty) (decodeF fmtF32 (fpConst code.toNat).toNat) else codeIn ty (rd32 lit code t)

/-- `Fv(f, l, T)`. -/
def srcVal (lit : Option W32) (ty : Nat) (code : BitVec 9) (t : Thread) : FVal :=
  decodeF (fmtOf ty) (srcCode lit ty code t)

def negIf (b : Bool) (x : FVal) : FVal := if b then x.neg else x

/-- Operands of a floating-point instruction, after the negations that `op` selects. -/
def fA (f : LongForm) (t : Thread) : FVal := negIf (f.op.testBit 0) (srcVal f.lit f.ty f.sa t)
def fB (f : LongForm) (t : Thread) : FVal := negIf (f.op.testBit 1) (srcVal f.lit f.ty f.sb t)
def fC (f : LongForm) (t : Thread) : FVal := negIf (f.op.testBit 2) (srcVal f.lit f.ty f.sc t)

/-- ORs conditions into a thread's flags (08 R141). -/
def Thread.flag (t : Thread) (fl : BitVec 4) : Thread := { t with fflag := t.fflag ||| fl }

/-- A 32-bit floating-point result with its conditions, of one to three vector sources. -/
def fpResult (s : State) (i : Instr) (f : LongForm) (nsrc : Nat) (v : Thread → Nat × BitVec 4) : State :=
  runCore s i f.g true
    (fun c => dstOk c false f.dst && srcOk c f.lit false f.sa && (nsrc < 2 || srcOk c f.lit false f.sb) &&
      (nsrc < 3 || srcOk c f.lit false f.sc)) fun c =>
    let uni := srcUni c false f.sa && (nsrc < 2 || srcUni c false f.sb) && (nsrc < 3 || srcUni c false f.sc)
    c.result s f.dst f.w (intResult c false uni none fun t => (v t).1) fun t => t.flag (v t).2

/-- The rounded result of an exact value in the instruction's type (08 R142). -/
def fpRound (f : LongForm) (x : FVal) : Nat × BitVec 4 := cvt (fmtOf f.ty) .rn false x

/-! ## Arithmetic (08 R142 to R146) -/

def execFadd (f : LongForm) (s : State) : Host.Outcome State Fault Refusal :=
  .next (fpResult s (.fadd f) f 2 fun t => fpRound f ((fA f t).add (fB f t)))
def execFsub (f : LongForm) (s : State) : Host.Outcome State Fault Refusal :=
  .next (fpResult s (.fsub f) f 2 fun t => fpRound f ((fA f t).add (fB f t).neg))
def execFmul (f : LongForm) (s : State) : Host.Outcome State Fault Refusal :=
  .next (fpResult s (.fmul f) f 2 fun t => fpRound f ((fA f t).mul (fB f t)))
def execFfma (f : LongForm) (s : State) : Host.Outcome State Fault Refusal :=
  .next (fpResult s (.ffma f) f 3 fun t => fpRound f (((fA f t).mul (fB f t)).add (fC f t)))

/-- Whether a is below b, −0 below +0 (08 R143). -/
def fpLess (a b : FVal) : Bool :=
  match a.cmp b with
  | .lt => true
  | .gt => false
  | .eq =>
    match a, b with
    | .fin true 0 _, .fin false 0 _ => true
    | _, _ => false

/-- `FMIN` or `FMAX` of two encodings: the result bit for bit, and invalid with a NaN operand. -/
def minMax (fm : Fmt) (maxi prop : Bool) (a b : Nat) : Nat × BitVec 4 :=
  let x := decodeF fm a
  let y := decodeF fm b
  match x.isNan, y.isNan with
  | true, true => (nanCode fm, flInv)
  | true, false => (if prop then nanCode fm else b, flInv)
  | false, true => (if prop then nanCode fm else a, flInv)
  | false, false => (if fpLess x y != maxi then a else b, 0#4)

def execFmin (f : LongForm) (s : State) : Host.Outcome State Fault Refusal :=
  .next (fpResult s (.fmin f) f 2 fun t =>
    minMax (fmtOf f.ty) false (f.op == 1) (srcCode f.lit f.ty f.sa t) (srcCode f.lit f.ty f.sb t))
def execFmax (f : LongForm) (s : State) : Host.Outcome State Fault Refusal :=
  .next (fpResult s (.fmax f) f 2 fun t =>
    minMax (fmtOf f.ty) true (f.op == 1) (srcCode f.lit f.ty f.sa t) (srcCode f.lit f.ty f.sb t))

/-- The conditions of `FCMP` (08 R144). -/
def cmpFp (cc : Nat) (a b : FVal) : Bool :=
  if a.isNan || b.isNan then cc == 1 || cc == 7
  else
    match cc with
    | 0 => a.cmp b == .eq
    | 1 => a.cmp b != .eq
    | 2 => a.cmp b == .lt
    | 3 => a.cmp b != .gt
    | 4 => a.cmp b == .gt
    | 5 => a.cmp b != .lt
    | 6 => true
    | _ => false

def execFcmp (f : LongForm) (s : State) : Host.Outcome State Fault Refusal :=
  .next (runCore s (.fcmp f) f.g false
    (fun c => maskDstOk f.dst && srcOk c f.lit false f.sa && srcOk c f.lit false f.sb &&
      (combOf f == 0 || maskSrcOk f.sc)) fun c =>
    let a := srcVal f.lit f.ty f.sa
    let b := srcVal f.lit f.ty f.sb
    c.masks s f.dst.toNat (fun t => combine (combOf f) (cmpFp (ccOf f) (a t) (b t)) (t.mask f.sc.toNat))
      fun t => if (a t).isNan || (b t).isNan then t.flag flInv else t)

/-- The class word of an encoding (08 R145). -/
def classBit (fm : Fmt) (c : Nat) : Nat :=
  match decodeF fm c with
  | .nan => 8
  | .inf s => if s then 0 else 7
  | .fin s m _ => if m = 0 then (if s then 3 else 4) else if m < 2 ^ fm.mbits then (if s then 2 else 5) else (if s then 1 else 6)

def execFclass (f : LongForm) (s : State) : Host.Outcome State Fault Refusal :=
  .next (fpResult s (.fclass f) f 1 fun t =>
    let c := srcCode f.lit f.ty f.sa t
    (2 ^ classBit (fmtOf f.ty) c, if (decodeF (fmtOf f.ty) c).isNan then flInv else 0#4))

/-- Rounding modes by number (08 R139, R149). -/
def rmodeOf (n : Nat) : RMode :=
  match n with
  | 0 => .rn
  | 1 => .rz
  | 2 => .rd
  | _ => .ru

/-- `FRND` of an encoding (08 R146). -/
def frndVal (fm : Fmt) (r : RMode) (c : Nat) : Nat × BitVec 4 :=
  match decodeF fm c with
  | .nan => (nanCode fm, flInv)
  | .inf _ => (c, 0#4)
  | .fin s m e =>
    if m = 0 ∨ 0 ≤ e then (c, 0#4)
    else
      let v := (roundAt r s m e 0).1
      (encF fm (.fin s v 0), 0#4)

def execFrnd (f : LongForm) (s : State) : Host.Outcome State Fault Refusal :=
  .next (fpResult s (.frnd f) f 1 fun t => frndVal (fmtOf f.ty) (rmodeOf f.op) (srcCode f.lit f.ty f.sa t))

/-! ## Packed and dot-product forms (08 R147, R148) -/

/-- Half h of a packed operand: a constant or `LIT` supplies the same value to both halves. -/
def halfCode (lit : Option W32) (ty : Nat) (code : BitVec 9) (h : Nat) (t : Thread) : Nat :=
  if code.toNat < 0x108 then (rd32 lit code t).toNat / 2 ^ (16 * h) % 2 ^ 16 else srcCode lit ty code t

def halfVal (f : LongForm) (code : BitVec 9) (n h : Nat) (t : Thread) : FVal :=
  negIf (f.op.testBit n) (decodeF (fmtOf f.ty) (halfCode f.lit f.ty code h t))

/-- Both halves computed alike. -/
def packed (f : LongForm) (v : Nat → Thread → FVal) (t : Thread) : Nat × BitVec 4 :=
  let a := fpRound f (v 0 t)
  let b := fpRound f (v 1 t)
  (b.1 * 2 ^ 16 + a.1, a.2 ||| b.2)

def execHadd2 (f : LongForm) (s : State) : Host.Outcome State Fault Refusal :=
  .next (fpResult s (.hadd2 f) f 2 (packed f fun h t => (halfVal f f.sa 0 h t).add (halfVal f f.sb 1 h t)))
def execHmul2 (f : LongForm) (s : State) : Host.Outcome State Fault Refusal :=
  .next (fpResult s (.hmul2 f) f 2 (packed f fun h t => (halfVal f f.sa 0 h t).mul (halfVal f f.sb 1 h t)))
def execHfma2 (f : LongForm) (s : State) : Host.Outcome State Fault Refusal :=
  .next (fpResult s (.hfma2 f) f 3 (packed f fun h t =>
    ((halfVal f f.sa 0 h t).mul (halfVal f f.sb 1 h t)).add (halfVal f f.sc 2 h t)))

/-- A packed 32-bit operand of `DOT4` and `DOT2`. DEDUCED (log 17): a floating-point constant is converted to the element type of
a floating-point form and is element 0 of it, the other elements being 0. -/
def dotWord (f : LongForm) (code : BitVec 9) (t : Thread) : Nat :=
  if isFpConst code && (TypeSet.floats.contains f.ty) then srcCode f.lit f.ty code t else (rd32 f.lit code t).toNat

/-- Σ a_i × b_i + c, exactly, for the floating-point types. -/
def dotFp (f : LongForm) (n w : Nat) (t : Thread) : FVal :=
  let elem (code : BitVec 9) (i : Nat) : FVal := decodeF (fmtOf f.ty) (dotWord f code t / 2 ^ (w * i) % 2 ^ w)
  ((List.range n).map fun i => (elem f.sa i).mul (elem f.sb i)).foldr FVal.add (srcVal f.lit 15 f.sc t)

/-- The same for the integer types; the low 32 bits are kept. -/
def dotInt (f : LongForm) (n w : Nat) (t : Thread) : Int :=
  let sg := tySigned f.ty
  let elem (code : BitVec 9) (i : Nat) : Int := intOf sg w (dotWord f code t / 2 ^ (w * i))
  ((List.range n).map fun i => elem f.sa i * elem f.sb i).sum + intOf sg 32 (rd32 f.lit f.sc t).toNat

def dotVal (f : LongForm) (n w : Nat) (t : Thread) : Nat × BitVec 4 :=
  if TypeSet.floats.contains f.ty then cvt fmtF32 .rn false (dotFp f n w t) else (wrapN 32 (dotInt f n w t), 0#4)

def execDot4 (f : LongForm) (s : State) : Host.Outcome State Fault Refusal :=
  .next (fpResult s (.dot4 f) f 3 (dotVal f 4 8))
def execDot2 (f : LongForm) (s : State) : Host.Outcome State Fault Refusal :=
  .next (fpResult s (.dot2 f) f 3 (dotVal f 2 16))

/-! ## Conversions (08 R149 to R154) -/

def isFloatTy (ty : Nat) : Bool := TypeSet.floats.contains ty

/-- An integer result in a register: extended by its type's signedness (08 R140). -/
def intOut (ty v : Nat) : Nat :=
  let n := tyBits ty
  if 32 ≤ n then v else wrapN 32 (intOf (tySigned ty) n v)

/-- `CVT` of a source of type `st` to type `dt` (08 R150). Where `dt` is `st` the value is unchanged,
as R150 says. DESIGN CHOICE (log 93): whether that holds for an infinity with `sat` 1 too, which 05 R76 makes the largest
finite value, is a free value. -/
def cvtVal (r : RMode) (f : LongForm) (t : Thread) : Nat × BitVec 4 :=
  let dt := f.dty
  let st := f.sty
  if isFloatTy st then
    let c := srcCode f.lit st f.sa t
    let x := decodeF (fmtOf st) c
    if isFloatTy dt then
      if dt = st && Config.sameSat && f.sat && x.isInf then
        let (y, fl) := cvt (fmtOf dt) r true x
        (codeOut dt y, fl)
      else if dt = st then (if x.isNan then (codeOut dt (nanCode (fmtOf dt)), flInv) else (codeOut dt c, 0#4))
      else
        let (y, fl) := cvt (fmtOf dt) r f.sat x
        (codeOut dt y, fl)
    else
      let (v, fl) := cvtToInt (tySigned dt) (tyBits dt) r x
      (intOut dt v, fl)
  else
    let x := rdInt f.lit st f.sa t
    if isFloatTy dt then
      let (y, fl) := cvt (fmtOf dt) r f.sat (FVal.ofInt x)
      (codeOut dt y, fl)
    else (intOut dt (narrow dt f.sat x), 0#4)

def execCvt (r : RMode) (f : LongForm) (s : State) : Host.Outcome State Fault Refusal :=
  .next (runCore s (.cvt r f) f.g true
    (fun c => dstOk c (tyWide f.dty) f.dst && srcOk c f.lit (tyWide f.sty) f.sa) fun c =>
    c.result s f.dst f.w (intResult c (tyWide f.dty) (srcUni c (tyWide f.sty) f.sa) none fun t => (cvtVal r f t).1)
      fun t => t.flag (cvtVal r f t).2)

/-- A positive value rounded to a power of two in a mode: its exponent (05 R78). -/
def pow2Round (r : RMode) (m : Nat) (e : Int) : Int :=
  let k := bitLen m - 1
  let q := e + k
  if m = 2 ^ k then q
  else
    match r with
    | .rd => q
    | .ru => q + 1
    | .rz => if q < 0 then q + 1 else q
    | .rn => if 2 * m < 3 * 2 ^ k then q else if 3 * 2 ^ k < 2 * m then q + 1 else if (q + 127) % 2 = 0 then q else q + 1

/-- The scale code of a value (05 R78). -/
def scaleCode (r : RMode) (sat : Bool) (x : FVal) : Nat :=
  let big := if sat then 0xFE else 0xFF
  match x with
  | .nan => 0xFF
  | .inf s => if s then 0xFF else big
  | .fin s m e =>
    if s || m = 0 then 0xFF
    else
      let q := pow2Round r m e
      if q < -127 then 0 else if 127 < q then big else (q + 127).toNat

/-- The exact quotient of two values, as a proxy; the divisor is positive and finite. -/
def quotVal (a b : FVal) : FVal :=
  match a, b with
  | .fin sa ma ea, .fin _ mb eb => if ma = 0 then .fin sa 0 0 else quotProxy ma mb (ea - eb) sa
  | x, _ => x

/-- `CVTS.ue8m0` (08 R152). -/
def ue8m0Val (r : RMode) (sat : Bool) (a b : FVal) : Nat × BitVec 4 :=
  let bad := a.isNan || (match b with
    | .fin s m _ => s || m == 0
    | _ => true)
  let c := if bad then 0xFF else scaleCode r sat (quotVal a b)
  (c, if c = 0xFF then flInv else 0#4)

/-- The exponent operand of `CVTS`, `PACK4` and `UNPACK4`. -/
def jOf (f : LongForm) (t : Thread) : Int := (rd32 f.lit f.sb t).toInt

def cvtsVal (r : RMode) (f : LongForm) (t : Thread) : Nat × BitVec 4 :=
  if f.dty = 1 then ue8m0Val r f.sat (srcVal f.lit 15 f.sa t) (srcVal f.lit 15 f.sb t)
  else
    let enc := TypeSet.e.contains f.dty
    cvt (fmtOf f.dty) r f.sat ((srcVal f.lit f.sty f.sa t).scale (if enc then -(jOf f t) else jOf f t))

def execCvts (r : RMode) (f : LongForm) (s : State) : Host.Outcome State Fault Refusal :=
  .next (fpResult s (.cvts r f) f 2 (cvtsVal r f))

/-- Element i of a packed word, and a packed word of four elements (08 R153). -/
def packBits (ty : Nat) : Nat := (fmtOf ty).width

def pack4Val (f : LongForm) (t : Thread) : Nat × BitVec 4 :=
  let w := packBits f.dty
  (List.range 4).foldl (fun acc i =>
    let x := decodeF (fmtOf f.sty) (codeIn f.sty (t.reg (f.sa.toNat + i)))
    let (c, fl) := cvt (fmtOf f.dty) .rn f.sat (x.scale (-(jOf f t)))
    (acc.1 + c * 2 ^ (w * i), acc.2 ||| fl)) (0, 0#4)

def execPack4 (f : LongForm) (s : State) : Host.Outcome State Fault Refusal :=
  .next (runCore s (.pack4 f) f.g true
    (fun c => dstOk c false f.dst && f.sa.toNat < 0x100 && f.sa.toNat % 4 == 0 && f.sa.toNat + 3 < c.grp.n &&
      srcOk c f.lit false f.sb) fun c =>
    let uni := (List.range 4).all (fun i => c.warp.tag (f.sa.toNat + i) == .uni) && srcUni c false f.sb
    c.result s f.dst f.w (intResult c false uni none fun t => (pack4Val f t).1) fun t => t.flag (pack4Val f t).2)

/-- Element i of `UNPACK4` (08 R154). DESIGN CHOICE (log 94): a floating-point constant as the packed source is converted to
the source type as element 0, the other elements being 0. -/
def unpack4Val (f : LongForm) (i : Nat) (t : Thread) : Nat × BitVec 4 :=
  let w := packBits f.sty
  let word := if isFpConst f.sa then srcCode f.lit f.sty f.sa t else (rd32 f.lit f.sa t).toNat
  cvt (fmtOf f.dty) .rn f.sat ((decodeF (fmtOf f.sty) (word / 2 ^ (w * i) % 2 ^ w)).scale (jOf f t))

def execUnpack4 (f : LongForm) (s : State) : Host.Outcome State Fault Refusal :=
  .next (runCore s (.unpack4 f) f.g true
    (fun c => f.dst.toNat % 4 == 0 && f.dst.toNat + 3 < c.grp.n && srcOk c f.lit false f.sa && srcOk c f.lit false f.sb)
    fun c =>
    let tag := tagOf c (srcUni c false f.sa && srcUni c false f.sb)
    let d := f.dst.toNat
    let rest (t : Thread) : Thread := (List.range 4).foldl (fun u i =>
      (u.setReg (d + i) (BitVec.ofNat 32 (unpack4Val f i t).1)).flag (unpack4Val f i t).2) t
    let s1 := c.result s f.dst false (res32 (fun t => BitVec.ofNat 32 (unpack4Val f 0 t).1) tag) rest
    c.upd s1 fun g => setTags c.warp.num (d + 1) false tag .uni
      (setTags c.warp.num (d + 2) false tag .uni (setTags c.warp.num (d + 3) false tag .uni g)))

/-! ## Special functions (08 R155) -/

def specialOp (s : State) (i : Instr) (f : LongForm) (fn : SpFn) : State :=
  fpResult s i f 1 fun t => special fn (fmtOf f.ty) (BitVec.ofNat 32 (srcCode f.lit f.ty f.sa t))

def execRcp (f : LongForm) (s : State) : Host.Outcome State Fault Refusal := .next (specialOp s (.rcp f) f .rcp)
def execRcpS (f : ShortForm) (s : State) : Host.Outcome State Fault Refusal :=
  .next (specialOp s (.rcpS f) (longOf f 15 0) .rcp)
def execRsq (f : LongForm) (s : State) : Host.Outcome State Fault Refusal := .next (specialOp s (.rsq f) f .rsq)
def execRsqS (f : ShortForm) (s : State) : Host.Outcome State Fault Refusal :=
  .next (specialOp s (.rsqS f) (longOf f 15 0) .rsq)
def execSqrt (f : LongForm) (s : State) : Host.Outcome State Fault Refusal := .next (specialOp s (.sqrt f) f .sqrt)
def execSqrtS (f : ShortForm) (s : State) : Host.Outcome State Fault Refusal :=
  .next (specialOp s (.sqrtS f) (longOf f 15 0) .sqrt)
def execEx2 (f : LongForm) (s : State) : Host.Outcome State Fault Refusal := .next (specialOp s (.ex2 f) f .ex2)
def execLg2 (f : LongForm) (s : State) : Host.Outcome State Fault Refusal := .next (specialOp s (.lg2 f) f .lg2)
def execSin (f : LongForm) (s : State) : Host.Outcome State Fault Refusal := .next (specialOp s (.sin f) f .sin)
def execCos (f : LongForm) (s : State) : Host.Outcome State Fault Refusal := .next (specialOp s (.cos f) f .cos)
def execTanh (f : LongForm) (s : State) : Host.Outcome State Fault Refusal := .next (specialOp s (.tanh f) f .tanh)

end Sys2Proof.Machine
end

