-- ==== Sys2Proof/Machine/CrossLane.lean ====
section
/-! DEFINITION. Cross-lane instructions: sub-groups and participants, shuffles, votes, scans and reductions
(08 R157 to R164, 05 R83). -/

namespace Sys2Proof.Machine

open Sys2Proof

/-- The width of a sub-group, and its first logical lane for a thread (08 R157). -/
def subWidth (wc : Nat) : Nat := 32 / 2 ^ wc
def subBase (w : Nat) (t : Thread) : Nat := t.tid % 32 - t.tid % 32 % w

/-- The thread present for `t` at logical lane `s` (08 R157). -/
def presentAt (c : Ctx) (t : Thread) (s : Nat) : Option Thread :=
  c.act.find? fun u => u.tid / 32 = t.tid / 32 && u.tid % 32 = s

/-- The participants of a thread, in ascending logical lane. -/
def participants (c : Ctx) (wc : Nat) (t : Thread) : List Thread :=
  let w := subWidth wc
  c.act.filter fun u => u.tid / 32 = t.tid / 32 && subBase w u = subBase w t

/-- Whether every thread of the warp has one home warp (08 Table 8.4). -/
def oneHome (c : Ctx) : Bool := (distinct (c.warp.tids.map (· / 32))).length ≤ 1

/-- The lane that `SHFL` reads, if it lies in the sub-group (08 R158). -/
def shflLane (mode w : Nat) (sel : Nat) (t : Thread) : Option Nat :=
  let l := t.tid % 32
  let b := subBase w t
  match mode with
  | 0 => some (b + sel % w)
  | 1 => if sel ≤ l - b then some (l - sel) else none
  | 2 => if l + sel < b + w then some (l + sel) else none
  | _ => some (Nat.xor l (sel % w))

/-- The source thread of a shuffle. -/
def shflFrom (c : Ctx) (f : LongForm) (t : Thread) : Option Thread :=
  (shflLane (f.op % 4) (subWidth f.wc) (rd32 f.lit f.sb t).toNat t).bind (presentAt c t)

def execShfl (f : LongForm) (s : State) : Host.Outcome State Fault Refusal :=
  .next (runCore s (.shfl f) f.g true
    (fun c => dstOk c (wideTy f) f.dst && srcOk c f.lit (wideTy f) f.sa && srcOk c f.lit false f.sb && maskSrcOk f.sc)
    fun c => c.result s f.dst f.w
      (intResult c (wideTy f) (srcUni c (wideTy f) f.sa) none fun t => rdNat f f.ty f.sa ((shflFrom c f t).getD t))
      fun t => t.setMask f.sc.toNat (shflFrom c f t).isSome)

/-- The bit of `VOTE` (08 R159). -/
def voteBit (mode : Nat) (bs : List Bool) : Bool :=
  match mode with
  | 0 => bs.all id
  | 1 => bs.any id
  | _ => bs.all id || bs.all not

def execVote (f : LongForm) (s : State) : Host.Outcome State Fault Refusal :=
  .next (runCore s (.vote f) f.g false (fun _ => maskDstOk f.dst && maskSrcOk f.sa) fun c =>
    c.masks s f.dst.toNat fun t => voteBit (f.op % 4) ((participants c f.wc t).map fun u => u.mask f.sa.toNat))

/-- The tag of a result that is the same in every thread of a full warp of one home warp (08 Table 8.4). DESIGN CHOICE
(log 95): Table 8.4 decides here in place of every row of 06 Table 6.3 but the one for a partial write. -/
def groupUni (c : Ctx) (f : LongForm) : Bool := f.wc == 0 && oneHome c

def execBallot (f : LongForm) (s : State) : Host.Outcome State Fault Refusal :=
  .next (runCore s (.ballot f) f.g true (fun c => dstOk c false f.dst && maskSrcOk f.sa) fun c =>
    c.result s f.dst f.w (intResult c false (groupUni c f) none fun t =>
      (laneMask (((participants c f.wc t).filter fun u => u.mask f.sa.toNat).map (·.tid))).toNat))

def execMatchL (f : LongForm) (s : State) : Host.Outcome State Fault Refusal :=
  .next (runCore s (.matchL f) f.g true (fun c => dstOk c false f.dst && srcOk c f.lit (wideTy f) f.sa) fun c =>
    c.result s f.dst f.w (intResult c false (groupUni c f && srcUni c (wideTy f) f.sa) none fun t =>
      (laneMask (((participants c f.wc t).filter fun u => rdNat f f.ty f.sa u == rdNat f f.ty f.sa t).map (·.tid))).toNat))

def execLfirst (f : LongForm) (s : State) : Host.Outcome State Fault Refusal :=
  .next (runCore s (.lfirst f) f.g true (fun c => dstOk c (wideTy f) f.dst && srcOk c f.lit (wideTy f) f.sa) fun c =>
    c.result s f.dst f.w (intResult c (wideTy f) (groupUni c f) none fun t =>
      rdNat f f.ty f.sa (((participants c f.wc t).head?).getD t)))

/-! ## Scans and reductions (08 R161, 05 R83) -/

/-- A partial combination: its bits and the conditions of the roundings that formed it. -/
abbrev Part := Nat × BitVec 4

def fn2 (fn ty : Nat) (a b : Nat) : Part :=
  if ty = 15 then
    match fn with
    | 0 => cvt fmtF32 .rn false ((decodeF fmtF32 a).add (decodeF fmtF32 b))
    | 1 => minMax fmtF32 false false a b
    | _ => minMax fmtF32 true false a b
  else
    let le := intOf (tySigned ty) 32 a ≤ intOf (tySigned ty) 32 b
    match fn with
    | 0 => ((a + b) % 2 ^ 32, 0#4)
    | 1 => (if le then a else b, 0#4)
    | 2 => (if le then b else a, 0#4)
    | _ => (a ||| b, 0#4)

/-- Two partial combinations joined. -/
def joinParts (fn ty : Nat) (x y : Part) : Part :=
  let (v, fl) := fn2 fn ty x.1 y.1
  (v, x.2 ||| y.2 ||| fl)

/-- The combination of some participants in sequence. -/
def seqFold (fn ty : Nat) : List Part → Option Part
  | [] => none
  | x :: r => some (r.foldl (joinParts fn ty) x)

/-- One level of the balanced tree: an empty block passes its partner through. -/
def pairUp (fn ty : Nat) : List (Option Part) → List (Option Part)
  | some x :: some y :: r => some (joinParts fn ty x y) :: pairUp fn ty r
  | some x :: none :: r => some x :: pairUp fn ty r
  | none :: y :: r => y :: pairUp fn ty r
  | [x] => [x]
  | [] => []

/-- The levels of the tree below a width. -/
def treeFold (fn ty : Nat) : Nat → List (Option Part) → Option Part
  | 0, l => l.head?.join
  | n + 1, l => treeFold fn ty n (pairUp fn ty l)

/-- What a thread with no earlier participant receives from `.excl`. -/
def scanIdentity (fn ty : Nat) : Nat :=
  match fn, ty with
  | 1, 7 => 0x7FFFFFFF
  | 1, 11 => 0xFFFFFFFF
  | 1, _ => 0x7F800000
  | 2, 7 => 0x80000000
  | 2, 11 => 0
  | 2, _ => 0xFF800000
  | _, _ => 0

/-- A participant's own value; a NaN is read as the canonical one, and is invalid (05 R74). -/
def partOf (f : LongForm) (t : Thread) : Part :=
  let v := rdNat f f.ty f.sa t
  if f.ty == 15 && (decodeF fmtF32 v).isNan then (nanCode fmtF32, flInv) else (v, 0#4)

/-- `LSCAN`: through the thread itself, or the participants before it. -/
def lscanVal (c : Ctx) (f : LongForm) (t : Thread) : Part :=
  let before := (participants c f.wc t).filter fun u => if f.op.testBit 5 then u.tid < t.tid else u.tid ≤ t.tid
  (seqFold (f.op % 4) f.ty (before.map (partOf f))).getD (scanIdentity (f.op % 4) f.ty, 0#4)

/-- `LRED`: the balanced tree for a floating-point sum, and the participants in sequence else. -/
def lredVal (c : Ctx) (f : LongForm) (t : Thread) : Part :=
  let ps := participants c f.wc t
  let w := subWidth f.wc
  let r := if f.ty = 15 && f.op % 4 = 0 then
      treeFold 0 15 5 ((List.range w).map fun i => (ps.find? fun u => u.tid % 32 = subBase w t + i).map (partOf f))
    else seqFold (f.op % 4) f.ty (ps.map (partOf f))
  r.getD (0, 0#4)

def execLscan (f : LongForm) (s : State) : Host.Outcome State Fault Refusal :=
  .next (runCore s (.lscan f) f.g true (fun c => dstOk c false f.dst && srcOk c f.lit false f.sa) fun c =>
    c.result s f.dst f.w (intResult c false false none fun t => (lscanVal c f t).1) fun t => t.flag (lscanVal c f t).2)

def execLred (f : LongForm) (s : State) : Host.Outcome State Fault Refusal :=
  .next (runCore s (.lred f) f.g true (fun c => dstOk c false f.dst && srcOk c f.lit false f.sa) fun c =>
    c.result s f.dst f.w (intResult c false (groupUni c f) none fun t => (lredVal c f t).1) fun t => t.flag (lredVal c f t).2)

end Sys2Proof.Machine
end

