-- ==== Sys2Proof/Machine/Lanes.lean ====
section
/-! DEFINITION. What the memory families share: lanes decided before they are performed (12 R222, R224), performing loads
and stores at their places (R225), replies that are owed (R223, 26 R374), counted fabric accesses (26 R382). -/

namespace Sys2Proof.Machine

open Sys2Proof

/-! ## Deciding (12 R222) -/

/-- An access of an active thread: its address, its size, what is decided of it, and the offset of these bytes in the
thread's data (a part of a store that crosses a stripe, R224). -/
structure Lane where
  tid : Nat
  va  : W64
  n   : Nat
  dec : Decision
  off : Nat
  deriving DecidableEq, Repr

def Ctx.decide (c : Ctx) (s : State) (va : W64) (n align : Nat) (a : Acc) : Decision × State :=
  decideAccess s c.core c.ham c.grp.asn va n align a

/-- Decides one access for each listed part of the active threads, in ascending `tid`. -/
def Ctx.decideParts (c : Ctx) (s : State) (parts : List (Nat × W64 × Nat × Nat)) (align : Nat) (a : Acc) :
    List Lane × State :=
  parts.foldl (fun acc p =>
    let (d, s') := c.decide acc.2 p.2.1 p.2.2.1 align a
    (acc.1 ++ [⟨p.1, p.2.1, p.2.2.1, d, p.2.2.2⟩], s')) ([], s)

/-- One access for each active thread. -/
def Ctx.decideLanes (c : Ctx) (s : State) (va : Thread → W64) (n : Thread → Nat) (align : Nat) (a : Acc) :
    List Lane × State :=
  c.decideParts s (c.act.map fun t => (t.tid, va t, n t, 0)) align a

/-- The stripe of the peer aperture that holds a physical address, if one does (26 R377). -/
def stripeOf (fab : Fabric) (p : Nat) : Option Nat := if isPeer p then some ((p - peerBase) / 2 ^ fab.sg) else none

/-- The parts of a store: it is split at a stripe boundary of the peer aperture (12 R224, 26 R378), whatever its page
permits. DEDUCED (log 117): one over two pages crosses a boundary where its first and its last byte do not lie in one stripe. -/
def Ctx.storeParts (c : Ctx) (s : State) (va : Thread → W64) (n : Nat) : List (Nat × W64 × Nat × Nat) :=
  (c.act.map fun t =>
    let phys (i : Nat) : Option Nat := physOf s c.core c.ham c.grp.asn (va t + BitVec.ofNat 64 i)
    match phys 0, phys (n - 1) with
    | some p, some q =>
      let edge := 65536 - (va t).toNat % 65536
      let k := if edge < n then edge else 2 ^ s.fab.sg - (p - peerBase) % 2 ^ s.fab.sg
      if stripeOf s.fab p != stripeOf s.fab q then [(t.tid, va t, k, 0), (t.tid, va t + BitVec.ofNat 64 k, n - k, k)]
      else [(t.tid, va t, n, 0)]
    | _, _ => [(t.tid, va t, n, 0)]).flatten

/-- Whether the bits of an element lie in two stripes of the peer aperture (12 R224): its first and its last byte do. -/
def Ctx.straddles (c : Ctx) (s : State) (l : Lane) : Bool :=
  match physOf s c.core c.ham c.grp.asn l.va, physOf s c.core c.ham c.grp.asn (l.va + BitVec.ofNat 64 (l.n - 1)) with
  | some p, some q => isPeer p && isPeer q && (p - peerBase) / 2 ^ s.fab.sg != (q - peerBase) / 2 ^ s.fab.sg
  | _, _ => false

/-- Cause 0x38 of such an element, behind every cause of 10 Table 10.9 that goes before it. -/
def Ctx.markStraddle (c : Ctx) (s : State) (l : Lane) : Lane :=
  let late : Bool := match l.dec with
    | .ok _ | .waits => true
    | .cls3 cause _ => causeRank 0x38 < causeRank cause
    | .cls4 cause _ => causeRank 0x38 < causeRank cause
  if late && c.straddles s l then { l with dec := .cls4 0x38 l.va } else l

def Lane.places (l : Lane) : Option Places :=
  match l.dec with
  | .ok p => some p
  | _ => none

def Lane.cls4 (l : Lane) : Option (Nat × Nat × W64) :=
  match l.dec with
  | .cls4 cause a => some (l.tid, cause, a)
  | _ => none

def Lane.cls3 (l : Lane) : Option Held3 :=
  match l.dec with
  | .cls3 cause a => some ⟨l.tid, cause, a⟩
  | _ => none

/-- Traps of class 4 of some threads, one for each cause (09 R167). -/
def Ctx.traps4 (c : Ctx) (s : State) (bad : List (Nat × Nat × W64)) : State :=
  (distinct (bad.map fun b => b.2.1)).foldl (fun s cause =>
    c.trap s 4 cause ((bad.filter fun b => b.2.1 = cause).map fun b => (b.1, b.2.2, 0#64))) s

/-- One class 4 condition for each thread. -/
def firstBad (bad : List (Nat × Nat × W64)) : List (Nat × Nat × W64) :=
  (distinct (bad.map (·.1))).filterMap fun t => bad.find? fun b => b.1 = t

/-- Performs an instruction whose accesses are decided: the threads without a condition go on through `go`; a class 3
condition holds its thread, a class 4 condition traps it, class 4 first (12 R222). While a channel is not ready the
instruction issues again (01 R19). -/
def Ctx.perform (c : Ctx) (s : State) (res : Bool) (kind : Nat) (ls : List Lane) (go : Ctx → State → State) : State :=
  if ls.any fun l => l.dec == .waits then s else
  let bad4 := firstBad (ls.filterMap Lane.cls4)
  let bad3 := (ls.filterMap Lane.cls3).filter fun h => !(bad4.any fun b => b.1 = h.tid)
  let c' := c.without (bad4.map (·.1) ++ bad3.map (·.tid))
  let s1 := if c'.act.isEmpty then c'.skip s res else go c' s
  c.traps4 (hold3 s1 c.grp c.cur.pc kind bad3) bad4

/-! ## Ordering (11 R206, R212, R217) -/

/-- An acquire at a scope: from `gang` on it covers (R212). -/
def Ctx.acquire (c : Ctx) (s : State) (scope : Nat) : State :=
  if 3 ≤ scope then coverThreads s c.cur.gid c.actTids else s

def wordsOf (locs : List Nat) : List Nat := distinct (locs.map fun l => l / 4 * 4)

/-- The first `sys` acquire of a marked word (R217). -/
def takeMarks (s : State) (scope : Nat) (locs : List Nat) : State :=
  if scope = 7 then { s with mm := (wordsOf locs).foldl takeMark s.mm } else s

/-- Deferred lines that hold writes which someone picks (11 R217); where nothing says who wrote a line, it counts for
`all`. -/
def linesOf (mm : MemSys) (all : Bool) (src : Past → Option (List Nat)) : List Nat :=
  (deferredLines mm).filter fun l =>
    let rs := mm.past.filter fun r => r.was.any fun x => x.1 / 128 = l
    (all && rs.isEmpty) || rs.any fun r => (src r).isSome

/-- The lines that a write marks its word with: for a release at `sys`, those with writes before it; for every other write,
those with writes before the maker's last fence at `sys` (R217). -/
def markLines (mm : MemSys) (me : Who) (scope : Nat) : List Nat :=
  if scope = 7 then linesOf mm true (·.priorTo me) else linesOf mm false (·.knownBy (fenceAgent me 7))

/-- A write as a release side, and the marks that it makes (R209, R217). -/
def markWrite (s : State) (me : Who) (scope : Nat) (locs : List Nat) (carry : Nat → List Nat := noCarry) : State :=
  let lines := markLines s.mm me scope
  let mm := release s.mm me scope locs carry
  { s with mm := if lines.isEmpty then mm else (wordsOf locs).foldl (fun m w => markWord m w lines) mm }

/-- A write and what it releases. -/
def writeAs (s : State) (w : Writer) (ws : List (Nat × Byte)) (me : Who) (scope : Nat) (carry : Nat → List Nat := noCarry) :
    State :=
  acquireAnswered s (markWrite (applyWrite s w ws) me scope (ws.map (·.1)) carry)

/-! ## Replies that are owed (12 R223, 26 R374) -/

def isRemote (p : Places) : Bool := p.peer || p.locs.any isHostLoc

/-- Whether a reply or an acknowledgement is owed to a thread. -/
def owed (s : State) (gid : Gid) (tid : Nat) : Bool :=
  (s.reqs.any fun r => r.gid = gid && r.lanes.any fun l => l.tid = tid) ||
    s.fab.strels.any fun h => h.gid = gid && h.tid = tid

def buffersHeld (s : State) (gid : Gid) : Nat := (s.reqs.filter fun r => r.gid = gid && r.buf.isSome).length

/-- The lowest reassembly buffer of a group that is free (26 R374, log 105). -/
def freeBuffer (s : State) (gid : Gid) : Option Nat :=
  (List.range 8).find? fun b => s.reqs.all fun r => r.gid != gid || r.buf != some b

/-- What the replies of one instruction have in common. -/
structure ReqForm where
  dst   : Nat
  toReg : Bool
  wide  : Bool
  store : Bool
  kset  : Option Nat

/-- The latest latch of a thread waits for a reply. -/
def dueLatch (id : Nat) (t : Thread) : Thread :=
  { t with latches := match t.latches with
      | some l :: rest => some { l with due := some id } :: rest
      | x => x }

def pushReq (s : State) (gid : Gid) (f : ReqForm) (ls : List ReqLane) (buf : Option Nat) : State :=
  let (id, s') := freshId s
  let s1 := { s' with reqs := s'.reqs ++ [⟨id, gid, ls, f.dst, f.toReg, f.wide, f.store, f.kset, buf, 0⟩] }
  if f.store then s1 else updGroup s1 gid (modThreads (ls.map (·.tid)) (dueLatch id))

/-- The replies of one home warp: a message of two packets holds a buffer while one is free (26 R374). -/
def homeReqs (gid : Gid) (f : ReqForm) (s : State) (ls : List ReqLane) : State :=
  if !f.store && f.wide && 16 < ls.length then
    match freeBuffer s gid with
    | some b => pushReq s gid f ls (some b)
    | none => pushReq (pushReq s gid f (ls.filter fun l => l.tid % 32 < 16) none) gid f
      (ls.filter fun l => 16 ≤ l.tid % 32) none
  else pushReq s gid f ls none

/-- One reply for each home warp. -/
def makeReqs (s : State) (gid : Gid) (f : ReqForm) (ls : List ReqLane) : State :=
  (distinct (ls.map fun l => l.tid / 32)).foldl (fun s hw => homeReqs gid f s (ls.filter fun l => l.tid / 32 = hw)) s

/-- Errors that threads will take before their next instruction (12 R223); those of one reply have one id. -/
def pushErrs (s : State) (gid : Gid) (info : W64) (es : List (Nat × Nat × W64)) : State :=
  if es.isEmpty then s else
  let (id, s') := freshId s
  { s' with errs := s'.errs ++ es.map fun (tid, cause, addr) => ⟨id, gid, tid, cause, addr, info⟩ }

/-- `xinfo` of such an error: the destination register, or 0. -/
def errInfo (f : ReqForm) : W64 := if f.toReg then BitVec.ofNat 64 f.dst else 0#64

/-! ## Loads (12 R225, R226) -/

/-- A load that has been performed: its value and its error. -/
structure Loaded where
  tid    : Nat
  va     : W64
  val    : W64
  err    : Option Nat
  remote : Bool
  deriving DecidableEq, Repr

/-- The error that is found where an access is performed (12 R223, 26 R381). -/
def placeErr (s : State) (p : Places) (bad : Bool) : Option Nat :=
  if unreached s.fab p then some 0x35 else if bad then some 0x37 else none

/-- The same for a read, whose bytes from L1 do not go over the fabric (12 Table 12.3). -/
def readErr (s : State) (p : Places) (r : Read) : Option Nat :=
  let far (l : Nat) : Bool := !r.hit.contains l
  placeErr s { p with locs := p.locs.filter far, via := p.via.filter far } r.bad

/-- The cover stamp of a thread. -/
def coverOf (s : State) (gid : Gid) (tid : Nat) : Nat := ((threadOf s gid tid).map (·.cover)).getD 0

/-- Threads that read together. -/
def Ctx.readers (c : Ctx) (tids : List Nat) : Who :=
  { threadWho c.grp (tids.headD 0) with all := (tids.map (threadAgents c.grp.gid)).flatten }

/-- One read, for the threads `tids`; `key` tells its units apart. -/
def Ctx.loadLane (c : Ctx) (s : State) (scope : Nat) (fill : Bool) (cover : Nat) (conv : Nat → Nat → W64) (key : Nat → Nat)
    (tids : List Nat) (l : Lane) (p : Places) : Loaded × State :=
  let s1 := takeMarks s scope p.locs
  let r := readCore s1 (c.readers tids) c.core cover p.unc fill key p.locs
  let err := readErr s p r
  (⟨l.tid, l.va, if err.isSome then 0#64 else conv l.tid (leNat r.bytes), err, isRemote p⟩,
    acquired r.st c.grp scope r.newest p.locs tids)

/-- Performs the loads of the threads that go on. With `one` they have one address, and one read serves them all, from no
copy older than the last covering event of any of them. -/
def Ctx.loadLanes (c : Ctx) (s : State) (scope : Nat) (fill one : Bool) (conv : Nat → Nat → W64) (ls : List Lane)
    (key : Nat → Nat := byPart) : List Loaded × State :=
  let go := ls.filterMap fun l => if c.actTids.contains l.tid then l.places.map fun p => (l, p) else none
  match go with
  | [] => ([], s)
  | (l, p) :: _ =>
    if one then
      let cover := (c.actTids.map (coverOf s c.cur.gid)).foldl max 0
      let (x, s') := c.loadLane s scope fill cover conv key (go.map (·.1.tid)) l p
      (go.map fun y => { x with tid := y.1.tid }, s')
    else
      go.foldl (fun acc y =>
        let (x, s') := c.loadLane acc.2 scope fill (coverOf acc.2 c.cur.gid y.1.tid) conv key [y.1.tid] y.1 y.2
        (acc.1 ++ [x], s')) ([], s)

/-- Errors of values that are already written, and replies that are owed for the others. -/
def oweLoaded (s : State) (gid : Gid) (f : ReqForm) (xs : List Loaded) : State :=
  let s1 := pushErrs s gid (errInfo f) ((xs.filter fun x => !x.remote).filterMap fun x => x.err.map fun e => (x.tid, e, x.va))
  makeReqs s1 gid f ((xs.filter (·.remote)).map fun x => ⟨x.tid, x.val, x.va, x.err⟩)

def loadedVal (xs : List Loaded) (t : Thread) : W64 := ((xs.find? fun x => x.tid = t.tid).map (·.val)).getD 0#64
def loadedRemote (xs : List Loaded) (t : Thread) : Bool := xs.any fun x => x.tid = t.tid && x.remote

/-- The result of loads: written at once where no reply is owed, the tags at once in any case (06 Table 6.3). -/
def Ctx.loaded (c : Ctx) (s : State) (f : LongForm) (wide uni : Bool) (xs : List Loaded) : State :=
  let tag := tagOf c uni
  let s1 := c.result s f.dst f.w ⟨wide, loadedVal xs, tag, if wide then tag else .uni⟩ id fun t => !loadedRemote xs t
  oweLoaded s1 c.cur.gid ⟨f.dst.toNat, !f.w, wide, false, none⟩ xs

/-! ## Counted fabric accesses (26 R382) -/

/-- The device that a peer access reaches. -/
def targetDev (fab : Fabric) (loc : Nat) : Nat := if 2 ^ 52 ≤ loc then loc / 2 ^ 52 - 1 else fab.did

def arrivedOf (fab : Fabric) (gid : Gid) (dev : Nat) : Nat :=
  ((fab.arrived.find? fun x => x.1 = gid && x.2.1 = dev).map (·.2.2)).getD 0
def setArrived (fab : Fabric) (gid : Gid) (dev n : Nat) : Fabric :=
  { fab with arrived := (fab.arrived.filter fun x => !(x.1 = gid && x.2.1 = dev)) ++ (if n = 0 then [] else [(gid, dev, n)]) }

/-- Counts a fabric store, atomic or `RED`; at 65,535 a marker goes first and the count restarts. -/
def countFab (s : State) (gid : Gid) (dev : Nat) : State :=
  match groupOf s gid with
  | none => s
  | some g =>
    let n := tget 0 g.strel dev
    let a := arrivedOf s.fab gid dev
    let n' := if n = 65535 then 1 else n + 1
    let a' := if n = 65535 then a - 65535 + 1 else a + 1
    updGroup { s with fab := setArrived s.fab gid dev a' } gid fun g => { g with strel := tset 0 g.strel dev n' }

/-- Counts some accesses of one instruction to a device. -/
def countFabs (s : State) (gid : Gid) (dev n : Nat) : State := (List.range n).foldl (fun s _ => countFab s gid dev) s

/-- A single-copy atomic access of a group to peer memory counts once (R382). -/
def countOne (s : State) (gid : Gid) (p : Places) : State :=
  if p.peer then countFab s gid (targetDev s.fab (p.locs.headD 0)) else s

/-- Counts the accesses of one instruction that reach the fabric at some places: one for each eight bytes (log 110). -/
def countPlaces (s : State) (gid : Gid) (p : Places) : State :=
  if p.peer then countFabs s gid (targetDev s.fab (p.locs.headD 0)) (max 1 (p.locs.length / 8)) else s

/-! ## Stores (12 R225, R227) -/

/-- The writer of a thread's store: the bytes of an uncached mapping or of the commons go past L1. -/
def storeWriter (g : Group) (tid : Nat) (p : Places) (en : Table Byte) : Writer :=
  { groupWriter g tid with past := p.unc, en := en }

/-- Performs a store of bytes at a thread's places, with the bits that it enables where not all; the answer is its
error. -/
def Ctx.storeAt (c : Ctx) (s : State) (scope tid : Nat) (p : Places) (b : Bytes) (en : Table Byte := []) :
    Option Nat × State :=
  let s1 := countPlaces s c.cur.gid p
  match placeErr s p false with
  | some e => (some e, s1)
  | none =>
    (none, writeAs s1 (storeWriter c.grp tid p en) (p.locs.zip b) (threadWho c.grp tid) scope)

/-- Performs the decided parts of a store, whichever of a thread's other parts has a condition (12 R224), in ascending
`tid`; peer parts are acknowledged later. `data` gives the bytes of a part and the bits that it enables. DEDUCED (log 116): each
part is a write of its own, so that lanes which only together cover a poisoned granule leave it poisoned (10 R203). -/
def Ctx.storeLanes (c : Ctx) (s : State) (scope : Nat) (data : State → Lane → Places → Bytes × Table Byte)
    (ls : List Lane) : State :=
  let step (acc : List ReqLane × State) (l : Lane) : List ReqLane × State :=
    match l.places with
    | some p =>
      let (b, en) := data acc.2 l p
      let (e, s') := c.storeAt acc.2 scope l.tid p b en
      (if p.peer then acc.1 ++ [⟨l.tid, 0#64, l.va, e⟩] else acc.1, s')
    | none => acc
  let (rs, s1) := ls.foldl step ([], s)
  makeReqs s1 c.cur.gid ⟨0, false, false, true, none⟩ rs

/-- The threads that release at `dom` or `sys` to a peer: they act as a `FENCE` at that scope first (11 R216). DESIGN CHOICE
(log 97): the manual says it of a release store; the model takes a releasing `ATOM`, `RED` and `FSET` for one. -/
def Ctx.peerReleases (c : Ctx) (scope : Nat) (ls : List Lane) : List Nat :=
  if scope < 6 then [] else
  (ls.filter fun l => c.actTids.contains l.tid && (l.places.any (·.peer))).map (·.tid)

/-- Whether such a fence has to wait for acknowledgements. -/
def Ctx.releaseWaits (c : Ctx) (s : State) (scope : Nat) (ls : List Lane) : Bool :=
  (c.peerReleases scope ls).any (owed s c.cur.gid)

/-- What a fence of some threads leaves (R213): from `gang` on they cover, and what went before it is before what follows;
`cross` are the paths that an `XFENCE` names. -/
def fenceThreads (s : State) (g : Group) (scope : Nat) (cross tids : List Nat) : State :=
  let s1 := if 3 ≤ scope && !tids.isEmpty then coverThreads s g.gid tids else s
  { s1 with mm := tids.foldl (fun m t => fenceAt m (threadWho g t) scope cross) s1.mm }

def Ctx.fenceFirst (c : Ctx) (s : State) (scope : Nat) (ls : List Lane) : State :=
  match c.peerReleases scope ls with
  | [] => s
  | tids => fenceThreads s c.grp scope [] tids

end Sys2Proof.Machine
end

