-- ==== Sys2Proof/Machine/MemOps.lean ====
section
/-! DEFINITION. Loads, stores, gathers and scatters, element access, atomics, fences and cache control (12 R226 to R235,
R247 to R251). -/

namespace Sys2Proof.Machine

open Sys2Proof

/-! ## Values -/

def tyBytes (ty : Nat) : Nat := tyBits ty / 8

/-- The register value of loaded bytes (12 R226). -/
def loadVal (ty x : Nat) : W64 :=
  if ty = 5 ∨ ty = 6 then (BitVec.ofInt 32 (intOf true (tyBits ty) x)).setWidth 64 else BitVec.ofNat 64 x

/-- The bits of a data operand; a floating-point type converts a floating-point constant (04 R57). -/
def dataBits (f : LongForm) (t : Thread) : Nat :=
  if isFpConst f.sc && isFloatTy f.ty then srcCode f.lit f.ty f.sc t else rdBits f.lit (wideTy f) f.sc t

/-- The data of each active thread. -/
def Ctx.dataOf (c : Ctx) (v : Thread → Nat) (tid : Nat) : Nat := ((c.act.find? fun t => t.tid = tid).map v).getD 0

/-! ## `LD` and `ST` -/

def execLd (f : LongForm) (s : State) : Host.Outcome State Fault Refusal :=
  .next (runCore s (.ld f) f.g true (fun c => dstOk c (wideTy f) f.dst && addrOk c f) fun c =>
    let (ls, s1) := c.decideLanes s (effAddr f) (fun _ => tyBytes f.ty) 1 .load
    c.perform s1 true 0 ls fun c s =>
      let (xs, s') := c.loadLanes (c.acquire s f.scope) f.scope (f.hint != 3) (addrUni c f) (fun _ => loadVal f.ty) ls
      c.loaded s' f (wideTy f) (addrUni c f) xs)

/-- The bytes of a part of a thread's data. -/
def Ctx.partBytes (c : Ctx) (f : LongForm) (_ : State) (l : Lane) (_ : Places) : Bytes × Table Byte :=
  (((natLe (tyBytes f.ty) (c.dataOf (dataBits f) l.tid)).drop l.off).take l.n, [])

/-- A store whose parts are decided: every part without a condition is performed (12 R222, R224). -/
def Ctx.storeParted (c : Ctx) (s0 s : State) (scope : Nat) (data : State → Lane → Places → Bytes × Table Byte)
    (ls : List Lane) : State :=
  if ls.any fun l => l.dec == .waits then s
  else if c.releaseWaits s scope ls then s0
  else
    let bad4 := firstBad (ls.filterMap Lane.cls4)
    let bad3 := (ls.filterMap Lane.cls3).filter fun h => !(bad4.any fun b => b.1 = h.tid)
    let s1 := (c.without (bad4.map (·.1) ++ bad3.map (·.tid))).done (c.storeLanes (c.fenceFirst s scope ls) scope data ls) id
    c.traps4 (hold3 s1 c.grp c.cur.pc 1 bad3) bad4

/-- `ST` by its fields (12 R227); `STREL` outside the peer aperture acts so. -/
def Ctx.storeForm (c : Ctx) (s : State) (f : LongForm) : State :=
  let (ls, s1) := c.decideParts s (c.storeParts s (effAddr f) (tyBytes f.ty)) 1 .store
  c.storeParted s s1 f.scope (c.partBytes f) ls

def execSt (f : LongForm) (s : State) : Host.Outcome State Fault Refusal :=
  .next (runCore s (.st f) f.g false (fun c => addrOk c f && srcOk c f.lit (wideTy f) f.sc) fun c => c.storeForm s f)

/-! ## `LDG` and `STG` (12 R228 to R231) -/

/-- Writes of `LDG`: a loaded value in its register, `b1` with the register as it stands, the mask bit of a load that is
complete. DEDUCED (log 119): an access that gives an error reply leaves 0 in `b1` also with the destination `_` (12 R223). -/
def ldgThread (c : Ctx) (f : LongForm) (xs : List Loaded) (t : Thread) : Thread :=
  if c.actTids.contains t.tid then
    match xs.find? fun x => x.tid = t.tid with
    | some x =>
      let l : Latch := ⟨lo32 x.val, if wideTy f then hi32 x.val else 0#32, .gen, if wideTy f then .gen else .uni, none⟩
      let t1 := pushLatch (some l) t
      let t2 := if f.w || x.remote then t1 else t1.write f.dst.toNat (wideTy f) x.val
      { (if x.err.isSome || x.remote then t2 else t2.setMask f.sc.toNat true) with pc := c.cur.next }
    | none =>
      let d := f.dst.toNat
      let l : Latch := ⟨t.reg d, if wideTy f then t.reg (d + 1) else 0#32, .gen, if wideTy f then .gen else .uni, none⟩
      { pushLatch (if f.w then none else some l) t with pc := c.cur.next }
  else { pushLatch none t with pc := c.cur.next }

def Ctx.ldgWrite (c : Ctx) (s : State) (f : LongForm) (xs : List Loaded) : State :=
  c.upd s fun g =>
    let g1 := { g with threads := modAll (fun t => c.setTids.contains t.tid) (ldgThread c f xs) g.threads }
    if f.w || xs.isEmpty then g1 else setTags c.warp.num f.dst.toNat (wideTy f) .gen .gen g1

def execLdg (f : LongForm) (s : State) : Host.Outcome State Fault Refusal :=
  .next (runCore s (.ldg f) f.g true
    (fun c => dstOk c (wideTy f) f.dst && addrOk c f && maskSrcOk f.sc && f.sc != 0#9) fun c =>
    let todo := { c with act := c.act.filter fun t => !t.mask f.sc.toNat }
    let (ls, s1) := todo.decideLanes s (effAddr f) (fun _ => tyBytes f.ty) 1 .load
    if ls.any fun l => l.dec == .waits then s1 else
    let bad4 := firstBad (ls.filterMap Lane.cls4)
    let bad3 := ls.filterMap Lane.cls3
    let go := todo.without (bad4.map (·.1) ++ bad3.map (·.tid))
    let (xs, s2) := go.loadLanes (go.acquire s1 f.scope) f.scope (f.hint != 3) false (fun _ => loadVal f.ty) ls
    let s3 := (c.without (bad4.map (·.1))).ldgWrite s2 f xs
    let s4 := oweLoaded s3 c.cur.gid ⟨f.dst.toNat, !f.w, wideTy f, false, some f.sc.toNat⟩ xs
    c.traps4 (record3 s4 c.grp c.cur.pc 0 true bad3).2 bad4)

def execStg (f : LongForm) (s : State) : Host.Outcome State Fault Refusal :=
  .next (runCore s (.stg f) f.g false
    (fun c => maskDstOk f.dst && f.dst != 0#8 && addrOk c f && srcOk c f.lit (wideTy f) f.sc) fun c =>
    let todo := { c with act := c.act.filter fun t => !t.mask f.dst.toNat }
    let (ls, s1) := todo.decideParts s (todo.storeParts s (effAddr f) (tyBytes f.ty)) 1 .store
    if ls.any fun l => l.dec == .waits then s1
    else if c.releaseWaits s1 f.scope ls then s else
    let bad4 := firstBad (ls.filterMap Lane.cls4)
    let bad3 := (ls.filterMap Lane.cls3).filter fun h => !(bad4.any fun b => b.1 = h.tid)
    let s2 := todo.storeLanes (todo.fenceFirst s1 f.scope ls) f.scope (todo.partBytes f) ls
    let set (t : Thread) : Thread :=
      if (todo.actTids.contains t.tid) && !(bad3.any fun h => h.tid = t.tid) then t.setMask f.dst.toNat true else t
    let s3 := (c.without (bad4.map (·.1))).done s2 set
    c.traps4 (record3 s3 c.grp c.cur.pc 1 true bad3).2 bad4)

/-! ## Elements (12 R232, R233) -/

/-- Where an element lies: its first byte, the bytes that it touches, the bit in them. -/
structure Elem where
  va : W64
  n  : Nat
  sh : Nat
  deriving DecidableEq, Repr

def elemBits (ty : Nat) : Nat := tyBits ty

def elemAt (ty : Nat) (base : W64) (i : Int) : Elem :=
  match elemBits ty with
  | 8 => ⟨base + BitVec.ofInt 64 i, 1, 0⟩
  | 4 => ⟨base + BitVec.ofInt 64 (i / 2), 1, 4 * (i % 2).toNat⟩
  | _ =>
    let b := 6 * (i % 4).toNat
    ⟨base + BitVec.ofInt 64 (3 * (i / 4) + (b / 8 : Nat)), if 8 < b % 8 + 6 then 2 else 1, b % 8⟩

/-- The element index in `sb`. -/
def elemIndex (f : LongForm) (t : Thread) : Int :=
  if isIntConst f.sb then (rd64 f.lit f.sb t).toInt else ((rd32 f.lit f.sb t).toNat : Int)

def elemOf (f : LongForm) (t : Thread) : Elem := elemAt f.ty (rd64 f.lit f.sa t) (elemIndex f t)

/-- The element of each active thread. -/
def Ctx.elem (c : Ctx) (f : LongForm) (tid : Nat) : Elem := ((c.act.find? fun t => t.tid = tid).map (elemOf f)).getD ⟨0#64, 1, 0⟩

/-- A lane whose element lies in two lines: it is read at the homes of both, under both locks (12 R233). -/
def overLines (l : Lane) : Lane :=
  match l.dec with
  | .ok p => if (distinct (p.locs.map (· / 128))).length < 2 then l else { l with dec := .ok { p with unc := p.locs } }
  | _ => l

def execLde (f : LongForm) (s : State) : Host.Outcome State Fault Refusal :=
  .next (runCore s (.lde f) f.g true (fun c => dstOk c false f.dst && addrOk c f) fun c =>
    let (ls0, s1) := c.decideLanes s (fun t => (elemOf f t).va) (fun t => (elemOf f t).n) 1 .load
    let ls := ls0.map (c.markStraddle s)
    c.perform s1 true 0 ls fun c s =>
      let conv (tid x : Nat) : W64 := BitVec.ofNat 64 (x / 2 ^ (c.elem f tid).sh % 2 ^ elemBits f.ty)
      let go := (ls.filter fun l => c.actTids.contains l.tid).map overLines
      let two := (go.filterMap fun l => l.places.map fun p => if p.locs == p.unc then p.locs else []).flatten
      let s1 := c.acquire { s with mm := dropL1 s.mm c.core two } f.scope
      let (xs, s') := c.loadLanes s1 f.scope (f.hint != 3) false conv go (fun _ => 0)
      c.loaded s' f false false xs)

/-- The bytes of an element's places with the element written and every other bit kept (10 R195). -/
def mergeElem (old sh w v n : Nat) : Bytes :=
  let m := (2 ^ w - 1) * 2 ^ sh
  natLe n (old - (old &&& m) + v % 2 ^ w * 2 ^ sh)

/-- The bits of an element in each byte of its places. -/
def elemEnables (locs : List Nat) (sh w : Nat) : Table Byte := locs.zip (natLe locs.length ((2 ^ w - 1) * 2 ^ sh))

def execSte (f : LongForm) (s : State) : Host.Outcome State Fault Refusal :=
  .next (runCore s (.ste f) f.g false (fun c => addrOk c f && srcOk c f.lit false f.sc) fun c =>
    let (ls0, s1) := c.decideLanes s (fun t => (elemOf f t).va) (fun t => (elemOf f t).n) 1 .store
    let ls := ls0.map (c.markStraddle s)
    let data (s : State) (l : Lane) (p : Places) : Bytes × Table Byte :=
      (mergeElem (leNat (p.locs.map (homeByte s.mm))) (c.elem f l.tid).sh (elemBits f.ty) (c.dataOf (dataBits f) l.tid) l.n,
        elemEnables p.locs (c.elem f l.tid).sh (elemBits f.ty))
    c.storeParted s s1 f.scope data ls)

/-! ## Atomics (12 R234, R235, 05 R84) -/

/-- The new value of an atomic operation (12 Table 12.4): the old value, the operand b and the comparand e. -/
def rmw (op : AtomOp) (ty old b e : Nat) : Nat :=
  let le := intOf (tySigned ty) (tyBits ty) old ≤ intOf (tySigned ty) (tyBits ty) b
  match op with
  | .add => (old + b) % 2 ^ tyBits ty
  | .min => if le then old else b
  | .max => if le then b else old
  | .and => old &&& b
  | .or => old ||| b
  | .xor => Nat.xor old b
  | .exch => b
  | .cas => if old = e then b else old
  | .incw => if b ≤ old then 0 else old + 1
  | .decw => if old = 0 ∨ b < old then b else old - 1
  | .fadd => (addF32 (BitVec.ofNat 32 old) (BitVec.ofNat 32 b)).toNat

/-- An operand of a set: its thread, b and e. -/
abbrev AtomArg := Nat × Nat × Nat

/-- A set applied lane after lane: each lane's old value, and the value left. -/
def atomSeq (op : AtomOp) (ty : Nat) : Nat → List AtomArg → List (Nat × Nat) × Nat
  | m, [] => ([], m)
  | m, (tid, b, e) :: r =>
    let (olds, m') := atomSeq op ty (rmw op ty m b e) r
    ((tid, m) :: olds, m')

/-- A set of `fadd`: the operands are summed first, and the one sum is added to memory (05 R84). -/
def atomSum (m : W32) : W32 → List AtomArg → List (Nat × Nat) × W32
  | acc, [] => ([], addF32 m acc)
  | acc, (tid, b, _) :: r =>
    let (olds, m') := atomSum m (addF32 acc (BitVec.ofNat 32 b)) r
    ((tid, (addF32 m acc).toNat) :: olds, m')

def atomSet (op : AtomOp) (ty m : Nat) (args : List AtomArg) : List (Nat × Nat) × Nat :=
  match op, args with
  | .fadd, (tid, b, _) :: r =>
    let (olds, m') := atomSum (BitVec.ofNat 32 m) (BitVec.ofNat 32 b) r
    ((tid, m) :: olds, m'.toNat)
  | _, _ => atomSeq op ty m args

/-- Performs one set at its place. -/
def Ctx.atomPlace (c : Ctx) (s : State) (op : AtomOp) (ty scope : Nat) (acq : Bool) (va : W64) (p : Places)
    (args : List AtomArg) : List Loaded × State :=
  let n := tyBytes ty
  let s0 := countPlaces s c.cur.gid p
  let s1 := if acq then takeMarks s0 scope p.locs else s0
  let r := readHome s1 p.locs
  match placeErr s p r.bad with
  | some e => (args.map fun a => ⟨a.1, va, 0#64, some e, isRemote p⟩, s1)
  | none =>
    let (olds, m) := atomSet op ty (leNat r.bytes) args
    let tid := (args.getLast?.map (·.1)).getD 0
    let tids := args.map (·.1)
    let s2 := if acq then acquired s1 c.grp scope true p.locs tids else s1
    let s3 := applyWrite s2 { groupWriter c.grp tid with core := none, rmw := true } (p.locs.zip (natLe n m))
    let s4 := tids.foldl (fun s t => markWrite s (threadWho c.grp t) scope p.locs) { s3 with mm := dropL1 s3.mm c.core p.locs }
    (olds.map fun (t, v) => ⟨t, va, BitVec.ofNat 64 v, none, isRemote p⟩, acquireAnswered s2 s4)

/-- Performs the atomics of the threads that go on: sets of one home warp and one address, in ascending home warp. -/
def Ctx.atomLanes (c : Ctx) (s : State) (op : AtomOp) (ty scope : Nat) (acq : Bool) (arg : Nat → Nat × Nat)
    (ls : List Lane) : List Loaded × State :=
  let mine := ls.filter fun l => c.actTids.contains l.tid
  (distinct (mine.map fun l => (l.tid / 32, l.va))).foldl (fun acc k =>
    let set := mine.filter fun l => l.tid / 32 = k.1 && l.va = k.2
    match set.head?.bind Lane.places with
    | some p =>
      let (xs, s') := c.atomPlace acc.2 op ty scope acq k.2 p (set.map fun l => (l.tid, arg l.tid))
      (acc.1 ++ xs, s')
    | none => acc) ([], s)

def execAtom (op : AtomOp) (f : LongForm) (s : State) : Host.Outcome State Fault Refusal :=
  .next (runCore s (.atom op f) f.g true
    (fun c => dstOk c (wideTy f) f.dst && addrOk c f && srcOk c f.lit (wideTy f) f.sc) fun c =>
    let (ls, s1) := c.decideLanes s (effAddr f) (fun _ => tyBytes f.ty) (tyBytes f.ty) .store
    if c.releaseWaits s1 f.scope ls then s else
    c.perform s1 true 1 ls fun c s0 =>
      let s := c.fenceFirst s0 f.scope ls
      let d := f.dst.toNat
      let e (t : Thread) : Nat := if wideTy f then (join64 (t.reg d) (t.reg (d + 1))).toNat else (t.reg d).toNat
      let (xs, s') := c.atomLanes (c.acquire s f.scope) op f.ty f.scope true
        (fun tid => (c.dataOf (dataBits f) tid, c.dataOf e tid)) ls
      c.loaded s' f (wideTy f) false xs)

def RedOp.atom : RedOp → AtomOp
  | .add => .add
  | .min => .min
  | .max => .max
  | .and => .and
  | .or => .or
  | .xor => .xor
  | .fadd => .fadd

def execRed (op : RedOp) (f : LongForm) (s : State) : Host.Outcome State Fault Refusal :=
  .next (runCore s (.red op f) f.g false (fun c => addrOk c f && srcOk c f.lit (wideTy f) f.sc) fun c =>
    let (ls, s1) := c.decideLanes s (effAddr f) (fun _ => tyBytes f.ty) (tyBytes f.ty) .store
    if c.releaseWaits s1 f.scope ls then s else
    c.perform s1 false 1 ls fun c s0 =>
      let s := c.fenceFirst s0 f.scope ls
      let (xs, s') := c.atomLanes s (RedOp.atom op) f.ty f.scope false (fun tid => (c.dataOf (dataBits f) tid, 0)) ls
      let s2 := c.done s' id
      oweLoaded s2 c.cur.gid ⟨0, false, false, true, none⟩
        (xs.filter fun x => x.err.isSome || x.remote))

/-! ## Fences (11 R213, 12 R247) -/

/-- The scope of a fence: code 0 is `dev`. -/
def fenceScope (f : LongForm) : Nat := if f.scope = 0 then 5 else f.scope

/-- A fence: at `dom` and `sys` it issues again until every fabric access of its threads is acknowledged; from `gang` on
it covers; at `sys` later writes of the threads mark their words (11 R217). -/
def Ctx.fence (c : Ctx) (s : State) (scope : Nat) : State :=
  if 6 ≤ scope && c.act.any fun t => owed s c.cur.gid t.tid then s else
  c.done (fenceThreads s c.grp scope [] c.actTids) id

def execFence (f : LongForm) (s : State) : Host.Outcome State Fault Refusal :=
  .next (runCore s (.fence f) f.g false (fun _ => true) fun c => c.fence s (fenceScope f))

/-- A fence that names two paths: it admits the chains from a write on one of them to a read on the other that pass through it
(11 R211, R213). -/
def Ctx.crossFence (c : Ctx) (s : State) (scope : Nat) (qs : List Nat) : State :=
  if 6 ≤ scope && c.act.any fun t => owed s c.cur.gid t.tid then s else
  c.done (fenceThreads s c.grp scope qs c.actTids) id

/-- The access class that a constant code names (12 R247). -/
def pathCode (code : BitVec 9) : Option Nat :=
  if 0x110 ≤ code.toNat && code.toNat ≤ 0x114 then some (code.toNat - 0x110) else none

def execXfence (f : LongForm) (s : State) : Host.Outcome State Fault Refusal :=
  .next (runCore s (.xfence f) f.g false
    (fun _ => (pathCode f.sa).isSome && (pathCode f.sb).isSome && pathCode f.sa != pathCode f.sb)
    fun c => c.crossFence s (fenceScope f) [(pathCode f.sa).getD 0, (pathCode f.sb).getD 0])

/-! ## Cache control (12 R248 to R251) -/

/-- The pieces of a range, one for each 64 KiB page. -/
def rangePieces : Nat → W64 → Nat → List (W64 × Nat)
  | 0, _, _ => []
  | fuel + 1, va, n =>
    if n = 0 then [] else
    let k := min n (65536 - va.toNat % 65536)
    (va, k) :: rangePieces fuel (va + BitVec.ofNat 64 k) (n - k)

/-- The lines of `n` bytes from a physical address on, as addresses. -/
def linesFrom (p n : Nat) : List Nat :=
  (List.range ((p + n - 1) / 128 - p / 128 + 1)).map fun i => (p / 128 + i) * 128

/-- The lines of a piece within one page: their places, or the cause and the lowest byte that meets it. -/
def linePiece (s : State) (c : Ctx) (va : W64) (n : Nat) : Except (Nat × W64) (List Nat × Bool) × State :=
  match translate s c.core c.ham c.grp.asn va n .load with
  | .error e => (.error (e, va), s)
  | .ok (p, unc, s') =>
    let at_ (l : Nat) : W64 := if l ≤ p then va else va + BitVec.ofNat 64 (l - p)
    let ls := linesFrom p n
    match ls.find? fun l => (locOf s.fab (max l p)).isNone with
    | some l => (.error (0x35, at_ l), s')
    | none =>
      let locs := ls.map fun l => (locOf s.fab (max l p)).getD 0 / 128 * 128
      match (ls.zip locs).find? fun x => windowBusy s.mm x.2 with
      | some x => (.error (0x21, at_ x.1), s')
      | none => (.ok (locs, unc), s')

/-- Decides the range of `CFLUSH` by 12 R222; a walk that meets a channel which is not ready holds it (01 R19). -/
def decideRange (s : State) (c : Ctx) (va : W64) (n : Nat) : Decision × State :=
  let (rs, s') := (rangePieces (n / 65536 + 2) va n).foldl (fun acc pc =>
    let (r, s') := linePiece acc.2 c pc.1 pc.2
    (acc.1 ++ [r], s')) ([], s)
  let errs := rs.filterMap fun r => match r with
    | .error e => some e
    | .ok _ => none
  let locs := (rs.filterMap fun r => match r with
    | .ok p => some p.1
    | .error _ => none).flatten
  match firstCause (errs.filter fun e => !isCls3 e.1 && e.1 != notReady) with
  | some (e, v) => (.cls4 e v, s')
  | none =>
    if errs.any fun e => e.1 = notReady then (.waits, s') else
    match firstCause errs with
    | some (e, v) => (.cls3 e v, s')
    | none => if locs.any (channelWaits s.host) then (.waits, s') else (.ok ⟨locs, [], false, []⟩, s')

/-- The length operand. -/
def rangeLen (f : LongForm) (t : Thread) : Nat := (rd32 f.lit f.sc t).toNat

def execCflush (f : LongForm) (s : State) : Host.Outcome State Fault Refusal :=
  .next (runCore s (.cflush f) f.g false (fun c => addrOk c f && srcOk c f.lit false f.sc) fun c =>
    let (ls, s1) := c.act.foldl (fun (acc : List Lane × State) t =>
      let (d, s') := decideRange acc.2 c (effAddr f t) (rangeLen f t)
      (acc.1 ++ [⟨t.tid, effAddr f t, rangeLen f t, d, 0⟩], s')) ([], s)
    c.perform s1 false 0 ls fun c s =>
      let locs := ((ls.filter fun l => c.actTids.contains l.tid).filterMap fun l => l.places.map (·.locs)).flatten
      let mm := (distinct ((locs.filter isHostLoc).map (· / 128))).foldl writeBackLine s.mm
      let clean := mm.writers.filter fun x => !(locs.any fun l => l / 128 == x.1)
      c.done { s with mm := dropL1 { mm with writers := clean } c.core locs } id)

/-- The lines of the pages of a range that translate, in the active threads; none while a walk is held at its home, by a
channel that is not ready or by a window that is being disabled (01 R19, 10 R194). -/
def Ctx.rangeLines (c : Ctx) (s : State) (f : LongForm) : Option (List Nat) :=
  let pieces := (c.act.map fun t => rangePieces (rangeLen f t / 65536 + 2) (effAddr f t) (rangeLen f t)).flatten
  let res := pieces.map fun pc => (physRes s c.core c.ham c.grp.asn pc.1, pc.2)
  let held := res.any fun (r, _) => match r with
    | .error e => e = notReady || e = 0x21
    | .ok _ => false
  if held then none else some (res.map fun (r, n) => match r with
    | .ok p => (linesFrom p n).filterMap fun l => locOf s.fab (max l p)
    | .error _ => []).flatten

def execCinv (f : LongForm) (s : State) : Host.Outcome State Fault Refusal :=
  .next (runCore s (.cinv f) f.g false (fun c => addrOk c f && srcOk c f.lit false f.sc) fun c =>
    match c.rangeLines s f with
    | none => s
    | some locs =>
      let in_ (r : Past) : Bool := r.was.any fun x => locs.any fun l => l / 128 == x.1 / 128
      c.done { s with mm := coverPast (dropL1 s.mm c.core locs) c.cur.gid c.actTids in_ } id)

/-- Drops instruction-cache lines that hold a physical line, on every core (12 R250, 10 R200). -/
def dropCode (mm : MemSys) (locs : List Nat) : MemSys :=
  { mm with icache := mm.icache.filter fun l => !(locs.any fun x => x / 128 == l.line / 2) }

def execCinvCode (f : LongForm) (s : State) : Host.Outcome State Fault Refusal :=
  .next (runCore s (.cinvCode f) f.g false (fun c => addrOk c f && srcOk c f.lit false f.sc) fun c =>
    match c.rangeLines s f with
    | none => s
    | some locs => c.done { s with mm := dropCode (dropL1 s.mm c.core locs) locs } id)

/-- A line brought into a core's L1; a copy that is there stays. -/
def prefLine (s : State) (c line : Nat) : State :=
  if s.mm.l1.any fun l => l.core = c && l.line = line then s else fillLine s c line

def execPref (f : LongForm) (s : State) : Host.Outcome State Fault Refusal :=
  .next (runCore s (.pref f) f.g false (fun c => addrOk c f) fun c =>
    if f.hint = 3 then c.done s id else
    let s1 := c.act.foldl (fun s t =>
      match c.decide s (effAddr f t) 1 1 .load with
      | (.ok p, s') =>
        if !p.unc.isEmpty || p.locs.any (poisoned s') then s' else prefLine s' c.core (p.locs.headD 0 / 128)
      | (_, s') => s') s
    c.done s1 id)

end Sys2Proof.Machine
end

