-- ==== Sys2Proof/Machine/WaitOps.lean ====
section
/-! DEFINITION. Waiting on words and futures, mailboxes, and the replies and errors that arrive later (12 R223, R236 to R246,
09 R182, R183, 18 R310, R316). -/

namespace Sys2Proof.Machine

open Sys2Proof

/-! ## Ownership records as a waiter reads them (18 R308, R310, R316) -/

/-- An ownership record (18 Tables 18.1, 18.2). -/
structure Rec where
  otag : Nat
  ost  : Nat
  oref : W64
  deriving DecidableEq, Repr

def Rec.state (r : Rec) : Nat := bits r.ost 0 4
def Rec.grp (r : Rec) : Nat := bits r.ost 8 4
def Rec.die (r : Rec) : Nat := bits r.ost 13 3
def Rec.queue (r : Rec) : Nat := bits r.ost 16 6
def Rec.cause (r : Rec) : Nat := bits r.ost 24 8
def Rec.reservedBits (r : Rec) : Bool := 8 ≤ r.state || bits r.ost 4 4 != 0 || bit r.ost 12 || bits r.ost 22 2 != 0

def recOfBytes (b : Bytes) : Rec := ⟨field b 0 4, field b 4 4, f64 b 8⟩

/-- What reading a record finds: it, a fault or an error reply (26 R381), or a channel that holds the access (01 R19). -/
inductive RecRead where
  | ok (r : Rec)
  | fault
  | waits
  deriving DecidableEq, Repr

/-- The record at an address in a group's address space. -/
def readRec (s : State) (g : Group) (va : W64) : RecRead × State :=
  let c := coreOf g
  match decideAccess s c (c / 8) g.asn va 16 16 .load with
  | (.ok p, s') =>
    (if unreached s'.fab p || p.locs.any (poisoned s') then .fault
      else .ok (recOfBytes (p.locs.map (homeByte s'.mm))), s')
  | (.waits, s') => (.waits, s')
  | (_, s') => (.fault, s')

/-- The cause of an owner that has failed, if the record found by a negative acknowledgement says so (18 R316). -/
def failedOwner (s : State) (g : Group) (orec : Option W64) : Option Nat × State :=
  match orec with
  | none => (none, s)
  | some va =>
    match readRec s g va with
    | (.ok r, s') => (if r.state = 7 && !r.reservedBits then some r.cause else none, s')
    | (_, s') => (none, s')

/-- The record that the owner directory of a word names (18 R310, R312). -/
def directoryRec (mm : MemSys) (loc : Nat) : Option W64 := (mm.owners.find? fun e => e.1 = loc).map (·.2.1)

/-- The record address in the `own` field of a future's state word (18 R310). -/
def futureRec (st : Nat) : Option W64 :=
  let own := bits st 0 53
  if own = 0 then none else
  let a := own * 16
  some (BitVec.ofNat 64 (if bit a 56 then a + (2 ^ 64 - 2 ^ 57) else a))

/-! ## Completing a wait -/

/-- The result of a wait: the register, whether it is written, its width and its value. -/
structure WaitRes where
  dst   : Nat
  toReg : Bool
  wide  : Bool
  val   : W64

/-- The name of the instruction whose result a waiting thread is to receive. -/
def Wait.inst : Wait → Option Nat
  | .monitor m => some m.inst
  | .future f => some f.inst
  | .mailbox m => some m.since
  | _ => none

/-- The latch entry that a waiting instruction has pushed receives its result, unless it has been emptied since (06 R96,
log 96). -/
def fillLatch (l : Latch) (t : Thread) : Thread :=
  match t.wait.inst, t.latches with
  | some i, some h :: rest => if h.due = some i then { t with latches := some l :: rest } else t
  | _, _ => t

/-- A thread that a reply lets go on: its result, tagged `gen`, in its register and in its latch entry. -/
def endWait (n : Nat) (r : WaitRes) (t : Thread) : Thread :=
  let l : Latch := ⟨lo32 r.val, if r.wide then hi32 r.val else 0#32, .gen, if r.wide then .gen else .uni, none⟩
  let t1 := fillLatch l t
  let t2 := if r.toReg && r.dst < n then t1.write r.dst r.wide r.val else t1
  { t2 with wait := .run, pc := t.wnext }

/-- Marks a register `gen` in the warp that holds a thread. -/
def genTag (tid d : Nat) (wide : Bool) (g : Group) : Group :=
  { g with warps := modAll (fun w => w.tids.contains tid) (fun w =>
      { w with tags :=
          let t1 := tset Tag.uni w.tags d .gen
          if wide then tset Tag.uni t1 (d + 1) .gen else t1 }) g.warps }

/-- Completes a thread's wait, with `f` done to the thread: an acquire at the scope, the result, and, for a saved group,
its deposit (09 R182, 12 R237, R241). The core's L1 copies of what was read at its home go, so that no later read of the
thread is older (11 R210). -/
def completeWait (s : State) (g : Group) (tid scope : Nat) (locs : List Nat) (r : WaitRes) (f : Thread → Thread) : State :=
  let s0 := takeMarks s scope locs
  let s1 := if onCore g then { s0 with mm := dropL1 s0.mm (coreOf g) locs } else s0
  let s2 := updGroup s1 g.gid fun x =>
    let x1 := modThreads [tid] (fun t => f (endWait x.n r t)) x
    if r.toReg && r.dst < x.n then genTag tid r.dst r.wide x1 else x1
  let s3 := if 3 ≤ scope then coverThreads s2 g.gid [tid] else s2
  if onCore g || !r.toReg then s3 else
  let s4 := depositRow s3 g tid r.dst (lo32 r.val)
  if r.wide then depositRow s4 g tid (r.dst + 1) (hi32 r.val) else s4

/-- The first failed deposit of a save (09 R183): `eaddr`, `emask`, `einfo`. -/
def derrOf (old : Option (W64 × W32 × W32)) (dst : Nat) (es : List (Nat × Nat × W64)) : Option (W64 × W32 × W32) :=
  match old, es with
  | some e, _ => some e
  | none, [] => none
  | none, (tid, cause, addr) :: _ =>
    some (addr, laneMask (es.map (·.1)), BitVec.ofNat 32 (cause + tid / 32 * 2 ^ 8 + dst * 2 ^ 16))

/-- Writes the fields of a failed deposit into the header (09 Table 9.5). -/
def putDerr (s : State) (g : Group) : State :=
  match g.derr with
  | none => s
  | some e => areaPut (areaPut s g 0 (natLe 1 (1 + g.full.toNat * 2 + 4 + (growReq g).isSome.toNat * 8))) g 0x68
      (le64 e.1 ++ le32 e.2.1 ++ le32 e.2.2)

/-- Completes a wait with an error (12 R223): the destination receives 0, and the error is raised before the thread's next
instruction, or becomes the failed deposit of a saved group. -/
def waitError (s : State) (g : Group) (tid scope : Nat) (r : WaitRes) (f : Thread → Thread) (cause : Nat) (va : W64) :
    State :=
  let s1 := completeWait s g tid scope [] { r with val := 0#64 } f
  if onCore g then
    let (id, s2) := freshId s1
    { s2 with errs := s2.errs ++ [⟨id, g.gid, tid, cause, va, if r.toReg then BitVec.ofNat 64 r.dst else 0#64⟩] }
  else
    let s2 := updGroup s1 g.gid fun x => { x with derr := derrOf x.derr r.dst [(tid, cause, va)] }
    match groupOf s2 g.gid with
    | some x => putDerr s2 x
    | none => s2

/-! ## Monitors and deferrals at a home (12 R237, R241) -/

/-- The home that holds the monitors and deferrals of a location: a slice, or a commons. -/
def homeOf (loc : Nat) : Bool × Nat :=
  if isCommonsLoc loc then (true, (loc - commonsBase) / Config.commonsBytes)
  else if isHostLoc loc then (false, homeSlice loc)
  else (false, 16 * homeDie loc + homeSlice loc)

def monitorCap (loc : Nat) : Nat := if isCommonsLoc loc then 64 else 1024
def deferCap (loc : Nat) : Nat := if isCommonsLoc loc then 64 else 512

/-- A monitor is shared by the lanes of one home warp of one `WAITC` that name the same word and comparand. -/
abbrev MonKey := Gid × Nat × Nat × Nat × W64

def monKey (gid : Gid) (tid : Nat) (m : MonWait) : MonKey := (gid, tid / 32, m.inst, m.loc, m.cmp)

def monKeysAt (s : State) (h : Bool × Nat) : List MonKey :=
  distinct ((s.groups.map fun g => g.threads.filterMap fun t => match t.wait with
    | .monitor m => if m.placed && m.hit.isNone && homeOf m.loc = h then some (monKey g.gid t.tid m) else none
    | _ => none).flatten)

/-- Whether a home has a monitor for a wait; a peer location has none. -/
def monitorFits (s : State) (gid : Gid) (tid : Nat) (m : MonWait) : Bool :=
  let keys := monKeysAt s (homeOf m.loc)
  !m.peer && (keys.contains (monKey gid tid m) || keys.length < monitorCap m.loc)

/-- A deferral is shared by the lanes of one home warp of one `FLD`. -/
abbrev DefKey := Gid × Nat × Nat × Nat

def defKey (gid : Gid) (tid : Nat) (f : FutWait) : DefKey := (gid, tid / 32, f.inst, f.loc)

def defKeysAt (s : State) (h : Bool × Nat) : List DefKey :=
  distinct ((s.groups.map fun g => g.threads.filterMap fun t => match t.wait with
    | .future f => if f.placed && f.hit.isNone && homeOf f.loc = h then some (defKey g.gid t.tid f) else none
    | _ => none).flatten)

/-- Whether a home has a deferral; host and peer locations have none. -/
def deferFits (s : State) (gid : Gid) (tid : Nat) (f : FutWait) : Bool :=
  let keys := defKeysAt s (homeOf f.loc)
  !f.peer && !isHostLoc f.loc && (keys.contains (defKey gid tid f) || keys.length < deferCap f.loc)

/-! ## `WAITC` (12 R236, R237) -/

/-- The condition in `sb`. -/
def waitCc (f : LongForm) : Nat := f.sb.toNat - 0x110

def waitCcOk (f : LongForm) : Bool :=
  0x110 ≤ f.sb.toNat && f.sb.toNat ≤ 0x115 && (!TypeSet.b.contains f.ty || waitCc f ≤ 1)

/-- Scope code 0 of an acquire or release that has a default. -/
def scopeOr (d : Nat) (f : LongForm) : Nat := if f.scope = 0 then d else f.scope

/-- Puts a thread into a waiting state at its instruction (log 15). -/
def waitThread (next : W64) (w : Wait) (t : Thread) : Thread := { t with wait := w, wnext := next }

/-- The same for an instruction with a result, which pushes its latch entry as it issues (06 R96); the value comes later. -/
def waitResult (next : W64) (w : Wait) (t : Thread) : Thread :=
  pushLatch (some ⟨0#32, 0#32, .gen, .gen, w.inst⟩) (waitThread next w t)

/-- What a request finds at once: the threads that are answered, with their results, and the threads that wait. -/
structure Asked where
  done : List Loaded
  kbit : List (Nat × Bool)
  wait : List (Nat × Wait)

/-- `inst` names the `WAITC` (12 R237). -/
def Ctx.waitcLane (c : Ctx) (f : LongForm) (inst : Nat) (acc : Asked × State) (l : Lane) : Asked × State :=
  match l.places with
  | none => acc
  | some p =>
    let s := acc.2
    let loc := p.locs.headD 0
    let v := leNat (p.locs.map (homeByte s.mm))
    let cmp := c.dataOf (dataBits f) l.tid
    match placeErr s p (p.locs.any (poisoned s)) with
    | some e => ({ acc.1 with done := acc.1.done ++ [⟨l.tid, l.va, 0#64, some e, false⟩] }, s)
    | none =>
      if cmpTy (waitCc f) f.ty v cmp then
        ({ acc.1 with done := acc.1.done ++ [⟨l.tid, l.va, BitVec.ofNat 64 v, none, false⟩] },
          acquired (takeMarks s (scopeOr 5 f) p.locs) c.grp (scopeOr 5 f) true p.locs [l.tid])
      else
        let m : MonWait := ⟨l.va, loc, p.peer, inst, waitCc f, f.ty, BitVec.ofNat 64 cmp, f.dst.toNat, !f.w, scopeOr 5 f, false, s.sch.cycle,
          directoryRec s.mm loc, none⟩
        let m' := { m with placed := monitorFits s c.cur.gid l.tid m }
        ({ acc.1 with wait := acc.1.wait ++ [(l.tid, .monitor m')] },
          updThread s c.cur.gid l.tid (waitResult c.cur.next (.monitor m')))

/-- Threads that were answered get their results; the others wait at the instruction. -/
def Ctx.asked (c : Ctx) (s : State) (f : LongForm) (wide : Bool) (a : Asked) (kd : Option Nat) : State :=
  let c' := c.without (a.wait.map (·.1))
  if c'.act.isEmpty then c'.skip s true
  else
    let s1 := c'.acquire s (scopeOr 5 f)
    let s2 := c'.loaded s1 f wide false a.done
    match kd with
    | some k => c'.upd s2 (modThreads c'.actTids fun t => t.setMask k ((a.kbit.lookup t.tid).getD false))
    | none => s2

def Ctx.okLanes (c : Ctx) (ls : List Lane) : List Lane := ls.filter fun l => c.actTids.contains l.tid

/-- The core's L1 copies of what an instruction has read at its home go (12 R225, 11 R210). -/
def Ctx.dropRead (c : Ctx) (s : State) (ls : List Lane) : State :=
  { s with mm := dropL1 s.mm c.core ((c.okLanes ls).filterMap (fun l => l.places.map (·.locs))).flatten }

def execWaitc (f : LongForm) (s : State) : Host.Outcome State Fault Refusal :=
  .next (runCore s (.waitc f) f.g true
    (fun c => dstOk c (wideTy f) f.dst && srcOk c f.lit true f.sa && waitCcOk f && srcOk c f.lit (wideTy f) f.sc) fun c =>
    let (ls, s1) := c.decideLanes s (rd64 f.lit f.sa) (fun _ => tyBytes f.ty) (tyBytes f.ty) .load
    c.perform s1 true 0 ls fun c s =>
      let (inst, s0) := freshId s
      let (a, s') := (c.okLanes ls).foldl (c.waitcLane f inst) (⟨[], [], []⟩, s0)
      c.asked (c.dropRead s' ls) f (wideTy f) a none)

/-! ## Futures (12 R238 to R242) -/

def futState (b : Bytes) : Nat := bits (field b 8 8) 62 2

/-- The value and the validity that a future which is not empty gives. -/
def futValue (wide : Bool) (v : W64) : W64 := if wide then v else (lo32 v).setWidth 64

/-- `inst` names the `FLD` (12 R241). -/
def Ctx.fldLane (c : Ctx) (f : LongForm) (inst : Nat) (acc : Asked × State) (l : Lane) : Asked × State :=
  match l.places with
  | none => acc
  | some p =>
    let s := acc.2
    let loc := p.locs.headD 0
    let b := p.locs.map (homeByte s.mm)
    let answer (v : W64) (e : Option Nat) (k : Bool) (s : State) : Asked × State :=
      ({ acc.1 with done := acc.1.done ++ [⟨l.tid, l.va, v, e, false⟩], kbit := acc.1.kbit ++ [(l.tid, k)] }, s)
    match placeErr s p (p.locs.any (poisoned s)) with
    | some e => answer 0#64 (some e) false s
    | none =>
      if futState b ≠ 0 then answer (futValue (wideTy f) (f64 b 0)) none (futState b == 1)
        (acquired (takeMarks s (scopeOr 5 f) p.locs) c.grp (scopeOr 5 f) true p.locs [l.tid])
      else
        let w0 : FutWait := ⟨l.va, loc, p.peer, inst, wideTy f, f.dst.toNat, !f.w, f.sc.toNat, scopeOr 5 f, false, s.sch.cycle, none, none⟩
        let placed := deferFits s c.cur.gid l.tid w0
        let orec := if placed then none else futureRec (field b 8 8)
        match failedOwner s c.grp orec with
        | (some cause, s') => answer (BitVec.ofNat 64 cause) none false s'
        | (none, s') =>
          let w := { w0 with placed := placed, orec := orec }
          ({ acc.1 with wait := acc.1.wait ++ [(l.tid, .future w)] },
            updThread s' c.cur.gid l.tid (waitResult c.cur.next (.future w)))

def execFld (f : LongForm) (s : State) : Host.Outcome State Fault Refusal :=
  .next (runCore s (.fld f) f.g true (fun c => dstOk c (wideTy f) f.dst && addrOk c f && maskSrcOk f.sc) fun c =>
    let (ls, s1) := c.decideLanes s (effAddr f) (fun _ => 16) 16 .load
    c.perform s1 true 0 ls fun c s =>
      let (inst, s0) := freshId s
      let (a, s') := (c.okLanes ls).foldl (c.fldLane f inst) (⟨[], [], []⟩, s0)
      c.asked (c.dropRead s' ls) f (wideTy f) a (some f.sc.toNat))

/-- The 16 bytes that `FSET` leaves: value, and the state word with `fst` set and every other bit kept. -/
def fsetBytes (fail : Bool) (b : Bytes) (v : Nat) : Bytes :=
  natLe 8 v ++ natLe 8 (bits (field b 8 8) 0 62 + (if fail then 2 else 1) * 2 ^ 62)

def Ctx.fsetLane (c : Ctx) (f : LongForm) (acc : List (Nat × Nat × W64) × State) (l : Lane) : List (Nat × Nat × W64) × State :=
  match l.places with
  | none => acc
  | some p =>
    let s := countOne acc.2 c.cur.gid p
    let b := p.locs.map (homeByte s.mm)
    match placeErr s p (p.locs.any (poisoned s)) with
    | some e => (acc.1 ++ [(l.tid, e, l.va)], s)
    | none =>
      if futState b ≠ 0 then (acc.1, s) else
      let v := c.dataOf (fun t => rdBits f.lit (wideTy f) f.sc t) l.tid
      let s1 := writeAs s { groupWriter c.grp l.tid with core := none, rmw := true } (p.locs.zip (fsetBytes (f.ty == 0) b v))
        (threadWho c.grp l.tid) (scopeOr 5 f)
      (acc.1, { s1 with mm := dropL1 s1.mm c.core p.locs })

def execFset (f : LongForm) (s : State) : Host.Outcome State Fault Refusal :=
  .next (runCore s (.fset f) f.g false (fun c => addrOk c f && srcOk c f.lit (wideTy f) f.sc) fun c =>
    let (ls, s1) := c.decideLanes s (effAddr f) (fun _ => 16) 16 .store
    if c.releaseWaits s1 (scopeOr 5 f) ls then s else
    c.perform s1 false 1 ls fun c s =>
      let (es, s') := (c.okLanes ls).foldl (c.fsetLane f) ([], c.fenceFirst s (scopeOr 5 f) ls)
      pushErrs (c.done s' id) c.cur.gid 0#64 es)

/-! ## Replies to waits -/

/-- The thread of a resident or parked group that waits. -/
def waiting (s : State) (tag grp tid : Nat) : Option (Group × Thread) :=
  (groupOf s ⟨tag, grp⟩).bind fun g => (g.threads.find? fun t => t.tid = tid).map fun t => (g, t)

/-- A group that is parked below an owner sends nothing (12 R241). -/
def silent (g : Group) : Bool := g.place == .below

/-- `MONITOR_REPLY` is due once the monitor has been hit. -/
def monitorDue (g : Group) (t : Thread) : Bool :=
  match t.wait with
  | .monitor m => m.hit.isSome && !silent g
  | _ => false

/-- A satisfied monitor's reply. -/
def endMonitor (s : State) (g : Group) (tid : Nat) (m : MonWait) (v : W64) : State :=
  completeWait s g tid m.scope [m.loc] ⟨m.dst, m.toReg, tyWide m.ty, v⟩ id

def execMonitorReply (tag grp tid : Nat) (s : State) : Host.Outcome State Fault Refusal :=
  .next (match waiting s tag grp tid with
    | some (g, t) =>
      if monitorDue g t then
        match t.wait with
        | .monitor m => endMonitor s g tid m (m.hit.getD 0#64)
        | _ => s
      else s
    | none => s)

def futureDue (g : Group) (t : Thread) : Bool :=
  match t.wait with
  | .future f => f.hit.isSome && !silent g
  | _ => false

/-- The answer to an `FLD`: value and validity. -/
def endFuture (s : State) (g : Group) (tid : Nat) (f : FutWait) (v : W64) (k : Bool) : State :=
  completeWait s g tid f.scope [f.loc, f.loc + 8] ⟨f.dst, f.toReg, f.wide, futValue f.wide v⟩ fun t => t.setMask f.kd k

def execFutureAnswer (tag grp tid : Nat) (s : State) : Host.Outcome State Fault Refusal :=
  .next (match waiting s tag grp tid with
    | some (g, t) =>
      if futureDue g t then
        match t.wait with
        | .future f => endFuture s g tid f (f.hit.getD (0#64, false)).1 (f.hit.getD (0#64, false)).2
        | _ => s
      else s
    | none => s)

/-- Whether 1,024 cycles have passed since a request that was negatively acknowledged (12 R237, R241). -/
def resendDue (s : State) (g : Group) (t : Thread) : Bool :=
  !silent g && match t.wait with
    | .monitor m => !m.placed && m.hit.isNone && m.sent + 1024 ≤ s.sch.cycle
    | .future f => !f.placed && f.hit.isNone && f.sent + 1024 ≤ s.sch.cycle
    | _ => false

/-- What a request that is sent again finds at its home: nothing yet, while its window is being disabled or its channel is
not ready, an error (R223, 26 R381), or the word as it stands. -/
inductive Resent where
  | held
  | err (cause : Nat)
  | ok
  deriving DecidableEq, Repr

def resent (s : State) (peer : Bool) (locs : List Nat) : Resent :=
  if locs.any fun l => windowBusy s.mm l || channelWaits s.host l then .held
  else if unreached s.fab ⟨locs, [], peer, if peer then locs.filter (· < 2 ^ 52) else []⟩ then .err 0x35
  else if locs.any (poisoned s) then .err 0x37
  else .ok

def placesFrom (loc n : Nat) : List Nat := (List.range n).map (loc + ·)

def resendMonitor (s : State) (g : Group) (tid : Nat) (m : MonWait) : State :=
  let v := homeNat s.mm m.loc (tyBits m.ty / 8)
  match resent s m.peer (placesFrom m.loc (tyBits m.ty / 8)) with
  | .held => s
  | .err cause => waitError s g tid m.scope ⟨m.dst, m.toReg, tyWide m.ty, 0#64⟩ id cause m.va
  | .ok =>
    if cmpTy m.cc m.ty v m.cmp.toNat then
      endMonitor (acquired s g m.scope true (placesFrom m.loc (tyBits m.ty / 8)) [tid]) g tid m (BitVec.ofNat 64 v)
    else
      let m' := { m with
        sent := s.sch.cycle
        placed := monitorFits s g.gid tid m
        orec := directoryRec s.mm m.loc }
      updThread s g.gid tid fun t => { t with wait := .monitor m' }

def resendFuture (s : State) (g : Group) (tid : Nat) (f : FutWait) : State :=
  let b := homeBytes s.mm f.loc 16
  match resent s f.peer (placesFrom f.loc 16) with
  | .held => s
  | .err cause => waitError s g tid f.scope ⟨f.dst, f.toReg, f.wide, 0#64⟩ (fun t => t.setMask f.kd false) cause f.va
  | .ok =>
    if futState b ≠ 0 then
      endFuture (acquired s g f.scope true (placesFrom f.loc 16) [tid]) g tid f (f64 b 0) (futState b == 1)
    else
      let placed := deferFits s g.gid tid f
      let orec := if placed then none else futureRec (field b 8 8)
      match failedOwner s g orec with
      | (some cause, s') => endFuture s' g tid f (BitVec.ofNat 64 cause) false
      | (none, s') => updThread s' g.gid tid fun t =>
          { t with wait := .future { f with sent := s.sch.cycle, placed := placed, orec := orec } }

def execNackResend (tag grp tid : Nat) (s : State) : Host.Outcome State Fault Refusal :=
  .next (match waiting s tag grp tid with
    | some (g, t) =>
      if resendDue s g t then
        let s1 := updGroup s g.gid fun g => { g with searched := false }
        match t.wait with
        | .monitor m => resendMonitor s1 g tid m
        | .future f => resendFuture s1 g tid f
        | _ => s
      else s
    | none => s)

/-! ## Mailboxes (12 R243 to R246, 06 R101) -/

/-- A mailbox id word: its core and number. -/
def boxCore (id : Nat) : Nat := bits id 0 10
def boxNum (id : Nat) : Nat := bits id 10 4
def boxId (lit : Option W32) (code : BitVec 9) (t : Thread) : Nat := (rd32 lit code t).toNat
def boxWord (id : Nat) : Bool := id < 2 ^ 14
def boxKey (id : Nat) : Nat := 16 * boxCore id + boxNum id

/-- The threads that wait on a mailbox, first come first (12 R245). -/
def boxWaiters (s : State) (key : Nat) : List (Group × Thread × BoxWait) :=
  let all := ((s.groups.filter onCore).map fun g => g.threads.filterMap fun t => match t.wait with
    | .mailbox m => if m.box = key then some (g, t, m) else none
    | _ => none).flatten
  sortBy (fun a b => a.2.2.since < b.2.2.since || (a.2.2.since = b.2.2.since && a.2.1.tid < b.2.1.tid)) all

/-- A message stored at its receiver's place as eight `ST.b64` of the thread (12 R245). -/
def storeMsg (s : State) (g : Group) (tid : Nat) (p : Places) (va : W64) (b : Bytes) : State :=
  let s1 := countPlaces s g.gid p
  let err := placeErr s p false
  let s2 := if err.isSome then s1 else writeAs s1 (storeWriter g tid p []) (p.locs.zip b) (threadWho g tid) 0
  if p.peer then makeReqs s2 g.gid ⟨0, false, false, true, none⟩ [⟨tid, 0#64, va, err⟩] else s2

/-- A condition that the access of a waiting thread meets: the instruction that the thread waits for, its address and the
kind of the access, the class, the cause and the lowest faulting byte. -/
structure Met where
  inst  : Option Nat
  pc    : W64
  kind  : Nat
  tid   : Nat
  cls   : Nat
  cause : Nat
  addr  : W64

/-- The decision of an access of a waiting thread: its places, the condition that it meets, or a home that holds it. -/
def Decision.met (t : Thread) (a : Acc) : Decision → Option Met
  | .cls3 cause addr => some ⟨t.wait.inst, t.pc, a.kind, t.tid, 3, cause, addr⟩
  | .cls4 cause addr => some ⟨t.wait.inst, t.pc, a.kind, t.tid, 4, cause, addr⟩
  | .ok _ | .waits => none

/-- The latch entry of an instruction that a thread has waited for and is to issue again goes. -/
def unpushLatch (t : Thread) : Thread :=
  match t.wait.inst, t.latches with
  | some i, some h :: rest => if h.due = some i then { t with latches := rest } else t
  | _, _ => t

/-- What the conditions that one instruction's waiting threads have met come to (12 R222): a class 3 condition holds its
thread at the instruction, one access for each home warp and page (13 R252), and a class 4 condition traps it. -/
def meetOne (s : State) (gid : Gid) (met : List Met) : State :=
  let held := (met.filter fun m => m.cls = 3).map fun m => (⟨m.tid, m.cause, m.addr⟩ : Held3)
  let bad := met.filter fun m => m.cls ≠ 3
  match groupOf s gid, met with
  | some g, m :: _ =>
    let s1 := hold3 (updGroup s gid (modThreads (held.map (·.tid)) unpushLatch)) g m.pc m.kind held
    let s2 := updGroup s1 gid (modThreads (bad.map (·.tid)) fun t => { t with wait := .run })
    (distinct (bad.map (·.cause))).foldl (fun s cause => takeTrap s gid ((bad.filter fun b => b.cause = cause).map fun b =>
      ⟨b.tid, 4, cause, true, b.pc, b.pc, b.addr, 0#64⟩)) s2
  | _, _ => s

/-- The same for the threads of several instructions of a group. -/
def meetAll (s : State) (gid : Gid) (met : List Met) : State :=
  (distinct (met.map fun m => (m.inst, m.pc, m.kind))).foldl (fun s k =>
    meetOne s gid (met.filter fun m => (m.inst, m.pc, m.kind) = k)) s

/-- A message that a thread takes: what its `MBSEND` released is acquired (12 R244, R245). -/
def takeMsg (s : State) (g : Group) (scope tid id : Nat) : State :=
  { s with mm := forget (acquireBy s.mm (threadWho g tid) scope (msgRel id)) fun a => (msgRel id a).isSome }

/-- Offers a mailbox's first message to a thread that waits on it. Its store is decided now (12 R222, 10 R194); where it meets
a condition the message stays. -/
def offerMsg (key : Nat) (acc : List (Gid × Met) × State) (w : Group × Thread × BoxWait) : List (Gid × Met) × State :=
  let (g, t, m) := w
  let s := acc.2
  match (boxOf s (key / 16) (key % 16)).msgs with
  | [] => acc
  | (msg, who, name) :: rest =>
    match decideAccess s (coreOf g) (coreOf g / 8) g.asn m.va 64 64 .store with
    | (.ok p, s') =>
      let s1 := updBox s' (key / 16) (key % 16) fun b => { b with msgs := rest }
      let s2 := storeMsg (takeMsg s1 g m.scope t.tid name) g t.tid p m.va msg
      (acc.1, completeWait s2 g t.tid m.scope [] ⟨m.dst, m.toReg, false, who.setWidth 64⟩ id)
    | (d, s') => (acc.1 ++ (d.met t .store).toList.map fun x => (g.gid, x), s')

/-- Gives a mailbox's messages to the threads that wait on it, first come first. -/
def deliverMsg (s : State) (key : Nat) : State :=
  if (boxOf s (key / 16) (key % 16)).msgs.isEmpty then s else
  let (met, s1) := (boxWaiters s key).foldl (offerMsg key) ([], s)
  (distinct (met.map (·.1))).foldl (fun s gid => meetAll s gid ((met.filter fun x => x.1 = gid).map (·.2))) s1

/-- One lane of `MBSEND` (12 R244). DEDUCED (log 120): one whose message cannot be read, for poison or an error reply, sends nothing
and clears its bit. -/
def Ctx.mbsendLane (c : Ctx) (f : LongForm) (acc : List (Nat × Bool) × List (Nat × Nat × W64) × State) (l : Lane) :
    List (Nat × Bool) × List (Nat × Nat × W64) × State :=
  match l.places with
  | none => acc
  | some p =>
    let s := acc.2.2
    let id := c.dataOf (boxId f.lit f.sc) l.tid
    let r := readCore s (threadWho c.grp l.tid) c.core (coverOf s c.cur.gid l.tid) p.unc true byPart p.locs
    match readErr s p r with
    | some e => (acc.1 ++ [(l.tid, false)], acc.2.1 ++ [(l.tid, e, l.va)], r.st)
    | none =>
      let b := boxOf s (boxCore id) (boxNum id)
      if boxCore id / 128 = c.die && b.msgs.length < 4 then
        let (name, s0) := freshId r.st
        let mm := releaseBy s0.mm (threadWho c.grp l.tid) (scopeOr 4 f) (.msg name) noCarry
        let s1 := updBox { s0 with mm := mm } (boxCore id) (boxNum id) fun b =>
          { b with msgs := b.msgs ++ [(r.bytes, groupWho c.grp l.tid, name)] }
        (acc.1 ++ [(l.tid, true)], acc.2.1, deliverMsg s1 (boxKey id))
      else (acc.1 ++ [(l.tid, false)], acc.2.1, r.st)

def execMbsend (f : LongForm) (s : State) : Host.Outcome State Fault Refusal :=
  .next (runCore s (.mbsend f) f.g false
    (fun c => maskDstOk f.dst && addrOk c f && srcOk c f.lit false f.sc && c.act.all fun t => boxWord (boxId f.lit f.sc t))
    fun c =>
    let (ls, s1) := c.decideLanes s (effAddr f) (fun _ => 64) 64 .load
    c.perform s1 false 0 ls fun c s =>
      let (ks, es, s') := (c.okLanes ls).foldl (c.mbsendLane f) ([], [], s)
      pushErrs (c.masks s' f.dst.toNat fun t => (ks.lookup t.tid).getD false) c.cur.gid 0#64 es)

/-- Whether `MBRECV` may use a mailbox: on its own core, and not bound to another group. -/
def Ctx.recvOk (c : Ctx) (s : State) (f : LongForm) (t : Thread) : Bool :=
  let id := boxId f.lit f.sc t
  boxWord id && boxCore id == c.core && (match (boxOf s (boxCore id) (boxNum id)).bound with
    | some g => g == c.cur.gid
    | none => true)

def Ctx.mbrecvLane (c : Ctx) (f : LongForm) (since : Nat) (acc : Asked × State) (l : Lane) : Asked × State :=
  match l.places with
  | none => acc
  | some p =>
    let id := c.dataOf (boxId f.lit f.sc) l.tid
    let s := updBox acc.2 (boxCore id) (boxNum id) fun b => { b with bound := some c.cur.gid }
    match (boxOf s (boxCore id) (boxNum id)).msgs with
    | (msg, who, name) :: rest =>
      let s1 := updBox (takeMsg s c.grp (scopeOr 4 f) l.tid name) (boxCore id) (boxNum id) fun b => { b with msgs := rest }
      ({ acc.1 with done := acc.1.done ++ [⟨l.tid, l.va, who.setWidth 64, none, false⟩] }, storeMsg s1 c.grp l.tid p l.va msg)
    | [] =>
      let orec := ((boxOf s (boxCore id) (boxNum id)).orec).map (·.1)
      let m : BoxWait := ⟨boxKey id, l.va, f.dst.toNat, !f.w, scopeOr 4 f, since, orec⟩
      ({ acc.1 with wait := acc.1.wait ++ [(l.tid, .mailbox m)] },
        updThread s c.cur.gid l.tid (waitResult c.cur.next (.mailbox m)))

def execMbrecv (f : LongForm) (s : State) : Host.Outcome State Fault Refusal :=
  .next (runCore s (.mbrecv f) f.g true
    (fun c => dstOk c false f.dst && addrOk c f && srcOk c f.lit false f.sc && c.act.all (c.recvOk s f)) fun c =>
    let (ls, s1) := c.decideLanes s (effAddr f) (fun _ => 64) 64 .store
    c.perform s1 true 1 ls fun c s =>
      let (since, s0) := freshId s
      let (a, s') := (c.okLanes ls).foldl (c.mbrecvLane f since) (⟨[], [], []⟩, c.acquire s0 (scopeOr 4 f))
      c.asked s' f false a none)

/-- The word of `MBPEEK` (12 R246). -/
def peekWord (s : State) (gid : Gid) (id : Nat) : Nat :=
  let b := boxOf s (boxCore id) (boxNum id)
  b.msgs.length + (match b.bound with
    | some g => if g = gid then 2 ^ 8 else 2 ^ 9
    | none => 0)

def execMbpeek (f : LongForm) (s : State) : Host.Outcome State Fault Refusal :=
  .next (runCore s (.mbpeek f) f.g true
    (fun c => dstOk c false f.dst && srcOk c f.lit false f.sa &&
      c.act.all fun t => boxWord (boxId f.lit f.sa t) && boxCore (boxId f.lit f.sa t) / 128 == c.die) fun c =>
    c.result s f.dst f.w
      (intResult c false (srcUni c false f.sa) none fun t => peekWord s c.cur.gid (boxId f.lit f.sa t)))

/-! ## Replies that were owed (12 R223, R228, 26 R374) -/

def reqOf (s : State) (id : Nat) : Option Req := s.reqs.find? fun r => r.id = id
def dropReq (s : State) (id : Nat) : State := { s with reqs := s.reqs.filter fun r => r.id != id }

/-- A thread with its lane of a reply written. -/
def replyThread (n : Nat) (r : Req) (t : Thread) : Thread :=
  match r.lanes.find? fun l => l.tid = t.tid with
  | some l =>
    let t1 := if r.toReg && r.dst < n then t.write r.dst r.wide l.val else t
    match r.kset with
    | some k => if l.err.isNone then t1.setMask k true else t1
    | none => t1
  | none => t

def reqErrs (r : Req) : List (Nat × Nat × W64) := r.lanes.filterMap fun l => l.err.map fun e => (l.tid, e, l.addr)

/-- The first packet of a message of two arrives in its buffer; which of them it is, is a free value (26 R370,
log 105). -/
def firstPacket (s : State) (r : Req) : State :=
  { s with
    reqs := modAll (fun x => x.id = r.id) (fun x => { x with arr := if Config.packetOne s.sch.free then 2 else 1 }) s.reqs
    sch := { s.sch with free := s.sch.free + 1 } }

/-- A reply reaches its core: its values are written when it is whole (26 R374). -/
def replyNow (s : State) (r : Req) : State :=
  if r.more then firstPacket s r else
  let s1 := updGroup (dropReq s r.id) r.gid fun g => { g with threads := g.threads.map (replyThread g.n r) }
  pushErrs s1 r.gid (if r.toReg then BitVec.ofNat 64 r.dst else 0#64) (reqErrs r)

/-- Whether a reply is due: its group is on a core. -/
def replyDue (s : State) (r : Req) : Bool := !r.store && (groupOf s r.gid).any onCore

def execLoadReply (id : Nat) (s : State) : Host.Outcome State Fault Refusal :=
  .next (match reqOf s id with
    | some r => if replyDue s r then replyNow s r else s
    | none => s)

/-- The first acknowledgement that is owed to a thread arrives; an error that it carries is raised later (12 R223). -/
def ackNow (s : State) (r : Req) (tid : Nat) : State :=
  let left := r.lanes.filter fun l => l.tid != tid
  let s1 := if left.isEmpty then dropReq s r.id
    else { s with reqs := modAll (fun x => x.id = r.id) (fun x => { x with lanes := left }) s.reqs }
  pushErrs s1 r.gid 0#64 ((reqErrs r).filter fun e => e.1 = tid)

def ackOf (s : State) (gid : Gid) (tid : Nat) : Option Req :=
  s.reqs.find? fun r => r.gid = gid && r.store && r.lanes.any fun l => l.tid = tid

def execStoreAcknowledgement (tag grp tid : Nat) (s : State) : Host.Outcome State Fault Refusal :=
  .next (match ackOf s ⟨tag, grp⟩ tid with
    | some r => ackNow s r tid
    | none => s)

/-! ## Deposits (09 R182, R183) -/

/-- A packet for a saved message goes into the saved buffer; one that makes the message whole frees the buffer (26 R375,
log 105). -/
def bufferPut (s : State) (g : Group) (r : Req) (arr : Nat) (valid : Bool) (new : List ReqLane) : State :=
  match r.buf with
  | none => s
  | some b =>
    let o := saOrasm g.nthr g.ns
    areaPut (new.foldl (fun s l => areaPut s g (o + 0x80 + 256 * b + 8 * (l.tid % 32)) (le64 l.val)) s) g
      (o + 0x40 + 8 * b) (natLe 8 (rasmDesc r arr valid))

/-- The first packet of a message for a saved group: it goes into the saved buffer, and `pend` is lower (26 R375). -/
def depositPacket (s : State) (r : Req) : State :=
  let arr := if Config.packetOne s.sch.free then 2 else 1
  let s1 := updGroup (firstPacket s r) r.gid fun g => { g with pend := g.pend - 1 }
  match groupOf s1 r.gid with
  | none => s1
  | some g => putPend (bufferPut s1 g r arr true (packetLanes r (arr = 2))) g

/-- The values of a reply that is whole, in the rows of its destination (09 R182). -/
def depositRows (s : State) (g : Group) (r : Req) : State :=
  if r.toReg then r.lanes.foldl (fun s l =>
      let s' := depositRow s g l.tid r.dst (lo32 l.val)
      if r.wide then depositRow s' g l.tid (r.dst + 1) (hi32 l.val) else s') s
  else s

/-- A reply for a saved group: its values in the rows when it is whole, `pend` lower. -/
def depositNow (s : State) (r : Req) : State :=
  if r.more then depositPacket s r else
  let s1 := updGroup (dropReq s r.id) r.gid fun g =>
    { g with
      threads := if g.place = .done then g.threads else g.threads.map (replyThread g.n r)
      pend := g.pend - 1
      derr := derrOf g.derr r.dst (reqErrs r) }
  match groupOf s1 r.gid with
  | none => s1
  | some g =>
    putDerr (putPend (depositRows (bufferPut s1 g r 3 false (packetLanes r (r.arr = 1))) g r) g) g

/-- Whether a deposit is due: the group is saved; one that has failed still counts what it owed at its save. -/
def depositDue (s : State) (r : Req) : Bool :=
  !r.store && (groupOf s r.gid).any fun g => !onCore g && (g.place != .done || g.pend != 0)

def execDepositArrival (id : Nat) (s : State) : Host.Outcome State Fault Refusal :=
  .next (match reqOf s id with
    | some r => if depositDue s r then depositNow s r else s
    | none => s)

/-! ## Errors raised after the access (12 R223) -/

/-- Whether an error is raised now: its thread is about to issue, or has exited, on a core. -/
def errDue (s : State) (e : ImpErr) : Bool :=
  match groupOf s e.gid with
  | some g => onCore g && g.threads.any fun t => t.tid = e.tid && (t.runnable || !t.live)
  | none => false

/-- The errors of one arrival that are raised together: one cause and one address space of threads that are about to
issue. -/
def errBatch (s : State) (e : ImpErr) : List ImpErr :=
  s.errs.filter fun x => x.id = e.id && x.cause = e.cause && errDue s x &&
    (threadOf s x.gid x.tid).all (·.live)

/-- An error of a thread that has exited (12 R223). -/
def exitedError (s : State) (g : Group) (e : ImpErr) : State :=
  let r : FRec :=
    { cls := 4, cause := e.cause, prec := false, fwd := false, rpl := false, lanes := laneMask [e.tid],
      who := groupWho g e.tid, tag := g.gid.tag, pc := 0#64, addr := e.addr, info := e.info, hlp := hlpOf s g }
  failGang (postRecord s (coreOf g / 128) (r.bytes (nowNs s))) g.gid.tag e.cause

def raiseError (s : State) (e : ImpErr) : State :=
  match groupOf s e.gid, threadOf s e.gid e.tid with
  | some g, some t =>
    if !t.live then exitedError { s with errs := s.errs.filter (· != e) } g e
    else
      let batch := errBatch s e
      let charges := batch.filterMap fun x => (threadOf s x.gid x.tid).map fun u =>
        (⟨u.tid, 4, x.cause, false, u.pc, u.pc, x.addr, x.info⟩ : Charge)
      let s1 := takeTrap { s with errs := s.errs.filter fun x => !batch.contains x } e.gid charges
      -- while the handler's line is not there, the error stays to be raised
      if trapTaken s1 e.gid [e.tid] then s1 else { s1 with errs := s.errs }
  | _, _ => s

def execDeferredError (id : Nat) (s : State) : Host.Outcome State Fault Refusal :=
  .next (match s.errs.find? (fun e => e.id = id && errDue s e) with
    | some e => raiseError s e
    | none => s)

end Sys2Proof.Machine
end

