-- ==== Sys2Proof/Machine/TrapOps.lean ====
section
/-! DEFINITION. Trap instructions, context saves and loads, slots that end, resumption, pre-emption (09 R171 to R183,
03 R36, R41, R42, 18 R314, 21 R323). -/

namespace Sys2Proof.Machine

open Sys2Proof

/-! ## `TRAP` and `TRET` (09 R172) -/

def execTrap (f : LongForm) (s : State) : Host.Outcome State Fault Refusal :=
  .next (runCore s (.trap f) f.g false (fun c => srcOk c f.lit false f.sa) fun c =>
    takeTrap s c.cur.gid (c.act.map fun t =>
      ⟨t.tid, 7, 0x60, false, c.cur.pc, c.cur.next, 0#64, (rd32 f.lit f.sa t).setWidth 64⟩))

/-- Whether every active thread is in handler mode. -/
def Ctx.inHandler (c : Ctx) : Bool := c.act.all (·.hnd)

def holdsEntry (t : Thread) : Bool := t.dph.isSome || t.pre

/-- The held entry of a thread: class 6 first (09 R170, R183). -/
def heldCharge (t : Thread) : Charge :=
  match t.dph with
  | some (addr, reg) => ⟨t.tid, 6, 0x50, false, t.xpc, t.xpc, addr, BitVec.ofNat 64 reg⟩
  | none => ⟨t.tid, 8, 0x70, false, t.xpc, t.xpc, 0#64, 0#64⟩

/-- A thread that leaves the handler for an entry that it holds. -/
def takeEntry (t : Thread) : Thread :=
  match t.dph with
  | some _ => { t with dph := none, hnd := false, pc := t.xpc }
  | none => { t with pre := false, hnd := false, pc := t.xpc }

/-- Threads that hold an entry enter the handler for it in place of resuming. -/
def Ctx.enterHeld (c : Ctx) (s : State) (ts : List Thread) : State :=
  match ts with
  | [] => s
  | _ :: _ =>
    let (r, s1) := if c.grp.xhand = 0#64 then (TargetRes.ok, s) else checkTarget s c.grp c.grp.xhand true
    match r with
    | .waits => s1
    | .fault 3 cause => hold3 s1 c.grp c.cur.pc 2 (ts.map fun t => ⟨t.tid, cause, c.grp.xhand &&& ~~~63#64⟩)
    | _ =>
      let s2 := c.upd s1 (modThreads (ts.map (·.tid)) takeEntry)
      let go (s : State) (l : List Thread) : State := takeTrap s c.cur.gid (l.map heldCharge)
      go (go s2 (ts.filter fun t => t.dph.isSome)) (ts.filter fun t => t.dph.isNone)

/-- A taken `TRET`: the threads go to their `xpc`, out of handler mode; latches empty. -/
def Ctx.tretTo (c : Ctx) (s : State) : State :=
  c.upd s (modThreads c.setTids fun t =>
    if c.actTids.contains t.tid then { t with pc := t.xpc, hnd := false, latches := [] }
    else { t with pc := c.cur.next, latches := [] })

def tretOp (s : State) (i : Instr) (g : BitVec 5) : State :=
  runCore s i g false (fun _ => true) fun c =>
    if !c.inHandler then c.trapAct s cILLOP else
    let ts := c.act.filter holdsEntry
    let c' := c.without (ts.map (·.tid))
    let s1 := if c'.act.isEmpty then c'.skip s false else c'.transfer s false (·.xpc) c'.tretTo
    c.enterHeld s1 ts

def execTret (f : LongForm) (s : State) : Host.Outcome State Fault Refusal := .next (tretOp s (.tret f) f.g)
def execTretS (g : BitVec 5) (s : State) : Host.Outcome State Fault Refusal := .next (tretOp s (.tretS g) g)

/-! ## `FREC` (09 R173, R184) -/

/-- A thread's current fault record. -/
def recordOf (s : State) (g : Group) (t : Thread) (fwd : Bool) : FRec where
  cls := bits t.xcause.toNat 0 8
  cause := bits t.xcause.toNat 8 8
  prec := bit t.xcause.toNat 16
  fwd := fwd
  rpl := false
  lanes := t.xlanes
  who := groupWho g t.tid
  tag := g.gid.tag
  pc := t.xfpc
  addr := t.xaddr
  info := t.xinfo
  hlp := if bit t.xcause.toNat 17 then hlpOf s g else none

def execFrecGet (f : LongForm) (s : State) : Host.Outcome State Fault Refusal :=
  .next (runCore s (.frecGet f) f.g false (fun c => addrOk c f) fun c =>
    if !c.inHandler then c.trapAct s cILLOP else
    let (ls, s1) := c.decideLanes s (effAddr f) (fun _ => 64) 64 .store
    let img (tid : Nat) : Bytes := ((c.act.find? fun t => t.tid = tid).map fun t => (recordOf s c.grp t false).bytes t.xtime).getD []
    c.storeParted s s1 0 (fun _ l _ => (img l.tid, [])) ls)

/-- The lowest active thread of each home warp. -/
def lowestOfHome (ts : List Thread) : List Thread :=
  ts.filter fun t => ts.all fun u => u.tid / 32 != t.tid / 32 || t.tid ≤ u.tid

def execFrecFwd (f : LongForm) (s : State) : Host.Outcome State Fault Refusal :=
  .next (runCore s (.frecFwd f) f.g false (fun _ => true) fun c =>
    if !c.inHandler then c.trapAct s cILLOP else
    let s1 := (lowestOfHome c.act).foldl (fun s t =>
      postRecord s c.die ((recordOf s c.grp t true).bytes t.xtime)) s
    failGang s1 c.cur.gid.tag ((c.act.head?.map fun t => bits t.xcause.toNat 8 8).getD 0))

/-! ## `CTXSAVE` and `CTXLOAD` (09 R174, R175) -/

/-- The range of a context instruction: first register and count. -/
def rangeOf (c : Ctx) (f : LongForm) : Nat × Nat := (f.sa.toNat, uniSrc c f f.sb)

def ctxRangeOk (c : Ctx) (f : LongForm) : Bool :=
  regCodeOk c f.sa && srcOk c f.lit false f.sb && srcUni c false f.sb &&
    (let n := (rangeOf c f).2
     1 ≤ n && n ≤ 256 && f.sa.toNat + n ≤ c.grp.n)

/-- Pages of several pieces of the area, on the group's `CORE` path (09 R174). -/
def areaPieces (g : Group) (a : Acc) : List (Nat × Nat) → List (Nat × Nat) → State → AreaRes
  | [], pages, s => .ok pages s
  | (off, n) :: rest, pages, s =>
    match areaPages (coreOf g) g a (n / 65536 + 2) off n pages s with
    | .ok pages' s' => areaPieces g a rest pages' s'
    | r => r

/-- What an access of a thread to the area comes to: class 4 charges every active thread, class 3 holds them (12 R222). -/
def Ctx.areaAccess (c : Ctx) (s : State) (store : Bool) (pieces : List (Nat × Nat)) (go : List (Nat × Nat) → State → State) :
    State :=
  match areaPieces c.grp (if store then .store else .load) pieces [] s with
  | .ok pages s' => go pages s'
  | .cls4 cause addr s' => c.trap s' 4 cause (c.actTids.map fun t => (t, addr, 0#64))
  | .cls3 cause addr s' => hold3 s' c.grp c.cur.pc (if store then 1 else 0) (c.actTids.map fun t => ⟨t, cause, addr⟩)
  | .waits s' => s'

/-- The pieces that hold the tags and entries of registers `v` to `v + n - 1` of every home warp. -/
def entryPieces (g : Group) (v n : Nat) : List (Nat × Nat) :=
  ((List.range (homeWarps g.nthr)).map fun w => [(saWarp g w, 64), (saEntry g w v, 8 * n)]).flatten

/-- The rows of those of the registers for which `p` holds. -/
def rowPieces (g : Group) (v n : Nat) (p : Nat → Nat → Bool) : List (Nat × Nat) :=
  ((List.range (homeWarps g.nthr)).map fun w =>
    ((List.range n).filter fun i => p w (v + i)).map fun i => (saRow g w (v + i), 128)).flatten

/-- The writes of a `CTXSAVE` to peer memory are counted, one for eight bytes of a device (26 R382, log 110). -/
def countArea (s : State) (gid : Gid) (locs : List Nat) : State :=
  let devs := (locs.filter fun l => 2 ^ 52 ≤ l).map fun l => l / 2 ^ 52 - 1
  (distinct devs).foldl (fun s d => countFabs s gid d (max 1 ((devs.filter (· = d)).length / 8))) s

/-- The writes of a `CTXSAVE` that can be delivered; the others meet an error reply, which charges the active threads
(26 R381, 12 R223). -/
def Ctx.areaStore (c : Ctx) (s : State) (g : Group) (pages : List (Nat × Nat)) (ws : List (Nat × Byte)) : State :=
  let lost (x : Nat × Byte) : Bool := (areaLoc g pages x.1).any (fabricFails s.fab)
  let good := ws.filter fun x => !lost x
  let locs := good.filterMap fun x => areaLoc g pages x.1
  let s1 := areaWriteBy (countArea s c.cur.gid locs) g (some c.core) (some (0, .thread c.cur.gid (c.actTids.headD 0))) pages good
  let s2 := acquireAnswered s (c.actTids.foldl (fun s t => markWrite s (threadWho c.grp t) 0 locs) s1)
  match ws.find? lost with
  | some x => pushErrs s2 c.cur.gid 0#64 (c.actTids.map fun t => (t, 0x35, g.xsave + BitVec.ofNat 64 x.1))
  | none => s2

def execCtxsave (f : LongForm) (s : State) : Host.Outcome State Fault Refusal :=
  .next (runCore s (.ctxsave f) f.g false (fun c => ctxRangeOk c f) fun c =>
    let (v, n) := rangeOf c f
    let g := reformAll c.grp [] []
    c.areaAccess s true (entryPieces g v n ++ rowPieces g v n fun w r => homeTag g w r == .gen) fun pages s' =>
      let old (w q : Nat) : Byte := (areaBytes s' g pages (saWarp g w + q) 1).headD 0#8
      let ws := ((List.range (homeWarps g.nthr)).map fun w =>
        regWrites g w ((List.range n).map (v + ·)) (old w)).flatten
      c.done (c.areaStore s' g pages ws) id)

/-- The range joins the keep set; the first after a signal replaces "every register" (09 R175). -/
def execCtxsaveKeep (f : LongForm) (s : State) : Host.Outcome State Fault Refusal :=
  .next (runCore s (.ctxsaveKeep f) f.g false
    (fun c => ctxRangeOk c f && c.act.all fun t => t.hnd && bits t.xcause.toNat 0 8 == 8) fun c =>
    c.upd (c.done s id) fun g => { g with keep := some ((g.keep.getD []) ++ [rangeOf c f]) })

/-- A register of a home warp as the area holds it: its tag, and the value of each logical lane (09 R181). -/
def savedTag (b : Bytes) (r : Nat) : Nat := bits ((b.getD (r / 4) 0#8).toNat) (2 * (r % 4)) 2

/-- The error reply of a byte of the area: of the fabric (26 R381), or of poison. -/
def areaErr (s : State) (g : Group) (pages : List (Nat × Nat)) (off : Nat) : Option (Nat × W64) :=
  (areaLoc g pages off).bind fun l =>
    if fabricFails s.fab l then some (0x35, g.xsave + BitVec.ofNat 64 off)
    else if poisoned s l then some (0x37, g.xsave + BitVec.ofNat 64 off) else none

/-- The first error reply to a read of a piece of the area: its cause and address. -/
def poisonIn (s : State) (g : Group) (pages : List (Nat × Nat)) (off n : Nat) : Option (Nat × W64) :=
  (List.range n).findSome? fun i => areaErr s g pages (off + i)

/-- The first error reply that reading a register of a home warp meets: in its tag, its entry, or the row of a `gen`
register. -/
def regPoison (s : State) (g : Group) (pages : List (Nat × Nat)) (w r : Nat) : Option (Nat × W64) :=
  (poisonIn s g pages (saWarp g w + r / 4) 1).orElse fun _ => (poisonIn s g pages (saEntry g w r) 8).orElse fun _ =>
    if 2 ≤ savedTag (areaBytes s g pages (saWarp g w) 64) r then poisonIn s g pages (saRow g w r) 128 else none

/-- The first register of a load whose place gives an error reply, with the cause and the address. -/
def ctxPoison (s : State) (g : Group) (pages : List (Nat × Nat)) (v n : Nat) : Option (Nat × Nat × W64) :=
  (List.range (homeWarps g.nthr)).findSome? fun w =>
    (List.range n).findSome? fun i => (regPoison s g pages w (v + i)).map fun a => (v + i, a)

/-- A register whose place gives an error reply reads as 0 (12 R223). -/
def savedReg (s : State) (g : Group) (pages : List (Nat × Nat)) (w r : Nat) : Tag × (Nat → W32) :=
  let e := areaBytes s g pages (saEntry g w r) 8
  if (regPoison s g pages w r).isSome then (.gen, fun _ => 0#32) else
  match savedTag (areaBytes s g pages (saWarp g w) 64) r with
  | 0 => (.uni, fun _ => f32 e 0)
  | 1 => (mkAff (f32 e 0) (f32 e 4), fun tid => f32 e 0 + f32 e 4 * BitVec.ofNat 32 tid)
  | _ => (.gen, fun tid => f32 (areaBytes s g pages (saRow g w r + 4 * (tid % 32)) 4) 0)

/-- A register read back in every thread of a home warp; a warp that holds threads of several home warps takes `gen`
unless all agree. -/
def loadReg (s : State) (pages : List (Nat × Nat)) (w r : Nat) (g : Group) : Group :=
  let (tag, val) := savedReg s g pages w r
  let whole (x : Warp) : Bool := x.tids.all fun t => t / 32 = w
  { g with
    threads := modAll (fun t => t.tid / 32 = w && t.live) (fun t => t.setReg r (val t.tid)) g.threads
    warps := modAll (fun x => x.tids.any fun t => t / 32 = w) (fun x =>
      { x with tags := tset Tag.uni x.tags r (if whole x then tag else .gen) }) g.warps }

def slotIdle (g : Group) (d : Nat) : Bool :=
  match g.slots.getD d .idle with
  | .pending _ => false
  | _ => true

def setSlot (d : Nat) (x : Slot) (g : Group) : Group := { g with slots := g.slots.set d x }

/-- What is before an operation that some threads start on a slot is before its end (11 R209). -/
def slotStarts (s : State) (gid : Gid) (d : Nat) (tids : List Nat) : State :=
  { s with mm := learnTo (forget s.mm (· == .slot gid d)) (·.knownBy (tids.map (threadAgents gid)).flatten) (.slot gid d) noCarry }

/-- Threads find a slot set: a covering event (11 R212), before which is what the slot's operation has behind it (R209). -/
def slotFound (s : State) (gid : Gid) (d : Nat) (tids : List Nat) : State :=
  let s1 := coverThreads s gid tids
  { s1 with mm := tids.foldl (fun m t => learnTo m (·.knownBy [.slot gid d]) (.thread gid t) noCarry) s1.mm }

def execCtxload (f : LongForm) (s : State) : Host.Outcome State Fault Refusal :=
  .next (runCore s (.ctxload f) f.g false (fun c => slotOk f.dst && ctxRangeOk c f && slotIdle c.grp f.dst.toNat) fun c =>
    let (v, n) := rangeOf c f
    c.areaAccess s false (entryPieces c.grp v n) fun pages s1 =>
      let gen (w r : Nat) : Bool := 2 ≤ savedTag (areaBytes s1 c.grp pages (saWarp c.grp w) 64) r
      c.areaAccess s1 false (entryPieces c.grp v n ++ rowPieces c.grp v n gen) fun pages s2 =>
        let load (g : Group) : Group := (List.range (homeWarps g.nthr)).foldl (fun g w =>
          (List.range n).foldl (fun g i => loadReg s2 pages w (v + i) g) g) g
        let s3 := slotStarts (c.upd (c.done s2 id) fun g => setSlot f.dst.toNat (.pending (.ctxload v n)) (load g)) c.cur.gid
          f.dst.toNat c.actTids
        match ctxPoison s2 c.grp pages v n with
        | some (r, e, a) => pushErrs s3 c.cur.gid (BitVec.ofNat 64 r) (c.actTids.map fun t => (t, e, a))
        | none => s3)

/-! ## Slots that end -/

/-- Threads that wait on a slot which is no longer pending go on (03 Table 3.3). -/
def endSlotWaits (g : Group) : Group :=
  { g with threads := g.threads.map fun t => match t.wait with
    | .slot d => if slotIdle g d then { t with wait := .run, pc := t.wnext } else t
    | _ => t }

/-- The word of a failed `CTXLOAD` or `DEPWAIT`: cause 0x50 and the register of the failed deposit. -/
def depositSlot (derr : Option (W64 × W32 × W32)) : Slot :=
  match derr with
  | some (addr, _, info) => .failed (BitVec.ofNat 64 (0x50 + bits info.toNat 16 8 * 2 ^ 16)) addr
  | none => .set

/-- Changes every task that waits: those in the millers' queues and those that an `MTASK` holds. -/
def mapTasks (f : Task → Task) (s : State) : State :=
  let held (h : Held) : Held := match h.what with
    | .mtask t => { h with what := .mtask (f t) }
    | _ => h
  { s with
    hams := s.hams.map fun (k, h) => (k, { h with queue := h.queue.map f })
    groups := s.groups.map fun g => { g with warps := g.warps.map fun w => { w with held := w.held.map held } } }

/-- The mill cause word of 22 Table 22.6. -/
def millWord (code mcause wslot step win mill opnd : Nat) : W64 :=
  BitVec.ofNat 64 (code + 2 ^ 8 + opnd * 2 ^ 9 + mill * 2 ^ 11 + win * 2 ^ 12 + step * 2 ^ 16 + wslot * 2 ^ 32 + mcause * 2 ^ 56)

/-- An operation on a slot of a group ends for a task that captured it (22 R328). -/
def endCap (gid : Gid) (d : Nat) (x : Slot) (t : Task) : Task :=
  if t.gid = gid && t.caps.any fun c => c.1 = d then
    { t with
      caps := t.caps.filter fun c => c.1 ≠ d
      failed := match t.failed, x with
        | none, .failed _ _ => some (millWord 0x47 0 d 0 0 0 0, 0#64)
        | y, _ => y }
  else t

/-- The tasks that wait. -/
def waitingTasks (s : State) : List Task :=
  let held (h : Held) : List Task := match h.what with
    | .mtask t => [t]
    | _ => []
  (s.hams.map fun (_, h) => h.queue).flatten ++
    (s.groups.map fun g => (g.warps.map fun w => (w.held.map held).getD []).flatten).flatten

/-- What the end of a slot's operation puts before the tasks that captured it (11 Table 11.2); a captured `CTXLOAD` or
remote-deposit count carries from `CORE` to `MILL` (Table 11.3). -/
def slotToTasks (s : State) (gid : Gid) (d : Nat) : State :=
  let carry (op : SlotOp) : Nat → List Nat := match op with
    | .task _ => noCarry
    | _ => carryFrom 0 1
  { s with mm := (waitingTasks s).foldl (fun m t => t.caps.foldl (fun m (k, op) =>
      if t.gid = gid && k = d then learnTo m (·.knownBy [.slot gid d]) (.task t.gid t.id) (carry op) else m) m) s.mm }

/-- A slot's operation ends: the tasks that captured it know, the slot takes its state, and a saved group's header is
written (09 R182). -/
def finishSlot (s0 : State) (gid : Gid) (d : Nat) (x : Slot) : State :=
  let s := mapTasks (endCap gid d x) (slotToTasks s0 gid d)
  match groupOf s gid with
  | none => s
  | some g =>
    if onCore g then updGroup s gid fun g => endSlotWaits (setSlot d x g)
    else if g.place == .done && g.pend == 0 then updGroup s gid (setSlot d x)
    else
      let s1 := updGroup s gid fun g => endSlotWaits { setSlot d (keptSlot x) g with pend := g.pend - 1 }
      match groupOf s1 gid with
      | none => s1
      | some g' => putPend (areaPut s1 g' (0x20 + 4 * d) (natLe 4 (slotWord x))) g'

/-- Whether a `CTXLOAD` is pending on a slot. -/
def ctxloadDue (g : Group) (d : Nat) : Bool :=
  match g.slots.getD d .idle with
  | .pending (.ctxload _ _) => true
  | _ => false

def execCtxloadDone (tag grp slot : Nat) (s : State) : Host.Outcome State Fault Refusal :=
  .next (match groupOf s ⟨tag, grp⟩ with
    | some g => if ctxloadDue g slot then finishSlot s g.gid slot (depositSlot g.derr) else s
    | none => s)

/-! ## `DEPWAIT` (09 R182) -/

/-- The error reply of the header that a `DEPWAIT` reads. -/
def headerErr (s : State) (p : Places) : Option Nat := placeErr s p (p.locs.any (poisoned s))

/-- What the header at a save area says of its deposits: none while some are outstanding. One that gives an error reply
reads as 0 (12 R223). DEDUCED (log 34): a slot that fails so names no address and no register. -/
def depositsOf (s : State) (p : Places) : Option Slot :=
  let b := if (headerErr s p).isSome then zeros 8 else p.locs.map (homeByte s.mm)
  if field b 4 4 ≠ 0 then none
  else if bit (field b 0 4) 2 then some (.failed 0x50#64 0#64) else some .set

/-- `DEPWAIT` slots whose deposits are complete. -/
def pollDeposits (s : State) : State :=
  s.groups.foldl (fun s g => g.slots.zipIdx.foldl (fun s (x, d) =>
    match x with
    | .pending (.deposit va) =>
      let c := coreOf g
      match decideAccess s c (c / 8) g.asn va 8 1 .load with
      | (.ok p, _) => (match depositsOf s p with
        | some y =>
          let tids := (g.threads.filter fun t => t.wait == .slot d).map (·.tid)
          let s0 := match headerErr s p with
            | some e => pushErrs s g.gid 0#64 (tids.map fun t => (t, e, va))
            | none => s
          let s1 := updGroup (mapTasks (endCap g.gid d y) (slotToTasks s0 g.gid d)) g.gid fun g => endSlotWaits (setSlot d y g)
          if onCore g then s1 else areaPut s1 g (0x20 + 4 * d) (natLe 4 (slotWord y))
        | none => s)
      | _ => s
    | _ => s) s) s

/-- The group waits in the slot state: each of its runnable threads, those of the issuing set for what follows the
instruction (09 R182). -/
def depThread (c : Ctx) (d : Nat) (t : Thread) : Thread :=
  if t.runnable && !inHeld c.grp t.tid then waitThread (if c.setTids.contains t.tid then c.cur.next else t.pc) (.slot d) t else t

/-- Whether a group waits for deposits. -/
def depWaits (g : Group) : Bool := g.slots.any fun x => match x with
  | .pending (.deposit _) => true
  | _ => false

def execDepwait (f : LongForm) (s : State) : Host.Outcome State Fault Refusal :=
  .next (runCore s (.depwait f) f.g false
    (fun c => slotOk f.dst && addrOk c f && addrUni c f && slotIdle c.grp f.dst.toNat) fun c =>
    let d := f.dst.toNat
    let (ls, s1) := c.decideLanes s (effAddr f) (fun _ => 8) 1 .load
    c.perform s1 false 0 ls fun c s =>
      match ls.head?.bind Lane.places with
      | none => c.done s id
      | some p =>
        let va := (ls.head?.map (·.va)).getD 0#64
        match depositsOf s p, headerErr s p with
        | some x, some e => pushErrs (slotStarts (c.upd (c.done s id) (setSlot d x)) c.cur.gid d c.actTids) c.cur.gid 0#64 (c.actTids.map fun t => (t, e, va))
        | some x, none => slotStarts (c.upd (c.done s id) (setSlot d x)) c.cur.gid d c.actTids
        | none, _ =>
          slotStarts (c.upd s fun g => setSlot d (.pending (.deposit va)) { g with threads := g.threads.map (depThread c d) })
            c.cur.gid d c.actTids)

/-! ## `MWAIT` and `MPOLL` (23 R342, R343) -/

/-- A failed slot's error in the active threads; the slot becomes idle once the error is raised (06 Table 6.7). -/
def Ctx.raiseSlot (c : Ctx) (s : State) (d : Nat) (word addr : W64) : State :=
  let cause := bits word.toNat 0 8
  let cls := if cause = 0x50 then 6 else 5
  let info : W64 := if cause = 0x50 then BitVec.ofNat 64 (bits word.toNat 16 8) else word
  let s1 := c.trap (c.upd s (setSlot d .idle)) cls cause (c.actTids.map fun t => (t, addr, info))
  if trapTaken s1 c.cur.gid c.actTids then s1 else c.upd s1 (setSlot d (.failed word addr))

def mwaitOp (s : State) (i : Instr) (g : BitVec 5) (dst : BitVec 8) : State :=
  runCore s i g false (fun _ => slotOk dst) fun c =>
    match c.grp.slots.getD dst.toNat .idle with
    | .idle => c.done s id
    | .set => c.done (slotFound s c.cur.gid dst.toNat c.actTids) id
    | .failed word addr => c.raiseSlot s dst.toNat word addr
    | .pending _ =>
      -- the wait ends by issuing the instruction again
      c.upd s (modThreads c.setTids fun t =>
        if c.actTids.contains t.tid then waitThread c.cur.pc (.slot dst.toNat) t else { t with pc := c.cur.next })

def execMwait (f : LongForm) (s : State) : Host.Outcome State Fault Refusal := .next (mwaitOp s (.mwait f) f.g f.dst)
def execMwaitS (g : BitVec 5) (d : BitVec 8) (s : State) : Host.Outcome State Fault Refusal :=
  .next (mwaitOp s (.mwaitS g d) g d)

def slotState : Slot → Nat
  | .idle => 0
  | .pending _ => 1
  | _ => 2

def execMpoll (f : LongForm) (s : State) : Host.Outcome State Fault Refusal :=
  .next (runCore s (.mpoll f) f.g true (fun c => dstOk c false f.dst && slotSrcOk f.sa) fun c =>
    let x := c.grp.slots.getD f.sa.toNat .idle
    match x with
    | .failed word addr => c.raiseSlot s f.sa.toNat word addr
    | _ =>
      let s1 := if slotState x = 2 then slotFound s c.cur.gid f.sa.toNat c.actTids else s
      c.result s1 f.dst f.w (intResult c false true none fun _ => slotState x))

/-! ## `PDONE` (09 R177) -/

/-- `PDONE` stops its threads until their group resumes. DEDUCED (log 118): a thread that was saved in the handler and executes
it after that resumption stops too, until its group resumes from the next pre-emption. -/
def pdoneOp (s : State) (i : Instr) (g : BitVec 5) : State :=
  runCore s i g false (fun _ => true) fun c =>
    if !(c.act.all fun t => t.hnd && bits t.xcause.toNat 0 8 = 8) then c.trapAct s cILLOP else
    let s1 := c.upd (c.done s id) (modThreads c.actTids fun t =>
      { t with wait := .pdone, pc := t.xpc, hnd := false, owes := false, latches := [] })
    keptSave s1 c.cur.gid

def execPdone (f : LongForm) (s : State) : Host.Outcome State Fault Refusal := .next (pdoneOp s (.pdone f) f.g)
def execPdoneS (g : BitVec 5) (s : State) : Host.Outcome State Fault Refusal := .next (pdoneOp s (.pdoneS g) g)

/-! ## Resumption (03 R36, 09 R183, 06 Table 6.8) -/

/-- Gives a saved group's warps numbers of a core. -/
def renumber (used : List Nat) (g : Group) : Group :=
  let (ws, _) := g.warps.foldl (fun (acc : List Warp × List Nat) w =>
    let n := freeNum acc.2
    (acc.1 ++ [{ w with num := n, fcnt := 0, holder := [], moved := [], first := false, held := none }], n :: acc.2)) ([], used)
  { g with warps := ws }

/-- A thread as it resumes: one stopped by `PDONE` runs, an answer is owed no longer, and a growth request is presented
again at the place `k` of the order of issue (06 R106). -/
def resumeThread (k : Nat) (t : Thread) : Thread :=
  { t with
    owes := false
    pre := t.pre && t.hnd
    wait := match t.wait with
      | .pdone => .run
      | .grow n g kd _ => .grow n g kd k
      | w => w }

/-- Threads of a failed deposit: in handler mode the entry is held, else class 6 is taken (09 R183). -/
def derrTids (g : Group) (mask info : W32) : List Nat :=
  (g.threads.filter fun t => t.live && t.tid / 32 = bits info.toNat 8 5 && mask.getLsbD (t.tid % 32)).map (·.tid)

def enterDeposit (s : State) (gid : Gid) : State :=
  match groupOf s gid with
  | none => s
  | some g =>
    match g.derr with
    | none => s
    | some (addr, mask, info) =>
      let reg := bits info.toNat 16 8
      let tids := derrTids g mask info
      let s1 := updGroup s gid (modThreads tids fun t =>
        if t.hnd then { t with dph := some (addr, reg) } else { t with wait := .run })
      let go := g.threads.filter fun t => tids.contains t.tid && !t.hnd
      takeTrap s1 gid (go.map fun t => ⟨t.tid, 6, 0x50, false, t.pc, t.pc, addr, BitVec.ofNat 64 reg⟩)

/-- Messages for the waiting threads of a group that resumes. -/
def deliverAll (core : Nat) : Nat → State → State
  | 0, s => s
  | n + 1, s => deliverAll core n ((List.range 16).foldl (fun s b => deliverMsg s (16 * core + b)) s)

/-- What a restore meets: the area's pages, or the condition that holds it or ends it, poison among them (09 R416). -/
def restoreMeets (s : State) (g : Group) : AreaRes :=
  match areaPages (areaEngine g) g .load (saBytes g / 65536 + 2) 0 (saBytes g) [] s with
  | .ok pages s' =>
    match (List.range (saBytes g / 32 + 1)).find? fun i =>
      (areaLoc g pages (min (32 * i) (saBytes g - 1))).any (poisoned s') with
    | some i => .cls4 0x37 (g.xsave + BitVec.ofNat 64 (min (32 * i) (saBytes g - 1))) s'
    | none => .ok pages s'
  | r => r

/-- Puts a saved group on a core whose restore meets nothing: its latches are empty, every thread covers (11 R212). `owner`
gives the helper that it runs for and its depth (18 R314). -/
def putOnCore (s : State) (gid : Gid) (core : Nat) (owner : Option (Gid × Nat)) : State :=
  match groupOf s gid with
  | none => s
  | some g =>
    let (k, s0) := freshId s
    let s1 := updGroup s0 gid fun g => renumber (usedNums s0 core)
      { g with
        place := .core core
        lastCore := core
        helper := owner.map (·.1)
        depth := (owner.map (·.2)).getD 0
        deadline := none
        keep := none
        searched := false
        chosen := none
        spare := 0
        present := []
        saving := none
        threads := g.threads.map (resumeThread k) }
    let s2 := coverThreads s1 gid (g.threads.map (·.tid))
    let s3 := ownState s2 { g with place := .core core } (if owner.isSome then 5 else 3) 0
    deliverAll core 1 (enterDeposit s3 gid)

/-- Resumes a saved group on a core; a restore that is held, or ends the context, leaves it saved. -/
def resumeGroup (s : State) (gid : Gid) (core : Nat) (owner : Option (Gid × Nat)) : State :=
  match groupOf s gid with
  | none => s
  | some g =>
    match restoreMeets s g with
    | .ok _ s' => putOnCore s' gid core owner
    | r => areaMeets s g false r

/-- Whether a group may resume on a core: a bound mailbox names its core (06 R101). -/
def boxesAllow (s : State) (gid : Gid) (core : Nat) : Bool :=
  s.boxes.all fun (k, b) => b.bound != some gid || k / 16 == core

/-- Whether a mailbox that a thread waits on holds a message. -/
def boxReady (s : State) (t : Thread) : Bool :=
  match t.wait with
  | .mailbox m => !((boxOf s (m.box / 16) (m.box % 16)).msgs.isEmpty)
  | _ => false

/-- The wake condition of a parked group: no deposit is outstanding, and some thread can go on (03 R36). -/
def wakes (s : State) (g : Group) : Bool :=
  g.pend == 0 && g.saveHold.isNone && g.threads.any fun t => t.runnable || boxReady s t

/-- Whether a core's hamlet takes back the groups of running gangs: it has reported ready (01 R19), or had done so when the
exhausted margin of its die cleared the bit, where running gangs complete (27 R398, log 108). -/
def hamletReady (s : State) (core : Nat) : Bool :=
  s.host.ready.contains (.hamlet (core / 8)) || s.host.spent.contains (core / 8)

/-- Whether a saved group fits a core of its die. -/
def roomFor (s : State) (g : Group) (core : Nat) : Bool :=
  hamletReady s core && core / 128 == g.lastCore / 128 && boxesAllow s g.gid core && fitsCore s core (groupWarps g) g.n g.g

/-- The first core of a die that takes a group. -/
def someCore (s : State) (g : Group) : Option Nat :=
  ((List.range 128).map (128 * (g.lastCore / 128) + ·)).find? (roomFor s g)

/-- Puts the groups of a pre-empted gang on cores one after the other; none where one finds no core. -/
def resumeRest : List Gid → State → Option State
  | [], s => some s
  | gid :: rest, s =>
    match groupOf s gid with
    | none => resumeRest rest s
    | some g =>
      match someCore s g with
      | some c => resumeRest rest (putOnCore s gid c none)
      | none => none

/-- The first restore among some groups that is held or ends its context, with the group. -/
def restoreStops (s : State) (gs : List Group) : Option (Group × AreaRes) :=
  gs.findSome? fun g => match restoreMeets s g with
    | .ok _ _ => none
    | r => some (g, r)

/-- Resumes a pre-empted gang, all or none (09 R178): while the restore of one group is held, none resumes. -/
def resumeGang (s : State) (tag : Nat) (first : Gid) (core : Nat) : State :=
  let saved := (gangGroups s tag).filter fun g => g.place == .preempted
  if saved.any fun g => g.pend != 0 || g.saveHold.isSome then s else
  match restoreStops s saved with
  | some (g, r) => areaMeets s g false r
  | none =>
    let s0 := saved.foldl (fun s g => match restoreMeets s g with
      | .ok _ s' => s'
      | _ => s) s
    match resumeRest ((saved.filter fun g => g.gid != first).map (·.gid)) (putOnCore s0 first core none) with
    | some s2 => updGang s2 tag fun x => { x with preSent := false, preSaved := false }
    | none => s

def execGroupResume (tag grp core : Nat) (s : State) : Host.Outcome State Fault Refusal :=
  .next (match groupOf s ⟨tag, grp⟩ with
    | none => s
    | some g =>
      if !roomFor s g core then s
      else if g.place == .parked && wakes s g then resumeGroup s g.gid core none
      else if g.place == .preempted && (gangOf s tag).any (·.preSaved) then resumeGang s tag g.gid core
      else s)

/-! ## Helpers (18 R314, 21 R321, R323) -/

/-- Whether the owner that a helper has adopted is still to be committed. -/
def ownerComes (s : State) (h : Gid) : Bool := s.dies.any fun (_, d) => d.placed.any fun p => p.owner.any fun o => o.1 = h

/-- Whether the owner that a helper runs has failed and its record does not say so yet (18 R316). -/
def ownerFailing (s : State) (h : Gid) : Bool := s.groups.any fun x => x.helper == some h && x.place == .done

def helperDue (s : State) (g : Group) : Bool :=
  orphan s g && !ownerFailing s g.gid && g.saveHold.isNone && g.pend == 0 && g.chosen.isNone && !ownerComes s g.gid

/-- The status word of `HELPQ` reaches its threads, tagged by 06 R94. DESIGN CHOICE (log 96): it fills no latch, since the save
has emptied the entry that the issue pushed (09 R177). -/
def giveHelp (g : Group) : Group :=
  match g.helpq with
  | none => g
  | some r =>
    let tag (w : Warp) : Tag := if w.tids.all (r.tids.contains ·) then .uni else .gen
    let one (t : Thread) : Thread :=
      { (if r.toReg then t.write r.dst false (r.word.setWidth 64) else t) with pc := t.wnext }
    let mark (w : Warp) : Warp :=
      if r.toReg && w.tids.any (r.tids.contains ·) then { w with tags := tset Tag.uni w.tags r.dst (tag w) } else w
    { modThreads r.tids one g with warps := g.warps.map mark, helpq := none }

/-- A waiting access of a helper's thread is presented again (18 R314, R316, 21 R323): decided anew, then sent as a request
that was negatively acknowledged, or, for a mailbox, with the record that is bound to it now. An `FLD` whose record says that
the owner has failed completes with its cause. `acc` holds the conditions met so far and the threads whose home holds the
access, which are presented later. -/
def presentThread (gid : Gid) (acc : List Met × List Nat × State) (tid : Nat) : List Met × List Nat × State :=
  let s := acc.2.2
  match groupOf s gid, threadOf s gid tid with
  | some g, some t =>
    let decided (va : W64) (n : Nat) (a : Acc) (go : State → Places → State) : List Met × List Nat × State :=
      match decideAccess s (coreOf g) (coreOf g / 8) g.asn va n n a with
      | (.ok p, s') => (acc.1, acc.2.1, go s' p)
      | (.waits, s') => (acc.1, acc.2.1 ++ [tid], s')
      | (d, s') => (acc.1 ++ (d.met t a).toList, acc.2.1, s')
    match t.wait with
    | .monitor m =>
      if m.hit.isSome then acc else
      decided m.va (tyBits m.ty / 8) .load fun s' p =>
        let m' := { m with loc := p.locs.headD 0, peer := p.peer, placed := false, sent := s.sch.cycle }
        resendMonitor (updThread s' gid tid fun t => { t with wait := .monitor m' }) g tid m'
    | .future f =>
      if f.hit.isSome then acc else
      (match failedOwner s g f.orec with
        | (some cause, s') => (acc.1, acc.2.1, endFuture s' g tid f (BitVec.ofNat 64 cause) false)
        | (none, _) => decided f.va 16 .load fun s' p =>
            let f' := { f with loc := p.locs.headD 0, peer := p.peer, placed := false, sent := s.sch.cycle }
            resendFuture (updThread s' gid tid fun t => { t with wait := .future f' }) g tid f')
    | .mailbox m =>
      decided m.va 64 .store fun s' _ =>
        let m' := { m with orec := ((boxOf s' (m.box / 16) (m.box % 16)).orec).map (·.1) }
        deliverMsg (updThread s' gid tid fun t => { t with wait := .mailbox m' }) m.box
    | _ => acc
  | _, _ => acc

/-- The waiting accesses of some threads of a helper are presented again, the conditions that they meet taken together; a
thread whose home holds its access is presented before any instruction of the group issues. -/
def presentAll (s : State) (gid : Gid) (tids : List Nat) : State :=
  let (met, again, s1) := tids.foldl (presentThread gid) ([], [], s)
  updGroup (meetAll s1 gid met) gid fun g => { g with present := again }

/-- A helper resumes on its core: the word of its `HELPQ` arrives, and its waiting accesses are presented again before any
other instruction of it issues. -/
def resumeHelper (s : State) (g : Group) : State :=
  let s1 := unblockFreed s (resumeGroup s g.gid g.lastCore (if g.depth = 0 then none else g.helper.map fun h => (h, g.depth)))
    g.lastCore
  if (groupOf s1 g.gid).any onCore then presentAll (updGroup s1 g.gid giveHelp) g.gid (g.threads.map (·.tid))
  else s1

/-! ## Swap-out (03 R35, R36) -/

/-- Whether a waiting thread lets its group swap out. -/
def maySwap (s : State) (t : Thread) : Bool :=
  match t.wait with
  | .barrier _ since => since + 4096 ≤ s.sch.cycle
  | .monitor m => m.hit.isNone
  | .future f => f.hit.isNone
  | .mailbox _ | .slot _ | .ring _ _ | .fault _ _ _ _ _ => true
  | _ => false

def swapDue (s : State) (g : Group) : Bool :=
  onCore g && g.saveHold.isNone && g.present.isEmpty && !((gangOf s g.gid.tag).any fun x => x.preSent || x.stopped) &&
    (g.threads.any fun t => t.live && maySwap s t) &&
    g.threads.all fun t => !t.live || t.held || maySwap s t

def execSwapOut (tag grp : Nat) (s : State) : Host.Outcome State Fault Refusal :=
  .next (match groupOf s ⟨tag, grp⟩ with
    | none => s
    | some g => if swapDue s g then parkGroup s g.gid false .parked else s)

/-! ## Pre-emption (09 R176 to R178, 03 R41, R42) -/

/-- The group that runs as the owner adopted by a helper. -/
def ownerOf (s : State) (h : Gid) : Option Group := s.groups.find? fun g => g.helper == some h

/-- Parks the owners above a helper, the top one first, so that the helper resumes (R42). -/
def unwind : Nat → Gid → State → State
  | 0, _, s => s
  | n + 1, h, s =>
    match groupOf s h with
    | none => s
    | some g =>
      if g.place != .below then s else
      let s1 := match ownerOf s h with
        | some o => parkGroup (unwind n o.gid s) o.gid false .parked
        | none => s
      match groupOf s1 h with
      | some g1 => if helperDue s1 g1 then resumeHelper s1 g1 else s1
      | none => s1

/-- The pre-emption budget of a gang: 0 is the default of 10,000 ns. -/
def preBudget (x : Gang) : Nat := if x.launch.tmpl.gpbud = 0#32 then 10000 else x.launch.tmpl.gpbud.toNat

/-- Whether a whole group waits: for growth, or for deposits (03 R35). -/
def groupWaits (g : Group) : Bool := (pendingGrow g).isSome || depWaits g

/-- The signal in one group (09 R176): runnable threads enter the handler, threads in the handler hold the entry; in a group
that waits as a whole none enters (03 R41). -/
def signalGroup (s : State) (gid : Gid) (deadline : Nat) : State :=
  let s0 := unwind 5 gid s
  match groupOf s0 gid with
  | none => s0
  | some g =>
    if g.place == .parked then updGroup s0 gid fun g => { g with place := .preempted }
    else if !onCore g || g.deadline.isSome then s0
    else if g.helper.isSome then parkGroup s0 gid false .preempted
    else
      let s1 := updGroup s0 gid fun g =>
        { g with
          deadline := some deadline
          keep := none
          chosen := none
          helpq := none
          warps := g.warps.map fun w => { w with held := none }
          threads := g.threads.map fun t => if t.hnd && t.live then { t with pre := true } else t }
      let go := g.threads.filter fun t => t.runnable && !t.hnd && !groupWaits g
      keptSave (takeTrap s1 gid (go.map fun t => ⟨t.tid, 8, 0x70, false, t.pc, t.pc, 0#64, 0#64⟩)) gid

def signalDue (s : State) (x : Gang) : Bool :=
  x.started && !x.stopped && !x.preSent && !(dieOf s x.die).hung && (gangGroups s x.tag).any fun g => g.place != .done

/-- Whether a group of a signalled gang is still parked below an owner, whose save was held (R42). -/
def signalLeft (s : State) (x : Gang) : Bool :=
  x.preSent && !x.stopped && (gangGroups s x.tag).any fun g => g.place == .below

def execPreemptSignal (tag : Nat) (s : State) : Host.Outcome State Fault Refusal :=
  .next (match gangOf s tag with
    | none => s
    | some x =>
      if signalDue s x then
        let due := nowNs s + preBudget x
        let s1 := updGang s tag fun x => { x with preSent := true, preSaved := false, preDue := due }
        markSaved ((gangGroups s tag).foldl (fun s g => signalGroup s g.gid due) s1) tag
      else if signalLeft s x then
        ((gangGroups s tag).filter fun g => g.place == .below).foldl (fun s g => signalGroup s g.gid x.preDue) s
      else s)

/-- A helper that resumes after the signal reached its gang takes it then (R42). What the homes of a resumed helper hold of
its waiting accesses is presented once they are free. -/
def execHelperResume (tag grp : Nat) (s : State) : Host.Outcome State Fault Refusal :=
  .next (match groupOf s ⟨tag, grp⟩ with
    | none => s
    | some g =>
      if onCore g && !g.present.isEmpty then presentAll s g.gid g.present else
      if helperDue s g then
        match gangOf s tag with
        | some x => if x.preSent && !x.stopped then signalGroup (resumeHelper s g) g.gid x.preDue else resumeHelper s g
        | none => resumeHelper s g
      else s)

def deadlineDue (s : State) (x : Gang) : Bool :=
  x.preSent && !x.stopped && (gangGroups s x.tag).any fun g =>
    onCore g && g.saveHold.isNone && g.deadline.any fun d => d ≤ nowNs s

def execPreemptDeadline (tag : Nat) (s : State) : Host.Outcome State Fault Refusal :=
  .next (match gangOf s tag with
    | none => s
    | some x =>
      if deadlineDue s x then
        markSaved ((gangGroups s tag).foldl (fun s g =>
          if answered s g then keptSave s g.gid else parkGroup s g.gid true .preempted) s) tag
      else s)

end Sys2Proof.Machine
end

