-- ==== Sys2Proof/Machine/Hayward.lean ====
section
/-! DEFINITION. The hayward's accesses, what a fault on a stream does, posting to a stream, completion posts, and
interrupts (15 R258, R260, R264, R266, R417, 17 R293, 27 R396). -/

namespace Sys2Proof.Machine

open Sys2Proof

/-! ## Accesses of an engine of a die -/

/-- What an access of an engine comes to: the bytes at its places, or a condition. Poison is cause 0x37. -/
inductive HayRes where
  | ok (b : Bytes) (locs : List Nat)
  | cls3 (cause : Nat) (addr : W64)
  | bad (cause : Nat) (addr : W64)
  | waits
  deriving DecidableEq, Repr

/-- A stream's hayward as a reader and a writer, and one that acts for a launch. -/
def hayWho (n die : Nat) : Who := engineWho (.stream n) die
def launchWho (l : Launch) (die : Nat) : Who := { hayWho l.stream die with all := [.stream l.stream, .gang l.tag] }

/-- An access by the walkers of a die; `clean` refuses poison, as a read or a partial write does. A read by `me` may miss
writes (11 R211); with none the bytes are taken as they stand at their homes. -/
def hayAccess (s : State) (me : Option Who) (die asn : Nat) (va : W64) (n align : Nat) (a : Acc) (clean : Bool) : HayRes × State :=
  match decideAccess s (1024 + die) (16 * die) asn va n align a with
  | (.cls3 cause addr, s') => (.cls3 cause addr, s')
  | (.cls4 cause addr, s') => (.bad cause addr, s')
  | (.waits, s') => (.waits, s')
  | (.ok p, s') =>
    if unreached s'.fab p then (.bad 0x35 va, s')
    else if clean && p.locs.any (poisoned s') then (.bad 0x37 va, s')
    else match me with
      | none => (.ok (p.locs.map (homeByte s'.mm)) p.locs, s')
      | some w => (.ok (seenBytes s' w 3 byPart p.locs) p.locs, lookPast s' w 3 byPart p.locs)

/-- A write of an engine at its places; at `sys` it is a release. -/
def hayWrite (s : State) (me : Who) (locs : List Nat) (b : Bytes) (sys : Bool) : State :=
  writeAs s { deviceWriter with src := some (3, me.own) } (locs.zip b) me (if sys then 7 else 0)

/-- A read of an engine that acquires at `sys`. -/
def haySync (s : State) (me : Who) (locs : List Nat) : State :=
  let s1 := takeMarks s 7 locs
  if readsNewest s1 me 3 byPart locs then { s1 with mm := acquire s1.mm me 7 locs } else s1

/-! ## Streams -/

/-- The size of a ring, and the address of the slot of an index (15 R258). -/
def ringSize (st : Stream) : Nat := 2 ^ st.lsize
def slotVa (st : Stream) (i : W32) : W64 := st.sbase + BitVec.ofNat 64 (64 * (i.toNat % ringSize st))

/-- Whether a stream accepts posts. -/
def streamOpen (st : Stream) : Bool := st.en && !st.rst

/-- A tail write (R260). -/
def tailWrite (t : W32) (st : Stream) : Stream :=
  let d := (t - st.stail).toNat
  if !streamOpen st || d = 0 || 2 ^ 31 ≤ d then st
  else if ringSize st < (t - st.shead).toNat then { st with ovf := true }
  else { st with stail := t }

/-- A post that is discarded. -/
def dropPost (s : State) (n : Nat) : State := updStream s n fun st => { st with drop := min 0xFFFF (st.drop + 1) }

/-- The kind, the stream and the post mark in `info` (15 R266, R417). -/
def streamInfo (asn kind n : Nat) (post : Bool) : W64 :=
  cls3Info asn kind false + BitVec.ofNat 64 (2 ^ 31 + n * 2 ^ 32 + post.toNat * 2 ^ 48)

def streamFRec (cls cause : Nat) (addr info : W64) (rpl : Bool) : FRec :=
  { cls := cls, cause := cause, prec := cls == 3, fwd := false, rpl := rpl, lanes := 0#32, who := 0#32, tag := 0,
    pc := 0#64, addr := addr, info := info, hlp := none }

/-- The record of a class 3 condition of a stream, which no access joins; none while the queue is full. -/
def streamRecord (s : State) (n cause : Nat) (addr : W64) (kind : Nat) (post : Bool) : RecRef × State :=
  let st := streamOf s n
  if queueTaken s st.odie then (none, s) else
  let r := streamFRec 3 cause addr (streamInfo st.asn kind n post) true
  let (slot, s') := putRecord s st.odie (r.bytes (nowNs s)) (some ⟨st.asn, pageOf addr, kind, false, addr, none, some 0⟩)
  (some (st.odie, slot), s')

/-- A class 3 condition of a fetch stalls the stream (R266). -/
def stallStream (s : State) (n cause : Nat) (addr : W64) (kind : Nat) : State :=
  let (ref, s1) := streamRecord s n cause addr kind false
  updStream s1 n fun st => { st with stall := true, ref := some ref }

/-- Another condition of a fetch: one record, and the stream is dead (R266). -/
def killStream (s : State) (n cause : Nat) (addr : W64) (kind : Nat) : State :=
  let st := streamOf s n
  let r := streamFRec 4 cause addr (streamInfo st.asn kind n false) false
  updStream (postRecord s st.odie (r.bytes (nowNs s))) n fun st => { st with dead := true }

/-- A record of a reeve queue is resolved. -/
def resolveRec (s : State) (ref : RecRef) : State :=
  match ref with
  | some (die, slot) => updDie s die fun d => { d with recs := tdel d.recs slot }
  | none => s

/-! ## Posting (15 R264) -/

/-- Who posts: the engine and hamlet of its accesses, the source in `eflg`, the scope of the release, who makes it, and the
writer. -/
structure Poster where
  eng    : Nat
  ham    : Nat
  src    : Nat
  scope  : Nat
  me     : Who
  writer : Writer

/-- What a post comes to. -/
inductive PostRes where
  | posted
  | closed
  | full
  | cls3 (cause : Nat) (addr : W64)
  | cls4 (cause : Nat) (addr : W64)
  | poison (cause : Nat) (addr : W64)
  | waits
  deriving DecidableEq, Repr

/-- The bytes of a record (15 Table 15.4). -/
def eventBytes (i : W32) (etype src ts : Nat) (payload : Bytes) : Bytes :=
  le32 i ++ natLe 2 etype ++ natLe 1 (2 * src) ++ zeros 1 ++ natLe 8 ts ++ payload.take 48 ++ zeros (48 - payload.length)

/-- Writes a record at its slot and the tail, the index being reserved with it; the accesses are decided first, so that a
post which a condition ends has reserved nothing. -/
def postAt (s : State) (by_ : Poster) (n etype ts : Nat) (payload : Bytes) (ctl : Places) (i : W32) : PostRes × State :=
  let st := streamOf s n
  match decideAccess s by_.eng by_.ham st.asn (slotVa st i) 64 64 .store with
  | (.cls3 cause addr, s') => (.cls3 cause addr, s')
  | (.cls4 cause addr, s') => (.cls4 cause addr, s')
  | (.waits, s') => (.waits, s')
  | (.ok p, s') =>
    if unreached s'.fab p then (.poison 0x35 (slotVa st i), s') else
    let s1 := writeAs s' { by_.writer with core := none, rmw := true } ((ctl.locs.take 4).zip (le32 (i + 1))) by_.me by_.scope
    let s2 := match by_.writer.core with
      | some c => { s1 with mm := dropL1 s1.mm c ctl.locs }
      | none => s1
    let b := eventBytes i etype by_.src ts payload
    -- the hayward's read of the record carries from `CORE` to `HAY` (11 Table 11.3)
    let s3 := applyWrite s2 { by_.writer with past := p.unc } (p.locs.zip b)
    let s4 := acquireAnswered s2 (markWrite s3 by_.me by_.scope (p.locs.take 4) (carryFrom 0 3))
    (.posted, updStream s4 n (tailWrite (i + 1)))

/-- `EVPOST`'s work for one post. -/
def postTo (s : State) (by_ : Poster) (n etype ts : Nat) (payload : Bytes) : PostRes × State :=
  let st := streamOf s n
  if !streamOpen st then (.closed, dropPost s n) else
  match decideAccess s by_.eng by_.ham st.asn st.scba 8 4 .store with
  | (.cls3 cause addr, s') => (.cls3 cause addr, s')
  | (.cls4 cause addr, s') => (.cls4 cause addr, s')
  | (.waits, s') => (.waits, s')
  | (.ok p, s') =>
    if unreached s'.fab p then (.poison 0x35 st.scba, s')
    else if p.locs.any (poisoned s') then (.poison 0x37 st.scba, s')
    else
      let b := p.locs.map (homeByte s'.mm)
      if (f32 b 0 - f32 b 4).toNat < ringSize st then postAt s' by_ n etype ts payload p (f32 b 0) else (.full, s')

/-! ## Completion posts (15 R417) and service events (27 R396) -/

/-- The hayward as a poster. -/
def hayPoster (die : Nat) (p : Post) : Poster :=
  ⟨1024 + die, 16 * die, p.source, 7, engineWho (.post p.id) die, { deviceWriter with src := some (3, .post p.id) }⟩

/-- What a post that has been made or dropped lets go on: the gang's own completion (17 R300). -/
def afterPost (s : State) (p : Post) : State :=
  if p.after then updGang s p.tag fun g => { g with phase := 2 } else s

/-- Removes the first waiting post. -/
def endPost (s : State) (n : Nat) (p : Post) : State :=
  let s1 := updStream s n fun st => { st with posts := st.posts.drop 1 }
  afterPost { s1 with mm := forget s1.mm (· == .post p.id) } p

/-- Makes a stream's waiting posts while they can be made, in their order; a service event takes its time at the post
(27 R396). -/
def runPosts (n : Nat) : Nat → State → State
  | 0, s => s
  | k + 1, s =>
    let st := streamOf s n
    match st.posts, st.postRef with
    | p :: _, none =>
      match postTo s (hayPoster st.odie p) n p.etype (if p.source = 3 then nowNs s else p.ts) p.payload with
      | (.posted, s') | (.closed, s') => runPosts n k (endPost s' n p)
      | (.full, s') | (.waits, s') => s'
      | (.cls3 cause addr, s') =>
        let (ref, s1) := streamRecord s' n cause addr 1 true
        updStream s1 n fun st => { st with postRef := some ref }
      | (.cls4 _ addr, s') | (.poison _ addr, s') =>
        runPosts n k (endPost (postRecord s' st.odie (noticeBytes 6 addr n (nowNs s'))) n p)
    | _, _ => s

def retryPosts (s : State) (n : Nat) : State := runPosts n ((streamOf s n).posts.length) s

/-- A post joins the stream's waiting posts and is made as soon as it can be: the accesses of the work that it reports come
before its consumption, to `HAY` from whichever path (11 Tables 11.2, 11.3). -/
def postEvent (s : State) (n : Nat) (p : Post) (work : Past → Option (List Nat)) : State :=
  let (id, s1) := freshId s
  let s2 := { s1 with mm := learnTo s1.mm work (.post id) carryHay }
  retryPosts (updStream s2 n fun st => { st with posts := st.posts ++ [{ p with id := id }] }) n

/-- The tag of a post that reports no gang's work. -/
def noTag : Nat := 2 ^ 32

/-- A service event of the reeve of die `d` (27 Table 27.9): kind, the die concerned and the other die. -/
def serviceEvent (s : State) (d kind about other : Nat) : State :=
  let x := dieOf s d
  if !x.sven || x.hung then s else
  postEvent s x.svstr ⟨x.svtype.toNat, 3, nowNs s, natLe 4 kind ++ natLe 4 about ++ natLe 4 other, noTag, false, 0⟩ fun _ => none

/-! ## Interrupts (17 R293, 01 R17) -/

/-- A word of the MSI-X table: the vector control resets to masked (log 14). -/
def msixWord (h : HostIf) (v w : Nat) : W32 := tget (if w = 3 then 1#32 else 0#32) h.msix (4 * v + w)

/-- Sends a vector's message. -/
def sendMsix (h : HostIf) (v : Nat) : HostIf :=
  { h with msgs := h.msgs ++ [(v, join64 (msixWord h v 0) (msixWord h v 1), msixWord h v 2)] }

/-- Raises a vector: its message is sent, or stays pending while the vector is masked. -/
def raiseMsix (s : State) (v : Nat) : State :=
  { s with host :=
      if (msixWord s.host v 3).getLsbD 0 then
        { s.host with pba := if s.host.pba.contains v then s.host.pba else s.host.pba ++ [v] }
      else sendMsix s.host v }

/-! ## Ready haywards (16 R280, 27 R391, R393) -/

def hayReady (s : State) (d : Nat) : Bool := s.host.ready.contains (.hayward d)

/-- Whether work on a stream goes on: its die's hayward is ready, or the stream is still to be moved from it (27 R393). -/
def goesOn (s : State) (n : Nat) : Bool :=
  let d := (streamOf s n).odie
  hayReady s d || (dieOf s d).moving.contains n

/-- A hayward that cannot become ready: its bring-up failed, or its die's streams have moved. -/
def hayNever (s : State) (d : Nat) : Bool :=
  !hayReady s d && (s.host.failed.contains (.hayward d) || (dieOf s d).moved)

end Sys2Proof.Machine
end

