-- ==== Sys2Proof/Machine/Match.lean ====
section
/-! DEFINITION. Automata: images (16 R269 to R271), clocks and guards (R272, R273), offering and taking edges (R274, R275),
pending times (R276), acceptance (R277), room (R278). -/

namespace Sys2Proof.Machine

open Sys2Proof

/-! ## The image (16 Tables 16.1 to 16.4) -/

def imEdges (b : Bytes) : Nat := bits (field b 4 4) 0 5 + 1
def imStates (b : Bytes) : Nat := bits (field b 4 4) 5 4 + 1
def imClocks (b : Bytes) : Nat := bits (field b 4 4) 9 3
def imSlots (b : Bytes) : Nat := bits (field b 4 4) 12 4
def imUnit (b : Bytes) : Nat := 2 ^ bits (field b 4 4) 16 5
def imOnce (b : Bytes) : Bool := bit (field b 4 4) 21
def imQuota (b : Bytes) : Nat := bits (field b 8 4) 0 13
def imPolicy (b : Bytes) : Nat := bits (field b 8 4) 16 2
def imTemplate (b : Bytes) (i : Nat) : W64 := f64 b (0x10 + 8 * i)
def imBytes (b : Bytes) : Nat := 0xC0 + 32 * imEdges b
def imState (b : Bytes) (q : Nat) : Nat := field b (0x40 + 8 * q) 8

/-- An edge entry. -/
structure Edge where
  ctl  : Nat
  sel  : Nat
  pgrd : Nat
  pval : Nat
  cgrd : Nat
  bnd  : Nat
  rsv  : Nat
  deriving DecidableEq, Repr

def imEdge (b : Bytes) (i : Nat) : Edge :=
  let o := 0xC0 + 32 * i
  ⟨field b o 4, field b (o + 4) 4, field b (o + 8) 4, field b (o + 12) 4, field b (o + 16) 4, field b (o + 20) 4,
    field b (o + 24) 8⟩

def Edge.from_ (e : Edge) : Nat := bits e.ctl 0 4
def Edge.to (e : Edge) : Nat := bits e.ctl 4 4
def Edge.kind (e : Edge) : Nat := bits e.ctl 8 2
def Edge.acc (e : Edge) : Bool := bit e.ctl 10
def Edge.excl (e : Edge) : Bool := bit e.ctl 11
def Edge.bind (e : Edge) : Bool := bit e.ctl 12
def Edge.bslot (e : Edge) : Nat := bits e.ctl 13 3
def Edge.rstm (e : Edge) : Nat := bits e.ctl 16 4
def Edge.tidx (e : Edge) : Nat := bits e.ctl 20 2
def Edge.tval (e : Edge) : Nat := bits e.sel 0 16
def Edge.tmask (e : Edge) : Nat := bits e.sel 16 16
def Edge.pword (e : Edge) : Nat := bits e.pgrd 0 4
def Edge.pcc (e : Edge) : Nat := bits e.pgrd 4 3
def Edge.psrc (e : Edge) : Bool := bit e.pgrd 7
def Edge.pslot (e : Edge) : Nat := bits e.pgrd 8 3
def Edge.cclk (e : Edge) : Nat := bits e.cgrd 0 2
def Edge.ccc (e : Edge) : Nat := bits e.cgrd 2 3

def imEdgeList (b : Bytes) : List Edge := (List.range (imEdges b)).map (imEdge b)

/-! ## Malformed images (R271) -/

def badHeader (b : Bytes) : Bool :=
  bits (field b 4 4) 22 10 != 0 || bits (field b 8 4) 13 3 != 0 || bits (field b 8 4) 18 14 != 0 || field b 0x30 16 != 0 ||
  4 < imClocks b || 8 < imSlots b || 20 < bits (field b 4 4) 16 5

def badState (b : Bytes) (q : Nat) : Bool :=
  let e := imState b q
  (imStates b ≤ q && e != 0) || bits e 2 29 != 0 ||
  (bit e 31 && (q == 0 || imClocks b ≤ bits e 0 2 || bits e 32 32 == 0))

def badEdge (b : Bytes) (e : Edge) : Bool :=
  bits e.ctl 22 10 != 0 || bits e.pgrd 11 21 != 0 || bits e.cgrd 5 27 != 0 || e.rsv != 0 ||
  imStates b ≤ e.from_ || imStates b ≤ e.to || e.kind == 3 || e.pcc == 7 || 5 ≤ e.ccc || 11 < e.pword ||
  Nat.land e.tval e.tmask != e.tval ||
  (e.psrc && imSlots b ≤ e.pslot) || (e.bind && imSlots b ≤ e.bslot) || e.rstm / 2 ^ imClocks b != 0 ||
  (e.ccc != 0 && imClocks b ≤ e.cclk) || (e.acc && imTemplate b e.tidx == 0#64) || (e.excl && e.kind != 0) ||
  (e.kind == 1 && (e.from_ == 0 || e.acc || e.bind || e.rstm != 0)) ||
  (e.kind == 2 && (e.from_ == 0 || e.sel != 0 || e.pgrd != 0 || e.pval != 0 || e.ccc != 0 || e.bind ||
    imClocks b ≤ e.cclk || e.bnd == 0 || (e.to != 0 && !bit e.rstm e.cclk)))

/-- The error code and index of a malformed image: the lowest code, and within it the lowest index. -/
def malformed (b : Bytes) : Option (Nat × Nat) :=
  if field b 0 4 ≠ 0x414D0001 then some (1, 0)
  else if badHeader b then some (2, 0)
  else if imQuota b = 0 || 4096 < imQuota b then some (3, 0)
  else match (List.range 16).find? (badState b) with
    | some q => some (4, q)
    | none => ((List.range (imEdges b)).find? fun i => badEdge b (imEdge b i)).map fun i => (5, i)

/-! ## Clocks and guards (R272, R273) -/

def clockVal (b : Bytes) (c : Cand) (k tau : Nat) : Nat := min ((tau - c.resets.getD k 0) / imUnit b) (2 ^ 32 - 1)

/-- A comparison by code: `eq`, `ne`, `lt`, `le`, `gt`, `ge`. -/
def cmpCode (cc a b : Nat) : Bool :=
  match cc with
  | 1 => a == b
  | 2 => a != b
  | 3 => a < b
  | 4 => a ≤ b
  | 5 => b < a
  | 6 => b ≤ a
  | _ => true

def evType (ev : Bytes) : Nat := field ev 4 2
def payWord (ev : Bytes) (w : Nat) : Nat := field ev (16 + 4 * w) 4

def edgeHolds (b : Bytes) (c : Cand) (ev : Bytes) (tau : Nat) (e : Edge) : Bool :=
  Nat.land (evType ev) e.tmask == e.tval &&
  cmpCode e.pcc (payWord ev e.pword)
    (if e.psrc then ((c.slots.getD e.pslot none).map fun x => payWord x e.pword).getD 0 else e.pval) &&
  (e.ccc == 0 || cmpCode (e.ccc + 2) (clockVal b c e.cclk tau) e.bnd)

/-! ## Lookups -/

def autoOf (s : State) (die slot : Nat) : Option Automaton := tfind (dieOf s die).autos slot
def updAuto (s : State) (die slot : Nat) (f : Automaton → Automaton) : State :=
  match autoOf s die slot with
  | some a => updDie s die fun d => { d with autos := tput d.autos slot (f a) }
  | none => s

def candsOf (d : Die) : Nat := (d.autos.map fun (_, a) => a.cands.length).sum

/-- Room for a candidate (R278). -/
def hasRoom (s : State) (die : Nat) (a : Automaton) : Bool := a.cands.length < imQuota a.img && candsOf (dieOf s die) < 4096

def countLost (a : Automaton) : Automaton := { a with novf := min 0xFFFF (a.novf + 1) }

/-- Automata armed on a stream, in arming order (R279). -/
def armedOn (s : State) (die n : Nat) : List (Nat × Automaton) :=
  sortBy (fun x y => x.2.armed.getD 0 < y.2.armed.getD 0)
    ((dieOf s die).autos.filter fun (_, a) => a.stream = n && a.armed.isSome)

/-- A disarmed automaton without candidates. -/
def disarmed (a : Automaton) : Automaton := { a with armed := none, cands := [] }

/-! ## Taking an edge (R274, R277) -/

def discardCand (s : State) (die slot id : Nat) : State :=
  updAuto s die slot fun a => { a with cands := a.cands.filter fun c => c.id != id }

/-- A candidate after an edge's bind and resets. -/
def moveCand (e : Edge) (ev : Option Bytes) (tau : Nat) (c : Cand) : Cand :=
  { c with
    state := e.to
    slots := if e.bind then c.slots.set e.bslot ev else c.slots
    resets := c.resets.zipIdx.map fun (r, k) => if bit e.rstm k then tau else r }

def setHold (s : State) (n : Nat) (h : OfferHold) : State := updStream s n fun st => { st with hold := some h }

/-- A hold for room ends (R278): its notice is resolved, and with `drop` the new candidate is dropped. -/
def endHold (s : State) (n : Nat) (drop : Bool) : State :=
  match (streamOf s n).hold with
  | none => s
  | some h =>
    let s1 := setHold (resolveRec s h.notice) n
      { h with full := false, notice := none, start := h.start && !(drop && h.full) }
    if drop && h.full then updAuto s1 (streamOf s n).odie h.slot countLost else s1

/-- Ends an automaton's part in its stream's offer: it is offered nothing more of the event, and a candidate that the offer
holds for is dropped (R274, R278). An offer is made at the stream's owning die. -/
def leaveOffer (s : State) (n die slot : Nat) : State :=
  if (streamOf s n).odie ≠ die then s else
  match (streamOf s n).hold with
  | none => s
  | some h =>
    if h.slot = slot then
      updStream (endHold s n true) n fun st => { st with hold := st.hold.map fun h =>
        { h with slot := 256, cands := [], start := false, seen := h.seen ++ [slot] } }
    else setHold s n { h with todo := h.todo.filter (· != slot), seen := h.seen ++ [slot] }

/-- `Take`: `c` is the candidate as it stands, already listed or new. The first acceptance of a `once` automaton ends its
matching (R277). -/
def takeEdge (s : State) (n die slot : Nat) (c : Cand) (e : Edge) (ev : Option Bytes) (tau : Nat) (index : W32) : State :=
  match autoOf s die slot with
  | none => s
  | some a =>
    let c' := moveCand e ev tau c
    let rest := a.cands.filter fun x => x.id != c.id
    let kept := if e.to = 0 then rest
      else if a.cands.any fun x => x.id = c.id then a.cands.map fun x => if x.id = c.id then c' else x
      else a.cands ++ [c']
    let s1 := updAuto s die slot fun a => { a with cands := kept }
    if !e.acc then s1 else
    let x : Accept := ⟨die, slot, imTemplate a.img e.tidx, c'.slots, tau, index, ev.isNone, none, none, false⟩
    let s2 := updStream s1 n fun st => { st with accepts := st.accepts ++ [x] }
    if imOnce a.img then updAuto (leaveOffer s2 n die slot) die slot disarmed else s2

/-! ## Pending times (R276) -/

/-- A pending time: its place in the order of R276, the automaton, the candidate, and the edge of a deadline. -/
structure Pending where
  time : Nat
  key  : List Nat
  slot : Nat
  cand : Cand
  edge : Option Edge
  deriving DecidableEq, Repr

def lexLe : List Nat → List Nat → Bool
  | [], _ => true
  | _ :: _, [] => false
  | a :: r, b :: t => a < b || (a == b && lexLe r t)

def candTimes (slot : Nat) (a : Automaton) (i : Nat) (c : Cand) : List Pending :=
  let at_ (clk bnd : Nat) : Nat := c.resets.getD clk 0 + bnd * imUnit a.img
  let ds := (imEdgeList a.img).zipIdx.filterMap fun (e, j) =>
    if e.kind = 2 && e.from_ = c.state then
      some ⟨at_ e.cclk e.bnd, [at_ e.cclk e.bnd, 0, a.armed.getD 0, i, j], slot, c, some e⟩
    else none
  let q := imState a.img c.state
  if bit q 31 then
    let x := at_ (bits q 0 2) (bits q 32 32)
    ds ++ [⟨x, [x, 1, a.armed.getD 0, i, 0], slot, c, none⟩]
  else ds

def autoTimes (slot : Nat) (a : Automaton) : List Pending :=
  if a.armed.isSome then (a.cands.zipIdx.map fun (c, i) => candTimes slot a i c).flatten else []

/-- The first of some pending times. -/
def firstTime : List Pending → Option Pending
  | [] => none
  | p :: r =>
    match firstTime r with
    | none => some p
    | some q => if lexLe p.key q.key then some p else some q

/-- The first pending time of the automata armed on a stream, or of those of a die for which `ok` holds. -/
def streamTime (s : State) (die n : Nat) : Option Pending :=
  firstTime ((armedOn s die n).map fun (k, a) => autoTimes k a).flatten

/-- Takes a deadline edge at its own time, or discards an expired candidate. -/
def processTime (s : State) (die n : Nat) (p : Pending) : State :=
  match p.edge with
  | some e => takeEdge s n die p.slot p.cand e none p.time (streamOf s n).shead
  | none => discardCand s die p.slot p.cand.id

/-! ## Offering (R274, R275, R278) -/

def emptyCand (s : State) (a : Automaton) (tau : Nat) : Cand :=
  ⟨s.sch.ids, 0, tau, List.replicate (imClocks a.img) tau, List.replicate (imSlots a.img) none⟩

/-- The hold at the beginning of an automaton's part of an offer; the part before it is over. -/
def beginAuto (s : State) (die : Nat) (h : OfferHold) (slot : Nat) (todo : List Nat) : OfferHold :=
  { h with
    slot := slot
    cands := ((autoOf s die slot).map fun a => a.cands.map (·.id)).getD []
    start := true
    todo := todo
    seen := h.seen ++ [h.slot]
    full := false
    notice := none
    told := false }

/-- The step of `Offer` for one candidate that existed before the event. -/
def offerCand (s : State) (n die : Nat) (a : Automaton) (h : OfferHold) (id : Nat) (rest : List Nat) : State :=
  let on : State := setHold s n { h with cands := rest }
  match a.cands.find? fun c => c.id = id with
  | none => on
  | some c =>
    match (imEdgeList a.img).find? fun e => e.from_ = c.state && e.kind ≤ 1 && edgeHolds a.img c h.ev h.tau e with
    | none => on
    | some e =>
      if e.kind = 1 then discardCand on die h.slot id
      else takeEdge (setHold s n (if e.excl then { h with cands := [], start := false } else { h with cands := rest }))
        n die h.slot c e (some h.ev) h.tau (f32 h.ev 0)

/-- A new candidate is made and takes its first edge. -/
def newCand (s : State) (n die : Nat) (a : Automaton) (h : OfferHold) (e : Edge) : State :=
  let c := emptyCand s a h.tau
  let s1 := setHold (freshId s).2 n { h with start := false }
  takeEdge s1 n die h.slot c e (some h.ev) h.tau (f32 h.ev 0)

/-- The notice of policy 3 (16 Table 16.6), once for the held event. -/
def overflowNotice (s : State) (n die : Nat) (h : OfferHold) : State :=
  let info := n + h.slot * 2 ^ 16 + field h.ev 0 4 * 2 ^ 32
  let (ref, s1) := postNotice s die (noticeBytes 1 0#64 info (nowNs s)) ⟨0, 0, 0, false, 0#64, none, some 1⟩
  setHold s1 n { h with full := true, notice := ref, told := ref.isSome }

/-- The step of `Offer` from state 0; without room the automaton's policy decides. -/
def offerStart (s : State) (n die : Nat) (a : Automaton) (h : OfferHold) : State :=
  let on : State := setHold s n { h with start := false }
  match (imEdgeList a.img).find? fun e => e.from_ = 0 && e.kind = 0 && edgeHolds a.img (emptyCand s a h.tau) h.ev h.tau e with
  | none => on
  | some e =>
    if e.to = 0 || hasRoom s die a then newCand s n die a h e else
    match imPolicy a.img with
    | 0 =>
      match a.cands with
      | [] => updAuto on die h.slot countLost
      | c :: _ => newCand (updAuto (discardCand s die h.slot c.id) die h.slot countLost) n die a h e
    | 1 => updAuto on die h.slot countLost
    | 2 => setHold s n { h with full := true }
    | _ => if h.told then setHold s n { h with full := true } else overflowNotice s n die h

/-- The event at `SHEAD` is consumed: the head moves and its mirror is written, as a release at `sys` (15 R257). -/
def consume (s : State) (n : Nat) (headm : List Nat) : State :=
  let i := (streamOf s n).shead + 1
  let s1 := hayWrite s (hayWho n (streamOf s n).odie) headm (le32 i) true
  retryPosts (updStream s1 n fun st => { st with shead := i, gap := false, bar := none, hold := none }) n

/-- The end of an offer: the write of `headm` is decided now, and a condition stalls or kills the stream (15 R266); none
while it waits. -/
def finishOffer (s : State) (n : Nat) : Option State :=
  let st := streamOf s n
  match hayAccess s none st.odie st.asn (st.scba + 4#64) 4 4 .store true with
  | (.ok _ locs, s') => some (consume s' n locs)
  | (.cls3 cause addr, s') => some (stallStream s' n cause addr 1)
  | (.bad cause addr, s') => some (killStream s' n cause addr 1)
  | (.waits, _) => none

/-- The published records of a stream from index `i` on, up to the first that is an event. -/
def firstWaiting (s : State) (n : Nat) : Nat → W32 → Option Bytes
  | 0, _ => none
  | k + 1, i =>
    let st := streamOf s n
    match (hayAccess s none st.odie st.asn (slotVa st i) 64 4 .load true).1 with
    | .ok b _ => if f32 b 0 ≠ i then none else if evType b = 0xFFFF then firstWaiting s n k (i + 1) else some b
    | _ => none

/-- Whether a moved stream still has an older event than a pending time which passed during the move: one that is being
offered, or the first that waits behind it (27 R394). -/
def behindEvent (s : State) (n : Nat) (time : Nat) : Bool :=
  let st := streamOf s n
  let first := if st.hold.isSome || st.bar.isSome then st.shead + 1 else st.shead
  time ≤ st.behind && streamOpen st && !st.dead &&
    ((st.hold.any fun h => !h.full && h.tau < time) ||
      (firstWaiting s n (min (ringSize st) (st.stail - first).toNat) first).any fun b =>
        !bit (field b 6 1) 0 && field b 8 8 < time)

/-- The first pending time of a stream's automata, where the timebase has gone by its bound (R276). -/
def overdueTime (s : State) (die n : Nat) : Option Pending :=
  (streamTime s die n).filter fun p =>
    p.time + (((autoOf s die p.slot).map fun a => imUnit a.img).getD 0) ≤ nowNs s && !behindEvent s n p.time

/-- One step of a stream's offer; none where it holds. A pending time that is overdue goes first (R276, R285). -/
def offerStep (s : State) (n : Nat) : Option State :=
  let st := streamOf s n
  let die := st.odie
  match st.hold with
  | none => none
  | some h =>
    if h.full || st.stall || st.dead || !st.accepts.isEmpty || !st.queued.isEmpty then none else
    match overdueTime s die n with
    | some p => some (processTime s die n p)
    | none =>
      if h.times then
        let go : OfferHold := { h with times := false, slot := 256, todo := ((armedOn s die n).map (·.1)).filter (!h.seen.contains ·) }
        match streamTime s die n with
        | some p => if p.time ≤ h.tau then some (processTime s die n p) else some (setHold s n go)
        | none => some (setHold s n go)
      else
        let next : Option State := match h.todo with
          | k :: rest => some (setHold s n (beginAuto s die h k rest))
          | [] => finishOffer s n
        match autoOf s die h.slot with
        | none => next
        | some a =>
          if a.armed.isNone || a.stream ≠ n then next
          else match h.cands with
            | id :: rest => some (offerCand s n die a h id rest)
            | [] => if h.start then some (offerStart s n die a h) else next

/-- The offer of a new event, before its pending times are processed; no automaton has slot 256. -/
def newOffer (ev : Bytes) (tau : Nat) : OfferHold := ⟨ev, tau, true, 256, [], false, [], [], false, none, false⟩

/-- Goes on with an offer until it holds or the event is consumed. -/
def offerLoop (n : Nat) : Nat → State → State
  | 0, s => s
  | k + 1, s =>
    match offerStep s n with
    | some s' => offerLoop n k s'
    | none => s

/-- Goes on with a stream's offer, if one has begun and nothing stops the stream. -/
def offerOn (s : State) (n : Nat) : State :=
  let st := streamOf s n
  if st.hold.isNone || st.stall || st.dead || st.rst then s else offerLoop n 200000 s

end Sys2Proof.Machine
end

