-- ==== Sys2Proof/Machine/StreamOps.lean ====
section
/-! DEFINITION. Event streams: posting from a program, the registers of a stream page, consumption, barrier records, reset
(15 R256 to R267, 16 R274, R278). -/

namespace Sys2Proof.Machine

open Sys2Proof

/-! ## `EVPOST` (R264) -/

/-- How a thread's posts end: made, full, or a condition with the address space that it met. -/
inductive LaneEnd where
  | done
  | full (n : Nat)
  | cls3 (asn kind cause : Nat) (addr : W64)
  | cls4 (cause : Nat) (addr : W64)
  | err (cause : Nat) (addr : W64)
  | waits
  deriving DecidableEq, Repr

def PostRes.laneEnd (n asn : Nat) : PostRes → LaneEnd
  | .posted | .closed => .done
  | .full => .full n
  | .cls3 cause addr => .cls3 asn 1 cause addr
  | .cls4 cause addr => .cls4 cause addr
  | .poison cause addr => .err cause addr
  | .waits => .waits

/-- A thread's end where its instruction stays. -/
def LaneEnd.stays : LaneEnd → Bool
  | .done | .err _ _ => false
  | _ => true

/-- Holds the threads that met a class 3 condition: one access for each home warp, page, address space and kind
(13 R252). -/
def Ctx.holdEnds (c : Ctx) (s : State) (ends : List (Nat × LaneEnd)) : State :=
  let met := ends.filterMap fun e => match e.2 with
    | .cls3 asn kind cause addr => some ((asn, kind), (⟨e.1, cause, addr⟩ : Held3))
    | _ => none
  (distinct (met.map (·.1))).foldl (fun s k =>
    hold3 s { c.grp with asn := k.1 } c.cur.pc k.2 ((met.filter fun x => x.1 = k).map (·.2))) s

/-- Finishes an instruction whose threads ended one by one: those that are done go on through `go`, the others wait for
room, are held or trap at the instruction (12 R222); `info` is the `xinfo` of an error reply. -/
def Ctx.finishWith (c : Ctx) (s : State) (res : Bool) (info : W64) (ends : List (Nat × LaneEnd)) (go : Ctx → State → State) : State :=
  let c' := c.without ((ends.filter fun e => e.2.stays).map (·.1))
  let s1 := if c'.act.isEmpty then c'.skip s res else go c' s
  let s2 := ends.foldl (fun s e => match e.2 with
    | .full n => updThread s c.cur.gid e.1 (waitThread c.cur.next (.ring n ((streamOf s n).scba + 4#64)))
    | _ => s) s1
  let s3 := pushErrs (c.holdEnds s2 ends) c.cur.gid info (ends.filterMap fun e => match e.2 with
    | .err cause addr => some (e.1, cause, addr)
    | _ => none)
  c.traps4 s3 (ends.filterMap fun e => match e.2 with
    | .cls4 cause addr => some (e.1, cause, addr)
    | _ => none)

def Ctx.finishLanes (c : Ctx) (s : State) (ends : List (Nat × LaneEnd)) (f : Thread → Thread) : State :=
  c.finishWith s false 0#64 ends fun c s => c.done s f

/-- A thread as a poster. -/
def Ctx.poster (c : Ctx) (scope tid : Nat) : Poster :=
  ⟨c.core, c.ham, 1, scope, threadWho c.grp tid, groupWriter c.grp tid⟩

def evStream (f : LongForm) (t : Thread) : Nat := (rd32 f.lit f.sa t).toNat
def evTypeOf (f : LongForm) (t : Thread) : Nat := (rd32 f.lit f.sb t).toNat

def evpostOk (c : Ctx) (f : LongForm) : Bool :=
  srcOk c f.lit false f.sa && srcOk c f.lit false f.sb && srcOk c f.lit true f.sc &&
    c.act.all fun t => evStream f t < 4096 && evTypeOf f t ≤ 0xFFFE

/-- One thread's post. -/
def Ctx.evpostLane (c : Ctx) (f : LongForm) (payload : State → Thread → Except LaneEnd Bytes × State)
    (acc : List (Nat × LaneEnd) × State) (t : Thread) : List (Nat × LaneEnd) × State :=
  let n := evStream f t
  if !streamOpen (streamOf acc.2 n) then (acc.1 ++ [(t.tid, .done)], dropPost acc.2 n) else
  match payload acc.2 t with
  | (.error e, s') => (acc.1 ++ [(t.tid, e)], s')
  | (.ok b, s') =>
    let (r, s1) := postTo s' (c.poster (scopeOr 5 f) t.tid) n (evTypeOf f t) (nowNs s') b
    (acc.1 ++ [(t.tid, r.laneEnd n (streamOf s' n).asn)], s1)

def evpostOp (s : State) (i : Instr) (f : LongForm) (payload : Ctx → State → Thread → Except LaneEnd Bytes × State) : State :=
  runCore s i f.g false (fun c => evpostOk c f) fun c =>
    if 6 ≤ scopeOr 5 f && c.act.any (fun t => owed s c.cur.gid t.tid) then s else
    let (ends, s') := c.act.foldl (c.evpostLane f (payload c)) ([], s)
    c.finishLanes s' ends id

def execEvpost (f : LongForm) (s : State) : Host.Outcome State Fault Refusal :=
  .next (evpostOp s (.evpost f) f fun _ s t => (.ok (le64 (rd64 f.lit f.sc t)), s))

/-- The 48 payload bytes read at the `sc` address, a plain read. -/
def readPayload (f : LongForm) (c : Ctx) (s : State) (t : Thread) : Except LaneEnd Bytes × State :=
  let va := rd64 f.lit f.sc t
  match c.decide s va 48 1 .load with
  | (.cls3 cause addr, s') => (.error (.cls3 c.grp.asn 0 cause addr), s')
  | (.cls4 cause addr, s') => (.error (.cls4 cause addr), s')
  | (.waits, s') => (.error .waits, s')
  | (.ok p, s') =>
    let r := readCore s' (threadWho c.grp t.tid) c.core (coverOf s' c.cur.gid t.tid) p.unc true byPart p.locs
    match readErr s' p r with
    | some e => (.error (.err e va), r.st)
    | none => (.ok r.bytes, r.st)

def execEvpostBuf (f : LongForm) (s : State) : Host.Outcome State Fault Refusal :=
  .next (evpostOp s (.evpostBuf f) f (readPayload f))

/-! ## `EVBAR` (R265) and barrier blocks (R262) -/

def blockN (b : Bytes) : Nat := field b 4 4
def blockArr (b : Bytes) : Nat := field b 0 2
def blockLive (b : Bytes) : Bool := bit (field b 0 4) 31
def blockList (b : Bytes) : List Nat := (List.range (blockN b)).map fun i => field b (8 + 2 * i) 2

/-- Whether a block can be used for a new barrier. -/
def blockFree (b : Bytes) : Bool :=
  !blockLive b && 1 ≤ blockN b && blockN b ≤ 8 && (blockList b).all (· < 4096) &&
    (distinct (blockList b)).length == (blockList b).length

/-- `bstat` after one more arrival; the last one clears `live`. -/
def arrive (b : Bytes) : W32 :=
  let a := (blockArr b + 1) % 65536
  BitVec.ofNat 32 (a + bits (field b 0 4) 16 15 * 65536 + (if blockLive b && a != blockN b then 2 ^ 31 else 0))

/-- An arrival at the block at some places. -/
def arriveAt (s : State) (locs : List Nat) : State :=
  applyWrite s deviceWriter ((locs.take 4).zip (le32 (arrive (locs.map (homeByte s.mm)))))

/-- Whether a thread goes on with its `EVBAR` where it left it: it waits for room, or an access is held. -/
def PostRes.again : PostRes → Bool
  | .full | .cls3 _ _ | .waits => true
  | _ => false

/-- The posts of a thread that are still to be made to the streams of its list. -/
def Ctx.evbarPosts (c : Ctx) (f : LongForm) (tid : Nat) (va : W64) (locs : List Nat) : List Nat → State → LaneEnd × State
  | [], s => (.done, updThread s c.cur.gid tid fun t => { t with evb := none })
  | n :: rest, s =>
    let left (s : State) : State := updThread s c.cur.gid tid fun t => { t with evb := some (va, rest) }
    match postTo s (c.poster (scopeOr 5 f) tid) n 0xFFFF (nowNs s) (le64 va) with
    | (.posted, s') => c.evbarPosts f tid va locs rest (left s')
    | (.closed, s') => c.evbarPosts f tid va locs rest (left (arriveAt s' locs))
    | (r, s') => (r.laneEnd n (streamOf s' n).asn,
        if r.again then s' else updThread s' c.cur.gid tid fun t => { t with evb := none })

/-- One thread's barrier: its mask bit and how it ends; a condition of the block and one of a ring are held together (13
R252). -/
def Ctx.evbarLane (c : Ctx) (f : LongForm) (acc : List (Nat × Bool × LaneEnd) × State) (l : Lane) :
    List (Nat × Bool × LaneEnd) × State :=
  match l.places, l.cls4, l.cls3 with
  | none, some (_, cause, addr), _ => (acc.1 ++ [(l.tid, false, .cls4 cause addr)], acc.2)
  | none, none, some h => (acc.1 ++ [(l.tid, false, .cls3 c.grp.asn 1 h.cause h.addr)], acc.2)
  | none, none, none => acc
  | some p, _, _ =>
    let s := acc.2
    match placeErr s p (p.locs.any (poisoned s)) with
    | some e => (acc.1 ++ [(l.tid, false, .err e l.va)], s)
    | none =>
      let b := p.locs.map (homeByte s.mm)
      let go (todo : List Nat) (s : State) : List (Nat × Bool × LaneEnd) × State :=
        let (r, s') := c.evbarPosts f l.tid l.va p.locs todo s
        (acc.1 ++ [(l.tid, true, r)], s')
      match ((threadOf s c.cur.gid l.tid).bind (·.evb)).filter (fun x => x.1 = l.va) with
      | some (_, rest) => go rest s
      | none =>
        if !blockFree b then (acc.1 ++ [(l.tid, false, .done)], s)
        else
          let s1 := writeAs (countOne s c.cur.gid p) { groupWriter c.grp l.tid with core := none }
            ((p.locs.take 4).zip (natLe 4 (2 ^ 31))) (threadWho c.grp l.tid) 0
          let s2 := { s1 with mm := dropL1 s1.mm c.core p.locs }
          go (blockList b) (updThread s2 c.cur.gid l.tid fun t => { t with evb := some (l.va, blockList b) })

def execEvbar (f : LongForm) (s : State) : Host.Outcome State Fault Refusal :=
  .next (runCore s (.evbar f) f.g false (fun c => maskDstOk f.dst && addrOk c f) fun c =>
    if 6 ≤ scopeOr 5 f && c.act.any (fun t => owed s c.cur.gid t.tid) then s else
    let (ls, s1) := c.decideLanes s (effAddr f) (fun _ => 64) 64 .store
    if ls.any fun l => l.dec == .waits then s else
    let (xs, s') := ls.foldl (c.evbarLane f) ([], s1)
    c.finishLanes s' (xs.map fun x => (x.1, x.2.2)) fun t =>
      t.setMask f.dst.toNat (((xs.find? fun x => x.1 = t.tid).map (·.2.1)).getD false))

/-- Threads that wait for a ring slot go on, to issue their instruction again, once there is room or the stream is closed
(R264). -/
def pollRings (s : State) : State :=
  let open_ (n : Nat) : Bool :=
    let st := streamOf s n
    if !streamOpen st then true else
    match hayAccess s none st.odie st.asn st.scba 8 4 .load true with
    | (.ok b _, _) => decide ((f32 b 0 - f32 b 4).toNat < ringSize st)
    | (.waits, _) => false
    | _ => true
  if s.groups.any fun g => g.threads.any fun t => (match t.wait with
    | .ring n _ => open_ n
    | _ => false)
  then
    { s with groups := s.groups.map fun g => { g with threads := g.threads.map fun t => match t.wait with
      | .ring n _ => if open_ n then { t with wait := .run } else t
      | _ => t } }
  else s

/-! ## Registers of a stream page (R256, R257, R260) -/

def execStailWrite (n : Nat) (v : W32) (s : State) : Host.Outcome State Fault Refusal :=
  .next (updStream s n (tailWrite v))

/-- The fields of `SCTL` as a write leaves them: while `en` is 1 they are kept. -/
def sctlFields (v : Nat) (st : Stream) : Stream :=
  if st.en then st else { st with odie := bits v 27 3, lsize := bits v 15 5, asn := bits v 0 12 }

/-- Whether a write of `en` = 1 is refused. -/
def sctlBad (v : Nat) (st : Stream) : Bool :=
  st.lsize < 6 || 24 < st.lsize || bits v 20 7 != 0 || bits v 12 3 != 0 ||
    st.sbase.toNat % (64 * ringSize st) != 0 || st.scba.toNat % 64 != 0 || st.rst

/-- A write of `SCTL` but for `rst`. -/
def sctlWrite (v : Nat) (st : Stream) : Stream :=
  let st1 := sctlFields v st
  if !bit v 30 then { st1 with en := false }
  else if sctlBad v st1 then { st1 with cfgerr := true }
  else { st1 with en := true, cfgerr := false }

def execStreamEnable (n : Nat) (v : W32) (s : State) : Host.Outcome State Fault Refusal :=
  .next (retryPosts (updStream s n (sctlWrite v.toNat)) n)

/-! ## Consumption (R258, R266, 16 R274) -/

/-- Whether a stream's hayward may fetch: enabled, running, nothing held; the streams of a hung die stall (27 R392). -/
def fetches (s : State) (n : Nat) : Bool :=
  let st := streamOf s n
  streamOpen st && !(dieOf s st.odie).hung && !st.stall && !st.dead && st.bar.isNone && st.hold.isNone && st.accepts.isEmpty && st.queued.isEmpty &&
    hayReady s st.odie && !(dieOf s st.odie).moving.contains n && st.stail != st.shead

/-- What the read of the slot at `SHEAD` finds (R258): a condition, an unpublished slot, or the record. -/
inductive Slotted where
  | cond (r : HayRes)
  | gap
  | found (b : Bytes)
  deriving DecidableEq, Repr

/-- The read of the slot at `SHEAD`: its `seq` is acquired at `sys`, and the rest is read only where it is published; `gap`
is over once `seq` equals `SHEAD`. -/
def readSlot (s : State) (n : Nat) : Slotted × State :=
  let st := streamOf s n
  let me := hayWho n st.odie
  match hayAccess s (some me) st.odie st.asn (slotVa st st.shead) 4 4 .load true with
  | (.ok q locs, s') =>
    if f32 q 0 ≠ st.shead then (.gap, s') else
    (match hayAccess (updStream (haySync s' me locs) n fun st => { st with gap := false }) (some me) st.odie st.asn (slotVa st st.shead) 64 4 .load true with
    | (.ok b _, s2) => (.found b, s2)
    | (r, s2) => (.cond r, s2))
  | (r, s') => (.cond r, s')

/-- A read of a slot that is no record: `gap`, a stall, or a dead stream. -/
def slotTrouble (s : State) (n : Nat) : Slotted → State
  | .gap => updStream s n fun st => { st with gap := true }
  | .cond (.cls3 cause addr) => stallStream s n cause addr 0
  | .cond (.bad cause addr) => killStream s n cause addr 0
  | _ => s

/-- The event as offered: `ts` is the timebase where `hts` is set. -/
def stamped (s : State) (b : Bytes) : Bytes := if bit (field b 6 1) 0 then overlay b 8 (natLe 8 (nowNs s)) else b

def isBarrier (b : Bytes) : Bool := evType b == 0xFFFF

/-- Offers the record at `SHEAD`. -/
def offerRecord (s : State) (n : Nat) (b : Bytes) : State :=
  let ev := stamped s b
  offerLoop n 200000 (updStream s n fun st => { st with hold := some (newOffer ev (field ev 8 8)) })

/-- Whether an offer that has begun can go on. -/
def offerUnfinished (s : State) (n : Nat) : Bool :=
  let st := streamOf s n
  st.hold.isSome && !st.rst && (offerStep s n).isSome

def execEventOffer (n : Nat) (s : State) : Host.Outcome State Fault Refusal :=
  .next (if offerUnfinished s n then offerOn s n
    else if !fetches s n then s else
    match readSlot s n with
    | (.found b, s') => if isBarrier b then s else offerRecord s' n b
    | (r, s') => slotTrouble s' n r)

/-- Whether the read of the slot changes `gap`. -/
def gapEnds (s : State) (n : Nat) : Bool := (streamOf s n).gap && !(streamOf (readSlot s n).2 n).gap

/-- Whether a stream's next read has something to do: an unpublished slot is read again without effect. -/
def offerDue (s : State) (n : Nat) : Bool :=
  offerUnfinished s n || fetches s n && (match (readSlot s n).1 with
    | .found b => !isBarrier b
    | .gap => !(streamOf s n).gap
    | .cond .waits => gapEnds s n
    | .cond _ => true)

/-! ## Barrier records (R262) -/

/-- The block of a barrier record, as the hayward reaches it. -/
def blockAt (s : State) (n : Nat) (va : W64) : HayRes × State :=
  let st := streamOf s n
  hayAccess s none st.odie st.asn va 64 64 .store true

/-- The event at `SHEAD` is consumed, if the write of `headm` can be made now. -/
def consumeAt (s : State) (n : Nat) : State := (finishOffer s n).getD s

/-- The barrier record at `SHEAD`: an arrival, then the stream waits; without a live block it is consumed at once. -/
def reachBarrier (s : State) (n : Nat) (va : W64) : State :=
  match blockAt s n va with
  | (.ok b locs, s') =>
    if blockLive b then updStream (arriveAt s' locs) n fun st => { st with bar := some va } else consumeAt s' n
  | (.waits, s') => s'
  | (_, s') => consumeAt s' n

/-- Whether the record at `SHEAD` is a barrier record that the hayward can go on with. -/
def barrierDue (s : State) (n : Nat) : Bool :=
  fetches s n && (match (readSlot s n).1 with
    | .found b => isBarrier b && (gapEnds s n || (match (blockAt s n (f64 b 16)).1 with
      | .ok k _ => blockLive k || (finishOffer s n).isSome
      | .waits => false
      | _ => (finishOffer s n).isSome))
    | _ => false)

def execBarrierRecord (n : Nat) (s : State) : Host.Outcome State Fault Refusal :=
  .next (if !barrierDue s n then s else
    match readSlot s n with
    | (.found b, s') => reachBarrier s' n (f64 b 16)
    | _ => s)

/-- Whether the streams of the block have all arrived, or the block can no longer be read, and `headm` can be decided. -/
def barrierOver (s : State) (n : Nat) : Bool :=
  let st := streamOf s n
  !st.rst && !st.stall && !st.dead && (finishOffer s n).isSome && (match st.bar with
    | some va => (match (blockAt s n va).1 with
      | .ok b _ => blockArr b == blockN b
      | .waits => false
      | _ => true)
    | none => false)

def execBarrierRecordDone (n : Nat) (s : State) : Host.Outcome State Fault Refusal :=
  .next (if barrierOver s n then consumeAt s n else s)

/-! ## The end of an overflow hold (16 R278) -/

/-- Whether room has appeared for the candidate that an offer holds for. -/
def holdOver (s : State) (n : Nat) : Bool :=
  let st := streamOf s n
  match st.hold with
  | some h => h.full && !st.stall && !st.dead && !st.rst && (match autoOf s st.odie h.slot with
    | some a => a.armed.isNone || hasRoom s st.odie a
    | none => true)
  | none => false

def execOverflowHoldEnd (n : Nat) (s : State) : Host.Outcome State Fault Refusal :=
  .next (if holdOver s n then
      let st := streamOf s n
      let gone := !(st.hold.any fun h => (autoOf s st.odie h.slot).any (·.armed.isSome))
      offerOn (endHold s n gone) n
    else s)

end Sys2Proof.Machine
end

