-- ==== Sys2Proof/Machine/AutoOps.lean ====
section
/-! DEFINITION. Loading, arming, saving and restoring automata (16 R279 to R285), the host automaton port (R286), and the
pending times that fall due (R276). -/

namespace Sys2Proof.Machine

open Sys2Proof

/-! ## Reading and writing records -/

/-- A read or a write of some bytes at an address, with the alignment that it requires. -/
abbrev ReadBy := State → W64 → Nat → Nat → Except LaneEnd Bytes × State
abbrev WriteBy := State → W64 → Bytes → Except LaneEnd Unit × State

/-- A plain `CORE` read of a thread. -/
def Ctx.readPiece (c : Ctx) (t : Thread) (s : State) (va : W64) (n align : Nat) : Except LaneEnd Bytes × State :=
  match c.decide s va n align .load with
  | (.cls3 cause addr, s') => (.error (.cls3 c.grp.asn 0 cause addr), s')
  | (.cls4 cause addr, s') => (.error (.cls4 cause addr), s')
  | (.waits, s') => (.error .waits, s')
  | (.ok p, s') =>
    let r := readCore s' (threadWho c.grp t.tid) c.core (coverOf s' c.cur.gid t.tid) p.unc true byPart p.locs
    match readErr s' p r with
    | some e => (.error (.err e va), r.st)
    | none => (.ok r.bytes, r.st)

/-- A plain `HAY` read in a stream's address space. -/
def hayPiece (me : Who) (die asn : Nat) (s : State) (va : W64) (n align : Nat) : Except LaneEnd Bytes × State :=
  match hayAccess s (some me) die asn va n align .load true with
  | (.ok b _, s') => (.ok b, s')
  | (.waits, s') => (.error .waits, s')
  | (.cls3 cause addr, s') | (.bad cause addr, s') => (.error (.cls4 cause addr), s')

/-- A read piece by piece. -/
def readPieces (rd : ReadBy) : List (W64 × Nat) → State → Except LaneEnd Bytes × State
  | [], s => (.ok [], s)
  | (va, n) :: rest, s =>
    match rd s va n 1 with
    | (.error e, s') => (.error e, s')
    | (.ok b, s') =>
      match readPieces rd rest s' with
      | (.error e, s'') => (.error e, s'')
      | (.ok b', s'') => (.ok (b ++ b'), s'')

def readMany (rd : ReadBy) (s : State) (va : W64) (n : Nat) : Except LaneEnd Bytes × State :=
  readPieces rd (rangePieces (n / 65536 + 2) va n) s

/-- The places of a store of many bytes by a thread, all decided first: a class 4 condition in any of them goes before a
class 3 condition (12 R222). -/
def Ctx.decideMany (c : Ctx) (pieces : List (W64 × Nat)) (s : State) : Except LaneEnd (List (W64 × Places)) × State :=
  let (ds, s') := pieces.foldl (fun (acc : List (W64 × Decision) × State) x =>
    let (d, s1) := c.decide acc.2 x.1 x.2 1 .store
    (acc.1 ++ [(x.1, d)], s1)) ([], s)
  let bad4 := ds.findSome? fun x => match x.2 with
    | .cls4 cause addr => some (LaneEnd.cls4 cause addr)
    | _ => none
  let bad3 := ds.findSome? fun x => match x.2 with
    | .cls3 cause addr => some (LaneEnd.cls3 c.grp.asn 1 cause addr)
    | _ => none
  match bad4, bad3 with
  | some e, _ => (.error e, s')
  | none, bad3 =>
    if ds.any fun x => x.2 == .waits then (.error .waits, s') else
    match bad3 with
    | some e => (.error e, s')
    | none => (.ok (ds.filterMap fun x => match x.2 with
        | .ok p => some (x.1, p)
        | _ => none), s')

/-- Plain `CORE` stores of many bytes of a thread, in program order, up to the first condition; the answer names the first
error reply. -/
def Ctx.writePieces (c : Ctx) (tid : Nat) : List (W64 × Bytes) → Option LaneEnd → State → Except LaneEnd Unit × State
  | [], none, s => (.ok (), s)
  | [], some e, s => (.error e, s)
  | (va, b) :: rest, err, s =>
    match c.decide s va b.length 1 .store with
    | (.cls3 cause addr, s') => (.error (.cls3 c.grp.asn 1 cause addr), s')
    | (.cls4 cause addr, s') => (.error (.cls4 cause addr), s')
    | (.waits, s') => (.error .waits, s')
    | (.ok p, s') =>
      let (e, s1) := c.storeAt s' 0 tid p b
      c.writePieces tid rest (err.or (e.map fun k => LaneEnd.err k va)) s1

/-- A plain `HAY` store of many bytes; nothing is written after a condition. -/
def hayMany (me : Who) (die asn : Nat) : List (W64 × Bytes) → State → Except LaneEnd Unit × State
  | [], s => (.ok (), s)
  | (va, b) :: rest, s =>
    match hayAccess s none die asn va b.length 1 .store false with
    | (.ok _ locs, s') => hayMany me die asn rest (hayWrite s' me locs b false)
    | (.waits, s') => (.error .waits, s')
    | (.cls3 cause addr, s') | (.bad cause addr, s') => (.error (.cls4 cause addr), s')

def cutPieces : List (W64 × Nat) → Bytes → List (W64 × Bytes)
  | [], _ => []
  | (va, n) :: rest, b => (va, b.take n) :: cutPieces rest (b.drop n)

def hayStore (me : Who) (die asn : Nat) (s : State) (va : W64) (b : Bytes) : Except LaneEnd Unit × State :=
  hayMany me die asn (cutPieces (rangePieces (b.length / 65536 + 2) va b.length) b) s

def Ctx.writeMany (c : Ctx) (tid : Nat) (s : State) (va : W64) (b : Bytes) : Except LaneEnd Unit × State :=
  c.writePieces tid (cutPieces (rangePieces (b.length / 65536 + 2) va b.length) b) none s

/-! ## Handles (16 Table 16.7) -/

def errWord (code idx : Nat) : W32 := BitVec.ofNat 32 (2 ^ 31 + idx * 2 ^ 8 + code)
def handleWord (die slot : Nat) : W32 := BitVec.ofNat 32 (die * 2 ^ 8 + slot)

/-- The die and slot of a handle word; none with `err` or a reserved bit set. -/
def handleOf (w : W32) : Option (Nat × Nat) :=
  if w.toNat < 2 ^ 11 then some (bits w.toNat 8 3, bits w.toNat 0 8) else none

/-! ## Loading (R281) and restoring (R284) -/

/-- An image: the header, then the rest, whose length the header gives. -/
def readImage (rd : ReadBy) (s : State) (va : W64) : Except LaneEnd Bytes × State :=
  match rd s va 64 64 with
  | (.error e, s') => (.error e, s')
  | (.ok h, s') =>
    match readMany rd s' (va + 64#64) (imBytes h - 64) with
    | (.error e, s'') => (.error e, s'')
    | (.ok b, s'') => (.ok (h ++ b), s'')

/-- The lowest free slot of a die. -/
def freeAuto (s : State) (die : Nat) : Option Nat := (List.range 256).find? fun k => (autoOf s die k).isNone

def placeAuto (s : State) (die slot : Nat) (a : Automaton) : State :=
  updDie s die fun d => { d with autos := tput d.autos slot a }

/-- Loads an image on a die, unarmed and bound to a stream; the handle or `err` word. -/
def loadInto (s : State) (die n : Nat) (img : Bytes) : W32 × State :=
  match malformed img with
  | some (code, idx) => (errWord code idx, s)
  | none =>
    match freeAuto s die with
    | none => (errWord 6 0, s)
    | some k => (handleWord die k, placeAuto s die k ⟨img, n, none, 0, []⟩)

/-- A save record as read: its header, its image, its candidate records. -/
structure SaveRec where
  head  : Bytes
  img   : Bytes
  cands : List Bytes

/-- Bytes of a candidate record. -/
def candBytes (img : Bytes) : Nat := 64 + 64 * imSlots img

/-- Header errors of a save record: code 7. -/
def badSaveHead (r : SaveRec) : Bool :=
  field r.head 0 4 != 0x414D5301 || field r.head 0x20 4 != imBytes r.img || field r.head 0x24 4 != candBytes r.img ||
    bits (field r.head 4 4) 2 30 != 0 || bits (field r.head 8 4) 12 20 != 0 || bits (field r.head 0x14 4) 16 16 != 0 ||
    field r.head 0x28 24 != 0 ||
    r.cands.any fun c => bits (field c 0 4) 4 4 != 0 || bits (field c 0 4) 16 16 != 0 || field c 4 4 != 0 || field c 0x30 16 != 0

/-- A candidate whose state or bound mask is wrong: code 8. -/
def badCand (img c : Bytes) : Bool :=
  let st := bits (field c 0 4) 0 4
  st == 0 || imStates img ≤ st || bits (field c 0 4) 8 8 / 2 ^ imSlots img != 0

/-- A candidate from its record. -/
def candOf (img : Bytes) (id : Nat) (c : Bytes) : Cand where
  id := id
  state := bits (field c 0 4) 0 4
  born := field c 8 8
  resets := (List.range (imClocks img)).map fun k => field c (0x10 + 8 * k) 8
  slots := (List.range (imSlots img)).map fun j =>
    if bit (field c 0 4) (8 + j) then some ((c.drop (0x40 + 64 * j)).take 64) else none

/-- Reads a save record: the header, the image, and up to 4,096 candidates. -/
def readSave (rd : ReadBy) (s : State) (va : W64) : Except LaneEnd SaveRec × State :=
  match rd s va 64 64 with
  | (.error e, s') => (.error e, s')
  | (.ok h, s') =>
    match readImage rd s' (va + 64#64) with
    | (.error e, s'') => (.error e, s'')
    | (.ok img, s'') =>
      let m := field h 0xC 4
      if (malformed img).isSome || badSaveHead ⟨h, img, []⟩ || 4096 < m then (.ok ⟨h, img, []⟩, s'') else
      match readMany rd s'' (va + BitVec.ofNat 64 (64 + imBytes img)) (m * candBytes img) with
      | (.error e, s3) => (.error e, s3)
      | (.ok b, s3) => (.ok ⟨h, img, (List.range m).map fun i => (b.drop (i * candBytes img)).take (candBytes img)⟩, s3)

/-- Takes several fresh ids; the first of them. -/
def freshIds (s : State) (n : Nat) : Nat × State := (s.sch.ids, { s with sch := { s.sch with ids := s.sch.ids + n } })

/-- Arms an automaton at the end of its stream's order (R279); an offer that holds reaches it too, since the held event is
still the one at `SHEAD`, but for an automaton that the event has been offered to, or that it has been disarmed in
(R274). -/
def armSlot (s : State) (die slot : Nat) : State :=
  match autoOf s die slot with
  | none => s
  | some a =>
    if a.armed.isSome then s else
    let s1 := updDie s die fun d => { d with
      nextArm := d.nextArm + 1
      autos := tput d.autos slot { a with armed := some d.nextArm } }
    updStream s1 a.stream fun st => { st with
      hold := st.hold.map fun h =>
        if h.times || st.odie != die || h.slot = slot || h.seen.contains slot then h else { h with todo := h.todo ++ [slot] } }

/-- Whether a stream's hayward is inside an offered event, so that no arm, disarm, free or snapshot takes effect: a hold for
room counts as a point between two events (R279). -/
def midOffer (s : State) (n die : Nat) : Bool :=
  let st := streamOf s n
  st.odie == die && !st.dead && st.hold.any fun h => !h.full

/-- Whether an arm on a stream has to wait, for the end of its reset too. -/
def armWaits (s : State) (n die : Nat) : Bool := (streamOf s n).rst || midOffer s n die

/-- Why a restore is refused (R284). -/
def restoreErr (s : State) (die : Nat) (r : SaveRec) : Option W32 :=
  match malformed r.img with
  | some (code, idx) => some (errWord code idx)
  | none =>
    let m := field r.head 0xC 4
    if badSaveHead r then some (errWord 7 0)
    else match r.cands.findIdx? (badCand r.img) with
      | some i => some (errWord 8 i)
      | none =>
        if imQuota r.img < m || 4096 < candsOf (dieOf s die) + m then some (errWord 9 0)
        else if (freeAuto s die).isNone then some (errWord 6 0)
        else none

/-- Restores a record on a die, bound to a stream (R284); none where its arm has to wait (R279). -/
def restoreInto (s : State) (die n : Nat) (r : SaveRec) : Option (W32 × State) :=
  match restoreErr s die r with
  | some w => some (w, s)
  | none =>
    let armed := bit (field r.head 4 4) 0
    if armed && armWaits s n die then none else
    let k := (freeAuto s die).getD 0
    let (id, s1) := freshIds s (field r.head 0xC 4)
    let a : Automaton := ⟨r.img, n, none, field r.head 0x14 2, r.cands.zipIdx.map fun (c, i) => candOf r.img (id + i) c⟩
    let s2 := placeAuto s1 die k a
    some (handleWord die k, if armed then armSlot s2 die k else s2)

/-! ## Arming and disarming (R279, R282) -/

/-- An armed automaton stops: its part in its stream's offer ends. -/
def stopAuto (s : State) (die slot : Nat) (a : Automaton) : State :=
  if a.armed.isSome then leaveOffer s a.stream die slot else s

/-- Frees a slot: an automaton loaded into it later is another one. -/
def freeSlot (s : State) (die slot n : Nat) : State :=
  let s1 := updDie s die fun d => { d with autos := tdel d.autos slot }
  if (streamOf s1 n).odie ≠ die then s1 else
  updStream s1 n fun st => { st with hold := st.hold.map fun h => { h with seen := h.seen.filter (· != slot) } }

/-- Disarms an automaton and discards its candidates; `free` frees its slot. -/
def disarmSlot (s : State) (die slot : Nat) (free : Bool) : State :=
  match autoOf s die slot with
  | none => s
  | some a =>
    let s1 := updAuto (stopAuto s die slot a) die slot disarmed
    offerOn (if free then freeSlot s1 die slot a.stream else s1) a.stream

/-! ## Saving (R283) -/

def candImage (img : Bytes) (c : Cand) : Bytes :=
  let mask := (c.slots.zipIdx.map fun (x, j) => if x.isSome then 2 ^ j else 0).sum
  natLe 4 (c.state + mask * 2 ^ 8) ++ zeros 4 ++ natLe 8 c.born ++
    ((List.range 4).map fun k => natLe 8 (c.resets.getD k 0)).flatten ++ zeros 16 ++
    ((List.range (imSlots img)).map fun j => (c.slots.getD j none).getD (zeros 64)).flatten

/-- The save record of an automaton (16 Tables 16.8, 16.9). -/
def saveRecord (s : State) (a : Automaton) (stop : Bool) : Bytes :=
  natLe 4 0x414D5301 ++ natLe 4 (a.armed.isSome.toNat + 2 * stop.toNat) ++ natLe 4 a.stream ++ natLe 4 a.cands.length ++
    le32 (streamOf s a.stream).shead ++ natLe 4 a.novf ++ natLe 8 (nowNs s) ++ natLe 4 (imBytes a.img) ++
    natLe 4 (candBytes a.img) ++ zeros 24 ++ a.img ++ (a.cands.map (candImage a.img)).flatten

/-- Takes a snapshot and writes it; with `stop` the automaton is disarmed, and freed once all is written. While a store only
waits (01 R19) nothing is done. -/
def saveSlot (wr : WriteBy) (s : State) (die slot : Nat) (a : Automaton) (va : W64) (stop : Bool) :
    Except LaneEnd Unit × State :=
  let rec_ := saveRecord s a stop
  let s1 := if stop then updAuto (stopAuto s die slot a) die slot fun a => { a with armed := none } else s
  let (r, s2) := wr s1 va rec_
  match r with
  | .error .waits => (.error .waits, s)
  | .error e => (.error e, if stop then offerOn s2 a.stream else s2)
  | .ok () => (.ok (), if stop then disarmSlot s2 die slot true else s2)

/-! ## Instructions (R280) -/

/-- What a hayward's readiness makes of an action: it acts, waits, or cannot act. -/
inductive HayState where
  | acts | waits | never
  deriving DecidableEq, Repr

def hayState (s : State) (d : Nat) : HayState := if hayReady s d then .acts else if hayNever s d then .never else .waits

/-- The result of one thread's action: how it ends, its word, its mask bit. -/
structure AutoRes where
  tid : Nat
  fin : LaneEnd
  word : W32
  ok   : Bool
  deriving DecidableEq, Repr

def autoEnd (tid : Nat) (r : Except LaneEnd W32) : AutoRes :=
  match r with
  | .ok w => ⟨tid, .done, w, true⟩
  | .error e => ⟨tid, e, 0#32, false⟩

/-- The warp is held while an action of its threads waits (R280). -/
def Ctx.holdAgain (c : Ctx) (s : State) (rs : List AutoRes) : State :=
  let tids := (rs.filter fun r => r.fin = .waits).map (·.tid)
  if tids.isEmpty then s else
  c.upd s fun g => { g with
    warps := modAll (fun w => w.num = c.warp.num) (fun w => { w with held := some ⟨tids, c.cur.pc, c.cur.next, .again⟩ }) g.warps }

/-- Finishes an instruction that writes handles; a read that met an error leaves 0 (12 R223). -/
def Ctx.autoWords (c : Ctx) (s : State) (f : LongForm) (rs : List AutoRes) : State :=
  let word (t : Thread) : W32 := ((rs.find? fun r => r.tid = t.tid).map (·.word)).getD 0#32
  let wrote (t : Thread) : Bool := rs.any fun r => r.tid = t.tid && !r.fin.stays
  c.holdAgain (c.finishWith s true (if f.dst.toNat < 0x100 then BitVec.ofNat 64 f.dst.toNat else 0#64) (rs.map fun r => (r.tid, r.fin)) fun c s =>
    c.result s f.dst f.w (res32 word .gen) id wrote) rs

/-- Finishes an instruction that writes mask bits. -/
def Ctx.autoMasks (c : Ctx) (s : State) (f : LongForm) (rs : List AutoRes) : State :=
  c.holdAgain (c.finishLanes s (rs.map fun r => (r.tid, r.fin)) fun t =>
    t.setMask f.dst.toNat (((rs.find? fun r => r.tid = t.tid).map (·.ok)).getD false)) rs

/-- The actions of the active threads one after the other: while one waits, those after it do too (R280). -/
def Ctx.oneByOne (c : Ctx) (s : State) (act : State → Thread → AutoRes × State) : List AutoRes × State :=
  c.act.foldl (fun acc t =>
    if acc.1.any fun r => r.fin = .waits then (acc.1 ++ [⟨t.tid, .waits, 0#32, false⟩], acc.2) else
    let (r, s') := act acc.2 t
    (acc.1 ++ [r], s')) ([], s)

def amStream (f : LongForm) (t : Thread) : Nat := (rd32 f.lit f.sc t).toNat

/-- `AMLOAD` and `AMRESTORE` for one thread. -/
def Ctx.amReadLane (c : Ctx) (f : LongForm) (restore : Bool) (s : State) (t : Thread) : AutoRes × State :=
  let n := amStream f t
  let die := (streamOf s n).odie
  match hayState s die with
  | .waits => (autoEnd t.tid (.error .waits), s)
  | .never => (⟨t.tid, .done, errWord 12 0, false⟩, s)
  | .acts =>
    if restore then
      match readSave (c.readPiece t) s (effAddr f t) with
      | (.error e, s') => (autoEnd t.tid (.error e), s')
      | (.ok r, s') =>
        match restoreInto s' die n r with
        | none => (autoEnd t.tid (.error .waits), s')
        | some (w, s1) => (autoEnd t.tid (.ok w), s1)
    else
      match readImage (c.readPiece t) s (effAddr f t) with
      | (.error e, s') => (autoEnd t.tid (.error e), s')
      | (.ok img, s') =>
        let (w, s1) := loadInto s' die n img
        (autoEnd t.tid (.ok w), s1)

def amReadOp (s : State) (i : Instr) (f : LongForm) (restore : Bool) : State :=
  runCore s i f.g true
    (fun c => dstOk c false f.dst && addrOk c f && srcOk c f.lit false f.sc && c.act.all fun t => amStream f t < 4096) fun c =>
    let (rs, s') := c.oneByOne s (c.amReadLane f restore)
    c.autoWords s' f rs

def execAmload (f : LongForm) (s : State) : Host.Outcome State Fault Refusal := .next (amReadOp s (.amload f) f false)
def execAmrestore (f : LongForm) (s : State) : Host.Outcome State Fault Refusal := .next (amReadOp s (.amrestore f) f true)

/-- An action on the automaton of a handle, and the answer: its bit and the state, or none while it waits. A handle that
names no loaded automaton does nothing. -/
def onHandle (s : State) (w : W32) (go : Nat → Nat → Automaton → Option (Bool × State)) : Option (Bool × State) :=
  match handleOf w with
  | none => some (false, s)
  | some (die, slot) =>
    match hayState s die with
    | .waits => none
    | .never => some (false, s)
    | .acts => match autoOf s die slot with
      | none => some (false, s)
      | some a => go die slot a

/-- Arms the automaton of a handle. -/
def armHandle (s : State) (w : W32) : Option (Bool × State) :=
  onHandle s w fun die slot a =>
    if a.armed.isSome then some (true, s)
    else if (streamOf s a.stream).odie ≠ die then some (false, s)
    else if armWaits s a.stream die then none
    else some (true, armSlot s die slot)

/-- Whether an armed automaton is inside an offered event, so that a disarm, a free or a snapshot waits (R279). -/
def inEvent (s : State) (die : Nat) (a : Automaton) : Bool := a.armed.isSome && midOffer s a.stream die

def disarmHandle (free : Bool) (s : State) (w : W32) : Option (Bool × State) :=
  onHandle s w fun die slot a => if inEvent s die a then none else some (true, disarmSlot s die slot free)

def amHandleOp (s : State) (i : Instr) (f : LongForm) (go : State → W32 → Option (Bool × State)) : State :=
  runCore s i f.g false (fun c => maskDstOk f.dst && srcOk c f.lit false f.sa) fun c =>
    let (rs, s') := c.oneByOne s fun s t => match go s (rd32 f.lit f.sa t) with
      | some (k, s1) => (⟨t.tid, .done, 0#32, k⟩, s1)
      | none => (autoEnd t.tid (.error .waits), s)
    c.autoMasks s' f rs

def execAmarm (f : LongForm) (s : State) : Host.Outcome State Fault Refusal :=
  .next (amHandleOp s (.amarm f) f armHandle)
def execAmdisarm (f : LongForm) (s : State) : Host.Outcome State Fault Refusal :=
  .next (amHandleOp s (.amdisarm f) f (disarmHandle false))
def execAmdisarmFree (f : LongForm) (s : State) : Host.Outcome State Fault Refusal :=
  .next (amHandleOp s (.amdisarmFree f) f (disarmHandle true))

/-- `AMSAVE` for one thread. -/
def Ctx.amSaveLane (c : Ctx) (f : LongForm) (stop : Bool) (s : State) (t : Thread) : AutoRes × State :=
  let va := effAddr f t
  match handleOf (rd32 f.lit f.sc t) with
  | none => (⟨t.tid, .done, 0#32, false⟩, s)
  | some (die, slot) =>
    match hayState s die with
    | .waits => (autoEnd t.tid (.error .waits), s)
    | .never => (⟨t.tid, .done, 0#32, false⟩, s)
    | .acts => match autoOf s die slot with
      | none => (⟨t.tid, .done, 0#32, false⟩, s)
      | some a =>
        if canonical va && va.toNat % 64 ≠ 0 then (autoEnd t.tid (.error (.cls4 0x36 va)), s)
        else if inEvent s die a then (autoEnd t.tid (.error .waits), s)
        else
          let (r, s') := saveSlot (c.writeMany t.tid) s die slot a va stop
          (autoEnd t.tid (r.map fun _ => 0#32), s')

def amSaveOp (s : State) (i : Instr) (f : LongForm) (stop : Bool) : State :=
  runCore s i f.g false (fun c => maskDstOk f.dst && addrOk c f && srcOk c f.lit false f.sc) fun c =>
    let (rs, s') := c.oneByOne s (c.amSaveLane f stop)
    c.autoMasks s' f rs

def execAmsave (f : LongForm) (s : State) : Host.Outcome State Fault Refusal := .next (amSaveOp s (.amsave f) f false)
def execAmsaveStop (f : LongForm) (s : State) : Host.Outcome State Fault Refusal := .next (amSaveOp s (.amsaveStop f) f true)

/-! ## The host automaton port (R286) -/

def portStream (p : Port) : Nat := bits p.hstr.toNat 0 12
def portOp (p : Port) : Nat := bits p.hop.toNat 0 3

/-- A malformed command: code 11. -/
def portBad (p : Port) : Bool :=
  p.srsv || p.orsv || portOp p == 7 || ([0, 4, 5, 6].contains (portOp p) && p.hptr.toNat % 64 != 0)

/-- A command ends with its result. -/
def portEnd (s : State) (w : W32) : State :=
  { s with host := { s.host with port := { s.host.port with go := false, hres := w } } }

def boolWord (b : Bool) : W32 := if b then 1#32 else 0#32

/-- A command with a handle ends with its bit, or waits. -/
def portBit (r : Option (Bool × State)) : Option State := r.map fun (k, s) => portEnd s (boolWord k)

/-- A load or a restore through the port at a die: a memory condition is code 10. -/
def portRead {α : Type} (s : State) (die : Nat) (rd : Except LaneEnd α × State) (go : State → α → Option (W32 × State)) :
    Option State :=
  match hayState s die, rd with
  | .waits, _ | .acts, (.error .waits, _) => none
  | .never, _ => some (portEnd s (errWord 12 0))
  | .acts, (.error _, s') => some (portEnd s' (errWord 10 0))
  | .acts, (.ok x, s') => (go s' x).map fun (w, s1) => portEnd s1 w

/-- A save through the port. -/
def portSave (s : State) (die slot : Nat) (a : Automaton) (stop : Bool) : Option State :=
  let p := s.host.port
  let st := streamOf s (portStream p)
  if inEvent s die a then none else
  match saveSlot (hayStore (hayWho (portStream p) st.odie) st.odie st.asn) s die slot a p.hptr stop with
  | (.ok (), s') => some (portEnd s' 1#32)
  | (.error .waits, _) => none
  | (.error _, s') => some (portEnd s' (errWord 10 0))

/-- The command that stands, performed; none while it waits. -/
def portRun (s : State) : Option State :=
  let p := s.host.port
  let n := portStream p
  let st := streamOf s n
  if portBad p then some (portEnd s (errWord 11 0)) else
  match portOp p with
  | 0 => portRead s st.odie (readImage (hayPiece (hayWho n st.odie) st.odie st.asn) s p.hptr) fun s' img => some (loadInto s' st.odie n img)
  | 1 => portBit (armHandle s p.hhnd)
  | 2 => portBit (disarmHandle false s p.hhnd)
  | 3 => portBit (disarmHandle true s p.hhnd)
  | 6 => portRead s st.odie (readSave (hayPiece (hayWho n st.odie) st.odie st.asn) s p.hptr) fun s' r => restoreInto s' st.odie n r
  | op =>
    match handleOf p.hhnd with
    | none => some (portEnd s 0#32)
    | some (die, slot) =>
      match hayState s die, autoOf s die slot with
      | .waits, _ => none
      | .acts, some a => portSave s die slot a (op == 5)
      | _, _ => some (portEnd s 0#32)

/-- Whether a command stands that can be performed now. -/
def portDue (s : State) (op : Nat) : Bool := s.host.port.go && portOp s.host.port == op && (portRun s).isSome

def portCmd (op : Nat) (s : State) : State :=
  if s.host.port.go && portOp s.host.port == op then (portRun s).getD s else s

def execPortLoad (s : State) : Host.Outcome State Fault Refusal := .next (portCmd 0 s)
def execPortArm (s : State) : Host.Outcome State Fault Refusal := .next (portCmd 1 s)
def execPortDisarm (s : State) : Host.Outcome State Fault Refusal := .next (portCmd 2 s)
def execPortDisarmFree (s : State) : Host.Outcome State Fault Refusal := .next (portCmd 3 s)
def execPortSave (s : State) : Host.Outcome State Fault Refusal := .next (portCmd 4 s)
def execPortSaveStop (s : State) : Host.Outcome State Fault Refusal := .next (portCmd 5 s)
def execPortRestore (s : State) : Host.Outcome State Fault Refusal := .next (portCmd 6 s)
def execPortReservedOp (s : State) : Host.Outcome State Fault Refusal := .next (portCmd 7 s)

/-! ## Pending times that fall due (R276) -/

/-- The first pending time of a die's armed automata, with its stream. -/
def dieTime (s : State) (die : Nat) : Option (Nat × Pending) :=
  let all := ((dieOf s die).autos.map fun (k, a) => autoTimes k a).flatten
  (firstTime (all.filter fun p => (autoOf s die p.slot).any fun a => !behindEvent s a.stream p.time)).bind fun p =>
    (autoOf s die p.slot).map fun a => (a.stream, p)

/-- The pending time that is processed next, once the timebase has reached it. -/
def timeDue (s : State) (die : Nat) : Option (Nat × Pending) :=
  if !hayReady s die then none else (dieTime s die).filter fun x => x.2.time ≤ nowNs s

/-- Processes a pending time; room may appear for offers that hold. -/
def doTime (s : State) (die : Nat) (deadline : Bool) : State :=
  match timeDue s die with
  | some (n, p) => if p.edge.isSome = deadline then processTime s die n p else s
  | none => s

def execDeadlineEdge (die : Nat) (s : State) : Host.Outcome State Fault Refusal := .next (doTime s die true)
def execInvariantExpiry (die : Nat) (s : State) : Host.Outcome State Fault Refusal := .next (doTime s die false)

end Sys2Proof.Machine
end

