-- ==== Sys2Proof/Machine/LaunchOps.lean ====
section
/-! DEFINITION. Gang launch, lottery, placement, completion, bequests and barriers (ch. 17, 03 R27, R28, R40, 15 R267). -/

namespace Sys2Proof.Machine

open Sys2Proof

/-! ## Templates (17 R288, R289) -/

def gcfgRoles (t : Template) : Nat := bits t.gcfg.toNat 0 2 + 1
def gcfgQueue (t : Template) : Nat := bits t.gcfg.toNat 2 6
def gcfgCen (t : Template) : Bool := bit t.gcfg.toNat 8
def gcfgIen (t : Template) : Bool := bit t.gcfg.toNat 9
def gcfgInh (t : Template) : Bool := bit t.gcfg.toNat 10
def gcfgInhs (t : Template) : Nat := bits t.gcfg.toNat 11 3
def gcfgBqen (t : Template) : Bool := bit t.gcfg.toNat 14
def gcfgNogang (t : Template) : Bool := bit t.gcfg.toNat 15
def gcfgAsn (t : Template) : Nat := bits t.gcfg.toNat 16 12
def compStream (t : Template) : Nat := bits t.gcomp.toNat 0 12
def compType (t : Template) : Nat := bits t.gcomp.toNat 16 16
def ringLog (t : Template) : Nat := bits t.galog.toNat 0 5

def Role.width (r : Role) : Nat := bits r.dim.toNat 0 11
def Role.ns (r : Role) : Nat := if bits r.nmax.toNat 0 9 = 0 then r.n else bits r.nmax.toNat 0 9

def roleOf (b : Bytes) : Role := ⟨f64 b 0, f32 b 8, f32 b 12, f64 b 16, f32 b 24, f32 b 28⟩

/-- A template from its header and its role table. -/
def templateOf (va : W64) (h : Bytes) (roles : List Role) : Template where
  va := va
  gcfg := f32 h 4
  gcomp := f32 h 8
  gmsix := f32 h 0xC
  ghand := f64 h 0x10
  gbqa := f64 h 0x18
  gbqs := f32 h 0x20
  gptmo := f32 h 0x24
  gpbud := f32 h 0x28
  gsched := f32 h 0x2C
  garing := f64 h 0x30
  galog := f32 h 0x38
  roles := roles

/-- The checks that a `nogang` template has too. -/
def badLaunchHead (h : Bytes) (t : Template) : Bool :=
  field h 0 4 != 0x474E0001 || bits t.gcfg.toNat 28 4 != 0 || bits t.gcomp.toNat 12 4 != 0 ||
    bits t.gmsix.toNat 11 21 != 0 || (gcfgCen t && compType t == 0xFFFF)

def badRole (r : Role) : Bool :=
  bit r.dim.toNat 27 || bits r.dim.toNat 11 5 != 0 || bits r.nmax.toNat 9 23 != 0 ||
    r.threads == 0 || 1024 < r.threads || r.width == 0 || 1024 < r.width ||
    !budgetOk r.bud.toNat || 256 < r.n || r.start.toNat % 4 != 0 || r.save == 0#64 || r.save.toNat % 256 != 0 ||
    (bits r.nmax.toNat 0 9 != 0 && (r.ns < r.n || 256 < r.ns || r.ns % 8 != 0)) ||
    r.sstr.toNat < saOrasm r.threads r.ns || r.sstr == 0#32

def badLaunch (h : Bytes) (t : Template) : Bool :=
  badLaunchHead h t || (!gcfgNogang t &&
    (16 < (t.roles.map Role.groups).sum || t.roles.any badRole || bits t.galog.toNat 5 27 != 0 || 16 < ringLog t ||
      t.gsched.toNat &&& 0xFC0E0000 != 0 || 32 < bits t.gsched.toNat 20 6 ||
      (let f := bits t.gsched.toNat 0 17
       (1 ≤ f && f ≤ 255) || 65536 < f) ||
      (1 ≤ t.gpbud.toNat && t.gpbud.toNat ≤ 999) || 1000000 < t.gpbud.toNat || t.garing.toNat % 1024 != 0 ||
      (gcfgBqen t && (t.gbqa == 0#64 || t.gbqa.toNat % 256 != 0 ||
        t.roles.any fun r => t.gbqs.toNat < 0x1080 + 1024 * homeWarps r.threads))))

/-- What the read of a template comes to. -/
inductive TmplRes where
  | ok (t : Template)
  | drop
  | cls3 (cause : Nat) (addr : W64)
  | waits

def readTemplate (s : State) (me : Who) (die asn : Nat) (va : W64) : TmplRes × State :=
  match hayAccess s (some me) die asn va 64 1 .load true with
  | (.cls3 cause addr, s') => (.cls3 cause addr, s')
  | (.bad _ _, s') => (.drop, s')
  | (.waits, s') => (.waits, s')
  | (.ok h _, s') =>
    let t := templateOf va h []
    if gcfgNogang t then (if badLaunch h t then .drop else .ok t, s') else
    match hayAccess s' (some me) die asn (va + 64#64) (32 * gcfgRoles t) 1 .load true with
    | (.cls3 cause addr, s2) => (.cls3 cause addr, s2)
    | (.bad _ _, s2) => (.drop, s2)
    | (.waits, s2) => (.waits, s2)
    | (.ok b _, s2) =>
      let t' := templateOf va h ((List.range (gcfgRoles t)).map fun i => roleOf (b.drop (32 * i)))
      (if badLaunch h t' then .drop else .ok t', s2)

/-! ## The argument block (17 R290 to R293) -/

/-- A change of a stream's first acceptance. -/
def updAccept (s : State) (n : Nat) (f : Accept → Accept) : State :=
  updStream s n fun st => { st with accepts := match st.accepts with
    | x :: r => f x :: r
    | [] => [] }

/-- A class 3 condition of an acceptance stalls its stream; the record names the address space that met it, and on a retry
the launch is repeated from the template read (R290). While the stream is stalled for another record the access waits. -/
def stallIn (s : State) (n asn cause : Nat) (addr : W64) (kind : Nat) : Option State :=
  let st := streamOf s n
  if st.stall then none else
  let (ref, s1) :=
    if queueTaken s st.odie then ((none : RecRef), s) else
    let r := streamFRec 3 cause addr (streamInfo asn kind n false) true
    let (slot, s') := putRecord s st.odie (r.bytes (nowNs s)) (some ⟨asn, pageOf addr, kind, false, addr, none, some 0⟩)
    (some (st.odie, slot), s')
  some (updAccept (updStream s1 n fun st => { st with stall := true, ref := some ref }) n fun x =>
    { x with read := none, held := true })

/-- The first acceptance of a stream is done with; the offer goes on. -/
def endAccept (s : State) (n : Nat) : State :=
  offerOn (updStream s n fun st => { st with accepts := st.accepts.drop 1 }) n

/-- `info` of a notice of an acceptance (16 Table 16.6, 17 R290). -/
def acceptInfo (n : Nat) (x : Accept) : Nat :=
  n + x.slot * 2 ^ 16 + x.deadline.toNat * 2 ^ 24 + x.evIndex.toNat * 2 ^ 32

/-- A launch is dropped with a notice, which names the template whatever access failed (17 R290, R291). -/
def dropLaunch (s : State) (n code : Nat) (x : Accept) : State :=
  endAccept (postRecord s (streamOf s n).odie (noticeBytes code x.tmpl (acceptInfo n x) (nowNs s))) n

/-- The next launch tag of a die's hayward (R292). -/
def takeTag (s : State) (die : Nat) : Nat × State :=
  let d := dieOf s die
  let (cur, end_, next) := if d.tagCur = d.tagEnd then (s.tagNext, s.tagNext + 64, (s.tagNext + 64) % 2 ^ 32)
    else (d.tagCur, d.tagEnd, s.tagNext)
  (cur, updDie { s with tagNext := next } die fun d => { d with tagCur := cur + 1, tagEnd := end_ })

def boundMask (slots : List (Option Bytes)) : Nat := (slots.zipIdx.map fun (x, j) => if x.isSome then 2 ^ j else 0).sum

/-- The bytes of an argument block after `astate`, up to the slots' end (17 Table 17.4). -/
def argBytes (n die tag i : Nat) (tmpl : W64) (x : Accept) : Bytes :=
  natLe 4 tag ++ le64 tmpl ++ natLe 8 x.tau ++ natLe 4 (n + x.slot * 2 ^ 16 + die * 2 ^ 24) ++
    natLe 4 (boundMask x.bound + i * 2 ^ 16) ++ zeros 32 ++
    ((List.range 8).map fun j => (x.bound.getD j none).getD (zeros 64)).flatten

/-- The completion payload (17 Table 17.8). -/
def gangPayload (tag : Nat) (fail bq : Bool) (cause : Nat) (arg cbqa : W64) (cbqs : W32) (start end_ : Nat) : Bytes :=
  natLe 4 tag ++ natLe 4 (fail.toNat + bq.toNat * 2 + cause * 2 ^ 8 + 0x47 * 2 ^ 24) ++ le64 arg ++ le64 cbqa ++
    le32 cbqs ++ zeros 4 ++ natLe 8 start ++ natLe 8 end_

/-- What is before a consumed event is before the vector that its acceptance raises (20 R320). -/
def toldHost (s : State) (me : Who) : State := { s with mm := learnTo s.mm (·.priorTo me) .host noCarry }

/-- A `nogang` acceptance: the vector and a completion event at once (R293). -/
def acceptNogang (s : State) (n : Nat) (t : Template) : State :=
  let s1 := if gcfgIen t then raiseMsix (toldHost s (hayWho n (streamOf s n).odie)) t.gmsix.toNat else s
  let s2 := if gcfgCen t then
      postEvent s1 (compStream t)
        ⟨compType t, 2, nowNs s, gangPayload 0 false false 0 0#64 0#64 t.gbqs 0 (nowNs s), noTag, false, 0⟩
        fun r => r.priorTo (hayWho n (streamOf s n).odie)
    else s1
  endAccept s2 n

/-- The completion event that a gang inherits from, if its slot holds one (R303). -/
def inheritedFrom (t : Template) (bound : List (Option Bytes)) : Option Bytes :=
  if !gcfgInh t then none else
  (bound.getD (gcfgInhs t) none).filter fun e =>
    bits (field e 6 1) 1 2 == 2 && bits (field e 0x14 4) 24 8 == 0x47 && bit (field e 0x14 4) 1

/-- What is before the event that an acceptance binds is before the gang that it launches, on every path (11 Tables 11.2,
11.3). -/
def launched (s : State) (me : Who) (tag : Nat) : State := { s with mm := learnTo s.mm (·.priorTo me) (.gang tag) carryAll }

def ringVa (t : Template) (i : Nat) : W64 := t.garing + BitVec.ofNat 64 (1024 * i)

/-- Writes the block once its `astate` reads 0, raises the vector and builds the launch record; none while it waits. -/
def writeBlock (s : State) (n : Nat) (x : Accept) (t : Template) (i : Nat) : Option State :=
  let die := (streamOf s n).odie
  let va := ringVa t i
  let me := hayWho n die
  match hayAccess s (some me) die (gcfgAsn t) va 4 4 .load true with
  | (.cls3 cause addr, s') => stallIn s' n (gcfgAsn t) cause addr 0
  | (.bad _ _, s') => some (dropLaunch s' n 3 x)
  | (.waits, _) => none
  | (.ok a _, s0) =>
    if field a 0 4 ≠ 0 then none else
    match hayAccess s0 none die (gcfgAsn t) va 0x240 4 .store false with
    | (.cls3 cause addr, s') => stallIn s' n (gcfgAsn t) cause addr 1
    | (.bad _ _, s') => some (dropLaunch s' n 3 x)
    | (.waits, _) => none
    | (.ok _ locs, s') =>
      let (tag, s1) := takeTag s' die
      let s2 := hayWrite s1 me (locs.drop 4) (argBytes n die tag i t.va x) false
      let s3 := launched (hayWrite s2 me (locs.take 4) (natLe 4 1) true) me tag
      let s4 := if gcfgIen t then raiseMsix (toldHost s3 me) t.gmsix.toNat else s3
      let l : Launch := ⟨tag, va, i, t, n, inheritedFrom t x.bound, none⟩
      some (updStream s4 n fun st => { st with accepts := st.accepts.drop 1, queued := st.queued ++ [(gcfgQueue t, l)] })

/-- Takes the ring index by an atomic add to `ganext`, once for each acceptance; it is reduced by the `galog` that the
template reads now (R290, R291). -/
def takeIndex (s : State) (n : Nat) (x : Accept) (t : Template) : Option State :=
  let st := streamOf s n
  match x.index with
  | some i => writeBlock s n x t (i % 2 ^ ringLog t)
  | none =>
    match hayAccess s none st.odie st.asn (t.va + 0x3C#64) 4 4 .store true with
    | (.cls3 cause addr, s') => stallIn s' n st.asn cause addr 1
    | (.bad _ _, s') => some (dropLaunch s' n 3 x)
    | (.waits, _) => none
    | (.ok b locs, s') =>
      let i := field b 0 4
      let s1 := updAccept (hayWrite s' (hayWho n st.odie) locs (le32 (f32 b 0 + 1)) false) n fun x => { x with index := some i }
      some ((writeBlock s1 n { x with index := some i } t (i % 2 ^ ringLog t)).getD s1)

/-- An acceptance with its template. One that raises a vector waits for the writes of ownership records whose channel is
not ready: they may happen before the event (20 R320). DESIGN CHOICE (log 112): it waits for all of them. -/
def launchWith (s : State) (n : Nat) (x : Accept) (t : Template) : Option State :=
  if gcfgIen t && !s.recWr.isEmpty then none
  else if gcfgNogang t then some (acceptNogang s n t) else takeIndex s n x t

/-- Whether a stream's first acceptance can be worked on: neither its launch record before it nor a record holds it. -/
def acceptReady (s : State) (n : Nat) : Bool :=
  let st := streamOf s n
  (st.accepts.head?.any fun x => !x.held) && st.queued.isEmpty && !st.rst && goesOn s n

/-- Goes on with a stream's first acceptance, whose template is read once; none while nothing of it can be done. -/
def acceptStep (s : State) (n : Nat) : Option State :=
  let st := streamOf s n
  match st.accepts with
  | [] => none
  | x :: _ =>
    match x.read with
    | some t => launchWith s n x t
    | none =>
      match readTemplate s (hayWho n st.odie) st.odie st.asn x.tmpl with
      | (.cls3 cause addr, s') => stallIn s' n st.asn cause addr 0
      | (.drop, s') => some (dropLaunch s' n 2 x)
      | (.waits, _) => none
      | (.ok t, s') =>
        let s1 := updAccept s' n fun x => { x with read := some t }
        some ((launchWith s1 n { x with read := some t } t).getD s1)

def execArgBlockWrite (n : Nat) (s : State) : Host.Outcome State Fault Refusal :=
  .next (if acceptReady s n then (acceptStep s n).getD s else s)

/-- Whether a step on a stream's first acceptance does anything: a block that is in use is read again without effect. -/
def acceptDue (s : State) (n : Nat) : Bool := acceptReady s n && (acceptStep s n).isSome

/-! ## Launch queues (R294, 18 R311) -/

def queueOf (s : State) (die q : Nat) : Queue := tget Queue.reset (dieOf s die).queues q
def updQueue (s : State) (die q : Nat) (f : Queue → Queue) : State :=
  updDie s die fun d => { d with queues := tmod Queue.reset d.queues q f }

/-! ### Gangs, and records that can never be placed (R297) -/

def newGang (die : Nat) (l : Launch) (now seq : Nat) (fail : Option Nat) (started : Bool) : Gang where
  tag := l.tag
  die := die
  launch := l
  commit := if started then now else 0
  seq := seq
  mark := now
  bq := false
  fail := fail
  stopped := fail.isSome
  started := started
  preSaved := false
  preSent := false
  preDue := 0
  phase := 0
  hold := none

/-- A gang is known from now on: one that starts, or one that fails without having started. -/
def addGang (s : State) (die : Nat) (l : Launch) (fail : Option Nat) (started : Bool) : State :=
  let (seq, s') := freshId s
  { s' with gangs := s'.gangs ++ [newGang die l (nowNs s) seq fail started] }

/-- A record leaves its queue. -/
def unqueueTag (s : State) (die q tag : Nat) : State :=
  updQueue s die q fun x => { x with recs := x.recs.filter fun z => z.tag != tag }

/-- Whether a record can never be placed (R297). -/
def unplaceable (t : Template) : Bool :=
  t.roles.any fun r => Config.warpSlots < needWarps r || Config.regFileBytes < needBytes r

/-- A record that can never be placed leaves its queue at once, and its gang completes with failure (R297). -/
def removeUnplaceable (s : State) (die q : Nat) (l : Launch) : State :=
  addGang (unqueueTag s die q l.tag) die l (some 0x81) false

/-- The record that a queued launch with a claim writes (18 Table 18.3, 21 R322). -/
def queuedRecord (die q : Nat) (l : Launch) : Bytes :=
  natLe 4 l.tag ++ natLe 4 (2 + die * 2 ^ 13 + q * 2 ^ 16) ++ le64 l.block

/-- A launch record enters its queue; it takes the oldest claim for its template. One that can never be placed leaves it at
once. -/
def enqueueLaunch (s : State) (die q : Nat) (l : Launch) : State :=
  let d := dieOf s die
  let claim := (d.claims.find? fun c => c.2.2 = l.tmpl.va).map fun c => (c.1, c.2.1)
  let l' := { l with claim := claim }
  let s1 := updQueue (updDie s die fun d => { d with
    claims := match d.claims.findIdx? (fun c => c.2.2 = l.tmpl.va) with
      | some i => d.claims.eraseIdx i
      | none => d.claims }) die q fun x => { x with recs := x.recs ++ [l'] }
  let s2 := match claim with
    | some (va, asn) => writeRecord s1 ⟨128 * die, ⟨l.tag, 0⟩, whoWord (128 * die) 0 0 0, va, asn, .whole (queuedRecord die q l)⟩
    | none => s1
  if unplaceable l.tmpl then removeUnplaceable s2 die q l' else s2

/-- Whether a stream's first launch record can enter its queue. -/
def enqueueDue (s : State) (n : Nat) : Bool :=
  let st := streamOf s n
  match st.queued with
  | (q, _) :: _ => !st.rst && (queueOf s st.odie q).recs.length < 32
  | [] => false

def execLaunchEnqueue (n : Nat) (s : State) : Host.Outcome State Fault Refusal :=
  .next (if !enqueueDue s n then s else
    let st := streamOf s n
    match st.queued with
    | (q, l) :: rest => offerOn (updStream (enqueueLaunch s st.odie q l) n fun st => { st with queued := rest }) n
    | [] => s)

/-! ## The lottery (R296) -/

def stepLstate (x : W32) : W32 :=
  let a := x ^^^ (x <<< 13)
  let b := a ^^^ (a >>> 17)
  b ^^^ (b <<< 5)

def eligible (s : State) (die : Nat) : List (Nat × Queue) :=
  (dieOf s die).queues.filter fun (_, q) => !q.blk && !q.recs.isEmpty

def pickByTickets : Nat → List (Nat × Queue) → Option Nat
  | _, [] => none
  | r, (q, x) :: rest => if r < x.tick then some q else pickByTickets (r - x.tick) rest

/-- The eligible queue that follows the last one chosen with T = 0, in ascending number modulo 64. -/
def pickInTurn (last : Nat) (es : List (Nat × Queue)) : Option Nat :=
  (((List.range 64).map fun i => (last + 1 + i) % 64).find? fun q => es.any fun e => e.1 = q)

/-- One draw: the chosen queue, and the die after it. -/
def drawQueue (s : State) (die : Nat) : Option Nat × State :=
  let es := eligible s die
  let t := (es.map fun e => e.2.tick).sum
  if t = 0 then
    match pickInTurn (dieOf s die).lastZero es with
    | some q => (some q, updDie s die fun d => { d with lastZero := q })
    | none => (none, s)
  else
    let x := stepLstate (dieOf s die).lstate
    (pickByTickets (x.toNat % t) es, updDie s die fun d => { d with lstate := x })

/-! ## Placement (R298) -/

/-- Whether a core takes a group beside reservations already made for its gang. -/
def coreFits (s : State) (c : Nat) (made : List (Nat × Role)) (r : Role) : Bool :=
  let mine := made.filter fun m => m.1 = c
  s.host.ready.contains (.hamlet (c / 8)) &&
    (mine.map fun m => needWarps m.2).sum + needWarps r ≤ freeSlots s c &&
    (mine.map fun m => needBytes m.2).sum + needBytes r ≤ freeStorage s c

/-- The first of the positions `b + off` to `b + 15` that takes a group. -/
def seekPos (s : State) (die b : Nat) (made : List (Nat × Role)) (r : Role) : Nat → Nat → Option Nat
  | 0, _ => none
  | k + 1, off => if coreFits s (128 * die + (b + off) % 128) made r then some off else seekPos s die b made r k (off + 1)

/-- The cores of a gang's groups from a base; none if the base fails. -/
def tryBase (s : State) (die b : Nat) : List Role → Nat → List (Nat × Role) → Option (List (Nat × Role))
  | [], _, made => some made
  | r :: rest, off, made =>
    match seekPos s die b made r (16 - off) off with
    | some o => tryBase s die b rest o (made ++ [(128 * die + (b + o) % 128, r)])
    | none => none

def bases (p : Nat) : List Nat :=
  p :: ((List.range 8).map fun i => [(p + i + 1) % 128, (p + 127 - i) % 128]).flatten

def codeAt (t : Table Byte) (pos : Nat) : Nat := (tget 0#8 t pos).toNat

def costOf (d : Die) (cores : List Nat) : Nat :=
  ((distinct (cores.map (· % 128))).map fun p => d.wt * codeAt d.ptemp p + d.wd * codeAt d.pdroop p + d.wi * codeAt d.pinj p).sum

/-- The base of least cost, the earlier of equal ones. -/
def cheapest (d : Die) : List (List Nat) → Option (List Nat)
  | [] => none
  | c :: rest =>
    match cheapest d rest with
    | none => some c
    | some x => if costOf d x < costOf d c then some x else some c

/-- The cores that the reeve chooses for a gang. -/
def placeGang (s : State) (die : Nat) (t : Template) : Option (List Nat) :=
  let d := dieOf s die
  let rs := (groupList t).map (·.2.2)
  cheapest d ((bases d.rrp).filterMap fun b => (tryBase s die b rs 0 []).map fun m => m.map (·.1))

/-- Whether a parked group of a die has its wake condition holding while it waits for room: it goes before every launch
record (03 R39). -/
def wakesFirst (s : State) (die : Nat) : Bool :=
  s.groups.any fun g => g.place == .parked && g.lastCore / 128 == die && wakes s g

/-- Whether the reeve draws now (R296). -/
def drawDue (s : State) (die : Nat) : Bool :=
  s.host.ready.contains (.reeve die) && !(dieOf s die).hung && (dieOf s die).placed.all (·.owner.isSome) &&
    !(eligible s die).isEmpty && !wakesFirst s die

def execLotteryDraw (die : Nat) (s : State) : Host.Outcome State Fault Refusal :=
  .next (if !drawDue s die then s else
    match drawQueue s die with
    | (none, s') => s'
    | (some q, s') =>
      match (queueOf s' die q).recs with
      | [] => s'
      | l :: _ =>
        if unplaceable l.tmpl then removeUnplaceable s' die q l else
        match placeGang s' die l.tmpl with
        | none => updQueue s' die q fun x => { x with blk := true }
        | some cores => updDie s' die fun d => { d with
            placed := d.placed ++ [⟨q, l, cores, none, [], none, false⟩]
            rrp := ((cores.getLast?.getD 0) % 128 + 1) % 128 })

/-! ## Commit (03 R27, R28, 17 R299) -/

/-- Bequest areas (R301). -/
def bqArea (t : Template) (aix grp : Nat) : W64 := t.gbqa + t.gbqs.setWidth 64 * BitVec.ofNat 64 (16 * aix + grp)
def bqRow (w j : Nat) : Nat := 0x1080 + 128 * (8 * w + j)

/-- The warps of a group that starts (06 Table 6.8, 04 R62). -/
def startWarps (used : List Nat) (nthr : Nat) : List Warp :=
  ((List.range (homeWarps nthr)).foldl (fun (acc : List Warp × List Nat) w =>
    let num := freeNum acc.2
    let tids := (List.range 32).filterMap fun l => if 32 * w + l < nthr then some (32 * w + l) else none
    let x := newWarp num (homeSlots tids w) [] [] .start
    (acc.1 ++ [{ x with first := true }], num :: acc.2)) ([], used)).1

/-- A group at its start (03 Table 3.2, 17 R299). -/
def startGroup (l : Launch) (grp core stamp : Nat) (used : List Nat) (x : Nat × Nat × Role) (owner : Option (Gid × Nat)) :
    Group where
  gid := ⟨l.tag, grp⟩
  stage := x.1
  role := x.1
  nthr := x.2.2.threads
  width := x.2.2.width
  asn := gcfgAsn l.tmpl
  arg := l.block
  place := .core core
  lastCore := core
  n := x.2.2.n
  g := x.2.2.g
  ns := x.2.2.ns
  fair := bits l.tmpl.gsched.toNat 0 17
  cthr := bits l.tmpl.gsched.toNat 20 6
  xsave := x.2.2.save + x.2.2.sstr.setWidth 64 * BitVec.ofNat 64 x.2.1
  xhand := l.tmpl.ghand
  slots := List.replicate 16 .idle
  threads := (List.range x.2.2.threads).map fun t => newThread t x.2.2.start stamp
  warps := startWarps used x.2.2.threads
  deadline := none
  keep := none
  full := false
  derr := none
  pend := 0
  saveHold := none
  record := if grp = 0 then l.claim else none
  depth := (owner.map (·.2)).getD 0
  helper := owner.map (·.1)
  searched := false
  chosen := none
  helpq := none
  spare := 0
  puts := []
  present := []
  saving := none
  strel := []

/-! ### Inheritance (R303) -/

/-- One inherited register of one home warp: the lanes that have bequeathed, tag, compact entry, row. -/
structure Bequest where
  reg  : Nat
  hw   : Nat
  mask : W32
  tag  : Nat
  ent  : Bytes
  row  : Bytes

/-- The value that a thread receives. -/
def bqVal (b : Bequest) (tid : Nat) : W32 := if b.mask.getLsbD (tid % 32) then f32 b.row (4 * (tid % 32)) else 0#32

/-- The tag of a received register (R303). Where no thread of the home warp has a value, it is `uni` if the device takes
03 R44 at its word (log 98). -/
def bqTag (b : Bequest) (tids : List Nat) : Tag :=
  let exact (v : Nat → W32) : Bool := tids.all fun t => v t == bqVal b t
  if Config.bqByStage && tids.all (fun t => !b.mask.getLsbD (t % 32)) then .uni else
  match b.tag with
  | 0 => if exact (fun _ => f32 b.ent 0) then .uni else .gen
  | 1 => if exact (fun t => f32 b.ent 0 + f32 b.ent 4 * BitVec.ofNat 32 t) then mkAff (f32 b.ent 0) (f32 b.ent 4) else .gen
  | _ => .gen

/-- A group with one inherited register. -/
def takeBequest (g : Group) (b : Bequest) : Group :=
  let tids := (g.threads.filter fun t => t.tid / 32 = b.hw).map (·.tid)
  { g with
    threads := modAll (fun t => t.tid / 32 = b.hw) (fun t => t.setReg b.reg (bqVal b t.tid)) g.threads
    warps := modAll (fun w => w.tids.any (tids.contains ·)) (fun w =>
      { w with tags := tset Tag.uni w.tags b.reg (bqTag b tids) }) g.warps }

/-- How a part of an inheritance ends: done, by a fault, or not yet, its channel not being ready. -/
inductive InhEnd where
  | done
  | fault
  | waits
  deriving DecidableEq, Repr

/-- Reads a few bytes of a bequest area, and goes on with them. -/
def bqRead (s : State) (me : Who) (die asn : Nat) (va : W64) (n : Nat) (go : Bytes → State → InhEnd × State) : InhEnd × State :=
  match hayAccess s (some me) die asn va n 1 .load true with
  | (.ok b _, s') => go b s'
  | (.waits, s') => (.waits, s')
  | (_, s') => (.fault, s')

/-- The entries of one home warp, one after the other. -/
def inheritRegs (me : Who) (gid : Gid) (die asn : Nat) (area : W64) (w bqf bqn n : Nat) (head : Bytes) : List Nat → State → InhEnd × State
  | [], s => (.done, s)
  | j :: rest, s =>
    if bqn ≤ j || n ≤ bqf + j then inheritRegs me gid die asn area w bqf bqn n head rest s else
    bqRead s me die asn (area + BitVec.ofNat 64 (bqRow w j)) 128 fun row s' =>
      let b : Bequest := ⟨bqf + j, w, f32 head 0, bits (field head 4 4) (2 * j) 2, (head.drop (16 + 8 * j)).take 8, row⟩
      inheritRegs me gid die asn area w bqf bqn n head rest (updGroup s' gid fun g => takeBequest g b)

def inheritWarps (me : Who) (gid : Gid) (die asn : Nat) (area : W64) (bqf bqn n : Nat) : List Nat → State → InhEnd × State
  | [], s => (.done, s)
  | w :: rest, s =>
    bqRead s me die asn (area + BitVec.ofNat 64 (0x80 + 128 * w)) 0x50 fun head s' =>
      match inheritRegs me gid die asn area w bqf bqn n head (List.range 8) s' with
      | (.done, s2) => inheritWarps me gid die asn area bqf bqn n rest s2
      | r => r

/-- Each group reads the area of its own coordinate; `stages` are those of the bequeathing gang's groups. DESIGN CHOICE
(log 98): 03 R44 matches the stage too and 17 R303 does not; which of them holds is a free value. -/
def inheritGroups (me : Who) (die asn : Nat) (base : W64) (stride : W32) (stages : List Nat) : List Gid → State → InhEnd × State
  | [], s => (.done, s)
  | gid :: rest, s =>
    let area := base + stride.setWidth 64 * BitVec.ofNat 64 gid.grp
    bqRead s me die asn area 4 fun h s' =>
      let hdr := field h 0 4
      if !bit hdr 31 then inheritGroups me die asn base stride stages rest s' else
      match groupOf s' gid with
      | none => (.done, s')
      | some g =>
        if Config.bqByStage && stages[gid.grp]? != some g.stage then inheritGroups me die asn base stride stages rest s' else
        match inheritWarps me gid die asn area (bits hdr 0 8) (bits hdr 8 4) g.n (List.range (homeWarps g.nthr)) s' with
        | (.done, s2) => inheritGroups me die asn base stride stages rest s2
        | r => r

/-- A gang inherits from the completion event `e`; none while an access waits. A fault after the compare-and-swap ends the
inheritance with a notice (R418), which names the `astate` that stays 4. DESIGN CHOICE (log 99): the manual does not say
which of the two blocks' `astate` the notice names. -/
def inherit (s : State) (die : Nat) (l : Launch) (gids : List Gid) (e : Bytes) : Option State :=
  let asn := gcfgAsn l.tmpl
  let carg := f64 e 0x18
  let me := launchWho l die
  match hayAccess s none die asn carg 8 4 .store true with
  | (.ok b locs, s') =>
    if field b 0 4 ≠ 3 || f32 b 4 ≠ f32 e 0x10 then some s' else
    let s1 := hayWrite s' me (locs.take 4) (natLe 4 4) false
    match inheritGroups me die asn (f64 e 0x20) (f32 e 0x28) (tget [] s.bqs (field e 0x10 4)) gids s1 with
    | (.fault, s2) => some (postRecord s2 die (noticeBytes 7 carg 0 (nowNs s2)))
    | (.waits, _) => none
    | (.done, s2) => some (hayWrite s2 me (locs.take 4) (natLe 4 0) false)
  | (.waits, _) => none
  | (_, s') => some s'

/-- What a write of a commit or a completion comes to (R418): made or dropped, held, or its channel is not ready. -/
inductive AstateRes where
  | done
  | held (ref : RecRef)
  | waits
  deriving DecidableEq, Repr

/-- A write that a commit or a completion has dropped: a notice of code 7. -/
def droppedWrite (s : State) (die : Nat) (va : W64) : State := postRecord s die (noticeBytes 7 va 0 (nowNs s))

/-- The record of such a write that is held names group 0 of the gang, and `pc` 0. -/
def holdWrite (s : State) (die core : Nat) (l : Launch) (hlp : Option (W32 × Nat)) (cause : Nat) (addr : W64) : AstateRes × State :=
  let (ref, s1) := class3 s die (gcfgAsn l.tmpl) 1 false none
    { cls := 3, cause := cause, prec := true, fwd := false, rpl := true, lanes := 0#32, who := whoWord core 0 0 0,
      tag := l.tag, pc := 0#64, addr := addr, info := 0#64, hlp := hlp }
  (.held ref, s1)

def writeAstate (s : State) (die core : Nat) (l : Launch) (hlp : Option (W32 × Nat)) (v : Nat) (sys : Bool) : AstateRes × State :=
  match hayAccess s none die (gcfgAsn l.tmpl) l.block 4 4 .store true with
  | (.ok _ locs, s') => (.done, hayWrite s' (launchWho l die) locs (natLe 4 v) sys)
  | (.bad _ _, s') => (.done, droppedWrite s' die l.block)
  | (.waits, s') => (.waits, s')
  | (.cls3 cause addr, s') => holdWrite s' die core l hlp cause addr

/-- The offsets of `bqhdr` and of every `bqln` of a bequest area (17 Table 17.9). -/
def bqClears : List Nat := 0 :: (List.range 32).map fun w => 0x80 + 128 * w

/-- `bqhdr` and every `bqln` of a group's bequest area are written 0 on the group's `CORE` path (R299). DESIGN CHOICE
(log 100): the manual does not say what a condition of this write does; it is held or dropped as the write of `astate` is. -/
def clearBequest (s : State) (die core grp stage : Nat) (l : Launch) (hlp : Option (W32 × Nat)) : AstateRes × State :=
  let area := bqArea l.tmpl l.aix grp
  match decideAccess s core (core / 8) (gcfgAsn l.tmpl) area 0x1004 4 .store with
  | (.cls3 cause addr, s') => holdWrite s' die core l hlp cause addr
  | (.cls4 _ addr, s') => (.done, droppedWrite s' die addr)
  | (.waits, s') => (.waits, s')
  | (.ok p, s') =>
    if unreached s'.fab p then (.done, droppedWrite s' die area) else
    let w : Writer := { core := some core, rec_ := some (l.tag, whoWord core grp stage 0), past := p.unc, src := some (0, .group ⟨l.tag, grp⟩) }
    (.done, applyWrite s' w ((bqClears.map fun o => (List.range 4).map fun i => (p.locs.getD (o + i) 0, 0#8)).flatten))

/-- Starts a gang on its cores: its groups, inheritance, records, `nstart`; none while an access of the inheritance
waits. -/
def startGang (s : State) (die q : Nat) (l : Launch) (cores : List Nat) (owner : Option (Gid × Nat)) : Option State :=
  let s0 := { s with mm := coverNow s.mm }
  let gs := (((groupList l.tmpl).zip cores).zipIdx).foldl (fun (acc : State) (x, i) =>
    { acc with groups := acc.groups ++ [startGroup l i x.2 s0.mm.stamp (usedNums acc x.2) x.1 owner] }) s0
  let s1 := addGang gs die l none true
  let s2 := match l.inh with
    | some e => inherit s1 die l ((List.range cores.length).map fun i => ⟨l.tag, i⟩) e
    | none => some s1
  s2.map fun s2 =>
    let s3 := updQueue s2 die q fun x => { x with nstart := x.nstart + 1 }
    match groupOf s3 ⟨l.tag, 0⟩ with
    | some g => ownState s3 g (if owner.isSome then 5 else 3) 0
    | none => s3

/-- Whether every reservation of a placement succeeds. -/
def placeFits (s : State) (p : Placement) : Bool :=
  (((groupList p.launch.tmpl).zip p.cores).foldl (fun (acc : List (Nat × Role) × Bool) (x, c) =>
    (acc.1 ++ [(c, x.2.2)], acc.2 && coreFits s c acc.1 x.2.2)) ([], true)).2

/-- A change of a placement of a die, named by its launch tag, and its end. -/
def setPlaced (s : State) (die : Nat) (p : Placement) : State :=
  updDie s die fun d => { d with placed := d.placed.map fun x => if x.launch.tag = p.launch.tag then p else x }
def dropPlaced (s : State) (die : Nat) (p : Placement) : State :=
  updDie s die fun d => { d with placed := d.placed.filter fun x => x.launch.tag != p.launch.tag }

/-- One write of a commit: of `astate`, or the clear of a group's bequest area. -/
def commitWrite (s : State) (die : Nat) (p : Placement) (i : Nat) : AstateRes × State :=
  let core := p.cores.headD 0
  let hlp := hlpBelow s p.owner
  if i = 0 then writeAstate s die core p.launch hlp 2 false
  else clearBequest s die (p.cores.getD (i - 1) core) (i - 1) (((groupList p.launch.tmpl)[i - 1]?.map (·.1)).getD 0) p.launch hlp

/-- The writes of a commit, in their order. -/
def commitList (p : Placement) : List Nat :=
  List.range (if gcfgBqen p.launch.tmpl then p.cores.length + 1 else 1)

/-- Makes the writes that are still to be made, until one does not end. -/
def commitWrites (die : Nat) : List Nat → Placement → State → AstateRes × Placement × State
  | [], p, s => (.done, p, s)
  | i :: rest, p, s =>
    if p.past.contains i then commitWrites die rest p s else
    match commitWrite s die p i with
    | (.done, s') => commitWrites die rest { p with past := p.past ++ [i] } s'
    | (.held ref, s') => (.held ref, { p with hold := some (ref, i) }, s')
    | (.waits, s') => (.waits, p, s')

/-- The commit's writes, then its start; none where nothing can be done yet. -/
def commitOn (s : State) (die : Nat) (p : Placement) : Option State :=
  match commitWrites die (commitList p) p s with
  | (.done, p', s') =>
    (match startGang (unqueueTag (dropPlaced s' die p') die p'.queue p'.launch.tag) die p'.queue p'.launch p'.cores p'.owner with
    | some t => some t
    | none => if p' = p then none else some (setPlaced s' die p'))
  | (.held _, p', s') => some (setPlaced s' die p')
  | (.waits, p', s') => if p' = p then none else some (setPlaced s' die p')

/-- The commit of a placement, all or none: its reservations are made as it begins, and stand until it ends. -/
def commitPlaced (s : State) (die : Nat) (p : Placement) : Option State :=
  if p.owner.isSome || p.begun then commitOn s die p
  else if !((queueOf s die p.queue).recs.head?.any fun l => l.tag = p.launch.tag) then some (dropPlaced s die p)
  else if !placeFits s p then some (updQueue (dropPlaced s die p) die p.queue fun x => { x with blk := true })
  else
    let p1 := { p with begun := true }
    let s1 := setPlaced s die p1
    some ((commitOn s1 die p1).getD s1)

/-- A placement that may go on: it does not hold, and no parked group whose wake has come is still to be resumed on the
die (03 R39). DEDUCED (log 101): that is so for an adopted owner's record too. -/
def mayCommit (s : State) (die : Nat) (p : Placement) : Bool := p.hold.isNone && !wakesFirst s die

/-- The first commit of a die that goes on. -/
def commitNext (s : State) (die : Nat) : Option State :=
  (dieOf s die).placed.findSome? fun p => if mayCommit s die p then commitPlaced s die p else none

def commitDue (s : State) (die : Nat) : Bool := (commitNext s die).isSome

def execGangCommit (die : Nat) (s : State) : Host.Outcome State Fault Refusal := .next ((commitNext s die).getD s)

/-! ## Completion (07 R132, 17 R300) -/

/-- Whether a launch tag still has a task, a copy, a reply or a held store outstanding, for one group or for all. -/
def outstanding (s : State) (mine : Gid → Bool) : Bool :=
  (s.hams.any fun (_, h) => h.queue.any (fun t => mine t.gid) || h.copies.any (fun c => mine c.gid) ||
    h.mill0.run.any (fun r => mine r.task.gid) || h.mill1.run.any fun r => mine r.task.gid) ||
  s.reqs.any (fun r => mine r.gid) || s.errs.any (fun e => mine e.gid) || s.fab.strels.any fun x => mine x.gid

/-- A completed or killed group's mailboxes are freed: binding, messages and record end (06 R101, 18 R312). -/
def freeBoxes (s : State) (mine : Gid → Bool) : State :=
  if s.boxes.any fun (_, b) => b.bound.any mine then
    { s with boxes := s.boxes.map fun (k, b) => (k, if b.bound.any mine then Mailbox.reset else b) }
  else s

def groupQuiet (s : State) (g : Group) : Bool :=
  g.place != .done && !(g.threads.any Thread.live) && g.saveHold.isNone && !outstanding s (· == g.gid)

def finishGroup (s : State) (g : Group) : State :=
  let s1 := ownState s g 6 0
  let s2 := updGroup s1 g.gid fun x => { x with
    lastCore := coreOf g
    place := .done
    warps := []
    helper := none
    record := none }
  let s3 := freeBoxes s2 (· == g.gid)
  markSaved (if onCore g then unblockFreed s s3 (coreOf g) else s3) g.gid.tag

def execGroupComplete (tag grp : Nat) (s : State) : Host.Outcome State Fault Refusal :=
  .next (match groupOf s ⟨tag, grp⟩ with
    | some g => if groupQuiet s g then finishGroup s g else s
    | none => s)

/-- Records of a gang that fails are written 7, and their bindings end (18 Table 18.3); a helper below is then free to
resume (R316). -/
def failRecords (s : State) (x : Gang) (cause : Nat) : State :=
  let s1 := (gangGroups s x.tag).foldl (fun s g =>
    updGroup (unbindRecord (ownState s g 7 cause) g.gid) g.gid fun x => { x with helper := none }) s
  if x.started then s1 else
  match x.launch.claim with
  | some (va, asn) => writeRecord s1 ⟨128 * x.die, ⟨x.tag, 0⟩, whoWord (128 * x.die) 0 0 0, va, asn, .state 7 cause⟩
  | none => s1

/-- Forgets a gang that has completed. -/
def dropGang (s : State) (tag : Nat) : State :=
  let s1 := freeBoxes s fun g => g.tag == tag
  { s1 with
    gangs := s1.gangs.filter fun x => x.tag != tag
    groups := s1.groups.filter fun g => g.gid.tag != tag
    mm := forget s1.mm (Agent.gone tag) }

/-- The write of `astate` at completion, then the gang is gone; the stages of its groups stand for its bequests (03 R44). -/
def endGang (s : State) (x : Gang) : State :=
  let s := { s with mm := learnTo s.mm (·.priorGang x.tag) (.gang x.tag) carryHay }
  match writeAstate s x.die (((gangGroups s x.tag).head?.map coreOf).getD (128 * x.die)) x.launch (hlpGang s x.tag)
      (if x.bq then 3 else 0) true with
  | (.waits, s') => s'
  | (.held ref, s') => updGang s' x.tag fun g => { g with hold := some ref }
  | (.done, s') =>
    dropGang (if x.bq then { s' with bqs := tset [] s'.bqs x.tag ((gangGroups s' x.tag).map (·.stage)) } else s') x.tag

/-- Whether a gang completes now, or goes on with its completion. -/
def gangDue (s : State) (x : Gang) : Bool :=
  match x.phase with
  | 0 => (gangGroups s x.tag).all (fun g => g.place == .done && g.saveHold.isNone) && !outstanding s fun g => g.tag == x.tag
  | 2 => x.hold.isNone
  | _ => false

/-- The completion event of a gang. -/
def gangPost (s : State) (x : Gang) : Post :=
  let t := x.launch.tmpl
  ⟨compType t, 2, nowNs s,
    gangPayload x.tag x.fail.isSome x.bq (x.fail.getD 0) x.launch.block (if x.bq then bqArea t x.launch.aix 0 else 0#64)
      t.gbqs (if x.started then x.commit else 0) (nowNs s), x.tag, true, 0⟩

def completeGang (s : State) (x : Gang) : State :=
  if x.phase = 2 then endGang s x else
  let s1 := match x.fail with
    | some c => failRecords s x c
    | none => s
  let s2 := if gcfgCen x.launch.tmpl then
      postEvent (updGang s1 x.tag fun g => { g with phase := 1 }) (compStream x.launch.tmpl) (gangPost s x)
        fun r => r.priorGang x.tag
    else updGang s1 x.tag fun g => { g with phase := 2 }
  match gangOf s2 x.tag with
  | some y => if y.phase = 2 then endGang s2 y else s2
  | none => s2

def execGangComplete (tag : Nat) (s : State) : Host.Outcome State Fault Refusal :=
  .next (match gangOf s tag with
    | some x => if gangDue s x then completeGang s x else s
    | none => s)

/-! ## Progress timeout (03 R40, 14 R255) -/

def timeoutDue (s : State) (x : Gang) : Bool :=
  x.started && !x.stopped && !(dieOf s x.die).hung && x.phase == 0 && x.launch.tmpl.gptmo != 0#32 && x.mark + x.launch.tmpl.gptmo.toNat < nowNs s &&
    (gangGroups s x.tag).any fun g => g.place != .done

def execProgressTimeout (tag : Nat) (s : State) : Host.Outcome State Fault Refusal :=
  .next (match gangOf s tag with
    | some x =>
      if timeoutDue s x then
        let core := ((groupOf s ⟨tag, 0⟩).map coreOf).getD 0
        let r : FRec :=
          { cls := 9, cause := 0x71, prec := false, fwd := false, rpl := false, lanes := 0#32, who := whoWord core 0 0 0,
            tag := tag, pc := 0#64, addr := 0#64, info := x.launch.tmpl.gptmo.setWidth 64, hlp := none }
        postRecord (stopGang s tag 0x71) x.die (r.bytes (nowNs s))
      else s
    | none => s)

/-! ## `BEQUEATH` (R302) -/

/-- The template of a context's gang, and its ring index. -/
def Ctx.launch (c : Ctx) (s : State) : Option Launch := (gangOf s c.cur.gid.tag).map (·.launch)

def bqCount (c : Ctx) (f : LongForm) : Nat := uniSrc c f f.sb

/-- The accesses of a thread: the header, the fixed part of its home warp, and its word of each row. -/
def bqPieces (area : W64) (n tid : Nat) : List (W64 × Nat) :=
  let at_ (o : Nat) : W64 := area + BitVec.ofNat 64 o
  [(area, 4), (at_ (0x80 + 128 * (tid / 32)), 16 + 8 * n)] ++
    (List.range n).map fun j => (at_ (bqRow (tid / 32) j + 4 * (tid % 32)), 4)

/-- A thread that has decided its accesses. -/
structure BqLane where
  t    : Thread
  here : List Places

/-- Decides the accesses of each active thread (12 R222). -/
def Ctx.bqDecide (c : Ctx) (s : State) (area : W64) (n : Nat) : List BqLane × List (Nat × LaneEnd) × State :=
  c.act.foldl (fun acc t => match c.decideMany (bqPieces area n t.tid) acc.2.2 with
    | (.ok ps, s') => (acc.1 ++ [⟨t, ps.map (·.2)⟩], acc.2.1, s')
    | (.error e, s') => (acc.1, acc.2.1 ++ [(t.tid, e)], s')) ([], [], s)

/-- A plain store of a thread within a piece. -/
def Ctx.bqStore (c : Ctx) (x : BqLane) (piece off : Nat) (b : Bytes) (acc : Option Nat × State) : Option Nat × State :=
  let p := x.here.getD piece ⟨[], [], false, []⟩
  let (e, s') := c.storeAt acc.2 0 x.t.tid { p with locs := (p.locs.drop off).take b.length } b
  (acc.1.or e, s')

/-- A thread's header and row words. -/
def Ctx.bqWords (c : Ctx) (first n hdr : Nat) (x : BqLane) (s : State) : Option Nat × State :=
  (List.range n).foldl (fun acc j => c.bqStore x (2 + j) 0 (le32 (x.t.reg (first + j))) acc) (c.bqStore x 0 0 (natLe 4 hdr) (none, s))

/-- The tags of one home warp, and the compact entries where the issue covers all of it; `x` is its lowest thread. -/
def Ctx.bqTags (c : Ctx) (first n : Nat) (mine : List BqLane) (x : BqLane) (acc : Option Nat × State) : Option Nat × State :=
  let w := x.t.tid / 32
  let whole := (c.grp.threads.all fun t => t.tid / 32 ≠ w || !t.live || mine.any fun u => u.t.tid = t.tid) &&
    c.warp.tids.all fun t => t / 32 = w
  let tag (j : Nat) : Tag := if whole then c.warp.tag (first + j) else .gen
  let old := leNat ((((x.here.getD 1 ⟨[], [], false, []⟩).locs.drop 4).take 4).map (homeByte acc.2.mm))
  let code (j : Nat) : Nat := if j < n then tagCode (tag j) else bits old (2 * j) 2
  let a1 := c.bqStore x 1 4 (natLe 4 (((List.range 8).map fun j => code j * 4 ^ j).sum + bits old 16 16 * 2 ^ 16)) acc
  if !whole then a1 else
  (List.range n).foldl (fun acc j => c.bqStore x 1 (16 + 8 * j) (match tag j with
    | .uni => le32 (x.t.reg (first + j)) ++ zeros 4
    | .aff b st => le32 b ++ le32 st
    | .gen => zeros 8) acc) a1

/-- The lane mask of one home warp: an atomic OR at its home. -/
def Ctx.bqMask (c : Ctx) (mine : List BqLane) (x : BqLane) (acc : Option Nat × State) : Option Nat × State :=
  let p := x.here.getD 1 ⟨[], [], false, []⟩
  let q : Places := { p with locs := p.locs.take 4 }
  match placeErr acc.2 q (q.locs.any (poisoned acc.2)) with
  | some e => (acc.1.or (some e), acc.2)
  | none =>
    let s := acc.2
    let v := BitVec.ofNat 32 (leNat (q.locs.map (homeByte s.mm))) ||| laneMask (mine.map (·.t.tid))
    let s1 := writeAs (countOne s c.cur.gid q) { groupWriter c.grp x.t.tid with core := none, rmw := true }
      (q.locs.zip (le32 v)) (threadWho c.grp x.t.tid) 0
    (acc.1, { s1 with mm := dropL1 s1.mm c.core q.locs })

/-- One home warp: every thread's words, then the tags, then the mask. An error reply charges its threads. -/
def Ctx.bqWarp (c : Ctx) (first n hdr : Nat) (area : W64) (acc : List (Nat × LaneEnd) × State) (mine : List BqLane) :
    List (Nat × LaneEnd) × State :=
  match mine with
  | [] => acc
  | x :: _ =>
    let (es, s1) := mine.foldl (fun (r : List (Nat × Option Nat) × State) y =>
      let (e, s') := c.bqWords first n hdr y r.2
      (r.1 ++ [(y.t.tid, e)], s')) ([], acc.2)
    let (e, s2) := c.bqMask mine x (c.bqTags first n mine x (none, s1))
    (acc.1 ++ es.map (fun y => (y.1, match y.2.or e with
      | some k => LaneEnd.err k area
      | none => LaneEnd.done)), s2)

/-- The header of the group's area, where it can be read. -/
def Ctx.bqHeader (c : Ctx) (s : State) (area : W64) : Nat :=
  match (c.decide s area 4 4 .store).1 with
  | .ok p => if p.locs.any (poisoned s) then 0 else leNat (p.locs.map (homeByte s.mm))
  | _ => 0

def Ctx.bequeath (c : Ctx) (s : State) (f : LongForm) (l : Launch) : State :=
  let first := f.sa.toNat
  let n := bqCount c f
  let area := bqArea l.tmpl l.aix c.cur.gid.grp
  let hdr := c.bqHeader s area
  if bit hdr 31 && (bits hdr 0 8 != first % 256 || bits hdr 8 4 != n) then c.trapAct s cILLOPND else
  let (xs, ends, s1) := c.bqDecide s area n
  let parts := (distinct (xs.map fun x => x.t.tid / 32)).map fun w => xs.filter fun x => x.t.tid / 32 = w
  let (es, s2) := parts.foldl (c.bqWarp first n (2 ^ 31 + n * 2 ^ 8 + first + bits hdr 12 19 * 2 ^ 12) area) ([], s1)
  let s3 := if xs.isEmpty then s2 else updGang s2 c.cur.gid.tag fun x => { x with bq := true }
  c.finishLanes s3 (ends ++ es) id

def execBequeath (f : LongForm) (s : State) : Host.Outcome State Fault Refusal :=
  .next (runCore s (.bequeath f) f.g false
    (fun c => f.sa.toNat < 0x100 && srcOk c f.lit false f.sb && srcUni c false f.sb && 1 ≤ bqCount c f && bqCount c f ≤ 8 &&
      f.sa.toNat + bqCount c f ≤ c.grp.n && (c.launch s).any fun l => gcfgBqen l.tmpl) fun c =>
    match c.launch s with
    | some l => c.bequeath s f l
    | none => s)

/-! ## Barriers (R304 to R306) -/

def barOp (s : State) (i : Instr) (g : BitVec 5) (k : BarKind) : State :=
  runCore s i g false (fun _ => true) fun c =>
    c.upd s (modThreads c.setTids fun t =>
      if c.actTids.contains t.tid then waitThread c.cur.next (.barrier k s.sch.cycle) t else { t with pc := c.cur.next })

def execGrpbar (f : LongForm) (s : State) : Host.Outcome State Fault Refusal := .next (barOp s (.grpbar f) f.g .group)
def execGrpbarS (g : BitVec 5) (s : State) : Host.Outcome State Fault Refusal := .next (barOp s (.grpbarS g) g .group)
def execGangbar (f : LongForm) (s : State) : Host.Outcome State Fault Refusal := .next (barOp s (.gangbar f) f.g .gang)
def execGangbarS (g : BitVec 5) (s : State) : Host.Outcome State Fault Refusal := .next (barOp s (.gangbarS g) g .gang)
def execStagebar (f : LongForm) (s : State) : Host.Outcome State Fault Refusal := .next (barOp s (.stagebar f) f.g .stage)
def execStagebarS (g : BitVec 5) (s : State) : Host.Outcome State Fault Refusal := .next (barOp s (.stagebarS g) g .stage)

/-- The groups of a barrier instance (R304): `idx` is the group's coordinate or the stage. -/
def barGroups (s : State) (tag : Nat) (k : BarKind) (idx : Nat) : List Group :=
  (gangGroups s tag).filter fun g => match k with
    | .group => g.gid.grp == idx
    | .gang => true
    | .stage => g.stage == idx

def atBarrier (k : BarKind) (t : Thread) : Bool :=
  match t.wait with
  | .barrier k' _ => k' == k
  | _ => false

/-- Whether every thread of an instance that has not exited has arrived, and some thread has. -/
def barDue (s : State) (tag : Nat) (k : BarKind) (idx : Nat) : Bool :=
  let gs := barGroups s tag k idx
  (gs.any fun g => g.threads.any (atBarrier k)) && gs.all fun g => g.threads.all fun t => !t.live || atBarrier k t

def releaseBarrier (k : BarKind) (t : Thread) : Thread := if atBarrier k t then { t with wait := .run, pc := t.wnext } else t

/-- What the arrivals of an instance release is known to every thread of it (R306, 11 R209). -/
def barrierEdges (s : State) (tag : Nat) (k : BarKind) (gs : List Group) : State :=
  let from_ := (gs.map fun g => ((g.threads.filter (atBarrier k)).map fun t => threadAgents g.gid t.tid).flatten).flatten
  let dst : List Agent := if k = .gang then [.gang tag] else gs.map fun g => .group g.gid
  let cov (r : Past) : Bool := k != .group || gs.any fun g => r.ofGroup g.gid
  { s with mm := dst.foldl (fun m a => learn m (·.priorOf from_) a noCarry cov) s.mm }

/-- Releases an instance's threads together; a release at `gang` covers (R306). -/
def completeBarrier (s : State) (tag : Nat) (k : BarKind) (idx : Nat) : State :=
  let gs := barGroups s tag k idx
  gs.foldl (fun s g =>
    let tids := (g.threads.filter (atBarrier k)).map (·.tid)
    let s1 := updGroup s g.gid fun x => { x with threads := x.threads.map (releaseBarrier k) }
    progress (if k = .group then s1 else coverThreads s1 g.gid tids) g) (barrierEdges s tag k gs)

def execBarrierComplete (tag : Nat) (kind : BarKind) (idx : Nat) (s : State) : Host.Outcome State Fault Refusal :=
  .next (if barDue s tag kind idx then completeBarrier s tag kind idx else s)

/-! ## Stream reset (15 R267) -/

/-- Removes the tasks and copies of killed gangs from the engines; a mill in the middle of an E step ends it first
(22 R334). -/
def cancelWork (mine : Gid → Bool) (h : Hamlet) : Hamlet :=
  let stop (m : Mill) : Mill :=
    match m.run with
    | some r =>
      if !mine r.task.gid then m
      else if r.bolt.isSome then { m with run := some { r with killed := true } }
      else { m with run := none, held := false }
    | none => m
  { h with
    queue := h.queue.filter fun t => !mine t.gid
    copies := h.copies.filter fun c => !mine c.gid
    mill0 := stop h.mill0
    mill1 := stop h.mill1 }

/-- An owner whose helper is killed runs on as an ordinary group (18 R315). -/
def loseHelper (mine : Gid → Bool) (g : Group) : Group :=
  if g.helper.any mine then { g with helper := none, depth := 0 } else g

/-- The pending posts of a killed gang are cancelled; with a held one, its hold. -/
def cancelPosts (tag : Nat) (st : Stream) : Stream :=
  { st with
    posts := st.posts.filter fun p => p.tag != tag
    postRef := if st.posts.head?.any fun p => p.tag = tag then none else st.postRef }

/-- Kills a gang: its record is written 7, its groups stop without a save, its work and its posts are cancelled. -/
def killGang (s : State) (x : Gang) : State :=
  let mine (g : Gid) : Bool := g.tag == x.tag
  let s1 := stopGang (failRecords s x 0x82) x.tag 0x82
  let s2 := dropGang s1 x.tag
  { s2 with
    groups := s2.groups.map (loseHelper mine)
    hams := s2.hams.map fun (k, h) => (k, cancelWork mine h)
    streams := s2.streams.map fun (k, st) => (k, cancelPosts x.tag st) }

/-- A queued launch record that is removed; its claim's record is written 7. -/
def killQueued (die : Nat) (s : State) (l : Launch) : State :=
  match l.claim with
  | some (va, asn) => writeRecord s ⟨128 * die, ⟨l.tag, 0⟩, whoWord (128 * die) 0 0 0, va, asn, .state 7 0x82⟩
  | none => s

/-- The barrier records of a ring that are published and not consumed, from index `i` on. -/
def unconsumed (s : State) (n : Nat) : Nat → W32 → List W64
  | 0, _ => []
  | k + 1, i =>
    let st := streamOf s n
    let rest := unconsumed s n k (i + 1)
    match (hayAccess s none st.odie st.asn (slotVa st i) 64 4 .load true).1 with
    | .ok b _ => if f32 b 0 = i && isBarrier b then f64 b 16 :: rest else rest
    | _ => rest

/-- `res` of a stream; `SHEAD` where it cannot be read. -/
def reserved (s : State) (n : Nat) : W32 :=
  let st := streamOf s n
  match (hayAccess s none st.odie st.asn st.scba 4 4 .load true).1 with
  | .ok b _ => f32 b 0
  | _ => st.shead

/-- The gangs launched through a stream, and the launch records that wait in it, in a queue, or for their commit. -/
def streamGangs (s : State) (n : Nat) : List Gang := s.gangs.filter fun x => x.launch.stream = n
def streamLaunches (s : State) (n : Nat) : List (Nat × Launch) :=
  ((streamOf s n).queued.map fun x => ((streamOf s n).odie, x.2)) ++
  (s.dies.map fun (k, d) => (d.queues.map fun (_, q) => (q.recs.filter fun l => l.stream = n).map fun l => (k, l)).flatten ++
    (d.placed.filter fun p => p.owner.isSome && p.launch.stream = n).map fun p => (k, p.launch)).flatten

/-- Takes a stream's launch records out of the queues. -/
def unqueue (n : Nat) (d : Die) : Die :=
  { d with
    queues := d.queues.map fun (k, q) => (k, { q with recs := q.recs.filter fun l => l.stream != n })
    placed := d.placed.filter fun p => p.launch.stream != n
    autos := d.autos.map fun (k, a) => (k, if a.stream = n && a.armed.isSome then { a with cands := [] } else a) }

/-- Arrivals for the barrier records that the reset discards. -/
def arriveAll (s : State) (n : Nat) (vas : List W64) : State :=
  vas.foldl (fun s va => match blockAt s n va with
    | (.ok b locs, s') => if blockLive b then arriveAt s' locs else s'
    | (_, s') => s') s

/-- Posts that wait for room in a stream which is reset are discarded (R264); an `EVBAR` goes on with the streams after
it. -/
def dropRingWait (n : Nat) (t : Thread) : Thread :=
  match t.wait, t.evb with
  | .ring m _, none => if m = n then { t with wait := .run, pc := t.wnext } else t
  | .ring m _, some (va, _ :: rest) => if m = n then { t with wait := .run, evb := some (va, rest) } else t
  | _, _ => t

/-- The blocks of the `EVBAR`s that wait for room in a stream, with the core and the address space of each. -/
def ringBlocks (s : State) (n : Nat) : List (Nat × Nat × W64) :=
  (s.groups.map fun g => g.threads.filterMap fun t => match t.wait, t.evb with
    | .ring m _, some (va, _) => if m = n then some (coreOf g, g.asn, va) else none
    | _, _ => none).flatten

/-- A barrier record that is discarded so counts as arrived at its block. -/
def arriveRing (s : State) (x : Nat × Nat × W64) : State :=
  match decideAccess s x.1 (x.1 / 8) x.2.1 x.2.2 64 64 .store with
  | (.ok p, s') => if p.locs.any (poisoned s') then s' else arriveAt s' p.locs
  | (_, s') => s'

/-- An access that only waits: for a channel that is not ready (01 R19), or for a change of the range registers
(10 R194). -/
def noAnswer : HayRes → Bool
  | .waits => true
  | .cls3 cause _ => cause == 0x21
  | _ => false

/-- The first index of a ring that no record of is consumed, and how many are reserved from it on. -/
def resetSpan (s : State) (n : Nat) : W32 × Nat :=
  let st := streamOf s n
  let first := if st.bar.isSome then st.shead + 1 else st.shead
  (first, min (ringSize st) (reserved s n - first).toNat)

/-- Whether an access of step 2 only waits; the reset goes on once none does (01 R19). -/
def resetWaits (s : State) (n : Nat) : Bool :=
  let st := streamOf s n
  let (first, count) := resetSpan s n
  noAnswer (hayAccess s none st.odie st.asn st.scba 4 4 .load true).1 ||
    ((List.range count).any fun k =>
      noAnswer (hayAccess s none st.odie st.asn (slotVa st (first + BitVec.ofNat 32 k)) 64 4 .load true).1) ||
    ((unconsumed s n count first).any fun va => noAnswer (blockAt s n va).1) ||
    (ringBlocks s n).any fun x => match (decideAccess s x.1 (x.1 / 8) x.2.1 x.2.2 64 64 .store).1 with
      | .waits => true
      | .cls3 cause _ => cause == 0x21
      | _ => false

/-- Steps 2 and 3 of a reset. -/
def goReset (s : State) (n : Nat) : State :=
  let st := streamOf s n
  let (first, count) := resetSpan s n
  let vas := unconsumed s n count first
  let gangs := streamGangs s n
  let ls := streamLaunches s n
  let s1 := updStream s n fun st => { st with rstWait := false, rstRes := reserved s n, postRef := none }
  let open_ := resolveRec (resolveRec s1 ((st.hold.map (·.notice)).getD none)) (st.postRef.getD none)
  let s2 := (ringBlocks s n).foldl arriveRing (arriveAll open_ n vas)
  let s3 := gangs.foldl killGang (ls.foldl (fun s x => killQueued x.1 s x.2) s2)
  let s4 := { s3 with
    dies := s3.dies.map fun (k, d) => (k, unqueue n d)
    groups := s3.groups.map fun g => { g with threads := g.threads.map (dropRingWait n) }
    mm := { s3.mm with owners := s3.mm.owners.filter fun o => o.2.2.1 != n } }
  let s5 := updStream s4 n fun st => { st with
    accepts := []
    queued := []
    hold := none
    killed := gangs.map (·.launch) ++ ls.map (·.2) }
  (s5.streams.map (·.1)).foldl retryPosts s5

/-- Step 1 of a reset; steps 2 and 3 follow at once unless an access of them waits. -/
def startReset (s : State) (n : Nat) : State :=
  if (streamOf s n).rst then s else
  let s1 := updStream s n fun st => { st with rst := true, rstWait := true }
  if resetWaits s1 n then s1 else goReset s1 n

def execStreamReset (n : Nat) (s : State) : Host.Outcome State Fault Refusal := .next (startReset s n)

/-- Whether a reset goes on: its steps 2 and 3 where they have waited, else the last, once the killed gangs have nothing
outstanding, their records are written (18 R309), and no access of that step waits. -/
def drainDue (s : State) (n : Nat) : Bool :=
  let st := streamOf s n
  st.rst && (if st.rstWait then !resetWaits s n else
    !(outstanding s fun g => st.killed.any fun l => l.tag = g.tag) &&
    !(s.recWr.any fun w => st.killed.any fun l => l.tag = w.gid.tag) &&
    !noAnswer (hayAccess s none st.odie st.asn (st.scba + 4#64) 4 4 .store true).1 &&
    st.killed.all fun l => !noAnswer (hayAccess s none st.odie (gcfgAsn l.tmpl) l.block 4 4 .store true).1)

/-- A killed gang's block returns to 0, unless it is held for a successor. -/
def freeBlock (die : Nat) (s : State) (l : Launch) : State :=
  match hayAccess s none die (gcfgAsn l.tmpl) l.block 4 4 .store true with
  | (.ok b locs, s') => if field b 0 4 = 3 then s' else hayWrite s' (launchWho l die) locs (natLe 4 0) true
  | (_, s') => postRecord s' die (noticeBytes 7 l.block 0 (nowNs s'))

/-- Steps 4 and 5 of a reset. -/
def endReset (s : State) (n : Nat) : State :=
  let st := streamOf s n
  let s1 := st.killed.foldl (freeBlock st.odie) s
  let s2 := resolveRec s1 (st.ref.getD none)
  let s3 := match hayAccess s2 none st.odie st.asn (st.scba + 4#64) 4 4 .store true with
    | (.ok _ locs, s') => hayWrite s' (hayWho n st.odie) locs (le32 st.rstRes) true
    | (_, s') => s'
  updStream s3 n fun st => { st with
    stail := st.rstRes
    shead := st.rstRes
    rst := false
    stall := false
    gap := false
    bar := none
    dead := false
    drop := 0
    ref := none
    hold := none
    postRef := none
    killed := []
    behind := 0 }

def execStreamResetDrain (n : Nat) (s : State) : Host.Outcome State Fault Refusal :=
  .next (if !drainDue s n then s else if (streamOf s n).rstWait then goReset s n else endReset s n)

end Sys2Proof.Machine
end

