-- ==== Sys2Proof/Machine/HelpOps.lean ====
section
/-! DEFINITION. Ownership records, their bindings, and adoption (ch. 18, 21 R321 to R323). -/

namespace Sys2Proof.Machine

open Sys2Proof

/-! ## `OWN` and `DISOWN` (18 R311) -/

/-- Finishes an instruction whose threads have each a mask bit. -/
def Ctx.ownMasks (c : Ctx) (s : State) (d : Nat) (rs : List (Nat × Bool × LaneEnd)) : State :=
  c.finishLanes s (rs.map fun r => (r.1, r.2.2)) fun t =>
    t.setMask d (((rs.find? fun r => r.1 = t.tid).map (·.2.1)).getD false)

/-- The end that a decision gives a thread, where it is a condition. -/
def Ctx.condEnd (c : Ctx) (kind : Nat) : Decision → Option LaneEnd
  | .ok _ => none
  | .cls4 cause addr => some (.cls4 cause addr)
  | .cls3 cause addr => some (.cls3 c.grp.asn kind cause addr)
  | .waits => some .waits

/-- One access of a thread: its places, its bytes at their home, or the thread's end. -/
def Ctx.ownAccess (c : Ctx) (s : State) (va : W64) (n align : Nat) (a : Acc) :
    Except LaneEnd (Places × Bytes) × State :=
  let (d, s') := c.decide s va n align a
  match d with
  | .ok p =>
    match placeErr s' p (p.locs.any (poisoned s')) with
    | some e => (.error (.err e va), s')
    | none => (.ok (p, p.locs.map (homeByte s'.mm)), s')
  | x => (.error ((c.condEnd a.kind x).getD .done), s')

/-- Writes a record at its home by a thread. -/
def Ctx.putRec (c : Ctx) (s : State) (tid : Nat) (p : Places) (b : Bytes) : State :=
  let s1 := writeAs (countOne s c.cur.gid p) { groupWriter c.grp tid with core := none } (p.locs.zip b) (threadWho c.grp tid) 0
  { s1 with mm := dropL1 s1.mm c.core p.locs }

/-- Runs an action of each active thread in turn. -/
def Ctx.each (c : Ctx) (go : State → Thread → (Bool × LaneEnd) × State) (s : State) : List (Nat × Bool × LaneEnd) × State :=
  c.act.foldl (fun acc t =>
    let (r, s') := go acc.2 t
    (acc.1 ++ [(t.tid, r.1, r.2)], s')) ([], s)

/-- A state in which a record may be taken: free, done or failed. -/
def recFree (b : Bytes) : Bool := [0, 6, 7].contains (recOfBytes b).state

def claimBytes (tmpl : W64) : Bytes := natLe 4 0 ++ natLe 4 1 ++ le64 tmpl

def Ctx.claimLane (c : Ctx) (f : LongForm) (s : State) (t : Thread) : (Bool × LaneEnd) × State :=
  let va := effAddr f t
  match c.ownAccess s va 16 16 .store with
  | (.error e, s') => ((false, e), s')
  | (.ok (p, b), s') =>
    if recFree b && (dieOf s' c.die).claims.length < 64 then
      let tmpl := rd64 f.lit f.sc t
      let s1 := updDie (c.putRec s' t.tid p (claimBytes tmpl)) c.die fun d => { d with claims := d.claims ++ [(va, c.grp.asn, tmpl)] }
      ((true, .done), s1)
    else ((false, .done), s')

def ownOp (s : State) (i : Instr) (f : LongForm) (chk : Ctx → Bool) (go : Ctx → State → Thread → (Bool × LaneEnd) × State) :
    State :=
  runCore s i f.g false (fun c => maskDstOk f.dst && chk c) fun c =>
    let (rs, s') := c.each (go c) s
    c.ownMasks s' f.dst.toNat rs

def execOwnClaim (f : LongForm) (s : State) : Host.Outcome State Fault Refusal :=
  .next (ownOp s (.ownClaim f) f (fun c => addrOk c f && srcOk c f.lit true f.sc) fun c => c.claimLane f)

/-- Ends a group's binding with state 6, as a device write (18 R309). -/
def disownGroup (s : State) (gid : Gid) : State :=
  match groupOf s gid with
  | some g => unbindRecord (ownState s g 6 0) gid
  | none => s

/-- The record of a group that binds itself (R311). -/
def selfBytes (s : State) (g : Group) : Bytes :=
  let die := coreOf g / 128
  let q := ((gangOf s g.gid.tag).map fun x => gcfgQueue x.launch.tmpl).getD 0
  natLe 4 g.gid.tag ++ natLe 4 ((if g.helper.isSome then 5 else 3) + g.gid.grp * 2 ^ 8 + die * 2 ^ 13 + q * 2 ^ 16) ++ le64 g.arg

def Ctx.selfLane (c : Ctx) (f : LongForm) (s : State) (t : Thread) : (Bool × LaneEnd) × State :=
  let va := effAddr f t
  match c.ownAccess s va 16 16 .store with
  | (.error e, s') => ((false, e), s')
  | (.ok (p, b), s') =>
    let own := (groupOf s' c.cur.gid).bind (·.record)
    let mine := own.any fun r => r.1 = va && r.2 = c.grp.asn
    if recFree b || mine then
      let s1 := if mine || own.isNone then s' else disownGroup s' c.cur.gid
      let s2 := c.putRec s1 t.tid p (selfBytes s1 c.grp)
      ((true, .done), updGroup s2 c.cur.gid fun g => { g with record := some (va, c.grp.asn) })
    else ((false, .done), s')

def execOwnSelf (f : LongForm) (s : State) : Host.Outcome State Fault Refusal :=
  .next (ownOp s (.ownSelf f) f (fun c => addrOk c f && addrUni c f) fun c => c.selfLane f)

/-- The capacity of the owner directory of a location's home (R312). -/
def directoryCap (loc : Nat) : Nat := if isCommonsLoc loc then 16 else 256

def setOwner (mm : MemSys) (loc : Nat) (rec_ : W64) (stream : Nat) (gid : Gid) : MemSys :=
  { mm with owners := (mm.owners.filter fun e => e.1 != loc) ++ [(loc, rec_, stream, gid)] }

def Ctx.wordLane (c : Ctx) (f : LongForm) (s : State) (t : Thread) : (Bool × LaneEnd) × State :=
  let rec_ := rd64 f.lit f.sc t
  let (d, s') := c.decide s (effAddr f t) 4 4 .load
  match d with
  | .ok p =>
    let loc := p.locs.headD 0
    if !canonical rec_ then ((false, .cls4 0x34 rec_), s')
    else if rec_.toNat % 16 ≠ 0 then ((false, .cls4 0x36 rec_), s')
    else
      let room := (s'.mm.owners.filter fun e => e.1 != loc && homeOf e.1 = homeOf loc).length < directoryCap loc
      if p.peer || isHostLoc loc || !room then ((false, .done), s')
      else ((true, .done), { s' with mm := setOwner s'.mm loc rec_ (((c.launch s').map (·.stream)).getD 0) c.cur.gid })
  | x => ((false, (c.condEnd 0 x).getD .done), s')

def execOwnWord (f : LongForm) (s : State) : Host.Outcome State Fault Refusal :=
  .next (ownOp s (.ownWord f) f (fun c => addrOk c f && srcOk c f.lit true f.sc) fun c => c.wordLane f)

/-- Whether a mailbox id names a mailbox of the issuing die. -/
def dieBox (c : Ctx) (id : Nat) : Bool := boxWord id && boxCore id / 128 == c.die

def Ctx.mboxLane (c : Ctx) (f : LongForm) (s : State) (t : Thread) : (Bool × LaneEnd) × State :=
  let va := effAddr f t
  let id := boxId f.lit f.sc t
  let (d, s') := c.decide s va 16 16 .load
  match d with
  | .ok _ => ((true, .done), updBox s' (boxCore id) (boxNum id) fun b => { b with orec := some (va, c.grp.asn) })
  | x => ((false, (c.condEnd 0 x).getD .done), s')

def execOwnMbox (f : LongForm) (s : State) : Host.Outcome State Fault Refusal :=
  .next (ownOp s (.ownMbox f) f
    (fun c => addrOk c f && srcOk c f.lit false f.sc && c.act.all fun t => dieBox c (boxId f.lit f.sc t)) fun c => c.mboxLane f)

def Ctx.unclaimLane (c : Ctx) (f : LongForm) (s : State) (t : Thread) : (Bool × LaneEnd) × State :=
  let va := effAddr f t
  match c.ownAccess s va 16 16 .store with
  | (.error e, s') => ((false, e), s')
  | (.ok (p, b), s') =>
    match (dieOf s' c.die).claims.findIdx? fun x => x.1 = va && x.2.1 = c.grp.asn with
    | some i =>
      let s1 := updDie s' c.die fun d => { d with claims := d.claims.eraseIdx i }
      ((true, .done), c.putRec s1 t.tid p (recordState b 0 0))
    | none => ((false, .done), s')

def execDisownClaim (f : LongForm) (s : State) : Host.Outcome State Fault Refusal :=
  .next (ownOp s (.disownClaim f) f (fun c => addrOk c f) fun c => c.unclaimLane f)

def Ctx.unselfLane (c : Ctx) (s : State) (_ : Thread) : (Bool × LaneEnd) × State :=
  let bound := (groupOf s c.cur.gid).any fun g => g.record.isSome
  ((bound, .done), if bound then disownGroup s c.cur.gid else s)

def execDisownSelf (f : LongForm) (s : State) : Host.Outcome State Fault Refusal :=
  .next (ownOp s (.disownSelf f) f (fun _ => true) fun c => c.unselfLane)

def Ctx.unwordLane (c : Ctx) (f : LongForm) (s : State) (t : Thread) : (Bool × LaneEnd) × State :=
  let (d, s') := c.decide s (effAddr f t) 4 4 .load
  match d with
  | .ok p =>
    let loc := p.locs.headD 0
    ((s'.mm.owners.any fun e => e.1 = loc, .done), { s' with mm := { s'.mm with owners := s'.mm.owners.filter fun e => e.1 != loc } })
  | x => ((false, (c.condEnd 0 x).getD .done), s')

def execDisownWord (f : LongForm) (s : State) : Host.Outcome State Fault Refusal :=
  .next (ownOp s (.disownWord f) f (fun c => addrOk c f) fun c => c.unwordLane f)

def Ctx.unmboxLane (_ : Ctx) (f : LongForm) (s : State) (t : Thread) : (Bool × LaneEnd) × State :=
  let id := boxId f.lit f.sc t
  ((((boxOf s (boxCore id) (boxNum id)).orec).isSome, .done),
    updBox s (boxCore id) (boxNum id) fun b => { b with orec := none })

def execDisownMbox (f : LongForm) (s : State) : Host.Outcome State Fault Refusal :=
  .next (ownOp s (.disownMbox f) f
    (fun c => srcOk c f.lit false f.sc && c.act.all fun t => dieBox c (boxId f.lit f.sc t)) fun c => c.unmboxLane f)

/-! ## Whether an owner is adoptable (18 R313, Table 18.5) -/

/-- What the reading of a record comes to: the owner's queued launch or its parked group, or a reason code. -/
inductive Adoptable where
  | queued (q : Nat) (l : Launch)
  | parked (g : Group)
  | no (why : Nat)
  deriving DecidableEq, Repr

/-- What the helper's chain and its core leave for an owner once the helper is parked. -/
def roomBelow (s : State) (h : Group) (need : Group → Nat) (free : Nat) : Nat := free + chainNeed s need 5 h

def ownerFits (s : State) (h : Group) (w bytes : Nat) : Bool :=
  w ≤ roomBelow s h groupWarps (freeSlots s (coreOf h)) &&
    bytes ≤ roomBelow s h groupBytes (freeStorage s (coreOf h))

/-- The launch record of a queue that a tag names, if the lottery has not drawn it. -/
def undrawn (s : State) (die q tag : Nat) : Option Launch :=
  (queueOf s die q).recs.find? fun l => l.tag = tag && !((dieOf s die).placed.any fun p => p.launch.tag = l.tag)

def queuedOwner (s : State) (h : Group) (r : Rec) : Adoptable :=
  let die := coreOf h / 128
  if r.die ≠ die then .no 2 else
  match undrawn s die r.queue r.otag with
  | none => .no 1
  | some l =>
    match (groupList l.tmpl).map (·.2.2) with
    | [x] => if ownerFits s h (needWarps x) (needBytes x) then .queued r.queue l else .no 4
    | _ => .no 3

def parkedOwner (s : State) (h : Group) (r : Rec) : Adoptable :=
  match groupOf s ⟨r.otag, r.grp⟩ with
  | none => .no 2
  | some g =>
    if g.lastCore / 128 ≠ coreOf h / 128 then .no 2
    else if g.place ≠ .parked || !wakes s g then .no 6
    else if !boxesAllow s g.gid (coreOf h) then .no 7
    else if !ownerFits s h (groupWarps g) (groupBytes g) then .no 6
    else .parked g

/-- The verdict on a record; none is a read that faults. -/
def adoptable (s : State) (h : Group) (r : Option Rec) : Adoptable :=
  match r with
  | none => .no 1
  | some r =>
    if r.reservedBits then .no 1
    else if 4 ≤ h.depth then .no 5
    else if r.state = 2 then queuedOwner s h r
    else if r.state = 4 then parkedOwner s h r
    else .no 1

/-- The owner that a verdict names. -/
def Adoptable.chosen : Adoptable → Option Chosen
  | .queued q l => some (.queued q l.tag)
  | .parked g => some (.parked g.gid)
  | .no _ => none

/-- A record that has been read; none where its read faults. -/
def RecRead.rec? : RecRead → Option Rec
  | .ok r => some r
  | _ => none

/-! ## Adopting (18 R314, 21 R321) -/

/-- The adoption counters (18 Table 18.7). -/
def countAdoption (s : State) (die depth : Nat) (queued : Bool) : State :=
  updDie s die fun d => { d with
    hadopt := d.hadopt + 1
    hqueued := if queued then d.hqueued + 1 else d.hqueued
    hmaxd := max d.hmaxd depth }

/-- A record found not adoptable is counted (18 Table 18.7). -/
def countRefusal (s : State) (die : Nat) : State := updDie s die fun d => { d with hrefuse := d.hrefuse + 1 }

/-- The choice of a helper is over. -/
def unchoose (s : State) (h : Gid) : State := updGroup s h fun g => { g with chosen := none }

/-- The owner can no longer be adopted: the helper resumes at once (21 R321); a `HELPQ` answers reason code 1. -/
def ownerGone (s : State) (h : Group) : State :=
  let s1 := updGroup (unchoose (countRefusal s (coreOf h / 128)) h.gid) h.gid fun g =>
    { g with helpq := g.helpq.map fun r => { r with word := (r.word &&& 0xFFFFFF0F#32) ||| 0x20#32 } }
  match groupOf s1 h.gid with
  | some g => resumeHelper s1 g
  | none => s1

/-- Whether a queued launch of one group still fits below a helper. -/
def launchFits (s : State) (h : Group) (l : Launch) : Bool :=
  match (groupList l.tmpl).map (·.2.2) with
  | [x] => ownerFits s h (needWarps x) (needBytes x)
  | _ => false

/-- A queued owner leaves its queue in one step and is committed on the helper's core (R314), if it is still there and the
room for it (21 R321). -/
def placeQueued (s : State) (h : Group) (q tag : Nat) : State :=
  let die := coreOf h / 128
  match undrawn s die q tag with
  | none => ownerGone s h
  | some l =>
    if !launchFits s h l then ownerGone s h else
    let p : Placement := ⟨q, l, [coreOf h], some (h.gid, h.depth + 1), [], none, false⟩
    let s1 := countAdoption (unchoose (unqueueTag s die q tag) h.gid) die (h.depth + 1) true
    let s2 := updDie s1 die fun d => { d with placed := d.placed ++ [p] }
    (commitPlaced s2 die p).getD s2

/-- A parked owner resumes on the helper's core; while its restore is held the helper stays parked. -/
def placeParked (s : State) (h : Group) (gid : Gid) : State :=
  match groupOf s gid with
  | none => ownerGone s h
  | some o =>
    if o.place == .parked && o.saveHold.isSome then s
    else if o.place != .parked || !wakes s o || !ownerFits s h (groupWarps o) (groupBytes o) then ownerGone s h
    else
      let s1 := resumeGroup s gid (coreOf h) (some (h.gid, h.depth + 1))
      match groupOf s1 gid with
      | some o1 =>
        if onCore o1 then countAdoption (unchoose s1 h.gid) (coreOf h / 128) (h.depth + 1) false
        else if o1.saveHold.isSome then s1
        else ownerGone s1 h
      | none => ownerGone s1 h

/-- Goes on with an adoption: parks the helper, then places the owner that it has chosen. While the helper's save is held
nothing is adopted. -/
def adoptOn (s : State) (gid : Gid) : State :=
  match groupOf s gid with
  | none => s
  | some h =>
    match h.chosen with
    | none => s
    | some (x, full) =>
      let s1 := if onCore h then parkGroup s gid full .below else s
      match groupOf s1 gid with
      | none => s1
      | some h1 =>
        if h1.place ≠ .below then s1 else
        match x with
        | .queued q tag => placeQueued s1 h1 q tag
        | .parked o => placeParked s1 h1 o

/-- An owner that holds as a helper's adoption resumes it. -/
def adopterOf (s : State) (o : Gid) : Option Group := s.groups.find? fun g => g.chosen.any fun x => x.1 = .parked o

/-! ## Adoption points (18 R313) -/

/-- The record that a waiting thread has found. -/
def foundRec (t : Thread) : Option W64 :=
  match t.wait with
  | .monitor m => if m.hit.isNone then m.orec else none
  | .future f => if f.hit.isNone then f.orec else none
  | .mailbox m => m.orec
  | _ => none

/-- Whether a group has reached its adoption point, and the reads of the records found do not wait. -/
def adoptionDue (s : State) (g : Group) : Bool :=
  onCore g && g.saveHold.isNone && g.chosen.isNone && !g.searched && !((gangOf s g.gid.tag).any fun x => x.preSent || x.stopped) &&
    (g.threads.all fun t => !t.live || t.waits) && (g.threads.any fun t => (foundRec t).isSome) &&
    (g.threads.filterMap foundRec).all fun va => (readRec s g va).1 != .waits

/-- Reads the records one at a time and adopts the first owner that is adoptable; each is read once. -/
def searchRecs (gid : Gid) : List W64 → State → State
  | [], s => updGroup s gid fun g => { g with searched := true }
  | va :: rest, s =>
    match groupOf s gid with
    | none => s
    | some g =>
      let (r, s1) := readRec s g va
      match (adoptable s1 g r.rec?).chosen with
      | none => searchRecs gid rest (countRefusal s1 (coreOf g / 128))
      | some x => adoptOn (updGroup s1 gid fun g => { g with chosen := some (x, false), searched := true }) gid

def execAdoption (tag grp : Nat) (s : State) : Host.Outcome State Fault Refusal :=
  .next (match groupOf s ⟨tag, grp⟩ with
    | none => s
    | some g =>
      if adoptionDue s g then
        searchRecs g.gid (distinct (g.threads.filterMap foundRec))
          (coverThreads s g.gid (g.threads.map (·.tid)))
      else s)

/-! ## `HELPQ` (18 R317) -/

/-- The status word (18 Table 18.6). -/
def helpWord (r : Option Rec) (x : Adoptable) : W32 :=
  let why : Nat := match x with
    | .no w => w
    | _ => 0
  let adp : Nat := match x with
    | .no _ => 0
    | _ => 1
  BitVec.ofNat 32 (((r.map Rec.state).getD 0) + adp * 2 ^ 4 + why * 2 ^ 5 + ((r.map Rec.cause).getD 0) * 2 ^ 8)

/-- A context's group as it stops for a `HELPQ`: the active threads receive the word as the group resumes. -/
def Ctx.stopFor (c : Ctx) (f : LongForm) (x : Chosen) (word : W32) (g : Group) : Group :=
  { modThreads c.setTids (fun t =>
      if c.actTids.contains t.tid then { t with wnext := c.cur.next } else { t with pc := c.cur.next }) g with
    chosen := some (x, true)
    helpq := some ⟨c.actTids, f.dst.toNat, !f.w, word⟩ }

/-- `HELPQ`: its read of the record is an acquire at `dev`; it waits for a channel that is not ready. -/
def Ctx.helpq (c : Ctx) (s : State) (f : LongForm) (va : W64) : State :=
  let (r, s0) := readRec s c.grp va
  if r = .waits then s else
  let s1 := coverThreads s0 c.cur.gid c.actTids
  let x := adoptable s1 c.grp r.rec?
  let word := helpWord r.rec? x
  match x.chosen with
  | none => c.result (countRefusal s1 c.die) f.dst f.w (res32 (fun _ => word) (tagOf c true))
  | some o => adoptOn (c.upd s1 (c.stopFor f o word)) c.cur.gid

def execHelpq (f : LongForm) (s : State) : Host.Outcome State Fault Refusal :=
  .next (runCore s (.helpq f) f.g true (fun c => dstOk c false f.dst && addrOk c f && addrUni c f) fun c =>
    let va := (c.act.head?.map (effAddr f)).getD 0#64
    if !canonical va then c.trap s 4 0x34 (c.actTids.map fun t => (t, va, 0#64))
    else if va.toNat % 16 ≠ 0 then c.trap s 4 0x36 (c.actTids.map fun t => (t, va, 0#64))
    else c.helpq s f va)

end Sys2Proof.Machine
end

