-- ==== Sys2Proof/Machine/MillOps.lean ====
section
/-! DEFINITION. The mill: tile tasks and the miller, the bin and its core instructions, bolter slots, the hoist and the
steps, completion and holds (22, 23 R339 to R353, 05 R79 to R88). -/

namespace Sys2Proof.Machine

open Sys2Proof

/-! ## The record (22 Tables 22.1, 22.2) -/

def Task.u (t : Task) (o : Nat) : Nat := field t.img o 4
def Task.top (t : Task) : Nat := bits (t.u 0) 0 4
def Task.fa (t : Task) : Nat := bits (t.u 0) 4 4
def Task.fb (t : Task) : Nat := bits (t.u 0) 8 4
def Task.zero (t : Task) : Bool := bit (t.u 0) 12
def Task.bolts (t : Task) : Bool := bit (t.u 0) 13
def Task.bslot (t : Task) : Nat := bits (t.u 0) 14 3
def Task.tmill (t : Task) : Nat := bits (t.u 0) 17 2
def Task.posts (t : Task) : Bool := bit (t.u 0) 19
def Task.pa (t : Task) : W64 := f64 t.img 0x08
def Task.pb (t : Task) : W64 := f64 t.img 0x10
def Task.lda (t : Task) : Nat := bits (t.u 0x18) 0 24
def Task.ldb (t : Task) : Nat := bits (t.u 0x1C) 0 24
def Task.m (t : Task) : Nat := bits (t.u 0x20) 0 9 + 1
def Task.n (t : Task) : Nat := bits (t.u 0x20) 16 7 + 1
def Task.k (t : Task) : Nat := bits (t.u 0x24) 0 16 + 1
def Task.row0 (t : Task) : Nat := bits (t.u 0x28) 0 9
def Task.col0 (t : Task) : Nat := bits (t.u 0x28) 16 7
def Task.comp (t : Task) : Nat := t.u 0x2C
def Task.px (t : Task) : W64 := f64 t.img 0x30
def Task.out (t : Task) : W64 := f64 t.img 0x38

/-- Whether `tmill` lets a task use a mill: 3 follows, and may meet either (22 R326, R327). -/
def Task.mayUse (t : Task) (m : Nat) : Bool := t.tmill == 0 || t.tmill == 3 || t.tmill == m + 1

/-- Reads of operands A and B (23 Table 23.5). -/
def Task.readsA (t : Task) : Bool := t.top ≤ 4
def Task.readsB (t : Task) : Bool := t.top ≤ 3

/-! ## Mills -/

def Hamlet.mill (h : Hamlet) (m : Nat) : Mill := if m = 0 then h.mill0 else h.mill1
def Hamlet.setMill (h : Hamlet) (m : Nat) (x : Mill) : Hamlet := if m = 0 then { h with mill0 := x } else { h with mill1 := x }
def updMill (s : State) (ham m : Nat) (f : Mill → Mill) : State := updHam s ham fun h => h.setMill m (f (h.mill m))
def updRun (s : State) (ham m : Nat) (f : Run → Run) : State := updMill s ham m fun x => { x with run := x.run.map f }
def runOf (s : State) (ham m : Nat) : Option Run := ((hamOf s ham).mill m).run

/-- The number of a bin word (22 R333). -/
def binKey (row col : Nat) : Nat := 128 * row + col

/-- Bin words written. -/
def binPut (b : Table W32) (ws : List (Nat × W32)) : Table W32 := ws.foldl (fun b (k, v) => tset 0#32 b k v) b

/-- A mill whose bin words are written; the errors that they held are gone (27 R400). -/
def Mill.putBin (m : Mill) (ws : List (Nat × W32)) : Mill :=
  { m with bin := binPut m.bin ws, bad := m.bad.filter fun k => !(ws.any fun w => w.1 = k) }

/-! ## Checks at `MTASK` (22 R326, 23 Table 23.3) -/

def badPlace (va : W64) (ld : Nat) : Bool := va.toNat % 32 != 0 || ld == 0 || ld % 32 != 0

/-- A reserved value or bit, or a field that the operation does not use (0x40). -/
def taskReserved (t : Task) : Bool :=
  bits (t.u 0) 20 12 != 0 || bits (t.u 4) 16 16 != 0 || bits (t.u 0x18) 24 8 != 0 || bits (t.u 0x1C) 24 8 != 0 ||
  bits (t.u 0x20) 9 7 != 0 || bits (t.u 0x20) 23 9 != 0 || bits (t.u 0x24) 16 16 != 0 || bits (t.u 0x28) 9 7 != 0 ||
  bits (t.u 0x28) 23 9 != 0 || bits (t.u 0x2C) 12 4 != 0 ||
  t.top == 0 || 6 ≤ t.top || 4 ≤ t.fa || 4 ≤ t.fb ||
  (!t.readsA && (t.pa != 0#64 || t.lda != 0 || t.fa != 0)) ||
  (!t.readsB && (t.pb != 0#64 || t.ldb != 0 || t.fb != 0 || t.u 0x24 != 0)) ||
  (t.top != 2 && t.px != 0#64) || (!t.bolts && t.out != 0#64)

/-- The lowest cause that applies, in the order of 23 Table 23.3; `follows` says whether `tmill` 3 has a task to follow. -/
def taskError (h : Hamlet) (t : Task) (follows : Bool) : Option Nat :=
  if taskReserved t then some 0x40
  else if 512 < t.row0 + t.m || 128 < t.col0 + t.n then some 0x41
  else if (t.readsA && badPlace t.pa t.lda) || (t.readsB && badPlace t.pb t.ldb) ||
    (t.bolts && t.out.toNat % 32 != 0) || (t.top == 2 && (t.px == 0#64 || t.px.toNat % 32 != 0)) then some 0x42
  else if t.bolts && (List.range 2).any (fun m => t.mayUse m && (tfind (h.mill m).progs t.bslot).isNone) then some 0x43
  else if t.posts && t.comp / 2 ^ 16 == 0xFFFF then some 0x44
  else if t.tmill == 3 && !follows then some 0x45
  else if (t.top ≤ 3 && t.fa != t.fb) || (t.top == 2 && (t.fa == 3 || t.k % 4 != 0)) || (t.top == 5 && !t.bolts) then
    some 0x46
  else none

/-! ## `MTASK` (23 R341) -/

/-- The operations captured on the wait slots (22 R328). -/
def captures (g : Group) (wait : Nat) : List (Nat × SlotOp) :=
  (List.range 16).filterMap fun d =>
    if bit wait d then
      match g.slots.getD d .idle with
      | .pending op => some (d, op)
      | _ => none
    else none

/-- The failure of a task that waits on a slot which has failed already. -/
def failedWait (g : Group) (wait : Nat) : Option (W64 × W64) :=
  ((List.range 16).find? fun d => bit wait d && (match g.slots.getD d .idle with
    | .failed _ _ => true
    | _ => false)).map fun d => (millWord 0x47 0 d 0 0 0 0, 0#64)

/-- The tile task that `tmill` 3 follows, in the same hamlet, and its mill once it runs. -/
def followed (h : Hamlet) (caps : List (Nat × SlotOp)) : Option (Nat × Option Nat) :=
  match caps with
  | (_, .task id) :: _ =>
    if h.queue.any fun t => t.id = id then some (id, none)
    else ((List.range 2).find? fun m => (h.mill m).run.any fun r => r.task.id = id).map fun m => (id, some m)
  | _ => none

/-- Tasks that refer to a bolter slot of a mill (22 R327). -/
def slotRefs (h : Hamlet) (m b : Nat) : Bool :=
  (h.queue.any fun t => t.bolts && t.bslot = b && t.mayUse m) ||
  (h.mill m).run.any fun r => r.task.bolts && r.task.bslot = b

/-- The mills that a bolter slot word names (23 R346). -/
def wordMills (w : W32) : List Nat := if bit w.toNat 4 then [0, 1] else [bits w.toNat 3 1]
def wordSlot (w : W32) : Nat := bits w.toNat 0 3

/-- Whether a `BLDP` of the hamlet waits on a bolter slot that a task names. -/
def bldpWaits (s : State) (ham : Nat) (t : Task) : Bool :=
  t.bolts && s.groups.any fun g => onCore g && coreOf g / 8 = ham && g.warps.any fun w =>
    match w.held with
    | some ⟨_, _, _, .bldp ((_, _, x) :: _) _⟩ => wordSlot x = t.bslot && (wordMills x).any t.mayUse
    | _ => false

/-- Whether the miller takes a task now. -/
def millerTakes (s : State) (ham : Nat) (t : Task) : Bool := (hamOf s ham).queue.length < 32 && !bldpWaits s ham t

/-- The task's slot becomes pending and the task joins the queue. -/
def queueTask (s : State) (ham : Nat) (t : Task) : State :=
  let s1 := { s with mm := forget s.mm (· == .slot t.gid t.slot) }
  updHam (updGroup s1 t.gid (setSlot t.slot (.pending (.task t.id)))) ham fun h => { h with queue := h.queue ++ [t] }

/-- What is before an issue of some threads is before every access of the engine that it starts (11 Table 11.2). -/
def Ctx.issues (c : Ctx) (s : State) (a : Agent) : State :=
  { s with mm := learnTo s.mm (·.knownBy (c.actTids.map (threadAgents c.cur.gid)).flatten) a noCarry }

/-- Holds the warp at its instruction: the active threads stay, the others move on (23 R341, 25 R364). -/
def Ctx.holdWarp (c : Ctx) (s : State) (what : Hold) : State :=
  c.upd s fun g =>
    let g1 := modThreads (c.setTids.filter fun t => !c.actTids.contains t) (fun t => { t with pc := c.cur.next }) g
    let hold (w : Warp) : Warp := { w with held := some ⟨c.actTids, c.cur.pc, c.cur.next, what⟩ }
    { g1 with warps := modAll (fun w => w.num = c.warp.num) hold g1.warps }

/-- All active threads name one address. -/
def sameAddr (c : Ctx) (f : LongForm) : Bool := (distinct (c.act.map (effAddr f))).length ≤ 1

/-- A record read by the lowest active thread at decided places: its bytes, or the error found where it is read. -/
def Ctx.readRecord (c : Ctx) (s : State) (p : Places) : Except Nat Bytes × State :=
  let tid := c.actTids.headD 0
  let r := readCore s (threadWho c.grp tid) c.core (coverOf s c.cur.gid tid) p.unc true byPart p.locs
  match readErr s p r with
  | some e => (.error e, r.st)
  | none => (.ok r.bytes, r.st)

/-- An instruction whose record cannot be read moves on, and its error follows (12 R223). -/
def Ctx.lostRecord (c : Ctx) (s : State) (va : W64) (cause : Nat) : State :=
  pushErrs (c.done s id) c.cur.gid 0#64 (c.actTids.map fun t => (t, cause, va))

/-- The effect of an `MTASK` whose record has been read. -/
def Ctx.mtask (c : Ctx) (s : State) (slot : Nat) (va : W64) (img : Bytes) : State :=
  let h := hamOf s c.ham
  let caps := captures c.grp (field img 4 4)
  let fol := followed h caps
  let tid := c.actTids.headD 0
  let (n, s1) := freshId s
  let t : Task := ⟨n, img, va, c.cur.gid, tid, groupWho c.grp tid, c.cur.pc, c.grp.asn, slot, caps,
    if bits (field img 0 4) 17 2 = 3 then fol.map (·.1) else none,
    if bits (field img 0 4) 17 2 = 3 then fol.bind (·.2) else none, failedWait c.grp (field img 4 4)⟩
  match taskError h t fol.isSome with
  | some e => c.trapMill s e c.actTids 0#64 (BitVec.ofNat 64 e)
  | none =>
    let s2 := c.issues s1 (.task t.gid t.id)
    if millerTakes s2 c.ham t then queueTask (c.done s2 id) c.ham t else c.holdWarp s2 (.mtask t)

def execMtask (f : LongForm) (s : State) : Host.Outcome State Fault Refusal :=
  .next (runCore s (.mtask f) f.g false
    (fun c => slotOk f.dst && addrOk c f && sameAddr c f && slotIdle c.grp f.dst.toNat) fun c =>
    let (ls, s1) := c.decideLanes s (effAddr f) (fun _ => 64) 64 .load
    c.perform s1 false 0 ls fun c s =>
      match ls.head? with
      | none => c.done s id
      | some l =>
        match l.places with
        | none => c.done s id
        | some p =>
          match c.readRecord s p with
          | (.error e, s') => c.lostRecord s' l.va e
          | (.ok img, s') => c.mtask s' f.dst.toNat l.va img)

/-! ## Held warps -/

def heldOf (s : State) (gid : Gid) (num : Nat) : Option (Group × Held) :=
  match groupOf s gid with
  | none => none
  | some g =>
    if !onCore g then none else
    ((g.warps.find? fun w => w.num = num).bind (·.held)).map fun h => (g, h)

/-- The threads of a held instruction that still stand at it. -/
def stillHeld (g : Group) (h : Held) : List Nat :=
  (g.threads.filter fun t => h.tids.contains t.tid && t.runnable && t.pc = h.pc).map (·.tid)

/-- A held instruction goes on or ends. -/
def setHeld (s : State) (gid : Gid) (num : Nat) (h : Option Held) : State :=
  updGroup s gid fun g => { g with warps := modAll (fun w => w.num = num) (fun w => { w with held := h }) g.warps }

/-- A held instruction ends: its threads move on. -/
def endHeld (s : State) (gid : Gid) (num : Nat) (h : Held) (tids : List Nat) : State :=
  updGroup (setHeld s gid num none) gid (modThreads tids fun t => { t with pc := h.next })

def execMtaskEnqueue (tag grp warp : Nat) (s : State) : Host.Outcome State Fault Refusal :=
  .next (match heldOf s ⟨tag, grp⟩ warp with
    | some (g, h) =>
      (match h.what with
      | .mtask t =>
        let tids := stillHeld g h
        if tids.isEmpty then setHeld s g.gid warp none
        else if millerTakes s (coreOf g / 8) t && slotIdle g t.slot then
          queueTask (endHeld s g.gid warp h tids) (coreOf g / 8) t
        else s
      | _ => s)
    | none => s)

/-! ## Direct bin access (23 R344, R345) -/

def binWordOk (a : W32) : Bool := a.toNat < 2 ^ 17
def binMill (a : W32) : Nat := bits a.toNat 16 1
def binIndex (a : W32) : Nat := bits a.toNat 0 16

def execBinld (f : LongForm) (s : State) : Host.Outcome State Fault Refusal :=
  .next (runCore s (.binld f) f.g true
    (fun c => dstOk c false f.dst && srcOk c f.lit false f.sa && c.act.all fun t => binWordOk (rd32 f.lit f.sa t)) fun c =>
    let word (t : Thread) : W32 :=
      let a := rd32 f.lit f.sa t
      tget 0#32 ((hamOf s c.ham).mill (binMill a)).bin (binIndex a)
    let bad (t : Thread) : Bool :=
      let a := rd32 f.lit f.sa t
      ((hamOf s c.ham).mill (binMill a)).bad.contains (binIndex a)
    c.sparing s true ((c.act.filter bad).map (·.tid)) fun c =>
      c.result s f.dst f.w (res32 word (tagOf c (srcUni c false f.sa))))

/-- Whether a mill runs a bolter program: a bin instruction falls between two steps, and E(p) is one (22 Table 22.3, 23 R345,
R354), so a write of the bin waits for it. -/
def inBolter (s : State) (ham m : Nat) : Bool := (runOf s ham m).any (·.bolt.isSome)

def execBinst (f : LongForm) (s : State) : Host.Outcome State Fault Refusal :=
  .next (runCore s (.binst f) f.g false
    (fun c => srcOk c f.lit false f.sa && srcOk c f.lit false f.sc &&
      c.act.all fun t => binWordOk (rd32 f.lit f.sa t)) fun c =>
    if c.act.any fun t => inBolter s c.ham (binMill (rd32 f.lit f.sa t)) then s else
    c.done (c.act.foldl (fun s t =>
      let a := rd32 f.lit f.sa t
      updMill s c.ham (binMill a) fun x => x.putBin [(binIndex a, rd32 f.lit f.sc t)]) s) id)

/-- The words of a bin region. -/
def regionKeys (row col rows cols : Nat) : List Nat :=
  ((List.range rows).map fun i => (List.range cols).map fun j => binKey (row + i) (col + j)).flatten

/-- Whether a bin word stands in a region. -/
def inRegion (row col rows cols k : Nat) : Bool :=
  row ≤ k / 128 && k / 128 < row + rows && col ≤ k % 128 && k % 128 < col + cols

/-- Zeros a region of a bin. -/
def binZero (b : Table W32) (row col rows cols : Nat) : Table W32 := b.filter fun x => !inRegion row col rows cols x.1
def Mill.zeroBin (m : Mill) (row col rows cols : Nat) : Mill :=
  { m with bin := binZero m.bin row col rows cols, bad := m.bad.filter fun k => !inRegion row col rows cols k }

/-- Address and extent of a `BINZ`. -/
def binzArgs (c : Ctx) (f : LongForm) : W32 × W32 :=
  match c.act with
  | t :: _ => (rd32 f.lit f.sa t, rd32 f.lit f.sb t)
  | [] => (0#32, 0#32)

def binzOk (a x : W32) : Bool :=
  binWordOk a && x.toNat < 2 ^ 16 && bits a.toNat 7 9 + bits x.toNat 7 9 + 1 ≤ 512 &&
    bits a.toNat 0 7 + bits x.toNat 0 7 + 1 ≤ 128

def execBinz (f : LongForm) (s : State) : Host.Outcome State Fault Refusal :=
  .next (runCore s (.binz f) f.g false
    (fun c => srcOk c f.lit false f.sa && srcOk c f.lit false f.sb && srcUni c false f.sa && srcUni c false f.sb &&
      binzOk (binzArgs c f).1 (binzArgs c f).2) fun c =>
    let (a, x) := binzArgs c f
    if inBolter s c.ham (binMill a) then s else
    c.done (updMill s c.ham (binMill a) fun m =>
      m.zeroBin (bits a.toNat 7 9) (bits a.toNat 0 7) (bits x.toNat 7 9 + 1) (bits x.toNat 0 7 + 1)) id)

/-! ## Bolter slots (23 R346, R347, R355) -/

def boltCode (img : Bytes) (w : Nat) : W32 := f32 img (0x80 + 4 * w)
def boltAddr (img : Bytes) (n : Nat) : W64 := f64 img (0x30 + 8 * n)
def boltConst (img : Bytes) (n : Nat) : W32 := f32 img (0x10 + 4 * n)
def boltPitch (img : Bytes) : Nat := bits (field img 4 4) 0 24

/-- Whether an instruction's addresses and the pitch suit it. -/
def boltInstrOk (img : Bytes) (i : Instr) : Bool :=
  let aligned (x : BitVec 3) (n : Nat) : Bool := (boltAddr img x.toNat).toNat % n == 0
  match i with
  | .bcolv _ x h | .browv _ x h => aligned x (if h then 2 else 4)
  | .bstsc _ x w => aligned x (if w then 4 else 1)
  | .bamaxg _ x => aligned x 4
  | .bsto _ _ _ => boltPitch img != 0 && boltPitch img % 32 == 0
  | _ => true

/-- Code words from word `w` on: legal up to the first `BEND`, zero after it. -/
def boltCodeOk (img : Bytes) : Nat → Nat → Bool
  | 0, _ => false
  | n + 1, w =>
    if boltCode img w = 0#32 then (List.range n).all fun i => boltCode img (w + 1 + i) == 0#32
    else
      match decodeBolter (boltCode img w) with
      | .ok i => boltInstrOk img i && boltCodeOk img n (w + 1)
      | .error _ => false

/-- Whether a bolter image is well formed (R355). -/
def imageOk (img : Bytes) : Bool :=
  field img 0 4 == 0x424F0001 && bits (field img 4 4) 24 8 == 0 && field img 8 8 == 0 && field img 0x50 48 == 0 &&
    boltCodeOk img 32 0

/-- Sets or empties bolter slots. -/
def putProg (s : State) (ham : Nat) (w : W32) (img : Option Bytes) : State :=
  (wordMills w).foldl (fun s m => updMill s ham m fun x => { x with progs := match img with
    | some b => tput x.progs (wordSlot w) b
    | none => tdel x.progs (wordSlot w) }) s

/-- One thread's action after its wait: it loads or empties the slots, its mask bit is written, and it moves on. The image
is read as a plain load, with its faults (12 R222): a class 3 condition holds the thread, which then reads it again, a
class 4 condition traps it, and an error met where it is read leaves the slot as it is. -/
def bldpAct (s : State) (g : Group) (h : Held) (kd tid : Nat) (va : W64) (w : W32) : State :=
  let ham := coreOf g / 8
  let fin (s : State) (b : Bool) : State :=
    updGroup s g.gid (modThreads [tid] fun t => { t.setMask kd b with pc := h.next })
  if bit w.toNat 5 then fin (putProg s ham w none) true else
  match decideAccess s (coreOf g) ham g.asn va 256 64 .load with
  | (.waits, s') => s'
  | (.cls3 cause addr, s') => hold3 s' g h.pc 0 [⟨tid, cause, addr⟩]
  | (.cls4 cause addr, s') => takeTrap s' g.gid [⟨tid, 4, cause, true, h.pc, h.pc, addr, 0#64⟩]
  | (.ok p, s') =>
    let r := readCore s' (threadWho g tid) (coreOf g) (coverOf s' g.gid tid) p.unc true byPart p.locs
    match readErr s' p r with
    | some e => pushErrs (fin r.st false) g.gid 0#64 [(tid, e, va)]
    | none => if imageOk r.bytes then fin (putProg r.st ham w (some r.bytes)) true else fin r.st false

/-- A thread of a held instruction that still stands at it, runnable or held by a class 3 condition. -/
def standsAt (g : Group) (h : Held) (tid : Nat) : Bool :=
  g.threads.any fun t => t.tid = tid && t.live && t.pc = h.pc

/-- Threads of a held `BLDP` act one after the other while their slots have no reference; one that is held or must wait
holds those after it, and the warp (23 R347, 24 R360). -/
def bldpRun (gid : Gid) (num : Nat) : Nat → State → State
  | 0, s => s
  | n + 1, s =>
    match heldOf s gid num with
    | some (g, h) =>
      (match h.what with
      | .bldp ((tid, va, w) :: rest) kd =>
        let next (s : State) : State :=
          bldpRun gid num n (setHeld s gid num (if rest.isEmpty then none else some { h with what := .bldp rest kd }))
        if !standsAt g h tid then next s
        else if !(stillHeld g h).contains tid then s
        else if (wordMills w).any fun m => slotRefs (hamOf s (coreOf g / 8)) m (wordSlot w) then s
        else
          let s1 := bldpAct s g h kd tid va w
          if (groupOf s1 gid).any (standsAt · h tid) then s1 else next s1
      | .bldp [] _ => setHeld s gid num none
      | _ => s)
    | none => s

def execBldp (f : LongForm) (s : State) : Host.Outcome State Fault Refusal :=
  .next (runCore s (.bldp f) f.g false
    (fun c => maskDstOk f.dst && addrOk c f && srcOk c f.lit false f.sc &&
      c.act.all fun t => (rd32 f.lit f.sc t).toNat < 2 ^ 6) fun c =>
    let todo := c.act.map fun t => (t.tid, effAddr f t, rd32 f.lit f.sc t)
    bldpRun c.cur.gid c.warp.num todo.length (c.holdWarp s (.bldp todo f.dst.toNat)))

def execBldpReplace (tag grp warp : Nat) (s : State) : Host.Outcome State Fault Refusal :=
  .next (match heldOf s ⟨tag, grp⟩ warp with
    | some (_, ⟨_, _, _, .bldp todo _⟩) => bldpRun ⟨tag, grp⟩ warp (todo.length + 1) s
    | _ => s)

/-! ## The miller (22 R327 to R329) -/

/-- A task whose captured operations have all completed. -/
def Task.ready (t : Task) : Bool := t.failed.isNone && t.caps.isEmpty

/-- The mills that a ready task may go to. -/
def Task.goes (t : Task) (m : Nat) : Bool := if t.tmill = 3 then t.onMill == some m else t.mayUse m

def millFree (h : Hamlet) (m : Nat) : Bool := (h.mill m).run.isNone && !(h.mill m).hold

/-- The oldest task that can go, and its mill: mill 0 where it may use either. -/
def nextIssue (h : Hamlet) : List Task → Option (Task × Nat)
  | [] => none
  | t :: rest =>
    match (List.range 2).find? fun m => millFree h m && t.ready && t.goes m with
    | some m => some (t, m)
    | none => nextIssue h rest

/-- Issues a task: it leaves the queue, and tasks that follow it know its mill. -/
def issueTask (s : State) (ham : Nat) (t : Task) (m : Nat) : State :=
  let s1 := updHam s ham fun h => { h with queue := h.queue.filter fun x => x.id ≠ t.id }
  mapTasks (fun x => if x.follow = some t.id then { x with onMill := some m } else x)
    (updMill s1 ham m fun x => { x with run := some ⟨t, 0, nowNs s, none, none, none, none, none, false⟩ })

def execTaskIssue (ham : Nat) (s : State) : Host.Outcome State Fault Refusal :=
  .next (match nextIssue (hamOf s ham) (hamOf s ham).queue with
    | some (t, m) => issueTask s ham t m
    | none => s)

/-! ## Sequencer steps (22 R333) -/

inductive MStep where
  | z (p : Nat)
  | x (p k : Nat)
  | l (p : Nat)
  | e (p : Nat)
  | c
  deriving DecidableEq, Repr

def Task.passes (t : Task) : Nat := (t.m + 127) / 128

/-- The rows of a pass. -/
def Task.passRows (t : Task) (p : Nat) : List Nat := (List.range (min 128 (t.m - 128 * p))).map fun i => 128 * p + i

def Task.steps (t : Task) : List MStep :=
  ((List.range t.passes).map fun p =>
    (if t.zero then [MStep.z p] else []) ++
    (if t.top ≤ 3 then (List.range ((t.k + 127) / 128)).map (MStep.x p) else if t.top = 4 then [.l p] else []) ++
    (if t.bolts then [.e p] else [])).flatten ++ [.c]

/-- The step that a mill performs next, unless its task is held, holds for a record, has ended, or runs a bolter. -/
def nextStep (s : State) (ham m : Nat) : Option (Run × MStep) :=
  let x := (hamOf s ham).mill m
  match x.run with
  | none => none
  | some r =>
    if x.held || r.hold.isSome || r.ended.isSome || r.bolt.isSome then none
    else some (r, r.task.steps.getD r.step .c)

/-- A step is complete: the next one follows, and a mill that is to be held stops there (22 R334). -/
def stepDone (s : State) (ham m : Nat) : State :=
  updMill (updRun s ham m fun r => { r with step := r.step + 1 }) ham m fun x => { x with held := x.hold }

/-- What ends or holds a step (22 R332, R336). -/
inductive Stop where
  | hold (cause : Nat) (addr : W64) (store : Bool) (opnd : Nat)
  | fail (code mcause : Nat) (addr : W64) (opnd win : Nat)
  | waits
  deriving DecidableEq, Repr

/-- The step is not applied: a class 3 condition writes or joins a record and holds it, an error ends the task. -/
def stopStep (s : State) (ham m : Nat) (e : Stop) : State :=
  match runOf s ham m with
  | none => s
  | some r =>
    match e with
    | .waits => s
    | .fail code mcause addr opnd win =>
      updRun s ham m fun r => { r with ended := some (millWord code mcause 0 r.step win m opnd, addr), bolt := none }
    | .hold cause addr store opnd =>
      let t := r.task
      let (ref, s1) := class3 s (ham / 16) t.asn (if store then 1 else 0) false none
        { cls := 3, cause := cause, prec := true, fwd := false, rpl := true, lanes := laneMask [t.tid], who := t.who,
          tag := t.gid.tag, pc := t.pc, addr := addr, info := 0#64, hlp := (groupOf s t.gid).bind (hlpOf s) }
      updRun s1 ham m fun r =>
        { r with hold := some (ref, millWord 0x48 0x30 0 r.step 0 m opnd, addr), bolt := none }

/-! ## The hoist (22 R325, R330, R332, 05 R79, 10 R193) -/

/-- The window in force at a location. -/
def windowAt (mm : MemSys) (loc : Nat) : Option Nat :=
  (mm.windows.find? fun (_, w) => w.on && w.base.toNat ≤ loc && loc < w.base.toNat + w.size.toNat).map (·.1)

/-- The places of an access on the `MILL` path. -/
def millAccess (s : State) (ham asn : Nat) (va : W64) (n : Nat) (a : Acc) (clean : Bool) (opnd : Nat) :
    Except Stop (List Nat) × State :=
  match decideAccess s (1024 + ham / 16) ham asn va n 1 a with
  | (.cls3 cause addr, s') => (.error (.hold cause addr (a = .store) opnd), s')
  | (.cls4 cause addr, s') => (.error (.fail 0x48 cause addr opnd 0), s')
  | (.waits, s') => (.error .waits, s')
  | (.ok p, s') =>
    if unreached s'.fab p then (.error (.fail 0x48 0x35 va opnd 0), s')
    else
      match p.locs.zipIdx.find? fun (l, _) => clean && poisoned s' l with
      | some (l, i) => (.error (.fail 0x48 0x37 (va + BitVec.ofNat 64 i) opnd ((windowAt s'.mm l).getD 0)), s')
      | none => (.ok p.locs, nextLook s')

/-- A task as a reader. -/
def Task.me (t : Task) (ham : Nat) : Who := engineWho (.task t.gid t.id) (ham / 16)

/-- Several accesses, one after the other, up to the first that stops. -/
def collect {α β : Type} (f : State → β → Except Stop α × State) : List β → State → Except Stop (List α) × State
  | [], s => (.ok [], s)
  | b :: rest, s =>
    match f s b with
    | (.error e, s') => (.error e, s')
    | (.ok a, s') =>
      match collect f rest s' with
      | (.error e, s'') => (.error e, s'')
      | (.ok as, s'') => (.ok (a :: as), s'')

/-- An element format as the mill reads it: bits of an element, low bits of a container that it skips (05 R70), whether
it is an integer, and its floating-point format. -/
structure ElemFmt where
  bits : Nat
  skip : Nat
  int  : Bool
  half : Bool
  fmt  : Fmt
  deriving DecidableEq, Repr

/-- The format that `tfa` or `tfb` names, and the one of a window's `efmt`. -/
def fmtNamed (n : Nat) : ElemFmt :=
  match n with
  | 1 => ⟨16, 0, false, true, fmtBF16⟩
  | 2 => ⟨16, 0, false, true, fmtF16⟩
  | _ => ⟨32, 13, false, true, fmtTF19⟩
def fmtTagged (n : Nat) : ElemFmt :=
  match n with
  | 0 => ⟨8, 0, false, false, fmtE4M3⟩
  | 1 => ⟨8, 0, false, false, fmtE5M2⟩
  | 2 => ⟨6, 0, false, false, fmtE3M2⟩
  | 3 => ⟨6, 0, false, false, fmtE2M3⟩
  | 4 => ⟨4, 0, false, false, fmtE2M1⟩
  | 5 => ⟨8, 0, true, false, fmtE4M3⟩
  | _ => ⟨4, 0, true, false, fmtE2M1⟩

/-- An operand of a task: which one (1 A, 2 B), its origin and pitch, its format, its window. -/
structure Operand where
  opnd : Nat
  base : W64
  ld   : Nat
  ef   : ElemFmt
  win  : Option (Nat × Window)
  deriving DecidableEq, Repr

def Operand.winNum (o : Operand) : Nat := (o.win.map (·.1)).getD 0
def Operand.geo (o : Operand) : Nat := (o.win.map (·.2.geo)).getD 0

/-- An operand of a step: its format is named, or its window is the one seen first, or else the one at its origin. -/
def operandOf (s : State) (ham : Nat) (t : Task) (opnd : Nat) (seen : Option Nat) : Except Stop Operand × State :=
  let named := if opnd = 1 then t.fa else t.fb
  let base := if opnd = 1 then t.pa else t.pb
  let ld := if opnd = 1 then t.lda else t.ldb
  if named ≠ 0 then (.ok ⟨opnd, base, ld, fmtNamed named, none⟩, s) else
  let tagged (s : State) (n : Nat) : Except Stop Operand × State :=
    let w := tget Window.reset s.mm.windows n
    (.ok ⟨opnd, base, ld, fmtTagged w.efmt, some (n, w)⟩, s)
  match seen with
  | some n => tagged s n
  | none =>
    match millAccess s ham t.asn base 1 .load true opnd with
    | (.error e, s') => (.error e, s')
    | (.ok locs, s') =>
      match windowAt s'.mm (locs.headD 0) with
      | some n => tagged s' n
      | none => (.error (.fail 0x49 0 base opnd 0), s')

/-- A run of elements of one row: their encodings, the location of their first byte and, with a window, the scale index of
each. -/
structure Elems where
  va    : W64
  codes : List Nat
  locs  : List Nat
  deriving DecidableEq, Repr

/-- Reads elements `c` to `c + n - 1` of row `row` (22 R325): each byte's line must carry the operand's tag. -/
def readElems (t : Task) (ham : Nat) (o : Operand) (c n : Nat) (s : State) (row : Nat) : Except Stop Elems × State :=
  let va := o.base + BitVec.ofNat 64 (row * o.ld + c * o.ef.bits / 8)
  match millAccess s ham t.asn va ((n * o.ef.bits + 7) / 8) .load true o.opnd with
  | (.error e, s') => (.error e, s')
  | (.ok locs, s') =>
    match locs.zipIdx.find? fun (l, _) => o.win.isSome && windowAt s'.mm l ≠ o.win.map (·.1) with
    | some (l, i) =>
      (.error (.fail 0x49 0 (va + BitVec.ofNat 64 i) o.opnd ((windowAt s'.mm l).getD 0)), s')
    | none =>
      let code (i : Nat) : Nat := bits (seenBits s' (t.me ham) 1 locs (o.ef.bits * i) o.ef.bits) o.ef.skip (o.ef.bits - o.ef.skip)
      (.ok ⟨va, (List.range n).map code, locs⟩, s')

/-- The window row of a bit of a byte, and the bit within that row. -/
def winPlace (w : Window) (loc b : Nat) : Nat × Nat :=
  let off := loc - w.base.toNat
  (off / w.pitch, off % w.pitch * 8 + b)

/-- The scale index of an element of `n` bits that begins at a bit of a byte (05 Table 5.4). -/
def scaleAtPlace (w : Window) (n loc b : Nat) : Nat :=
  let (row, c) := winPlace w loc b
  (if w.geo = 1 then row else row / 128) * ((w.pitch * 8 / n + 127) / 128) + c / n / 128

/-- The place of element `i` of a run, and its scale index. -/
def elemPlace (o : Operand) (w : Window) (e : Elems) (i : Nat) : Nat × Nat :=
  winPlace w (e.locs.getD (o.ef.bits * i / 8) 0) (o.ef.bits * i % 8)
def scaleIndex (o : Operand) (w : Window) (e : Elems) (i : Nat) : Nat :=
  scaleAtPlace w o.ef.bits (e.locs.getD (o.ef.bits * i / 8) 0) (o.ef.bits * i % 8)

/-- A scale of a window (05 R79, R81), read by its engine on its path `q` (22 R330): one that lies in a window which is being
disabled is held (10 R194). -/
def scaleAt (s : State) (me : Who) (q : Nat) (o : Operand) (w : Window) (va : W64) (idx : Nat) : Except Stop FVal :=
  let n := if w.sfmt = 1 then 4 else 1
  let locs := (List.range n).map fun i => w.scale.toNat + idx * n + i
  if locs.any (windowBusy s.mm) then .error (.hold 0x21 va false o.opnd)
  else if locs.any (channelWaits s.host) then .error .waits
  else if locs.any (poisoned s) then .error (.fail 0x48 0x37 va o.opnd o.winNum)
  else
    let v := seenNat s me q locs
    .ok (if w.sfmt = 1 then decodeF fmtF32 v else if v = 0xFF then .nan else .fin false 1 ((v : Int) - 127))

def one : FVal := .fin false 1 0

/-- The one scale of the elements `is` of a run, or 0x4A where it varies within the step (22 R336). -/
def stepScale (s : State) (me : Who) (o : Operand) (e : Elems) (is : List Nat) : Except Stop FVal :=
  match o.win with
  | none => .ok one
  | some (_, w) =>
    if w.geo = 0 then .ok one else
    let idx := is.map (scaleIndex o w e)
    if 1 < (distinct idx).length then .error (.fail 0x4A 0 e.va o.opnd o.winNum)
    else scaleAt s me 1 o w e.va (idx.headD 0)

/-! ## K-steps (05 R85 to R88, 23 R349, R350) -/

/-- The combinations of 23 Table 23.6 that window tags decide: the operand that breaks one. -/
def illegalPair (t : Task) (a b : Operand) : Option Operand :=
  if a.ef.int != b.ef.int then some b
  else if a.ef.int && a.geo != 0 then some a
  else if b.ef.int && b.geo != 0 then some b
  else if b.geo == 1 && t.top != 3 then some b
  else none

/-- Whether a k origin is off a multiple of 128 within its window row or column (22 R336); `k` is the first stored index
of the step, and `along` says that k runs along rows. -/
def originOff (o : Operand) (along : Bool) (k : Nat) (e : Elems) : Bool :=
  match o.win with
  | none => false
  | some (_, w) =>
    if w.geo = 0 then false else
    let (row, b) := elemPlace o w e 0
    if along then (b + o.ef.bits * 128 - o.ef.bits * (k % 128)) % (o.ef.bits * 128) != 0 else row % 128 != 0

def ofCode (o : Operand) (c : Nat) : FVal := decodeF o.ef.fmt c
def intCode (o : Operand) (c : Nat) : Int := intOf true o.ef.bits c

/-- A floating-point sum kept in FP32, and the balanced tree over one block (05 R88). -/
def roundF32 (x : FVal) : FVal := decodeF fmtF32 (encF fmtF32 x)
def pairSums : List FVal → List FVal
  | a :: b :: r => roundF32 (a.add b) :: pairSums r
  | l => l
def treeSum (ps : List FVal) : FVal := ((pairSums (pairSums (pairSums ps))).head?).getD one

def blocksOf : Nat → List FVal → List (List FVal)
  | 0, _ => []
  | _, [] => []
  | n + 1, l => l.take 8 :: blocksOf n (l.drop 8)

/-- One element of a K-step (05 R85, R87, R88). -/
def stepWord (a b : Operand) (old : W32) (xs ys : List Nat) (sa sb : FVal) : W32 :=
  if a.ef.int then
    BitVec.ofInt 32 (old.toInt + ((xs.zip ys).map fun (x, y) => intCode a x * intCode b y).sum)
  else
    let ps := (xs.zip ys).map fun (x, y) => (ofCode a x).mul (ofCode b y)
    if a.ef.half then
      BitVec.ofNat 32 (encF fmtF32 ((blocksOf 16 (ps.map roundF32)).foldl (fun acc blk => roundF32 (acc.add (treeSum blk)))
        (decodeF fmtF32 old.toNat)))
    else
      let sum := ps.foldl FVal.add (.fin true 0 0)
      let t := roundF32 ((sum.mul sa).mul sb)
      BitVec.ofNat 32 (encF fmtF32 ((decodeF fmtF32 old.toNat).add t))

/-- The logical row of `MMAS`: stored elements placed by their nibbles, the others +0 (23 R350). -/
def expandRow (stored : List Nat) (nibs : List Nat) : List Nat :=
  (nibs.zipIdx.map fun (nb, g) =>
    (List.range 4).map fun u =>
      if u = nb % 4 then stored.getD (2 * g) 0 else if u = nb / 4 then stored.getD (2 * g + 1) 0 else 0).flatten

/-- The nibbles of a row's metadata for a step; one with u0 ≥ u1 is 0x4D. -/
def readMeta (t : Task) (ham k nk : Nat) (s : State) (row : Nat) : Except Stop (List Nat) × State :=
  let va := t.px + BitVec.ofNat 64 (row * (32 * ((t.k + 255) / 256)) + k / 8)
  match millAccess s ham t.asn va ((nk + 7) / 8) .load true 1 with
  | (.error e, s') => (.error e, s')
  | (.ok locs, s') =>
    let nibs := (List.range (nk / 4)).map fun g => seenBits s' (t.me ham) 1 locs (4 * g) 4
    match nibs.findIdx? fun nb => nb / 4 ≤ nb % 4 with
    | some g => (.error (.fail 0x4D 0 (va + BitVec.ofNat 64 (g / 2)) 1 0), s')
    | none => (.ok nibs, s')

/-- A logical row of A for a step: its encodings and its scale. -/
def readA (t : Task) (ham : Nat) (o : Operand) (k nk : Nat) (s : State) (row : Nat) :
    Except Stop (List Nat × Elems) × State :=
  if t.top ≠ 2 then
    match readElems t ham o k nk s row with
    | (.error e, s') => (.error e, s')
    | (.ok e, s') => (.ok (e.codes, e), s')
  else
    match readElems t ham o (k / 2) (nk / 2) s row with
    | (.error e, s') => (.error e, s')
    | (.ok e, s') =>
      match readMeta t ham k nk s' row with
      | (.error x, s'') => (.error x, s'')
      | (.ok nibs, s'') => (.ok (expandRow e.codes nibs, e), s'')

/-- Scales of the rows of an operand whose k runs along rows. -/
def rowScales (s : State) (me : Who) (o : Operand) (k : Nat) (es : List Elems) : Except Stop (List FVal) :=
  match es.find? (originOff o true k) with
  | some e => .error (.fail 0x4A 0 e.va o.opnd o.winNum)
  | none => es.mapM fun e => stepScale s me o e (List.range e.codes.length)

/-- Scales of the columns of an operand whose k runs along columns: they may not vary over the rows. -/
def colScales (s : State) (me : Who) (o : Operand) (n : Nat) (es : List Elems) : Except Stop (List FVal) :=
  match o.win, es with
  | some (_, w), e :: _ =>
    if w.geo = 0 then .ok (List.replicate n one)
    else if originOff o false 0 e then .error (.fail 0x4A 0 e.va o.opnd o.winNum)
    else
      (List.range n).mapM fun j =>
        if 1 < (distinct (es.map fun x => scaleIndex o w x j)).length then .error (.fail 0x4A 0 e.va o.opnd o.winNum)
        else scaleAt s me 1 o w e.va (scaleIndex o w e j)
  | _, _ => .ok (List.replicate n one)

/-- The K-step of a pass: the words that it writes and the windows that it saw. -/
def kStep (s : State) (ham m : Nat) (r : Run) (p kk : Nat) : Except Stop (List (Nat × W32) × Option Nat × Option Nat) × State :=
  let t := r.task
  let k := 128 * kk
  let nk := min 128 (t.k - k)
  match operandOf s ham t 1 r.winA with
  | (.error e, s1) => (.error e, s1)
  | (.ok a, s1) =>
  match operandOf s1 ham t 2 r.winB with
  | (.error e, s2) => (.error e, s2)
  | (.ok b, s2) =>
  match illegalPair t a b with
  | some o => (.error (.fail 0x4B 0 o.base o.opnd o.winNum), s2)
  | none =>
  match collect (readA t ham a k nk) (t.passRows p) s2 with
  | (.error e, s3) => (.error e, s3)
  | (.ok as, s3) =>
  let rowsB := if t.top = 3 then List.range t.n else (List.range nk).map (k + ·)
  match collect (if t.top = 3 then readElems t ham b k nk else readElems t ham b 0 t.n) rowsB s3 with
  | (.error e, s4) => (.error e, s4)
  | (.ok bs, s4) =>
  match rowScales s4 (t.me ham) a (if t.top = 2 then k / 2 else k) (as.map (·.2)),
    (if t.top = 3 then rowScales s4 (t.me ham) b k bs else colScales s4 (t.me ham) b t.n bs) with
  | .error e, _ => (.error e, s4)
  | _, .error e => (.error e, s4)
  | .ok sas, .ok sbs =>
    let bin := ((hamOf s4 ham).mill m).bin
    let cols := (List.range t.n).map fun j =>
      if t.top = 3 then ((bs[j]?).map (·.codes)).getD [] else bs.map fun e => e.codes.getD j 0
    let words := ((t.passRows p).zip (as.zip sas)).map fun (i, x, sa) =>
      ((List.range t.n).zip (cols.zip sbs)).map fun (j, ys, sb) =>
        let key := binKey (t.row0 + i) (t.col0 + j)
        (key, stepWord a b (tget 0#32 bin key) x.1 ys sa sb)
    (.ok (words.flatten, a.win.map (·.1), b.win.map (·.1)), s4)

/-- Whether a step over the words `ws` reads a bin word that holds an uncorrectable error: its task fails (27 R400). -/
def binSpoilt (s : State) (ham m : Nat) (ws : List (Nat × W32)) : Bool :=
  ws.any fun w => ((hamOf s ham).mill m).bad.contains w.1
def binError : Stop := .fail 0x48 0x37 0#64 0 0

/-- Applies a step whole. -/
def applyStep (s : State) (ham m : Nat) (x : Except Stop (List (Nat × W32) × Option Nat × Option Nat) × State) : State :=
  match x with
  | (.error .waits, _) => s
  | (.error e, s') => stopStep s' ham m e
  | (.ok (ws, wa, wb), s') =>
    if binSpoilt s' ham m ws then stopStep s' ham m binError else
    stepDone (updMill s' ham m fun x => { x.putBin ws with
      run := x.run.map fun r => { r with winA := wa, winB := wb } }) ham m

def execKStep (ham mill : Nat) (s : State) : Host.Outcome State Fault Refusal :=
  .next (match nextStep s ham mill with
    | some (r, .x p k) => applyStep s ham mill (kStep s ham mill r p k)
    | _ => s)

def execZeroStep (ham mill : Nat) (s : State) : Host.Outcome State Fault Refusal :=
  .next (match nextStep s ham mill with
    | some (r, .z p) =>
      let t := r.task
      stepDone (updMill s ham mill fun x =>
        x.zeroBin (t.row0 + 128 * p) t.col0 (t.passRows p).length t.n) ham mill
    | _ => s)

/-! ## `MBADD` (23 R351) -/

/-- One element of L(p): its scale, and the word that it gives. -/
def addWord (s : State) (me : Who) (o : Operand) (e : Elems) (old : W32) (j : Nat) : Except Stop W32 :=
  let c := e.codes.getD j 0
  if o.ef.int then .ok (BitVec.ofInt 32 (old.toInt + intCode o c)) else
  let sum (sc : FVal) : W32 := BitVec.ofNat 32 (encF fmtF32 ((decodeF fmtF32 old.toNat).add ((ofCode o c).mul sc)))
  match o.win with
  | some (_, w) => if w.geo = 0 then .ok (sum one) else (scaleAt s me 1 o w e.va (scaleIndex o w e j)).map sum
  | none => .ok (sum one)

def loadAdd (s : State) (ham m : Nat) (r : Run) (p : Nat) :
    Except Stop (List (Nat × W32) × Option Nat × Option Nat) × State :=
  let t := r.task
  match operandOf s ham t 1 r.winA with
  | (.error e, s1) => (.error e, s1)
  | (.ok a, s1) =>
  if a.ef.int && a.geo != 0 then (.error (.fail 0x4B 0 a.base 1 a.winNum), s1) else
  match collect (readElems t ham a 0 t.n) (t.passRows p) s1 with
  | (.error e, s2) => (.error e, s2)
  | (.ok es, s2) =>
    let bin := ((hamOf s2 ham).mill m).bin
    let one (i j : Nat) (e : Elems) : Except Stop (Nat × W32) :=
      let key := binKey (t.row0 + i) (t.col0 + j)
      (addWord s2 (t.me ham) a e (tget 0#32 bin key) j).map fun w => (key, w)
    match ((t.passRows p).zip es).mapM fun (i, e) => (List.range t.n).mapM fun j => one i j e with
    | .error e => (.error e, s2)
    | .ok ws => (.ok (ws.flatten, a.win.map (·.1), none), s2)

def execLoadAddStep (ham mill : Nat) (s : State) : Host.Outcome State Fault Refusal :=
  .next (match nextStep s ham mill with
    | some (r, .l p) => applyStep s ham mill (loadAdd s ham mill r p)
    | _ => s)

/-! ## Completion (22 R335, R336) -/

/-- The completion event's payload (22 Table 22.4). -/
def taskPayload (t : Task) (m start now : Nat) (err : Option (W64 × W64)) : Bytes :=
  let cause := (err.map fun e => bits e.1.toNat 0 8).getD 0
  natLe 4 t.gid.tag ++ natLe 4 (err.isSome.toNat + cause * 2 ^ 8 + 0x4D * 2 ^ 24) ++ le64 t.recVa ++ le32 t.who ++
  natLe 4 (t.slot + m * 2 ^ 4) ++ natLe 8 start ++ natLe 8 now

/-- The slot is set or failed, the count moves, and the event is posted. -/
def completeTask (s : State) (ham : Nat) (t : Task) (m start : Nat) (err : Option (W64 × W64)) : State :=
  let s1 := updHam s ham fun h => { h with mdone := h.mdone + 1 }
  let prior (r : Past) : Option (List Nat) := r.priorOf [.task t.gid t.id]
  -- a set slot carries from `MILL` to `CORE` (11 Table 11.3)
  let mm := learnTo s1.mm prior (.slot t.gid t.slot) (carryFrom 1 0)
  let s2 := finishSlot { s1 with mm := mm } t.gid t.slot (match err with
    | some (w, a) => .failed w a
    | none => .set)
  if t.posts then
    postEvent s2 (t.comp % 2 ^ 12) ⟨t.comp / 2 ^ 16, 2, nowNs s2, taskPayload t m start (nowNs s2) err, t.gid.tag, false, 0⟩
      prior
  else s2

/-- The mill of a running task that has ended or has only C left. -/
def endedOn (h : Hamlet) (id : Nat) : Option (Nat × Run) :=
  (List.range 2).findSome? fun m => match (h.mill m).run with
    | some r =>
      if r.task.id = id && (r.ended.isSome || (!(h.mill m).held && r.bolt.isNone && r.task.steps.length ≤ r.step + 1)) then
        some (m, r)
      else none
    | none => none

def execTaskCompletion (ham task : Nat) (s : State) : Host.Outcome State Fault Refusal :=
  .next (
    let h := hamOf s ham
    match h.queue.find? fun t => t.id = task && t.failed.isSome with
    | some t => completeTask (updHam s ham fun h => { h with queue := h.queue.filter fun x => x.id ≠ task }) ham t 0 0 t.failed
    | none =>
      match endedOn h task with
      | some (m, r) =>
        completeTask (updMill s ham m fun x => { x with run := none, held := false }) ham r.task m r.start r.ended
      | none => s)

/-! ## Holds (22 R334) -/

/-- `hold` of a mill: set, its task stops after the next step (`stepDone`); clear, a held task goes on. -/
def holdMill (on : Bool) (x : Mill) : Mill := { x with hold := on, held := on && x.held }

def execMillHold (ham mill : Nat) (s : State) : Host.Outcome State Fault Refusal := .next (updMill s ham mill (holdMill true))
def execMillRelease (ham mill : Nat) (s : State) : Host.Outcome State Fault Refusal :=
  .next (updMill s ham mill (holdMill false))

end Sys2Proof.Machine
end

