-- ==== Sys2Proof/Machine/Bolter.lean ====
section
/-! DEFINITION. The bolter: E(p) begins, its program's operations, and the commitment of its stores (23 R354 to R358). -/

namespace Sys2Proof.Machine

open Sys2Proof

/-! ## E(p) (23 R354) -/

/-- The bolter that runs: its mill, its task, its place and its image. -/
structure BCtx where
  ham : Nat
  m   : Nat
  r   : Run
  b   : Bolt
  img : Bytes

def bctxOf (s : State) : Option BCtx :=
  match s.sch.bolt with
  | none => none
  | some (ham, m) =>
    match runOf s ham m with
    | none => none
    | some r => r.bolt.map fun b => ⟨ham, m, r, b, (tfind ((hamOf s ham).mill m).progs r.task.bslot).getD []⟩

def zeroRegs (n : Nat) : List (List W32) := List.replicate 8 (List.replicate n 0#32)

def execEpilogueStep (ham mill : Nat) (s : State) : Host.Outcome State Fault Refusal :=
  .next (if s.sch.bolt.isSome then s else match nextStep s ham mill with
    | some (r, .e p) =>
      updRun { s with sch := { s.sch with bolt := some (ham, mill) } } ham mill fun x =>
        { x with bolt := some ⟨p, 128 * p, 0, zeroRegs r.task.n, [], none⟩ }
    | _ => s)

/-- No bolter runs any more; a killed task leaves its mill. -/
def endBolt (s : State) (ham m : Nat) : State :=
  let s1 := updRun { s with sch := { s.sch with bolt := none } } ham m fun r => { r with bolt := none }
  if (runOf s1 ham m).any fun r => r.killed then updMill s1 ham m fun x => { x with run := none, held := false } else s1

/-- A condition ends E(p) without effect; a check that failed before it goes first (22 R336). -/
def boltStop (s : State) (c : BCtx) (e : Stop) : State :=
  match e, c.b.chk with
  | .waits, _ => s
  | .fail _ _ _ _ _, some a => endBolt (stopStep s c.ham c.m (.fail 0x4C 0 a 3 0)) c.ham c.m
  | e, _ => endBolt (stopStep s c.ham c.m e) c.ham c.m

/-- Runs one operation of the bolter; the next word follows. -/
def boltOp (s : State) (f : BCtx → State → Except Stop Bolt × State) : State :=
  match bctxOf s with
  | none => s
  | some c =>
    match f c s with
    | (.error .waits, _) => s
    | (.error e, s') => boltStop s' c e
    | (.ok b, s') => updRun s' c.ham c.m fun r => { r with bolt := some { b with word := b.word + 1 } }

def BCtx.reg (c : BCtx) (x : BitVec 3) : List W32 := c.b.regs.getD x.toNat []
def BCtx.setReg (c : BCtx) (d : BitVec 3) (v : List W32) : Bolt := { c.b with regs := c.b.regs.set d.toNat v }

/-- An operation on registers alone. -/
def boltReg (s : State) (d : BitVec 3) (v : BCtx → State → List W32) : State :=
  boltOp s fun c s => (.ok (c.setReg d (v c s)), s)

/-! ## The end of a row, and of the pass -/

/-- Where a store to memory falls in a window that is changing (10 R194): the address of its first such byte. -/
def BStore.busy (mm : MemSys) : BStore → Option W64
  | .bin _ _ => none
  | .mem va locs _ | .row va locs _ | .max va locs _ => (locs.findIdx? (windowBusy mm)).map fun i => va + BitVec.ofNat 64 i

/-- One store of the pass; a row is one write, with the enables of its bits (10 R195, R203). -/
def commitOne (c : BCtx) (s : State) (x : BStore) : State :=
  let w : Writer := { gangWriter c.r.task.gid.tag c.r.task.who with src := some (1, .task c.r.task.gid c.r.task.id) }
  match x with
  | .bin k v => updMill s c.ham c.m fun m => m.putBin [(k, v)]
  | .mem _ locs b => applyWrite s w (locs.zip b)
  | .row _ _ fs => putBits s w fs
  | .max _ locs v =>
    let old := leNat (locs.map (homeByte s.mm))
    applyWrite s w (locs.zip (natLe 4 (max old v.toNat)))

/-- The end of the pass: its check has failed, or a store of it holds, or all are committed. -/
def endPass (s : State) (c : BCtx) : State :=
  match c.b.chk, c.b.stores.findSome? (BStore.busy s.mm) with
  | some a, _ => endBolt (stopStep s c.ham c.m (.fail 0x4C 0 a 3 0)) c.ham c.m
  | none, some va => endBolt (stopStep s c.ham c.m (.hold 0x21 va true 3)) c.ham c.m
  | none, none => endBolt (stepDone (c.b.stores.foldl (commitOne c) s) c.ham c.m) c.ham c.m

def execBend (s : State) : Host.Outcome State Fault Refusal :=
  .next (match bctxOf s with
    | none => s
    | some c =>
      if c.b.row + 1 < 128 * c.b.pass + (c.r.task.passRows c.b.pass).length then
        updRun s c.ham c.m fun r => { r with bolt := some { c.b with
          row := c.b.row + 1
          word := 0
          regs := zeroRegs c.r.task.n } }
      else endPass s c)

def execBnop (s : State) : Host.Outcome State Fault Refusal := .next (boltOp s fun c s => (.ok c.b, s))

/-! ## Loads and constants -/

/-- A number from the bin words of the row. -/
def execBld (d : BitVec 3) (int : Bool) (s : State) : Host.Outcome State Fault Refusal :=
  .next (boltOp s fun c s =>
    let x := (hamOf s c.ham).mill c.m
    let keys := (List.range c.r.task.n).map fun j => binKey (c.r.task.row0 + c.b.row) (c.r.task.col0 + j)
    if keys.any x.bad.contains then (.error (.fail 0x48 0x37 0#64 3 0), s)
    else (.ok (c.setReg d (keys.map fun k =>
      let w := tget 0#32 x.bin k
      if int then BitVec.ofNat 32 (encF fmtF32 (FVal.ofInt w.toInt)) else w)), s))

def execBst (a : BitVec 3) (s : State) : Host.Outcome State Fault Refusal :=
  .next (boltOp s fun c s =>
    (.ok { c.b with stores := c.b.stores ++ ((c.reg a).zipIdx.map fun (w, j) =>
        BStore.bin (binKey (c.r.task.row0 + c.b.row) (c.r.task.col0 + j)) w) }, s))

def execBconst (d x : BitVec 3) (s : State) : Host.Outcome State Fault Refusal :=
  .next (boltReg s d fun c _ => List.replicate c.r.task.n (boltConst c.img x.toNat))

/-- A loaded FP32 word, or a BF16 value widened. -/
def loadedWord (bf16 : Bool) (v : Nat) : W32 :=
  BitVec.ofNat 32 (if bf16 then encF fmtF32 (decodeF fmtBF16 v) else v)

def execBcolv (d x : BitVec 3) (bf16 : Bool) (s : State) : Host.Outcome State Fault Refusal :=
  .next (boltOp s fun c s =>
    let n := if bf16 then 2 else 4
    match millAccess s c.ham c.r.task.asn (boltAddr c.img x.toNat) (n * c.r.task.n) .load true 3 with
    | (.error e, s') => (.error e, s')
    | (.ok locs, s') =>
      (.ok (c.setReg d ((List.range c.r.task.n).map fun j =>
        loadedWord bf16 (seenBits s' (c.r.task.me c.ham) 1 locs (8 * n * j) (8 * n)))), s'))

def execBrowv (d x : BitVec 3) (bf16 : Bool) (s : State) : Host.Outcome State Fault Refusal :=
  .next (boltOp s fun c s =>
    let n := if bf16 then 2 else 4
    match millAccess s c.ham c.r.task.asn (boltAddr c.img x.toNat + BitVec.ofNat 64 (n * c.b.row)) n .load true 3 with
    | (.error e, s') => (.error e, s')
    | (.ok locs, s') =>
      (.ok (c.setReg d (List.replicate c.r.task.n (loadedWord bf16 (seenBits s' (c.r.task.me c.ham) 1 locs 0 (8 * n))))), s'))

/-! ## Arithmetic (23 R357) -/

def fv (w : W32) : FVal := decodeF fmtF32 w.toNat
def toF32 (x : FVal) : W32 := BitVec.ofNat 32 (encF fmtF32 x)

/-- Two operands, lane by lane. -/
def boltBin (s : State) (d a b : BitVec 3) (f : W32 → W32 → W32) : State :=
  boltReg s d fun c _ => ((c.reg a).zip (c.reg b)).map fun (x, y) => f x y

def boltUn (s : State) (d a : BitVec 3) (f : W32 → W32) : State := boltReg s d fun c _ => (c.reg a).map f

def execBadd (d a b : BitVec 3) (s : State) : Host.Outcome State Fault Refusal :=
  .next (boltBin s d a b fun x y => toF32 ((fv x).add (fv y)))
def execBsub (d a b : BitVec 3) (s : State) : Host.Outcome State Fault Refusal :=
  .next (boltBin s d a b fun x y => toF32 ((fv x).add (fv y).neg))
def execBmul (d a b : BitVec 3) (s : State) : Host.Outcome State Fault Refusal :=
  .next (boltBin s d a b fun x y => toF32 ((fv x).mul (fv y)))
def execBfma (d a b x : BitVec 3) (s : State) : Host.Outcome State Fault Refusal :=
  .next (boltReg s d fun c _ => ((c.reg a).zip ((c.reg b).zip (c.reg x))).map fun (u, v, w) =>
    toF32 (((fv u).mul (fv v)).add (fv w)))

/-- R143 without `.prop`. -/
def boltMin (x y : W32) : W32 := BitVec.ofNat 32 (minMax fmtF32 false false x.toNat y.toNat).1
def boltMax (x y : W32) : W32 := BitVec.ofNat 32 (minMax fmtF32 true false x.toNat y.toNat).1

def execBmin (d a b : BitVec 3) (s : State) : Host.Outcome State Fault Refusal := .next (boltBin s d a b boltMin)
def execBmax (d a b : BitVec 3) (s : State) : Host.Outcome State Fault Refusal := .next (boltBin s d a b boltMax)
def execBclamp (d a b x : BitVec 3) (s : State) : Host.Outcome State Fault Refusal :=
  .next (boltReg s d fun c _ => ((c.reg a).zip ((c.reg b).zip (c.reg x))).map fun (u, v, w) => boltMin (boltMax u v) w)
def execBrelu (d a : BitVec 3) (s : State) : Host.Outcome State Fault Refusal :=
  .next (boltUn s d a fun x => boltMax x 0#32)

/-- A free value within a bound of the exact value; where it is out of bounds, the rounded exact value (log 8). -/
def openWithin (fn : OpenFn) (w : W32) (ref bound : FVal) (unit : Bool) : W32 :=
  let c := Config.openResult fn w
  let ok := match fv c with
    | .fin s m e => within (.fin s m e) ref bound && zeroSignOk (.fin s m e) ref && (!unit || leqVal (.fin false m e) one)
    | _ => false
  if ok then c else toF32 ref

/-- 1 / (1 + e^−v) for v in 128 places, e^−|v| below 2^−128 counting as 0. -/
def sigmoid (v : Int) : FVal :=
  let ex := match exp2Fix (-((v.natAbs : Int) * (fixOne : Int) / (ln2Fix : Int))) with
    | .fin _ m e => (toFix false m e).toNat
    | _ => 0
  if 0 ≤ v then quotProxy fixOne (fixOne + ex) 0 false
  else if ex = 0 then .fin false 0 0 else quotProxy ex (fixOne + ex) 0 false

/-- 4 ulp, or 2^−22 where that is larger. -/
def looseBound (ref : FVal) : FVal :=
  let u := ulps 4 fmtF32 ref
  if leqVal u (.fin false 1 (-22)) then .fin false 1 (-22) else u

/-- x / (1 + e^−v) where v is a function of x: `BGELU` and `BSILU`. -/
def gated (fn : OpenFn) (v : Int → Int) (w : W32) : W32 :=
  match fv w with
  | .nan => 0x7FC00000#32
  | .inf s => if s then 0x80000000#32 else 0x7F800000#32
  | .fin s m e =>
    let ref := (FVal.fin s m e).mul (sigmoid (v (toFix s m e)))
    openWithin fn w ref (looseBound ref) false

/-- Twice 0.7978845608 × (x + 0.044715 x³). -/
def geluArg (x : Int) : Int :=
  let cube := x * x / (fixOne : Int) * x / (fixOne : Int)
  2 * 7978845608 * (x + 44715 * cube / 1000000) / 10000000000

def boltTanh (w : W32) : W32 :=
  match fv w with
  | .nan => 0x7FC00000#32
  | .inf s => toF32 (.fin s 1 0)
  | .fin s 0 e => toF32 (.fin s 0 e)
  | .fin s m e =>
    let v := tanhVal m e
    let ref := if s then v.neg else v
    openWithin .btanh w ref (boundOf .tanh (.fin s m e) ref) true

def execBgelu (d a : BitVec 3) (s : State) : Host.Outcome State Fault Refusal :=
  .next (boltUn s d a (gated .gelu geluArg))
def execBsilu (d a : BitVec 3) (s : State) : Host.Outcome State Fault Refusal :=
  .next (boltUn s d a (gated .silu fun x => x))
def execBtanh (d a : BitVec 3) (s : State) : Host.Outcome State Fault Refusal := .next (boltUn s d a boltTanh)

/-- |x|, a NaN canonical. -/
def magOf (w : W32) : W32 := if (fv w).isNan then 0x7FC00000#32 else w &&& 0x7FFFFFFF#32

def execBamax (d a : BitVec 3) (s : State) : Host.Outcome State Fault Refusal :=
  .next (boltReg s d fun c _ =>
    List.replicate c.r.task.n (((c.reg a).map magOf).foldl (fun m x => if m.toNat < x.toNat then x else m) 0#32))

/-! ## Scales and stores (23 R358) -/

/-- The format of a code F, and the bits of its element. -/
def boltFmt (n : Nat) : Fmt :=
  match n with
  | 1 => fmtBF16
  | 2 => fmtF16
  | 3 => fmtE4M3
  | 4 => fmtE5M2
  | 5 => fmtE3M2
  | 6 => fmtE2M3
  | 7 => fmtE2M1
  | _ => fmtF32

/-- The scale of `BSCALE` for a lane-0 value. -/
def scaleWord (fm : Fmt) (w : W32) : W32 :=
  match fv w with
  | .nan => 0x7FC00000#32
  | .inf true => 0x7FC00000#32
  | .fin s 0 _ => toF32 (.fin (s && false) 1 0)
  | .fin true _ _ => 0x7FC00000#32
  | x =>
    let c := (ue8m0Val .ru true x (decodeF fm (maxMag fm))).1
    if c = 0xFF then 0x7FC00000#32 else toF32 (.fin false 1 ((c : Int) - 127))

def execBscale (d a : BitVec 3) (fmt : BitVec 4) (s : State) : Host.Outcome State Fault Refusal :=
  .next (boltReg s d fun c _ =>
    List.replicate c.r.task.n (scaleWord (boltFmt fmt.toNat) ((c.reg a).headD 0#32)))

/-- The exact quotient; a divisor that is zero or NaN makes NaN. -/
def boltQuot (a b : FVal) : FVal :=
  match a, b with
  | .nan, _ | _, .nan => .nan
  | .inf _, .inf _ => .nan
  | .inf s, .fin t m _ => if m = 0 then .nan else .inf (Bool.xor s t)
  | .fin s _ _, .inf t => .fin (Bool.xor s t) 0 0
  | .fin s m e, .fin t n g =>
    if n = 0 then .nan else if m = 0 then .fin (Bool.xor s t) 0 0 else quotProxy m n (e - g) (Bool.xor s t)

/-- `Off`(j, F): the byte at which element j of a packed row begins (22 R325). -/
def offOf (w j : Nat) : Nat := if w = 6 then 3 * (j / 4) else w * j / 8

/-- An element of `w` bits at bit `at_` of a row, as fields of its bytes. -/
def rowBits (locs : List Nat) (w at_ c : Nat) : List (Nat × Nat × Nat × Nat) :=
  let lo := at_ % 8
  let n := min w (8 - lo)
  let first := (locs.getD (at_ / 8) 0, lo, n, c)
  if n < w then [first, (locs.getD (at_ / 8 + 1) 0, 0, w - n, c / 2 ^ n)] else [first]

/-- The store of a row of elements of `w` bits: bytes, or narrower elements with the enables of their bits. -/
def rowStore (va : W64) (locs : List Nat) (w : Nat) (codes : List Nat) : BStore :=
  if w % 8 = 0 then .mem va locs (codes.map (natLe (w / 8))).flatten
  else .row va locs (codes.zipIdx.map fun (c, j) => rowBits locs w (w * j) c).flatten

def lowerAddr (a : Option W64) (b : W64) : Option W64 :=
  match a with
  | some x => some (if b.toNat < x.toNat then b else x)
  | none => some b

def execBsto (a b : BitVec 3) (i : BitVec 7) (s : State) : Host.Outcome State Fault Refusal :=
  .next (boltOp s fun c s =>
    let fm := boltFmt (i.toNat % 16)
    let w := fm.width
    let va := c.r.task.out + BitVec.ofNat 64 (c.b.row * boltPitch c.img)
    match millAccess s c.ham c.r.task.asn va ((w * c.r.task.n + 7) / 8) .store false 3 with
    | (.error e, s') => (.error e, s')
    | (.ok locs, s') =>
      let vals := ((c.reg a).zip (c.reg b)).map fun (x, y) =>
        cvt fm .rn (i.getLsbD 4) (if i.getLsbD 6 then boltQuot (fv x) (fv y) else fv x)
      let bad := (vals.zipIdx.filter fun (v, _) => i.getLsbD 5 && v.2 &&& flOvf != 0#4).map fun (_, j) =>
        va + BitVec.ofNat 64 (offOf w j)
      (.ok { c.b with
        stores := c.b.stores ++ [rowStore va locs w (vals.map (·.1))]
        chk := bad.foldl lowerAddr c.b.chk }, s'))

def execBstsc (a x : BitVec 3) (wide : Bool) (s : State) : Host.Outcome State Fault Refusal :=
  .next (boltOp s fun c s =>
    let n := if wide then 4 else 1
    let v := (c.reg a).headD 0#32
    let va := boltAddr c.img x.toNat + BitVec.ofNat 64 (n * c.b.row)
    match millAccess s c.ham c.r.task.asn va n .store false 3 with
    | (.error e, s') => (.error e, s')
    | (.ok locs, s') =>
      let bytes := if wide then le32 v else natLe 1 (scaleCode .rn true (fv v))
      (.ok { c.b with stores := c.b.stores ++ [.mem va locs bytes] }, s'))

def execBamaxg (a x : BitVec 3) (s : State) : Host.Outcome State Fault Refusal :=
  .next (boltOp s fun c s =>
    let va := boltAddr c.img x.toNat
    match millAccess s c.ham c.r.task.asn va 4 .store true 3 with
    | (.error e, s') => (.error e, s')
    | (.ok locs, s') =>
      (.ok { c.b with stores := c.b.stores ++ [.max va locs (magOf ((c.reg a).headD 0#32))] }, s'))

end Sys2Proof.Machine
end

