-- ==== Sys2Proof/Machine/CarterOps.lean ====
section
/-! DEFINITION. The carter: copy records and their checks, units, completion (25). -/

namespace Sys2Proof.Machine

open Sys2Proof

/-! ## The record (25 Tables 25.1, 25.2) -/

def Copy.u (c : Copy) (o : Nat) : Nat := field c.img o 4
def Copy.ctl (c : Copy) : Nat := c.u 0
def Copy.rop (c : Copy) : Nat := bits c.ctl 20 4
def Copy.fd (c : Copy) : Nat := bits c.ctl 16 4
def Copy.fs (c : Copy) : Nat := bits c.ctl 12 4
def Copy.sat (c : Copy) : Bool := bit c.ctl 11
def Copy.posts (c : Copy) : Bool := bit c.ctl 10
def Copy.ordered (c : Copy) : Bool := bit c.ctl 9
def Copy.comp (c : Copy) : Nat := c.u 4
def Copy.src (c : Copy) : W64 := f64 c.img 0x08
def Copy.dst (c : Copy) : W64 := f64 c.img 0x10
def Copy.wid (c : Copy) : Nat := c.u 0x18
def Copy.rows (c : Copy) : Nat := bits (c.u 0x1C) 0 24 + 1
def Copy.spit (c : Copy) : Nat := c.u 0x20
def Copy.dpit (c : Copy) : Nat := c.u 0x24
def Copy.wa (c : Copy) : W64 := f64 c.img 0x28
def Copy.wv (c : Copy) : W64 := f64 c.img 0x30

/-- Bytes of an element of `CPYR`, and bits of an element of a format code; a tagged source counts 8 bits where only the
record is known (log 60). -/
def redBytes (rop : Nat) : Nat :=
  match rop with
  | 1 => 8
  | 3 => 2
  | _ => 4
def codeBits (f : Nat) : Nat := if f = 15 then 8 else (boltFmt f).width

/-- Bytes of a row of the source and of the destination. -/
def Copy.srcBytes (c : Copy) : Nat := if c.form = 2 then (c.wid * codeBits c.fs + 7) / 8 else c.wid
def Copy.dstBytes (c : Copy) : Nat := if c.form = 2 then (c.wid * codeBits c.fd + 7) / 8 else c.wid

def Copy.srcRow (c : Copy) (r : Nat) : W64 := c.src + BitVec.ofNat 64 (r * c.spit)
def Copy.dstRow (c : Copy) (r : Nat) : W64 := c.dst + BitVec.ofNat 64 (r * c.dpit)

/-- Whether some of `n` rows satisfies a test. -/
def anyRow (p : Nat → Bool) : Nat → Bool
  | 0 => false
  | n + 1 => p n || anyRow p n

/-- Whether two ranges of addresses share a byte, addresses wrapping modulo 2^64. -/
def overlaps (a : W64) (n : Nat) (b : W64) (m : Nat) : Bool := (b - a).toNat < n || (a - b).toNat < m

/-! ## The checks at issue (25 Table 25.4) -/

def copyReserved (c : Copy) : Bool :=
  bits c.ctl 24 8 != 0 || bits c.ctl 6 3 != 0 || bits c.ctl 0 2 != 0 || bits c.comp 12 4 != 0 ||
  bits (c.u 0x1C) 24 8 != 0 || field c.img 0x38 8 != 0 || 4 ≤ c.rop || 8 ≤ c.fd || (8 ≤ c.fs && c.fs != 15)

def copyOk (c : Copy) : Bool :=
  !copyReserved c && c.wid != 0 && (c.form != 0 || c.rows == 1) &&
  (c.form == 3 || c.rop == 0) && (c.form == 2 || (c.fs == 0 && c.fd == 0 && !c.sat)) &&
  !c.wv.getLsbD 63 && c.wa.toNat % 8 == 0 &&
  !(c.wa != 0#64 && anyRow (fun r => overlaps (c.dstRow r) c.dstBytes c.wa 8) c.rows) &&
  !(c.posts && c.comp / 2 ^ 16 == 0xFFFF) &&
  (c.form != 3 || (c.src.toNat % redBytes c.rop == 0 && c.dst.toNat % redBytes c.rop == 0 &&
    c.spit % redBytes c.rop == 0 && c.dpit % redBytes c.rop == 0 && c.wid % redBytes c.rop == 0)) &&
  (c.form != 2 || (c.src.toNat % 32 == 0 && c.dst.toNat % 32 == 0 && c.spit % 32 == 0 && c.dpit % 32 == 0)) &&
  !(2 ≤ c.form && anyRow (fun r =>
    anyRow (fun q => overlaps (c.srcRow r) c.srcBytes (c.dstRow q) c.dstBytes) c.rows) c.rows)

/-! ## The instructions (25 R364, R366) -/

def carterFull (s : State) (ham : Nat) : Bool := 32 ≤ (hamOf s ham).copies.length
def queueCopy (s : State) (ham : Nat) (c : Copy) : State := updHam s ham fun h => { h with copies := h.copies ++ [c] }

/-- The effect of a copying instruction whose record has been read. -/
def Ctx.copy (c : Ctx) (s : State) (form : Nat) (va : W64) (img : Bytes) : State :=
  let tid := c.actTids.headD 0
  let (n, s1) := freshId s
  let x : Copy := ⟨n, img, va, form, c.cur.gid, tid, groupWho c.grp tid, c.cur.pc, c.grp.asn, [], [], [], false, none, none,
    false, none⟩
  if !copyOk x then c.trapAct s cILLOPND
  else
    let s2 := c.issues s1 (.copy x.gid x.id)
    if carterFull s c.ham then c.holdWarp s2 (.copy x) else queueCopy (c.done s2 id) c.ham x

/-- The four copying instructions. -/
def copyOp (s : State) (i : Instr) (f : LongForm) (form : Nat) : State :=
  runCore s i f.g false (fun c => addrOk c f && sameAddr c f) fun c =>
    let (ls, s1) := c.decideLanes s (effAddr f) (fun _ => 64) 64 .load
    c.perform s1 false 0 ls fun c s =>
      match ls.head? with
      | none => c.done s id
      | some l =>
        match l.places with
        | none => c.done s id
        | some p =>
          match c.readRecord s p with
          | (.error e, s') => c.lostRecord s' l.va e
          | (.ok img, s') => c.copy s' form l.va img

def execCpy (f : LongForm) (s : State) : Host.Outcome State Fault Refusal := .next (copyOp s (.cpy f) f 0)
def execCpy2 (f : LongForm) (s : State) : Host.Outcome State Fault Refusal := .next (copyOp s (.cpy2 f) f 1)
def execCpyt (f : LongForm) (s : State) : Host.Outcome State Fault Refusal := .next (copyOp s (.cpyt f) f 2)
def execCpyr (f : LongForm) (s : State) : Host.Outcome State Fault Refusal := .next (copyOp s (.cpyr f) f 3)

/-- The status word of the carter for a group. -/
def carterWord (h : Hamlet) (gid : Gid) : Nat :=
  h.copies.length + (h.copies.filter fun c => c.gid = gid).length * 2 ^ 16

def execCpyq (f : LongForm) (s : State) : Host.Outcome State Fault Refusal :=
  .next (runCore s (.cpyq f) f.g true (fun c => dstOk c false f.dst) fun c =>
    c.result s f.dst f.w (res32 (fun _ => BitVec.ofNat 32 (carterWord (hamOf s c.ham) c.cur.gid)) (tagOf c true)))

def execCopyEnqueue (tag grp warp : Nat) (s : State) : Host.Outcome State Fault Refusal :=
  .next (match heldOf s ⟨tag, grp⟩ warp with
    | some (g, h) =>
      (match h.what with
      | .copy c =>
        let tids := stillHeld g h
        if tids.isEmpty then setHeld s g.gid warp none
        else if carterFull s (coreOf g / 8) then s
        else queueCopy (endHeld s g.gid warp h tids) (coreOf g / 8) c
      | _ => s)
    | none => s)

/-! ## Units (25 R367) -/

/-- A unit: its row, and the bytes of the row from `lo` up to `hi`. -/
structure CUnit where
  row : Nat
  lo  : Nat
  hi  : Nat
  deriving DecidableEq, Repr

def Copy.unitsOf (c : Copy) (r : Nat) : Nat := ((c.dstRow r).toNat % 128 + c.dstBytes + 127) / 128

/-- Unit `k` of row `r`. -/
def Copy.unitIn (c : Copy) (r k : Nat) : CUnit :=
  let o := (c.dstRow r).toNat % 128
  ⟨r, 128 * k - o, min c.dstBytes (128 * (k + 1) - o)⟩

/-- Unit `u` in copy order, looked for in the `n` rows from row `r` on. -/
def Copy.unitFrom (c : Copy) : Nat → Nat → Nat → Option CUnit
  | 0, _, _ => none
  | n + 1, r, u => if u < c.unitsOf r then some (c.unitIn r u) else c.unitFrom n (r + 1) (u - c.unitsOf r)

def Copy.unit (c : Copy) (u : Nat) : Option CUnit := c.unitFrom c.rows 0 u

/-- The first unit in copy order that has not been performed. -/
def Copy.nextUnit (c : Copy) : Nat := ((List.range (c.units.length + 1)).find? fun u => !c.units.contains u).getD 0

/-- Destination bytes in the units before unit `u`. -/
def Copy.bytesBefore (c : Copy) (u : Nat) : Nat :=
  match c.unit u with
  | some x => x.row * c.dstBytes + x.lo
  | none => c.rows * c.dstBytes

/-- Whether every unit has been performed, or every one before the first that failed. -/
def Copy.moved (c : Copy) : Bool :=
  match c.fail with
  | some (_, u) => u ≤ c.nextUnit
  | none => (c.unit c.nextUnit).isNone

/-! ## Accesses of a unit (25 R369) -/

inductive CStop where
  | hold (cause : Nat) (addr : W64) (store : Bool)
  | fail (cause : Nat)
  | waits
  deriving DecidableEq, Repr

def carterAccess (s : State) (ham asn : Nat) (va : W64) (n : Nat) (a : Acc) : Except CStop (List Nat) × State :=
  match decideAccess s (1024 + ham / 16) ham asn va n 1 a with
  | (.cls3 cause addr, s') => (.error (.hold cause addr (a = .store)), s')
  | (.cls4 cause _, s') => (.error (.fail cause), s')
  | (.waits, s') => (.error .waits, s')
  | (.ok p, s') => if unreached s'.fab p then (.error (.fail 0x35), s') else (.ok p.locs, nextLook s')

/-- A unit's read and its write decided together: a class 4 condition first (12 R222). -/
def unitPlaces (s : State) (ham : Nat) (c : Copy) (sva dva : W64) (n m : Nat) :
    Except CStop (List Nat × List Nat) × State :=
  let (r, s1) := carterAccess s ham c.asn sva n .load
  let (w, s2) := carterAccess s1 ham c.asn dva m .store
  match r, w with
  | .ok a, .ok b => (.ok (a, b), s2)
  | .error (.fail e), _ => (.error (.fail e), s2)
  | _, .error (.fail e) => (.error (.fail e), s2)
  | .error e, _ => (.error e, s2)
  | _, .error e => (.error e, s2)

def Copy.writer (c : Copy) : Writer := { gangWriter c.gid.tag c.who with src := some (2, .copy c.gid c.id) }

/-- A copy as a reader. -/
def Copy.me (c : Copy) (ham : Nat) : Who := engineWho (.copy c.gid c.id) (ham / 16)

/-- What performing a unit gives: the state, and the copy's fields that change. -/
abbrev UnitRes := Except CStop Copy × State

/-- Granules that become poisoned. -/
def addPoison (mm : MemSys) (gs : List Nat) : MemSys := { mm with poison := distinct (mm.poison ++ gs) }

/-- Whether a source byte is poisoned as it stood before this copy wrote. -/
def Copy.srcPoisoned (c : Copy) (s : State) (loc : Nat) : Bool :=
  if c.orig.any fun x => x.1 / 32 = loc / 32 then c.opsn.contains (loc / 32) else poisoned s loc

/-- A unit of `CPY` or `CPY2`. -/
def byteUnit (s : State) (ham : Nat) (c : Copy) (u : CUnit) : UnitRes :=
  let n := u.hi - u.lo
  match unitPlaces s ham c (c.srcRow u.row + BitVec.ofNat 64 u.lo) (c.dstRow u.row + BitVec.ofNat 64 u.lo) n n with
  | (.error e, s') => (.error e, s')
  | (.ok (src, dst), s') =>
    let b := src.map fun l => (tfind c.orig l).getD (seenByte s' (c.me ham) 2 (unitOf byPart src l) l)
    let bad := distinct (((src.zip dst).filter fun (x, _) => c.srcPoisoned s' x).map fun (_, y) => y / 32)
    let fresh := dst.filter fun l => (tfind c.orig l).isNone
    let c' := { c with
      orig := fresh.foldl (fun t l => tput t l (homeByte s'.mm l)) c.orig
      opsn := distinct (c.opsn ++ ((dst.map (· / 32)).filter fun g =>
        !(c.orig.any fun x => x.1 / 32 = g) && poisoned s' (32 * g)))
      psn := c.psn || !bad.isEmpty }
    let s2 := applyWrite s' c.writer (dst.zip b)
    (.ok c', { s2 with mm := addPoison s2.mm bad })

/-- One destination element of `CPYR` combined with its source element. -/
def redWord (rop x y : Nat) : Nat :=
  match rop with
  | 0 => (x + y) % 2 ^ 32
  | 1 => (x + y) % 2 ^ 64
  | 2 => encF fmtF32 ((decodeF fmtF32 x).add (decodeF fmtF32 y))
  | _ => encF fmtBF16 ((decodeF fmtBF16 x).add (decodeF fmtBF16 y))

/-- A unit of `CPYR`. -/
def redUnit (s : State) (ham : Nat) (c : Copy) (u : CUnit) : UnitRes :=
  let n := u.hi - u.lo
  match unitPlaces s ham c (c.srcRow u.row + BitVec.ofNat 64 u.lo) (c.dstRow u.row + BitVec.ofNat 64 u.lo) n n with
  | (.error e, s') => (.error e, s')
  | (.ok (src, dst), s') =>
    let fp := 2 ≤ c.rop
    if fp && (src.any (poisoned s') || dst.any (poisoned s')) then (.error (.fail 0x37), s') else
    let w := redBytes c.rop
    let one (s : State) (i : Nat) : State :=
      let at_ (l : List Nat) : List Nat := (l.drop (w * i)).take w
      let x := leNat ((at_ dst).map (homeByte s.mm))
      let y := seenNat s (c.me ham) 2 (at_ src)
      applyWrite s c.writer ((at_ dst).zip (natLe w (redWord c.rop x y)))
    let bad := distinct (((src.zip dst).filter fun (x, _) => poisoned s' x).map fun (_, y) => y / 32)
    let s2 := (List.range (n / w)).foldl one s'
    (.ok { c with psn := c.psn || !bad.isEmpty }, { s2 with mm := addPoison s2.mm bad })

/-- The window whose tag gives the format of a row of `CPYT`: that of the row's first byte, or, where its page does not
translate, one that agrees with the place of element `j`. -/
def rowWindow (s : State) (ham : Nat) (c : Copy) (row j : Nat) : Option (Nat × Window) :=
  let locAt (b : Nat) : Option Nat :=
    (physOf s (1024 + ham / 16) ham c.asn (c.srcRow row + BitVec.ofNat 64 b)).bind (locOf s.fab)
  match locAt 0 with
  | some loc => (windowAt s.mm loc).map fun n => (n, tget Window.reset s.mm.windows n)
  | none => s.mm.windows.find? fun (n, w) => (locAt (j * (fmtTagged w.efmt).bits / 8)).any fun l => windowAt s.mm l == some n

/-- The source format of a row of `CPYT`, as element `j` meets it: named, or that of its window (R365); none for an
untagged source (R369). -/
def rowFormat (s : State) (ham : Nat) (c : Copy) (row j : Nat) : Option Operand :=
  if c.fs ≠ 15 then some ⟨0, c.srcRow row, 0, ⟨(boltFmt c.fs).width, 0, false, false, boltFmt c.fs⟩, none⟩
  else
    match rowWindow s ham c row j with
    | none => none
    | some (n, w) => if (fmtTagged w.efmt).int then none else some ⟨0, c.srcRow row, 0, fmtTagged w.efmt, some (n, w)⟩

/-- A scale met by a copy, for the element at address `va`. -/
def copyScale (s : State) (me : Who) (o : Operand) (va : W64) (loc b : Nat) : Except CStop FVal :=
  match o.win with
  | none => .ok one
  | some (_, w) =>
    if w.geo = 0 then .ok one else
    match scaleAt s me 2 o w va (scaleAtPlace w o.ef.bits loc b) with
    | .ok v => .ok v
    | .error .waits => .error .waits
    | .error (.hold cause addr _ _) => .error (.hold cause addr false)
    | .error (.fail _ _ _ _ _) => .error (.fail 0x37)

/-- The elements of a unit of `CPYT`: those that end in it, from the one on to the one before. DESIGN CHOICE (log 113): an
element that crosses a line is written whole with the later of its two units, since each is single-copy atomic (10 R195). -/
def tensorSpan (c : Copy) (u : CUnit) : Nat × Nat :=
  (8 * u.lo / codeBits c.fd, min c.wid (8 * u.hi / codeBits c.fd))

/-- A unit of `CPYT`: one write, with enables where the format is narrower than a byte. -/
def tensorUnit (s : State) (ham : Nat) (c : Copy) (u : CUnit) : UnitRes :=
  let wd := codeBits c.fd
  let (j0, j1) := tensorSpan c u
  let d0 := j0 * wd / 8
  let places (s : State) (b0 n : Nat) := unitPlaces s ham c (c.srcRow u.row + BitVec.ofNat 64 b0)
    (c.dstRow u.row + BitVec.ofNat 64 d0) n ((j1 * wd + 7) / 8 - d0)
  match rowFormat s ham c u.row j0 with
  | none =>
    (match places s (j0 / 2) 1 with
    | (.error e, s') => (.error e, s')
    | (.ok _, s') => (.error (.fail 0x90), s'))
  | some o =>
    let ws := o.ef.bits
    let b0 := j0 * ws / 8
    match places s b0 ((j1 * ws + 7) / 8 - b0) with
    | (.error e, s') => (.error e, s')
    | (.ok (src, dst), s2) =>
      if o.win.isSome && src.any (fun l => windowAt s2.mm l ≠ o.win.map (·.1)) then (.error (.fail 0x90), s2)
      else if src.any (poisoned s2) then (.error (.fail 0x37), s2)
      else
        let elem (j : Nat) : Except CStop (Nat × Nat) :=
          (copyScale s2 (c.me ham) o (c.srcRow u.row + BitVec.ofNat 64 (j * ws / 8)) (src.getD (j * ws / 8 - b0) 0) (j * ws % 8)).map fun sc =>
            (j, (cvt (boltFmt c.fd) .rn c.sat ((decodeF o.ef.fmt (seenBits s2 (c.me ham) 2 src (j * ws - 8 * b0) ws)).mul sc)).1)
        match ((List.range (j1 - j0)).map (j0 + ·)).mapM elem with
        | .error e => (.error e, s2)
        | .ok vs =>
          if wd % 8 = 0 then
            (.ok c, applyWrite s2 c.writer (dst.zip ((vs.map fun (_, v) => natLe (wd / 8) v).flatten)))
          else (.ok c, putBits s2 c.writer ((vs.map fun (j, v) => rowBits dst wd (wd * j - 8 * d0) v).flatten))

def runUnit (s : State) (ham : Nat) (c : Copy) (u : CUnit) : UnitRes :=
  if c.form ≤ 1 then byteUnit s ham c u else if c.form = 2 then tensorUnit s ham c u else redUnit s ham c u

def copyOf (s : State) (ham id : Nat) : Option Copy := (hamOf s ham).copies.find? fun c => c.id = id
def updCopy (s : State) (ham id : Nat) (f : Copy → Copy) : State :=
  updHam s ham fun h => { h with copies := modAll (fun c => c.id = id) f h.copies }

/-- Whether a copy may start: with `cord`, its group's earlier copies have completed. -/
def mayStart (h : Hamlet) (c : Copy) : Bool :=
  !c.ordered || ((h.copies.takeWhile fun x => x.id ≠ c.id).all fun x => x.gid ≠ c.gid)

/-- The record of a class 3 condition of a copy. -/
def copyRecord (s : State) (ham : Nat) (c : Copy) (cause : Nat) (addr : W64) (store : Bool) : RecRef × State :=
  class3 s (ham / 16) c.asn (if store then 1 else 0) false none
    { cls := 3, cause := cause, prec := true, fwd := false, rpl := true, lanes := laneMask [c.tid], who := c.who,
      tag := c.gid.tag, pc := c.pc, addr := addr, info := 0#64, hlp := (groupOf s c.gid).bind (hlpOf s) }

/-- Fails a copy at a unit: the first failing unit in copy order counts. -/
def failCopy (cause u : Nat) (c : Copy) : Copy :=
  { c with fail := match c.fail with
    | some (k, v) => if v ≤ u then some (k, v) else some (cause, u)
    | none => some (cause, u) }

def doUnit (s : State) (ham : Nat) (c : Copy) (u : Nat) (x : CUnit) : State :=
  match runUnit s ham c x with
  | (.ok c', s') => updCopy s' ham c.id fun _ => { c' with units := u :: c'.units }
  | (.error .waits, _) => s
  | (.error (.fail cause), s') => updCopy s' ham c.id (failCopy cause u)
  | (.error (.hold cause addr store), s') =>
    let (ref, s1) := copyRecord s' ham c cause addr store
    updCopy s1 ham c.id fun c => { c with hold := some (ref, some u) }

def execCopyUnit (ham copy unit : Nat) (s : State) : Host.Outcome State Fault Refusal :=
  .next (match copyOf s ham copy with
    | some c =>
      if c.hold.isSome || c.post.isSome || c.units.contains unit || !mayStart (hamOf s ham) c ||
        c.fail.any (fun f => f.2 ≤ unit) then s
      else
        match c.unit unit with
        | some x => doUnit s ham c unit x
        | none => s
    | none => s)

/-! ## Completion (25 R368) -/

/-- The completion word (25 Table 25.5). -/
def Copy.word (c : Copy) : W64 :=
  match c.fail with
  | none => c.wv
  | some (cause, u) =>
    BitVec.ofNat 64 (2 ^ 63 + c.psn.toNat * 2 ^ 62 + cause * 2 ^ 48 + c.bytesBefore u % 2 ^ 48)

/-- The event's payload (25 Table 25.6); a word that was dropped reports cause 0x30. -/
def Copy.payload (c : Copy) (now : Nat) : Bytes :=
  let cause := if c.lost then 0x30 else (c.fail.map (·.1)).getD 0
  let fail := c.lost || c.fail.isSome
  natLe 4 c.gid.tag ++ natLe 4 (fail.toNat + c.psn.toNat * 2 + cause * 2 ^ 8 + 0x43 * 2 ^ 24) ++ le64 c.recVa ++ le32 c.who ++
  zeros 4 ++ natLe 8 (match c.fail with
    | some (_, u) => c.bytesBefore u
    | none => c.rows * c.dstBytes) ++ natLe 8 now

def endCopy (s : State) (ham id : Nat) : State :=
  updHam s ham fun h => { h with copies := h.copies.filter fun c => c.id ≠ id }

/-- The event, after which the copy leaves its group's count. -/
def copyEvent (s : State) (ham : Nat) (c : Copy) : State :=
  if !c.posts then endCopy s ham c.id else
  let n := c.comp % 2 ^ 12
  let p : Post := ⟨c.comp / 2 ^ 16, 2, nowNs s, c.payload (nowNs s), c.gid.tag, false, 0⟩
  let s1 := postEvent s n p fun r => r.priorOf [.copy c.gid c.id]
  match (streamOf s1 n).posts.find? fun q => { q with id := 0 } = p with
  | some q => updCopy s1 ham c.id fun c => { c with post := some (n, q) }
  | none => endCopy s1 ham c.id

/-- A completion word that a fault drops: a notice, and the event reports it. -/
def dropWord (s : State) (ham : Nat) (c : Copy) : State :=
  let s1 := postRecord s (ham / 16) (noticeBytes 5 c.wa 0 (nowNs s))
  let c' := { c with lost := true, hold := none }
  copyEvent (updCopy s1 ham c.id fun _ => c') ham c'

/-- The write of the completion word: every acquire that reads it has the copy's accesses behind it, on its path (11 Tables
11.2, 11.3). -/
def writeWord (s : State) (c : Copy) (locs : List Nat) : State :=
  let s1 := applyWrite s c.writer (locs.zip (le64 c.word))
  let rel : Rel := ⟨7, ⟨0, 0, none, 0⟩, true⟩
  let mm := learnTo s1.mm (·.priorOf [.copy c.gid c.id]) (.word locs rel) fun p => if p = 2 then carryAll p else []
  acquireAnswered s { s1 with mm := mm }

/-- The completion word, then the event. -/
def completeCopy (s : State) (ham : Nat) (c : Copy) : State :=
  if c.wa = 0#64 then copyEvent s ham c else
  match carterAccess s ham c.asn c.wa 8 .store with
  | (.error .waits, _) => s
  | (.error (.hold cause addr _), s') =>
    let (ref, s1) := copyRecord s' ham c cause addr true
    updCopy s1 ham c.id fun c => { c with hold := some (ref, none) }
  | (.error (.fail _), s') => dropWord s' ham c
  | (.ok locs, s') => copyEvent (writeWord s' c locs) ham c

def execCopyCompletion (ham copy : Nat) (s : State) : Host.Outcome State Fault Refusal :=
  .next (match copyOf s ham copy with
    | some c =>
      (match c.post with
      | some (n, p) => if (streamOf s n).posts.contains p then s else endCopy s ham copy
      | none =>
        if c.hold.isSome || !mayStart (hamOf s ham) c || !c.moved then s else completeCopy s ham c)
    | none => s)

end Sys2Proof.Machine
end

