-- ==== Sys2Proof/Machine/NetOps.lean ====
section
/-! DEFINITION. The droveway and the fabric (ch. 26), host reads and ownership requests (11 R217), errors at eviction
(10 R204), format windows (10 R191 to R194), invalidation of translations (10 R200), host writes to memory (01 R17). -/

namespace Sys2Proof.Machine

open Sys2Proof

/-! ## `NETQ` and the nodes (26 R372, R373) -/

def nodeOf (s : State) (core : Nat) : Node := tget Node.reset s.nodes core

/-- The status word of a core's node (26 Table 26.1). -/
def netWord (s : State) (c : Ctx) : W32 :=
  let n := nodeOf s c.core
  BitVec.ofNat 32 (min 8 (buffersHeld s c.cur.gid) + codeAt (dieOf s c.die).pinj (c.core % 128) * 2 ^ 8 +
    min 255 n.rate * 2 ^ 16 + n.thr.toNat * 2 ^ 31)

def execNetq (f : LongForm) (s : State) : Host.Outcome State Fault Refusal :=
  .next (runCore s (.netq f) f.g true (fun c => dstOk c false f.dst) fun c =>
    c.result s f.dst f.w (res32 (fun _ => netWord s c) (tagOf c true)))

/-- A node's count of deflections: it is throttled from 64 on until the count falls to 32 (R372). -/
def countDeflections (count : Nat) (n : Node) : Node :=
  ⟨count, if 64 ≤ count then true else if count ≤ 32 then false else n.thr⟩

def execNodeThrottle (core count : Nat) (s : State) : Host.Outcome State Fault Refusal :=
  .next { s with nodes := tmod Node.reset s.nodes core (countDeflections count) }

/-! ## `STREL` (26 R382, R383) -/

/-- Scope code 0 of `STREL` is `dom`. -/
def strelScope (f : LongForm) : Nat := if f.scope = 0 then 6 else f.scope

/-- A counted release leaves for its switch home, and the count of its target restarts. -/
def sendStrel (s : State) (g : Gid) (scope : Nat) (l : Lane) (loc : Nat) (b : Bytes) : State :=
  let dev := targetDev s.fab loc
  let n := ((groupOf s g).map fun x => tget 0 x.strel dev).getD 0
  let (id, s1) := freshId s
  let h : HeldStrel := ⟨id, g, l.tid, l.va, dev, loc, b, n, scope⟩
  updGroup { s1 with fab := { s1.fab with strels := s1.fab.strels ++ [h] } } g fun x => { x with strel := tset 0 x.strel dev 0 }

/-- Whether the accesses that a held release counts have arrived (11 R216). -/
def strelDue (s : State) (h : HeldStrel) : Bool := h.count ≤ arrivedOf s.fab h.gid h.dev

/-- A release leaves the switches: the arrivals that it counted are used up. -/
def leaveHold (s : State) (h : HeldStrel) : State :=
  let fab := setArrived s.fab h.gid h.dev (arrivedOf s.fab h.gid h.dev - h.count)
  { s with fab := { fab with strels := fab.strels.filter fun x => x.id ≠ h.id } }

/-- One lane: a release store, counted in the peer aperture. Where the accesses that it counts have arrived it is applied
at once, through the core's L1 as a store (11 R210, R216), and its acknowledgement is owed. -/
def Ctx.strelLane (c : Ctx) (f : LongForm) (acc : List ReqLane × State) (l : Lane) : List ReqLane × State :=
  match l.places with
  | none => acc
  | some p =>
    let b := natLe l.n (c.dataOf (dataBits f) l.tid)
    if !p.peer then (acc.1, (c.storeAt acc.2 (strelScope f) l.tid p b).2) else
    let s1 := sendStrel acc.2 c.cur.gid (strelScope f) l (p.locs.headD 0) b
    match s1.fab.strels.getLast? with
    | none => (acc.1, s1)
    | some h =>
      if !strelDue s1 h then (acc.1, s1) else
      let (e, s2) := c.storeAt (leaveHold s1 h) (strelScope f) l.tid { p with peer := false } b
      (acc.1 ++ [⟨l.tid, 0#64, l.va, e⟩], s2)

def execStrel (f : LongForm) (s : State) : Host.Outcome State Fault Refusal :=
  .next (runCore s (.strel f) f.g false (fun c => addrOk c f && srcOk c f.lit (wideTy f) f.sc) fun c =>
    let (ls, s1) := c.decideLanes s (effAddr f) (fun _ => tyBytes f.ty) (tyBytes f.ty) .store
    c.perform s1 false 1 ls fun c s =>
      let (rs, s2) := (ls.filter fun l => c.actTids.contains l.tid).foldl (c.strelLane f) ([], s)
      c.done (makeReqs s2 c.cur.gid ⟨0, false, false, true, none⟩ rs) id)

/-- A release that arrives over the fabric carries from `FAB` to the path that acquires it (11 Table 11.3). -/
def carryFab (p : Nat) : List Nat := if p = 4 then carryAll p else []

/-- A held release is applied at its home; what the fabric cannot deliver comes back as an error (26 R381). -/
def applyStrel (s : State) (h : HeldStrel) : State :=
  let s1 := leaveHold s h
  match groupOf s1 h.gid with
  | none => s1
  | some g =>
    if fabricFails s1.fab h.loc || s1.fab.down.contains h.dev then pushErrs s1 h.gid 0#64 [(h.tid, 0x35, h.va)] else
    let ws := writesAt h.loc h.bytes
    writeAs s1 { groupWriter g h.tid with core := none } ws (threadWho g h.tid) h.scope carryFab

def execStrelApply (id : Nat) (s : State) : Host.Outcome State Fault Refusal :=
  .next (match s.fab.strels.find? (fun h => h.id = id) with
    | some h => if strelDue s h then applyStrel s h else s
    | none => s)

/-! ## Accesses from the fabric (26 R379, R380, 10 R194) -/

/-- Whether an access at the home slices has to wait: its channel has not reported ready, or a window over it is being
disabled (01 R19, 10 R194). -/
def homeWaits (s : State) (locs : List Nat) : Bool := locs.any fun l => channelWaits s.host l || windowBusy s.mm l

/-- The location of an access from the fabric: in this device's memory, or at the switch home of a member's memory. -/
def fabLoc (fab : Fabric) (peer : Option Nat) (off : Nat) : Nat :=
  match peer with
  | none => off
  | some m => if m = fab.did && fab.fon then off else 2 ^ 52 * (1 + m) + off

/-- The bytes of a masked write as the home slice merges them (10 R196); a poisoned granule discards one that does not
enable all of it (R203). -/
def maskedWrites (s : State) (loc : Nat) (b m : Bytes) : List (Nat × Byte) :=
  let part (g : Nat) : Bool :=
    (List.range 32).any fun i => !(loc ≤ 32 * g + i && m.getD (32 * g + i - loc) 0#8 == 0xFF#8)
  ((writesAt loc b).zip m).filterMap fun ((l, x), e) =>
    if e = 0#8 || (part (l / 32) && poisoned s l) then none else some (l, mergeByte e (homeByte s.mm l) x)

/-- The write that an access from the fabric makes; a load or a recall makes none. -/
def fabWrites (s : State) (loc : Nat) : FabOp → List (Nat × Byte)
  | .store b | .release b => writesAt loc b
  | .masked b m => maskedWrites s loc b m
  | .add32 v => writesAt loc (le32 (BitVec.ofNat 32 (homeNat s.mm loc 4) + v))
  | .load _ | .recall => []

/-- The bytes of memory that an access from the fabric covers. -/
def fabSize : FabOp → Nat
  | .store b | .release b => b.length
  | .masked b _ => b.length
  | .add32 _ => 4
  | .load n => n
  | .recall => 128

/-- Whether two writes have a byte in common. -/
def overlapBytes (a : Nat) (n : Nat) (b : Nat) (m : Nat) : Bool := n != 0 && m != 0 && a < b + m && b < a + n

/-- An access from the fabric. One to an offset at or beyond 1.5 TiB gets an error reply (R381) and writes nothing; one that
its home holds, or that an earlier one to its bytes which is held goes before, waits there (01 R19, 10 R194). -/
def fabAccess (s : State) (x : Option Nat × Nat × FabOp) : State :=
  let (peer, off, op) := x
  let ws := fabWrites s (fabLoc s.fab peer off) op
  if ws.isEmpty || Config.localBytes < off + fabSize op then s
  else if homeWaits s (ws.map (·.1)) ||
    s.fab.waits.any fun y => y.1 = peer && overlapBytes off (fabSize op) y.2.1 (fabSize y.2.2) then
    { s with fab := { s.fab with waits := s.fab.waits ++ [x] } }
  else
    let rmw := match op with
      | .add32 _ => true
      | _ => false
    let scope := match op with
      | .release _ => 7
      | _ => 0
    writeAs s { deviceWriter with src := some (4, .fabric), rmw := rmw } ws fabricWho scope carryFab

def execFabAccess (peer : Option Nat) (off : Nat) (op : FabOp) (s : State) : Host.Outcome State Fault Refusal :=
  .next (fabAccess s (peer, off, op))

/-- The accesses from the fabric that are held are made again, in their order. -/
def flushFab (s : State) : State := s.fab.waits.foldl fabAccess { s with fab := { s.fab with waits := [] } }

/-! ## The host boundary (11 R217) and evictions (10 R204) -/

/-- The host reads a marked word; it waits at the home as every access of the host does (10 R194). -/
def execHostMarkedRead (addr : Nat) (s : State) : Host.Outcome State Fault Refusal :=
  .next (if homeWaits s [addr] then s else
    { s with mm := acquire (takeMark s.mm addr) hostWho 7 ((List.range 4).map (addr / 4 * 4 + ·)) })

/-- The host takes a line: the device's dirty bytes are written back first, and monitors on the line compare again
(12 R237). -/
def execHostOwnershipRequest (line : Nat) (s : State) : Host.Outcome State Fault Refusal :=
  .next (let s1 := { s with mm := writeBackLine s.mm line }
    wakeAll s1 (writesAt (128 * line) (homeBytes s1.mm (128 * line) 128)))

/-- Poisons granules; copies in L1 and instruction caches keep the bytes that they hold (10 R203). -/
def poisonGranule (mm : MemSys) (g : Nat) : MemSys :=
  let ws := writesAt (32 * g) (homeBytes mm (32 * g) 32)
  { mm with
    l1 := snapL1 mm deviceWriter ws ws
    icache := snapI mm ws
    poison := if mm.poison.contains g then mm.poison else g :: mm.poison }

/-- The record of an error at eviction, charged to the last writer of the line. -/
def evictionRecord (tag : Nat) (who : W32) (granule : Nat) : FRec :=
  { cls := 4, cause := 0x3A, prec := false, fwd := false, rpl := false, lanes := 0#32, who := who, tag := tag, pc := 0#64,
    addr := BitVec.ofNat 64 (32 * granule), info := 0#64, hlp := none }

def execEvictionError (granule : Nat) (s : State) : Host.Outcome State Fault Refusal :=
  .next (match tfind s.mm.writers (granule / 4) with
    | none => s
    | some none => { s with mm := poisonGranule (writeBackLine s.mm (granule / 4)) granule }
    | some (some (tag, who)) =>
      let s1 := { s with mm := poisonGranule (writeBackLine s.mm (granule / 4)) granule }
      postRecord s1 (bits who.toNat 0 10 / 128) ((evictionRecord tag who granule).bytes (nowNs s1)))

/-! ## Host writes to device memory (01 R17, R19) -/

/-- The host as a writer; each write of it is a release at `sys` of those before it. PRESUMED (log 20): the manual does not
give the order of the host's own accesses. -/
def hostWriter : Writer := { deviceWriter with src := some (hostPath, .host) }
def hostRelease (before s : State) (locs : List Nat) : State :=
  acquireAnswered before { s with mm := release s.mm hostWho 7 locs noCarry }

/-- The host writes its own memory, which is no home of this device: it takes the ownership of the lines first, so that
the device's deferred bytes go before it (11 R217); copies in L1 stay as they are (10 R189). -/
def hostOwnWrite (s : State) (ws0 : List (Nat × Byte)) : State :=
  let mm := (distinct (ws0.map fun (l, _) => l / 128)).foldl writeBackLine s.mm
  let (ws, poison) := throughPoison { s with mm := mm } deviceWriter ws0
  let s1 := wakeAll { s with mm := { mm with
    l1 := snapL1 mm deviceWriter ws0 ws
    icache := snapI mm ws
    poison := poison
    past := notePast mm hostWriter ws
    mem := ws.foldl (fun m (l, b) => tset 0#8 m l b) mm.mem } } ws
  hostRelease s s1 (ws.map (·.1))

/-- A host write to its own memory, or to this device's: discarded above 1.5 TiB, kept while its home holds it or an earlier write to its bytes is kept. -/
def hostWrite (s : State) (addr : Nat) (b : Bytes) : State :=
  if hostBase ≤ addr then hostOwnWrite s ((writesAt addr b).filter fun (l, _) => isHostLoc l) else
  let b := b.take (Config.localBytes - addr)
  let locs := (List.range b.length).map (addr + ·)
  if homeWaits s locs || s.host.heldWr.any (fun h => overlapBytes addr b.length h.1 h.2.length) then
    { s with host := { s.host with heldWr := s.host.heldWr ++ [(addr, b)] } }
  else hostRelease s (applyWrite s hostWriter (writesAt addr b)) locs

/-- The host writes that are kept are made again, in their order. -/
def flushHeld (s : State) : State :=
  s.host.heldWr.foldl (fun s h => hostWrite s h.1 h.2) { s with host := { s.host with heldWr := [] } }

def execHostMemoryWrite (addr : Nat) (bytes : Bytes) (s : State) : Host.Outcome State Fault Refusal :=
  .next (hostWrite s addr bytes)

/-! ## Format windows (10 R191 to R194, 05 R79, R80) -/

def winOf (s : State) (w : Nat) : Window := tget Window.reset s.mm.windows w
def setWin (s : State) (w : Nat) (x : Window) : State := { s with mm := { s.mm with windows := tset Window.reset s.mm.windows w x } }

/-- Bits of an element of a window's format; 0 for a reserved code. -/
def winBits (efmt : Nat) : Nat :=
  match efmt with
  | 0 | 1 | 5 => 8
  | 2 | 3 => 6
  | 4 | 6 => 4
  | _ => 0

/-- Bytes of a window's scale region (R192). -/
def scaleBytes (x : Window) : Nat :=
  let rows := x.size.toNat / x.pitch
  let strips := (x.pitch * 8 / winBits x.efmt + 127) / 128
  let n := match x.geo with
    | 0 => 0
    | 1 => rows * strips
    | _ => (rows + 127) / 128 * strips
  n * (if x.sfmt = 1 then 4 else 1)

def inLocal (base n : Nat) : Bool := base + n ≤ Config.localBytes

/-- The conditions of R192 that concern the window alone. A base of FP32 scales that is no multiple of 4 (Table 10.4) is
none of them: the scales are then read from there (log 102). -/
def winMalformed (x : Window) (ctl : Nat) : Bool :=
  bits ctl 12 18 != 0 || bits ctl 2 2 != 0 || x.rsv || 2 ≤ x.sfmt || x.geo == 3 || 7 ≤ x.efmt ||
    x.pitch == 0 || x.pitch % 32 != 0 || (x.geo != 0 && x.pitch % (16 * winBits x.efmt) != 0) ||
    x.base.toNat % 128 != 0 || x.size == 0#64 || x.size.toNat % x.pitch != 0 || !inLocal x.base.toNat x.size.toNat ||
    (x.geo != 0 && (!inLocal x.scale.toNat (scaleBytes x) ||
      overlapBytes x.scale.toNat (scaleBytes x) x.base.toNat x.size.toNat))

/-- Whether a window's range or scales meet the range of one that is on. -/
def winMeets (x y : Window) : Bool :=
  overlapBytes x.base.toNat x.size.toNat y.base.toNat y.size.toNat ||
    overlapBytes x.scale.toNat (scaleBytes x) y.base.toNat y.size.toNat

/-- Whether an enable is refused: malformed, a window that is on in its way, or a lower-numbered one being enabled over
its range. -/
def winRefused (s : State) (w : Nat) (x : Window) (ctl : Nat) : Bool :=
  winMalformed x ctl || s.mm.windows.any fun (v, y) => v != w &&
    ((y.on && winMeets x y) ||
     (y.busy && y.en && v < w && overlapBytes x.base.toNat x.size.toNat y.base.toNat y.size.toNat))

/-- A higher-numbered window that is being enabled over the same range is refused. -/
def refuseOthers (s : State) (w : Nat) (x : Window) : State :=
  { s with mm := { s.mm with windows := s.mm.windows.map fun (v, y) =>
      (v, if w < v && y.busy && y.en && overlapBytes x.base.toNat x.size.toNat y.base.toNat y.size.toNat
        then { y with busy := false, en := false, cfgerr := true } else y) } }

/-- The fields of a write of `WCTL`: `cfgerr` is cleared by a 1, the format fields are kept while the window is in use. -/
def winFields (v : Nat) (x : Window) : Window :=
  let y := { x with cfgerr := x.cfgerr && !bit v 30 }
  if x.on || x.busy then y else { y with sfmt := bits v 10 2, geo := bits v 8 2, efmt := bits v 4 4 }

/-- A write of `en` = 1: it starts an enable or is refused (R192). -/
def enableWrite (s : State) (w v : Nat) : State :=
  let x := winFields v (winOf s w)
  if x.on || x.busy then setWin s w x
  else if winRefused s w x v then setWin s w { x with cfgerr := true, en := false }
  else refuseOthers (setWin s w { x with busy := true, en := true }) w x

/-- A write of `en` = 0: it starts a disable of a window that is on (R194). -/
def disableWrite (s : State) (w v : Nat) : State :=
  let x := winFields v (winOf s w)
  setWin s w (if x.on then { x with on := false, busy := true, en := false } else x)

def execWindowEnable (w : Nat) (v : W32) (s : State) : Host.Outcome State Fault Refusal :=
  .next (if w < 16 && bit v.toNat 1 then enableWrite s w v.toNat else s)

def execWindowDisable (w : Nat) (v : W32) (s : State) : Host.Outcome State Fault Refusal :=
  .next (if w < 16 && !bit v.toNat 1 then disableWrite s w v.toNat else s)

/-- Lines of a window's range are written back: none of them is dirty any more. -/
def cleanRange (mm : MemSys) (x : Window) : MemSys :=
  { mm with writers := mm.writers.filter fun (l, _) => !overlapBytes (128 * l) 128 x.base.toNat x.size.toNat }

/-! ## Invalidation of translations (10 R200) -/

/-- Whether a cached translation maps a page of the range. -/
def xliHits (addr : W64) (v : Nat) (e : TlbEntry) : Bool :=
  let first := addr.toNat % 2 ^ 57 / 65536
  let n := bits v 0 16
  (bit v 30 || e.asn == bits v 16 12) && (n == 0 || (e.vpage + 2 ^ 41 - first) % 2 ^ 41 < n)

/-- The accesses that are under way at translated places: those that a reply or an acknowledgement is owed for, held
`STREL`s, waiting `WAITC`s and `FLD`s, and the stores of a bolter pass (log 103). -/
def underWay (s : State) : List Nat :=
  s.reqs.map (·.id) ++ s.fab.strels.map (·.id) ++
  (s.groups.map fun g => g.threads.filterMap fun t => match t.wait with
    | .monitor m => some m.inst
    | .future f => some f.inst
    | _ => none).flatten ++
  (s.hams.map fun (_, h) => [h.mill0, h.mill1].filterMap fun x => x.run.bind fun r => if r.bolt.isSome then some r.task.id else none).flatten

/-- Starts an invalidation: the translations of the range go, and the instruction-cache lines of the pages that they
mapped; it lasts until every access that is under way has completed. -/
def startXli (s : State) (v : W32) : State :=
  let out := s.mm.tlb.filter (xliHits s.mm.xliAddr v.toNat)
  { s with mm := { s.mm with
    xliCtl := v &&& 0xCFFFFFFF#32
    xliWait := underWay s
    tlb := s.mm.tlb.filter fun e => !xliHits s.mm.xliAddr v.toNat e
    icache := s.mm.icache.filter fun l => !(out.any fun e => e.pbase / 65536 == l.line / 1024) } }

/-- A write of `XLI_CTL`: discarded while `act` is 1. -/
def execXliInvalidate (v : W32) (s : State) : Host.Outcome State Fault Refusal :=
  .next (if s.mm.xliCtl.getLsbD 31 then s
    else if v.getLsbD 31 then startXli s v
    else { s with mm := { s.mm with xliCtl := v &&& 0x4FFFFFFF#32 } })

/-- Whether the accesses that a running invalidation waits for are complete. -/
def xliOver (s : State) : Bool := s.mm.xliCtl.getLsbD 31 && !((underWay s).any s.mm.xliWait.contains)

def execXliDone (s : State) : Host.Outcome State Fault Refusal :=
  .next (if xliOver s then { s with mm := { s.mm with xliCtl := s.mm.xliCtl &&& 0x7FFFFFFF#32, xliWait := [] } } else s)

end Sys2Proof.Machine
end

