-- ==== Sys2Proof/Machine/Firmware.lean ====
section
/-! DEFINITION. Reeves, beadles, bring-up and service (ch. 27), the reeve queue's actions (R388, R389), the lottery state
(17 R295), the host's register writes (01 R17, 00 R4) and the reset of the device. -/

namespace Sys2Proof.Machine

open Sys2Proof

/-! ## Resolving records (10 R202, 27 R388, R389) -/

/-- Threads held for a record issue their access again. -/
def retryThread (ref : RecRef) (t : Thread) : Thread :=
  match t.wait with
  | .fault _ _ _ _ r => if r = ref then { t with wait := .run } else t
  | _ => t

/-- An access to a save area that was held goes on: the writes of a few bytes, then the save of a gang that fails, the
adoption that parks a helper or resumes an owner, the swap-out or the save of a deadline that it interrupts, or the kept
save of a group whose answer is complete; every other restore starts again by itself (09 R416). -/
def resumeSave (s : State) (gid : Gid) : State :=
  let s1 := flushPuts s gid
  match groupOf s1 gid with
  | none => s1
  | some g =>
    if g.saveHold.isSome then s1
    else if (gangOf s1 gid.tag).any (·.stopped) then saveAll [gid] s1
    else if g.chosen.isSome then adoptOn s1 gid
    else match adopterOf s1 gid with
      | some h => adoptOn s1 h.gid
      | none =>
        match g.saving with
        | some (full, place) => markSaved (parkGroup s1 gid full place) gid.tag
        | none => keptSave s1 gid

def heldSaves (s : State) (ref : RecRef) : List Group := s.groups.filter fun g => g.saveHold.any fun h => h.1 = ref

/-- Placements whose commit holds for a record, by die (R418). -/
def heldPlaced (s : State) (ref : RecRef) : List (Nat × Placement) :=
  (s.dies.map fun (k, d) => (d.placed.filter fun p => p.hold.any fun h => h.1 = ref).map fun p => (k, p)).flatten

/-- A copy or a mill's step that was held goes on (25 R369, 22 R332). -/
def retryHamlet (ref : RecRef) (h : Hamlet) : Hamlet :=
  let copy (c : Copy) : Copy := if c.hold.any (fun x => x.1 = ref) then { c with hold := none } else c
  let mill (m : Mill) : Mill :=
    { m with run := m.run.map fun r => if r.hold.any (fun x => x.1 = ref) then { r with hold := none } else r }
  { h with copies := h.copies.map copy, mill0 := mill h.mill0, mill1 := mill h.mill1 }

/-- A stream whose fetch stalled, and one whose post is held, go on (15 R266, R417). -/
def retryStream (ref : RecRef) (s : State) (n : Nat) : State :=
  let st := streamOf s n
  let free (st : Stream) : Stream :=
    { st with stall := false, ref := none, accepts := st.accepts.map fun x => { x with held := false } }
  let s1 := if st.ref = some ref then offerOn (updStream s n free) n else s
  if st.postRef = some ref then retryPosts (updStream s1 n fun st => { st with postRef := none }) n else s1

/-- Everything that holds for a record, or, with none, for room in a queue, is tried again. -/
def retryRef (ref : RecRef) (s : State) : State :=
  let s1 := { s with
    groups := s.groups.map fun g => { g with threads := g.threads.map (retryThread ref) }
    gangs := s.gangs.map fun x => if x.hold = some ref then { x with hold := none } else x
    hams := s.hams.map fun (k, h) => (k, retryHamlet ref h) }
  let s2 := (heldSaves s ref).foldl (fun s g => resumeSave s g.gid) s1
  let s3 := (heldPlaced s ref).foldl (fun s (k, p) =>
    let s1 := setPlaced s k { p with hold := none }
    (commitNext s1 k).getD s1) s2
  (s.streams.map (·.1)).foldl (retryStream ref) s3

/-- A notice of policy 3 that waited for room (16 R278). -/
def repostNotice (s : State) (n : Nat) : State :=
  let st := streamOf s n
  match st.hold with
  | some h =>
    if h.full && !h.told && h.notice.isNone && (autoOf s st.odie h.slot).any (fun a => imPolicy a.img == 3)
    then overflowNotice s n st.odie h else s
  | none => s

/-- A slot of a die's queue may have freed: records that wait are written, accesses that wait are tried again. -/
def slotFreed (s : State) (die : Nat) : State :=
  if queueFull s die then s else
  let s1 := flushRecords die 1024 s
  if queueFull s1 die then s1 else
  (s1.streams.map (·.1)).foldl repostNotice (retryRef none s1)

/-- The unresolved record of a slot. -/
def openRec (s : State) (die slot : Nat) : Option OpenRec := tfind (dieOf s die).recs slot

/-- Accesses that waited at their homes, for a channel or for a window, are made again: the host's, the fabric's, the reeves' and the
device's records, the posts, the messages, and what holds without a record (01 R19, 10 R194). -/
def homesFree (s : State) : State :=
  let s1 := (s.dies.map (·.1)).foldl slotFreed (retryRef none (flushFab (flushHeld s)))
  let s2 := flushRecords18 s1
  let s3 := (s2.streams.map (·.1)).foldl retryPosts s2
  (s3.boxes.map (·.1)).foldl deliverMsg s3

/-- The end of an enable or a disable of a format window (10 R192, R194): what the window held goes on. -/
def winDone (s : State) (w : Nat) (x : Window) : State :=
  homesFree (setWin { s with mm := cleanRange s.mm x } w { x with busy := false, on := x.en })

def execWindowEnableDone (w : Nat) (s : State) : Host.Outcome State Fault Refusal :=
  .next (let x := winOf s w
    if x.busy && x.en then winDone s w x else s)

def execWindowDisableDone (w : Nat) (s : State) : Host.Outcome State Fault Refusal :=
  .next (let x := winOf s w
    if x.busy && !x.en then winDone s w x else s)

/-- The action word after an action. -/
def setAction (s : State) (die act slot : Nat) (err : Bool) : State :=
  updDie s die fun d => { d with act := act, aslot := slot, aerr := err }

def execRqRetry (die slot : Nat) (s : State) : Host.Outcome State Fault Refusal :=
  .next (match openRec s die slot with
    | some o =>
      if o.notice = some 1 then setAction s die 0 slot true
      else slotFreed (retryRef (some (die, slot)) (resolveRec (setAction s die 0 slot false) (some (die, slot)))) die
    | none => setAction s die 0 slot true)

/-- Cause 0x30 in the threads of a group that a record holds: one trap for each instruction. -/
def failThreads (ref : RecRef) (s : State) (g : Group) : State :=
  let mine := g.threads.filterMap fun t => match t.wait with
    | .fault _ _ _ addr r => if r = ref then some (t.tid, t.pc, addr) else none
    | _ => none
  (distinct (mine.map fun x => x.2.1)).foldl (fun s pc =>
    takeTrap s g.gid ((mine.filter fun x => x.2.1 = pc).map fun x => ⟨x.1, 4, 0x30, true, pc, pc, x.2.2, 0#64⟩)) s

/-- An access to a save area whose record fails ends the group's gang (09 R416); a helper that was to resume it as an owner
goes on (21 R321). -/
def failSave (s : State) (g : Group) : State :=
  match g.saveHold with
  | some (_, addr) =>
    let s1 := areaEnds s g 0x30 addr
    (match adopterOf s1 g.gid with
      | some h => adoptOn s1 h.gid
      | none => s1)
  | none => s

/-- A held write of a commit that is dropped (R418, log 100): a notice, and the commit goes on as if it had been made. -/
def failPlaced (s : State) (k : Nat) (p : Placement) : State :=
  match p.hold with
  | some (_, i) =>
    let va := if i = 0 then p.launch.block else bqArea p.launch.tmpl p.launch.aix (i - 1)
    let s1 := setPlaced (droppedWrite s k va) k { p with past := p.past ++ [i], hold := none }
    (commitNext s1 k).getD s1
  | none => s

def failEnd (s : State) (x : Gang) : State := dropGang (droppedWrite s x.die x.launch.block) x.tag

/-- Mills' steps that hold for a record fail their tasks (22 R332). -/
def failMills (ref : RecRef) (h : Hamlet) : Hamlet :=
  let mill (m : Mill) : Mill :=
    { m with run := m.run.map fun r => match r.hold with
      | some (x, word, addr) => if x = ref then { r with hold := none, ended := some (word, addr) } else r
      | none => r }
  { h with mill0 := mill h.mill0, mill1 := mill h.mill1 }

/-- Copies that hold for a record: of a hamlet, with what they hold for. -/
def heldCopies (s : State) (ref : RecRef) : List (Nat × Copy × Option Nat) :=
  (s.hams.map fun (k, h) => h.copies.filterMap fun c => match c.hold with
    | some (x, u) => if x = ref then some (k, c, u) else none
    | none => none).flatten

def failHeldCopy (s : State) (ham : Nat) (c : Copy) (u : Option Nat) : State :=
  match u with
  | some u => updCopy s ham c.id fun c => failCopy 0x30 u { c with hold := none }
  | none => dropWord s ham c

/-- A stream whose fetch fault fails is dead, and an acceptance that held for it stays held (17 R290); a held post is dropped with a notice (15 R266, R417). -/
def failStream (ref : RecRef) (addr : W64) (s : State) (n : Nat) : State :=
  let st := streamOf s n
  let s1 := if st.ref = some ref then updStream s n fun st => { st with stall := false, ref := none, dead := true } else s
  if st.postRef = some ref then
    let s2 := updStream (postRecord s1 st.odie (noticeBytes 6 addr n (nowNs s1))) n fun st => { st with postRef := none }
    match st.posts with
    | p :: _ => retryPosts (endPost s2 n p) n
    | [] => s2
  else s1

/-- Everything that holds for a record fails. -/
def failRef (ref : RecRef) (addr : W64) (s : State) : State :=
  let s1 := { s with
    groups := s.groups.map fun g => { g with threads := g.threads.map (retryThread ref) }
    hams := s.hams.map fun (k, h) => (k, failMills ref h) }
  let s2 := s.groups.foldl (failThreads ref) s1
  let s3 := (heldSaves s ref).foldl failSave s2
  let s4 := (heldPlaced s ref).foldl (fun s x => failPlaced s x.1 x.2) s3
  let s5 := (s.gangs.filter fun x => x.hold = some ref).foldl failEnd s4
  let s6 := (heldCopies s ref).foldl (fun s x => failHeldCopy s x.1 x.2.1 x.2.2) s5
  (s.streams.map (·.1)).foldl (failStream ref addr) s6

def execRqFail (die slot : Nat) (s : State) : Host.Outcome State Fault Refusal :=
  .next (match openRec s die slot with
    | some o =>
      if o.notice = some 1 then setAction s die 1 slot true
      else slotFreed (failRef (some (die, slot)) o.addr (resolveRec (setAction s die 1 slot false) (some (die, slot)))) die
    | none => setAction s die 1 slot true)

/-- Ends the overflow hold that a notice stands for, the new candidate being dropped (16 R278). -/
def dropHeld (s : State) (ref : RecRef) : State :=
  match s.streams.find? fun (_, st) => st.hold.any fun h => h.notice = ref with
  | some (n, _) => offerOn (endHold s n true) n
  | none => resolveRec s ref

def execRqDrop (die slot : Nat) (s : State) : Host.Outcome State Fault Refusal :=
  .next (match openRec s die slot with
    | some o =>
      if o.notice = some 1 then slotFreed (dropHeld (setAction s die 2 slot false) (some (die, slot))) die
      else setAction s die 2 slot true
    | none => setAction s die 2 slot true)

/-- A write of `RQCONS` in range frees slots (R388). -/
def execRqconsWrite (die : Nat) (v : W32) (s : State) : Host.Outcome State Fault Refusal :=
  .next (let d := dieOf s die
    if (v - d.rqcons).toNat ≤ (d.rqprod - d.rqcons).toNat then slotFreed (updDie s die fun d => { d with rqcons := v }) die
    else s)

/-- Whether a queue may stand at an address (R387). -/
def rqbaseOk (die : Nat) (v : W64) : Bool :=
  v.toNat % 65536 == 0 && die * Config.dieBytes ≤ v.toNat && v.toNat + 65536 ≤ (die + 1) * Config.dieBytes

def execRqbaseWrite (die : Nat) (v : W64) (s : State) : Host.Outcome State Fault Refusal :=
  .next (if rqbaseOk die v then slotFreed (updDie s die fun d => { d with rqbase := v, rqset := true }) die else s)

/-! ## Hang detection and adoption (R392 to R396) -/

def setReady (s : State) (f : DevFn) (on : Bool) : State :=
  let rest := s.host.ready.filter (· != f)
  { s with host := { s.host with ready := if on then f :: rest else rest } }

def isReady (s : State) (f : DevFn) : Bool := s.host.ready.contains f

/-- A reeve that runs: ready, and not declared hung. -/
def reeveRuns (s : State) (d : Nat) : Bool := isReady s (.reeve d) && !(dieOf s d).hung

/-- Whether a die's reeve serves the streams of another die. -/
def servesOther (s : State) (d : Nat) : Bool := s.dies.any fun (k, x) => k != d && x.moved && x.adie == d

/-- Whether a reeve is able to adopt (R392). -/
def canAdopt (s : State) (d : Nat) : Bool := reeveRuns s d && !servesOther s d

/-- The partner in the row and the partner in the column (R385). -/
def partner (d : Nat) : Nat := Nat.xor d 1
def columnPartner (d : Nat) : Nat := Nat.xor d 4

/-- One automaton moves to a free slot of the adopting die; the answer names its slots before and after. Where its restore
is refused (16 R268, R284) it stays, disarmed (log 58). -/
def moveAuto (source dest : Nat) (acc : List (Nat × Nat) × State) (x : Nat × Automaton) : List (Nat × Nat) × State :=
  let s := acc.2
  let room := candsOf (dieOf s dest) + x.2.cands.length ≤ 4096
  match (freeAuto s dest).filter fun _ => room with
  | none => (acc.1, updAuto (stopAuto s source x.1 x.2) source x.1 disarmed)
  | some k =>
    let s1 := updDie s source fun d => { d with autos := tdel d.autos x.1 }
    let s2 := updDie s1 dest fun d => { d with
      nextArm := d.nextArm + 1
      autos := tput d.autos k { x.2 with armed := some d.nextArm } }
    (acc.1 ++ [(x.1, k)], s2)

/-- One stream moves with its armed automata in arming order; an offer that holds goes on at the adopting die (R393). -/
def moveStream (source dest : Nat) (s : State) (n : Nat) : State :=
  if (streamOf s n).odie ≠ source then s else
  let (slots, s1) := (armedOn s source n).foldl (moveAuto source dest) ([], s)
  updStream s1 n fun st => { st with
    odie := dest
    behind := nowNs s
    hold := st.hold.map fun h => { h with
      slot := (slots.lookup h.slot).getD 256
      todo := h.todo.filterMap (fun k => slots.lookup k)
      seen := h.seen.filterMap (fun k => slots.lookup k) } }

/-- Queued launch records move to the queue of the same number; what the lottery had drawn is drawn again. -/
def moveQueues (source dest : Nat) (s : State) : State :=
  let s1 := (dieOf s source).queues.foldl (fun s (q, x) =>
    if x.recs.isEmpty then s else updQueue s dest q fun y => { y with recs := y.recs ++ x.recs }) s
  updDie s1 source fun d => { d with
    placed := d.placed.filter (·.owner.isSome)
    queues := d.queues.map fun (q, x) => (q, { x with recs := [] }) }

/-- Whether a stream's move waits: an event of it is being offered, but for one that an overflow holds (16 R278, 27 R393), or
the adopting hayward, which is to arm its automata, is not ready (01 R19). -/
def moveWaits (s : State) (source n : Nat) : Bool :=
  (midOffer s n source && !((streamOf s n).hold.any (·.full))) ||
    (!(armedOn s source n).isEmpty && !hayReady s (dieOf s source).adie)

/-- The end of a move: the queued launch records follow, and for a hung die a service event (R393, R396). -/
def endMove (s : State) (source : Nat) : State :=
  let d := dieOf s source
  let s1 := moveQueues source d.adie s
  if d.hung then serviceEvent s1 d.adie 2 source d.adie else s1

/-- Streams of a die move, one at a time, while the next of them can. -/
def moveNext (source : Nat) : Nat → State → State
  | 0, s => s
  | k + 1, s =>
    match (dieOf s source).moving with
    | [] => s
    | n :: rest =>
      if moveWaits s source n then s else
      let s1 := moveStream source (dieOf s source).adie (updDie s source fun d => { d with moving := rest }) n
      if rest.isEmpty then endMove s1 source else moveNext source k s1

/-- The moves that are under way go on. -/
def goMoves (s : State) : State :=
  (s.dies.map (·.1)).foldl (fun s d => moveNext d (dieOf s d).moving.length s) s

/-- The adoption of a die's streams by another reeve begins: `moved` and `adie` in one step (R392, R393). -/
def moveStreams (s : State) (source dest : Nat) : State :=
  let mine := (List.range 4096).filter fun n => (streamOf s n).odie = source
  let s1 := setReady (updDie s source fun d => { d with moved := true, adie := dest, moving := mine }) (.hayward source) false
  if mine.isEmpty then endMove s1 source else moveNext source mine.length s1

/-- A heartbeat of a die's reeve reaches its partner, which counts it, or its column partner (R392). -/
def execHeartbeat (die : Nat) (column : Bool) (s : State) : Host.Outcome State Fault Refusal :=
  .next (if !isReady s (.reeve die) then s
    else if column then updDie s die fun d => { d with beatC := nowNs s }
    else updDie s die fun d => { d with hbeat := d.hbeat + 1, beatP := nowNs s })

/-- A reeve is declared hung by another one, which adopts its streams where it is able. -/
def declareHung (s : State) (die by_ : Nat) : State :=
  let adopts := canAdopt s by_ && !(dieOf s die).moved
  let first := !(dieOf s die).hung
  let s1 := setReady (updDie s die fun d => { d with hung := true }) (.reeve die) false
  let s2 := if first then serviceEvent s1 by_ 1 die (if adopts then by_ else 8) else s1
  if adopts then moveStreams s2 die by_ else s2

/-- After 1,000 µs without a heartbeat at the partner. -/
def execHangDeclare (die : Nat) (s : State) : Host.Outcome State Fault Refusal :=
  .next (if reeveRuns s die && reeveRuns s (partner die) && (dieOf s die).beatP + 1000000 ≤ nowNs s then
      declareHung s die (partner die)
    else s)

/-- After 1,200 µs without a heartbeat at the column partner, while `moved` is clear. -/
def execColumnHangDeclare (die : Nat) (s : State) : Host.Outcome State Fault Refusal :=
  .next (let d := dieOf s die
    if (isReady s (.reeve die) || d.hung) && !d.moved && reeveRuns s (columnPartner die) && d.beatC + 1200000 ≤ nowNs s &&
      (!d.hung || canAdopt s (columnPartner die)) then
      declareHung s die (columnPartner die)
    else s)

/-- A write of `rrst` = 1: the reeve alone starts again, from its firmware (R395, R386). -/
def execReeveRestart (die : Nat) (s : State) : Host.Outcome State Fault Refusal :=
  .next (let d := dieOf s die
    if !d.hung || d.rrst then s else
    let s1 := updDie s die fun d => { d with rrst := true }
    { s1 with host := { s1.host with running := tdel s1.host.running die } })

/-! ## Margin, code tables, scrubbing (R397 to R400, 17 R295) -/

/-- The supply after a sample, in units of 0.5 mV: a step is 5 units. -/
def stepSupply (pdm : BitVec 16) (m : Margin) : Margin :=
  if pdm = 0xFFFF#16 then { m with pdm := pdm }
  else if pdm.toNat < 20 && m.vnow < Margin.vceil then { m with pdm := pdm, vnow := m.vnow + 5, vsteps := m.vsteps + 1 }
  else if 40 < pdm.toNat && 1300 < m.vnow then { m with pdm := pdm, vnow := m.vnow - 5 }
  else { m with pdm := pdm }

/-- The margin of a die is exhausted (R398): its hamlets that were ready take no new groups, its streams move to its partner, its mills
drain. -/
def exhaustMargin (s : State) (die : Nat) : State :=
  let were := (List.range 16).filterMap fun h => if isReady s (.hamlet (16 * die + h)) then some (16 * die + h) else none
  let s1 := setReady { s with host := { s.host with spent := s.host.spent ++ were } } (.coreDie die) false
  let s2 := (List.range 16).foldl (fun s h =>
    updHam (setReady s (.hamlet (16 * die + h)) false) (16 * die + h) fun x =>
      { x with mill0 := { x.mill0 with hold := true }, mill1 := { x.mill1 with hold := true } }) s1
  let s3 := serviceEvent s2 die 3 die 8
  if canAdopt s3 (partner die) && !(dieOf s3 die).moved then moveStreams s3 die (partner die) else s3

def execMarginSample (die : Nat) (pdm : BitVec 16) (s : State) : Host.Outcome State Fault Refusal :=
  .next (if !reeveRuns s die then s else
    let m := (dieOf s die).margin
    let out := m.vleft == 0 && pdm.toNat < 10 && !m.mexh
    let s1 := updDie s die fun d => { d with margin := { stepSupply pdm m with mexh := m.mexh || out } }
    if out then exhaustMargin s1 die else s1)

/-- A table of codes from its bytes. -/
def codeTable (b : Bytes) : Table Byte := (b.take 128).zipIdx.foldl (fun t (x, i) => tset 0#8 t i x) []

def execCodeTableRefresh (die : Nat) (temp droop inj : Bytes) (s : State) : Host.Outcome State Fault Refusal :=
  .next (if !reeveRuns s die then s
    else updDie s die fun d => { d with ptemp := codeTable temp, pdroop := codeTable droop, pinj := codeTable inj })

/-- A scrubbed granule: a correction is counted, an uncorrectable error poisons it and writes no record (R400). -/
def execPatrolScrub (granule : Nat) (found : ScrubFound) (s : State) : Host.Outcome State Fault Refusal :=
  .next (if Config.localBytes ≤ 32 * granule then s else
    match found with
    | .clean => s
    | .corrected => updDie s (homeDie (32 * granule)) fun d => { d with ecc := d.ecc + 1 }
    | .uncorrectable => { s with mm := poisonGranule s.mm granule })

/-- A soft error arises, or a device of the domain is reached no longer, or again. One that is corrected is counted for its die; one that is not stays with its register, bin word or granule until that is written whole; a bad copy
of a fetch line is dropped, so that the line is fetched once more (04 R48, 27 R400, log 106). -/
def upsetNow (u : Upset) (s : State) : State :=
  match u with
  | .corrected d => updDie s d fun x => { x with ecc := x.ecc + 1 }
  | .reg gid tids r => updGroup s gid fun g =>
    if onCore g && r < g.n then
      modThreads tids (fun t => if t.live && !t.rbad.contains r then { t with rbad := r :: t.rbad } else t) g
    else g
  | .bin ham m k =>
    if k < 65536 && !((hamOf s ham).mill m).bad.contains k then updMill s ham m fun x => { x with bad := k :: x.bad } else s
  | .l1 core g => { s with mm := { s.mm with l1 := s.mm.l1.map fun l => if l.core = core then spoilLine s.mm g l else l } }
  | .home g => if 32 * g < Config.localBytes || isCommonsLoc (32 * g) then { s with mm := poisonGranule s.mm g } else s
  | .fetch core line =>
    { s with mm := { s.mm with icache := s.mm.icache.filter fun l => !(l.core = core && l.line = line) } }
  | .link dev down =>
    let rest := s.fab.down.filter (· != dev)
    { s with fab := { s.fab with down := if down then dev :: rest else rest } }

/-! ## Firmware, attestation, bring-up (R386, R390, R391, R402, R403) -/

/-- Whether a controller's image starts (R402). -/
def imageVerifies (fused : W32) (ctl : Nat) (i : FwImage) : Bool :=
  i.magic == 0x46570001#32 && i.kind == (if ctl < 8 then 1#32 else 2#32) && decide (fused.toNat ≤ i.sv.toNat) &&
    i.rsvZero && i.ecdsaOk && i.lmsOk

/-- The function that a controller brings up: reeve `ctl`, or the hamlet of beadle `ctl` - 8. -/
def ctlFn (ctl : Nat) : DevFn := if ctl < 8 then .reeve ctl else .hamlet (ctl - 8)

/-- A controller starts its verified image; it may raise the fused minimum and load the device's number (26 R376). -/
def startImage (s : State) (ctl : Nat) (i : FwImage) : State :=
  { s with
    host := { s.host with
      running := tput s.host.running ctl i
      fused := if s.host.fused.toNat < i.minv.toNat then i.minv else s.host.fused }
    fab := { s.fab with did := match i.did with
      | some d => if d.toNat < 576 then d.toNat else s.fab.did
      | none => s.fab.did } }

def setFailed (s : State) (f : DevFn) : State :=
  { s with host := { s.host with failed := if s.host.failed.contains f then s.host.failed else f :: s.host.failed } }

def execControllerBoot (ctl : Nat) (img : FwImage) (s : State) : Host.Outcome State Fault Refusal :=
  .next (if s.host.failed.contains (ctlFn ctl) || isReady s (ctlFn ctl) || (tfind s.host.running ctl).isSome then s
    else if imageVerifies s.host.fused ctl img then startImage s ctl img
    else setFailed s (ctlFn ctl))

/-- 48 or 96 bytes that the manual leaves to the device's keys. -/
def openBytes (key n : Nat) : Bytes := (List.range n).map (Config.attestByte key)

/-- The digest of some bytes (R403). -/
def digest (b : Bytes) : Bytes := (List.range 48).map (Config.sha384 b)

/-- A word of the ready map: bit i for the function `f i`. -/
def readyBits (s : State) (n : Nat) (f : Nat → DevFn) : Nat :=
  (List.range n).foldl (fun v i => v + (isReady s (f i)).toNat * 2 ^ i) 0

/-- The ready map as it reads (27 Table 27.3). -/
def readyMap (s : State) : Bytes :=
  natLe 4 (readyBits s 8 .granary + readyBits s 8 .coreDie * 2 ^ 8 + readyBits s 8 .hayward * 2 ^ 16 +
    readyBits s 8 .reeve * 2 ^ 24) ++ natLe 4 (isReady s .host).toNat ++ zeros 8 ++
  ((List.range 12).map fun w => natLe 4 (readyBits s 32 fun b => .channel (32 * w + b))).flatten ++
  ((List.range 4).map fun w => natLe 4 (readyBits s 32 fun b => .hamlet (32 * w + b))).flatten

/-- What `acfg` covers: the ready map, `FDEV`, `FSTRIPE` and the member table as they read (26 Tables 26.4 to 26.6). -/
def configBytes (s : State) : Bytes :=
  readyMap s ++ natLe 4 (s.fab.fon.toNat * 2 ^ 31 + s.fab.did) ++ natLe 4 (s.fab.sg * 2 ^ 21 + s.fab.sn) ++
    ((List.range 576).map fun m => le32 (tget 0#32 s.fab.members m)).flatten

/-- The bytes of the image in use by a reeve (`lo` 0) or a beadle (`lo` 8): that of the lowest-numbered controller that runs
one. DESIGN CHOICE (log 111): the manual speaks of one image and does not say which where they differ. -/
def imageInUse (s : State) (lo n : Nat) : Bytes :=
  (((List.range n).findSome? fun i => tfind s.host.running (lo + i)).map (·.body)).getD []

/-- The attestation report (27 Table 27.8). The digest of the identity key and the signature are free values, the identity
the same in every report. -/
def attestReport (s : State) : Bytes :=
  natLe 4 0x41540001 ++ le32 s.host.fused ++ openBytes 0 48 ++ digest (imageInUse s 0 8) ++ digest (imageInUse s 8 128) ++
    digest (configBytes s) ++ ((List.range 12).map fun i => le32 (tget 0#32 s.host.nonce i)).flatten ++ natLe 8 (nowNs s) ++
    openBytes (s.sch.free + 1) 96

def execAttestRequest (s : State) : Host.Outcome State Fault Refusal :=
  .next { s with
    host := { s.host with report := attestReport s }
    sch := { s.sch with free := s.sch.free + 1 } }

/-- What a function's ready bit waits for (01 R19, 27 R391); a reeve's firmware sets `RQBASE` before it reports ready (R387), and
one that is hung is ready again only after its restart (R395). -/
def readyDue (s : State) : DevFn → Bool
  | .host | .granary _ | .channel _ => true
  | .coreDie d => !(dieOf s d).margin.mexh
  | .hamlet h => isReady s (.coreDie (h / 16)) && (tfind s.host.running (8 + h)).isSome
  | .hayward d => (dieOf s d).rqset && !(dieOf s d).moved
  | .reeve d => (tfind s.host.running d).isSome && (dieOf s d).rqset && (!(dieOf s d).hung || (dieOf s d).rrst)

/-- What else happens when a function becomes ready: kept accesses go on, queues may start, a restarted reeve posts. -/
def afterReady (s : State) (f : DevFn) : State :=
  match f with
  | .channel _ => homesFree s
  | .hamlet h => unblock s (h / 16)
  | .hayward _ => goMoves s
  | .reeve d =>
    let again := (dieOf s d).hung
    let s1 := updDie s d fun x => { x with hung := false, rrst := false, beatP := nowNs s, beatC := nowNs s }
    if again then serviceEvent s1 d 4 d 8 else s1
  | _ => s

def execFunctionReady (f : DevFn) (s : State) : Host.Outcome State Fault Refusal :=
  .next (if isReady s f || s.host.failed.contains f || !readyDue s f then s else afterReady (setReady s f true) f)

/-- A function's bring-up fails; the accesses that a channel holds complete, poisoned (01 R19). -/
def execBringupFail (f : DevFn) (s : State) : Host.Outcome State Fault Refusal :=
  .next (if isReady s f || s.host.failed.contains f then s else
    match f with
    | .channel _ => homesFree (setFailed s f)
    | _ => setFailed s f)

/-! ## Registers with a rule of their own -/

def execLstateWrite (die : Nat) (v : W32) (s : State) : Host.Outcome State Fault Refusal :=
  .next (updDie s die fun d => { d with lstate := if v = 0#32 then 1#32 else v })

/-- The fields of `FSTRIPE` that are in range (26 R376). -/
def stripeWrite (v : Nat) (f : Fabric) : Fabric :=
  let sg := bits v 21 5
  let sn := bits v 0 10
  { f with
    sg := if 12 ≤ sg && sg ≤ 30 then sg else f.sg
    sn := if sn ≤ 576 then sn else f.sn }

def execFstripeWrite (v : W32) (s : State) : Host.Outcome State Fault Refusal :=
  .next { s with fab := stripeWrite v.toNat s.fab }

def execFabricPortTrained (s : State) : Host.Outcome State Fault Refusal := .next { s with fab := { s.fab with fon := true } }

/-! ## Register writes of 32 bits (00 R4, 01 Table 1.8) -/

/-- One half of a 64-bit register. -/
def setHalf (hi : Bool) (v : W32) (w : W64) : W64 := if hi then join64 (lo32 w) v else join64 v (hi32 w)

/-- The stream page (15 Tables 15.1 to 15.3). -/
def streamReg (n r : Nat) (v : W32) (s : State) : State :=
  match r with
  | 0x00 => updStream s n (tailWrite v)
  | 0x08 | 0x0C => updStream s n fun st => if st.en then st else { st with sbase := setHalf (r == 0x0C) v st.sbase }
  | 0x10 | 0x14 => updStream s n fun st => if st.en then st else { st with scba := setHalf (r == 0x14) v st.scba }
  | 0x18 =>
    let s1 := retryPosts (updStream s n (sctlWrite v.toNat)) n
    if bit v.toNat 31 then startReset s1 n else s1
  | 0x1C => updStream s n fun st =>
    { st with cfgerr := st.cfgerr && !bit v.toNat 27, ovf := st.ovf && !bit v.toNat 26 }
  | _ => s

/-- A write of a window's address, size, scale base or pitch: discarded while the window is in use (10 R192). -/
def winField (s : State) (w : Nat) (f : Window → Window) : State :=
  let x := winOf s w
  if x.on || x.busy then s else setWin s w (f x)

/-- A window's block (10 Tables 10.4, 10.5). -/
def windowReg (w r : Nat) (v : W32) (s : State) : State :=
  match r with
  | 0x00 | 0x04 => winField s w fun x => { x with base := setHalf (r == 0x04) v x.base }
  | 0x08 | 0x0C => winField s w fun x => { x with size := setHalf (r == 0x0C) v x.size }
  | 0x10 | 0x14 => winField s w fun x => { x with scale := setHalf (r == 0x14) v x.scale }
  | 0x18 => if bit v.toNat 1 then enableWrite s w v.toNat else disableWrite s w v.toNat
  | _ => winField s w fun x => { x with pitch := bits v.toNat 0 24, rsv := bits v.toNat 24 8 != 0 }

/-- The outcome's state, as every meaning here gives one. -/
def nextOr (s : State) (o : Host.Outcome State Fault Refusal) : State :=
  match o with
  | .next t => t
  | _ => s

/-- The action word: `act`, `aslot` and, with `go`, the action (27 R389). -/
def actionReg (die : Nat) (v : Nat) (s : State) : State :=
  let slot := bits v 0 10
  if !bit v 31 then updDie s die fun d => { d with act := bits v 16 2, aslot := slot } else
  match bits v 16 2 with
  | 0 => nextOr s (execRqRetry die slot s)
  | 1 => nextOr s (execRqFail die slot s)
  | 2 => nextOr s (execRqDrop die slot s)
  | _ => setAction s die 3 slot true

/-- A reeve block (27 Table 27.2). -/
def reeveReg (die r : Nat) (v : W32) (s : State) : State :=
  match r with
  | 0x00 | 0x04 => nextOr s (execRqbaseWrite die (setHalf (r == 0x04) v (dieOf s die).rqbase) s)
  | 0x0C => nextOr s (execRqconsWrite die v s)
  | 0x10 => actionReg die v.toNat s
  | 0x1C => if bit v.toNat 31 then nextOr s (execReeveRestart die s) else s
  | 0x20 => updDie s die fun d =>
    { d with svtype := BitVec.ofNat 16 (bits v.toNat 16 16), sven := bit v.toNat 15, svstr := bits v.toNat 0 12 }
  | _ => s

/-- The host automaton port: discarded while `go` reads 1 (16 R286). Reserved bits read 0 (00 R4); of a nonzero one the
port keeps that the command is malformed. -/
def portReg (r : Nat) (v : W32) (p : Port) : Port :=
  if p.go then p else
  match r with
  | 0x00 | 0x04 => { p with hptr := setHalf (r == 0x04) v p.hptr }
  | 0x08 => { p with hstr := v &&& 0xFFF#32, srsv := bits v.toNat 12 20 != 0 }
  | 0x0C => { p with hhnd := v }
  | 0x10 => { p with hop := v &&& 7#32, orsv := bits v.toNat 3 28 != 0, go := bit v.toNat 31 }
  | _ => p

/-- A die's scheduler block (17 Table 17.6). -/
def schedReg (die r : Nat) (v : W32) (s : State) : State :=
  match r with
  | 0x00 => nextOr s (execLstateWrite die v s)
  | 0x04 => updDie s die fun d => { d with wt := bits v.toNat 8 4, wd := bits v.toNat 4 4, wi := bits v.toNat 0 4 }
  | _ => s

/-- The attestation block (27 R403). -/
def attestReg (r : Nat) (v : W32) (s : State) : State :=
  if r < 0x30 then { s with host := { s.host with nonce := tset 0#32 s.host.nonce (r / 4) v } }
  else if r = 0x30 && bit v.toNat 31 then nextOr s (execAttestRequest s)
  else s

/-- The invalidation block (10 R200). -/
def xliReg (r : Nat) (v : W32) (s : State) : State :=
  match r with
  | 0x0 | 0x4 => { s with mm := { s.mm with xliAddr := setHalf (r == 4) v s.mm.xliAddr } }
  | 0x8 => nextOr s (execXliInvalidate v s)
  | _ => s

/-- A miller block (22 Table 22.5). -/
def millReg (ham r : Nat) (v : W32) (s : State) : State :=
  if r ≠ 4 then s else
  updHam s ham fun h => { h with mill0 := holdMill (bit v.toNat 0) h.mill0, mill1 := holdMill (bit v.toNat 1) h.mill1 }

/-- The control and status registers of BAR0 from `0x0100_0000` on; a read-only or reserved place discards the write. -/
def controlReg (o : Nat) (v : W32) (s : State) : State :=
  if 0x400 ≤ o && o < 0x410 then xliReg (o - 0x400) v s
  else if 0x1000 ≤ o && o < 0x1200 then windowReg ((o - 0x1000) / 32) (o % 32) v s
  else if 0x4000 ≤ o && o < 0x6000 then
    if o % 16 = 0 then
      updQueue s ((o - 0x4000) / 0x400) (o % 0x400 / 16) fun q => { q with tick := bits v.toNat 0 8 }
    else s
  else if 0x6000 ≤ o && o < 0x7000 then schedReg ((o - 0x6000) / 0x200) (o % 0x200) v s
  else if 0x8000 ≤ o && o < 0xA000 then millReg ((o - 0x8000) / 0x40) (o % 0x40) v s
  else if 0xA000 ≤ o && o < 0xA900 then
    { s with fab := { s.fab with members := tset 0#32 s.fab.members ((o - 0xA000) / 4) (v &&& 0x800103FF#32) } }
  else if 0xB000 ≤ o && o < 0xB200 then reeveReg ((o - 0xB000) / 0x40) (o % 0x40) v s
  else if 0xC000 ≤ o && o < 0xC100 then attestReg (o - 0xC000) v s
  else if o = 0xD004 then { s with fab := stripeWrite v.toNat s.fab }
  else if 0xE000 ≤ o && o < 0xE018 then { s with host := { s.host with port := portReg (o - 0xE000) v s.host.port } }
  else s

/-- A word of the MSI-X table; a vector that is unmasked sends what is pending (01 Table 1.8). -/
def msixReg (o : Nat) (v : W32) (s : State) : State :=
  if 0x8000 ≤ o then s else
  let h := { s.host with msix := tput s.host.msix (o / 4) v }
  let vec := o / 16
  { s with host :=
      if o % 16 = 12 && !bit v.toNat 0 && h.pba.contains vec then sendMsix { h with pba := h.pba.filter (· != vec) } vec
      else h }

/-- The address-space table that the reeve sets: entry `asn` at 16 × `asn`, its first word in two halves (10 R197). -/
def asnReg (o : Nat) (v : W32) (s : State) : State :=
  if o % 16 < 8 && o / 16 < 4096 then
    let w := setHalf (o % 16 == 4) v (tget 0#64 s.mm.asnTab (o / 16))
    { s with mm := { s.mm with asnTab := tset 0#64 s.mm.asnTab (o / 16) w } }
  else s

/-- A write of a register: BAR0, BAR4, and, as 16, the address-space table. -/
def execRegisterWrite (bar off : Nat) (v : W32) (s : State) : Host.Outcome State Fault Refusal :=
  .next (if off % 4 ≠ 0 then s
    else match bar with
    | 0 => if off < 0x1000000 then streamReg (off / 0x1000) (off % 0x1000) v s else controlReg (off - 0x1000000) v s
    | 4 => msixReg off v s
    | 16 => asnReg off v s
    | _ => s)

/-! ## Reset of the device (R391) -/

/-- What a reset keeps (log 62): memory at its homes with its poison, the fuses, and the model's own fields. -/
def execDeviceReset (s : State) : Host.Outcome State Fault Refusal :=
  .next { State.reset with
    sch := { Sched.reset with agenda := s.sch.agenda, pace := s.sch.pace, free := s.sch.free, ids := s.sch.ids }
    mm := { MemSys.reset with mem := s.mm.mem, poison := s.mm.poison }
    host := { HostIf.reset with fused := s.host.fused, msgs := s.host.msgs } }

end Sys2Proof.Machine
end

