-- ==== Sys2Proof/Machine/Dispatch.lean ====
section
/-! DEFINITION. The dispatch of every instruction and happening to its meaning, one arm for each constructor. -/

namespace Sys2Proof.Machine

open Sys2Proof

def exec (i : Instr) (s : State) : Host.Outcome State Fault Refusal :=
  match i with
  | .nopS g => Sys2Proof.Machine.execNopS g s
  | .exitS g => Sys2Proof.Machine.execExitS g s
  | .retS g => Sys2Proof.Machine.execRetS g s
  | .yieldS g => Sys2Proof.Machine.execYieldS g s
  | .tretS g => Sys2Proof.Machine.execTretS g s
  | .pdoneS g => Sys2Proof.Machine.execPdoneS g s
  | .grpbarS g => Sys2Proof.Machine.execGrpbarS g s
  | .gangbarS g => Sys2Proof.Machine.execGangbarS g s
  | .stagebarS g => Sys2Proof.Machine.execStagebarS g s
  | .braS f => Sys2Proof.Machine.execBraS f s
  | .callS f => Sys2Proof.Machine.execCallS f s
  | .meetS f => Sys2Proof.Machine.execMeetS f s
  | .movS f => Sys2Proof.Machine.execMovS f s
  | .notS f => Sys2Proof.Machine.execNotS f s
  | .inegS f => Sys2Proof.Machine.execInegS f s
  | .iabsS f => Sys2Proof.Machine.execIabsS f s
  | .popcS f => Sys2Proof.Machine.execPopcS f s
  | .clzS f => Sys2Proof.Machine.execClzS f s
  | .brevS f => Sys2Proof.Machine.execBrevS f s
  | .srdS f => Sys2Proof.Machine.execSrdS f s
  | .swrS f => Sys2Proof.Machine.execSwrS f s
  | .kmovS f => Sys2Proof.Machine.execKmovS f s
  | .knotS f => Sys2Proof.Machine.execKnotS f s
  | .kpopS f => Sys2Proof.Machine.execKpopS f s
  | .rcpS f => Sys2Proof.Machine.execRcpS f s
  | .rsqS f => Sys2Proof.Machine.execRsqS f s
  | .sqrtS f => Sys2Proof.Machine.execSqrtS f s
  | .mwaitS g d => Sys2Proof.Machine.execMwaitS g d s
  | .hintS g h x => Sys2Proof.Machine.execHintS g h x s
  | .mov f => Sys2Proof.Machine.execMov f s
  | .movl f => Sys2Proof.Machine.execMovl f s
  | .lea f => Sys2Proof.Machine.execLea f s
  | .iadd f => Sys2Proof.Machine.execIadd f s
  | .isub f => Sys2Proof.Machine.execIsub f s
  | .imul f => Sys2Proof.Machine.execImul f s
  | .imulh f => Sys2Proof.Machine.execImulh f s
  | .imad f => Sys2Proof.Machine.execImad f s
  | .idiv f => Sys2Proof.Machine.execIdiv f s
  | .irem f => Sys2Proof.Machine.execIrem f s
  | .imin f => Sys2Proof.Machine.execImin f s
  | .imax f => Sys2Proof.Machine.execImax f s
  | .iabs f => Sys2Proof.Machine.execIabs f s
  | .ineg f => Sys2Proof.Machine.execIneg f s
  | .and f => Sys2Proof.Machine.execAnd f s
  | .or f => Sys2Proof.Machine.execOr f s
  | .xor f => Sys2Proof.Machine.execXor f s
  | .andn f => Sys2Proof.Machine.execAndn f s
  | .not f => Sys2Proof.Machine.execNot f s
  | .shl f => Sys2Proof.Machine.execShl f s
  | .shr f => Sys2Proof.Machine.execShr f s
  | .sar f => Sys2Proof.Machine.execSar f s
  | .rol f => Sys2Proof.Machine.execRol f s
  | .bfx f => Sys2Proof.Machine.execBfx f s
  | .bfi f => Sys2Proof.Machine.execBfi f s
  | .popc f => Sys2Proof.Machine.execPopc f s
  | .clz f => Sys2Proof.Machine.execClz f s
  | .brev f => Sys2Proof.Machine.execBrev f s
  | .sel f => Sys2Proof.Machine.execSel f s
  | .icmp f => Sys2Proof.Machine.execIcmp f s
  | .kand f => Sys2Proof.Machine.execKand f s
  | .kor f => Sys2Proof.Machine.execKor f s
  | .kxor f => Sys2Proof.Machine.execKxor f s
  | .knot f => Sys2Proof.Machine.execKnot f s
  | .kmov f => Sys2Proof.Machine.execKmov f s
  | .kpop f => Sys2Proof.Machine.execKpop f s
  | .bra f => Sys2Proof.Machine.execBra f s
  | .brx f => Sys2Proof.Machine.execBrx f s
  | .call f => Sys2Proof.Machine.execCall f s
  | .ret f => Sys2Proof.Machine.execRet f s
  | .meet f => Sys2Proof.Machine.execMeet f s
  | .yield f => Sys2Proof.Machine.execYield f s
  | .exit f => Sys2Proof.Machine.execExit f s
  | .nop f => Sys2Proof.Machine.execNop f s
  | .srd f => Sys2Proof.Machine.execSrd f s
  | .swr f => Sys2Proof.Machine.execSwr f s
  | .reggrow f => Sys2Proof.Machine.execReggrow f s
  | .regshrink f => Sys2Proof.Machine.execRegshrink f s
  | .shape f => Sys2Proof.Machine.execShape f s
  | .idx f => Sys2Proof.Machine.execIdx f s
  | .unif f => Sys2Proof.Machine.execUnif f s
  | .fadd f => Sys2Proof.Machine.execFadd f s
  | .fsub f => Sys2Proof.Machine.execFsub f s
  | .fmul f => Sys2Proof.Machine.execFmul f s
  | .ffma f => Sys2Proof.Machine.execFfma f s
  | .fmin f => Sys2Proof.Machine.execFmin f s
  | .fmax f => Sys2Proof.Machine.execFmax f s
  | .fcmp f => Sys2Proof.Machine.execFcmp f s
  | .fclass f => Sys2Proof.Machine.execFclass f s
  | .frnd f => Sys2Proof.Machine.execFrnd f s
  | .hadd2 f => Sys2Proof.Machine.execHadd2 f s
  | .hmul2 f => Sys2Proof.Machine.execHmul2 f s
  | .hfma2 f => Sys2Proof.Machine.execHfma2 f s
  | .dot4 f => Sys2Proof.Machine.execDot4 f s
  | .dot2 f => Sys2Proof.Machine.execDot2 f s
  | .cvt r f => Sys2Proof.Machine.execCvt r f s
  | .cvts r f => Sys2Proof.Machine.execCvts r f s
  | .pack4 f => Sys2Proof.Machine.execPack4 f s
  | .unpack4 f => Sys2Proof.Machine.execUnpack4 f s
  | .rcp f => Sys2Proof.Machine.execRcp f s
  | .rsq f => Sys2Proof.Machine.execRsq f s
  | .sqrt f => Sys2Proof.Machine.execSqrt f s
  | .ex2 f => Sys2Proof.Machine.execEx2 f s
  | .lg2 f => Sys2Proof.Machine.execLg2 f s
  | .sin f => Sys2Proof.Machine.execSin f s
  | .cos f => Sys2Proof.Machine.execCos f s
  | .tanh f => Sys2Proof.Machine.execTanh f s
  | .shfl f => Sys2Proof.Machine.execShfl f s
  | .vote f => Sys2Proof.Machine.execVote f s
  | .ballot f => Sys2Proof.Machine.execBallot f s
  | .matchL f => Sys2Proof.Machine.execMatchL f s
  | .lscan f => Sys2Proof.Machine.execLscan f s
  | .lred f => Sys2Proof.Machine.execLred f s
  | .lfirst f => Sys2Proof.Machine.execLfirst f s
  | .trap f => Sys2Proof.Machine.execTrap f s
  | .tret f => Sys2Proof.Machine.execTret f s
  | .ctxsave f => Sys2Proof.Machine.execCtxsave f s
  | .ctxsaveKeep f => Sys2Proof.Machine.execCtxsaveKeep f s
  | .ctxload f => Sys2Proof.Machine.execCtxload f s
  | .pdone f => Sys2Proof.Machine.execPdone f s
  | .depwait f => Sys2Proof.Machine.execDepwait f s
  | .frecGet f => Sys2Proof.Machine.execFrecGet f s
  | .frecFwd f => Sys2Proof.Machine.execFrecFwd f s
  | .ld f => Sys2Proof.Machine.execLd f s
  | .st f => Sys2Proof.Machine.execSt f s
  | .ldg f => Sys2Proof.Machine.execLdg f s
  | .stg f => Sys2Proof.Machine.execStg f s
  | .lde f => Sys2Proof.Machine.execLde f s
  | .ste f => Sys2Proof.Machine.execSte f s
  | .atom op f => Sys2Proof.Machine.execAtom op f s
  | .red op f => Sys2Proof.Machine.execRed op f s
  | .waitc f => Sys2Proof.Machine.execWaitc f s
  | .fld f => Sys2Proof.Machine.execFld f s
  | .fset f => Sys2Proof.Machine.execFset f s
  | .mbsend f => Sys2Proof.Machine.execMbsend f s
  | .mbrecv f => Sys2Proof.Machine.execMbrecv f s
  | .mbpeek f => Sys2Proof.Machine.execMbpeek f s
  | .fence f => Sys2Proof.Machine.execFence f s
  | .xfence f => Sys2Proof.Machine.execXfence f s
  | .cflush f => Sys2Proof.Machine.execCflush f s
  | .cinv f => Sys2Proof.Machine.execCinv f s
  | .cinvCode f => Sys2Proof.Machine.execCinvCode f s
  | .pref f => Sys2Proof.Machine.execPref f s
  | .evpost f => Sys2Proof.Machine.execEvpost f s
  | .evpostBuf f => Sys2Proof.Machine.execEvpostBuf f s
  | .evbar f => Sys2Proof.Machine.execEvbar f s
  | .amload f => Sys2Proof.Machine.execAmload f s
  | .amarm f => Sys2Proof.Machine.execAmarm f s
  | .amdisarm f => Sys2Proof.Machine.execAmdisarm f s
  | .amdisarmFree f => Sys2Proof.Machine.execAmdisarmFree f s
  | .amsave f => Sys2Proof.Machine.execAmsave f s
  | .amsaveStop f => Sys2Proof.Machine.execAmsaveStop f s
  | .amrestore f => Sys2Proof.Machine.execAmrestore f s
  | .bequeath f => Sys2Proof.Machine.execBequeath f s
  | .grpbar f => Sys2Proof.Machine.execGrpbar f s
  | .gangbar f => Sys2Proof.Machine.execGangbar f s
  | .stagebar f => Sys2Proof.Machine.execStagebar f s
  | .ownClaim f => Sys2Proof.Machine.execOwnClaim f s
  | .ownSelf f => Sys2Proof.Machine.execOwnSelf f s
  | .ownWord f => Sys2Proof.Machine.execOwnWord f s
  | .ownMbox f => Sys2Proof.Machine.execOwnMbox f s
  | .disownClaim f => Sys2Proof.Machine.execDisownClaim f s
  | .disownSelf f => Sys2Proof.Machine.execDisownSelf f s
  | .disownWord f => Sys2Proof.Machine.execDisownWord f s
  | .disownMbox f => Sys2Proof.Machine.execDisownMbox f s
  | .helpq f => Sys2Proof.Machine.execHelpq f s
  | .mtask f => Sys2Proof.Machine.execMtask f s
  | .mwait f => Sys2Proof.Machine.execMwait f s
  | .mpoll f => Sys2Proof.Machine.execMpoll f s
  | .binld f => Sys2Proof.Machine.execBinld f s
  | .binst f => Sys2Proof.Machine.execBinst f s
  | .binz f => Sys2Proof.Machine.execBinz f s
  | .bldp f => Sys2Proof.Machine.execBldp f s
  | .cpy f => Sys2Proof.Machine.execCpy f s
  | .cpy2 f => Sys2Proof.Machine.execCpy2 f s
  | .cpyt f => Sys2Proof.Machine.execCpyt f s
  | .cpyr f => Sys2Proof.Machine.execCpyr f s
  | .cpyq f => Sys2Proof.Machine.execCpyq f s
  | .strel f => Sys2Proof.Machine.execStrel f s
  | .netq f => Sys2Proof.Machine.execNetq f s
  | .hintL g h x lit => Sys2Proof.Machine.execHintL g h x lit s
  | .bend => Sys2Proof.Machine.execBend s
  | .bnop => Sys2Proof.Machine.execBnop s
  | .bld d int => Sys2Proof.Machine.execBld d int s
  | .bst a => Sys2Proof.Machine.execBst a s
  | .bconst d x => Sys2Proof.Machine.execBconst d x s
  | .bcolv d x bf16 => Sys2Proof.Machine.execBcolv d x bf16 s
  | .browv d x bf16 => Sys2Proof.Machine.execBrowv d x bf16 s
  | .badd d a b => Sys2Proof.Machine.execBadd d a b s
  | .bsub d a b => Sys2Proof.Machine.execBsub d a b s
  | .bmul d a b => Sys2Proof.Machine.execBmul d a b s
  | .bfma d a b x => Sys2Proof.Machine.execBfma d a b x s
  | .bmin d a b => Sys2Proof.Machine.execBmin d a b s
  | .bmax d a b => Sys2Proof.Machine.execBmax d a b s
  | .bclamp d a b x => Sys2Proof.Machine.execBclamp d a b x s
  | .brelu d a => Sys2Proof.Machine.execBrelu d a s
  | .bgelu d a => Sys2Proof.Machine.execBgelu d a s
  | .bsilu d a => Sys2Proof.Machine.execBsilu d a s
  | .btanh d a => Sys2Proof.Machine.execBtanh d a s
  | .bamax d a => Sys2Proof.Machine.execBamax d a s
  | .bscale d a fmt => Sys2Proof.Machine.execBscale d a fmt s
  | .bsto a b m => Sys2Proof.Machine.execBsto a b m s
  | .bstsc a x wide => Sys2Proof.Machine.execBstsc a x wide s
  | .bamaxg a x => Sys2Proof.Machine.execBamaxg a x s
  | .stailWrite n v => Sys2Proof.Machine.execStailWrite n v s
  | .streamEnable n v => Sys2Proof.Machine.execStreamEnable n v s
  | .streamReset n => Sys2Proof.Machine.execStreamReset n s
  | .streamResetDrain n => Sys2Proof.Machine.execStreamResetDrain n s
  | .eventOffer n => Sys2Proof.Machine.execEventOffer n s
  | .overflowHoldEnd n => Sys2Proof.Machine.execOverflowHoldEnd n s
  | .barrierRecord n => Sys2Proof.Machine.execBarrierRecord n s
  | .barrierRecordDone n => Sys2Proof.Machine.execBarrierRecordDone n s
  | .deadlineEdge die => Sys2Proof.Machine.execDeadlineEdge die s
  | .invariantExpiry die => Sys2Proof.Machine.execInvariantExpiry die s
  | .argBlockWrite n => Sys2Proof.Machine.execArgBlockWrite n s
  | .launchEnqueue n => Sys2Proof.Machine.execLaunchEnqueue n s
  | .lotteryDraw die => Sys2Proof.Machine.execLotteryDraw die s
  | .gangCommit die => Sys2Proof.Machine.execGangCommit die s
  | .groupComplete tag grp => Sys2Proof.Machine.execGroupComplete tag grp s
  | .gangComplete tag => Sys2Proof.Machine.execGangComplete tag s
  | .meetingRelease tag grp addr => Sys2Proof.Machine.execMeetingRelease tag grp addr s
  | .barrierComplete tag kind idx => Sys2Proof.Machine.execBarrierComplete tag kind idx s
  | .fairnessMove tag grp warp => Sys2Proof.Machine.execFairnessMove tag grp warp s
  | .progressTimeout tag => Sys2Proof.Machine.execProgressTimeout tag s
  | .swapOut tag grp => Sys2Proof.Machine.execSwapOut tag grp s
  | .groupResume tag grp core => Sys2Proof.Machine.execGroupResume tag grp core s
  | .adoption tag grp => Sys2Proof.Machine.execAdoption tag grp s
  | .helperResume tag grp => Sys2Proof.Machine.execHelperResume tag grp s
  | .preemptSignal tag => Sys2Proof.Machine.execPreemptSignal tag s
  | .preemptDeadline tag => Sys2Proof.Machine.execPreemptDeadline tag s
  | .loadReply id => Sys2Proof.Machine.execLoadReply id s
  | .deferredError id => Sys2Proof.Machine.execDeferredError id s
  | .depositArrival id => Sys2Proof.Machine.execDepositArrival id s
  | .monitorReply tag grp tid => Sys2Proof.Machine.execMonitorReply tag grp tid s
  | .futureAnswer tag grp tid => Sys2Proof.Machine.execFutureAnswer tag grp tid s
  | .nackResend tag grp tid => Sys2Proof.Machine.execNackResend tag grp tid s
  | .reggrowGrant tag grp => Sys2Proof.Machine.execReggrowGrant tag grp s
  | .reggrowFail core => Sys2Proof.Machine.execReggrowFail core s
  | .ctxloadDone tag grp slot => Sys2Proof.Machine.execCtxloadDone tag grp slot s
  | .mtaskEnqueue tag grp warp => Sys2Proof.Machine.execMtaskEnqueue tag grp warp s
  | .taskIssue ham => Sys2Proof.Machine.execTaskIssue ham s
  | .zeroStep ham mill => Sys2Proof.Machine.execZeroStep ham mill s
  | .kStep ham mill => Sys2Proof.Machine.execKStep ham mill s
  | .loadAddStep ham mill => Sys2Proof.Machine.execLoadAddStep ham mill s
  | .epilogueStep ham mill => Sys2Proof.Machine.execEpilogueStep ham mill s
  | .taskCompletion ham task => Sys2Proof.Machine.execTaskCompletion ham task s
  | .millHold ham mill => Sys2Proof.Machine.execMillHold ham mill s
  | .millRelease ham mill => Sys2Proof.Machine.execMillRelease ham mill s
  | .bldpReplace tag grp warp => Sys2Proof.Machine.execBldpReplace tag grp warp s
  | .copyEnqueue tag grp warp => Sys2Proof.Machine.execCopyEnqueue tag grp warp s
  | .copyUnit ham copy unit => Sys2Proof.Machine.execCopyUnit ham copy unit s
  | .copyCompletion ham copy => Sys2Proof.Machine.execCopyCompletion ham copy s
  | .strelApply id => Sys2Proof.Machine.execStrelApply id s
  | .fabAccess peer off op => Sys2Proof.Machine.execFabAccess peer off op s
  | .hostMarkedRead addr => Sys2Proof.Machine.execHostMarkedRead addr s
  | .hostOwnershipRequest line => Sys2Proof.Machine.execHostOwnershipRequest line s
  | .evictionError granule => Sys2Proof.Machine.execEvictionError granule s
  | .nodeThrottle core count => Sys2Proof.Machine.execNodeThrottle core count s
  | .windowEnable w v => Sys2Proof.Machine.execWindowEnable w v s
  | .windowEnableDone w => Sys2Proof.Machine.execWindowEnableDone w s
  | .windowDisable w v => Sys2Proof.Machine.execWindowDisable w v s
  | .windowDisableDone w => Sys2Proof.Machine.execWindowDisableDone w s
  | .xliInvalidate v => Sys2Proof.Machine.execXliInvalidate v s
  | .xliDone => Sys2Proof.Machine.execXliDone s
  | .portLoad => Sys2Proof.Machine.execPortLoad s
  | .portArm => Sys2Proof.Machine.execPortArm s
  | .portDisarm => Sys2Proof.Machine.execPortDisarm s
  | .portDisarmFree => Sys2Proof.Machine.execPortDisarmFree s
  | .portSave => Sys2Proof.Machine.execPortSave s
  | .portSaveStop => Sys2Proof.Machine.execPortSaveStop s
  | .portRestore => Sys2Proof.Machine.execPortRestore s
  | .portReservedOp => Sys2Proof.Machine.execPortReservedOp s
  | .rqRetry die slot => Sys2Proof.Machine.execRqRetry die slot s
  | .rqFail die slot => Sys2Proof.Machine.execRqFail die slot s
  | .rqDrop die slot => Sys2Proof.Machine.execRqDrop die slot s
  | .rqconsWrite die v => Sys2Proof.Machine.execRqconsWrite die v s
  | .rqbaseWrite die v => Sys2Proof.Machine.execRqbaseWrite die v s
  | .reeveRestart die => Sys2Proof.Machine.execReeveRestart die s
  | .heartbeat die column => Sys2Proof.Machine.execHeartbeat die column s
  | .hangDeclare die => Sys2Proof.Machine.execHangDeclare die s
  | .columnHangDeclare die => Sys2Proof.Machine.execColumnHangDeclare die s
  | .marginSample die pdm => Sys2Proof.Machine.execMarginSample die pdm s
  | .codeTableRefresh die temp droop inj => Sys2Proof.Machine.execCodeTableRefresh die temp droop inj s
  | .patrolScrub granule found => Sys2Proof.Machine.execPatrolScrub granule found s
  | .attestRequest => Sys2Proof.Machine.execAttestRequest s
  | .controllerBoot ctl img => Sys2Proof.Machine.execControllerBoot ctl img s
  | .functionReady f => Sys2Proof.Machine.execFunctionReady f s
  | .bringupFail f => Sys2Proof.Machine.execBringupFail f s
  | .lstateWrite die v => Sys2Proof.Machine.execLstateWrite die v s
  | .fstripeWrite v => Sys2Proof.Machine.execFstripeWrite v s
  | .registerWrite bar off v => Sys2Proof.Machine.execRegisterWrite bar off v s
  | .hostMemoryWrite addr bytes => Sys2Proof.Machine.execHostMemoryWrite addr bytes s
  | .storeAcknowledgement tag grp tid => Sys2Proof.Machine.execStoreAcknowledgement tag grp tid s
  | .deviceReset => Sys2Proof.Machine.execDeviceReset s
  | .fabricPortTrained => Sys2Proof.Machine.execFabricPortTrained s

end Sys2Proof.Machine
end

