-- ==== Sys2Proof/Machine/Issue.lean ====
section
/-! DEFINITION. The choice of what happens next, and a warp's issue: its issue address and issuing set (03 R30, R37, 26 R384),
the check of its line (04 R48, R62), the passing of time, and the words placed for a fetch (logs 2, 3, 4). -/

namespace Sys2Proof.Machine

open Sys2Proof

/-! ## Operands that replies are owed for (03 R30, 12 R223) -/

/-- The masks that an instruction reads or writes, its guard's among them. -/
def usedMasks (i : Instr) (g : BitVec 5) : List Nat :=
  (if g.getLsbD 4 then [g.toNat % 8] else []) ++
  match i with
  | .sel f | .shfl f | .ldg f | .fld f => [f.sc.toNat]
  | .icmp f | .fcmp f => f.dst.toNat :: (if combOf f = 0 then [] else [f.sc.toNat])
  | .kand f | .kor f | .kxor f => [f.dst.toNat, f.sa.toNat, f.sb.toNat]
  | .knot f | .kmov f | .vote f => [f.dst.toNat, f.sa.toNat]
  | .kpop f | .ballot f => [f.sa.toNat]
  | .knotS f | .kmovS f => [f.dst.toNat, f.sa.toNat]
  | .kpopS f => [f.sa.toNat]
  | .stg f | .mbsend f | .evbar f | .bldp f | .reggrow f | .amarm f | .amdisarm f | .amdisarmFree f | .amsave f
  | .amsaveStop f | .ownClaim f | .ownSelf f | .ownWord f | .ownMbox f | .disownClaim f | .disownSelf f | .disownWord f
  | .disownMbox f => [f.dst.toNat]
  | _ => []

/-- The registers that an instruction of a thread reads or writes, and the latches that it reads. -/
def usedRegs (i : Instr) (t : Thread) : List Nat := codeRegs (dstCodes i t) ++ readRegs i t
def usedLatches (i : Instr) (t : Thread) : List Nat :=
  (srcCodes i t).filterMap fun (c, _) => if 0x100 ≤ c && c < 0x108 then some (c - 0x100) else none

/-- Whether a reply's register, mask or latch is an operand of an instruction of a thread. The destination counts as one: a
reply that came later would overwrite it. -/
def awaits (i : Instr) (g : BitVec 5) (t : Thread) (r : Req) : Bool :=
  (r.toReg && (usedRegs i t).any fun x => x = r.dst || (r.wide && x = r.dst + 1)) ||
  r.kset.any (usedMasks i g).contains ||
  (usedLatches i t).any fun k => (latchOf t k).any fun l => l.due == some r.id

/-- Whether a group loads registers by `CTXLOAD` that an instruction reads or writes (09 R174). -/
def inLoad (i : Instr) (g : Group) (t : Thread) : Bool := g.slots.any fun x =>
  match x with
  | .pending (.ctxload v n) => (usedRegs i t).any fun c => v ≤ c && c < v + n
  | _ => false

/-- Whether a thread's operands are ready, but for the loads of 09 R174. -/
def operandsReady (s : State) (gid : Gid) (i : Instr) (g : BitVec 5) (t : Thread) : Bool :=
  s.reqs.all fun r => r.store || r.gid != gid || !(r.lanes.any fun l => l.tid = t.tid) || !awaits i g t r

/-! ## The line at an issue address (03 R30) -/

/-- The instruction of a line at an address: it, its guard and its length in parcels; none is a reserved encoding. -/
def fetched (b : Bytes) (pc : W64) : Option Instr × BitVec 5 × Nat :=
  let p := pc.toNat % 64 / 4
  let p0 := parcelAt b p
  (match parse p0 (parcelAt b (p + 1)) (parcelAt b (p + 2)) with
    | .ok i => some i
    | .error _ => none, bitsOf p0.toNat 2 5, lengthOf p0)

/-! ## One issue -/

/-- What comes of a warp's turn: nothing, another state without an instruction (a hold or a fault of the line), or an
instruction with the state that it runs in, and whether the warp ran on (R384). -/
inductive Turn where
  | none
  | line (s : State)
  | run (i : Option Instr) (g : BitVec 5) (s : State) (ranOn : Bool)

/-- The warp as it issues for the threads `all` at an address. They are the set that has held the issue address while none
of them is new to it (log 66), and then the fairness count goes on; else it restarts (R254). Threads that a move gave the
address lose it when they stop being runnable. A warp that runs on keeps its count (26 R384). -/
def issueWarp (g : Group) (w : Warp) (all : List Nat) (ranOn : Bool) : Warp :=
  if ranOn then w else
  { w with
    holder := all
    fcnt := if all.all (w.holder.contains ·) then w.fcnt else 0
    held := none
    moved := w.moved.filter fun t => (runnables g w).any fun x => x.tid = t }

/-- The state in which an instruction issues: the context stands, and the group has not searched since (18 R313). -/
def issueState (s : State) (g : Group) (w : Warp) (all set : List Nat) (pc : W64) (n : Nat) (ranOn : Bool) : State :=
  let s1 := updGroup s g.gid fun x => { x with
    searched := false
    warps := modAll (fun y => y.num = w.num) (fun y => { issueWarp g y all ranOn with first := false }) x.warps }
  { s1 with sch := { s1.sch with cur := some ⟨g.gid, w.num, set, pc, nextPc pc n⟩ } }

/-- A fault of the fetch line or of a start address: it charges every thread at the address, precisely (R48); `xaddr`
holds a start address itself at its first issue (R62), and else the line's. -/
def lineFault (s : State) (g : Group) (pc : W64) (set : List Nat) (cls cause : Nat) (addr : W64) : State :=
  takeTrap s g.gid (set.map fun t => ⟨t, cls, cause, true, pc, pc, addr, 0#64⟩)

/-- The registers that an instruction of some threads reads and that overflow (06 R92). -/
def overRead (g : Group) (w : Warp) (i : Instr) (set : List Nat) : List Nat :=
  w.over.filter fun r => g.threads.any fun t => set.contains t.tid && (readRegs i t).contains r

/-- The turn of an instruction: the rows that it reads where they overflow are read first (09 R416). -/
def runTurn (s : State) (g : Group) (w : Warp) (i : Instr) (gd : BitVec 5) (all set : List Nat) (pc : W64) (n : Nat)
    (ranOn : Bool) : Turn :=
  match readOver s g.gid w (overRead g w i set) with
  | (true, s') => .run (some i) gd (issueState s' g w all set pc n ranOn) ranOn
  | (false, s') => .line s'

/-- A warp's turn at one of its addresses; `onward` is its turn at the next one, where every thread waits for a reply, or,
after a run-on, for a load of the group (R384). Where an `AM` instruction holds the warp, only its threads count. -/
def turnAt (s : State) (g : Group) (w : Warp) (ranOn : Bool) (pc : W64) (onward : Turn) : Turn :=
  let ts := (runnables g w).filter fun t => t.pc = pc && w.held.all fun h => h.tids.contains t.tid
  let all := ts.map (·.tid)
  let base := pc &&& ~~~63#64
  if s.errs.any fun e => e.gid = g.gid && all.contains e.tid then .none else
  match enterLine s (coreOf g) g.asn pc with
  | (.waits, _) => .none
  | (.fault 3 cause, s') => .line (hold3 s' g pc 2 (all.map fun t => ⟨t, cause, base⟩))
  | (.fault cls cause, s') => .line (lineFault s' g pc all cls cause (if w.first then pc else base))
  | (.ok b, s') =>
    if w.first && !markedTarget b pc then .line (lineFault s' g pc all 1 cBTV pc)
    else if !beginsInstr b pc then .line (lineFault s' g pc all 2 0x07 base)
    else
      match fetched b pc with
      | (none, gd, n) => .run none gd (issueState s' g w all all pc n ranOn) ranOn
      | (some i, gd, n) =>
        let ready := ts.filter (operandsReady s g.gid i gd)
        let set := (ready.filter fun t => !inLoad i g t).map (·.tid)
        if ready.isEmpty then onward
        else if set.isEmpty then (if ranOn then onward else .none)
        else runTurn s' g w i gd all set pc n ranOn

/-- A warp's turns along its addresses. -/
def turnsOver (s : State) (g : Group) (w : Warp) : Bool → List W64 → Turn
  | _, [] => .none
  | ranOn, pc :: rest => turnAt s g w ranOn pc (turnsOver s g w true rest)

/-- Whether a group issues: not one with a pending `REGGROW` (06 R105) or a `DEPWAIT` (09 R182), one whose save holds, whose
adoption is under way or whose waiting accesses are to be presented (18 R314), or one of a gang that is stopped. -/
def groupIssues (s : State) (g : Group) : Bool :=
  onCore g && g.saveHold.isNone && !groupWaits g && g.chosen.isNone && g.present.isEmpty &&
    !((gangOf s g.gid.tag).any fun x => x.stopped)

/-- Threads whose entry for class 6, or for class 8, could not be made when it was due (log 91). One that has executed
`PDONE`, or waits, enters once it runs. -/
def late6 (g : Group) : List Thread := g.threads.filter fun t => t.wait == .run && !t.hnd && t.dph.isSome
def late8 (g : Group) (w : Warp) : List Thread := (runnables g w).filter fun t => !t.hnd && t.pre

/-- The entries that are made before a warp issues: of class 6 for the group, then of class 8 for the warp's threads. -/
def lateEntries (g : Group) (w : Warp) : List Charge :=
  if !(late6 g).isEmpty then
    (late6 g).map fun t =>
      ⟨t.tid, 6, 0x50, false, t.pc, t.pc, (t.dph.getD (0#64, 0)).1, BitVec.ofNat 64 (t.dph.getD (0#64, 0)).2⟩
  else (late8 g w).map fun t => ⟨t.tid, 8, 0x70, false, t.pc, t.pc, 0#64, 0#64⟩

/-- The addresses that a warp may issue for: its own order, or the one at which an `AM` instruction holds it while a thread
of that still stands there (16 R280); none for another hold. -/
def turnOrder (g : Group) (w : Warp) : List W64 × Warp :=
  match w.held with
  | none => (issueOrder g w, w)
  | some h =>
    if h.what ≠ .again then ([], w)
    else if (runnables g w).any fun t => h.tids.contains t.tid && t.pc = h.pc then ([h.pc], w)
    else (issueOrder g w, { w with held := none })

/-- A warp's turn. -/
def warpTurn (s : State) (g : Group) (w : Warp) : Turn :=
  let (order, w') := turnOrder g w
  if !groupIssues s g || order.isEmpty then .none
  else if (late6 g).isEmpty && (late8 g w).isEmpty then turnsOver s g w' false order
  else match lateEntries g w with
    | [] => .none
    | cs => .line (takeTrap s g.gid cs)

/-- An encoding that no row of the opcode maps gives (04 R63, R64). -/
def illegalOp (g : BitVec 5) (s : State) : State :=
  match ctxOf s g with
  | none => s
  | some c => if c.act.isEmpty then c.skip s false else c.trapAct s cILLOP

/-! ## Time (01 R9, 03 R37) -/

/-- Whether a warp's fairness count runs: the set that holds the issue address stands at it, and another runnable thread at
another address. -/
def counting (g : Group) (w : Warp) : Bool :=
  match issueOrder g w with
  | pc :: _ :: _ => (runnables g w).any fun t => t.pc = pc && w.holder.contains t.tid
  | _ => false

/-- The threads that a fairness move or a `YIELD` gave the address lose it as they stop being runnable, and the count
restarts with the last of them (14 R254). -/
def keepMoved (g : Group) (w : Warp) : Warp :=
  if w.moved.isEmpty then w else
  match w.moved.filter fun t => (runnables g w).any fun x => x.tid = t with
  | [] => { w with moved := [], holder := [], fcnt := 0 }
  | m => { w with moved := m }

/-- Time passes: the arithmetic cycles that the pace gives, and the fairness counts that run, but for a warp that ran on. -/
def tick (skip : Option (Gid × Nat)) (s : State) : State :=
  let n := s.sch.pace.headD 1
  let count (g : Group) (w : Warp) : Warp :=
    if onCore g && counting g w && skip != some (g.gid, w.num) then { w with fcnt := w.fcnt + n } else w
  { s with
    sch := { s.sch with cycle := s.sch.cycle + n, pace := s.sch.pace.tail, cur := none }
    groups := s.groups.map fun g => { g with warps := g.warps.map fun w => keepMoved g (count g w) } }

/-- The cores that hold, or held, anything: groups, helpers parked below an owner, and placements. -/
def busyCores (s : State) : List Nat :=
  (s.groups.filter fun g => onCore g || g.place == .below).map coreOf ++ (s.dies.map fun (_, d) => (d.placed.map (·.cores)).flatten).flatten

/-- Clears the `blk`s of the dies where a step has freed room (17 R297). -/
def unblockAll (s0 s : State) : State :=
  (distinct (busyCores s0)).foldl (fun acc c => unblockFreed s0 acc c) s

/-- Records that wait for a slot of a die's queue are written once a step has freed one (27 R388). -/
def freeQueues (s0 s : State) : State :=
  (s.dies.map (·.1)).foldl (fun acc d =>
    if !queueFull acc d && (queueFull s0 d || !(dieOf acc d).waiting.isEmpty) then slotFreed acc d else acc) s

/-- What follows every choice, made in state `s0`: overflow rows follow their registers, room that has become free is seen, as
are conditions that other agents have met, moves of streams go on, later reads may find other writes (11 R211), and time
passes. -/
def settle (s0 : State) (skip : Option (Gid × Nat)) (s : State) : State :=
  tick skip (nextLook (goMoves (freeQueues s0 (pollRings (pollDeposits (unblockAll s0 (settleRows s0 s)))))))

/-! ## What can happen of itself -/

/-- A happening, or an instruction whose context stands, as what it does. -/
abbrev Hap := State → Host.Outcome State Fault Refusal

/-- The happenings of a thread. -/
def threadHaps (g : Group) (t : Thread) : List Hap :=
  match t.wait with
  | .monitor _ => [execMonitorReply g.gid.tag g.gid.grp t.tid, execNackResend g.gid.tag g.gid.grp t.tid]
  | .future _ => [execFutureAnswer g.gid.tag g.gid.grp t.tid, execNackResend g.gid.tag g.gid.grp t.tid]
  | .mailbox _ => [execNackResend g.gid.tag g.gid.grp t.tid]
  | .barrier k _ =>
    [execBarrierComplete g.gid.tag k (match k with
      | .group => g.gid.grp
      | .gang => 0
      | .stage => g.stage)]
  | .grow _ _ _ _ => [execReggrowGrant g.gid.tag g.gid.grp, execReggrowFail (coreOf g)]
  | .run => if t.held then [execMeetingRelease g.gid.tag g.gid.grp t.meet] else []
  | _ => []

def warpHaps (g : Group) (w : Warp) : List Hap :=
  (match w.held with
    | some h =>
      (match h.what with
      | .again => []
      | .mtask _ => [execMtaskEnqueue g.gid.tag g.gid.grp w.num]
      | .bldp _ _ => [execBldpReplace g.gid.tag g.gid.grp w.num]
      | .copy _ => [execCopyEnqueue g.gid.tag g.gid.grp w.num])
    | none => []) ++
  (if fairnessDue g w then [execFairnessMove g.gid.tag g.gid.grp w.num] else [])

/-- The cores of a group's die, for a resumption. -/
def dieCores (g : Group) : List Nat := (List.range 128).map fun i => 128 * (coreOf g / 128) + i

/-- Whether a queue of a die waits for room; only then is a group swapped out of itself (log 3). -/
def queueWaits (s : State) (die : Nat) : Bool := (dieOf s die).queues.any fun (_, q) => q.blk

def groupHaps (s : State) (g : Group) : List Hap :=
  (((List.range g.slots.length).filter (ctxloadDue g)).map fun d => execCtxloadDone g.gid.tag g.gid.grp d) ++
  (g.threads.map (threadHaps g)).flatten ++ (g.warps.map (warpHaps g)).flatten ++
  [execGroupComplete g.gid.tag g.gid.grp, execHelperResume g.gid.tag g.gid.grp] ++
  (if adoptionDue s g then [execAdoption g.gid.tag g.gid.grp] else []) ++
  (if onCore g || g.place == .done then [] else (dieCores g).map fun c => execGroupResume g.gid.tag g.gid.grp c) ++
  (if queueWaits s (coreOf g / 128) then [execSwapOut g.gid.tag g.gid.grp] else [])

def gangHaps (s : State) (x : Gang) : List Hap :=
  (if signalLeft s x then [execPreemptSignal x.tag] else []) ++
  [execPreemptDeadline x.tag, execProgressTimeout x.tag, execGangComplete x.tag]

def hamHaps (k : Nat) (h : Hamlet) : List Hap :=
  execTaskIssue k ::
  ((List.range 2).map fun m =>
    (match (h.mill m).run with
      | some _ => [execZeroStep k m, execKStep k m, execLoadAddStep k m, execEpilogueStep k m]
      | none => [])).flatten ++
  (h.queue.map fun t => execTaskCompletion k t.id) ++
  ((List.range 2).filterMap fun m => (h.mill m).run.map fun r => execTaskCompletion k r.task.id) ++
  (h.copies.map fun c =>
    ((List.range (c.units.length + 1)).map fun u => execCopyUnit k c.id u) ++ [execCopyCompletion k c.id]).flatten

def streamHaps (n : Nat) : List Hap :=
  [execStreamResetDrain n, execOverflowHoldEnd n, execArgBlockWrite n, execLaunchEnqueue n, execBarrierRecordDone n, execBarrierRecord n,
   execEventOffer n]

def dieHaps (d : Nat) : List Hap := [execDeadlineEdge d, execInvariantExpiry d, execGangCommit d, execLotteryDraw d]

def portHaps (s : State) : List Hap :=
  if s.host.port.go then
    [execPortLoad, execPortArm, execPortDisarm, execPortDisarmFree, execPortSave, execPortSaveStop, execPortRestore, execPortReservedOp]
  else []

def windowHaps (s : State) : List Hap :=
  (s.mm.windows.filterMap fun (w, x) =>
    if x.busy then some (if x.en then execWindowEnableDone w else execWindowDisableDone w) else none) ++
  (if s.mm.xliCtl.getLsbD 31 then [execXliDone] else [])

/-- The bolter word that runs next. -/
def boltHaps (s : State) : List Hap :=
  match bctxOf s with
  | some c => ((accepted (decodeBolter (boltCode c.img c.b.word))).map exec).toList
  | none => []

def replyHap (s : State) (r : Req) : Hap :=
  if r.store then execStoreAcknowledgement r.gid.tag r.gid.grp ((r.lanes.head?.map (·.tid)).getD 0)
  else if (groupOf s r.gid).any onCore then execLoadReply r.id
  else execDepositArrival r.id

/-- What can happen of itself, in the order in which the model takes it where the agenda names nothing: pending times come
before the events of the streams, so that they are not late (16 R276). -/
def happenings (s : State) : List Hap :=
  boltHaps s ++
  (s.fab.strels.map fun h => execStrelApply h.id) ++
  (distinct (s.errs.map (·.id))).map execDeferredError ++
  (s.reqs.map (replyHap s)) ++
  (s.groups.map (groupHaps s)).flatten ++
  (s.gangs.map (gangHaps s)).flatten ++
  (s.hams.map fun (k, h) => hamHaps k h).flatten ++
  (s.dies.map fun (d, _) => dieHaps d).flatten ++
  (s.streams.map fun (n, _) => streamHaps n).flatten ++
  windowHaps s ++ portHaps s

/-- Whether it changes anything but the counter of free values. -/
def changes (s : State) (h : Hap) : Bool :=
  match h s with
  | .next s' => decide ({ s' with sch := { s'.sch with free := s.sch.free } } ≠ s)
  | _ => true

/-! ## The choice -/

/-- What a step does: it runs an instruction or a happening, or it only goes on to a state. -/
inductive Act where
  | exec (h : Hap) (s : State) (skip : Option (Gid × Nat))
  | pass (s : State)

/-- The turn of a warp as an act. -/
def actOf (s : State) (g : Group) (w : Warp) : Option Act :=
  match warpTurn s g w with
  | .none => none
  | .line s' => some (.pass s')
  | .run (some i) _ s' ranOn => some (.exec (exec i) s' (if ranOn then some (g.gid, w.num) else none))
  | .run none gd s' _ => some (.pass (illegalOp gd s'))

/-- The warps of the device, each with its group. -/
def allWarps (s : State) : List (Group × Warp) :=
  ((s.groups.filter onCore).map fun g => g.warps.map fun w => (g, w)).flatten

/-- The first warp, from the rotation on, that has a turn; the rotation goes on after it. -/
def rotate (s : State) : Act :=
  let ws := allWarps s
  let from_ := if ws.isEmpty then 0 else s.sch.rot % ws.length
  let order := ws.drop from_ ++ ws.take from_
  let s1 := { s with sch := { s.sch with rot := from_ + 1 } }
  match order.findSome? fun (g, w) => actOf s1 g w with
  | some a => a
  | none => .pass s

/-- The act of a warp of a core that the agenda names. -/
def issueOn (s : State) (core warp : Nat) : Act :=
  match (allWarps s).find? fun (g, w) => g.place = .core core && w.num = warp with
  | some (g, w) => (actOf s g w).getD (.pass s)
  | none => .pass s

/-- Whether an instruction is a happening: it has no encoding. -/
def isHappening (i : Instr) : Bool := (encode i).isEmpty

/-- The next act: the agenda's first choice, or the first happening that changes something, or a warp's turn (log 3). -/
def nextAct (s : State) : Act :=
  match s.sch.agenda with
  | c :: rest =>
    let s1 := { s with sch := { s.sch with agenda := rest, cur := none } }
    match c with
    | .happen i => if isHappening i then .exec (exec i) s1 none else .pass s1
    | .issue core warp => issueOn s1 core warp
    | .upset u => .pass (upsetNow u s1)
    | .idle => .pass s1
  | [] =>
    let s1 := { s with sch := { s.sch with cur := none } }
    match (happenings s1).find? (changes s1) with
    | some h => .exec h s1 none
    | none => rotate s1

/-! ## Words placed for a fetch (log 2) -/

/-- The line that holds some parcels from parcel 0 on and `NOP_S` after them, with its parity. -/
def lineOf (ps : List W32) : Bytes :=
  let payload := (ps.map le32).flatten ++ zeros (60 - 4 * ps.length)
  let n := leNat payload
  let par := (List.range 8).foldl (fun v i => if parityBit n i then v + 2 ^ (15 + i) else v) 0
  payload ++ natLe 4 par

/-- The address that an instruction is placed at: the second 64 KiB page of die 0's first channel. -/
def placeAddr : Nat := 65536

/-- The group that fetches a placed instruction: one thread on core 0. -/
def placedGroup : Group where
  gid := ⟨1, 0⟩
  stage := 0
  role := 0
  nthr := 1
  width := 32
  asn := 0
  arg := 0#64
  place := .core 0
  lastCore := 0
  n := 64
  g := 64
  ns := 64
  fair := 2048
  cthr := 16
  xsave := 0#64
  xhand := 0#64
  slots := List.replicate 16 .idle
  threads := [newThread 0 (BitVec.ofNat 64 placeAddr) 0]
  warps := [newWarp 0 (homeSlots [0] 0) [] [] .start]
  deadline := none
  keep := none
  full := false
  derr := none
  pend := 0
  saveHold := none
  record := none
  depth := 0
  helper := none
  searched := false
  strel := []
  puts := []
  present := []
  saving := none
  chosen := none
  helpq := none
  spare := 0

/-- Stores the parcels of a core instruction where core 0 fetches next, and names its warp for the next issue; nothing
that the group or the line had before stands in the way. -/
def placeCore (s : State) (ps : List W32) : State :=
  { s with
    sch := { s.sch with agenda := [.issue 0 0] }
    groups := placedGroup :: s.groups.filter fun g => g.gid != placedGroup.gid
    gangs := s.gangs.filter fun x => x.tag != placedGroup.gid.tag
    reqs := s.reqs.filter fun r => r.gid != placedGroup.gid
    errs := s.errs.filter fun e => e.gid != placedGroup.gid
    host := { s.host with
      ready := .channel (channelOf placeAddr) :: s.host.ready
      failed := s.host.failed.filter fun f => f != .channel (channelOf placeAddr) }
    mm := { s.mm with
      mem := ((lineOf ps).zipIdx).foldl (fun m (b, i) => tset 0#8 m (placeAddr + i) b) s.mm.mem
      poison := s.mm.poison.filter fun g => g * 32 / 64 != placeAddr / 64
      icache := s.mm.icache.filter fun l => l.line != placeAddr / 64
      tlb := ⟨0, 0, placeAddr / 65536, placeAddr, true, true, false, true⟩ :: s.mm.tlb } }

/-- The record of a task whose E step runs a placed bolter word: one row of one element. -/
def placedTask : Bytes := zeros 128

/-- A bolter image that holds one word at word 0. -/
def placedImage (p : W32) : Bytes := overlay (zeros 256) 0x80 (le32 p)

/-- Gives mill 0 of hamlet 0 a bolter program whose next word is `p`. -/
def placeBolter (s : State) (p : W32) : State :=
  let t : Task := ⟨0, placedTask, 0#64, placedGroup.gid, 0, 0#32, 0#64, 0, 0, [], none, some 0, none⟩
  let r : Run := ⟨t, 0, 0, none, none, some ⟨0, 0, 0, zeroRegs t.n, [], none⟩, none, none, false⟩
  let s1 := updMill s 0 0 fun m => { m with progs := tput m.progs t.bslot (placedImage p), run := some r }
  { s1 with sch := { s1.sch with agenda := [], bolt := some (0, 0) } }

end Sys2Proof.Machine
end

