-- ==== Sys2Proof/Machine/Step.lean ====
section
/-! DEFINITION. One step of the device, and the placing of an instruction where the next step fetches it. -/

namespace Sys2Proof.Machine

open Sys2Proof

/-- Runs an instruction or a happening, then goes on with what follows every choice. -/
def runThen (h : Hap) (s : State) (f : State → State) : Host.Outcome State Fault Refusal :=
  match h s with
  | .next s' => .next (f s')
  | .fault r => .fault r
  | .refused r => .refused r

/-- One step (log 3). -/
def step (s : State) : Host.Outcome State Fault Refusal :=
  match nextAct s with
  | .exec h s' skip => runThen h s' (settle s skip)
  | .pass s' => .next (settle s none s')

/-- Stores a table word where the next step takes its instruction: the parcels of a core instruction in a line that core 0
fetches, or a bolter word in the program that a mill runs (log 2). -/
def State.withFetchWord (s : State) (nbits w : Nat) : State :=
  let v := w % 2 ^ nbits
  let p := BitVec.ofNat 32 v
  match decodeTableWord nbits w with
  | some i =>
    if (bolterWord i).isSome then placeBolter s p
    else placeCore s [p, BitVec.ofNat 32 (v >>> 32), BitVec.ofNat 32 (v >>> 64)]
  | none => placeCore s [p, BitVec.ofNat 32 (v >>> 32), BitVec.ofNat 32 (v >>> 64)]

end Sys2Proof.Machine
end

