-- ==== Sys2Proof/Safety.lean ====
section
/-! DEFINITION. The terms that the claims use: the invariant of memory, an instruction that issues with legal operands, what
an instruction gives its threads, and what it leaves. -/

namespace Sys2Proof.Machine

open Sys2Proof

/-! ## The invariant -/

/-- Memory is in canonical form, and only lines of host memory hold deferred bytes (11 R217). -/
def MemSys.Inv (mm : MemSys) : Prop := Memory.wf mm.mem = true ∧ ∀ x ∈ mm.deferred, isHostLoc x.1 = true

def State.Inv (s : State) : Prop := s.mm.Inv

/-! ## Instructions that issue -/

/-- An instruction meets context `c`: a thread is active, and no row of 04 Table 4.11 makes its encoding illegal. -/
structure Arrives (s : State) (i : Instr) (g : BitVec 5) (c : Ctx) : Prop where
  ctx : ctxOf s g = some c
  act : c.act.isEmpty = false
  wf  : i.wf = true

/-- An instruction issues with context `c`, and no active thread reads a register with an uncorrectable error (27 R400). -/
structure Issues (s : State) (i : Instr) (g : BitVec 5) (c : Ctx) : Prop extends Arrives s i g c where
  sound : ∀ t ∈ c.act, readsBad i t = false

/-- Legal operands: a destination of width `wd`, and the sources with their widths (04 R58, R64). -/
def Legal (c : Ctx) (f : LongForm) (wd : Bool) (srcs : List (BitVec 9 × Bool)) : Prop :=
  dstOk c wd f.dst = true ∧ ∀ x ∈ srcs, srcOk c f.lit x.2 x.1 = true

/-- Legal operands of an instruction that writes a lane mask from sources of one width. -/
def LegalMask (c : Ctx) (f : LongForm) (srcs : List (BitVec 9 × Bool)) : Prop :=
  maskDstOk f.dst = true ∧ ∀ x ∈ srcs, srcOk c f.lit x.2 x.1 = true

/-- The instruction runs and gives each active thread a result of its width. What that does is `ResultEffect`. -/
def Gives (i : Instr) (s : State) (c : Ctx) (f : LongForm) (wide : Bool) (v : Thread → W64) : Prop :=
  ∃ tlo thi, exec i s = .next (c.result s f.dst f.w ⟨wide, v, tlo, thi⟩)

/-- The instruction runs and gives mask `d` of each active thread a bit. What that does is `MaskEffect`. -/
def GivesMask (i : Instr) (s : State) (c : Ctx) (d : Nat) (v : Thread → Bool) : Prop := exec i s = .next (c.masks s d v)

/-- The sources of an instruction in a thread, as words and as pairs. -/
def a32 (f : LongForm) (t : Thread) : W32 := rd32 f.lit f.sa t
def b32 (f : LongForm) (t : Thread) : W32 := rd32 f.lit f.sb t
def c32 (f : LongForm) (t : Thread) : W32 := rd32 f.lit f.sc t
def a64 (f : LongForm) (t : Thread) : W64 := rd64 f.lit f.sa t
def b64 (f : LongForm) (t : Thread) : W64 := rd64 f.lit f.sb t
def c64 (f : LongForm) (t : Thread) : W64 := rd64 f.lit f.sc t

/-- A result of the width of the instruction's type: a word, or a pair. -/
def byWidth (f : LongForm) (v32 : Thread → W32) (v64 : Thread → W64) (t : Thread) : W64 :=
  if wideTy f then v64 t else (v32 t).setWidth 64

/-- One, two and three sources of the instruction's type. -/
def src1 (f : LongForm) : List (BitVec 9 × Bool) := [(f.sa, wideTy f)]
def src2 (f : LongForm) : List (BitVec 9 × Bool) := [(f.sa, wideTy f), (f.sb, wideTy f)]
def src3 (f : LongForm) : List (BitVec 9 × Bool) := [(f.sa, wideTy f), (f.sb, wideTy f), (f.sc, wideTy f)]

/-- An instruction with legal operands of its type gives each active thread a value of its type. -/
def Computes (i : LongForm → Instr) (srcs : LongForm → List (BitVec 9 × Bool)) (s : State) (c : Ctx) (f : LongForm)
    (v : Thread → W64) : Prop :=
  Issues s (i f) f.g c → Legal c f (wideTy f) (srcs f) → Gives (i f) s c f (wideTy f) v

/-- As `Gives`, and `h` is done to each active thread besides. -/
def GivesAnd (i : Instr) (s : State) (c : Ctx) (f : LongForm) (wide : Bool) (v : Thread → W64) (h : Thread → Thread) :
    Prop :=
  ∃ tlo thi, exec i s = .next (c.result s f.dst f.w ⟨wide, v, tlo, thi⟩ h)

/-- A floating-point instruction with legal 32-bit operands gives each active thread an encoding, and ORs conditions into
its flags (08 R141). -/
def ComputesF (i : LongForm → Instr) (srcs : LongForm → List (BitVec 9)) (s : State) (c : Ctx) (f : LongForm)
    (v : Thread → Nat × BitVec 4) : Prop :=
  Issues s (i f) f.g c → Legal c f false ((srcs f).map fun x => (x, false)) →
    GivesAnd (i f) s c f false (fun t => (BitVec.ofNat 32 (v t).1).setWidth 64) fun t => t.flag (v t).2

/-- The sources of such an instruction. -/
def fp1 (f : LongForm) : List (BitVec 9) := [f.sa]
def fp2 (f : LongForm) : List (BitVec 9) := [f.sa, f.sb]
def fp3 (f : LongForm) : List (BitVec 9) := [f.sa, f.sb, f.sc]

/-- Every one of some targets passes the check of 04 R62; the answer is the state after the checks. -/
def targetsPass (g : Group) (mark : Bool) : List W64 → State → Option State
  | [], s => some s
  | pc :: rest, s =>
    match checkTarget s g pc mark with
    | (.ok, s') => targetsPass g mark rest s'
    | _ => none

/-- The distinct targets of the active threads pass the check. -/
def Passes (s : State) (c : Ctx) (mark : Bool) (target : Thread → W64) (s' : State) : Prop :=
  targetsPass c.grp mark (distinct (c.act.map target)) s = some s'

/-- The long form that a short form stands for, its unused fields zero (04 R65). -/
def longForm (g : BitVec 5) (dst : BitVec 8) (sa : BitVec 9) (ty : Nat) : LongForm :=
  ⟨g, dst, false, sa, 0#9, 0#9, BitVec.ofNat 11 (64 * ty), none⟩

/-- Two instructions run alike: one next state, the same for both. -/
def RunAlike (i j : Instr) (s : State) : Prop := ∃ t, exec i s = .next t ∧ exec j s = .next t

/-! ## What is left as it was -/

/-- Everything but the groups is as it was, and so is every group with another name. -/
def OnlyGroup (s s' : State) (g : Gid) : Prop :=
  s' = { s with groups := s'.groups } ∧ ∀ h, h ≠ g → groupOf s' h = groupOf s h

/-- A group but for its threads and the tags of its warps. -/
def SameGroup (x y : Group) : Prop :=
  y = { x with threads := y.threads, warps := y.warps } ∧
  y.warps.map (fun w => { w with tags := [] }) = x.warps.map fun w => { w with tags := [] }

/-- A thread but for its pc, latches and registers. -/
def SameThread (t u : Thread) : Prop := u = { t with pc := u.pc, latches := u.latches, regs := u.regs, rbad := u.rbad }

/-- Every byte of memory outside some locations reads as it did. -/
def SameMemory (s s' : State) (outside : Nat → Prop) : Prop := ∀ l, outside l → homeByte s'.mm l = homeByte s.mm l

/-! ## The guard and the result of a core instruction -/

/-- The guard of a core instruction; a hint ignores its own, and nothing else has one (04 R55, R66). -/
def guardOf : Instr → Option (BitVec 5)
  | .nopS g | .exitS g | .retS g | .yieldS g | .tretS g | .pdoneS g | .grpbarS g | .gangbarS g | .stagebarS g
  | .mwaitS g _ => some g
  | .braS f | .callS f | .meetS f => some f.g
  | .movS f | .notS f | .inegS f | .iabsS f | .popcS f | .clzS f | .brevS f | .srdS f | .swrS f | .kmovS f | .knotS f
  | .kpopS f | .rcpS f | .rsqS f | .sqrtS f => some f.g
  | .bra f | .call f | .meet f => some f.g
  | i => (longOpc i).map fun x => x.2.g

/-- Core instructions with a result: each gives its active threads a register value or a latch (06 R96). -/
def hasResult : Instr → Bool
  | .movS _ | .notS _ | .inegS _ | .iabsS _ | .popcS _ | .clzS _ | .brevS _ | .srdS _ | .kpopS _ | .rcpS _ | .rsqS _
  | .sqrtS _ | .mov _ | .movl _ | .lea _ | .iadd _ | .isub _ | .imul _ | .imulh _ | .imad _ | .idiv _ | .irem _
  | .imin _ | .imax _ | .iabs _ | .ineg _ | .and _ | .or _ | .xor _ | .andn _ | .not _ | .shl _ | .shr _ | .sar _
  | .rol _ | .bfx _ | .bfi _ | .popc _ | .clz _ | .brev _ | .sel _ | .kpop _ | .srd _ | .shape _ | .idx _ | .unif _
  | .fadd _ | .fsub _ | .fmul _ | .ffma _ | .fmin _ | .fmax _ | .fclass _ | .frnd _ | .hadd2 _ | .hmul2 _ | .hfma2 _
  | .dot4 _ | .dot2 _ | .cvt _ _ | .cvts _ _ | .pack4 _ | .unpack4 _ | .rcp _ | .rsq _ | .sqrt _ | .ex2 _ | .lg2 _
  | .sin _ | .cos _ | .tanh _ | .shfl _ | .ballot _ | .matchL _ | .lscan _ | .lred _ | .lfirst _ | .ld _ | .ldg _
  | .lde _ | .atom _ _ | .waitc _ | .fld _ | .mbrecv _ | .mbpeek _ | .helpq _ | .mpoll _ | .binld _ | .cpyq _
  | .netq _ | .amload _ | .amrestore _ => true
  | _ => false

/-- Sources that are legal at their widths. -/
def srcsOk (c : Ctx) (f : LongForm) (l : List (BitVec 9 × Bool)) : Bool := l.all fun x => srcOk c f.lit x.2 x.1

/-- An address: a base of 64 bits and an offset (12 R221). -/
def addrSrcs (f : LongForm) : List (BitVec 9 × Bool) := [(f.sa, true), (f.sb, false)]

/-- A 32-bit source that is one value for the warp. -/
def uniOk (c : Ctx) (f : LongForm) (x : BitVec 9) : Bool := srcOk c f.lit false x && srcUni c false x

/-- A special register that may be read into a destination of its width, and one that may be written (06 Table 6.9). -/
def srdLegal (c : Ctx) (code : BitVec 9) (dst : BitVec 8) : Bool :=
  decide (0x140 ≤ code.toNat ∧ code.toNat < 0x160) && sregReadOk c (code.toNat - 0x140) &&
    dstOk c (sregWide (code.toNat - 0x140)) dst
def swrLegal (c : Ctx) (lit : Option W32) (code : BitVec 9) (dst : BitVec 8) : Bool :=
  sregWriteOk c dst.toNat && srcOk c lit (sregWide dst.toNat) code && c.act.all fun t =>
    !sregReserved dst.toNat (if sregWide dst.toNat then rd64 lit code t else (rd32 lit code t).setWidth 64)

/-- Whether the operands of a core instruction are legal where it issues: the rows of 04 Table 4.11 that give `ILLOPND`, and
what the instruction's own entry asks of its operands under that name. -/
def operandsLegal (s : State) (c : Ctx) : Instr → Bool
  -- a result of the type from sources of the type, or a result of one register
  | .mov f | .iabs f | .ineg f | .not f | .brev f | .unif f | .lfirst f => dstOk c (wideTy f) f.dst && srcsOk c f (src1 f)
  | .iadd f | .isub f | .imul f | .imulh f | .idiv f | .irem f | .imin f | .imax f | .and f | .or f | .xor f | .andn f =>
    dstOk c (wideTy f) f.dst && srcsOk c f (src2 f)
  | .imad f => dstOk c (wideTy f) f.dst && srcsOk c f (src3 f)
  | .shl f | .shr f | .sar f | .rol f | .bfx f => dstOk c (wideTy f) f.dst && srcsOk c f [(f.sa, wideTy f), (f.sb, false)]
  | .bfi f => dstOk c (wideTy f) f.dst && srcsOk c f [(f.sa, wideTy f), (f.sb, wideTy f), (f.sc, false)]
  | .popc f | .clz f | .matchL f => dstOk c false f.dst && srcsOk c f (src1 f)
  | .movl f => dstOk c true f.dst && srcsOk c f [(f.sa, false)] && f.sb == litCode
  | .lea f => dstOk c true f.dst && srcsOk c f [(f.sa, true), (f.sb, false)]
  | .movS f | .notS f | .inegS f | .iabsS f | .popcS f | .clzS f | .brevS f | .rcpS f | .rsqS f | .sqrtS f =>
    dstOk c false f.dst && srcOk c none false f.sa
  | .fclass f | .frnd f | .rcp f | .rsq f | .sqrt f | .ex2 f | .lg2 f | .sin f | .cos f | .tanh f | .lscan f | .lred f
  | .shape f => dstOk c false f.dst && srcsOk c f [(f.sa, false)]
  | .fadd f | .fsub f | .fmul f | .fmin f | .fmax f | .hadd2 f | .hmul2 f | .cvts _ f | .idx f =>
    dstOk c false f.dst && srcsOk c f [(f.sa, false), (f.sb, false)]
  | .ffma f | .hfma2 f | .dot4 f | .dot2 f => dstOk c false f.dst && srcsOk c f [(f.sa, false), (f.sb, false), (f.sc, false)]
  | .cvt _ f => dstOk c (tyWide f.dty) f.dst && srcsOk c f [(f.sa, tyWide f.sty)]
  | .pack4 f => dstOk c false f.dst && decide (f.sa.toNat < 0x100 ∧ f.sa.toNat % 4 = 0 ∧ f.sa.toNat + 3 < c.grp.n) &&
      srcsOk c f [(f.sb, false)]
  | .unpack4 f => decide (f.dst.toNat % 4 = 0 ∧ f.dst.toNat + 3 < c.grp.n) && srcsOk c f [(f.sa, false), (f.sb, false)]
  | .shfl f => dstOk c (wideTy f) f.dst && srcsOk c f [(f.sa, wideTy f), (f.sb, false)] && maskSrcOk f.sc
  -- masks
  | .sel f => dstOk c (wideTy f) f.dst && srcsOk c f (src2 f) && maskSrcOk f.sc
  | .icmp f => maskDstOk f.dst && srcsOk c f (src2 f) && (combOf f == 0 || maskSrcOk f.sc)
  | .fcmp f => maskDstOk f.dst && srcsOk c f [(f.sa, false), (f.sb, false)] && (combOf f == 0 || maskSrcOk f.sc)
  | .kand f | .kor f | .kxor f => maskDstOk f.dst && maskSrcOk f.sa && maskSrcOk f.sb
  | .knot f | .kmov f | .vote f => maskDstOk f.dst && maskSrcOk f.sa
  | .knotS f | .kmovS f => maskDstOk f.dst && maskSrcOk f.sa
  | .kpop f | .ballot f => dstOk c false f.dst && maskSrcOk f.sa
  | .kpopS f => dstOk c false f.dst && maskSrcOk f.sa
  -- special registers and the register budget
  | .srd f => srdLegal c f.sa f.dst
  | .srdS f => srdLegal c f.sa f.dst
  | .swr f => swrLegal c f.lit f.sa f.dst
  | .swrS f => swrLegal c none f.sa f.dst
  | .reggrow f => maskDstOk f.dst && uniOk c f f.sa && budgetOk (uniSrc c f f.sa) &&
      decide (c.grp.n ≤ uniSrc c f f.sa % 2 ^ 9 ∧ c.grp.g ≤ uniSrc c f f.sa / 2 ^ 16 % 2 ^ 9)
  | .regshrink f => uniOk c f f.sa && budgetOk (uniSrc c f f.sa) &&
      decide (uniSrc c f f.sa % 2 ^ 9 ≤ c.grp.n ∧ uniSrc c f f.sa / 2 ^ 16 % 2 ^ 9 ≤ c.grp.g)
  -- control
  | .brx f => srcsOk c f [(f.sa, true)]
  | .ret f => f.op == 0 || srcsOk c f [(f.sa, true)]
  | .trap f => srcsOk c f [(f.sa, false)]
  -- memory
  | .ld f => dstOk c (wideTy f) f.dst && srcsOk c f (addrSrcs f)
  | .lde f => dstOk c false f.dst && srcsOk c f (addrSrcs f)
  | .ldg f => dstOk c (wideTy f) f.dst && srcsOk c f (addrSrcs f) && maskSrcOk f.sc && f.sc != 0
  | .st f | .red _ f | .fset f | .strel f => srcsOk c f (addrSrcs f) && srcsOk c f [(f.sc, wideTy f)]
  | .ste f | .cflush f | .cinv f | .cinvCode f => srcsOk c f (addrSrcs f) && srcsOk c f [(f.sc, false)]
  | .stg f => maskDstOk f.dst && f.dst != 0 && srcsOk c f (addrSrcs f) && srcsOk c f [(f.sc, wideTy f)]
  | .atom _ f => dstOk c (wideTy f) f.dst && srcsOk c f (addrSrcs f) && srcsOk c f [(f.sc, wideTy f)]
  | .waitc f => dstOk c (wideTy f) f.dst && srcsOk c f [(f.sa, true)] && waitCcOk f && srcsOk c f [(f.sc, wideTy f)]
  | .fld f => dstOk c (wideTy f) f.dst && srcsOk c f (addrSrcs f) && maskSrcOk f.sc
  | .mbsend f => maskDstOk f.dst && srcsOk c f (addrSrcs f) && srcsOk c f [(f.sc, false)] &&
      c.act.all fun t => boxWord (boxId f.lit f.sc t)
  | .mbrecv f => dstOk c false f.dst && srcsOk c f (addrSrcs f) && srcsOk c f [(f.sc, false)] && c.act.all (c.recvOk s f)
  | .mbpeek f => dstOk c false f.dst && srcsOk c f [(f.sa, false)] &&
      c.act.all fun t => boxWord (boxId f.lit f.sa t) && boxCore (boxId f.lit f.sa t) / 128 == c.die
  | .xfence f => (pathCode f.sa).isSome && (pathCode f.sb).isSome && pathCode f.sa != pathCode f.sb
  | .pref f | .frecGet f => srcsOk c f (addrSrcs f)
  -- traps and context
  | .ctxsave f => ctxRangeOk c f
  | .ctxsaveKeep f => ctxRangeOk c f && c.act.all fun t => t.hnd && t.xcause.toNat % 2 ^ 8 == 8
  | .ctxload f => slotOk f.dst && ctxRangeOk c f && slotIdle c.grp f.dst.toNat
  | .depwait f => slotOk f.dst && srcsOk c f (addrSrcs f) && addrUni c f && slotIdle c.grp f.dst.toNat
  -- streams and automata
  | .evpost f | .evpostBuf f => srcsOk c f [(f.sa, false), (f.sb, false), (f.sc, true)] &&
      c.act.all fun t => decide ((a32 f t).toNat < 4096 ∧ (b32 f t).toNat ≤ 0xFFFE)
  | .evbar f => maskDstOk f.dst && srcsOk c f (addrSrcs f)
  | .amload f | .amrestore f => dstOk c false f.dst && srcsOk c f (addrSrcs f) && srcsOk c f [(f.sc, false)] &&
      c.act.all fun t => decide ((c32 f t).toNat < 4096)
  | .amarm f | .amdisarm f | .amdisarmFree f => maskDstOk f.dst && srcsOk c f [(f.sa, false)]
  | .amsave f | .amsaveStop f => maskDstOk f.dst && srcsOk c f (addrSrcs f) && srcsOk c f [(f.sc, false)]
  -- launch and ownership
  | .bequeath f => decide (f.sa.toNat < 0x100 ∧ 1 ≤ bqCount c f ∧ bqCount c f ≤ 8 ∧ f.sa.toNat + bqCount c f ≤ c.grp.n) &&
      uniOk c f f.sb && (c.launch s).any fun l => gcfgBqen l.tmpl
  | .ownClaim f | .ownWord f => maskDstOk f.dst && srcsOk c f (addrSrcs f) && srcsOk c f [(f.sc, true)]
  | .ownSelf f => maskDstOk f.dst && srcsOk c f (addrSrcs f) && addrUni c f
  | .ownMbox f => maskDstOk f.dst && srcsOk c f (addrSrcs f) && srcsOk c f [(f.sc, false)] &&
      c.act.all fun t => dieBox c (boxId f.lit f.sc t)
  | .disownClaim f | .disownWord f => maskDstOk f.dst && srcsOk c f (addrSrcs f)
  | .disownSelf f => maskDstOk f.dst
  | .disownMbox f => maskDstOk f.dst && srcsOk c f [(f.sc, false)] && c.act.all fun t => dieBox c (boxId f.lit f.sc t)
  | .helpq f => dstOk c false f.dst && srcsOk c f (addrSrcs f) && addrUni c f
  -- the mill, the carter and the network
  | .mtask f => slotOk f.dst && srcsOk c f (addrSrcs f) && sameAddr c f && slotIdle c.grp f.dst.toNat
  | .mwait f => slotOk f.dst
  | .mwaitS _ d => slotOk d
  | .mpoll f => dstOk c false f.dst && slotSrcOk f.sa
  | .binld f => dstOk c false f.dst && srcsOk c f [(f.sa, false)] && c.act.all fun t => decide ((a32 f t).toNat < 2 ^ 17)
  | .binst f => srcsOk c f [(f.sa, false), (f.sc, false)] && c.act.all fun t => decide ((a32 f t).toNat < 2 ^ 17)
  | .binz f => uniOk c f f.sa && uniOk c f f.sb && binzOk (binzArgs c f).1 (binzArgs c f).2
  | .bldp f => maskDstOk f.dst && srcsOk c f (addrSrcs f) && srcsOk c f [(f.sc, false)] &&
      c.act.all fun t => decide ((c32 f t).toNat < 2 ^ 6)
  | .cpy f | .cpy2 f | .cpyt f | .cpyr f => srcsOk c f (addrSrcs f) && sameAddr c f
  | .cpyq f | .netq f => dstOk c false f.dst
  | _ => true

end Sys2Proof.Machine
end

