-- ==== Sys2Proof/Certificates/Slice0/Obligations.lean ====
section
/-! DEFINITION. The statements for the provers. -/

open Sys2Proof Sys2Proof.Machine

/-! ## Integer instructions (07 R110 to R123) -/

/-- 07 R113 without `.sat`: `IADD`, `ISUB`, `IMUL`, `IMAD`, `INEG` and `IABS` run on every legal operand of every type and
write the exact value's low bits: the wrapping sum, difference, product, product and sum, negation, absolute value. -/
def Obligations.IntegerArithmeticWraps : Prop :=
  ∀ (s : State) (c : Ctx) (f : LongForm), f.op = 0 →
    Computes .iadd src2 s c f (byWidth f (fun t => a32 f t + b32 f t) fun t => a64 f t + b64 f t) ∧
    Computes .isub src2 s c f (byWidth f (fun t => a32 f t - b32 f t) fun t => a64 f t - b64 f t) ∧
    Computes .imul src2 s c f (byWidth f (fun t => a32 f t * b32 f t) fun t => a64 f t * b64 f t) ∧
    Computes .imad src3 s c f (byWidth f (fun t => a32 f t * b32 f t + c32 f t) fun t => a64 f t * b64 f t + c64 f t) ∧
    Computes .ineg src1 s c f (byWidth f (fun t => -a32 f t) fun t => -a64 f t) ∧
    Computes .iabs src1 s c f (byWidth f (fun t => (a32 f t).abs) fun t => (a64 f t).abs)

/-- Each active thread gets the exact integer `x`, clamped to the range of the type. -/
def Clamps (i : LongForm → Instr) (srcs : LongForm → List (BitVec 9 × Bool)) (s : State) (c : Ctx) (f : LongForm)
    (x : Thread → Int) : Prop :=
  Issues s (i f) f.g c → Legal c f (wideTy f) (srcs f) → ∃ v, Gives (i f) s c f (wideTy f) v ∧ ∀ t,
    intOf (tySigned f.ty) (tyBits f.ty) (v t).toNat =
      max (intMin (tySigned f.ty) (tyBits f.ty)) (min (intMax (tySigned f.ty) (tyBits f.ty)) (x t))

/-- 07 R113 with `.sat`: the same instructions clamp the exact value to the range of the type. -/
def Obligations.IntegerArithmeticClamps : Prop :=
  ∀ (s : State) (c : Ctx) (f : LongForm), f.op = 1 →
    Clamps .iadd src2 s c f (fun t => aInt f t + bInt f t) ∧
    Clamps .isub src2 s c f (fun t => aInt f t - bInt f t) ∧
    Clamps .imul src2 s c f (fun t => aInt f t * bInt f t) ∧
    Clamps .imad src3 s c f (fun t => aInt f t * bInt f t + cInt f t) ∧
    Clamps .ineg src1 s c f (fun t => -aInt f t) ∧
    Clamps .iabs src1 s c f (fun t => |aInt f t|)

/-- The high half of the product of two words of a width, signed or unsigned. -/
def highHalf {n : Nat} (signed : Bool) (a b : BitVec n) : BitVec n :=
  let m := n + n
  let p := if signed then a.signExtend m * b.signExtend m else a.setWidth m * b.setWidth m
  (p >>> n).setWidth n

/-- 07 R115: `IDIV` and `IREM` truncate toward zero, a zero divisor gives all ones and the dividend, and nothing is
raised; R114, R116: `IMULH` gives the high half of the exact product, `IMIN` and `IMAX` the smaller and the larger of two
values compared as the type. -/
def Obligations.DivisionHighProductExtrema : Prop :=
  ∀ (s : State) (c : Ctx) (f : LongForm),
    Computes .idiv src2 s c f (byWidth f
      (fun t => if b32 f t = 0 then -1 else if tySigned f.ty then (a32 f t).sdiv (b32 f t) else a32 f t / b32 f t)
      (fun t => if b64 f t = 0 then -1 else if tySigned f.ty then (a64 f t).sdiv (b64 f t) else a64 f t / b64 f t)) ∧
    Computes .irem src2 s c f (byWidth f
      (fun t => if b32 f t = 0 then a32 f t else if tySigned f.ty then (a32 f t).srem (b32 f t) else a32 f t % b32 f t)
      (fun t => if b64 f t = 0 then a64 f t else if tySigned f.ty then (a64 f t).srem (b64 f t) else a64 f t % b64 f t)) ∧
    Computes .imulh src2 s c f (byWidth f (fun t => highHalf (tySigned f.ty) (a32 f t) (b32 f t))
      fun t => highHalf (tySigned f.ty) (a64 f t) (b64 f t)) ∧
    Computes .imin src2 s c f (byWidth f
      (fun t => if (if tySigned f.ty then (a32 f t).sle (b32 f t) else (a32 f t).ule (b32 f t)) then a32 f t else b32 f t)
      (fun t => if (if tySigned f.ty then (a64 f t).sle (b64 f t) else (a64 f t).ule (b64 f t)) then a64 f t else b64 f t)) ∧
    Computes .imax src2 s c f (byWidth f
      (fun t => if (if tySigned f.ty then (a32 f t).sle (b32 f t) else (a32 f t).ule (b32 f t)) then b32 f t else a32 f t)
      (fun t => if (if tySigned f.ty then (a64 f t).sle (b64 f t) else (a64 f t).ule (b64 f t)) then b64 f t else a64 f t))

/-- An amount of 32 bits beside a source of the type. -/
def amount (f : LongForm) : List (BitVec 9 × Bool) := [(f.sa, wideTy f), (f.sb, false)]

/-- 07 R117 and R118: the bitwise instructions, and the shifts, whose amount is not reduced modulo the width except by
`ROL`. -/
def Obligations.LogicAndShifts : Prop :=
  ∀ (s : State) (c : Ctx) (f : LongForm),
    Computes .and src2 s c f (byWidth f (fun t => a32 f t &&& b32 f t) fun t => a64 f t &&& b64 f t) ∧
    Computes .or src2 s c f (byWidth f (fun t => a32 f t ||| b32 f t) fun t => a64 f t ||| b64 f t) ∧
    Computes .xor src2 s c f (byWidth f (fun t => a32 f t ^^^ b32 f t) fun t => a64 f t ^^^ b64 f t) ∧
    Computes .andn src2 s c f (byWidth f (fun t => a32 f t &&& ~~~b32 f t) fun t => a64 f t &&& ~~~b64 f t) ∧
    Computes .not src1 s c f (byWidth f (fun t => ~~~a32 f t) fun t => ~~~a64 f t) ∧
    Computes .shl amount s c f (byWidth f (fun t => a32 f t <<< (b32 f t).toNat) fun t => a64 f t <<< (b32 f t).toNat) ∧
    Computes .shr amount s c f (byWidth f (fun t => a32 f t >>> (b32 f t).toNat) fun t => a64 f t >>> (b32 f t).toNat) ∧
    Computes .sar amount s c f (byWidth f (fun t => (a32 f t).sshiftRight (b32 f t).toNat)
      fun t => (a64 f t).sshiftRight (b32 f t).toNat) ∧
    Computes .rol amount s c f (byWidth f (fun t => (a32 f t).rotateLeft (b32 f t).toNat)
      fun t => (a64 f t).rotateLeft (b32 f t).toNat)

/-- The position and the length in a control word (07 R119). -/
def posOf (w : W32) : Nat := w.toNat % 256
def lenOf (w : W32) : Nat := w.toNat / 256 % 256

/-- 07 R119, bit by bit: `BFX` extracts `len` bits from `pos` on and extends them by their sign for a signed type, and
`BFI` inserts them. -/
def Obligations.BitFields : Prop :=
  ∀ (s : State) (c : Ctx) (f : LongForm),
    (Issues s (.bfx f) f.g c → Legal c f (wideTy f) (amount f) → ∃ v, Gives (.bfx f) s c f (wideTy f) v ∧
      ∀ t i, i < tyBits f.ty → (v t).getLsbD i =
        (if i < lenOf (b32 f t) then (byWidth f (a32 f) (a64 f) t).getLsbD (posOf (b32 f t) + i)
         else tySigned f.ty && decide (0 < lenOf (b32 f t)) &&
           (byWidth f (a32 f) (a64 f) t).getLsbD (posOf (b32 f t) + lenOf (b32 f t) - 1))) ∧
    (Issues s (.bfi f) f.g c → Legal c f (wideTy f) [(f.sa, wideTy f), (f.sb, wideTy f), (f.sc, false)] →
      ∃ v, Gives (.bfi f) s c f (wideTy f) v ∧ ∀ t i, i < tyBits f.ty → (v t).getLsbD i =
        (if posOf (c32 f t) ≤ i ∧ i < posOf (c32 f t) + lenOf (c32 f t)
         then (byWidth f (a32 f) (a64 f) t).getLsbD (i - posOf (c32 f t))
         else (byWidth f (b32 f) (b64 f) t).getLsbD i))

/-- 07 R120: `POPC` counts one bits, `CLZ` leading zeros (the width for 0), both in one register for either width; `BREV`
reverses the bits. -/
def Obligations.CountsAndReversal : Prop :=
  ∀ (s : State) (c : Ctx) (f : LongForm),
    (Issues s (.popc f) f.g c → Legal c f false (src1 f) → Gives (.popc f) s c f false fun t =>
      BitVec.ofNat 64 (((List.range (tyBits f.ty)).filter fun i => (byWidth f (a32 f) (a64 f) t).getLsbD i).length)) ∧
    (Issues s (.clz f) f.g c → Legal c f false (src1 f) → ∃ v, Gives (.clz f) s c f false v ∧ ∀ t,
      (v t).toNat ≤ tyBits f.ty ∧
      (∀ i, tyBits f.ty - (v t).toNat ≤ i → i < tyBits f.ty → (byWidth f (a32 f) (a64 f) t).getLsbD i = false) ∧
      ((v t).toNat < tyBits f.ty → (byWidth f (a32 f) (a64 f) t).getLsbD (tyBits f.ty - 1 - (v t).toNat) = true)) ∧
    (Issues s (.brev f) f.g c → Legal c f (wideTy f) (src1 f) → ∃ v, Gives (.brev f) s c f (wideTy f) v ∧
      ∀ t i, i < tyBits f.ty →
        (v t).getLsbD i = (byWidth f (a32 f) (a64 f) t).getLsbD (tyBits f.ty - 1 - i))

/-- 07 R110 to R112, R121: `MOV` copies, `MOVL` joins a word and the literal, `LEA` adds a scaled offset to an address
without a check, `SEL` chooses by a mask bit. -/
def Obligations.MovesAddressesSelection : Prop :=
  ∀ (s : State) (c : Ctx) (f : LongForm),
    Computes .mov src1 s c f (byWidth f (a32 f) (a64 f)) ∧
    (Issues s (.movl f) f.g c → Legal c f true [(f.sa, false)] → f.sb = litCode →
      Gives (.movl f) s c f true fun t => (f.lit.getD 0#32) ++ a32 f t) ∧
    (Issues s (.lea f) f.g c → Legal c f true [(f.sa, true), (f.sb, false)] →
      Gives (.lea f) s c f true fun t => a64 f t +
        (if isIntConst f.sb then b64 f t
         else if f.ty = 7 then (b32 f t).signExtend 64 else (b32 f t).setWidth 64) <<< f.op) ∧
    (Issues s (.sel f) f.g c → Legal c f (wideTy f) (src2 f) → f.sc.toNat < 8 →
      Gives (.sel f) s c f (wideTy f) (byWidth f (fun t => if t.mask f.sc.toNat then a32 f t else b32 f t)
        fun t => if t.mask f.sc.toNat then a64 f t else b64 f t))

/-- What a comparison code asks of two words, signed or not (07 R122). -/
def holds {n : Nat} (cc : Nat) (signed : Bool) (a b : BitVec n) : Bool :=
  match cc with
  | 0 => a == b
  | 1 => a != b
  | 2 => if signed then a.slt b else a.ult b
  | 3 => if signed then a.sle b else a.ule b
  | 4 => if signed then b.slt a else b.ult a
  | _ => if signed then b.sle a else b.ule a

/-- Two mask sources. -/
def masksNamed (f : LongForm) (two : Bool) : Prop :=
  f.dst.toNat < 8 ∧ f.sa.toNat < 8 ∧ (two = true → f.sb.toNat < 8)

/-- 07 R122 and R123: `ICMP` writes one bit for each active thread, combined with a mask where asked; the mask
instructions work thread by thread; `KPOP` gives every active thread the number of active threads whose bit is 1. -/
def Obligations.ComparisonsAndMasks : Prop :=
  ∀ (s : State) (c : Ctx) (f : LongForm),
    (Issues s (.icmp f) f.g c → LegalMask c f (src2 f) → (f.op / 8 ≠ 0 → f.sc.toNat < 8) →
      GivesMask (.icmp f) s c f.dst.toNat fun t =>
        let r := if wideTy f then holds (f.op % 8) (tySigned f.ty) (a64 f t) (b64 f t)
          else holds (f.op % 8) (tySigned f.ty) (a32 f t) (b32 f t)
        if f.op / 8 = 1 then r && t.mask f.sc.toNat else if f.op / 8 = 2 then r || t.mask f.sc.toNat else r) ∧
    (Issues s (.kand f) f.g c → masksNamed f true →
      GivesMask (.kand f) s c f.dst.toNat fun t => t.mask f.sa.toNat && t.mask f.sb.toNat) ∧
    (Issues s (.kor f) f.g c → masksNamed f true →
      GivesMask (.kor f) s c f.dst.toNat fun t => t.mask f.sa.toNat || t.mask f.sb.toNat) ∧
    (Issues s (.kxor f) f.g c → masksNamed f true →
      GivesMask (.kxor f) s c f.dst.toNat fun t => t.mask f.sa.toNat != t.mask f.sb.toNat) ∧
    (Issues s (.knot f) f.g c → masksNamed f false →
      GivesMask (.knot f) s c f.dst.toNat fun t => !t.mask f.sa.toNat) ∧
    (Issues s (.kmov f) f.g c → masksNamed f false →
      GivesMask (.kmov f) s c f.dst.toNat fun t => t.mask f.sa.toNat) ∧
    (Issues s (.kpop f) f.g c → Legal c f false [] → f.sa.toNat < 8 →
      Gives (.kpop f) s c f false fun _ => (BitVec.ofNat 32 (c.act.filter fun t => t.mask f.sa.toNat).length).setWidth 64)

/-! ## Short forms (04 R65) -/

/-- 04 R65: every short instruction runs exactly as the long form of its mnemonic, with the type shown and the same guard,
destination, source and offset. -/
def Obligations.ShortFormsRunAsLong : Prop :=
  ∀ (s : State) (g : BitVec 5) (f : ShortForm) (b : ShortBranch),
    RunAlike (.nopS g) (.nop (longForm g 0 0 0)) s ∧
    RunAlike (.exitS g) (.exit (longForm g 0 0 0)) s ∧
    RunAlike (.retS g) (.ret (longForm g 0 0 0)) s ∧
    RunAlike (.yieldS g) (.yield (longForm g 0 0 0)) s ∧
    RunAlike (.tretS g) (.tret (longForm g 0 0 0)) s ∧
    RunAlike (.pdoneS g) (.pdone (longForm g 0 0 0)) s ∧
    RunAlike (.grpbarS g) (.grpbar (longForm g 0 0 0)) s ∧
    RunAlike (.gangbarS g) (.gangbar (longForm g 0 0 0)) s ∧
    RunAlike (.stagebarS g) (.stagebar (longForm g 0 0 0)) s ∧
    RunAlike (.braS b) (.bra ⟨b.g, b.off.signExtend 29⟩) s ∧
    RunAlike (.callS b) (.call ⟨b.g, b.off.signExtend 29⟩) s ∧
    RunAlike (.meetS b) (.meet ⟨b.g, b.off.signExtend 29⟩) s ∧
    RunAlike (.movS f) (.mov (longForm f.g f.dst f.sa 3)) s ∧
    RunAlike (.notS f) (.not (longForm f.g f.dst f.sa 3)) s ∧
    RunAlike (.inegS f) (.ineg (longForm f.g f.dst f.sa 7)) s ∧
    RunAlike (.iabsS f) (.iabs (longForm f.g f.dst f.sa 7)) s ∧
    RunAlike (.popcS f) (.popc (longForm f.g f.dst f.sa 3)) s ∧
    RunAlike (.clzS f) (.clz (longForm f.g f.dst f.sa 3)) s ∧
    RunAlike (.brevS f) (.brev (longForm f.g f.dst f.sa 3)) s ∧
    RunAlike (.srdS f) (.srd (longForm f.g f.dst f.sa 0)) s ∧
    RunAlike (.swrS f) (.swr (longForm f.g f.dst f.sa 0)) s ∧
    RunAlike (.kmovS f) (.kmov (longForm f.g f.dst f.sa 0)) s ∧
    RunAlike (.knotS f) (.knot (longForm f.g f.dst f.sa 0)) s ∧
    RunAlike (.kpopS f) (.kpop (longForm f.g f.dst f.sa 0)) s ∧
    RunAlike (.rcpS f) (.rcp (longForm f.g f.dst f.sa 15)) s ∧
    RunAlike (.rsqS f) (.rsq (longForm f.g f.dst f.sa 15)) s ∧
    RunAlike (.sqrtS f) (.sqrt (longForm f.g f.dst f.sa 15)) s ∧
    RunAlike (.mwaitS g f.dst) (.mwait (longForm g f.dst 0 0)) s

/-! ## Control transfer (07 R125 to R133, 03 R38) -/

/-- 07 R125 to R128: where every distinct target of the active threads passes the check of 04 R62, `BRA`, `BRX`,
`CALL` and `RET` transfer each active thread to its target; a `CALL` pushes an entry, and a `RET` pops down to the topmost
call entry. What a transfer does is `TakenEffect`. -/
def Obligations.TransfersAreTaken : Prop :=
  ∀ (s s' : State) (c : Ctx) (f : LongForm) (b : LongBranch),
    (Issues s (.bra b) b.g c → Passes s c true (fun _ => relTarget c b.off.toInt) s' →
      exec (.bra b) s = .next (c.taken s' (fun _ => relTarget c b.off.toInt) id)) ∧
    (Issues s (.brx f) f.g c → srcOk c f.lit true f.sa = true → Passes s c true (a64 f) s' →
      exec (.brx f) s = .next (c.taken s' (a64 f) id)) ∧
    (Issues s (.call b) b.g c → (∀ t ∈ c.act, t.stack.length < 32) →
      Passes s c true (fun _ => relTarget c b.off.toInt) s' →
      exec (.call b) s = .next (c.taken s' (fun _ => relTarget c b.off.toInt) fun t =>
        { t with stack := t.stack ++ [⟨t.meet, c.cur.next, false⟩] })) ∧
    (Issues s (.ret f) f.g c → (f.op = 0 ∨ srcOk c f.lit true f.sa = true) →
      (∀ t ∈ c.act, ∃ e ∈ t.stack, e.meet = false) →
      ∀ target : Thread → W64,
        (∀ t, target t = if f.op = 1 then a64 f t else ((popCall t).map fun e => e.1.addr).getD 0) →
        Passes s c true target s' →
        exec (.ret f) s = .next (c.taken s' target fun t =>
          match popCall t with
          | some (e, below) => { t with stack := below, meet := e.smeet }
          | none => t))

/-- 07 R128: the entry that `RET` pops to is the topmost call entry, and the stack keeps what lies below it. -/
def Obligations.ReturnPopsTopmostCall : Prop :=
  ∀ (t : Thread) (below above : List CsEntry) (e : CsEntry), t.stack = below ++ e :: above → e.meet = false →
    (∀ x ∈ above, x.meet = true) → popCall t = some (e, below)

/-- A warp that branches with `fair` 0 gives up the issue address that a `YIELD` gave one of its sets (03 R37). -/
def givesUp (c : Ctx) (g : Group) : Group :=
  if g.fair = 0 then
    { g with warps := g.warps.map fun w => if w.num = c.cur.warp then { w with moved := [] } else w }
  else g

/-- A set that a transfer has parted: the active threads at their targets, the others at the next address, the latches of the
whole set empty. -/
abbrev parted (s : State) (c : Ctx) (target : Thread → W64) (h : Thread → Thread) : State :=
  updGroup s c.cur.gid fun g => givesUp c (modThreads c.setTids (fun t =>
    if t.tid ∈ c.act.map (·.tid) then { h t with pc := target t, latches := [] }
    else { t with pc := c.cur.next, latches := [] }) g)

/-- 06 Table 6.6, 07 R125, 03 R33, R37, 06 R95: a transfer sets the active threads' pc to their targets, the others' to the next
address, empties the latches of the whole set, gives up, with `fair` 0, the issue address that a `YIELD` gave the set, and, in a
group whose compaction is off, changes nothing else. Where it is on and the live threads of the set now stand at more than one
address, each of these addresses, from the lowest on, is compacted: where the set has fewer threads there than the threshold,
the threads of every warp that has fewer there are gathered in the order of `tid` into fresh warps of 32. A fresh warp is formed
while the core has a free warp and its storage and the merged tags leave no more `gen` registers than the budget; then its threads
leave their warps, and those warps' latches are empty. Each 32 threads are tried on their own (log 92), and the fresh warp takes
the lowest free number (log 87). -/
def Obligations.TakenEffect : Prop :=
  (∀ (s : State) (c : Ctx) (target : Thread → W64) (h : Thread → Thread) (g : Group) (pcs : List W64),
    groupOf (parted s c target h) c.cur.gid = some g → pcs.Pairwise (fun p q => p.toNat < q.toNat) →
    (∀ p, p ∈ pcs ↔ ∃ t ∈ g.threads, t.tid ∈ c.setTids ∧ t.live = true ∧ t.pc = p) →
    c.taken s target h = if g.cthr = 0 ∨ pcs.length < 2 then parted s c target h
      else pcs.foldl (fun s pc => compactAt s c.cur.gid c.setTids pc) (parted s c target h)) ∧
  (∀ (s : State) (gid : Gid) (g : Group) (mine tids : List Nat) (pc : W64) (n : Nat), groupOf s gid = some g →
    n = (g.threads.filter fun t => t.tid ∈ mine ∧ t.runnable = true ∧ t.pc = pc).length →
    tids = (g.threads.filter fun t => ∃ w ∈ g.warps, t.tid ∈ runnableAt g w pc ∧ (runnableAt g w pc).length < g.cthr).map
      (·.tid) →
    compactAt s gid mine pc = if n = 0 ∨ g.cthr ≤ n then s
      else unblockFreed s (freshWarps32 gid (parts32 32 tids) s) (coreOf g)) ∧
  ∀ (s : State) (gid : Gid) (g : Group) (tids : List Nat), groupOf s gid = some g →
    let src := g.warps.filter fun w => w.tids.any (tids.contains ·)
    let tags := tableOfTags g.n (mergeTag g (owedOf s g tids) src tids)
    (freeSlots s (coreOf g) = 0 ∨ freeStorage s (coreOf g) < 8 * g.n + 128 * g.g ∨ g.g < (genRegs tags).length →
      freshWarp s gid tids = none) ∧
    (0 < freeSlots s (coreOf g) → 8 * g.n + 128 * g.g ≤ freeStorage s (coreOf g) → (genRegs tags).length ≤ g.g →
      ∃ s' w, freshWarp s gid tids = some s' ∧ OnlyGroup s s' gid ∧ w.slots = (List.range 32).map (fun i => tids[i]?) ∧
        w.num ∉ usedNums s (coreOf g) ∧ w.tags = tags ∧ groupOf s' gid = some { g with
          warps := takeOut tids g.warps ++ [w]
          threads := g.threads.map fun t => if ∃ x ∈ src, t.tid ∈ x.tids then { t with latches := [] } else t })

/-- What the checks of the distinct targets of the active threads answer, in the order of the lowest `tid` that goes there. -/
def Checked (s : State) (c : Ctx) (target : Thread → W64) (rs : List (W64 × TargetRes)) (s' : State) : Prop :=
  (distinct (c.act.map target)).foldl (fun acc pc =>
    (acc.1 ++ [(pc, (checkTarget acc.2 c.grp pc true).1)], (checkTarget acc.2 c.grp pc true).2)) ([], s) = (rs, s')

/-- Where targets fail their checks: with a class other than 3 the threads whose targets fail so take the fault of the lowest
`tid` among them at the instruction, each with its target recorded; where all that fail meet class 3, those are held at the
instruction for the target lines. No thread is transferred. -/
def TargetsFail (i : Instr) (s : State) (c : Ctx) (target : Thread → W64) : Prop :=
  ∀ rs s', Checked s c target rs s' →
    (∀ (bad : List Thread) (t0 : Thread) (cls cause : Nat),
      bad = (c.act.filter fun t => match rs.lookup (target t) with
        | some (.fault k _) => k != 3
        | _ => false) →
      bad.head? = some t0 → rs.lookup (target t0) = some (.fault cls cause) →
      exec i s = .next (c.trap s' cls cause (bad.map fun t => (t.tid, target t, 0)))) ∧
    ((∀ t ∈ c.act, ∀ k e, rs.lookup (target t) = some (.fault k e) → k = 3) →
      (∃ t ∈ c.act, ∃ e, rs.lookup (target t) = some (.fault 3 e)) →
      exec i s = .next (hold3 s' c.grp c.cur.pc 2 (c.act.filterMap fun t => match rs.lookup (target t) with
        | some (.fault _ e) => some ⟨t.tid, e, target t &&& ~~~63⟩
        | _ => none)))

/-- 04 R62, 07 R126, 10 R202: where targets of `BRA`, `BRX`, `CALL` or `RET` fail their checks, the threads with failing targets
take the fault, or are held where the target line meets a class 3 condition, and nothing is transferred. -/
def Obligations.FailedTargetTraps : Prop :=
  ∀ (s : State) (c : Ctx) (f : LongForm) (b : LongBranch),
    (Issues s (.bra b) b.g c → TargetsFail (.bra b) s c fun _ => relTarget c b.off.toInt) ∧
    (Issues s (.call b) b.g c → (∀ t ∈ c.act, t.stack.length < 32) →
      TargetsFail (.call b) s c fun _ => relTarget c b.off.toInt) ∧
    (Issues s (.brx f) f.g c → srcOk c f.lit true f.sa = true → TargetsFail (.brx f) s c (a64 f)) ∧
    (Issues s (.ret f) f.g c → (f.op = 0 ∨ srcOk c f.lit true f.sa = true) → (∀ t ∈ c.act, ∃ e ∈ t.stack, e.meet = false) →
      TargetsFail (.ret f) s c fun t => if f.op = 1 then a64 f t else ((popCall t).map fun e => e.1.addr).getD 0)

/-- 07 R124: a push onto a full stack and a pop without the entry trap the active threads with `STKOVF` and `STKUNF`, in
place of any fault of the target. -/
def Obligations.StackFaults : Prop :=
  ∀ (s : State) (c : Ctx) (f : LongForm) (b : LongBranch),
    (Issues s (.call b) b.g c → (∃ t ∈ c.act, 32 ≤ t.stack.length) → exec (.call b) s = .next (c.trapAct s 0x03)) ∧
    (Issues s (.meet b) b.g c →
      (∃ t ∈ c.act, 32 ≤ t.stack.length ∧ ¬ (t.meet = relTarget c b.off.toInt ∧
        ∃ e, t.stack.getLast? = some e ∧ e.meet = true ∧ e.addr = relTarget c b.off.toInt)) →
      exec (.meet b) s = .next (c.trapAct s 0x03)) ∧
    (Issues s (.ret f) f.g c → (f.op = 0 ∨ srcOk c f.lit true f.sa = true) →
      (∃ t ∈ c.act, ∀ e ∈ t.stack, e.meet = true) → exec (.ret f) s = .next (c.trapAct s 0x04))

/-- 07 R129, R131, R132, R38, 04 R66: `MEET` pushes an entry once for a meeting address, `NOP` and the hints only move on,
`YIELD` gives the warp's issue address to the next set, and to none
where the warp holds no other address, and `EXIT` ends the active threads, which lose their stack, registers and masks and
leave their warps. -/
def Obligations.MeetNopYieldExit : Prop :=
  ∀ (s : State) (c : Ctx) (f : LongForm) (b : LongBranch) (g : BitVec 5),
    (Issues s (.meet b) b.g c → (∀ t ∈ c.act, t.stack.length < 32) →
      exec (.meet b) s = .next (c.done s fun t =>
        if t.meet = relTarget c b.off.toInt ∧
          (∃ e, t.stack.getLast? = some e ∧ e.meet = true ∧ e.addr = relTarget c b.off.toInt) then t
        else { t with
          stack := t.stack ++ [⟨t.meet, relTarget c b.off.toInt, true⟩], meet := relTarget c b.off.toInt })) ∧
    (Issues s (.nop f) f.g c → exec (.nop f) s = .next (c.done s id)) ∧
    (∀ h x, ctxOf s 0 = some c → exec (.hintS g h x) s = .next (c.done s id)) ∧
    (∀ h x lit, ctxOf s 0 = some c → exec (.hintL g h x lit) s = .next (c.done s id)) ∧
    (∀ others, others = addressesOf ((runnables c.grp c.warp).filter fun t => t.tid ∉ c.setTids) →
      Issues s (.yield f) f.g c →
      ((∀ p ∈ others, p = c.cur.pc) → exec (.yield f) s = .next (c.done s id)) ∧
      ((∃ p ∈ others, p ≠ c.cur.pc) → ∃ pc ∈ others, moveTarget others c.cur.pc = some pc ∧
        exec (.yield f) s = .next (giveAddress (c.done s id) c.cur.gid c.cur.warp pc))) ∧
    (Issues s (.exit f) f.g c → exec (.exit f) s =
      .next (keptSave (progress (unblockFreed s (c.upd (c.done s id) (exitThreads c.actTids)) c.core) c.grp) c.cur.gid)) ∧
    ∀ (tids : List Nat) (x : Group),
      (∀ t ∈ (exitThreads tids x).threads, t.tid ∈ tids →
        t.wait = .exited ∧ t.stack = [] ∧ t.regs = [] ∧ t.k = 0 ∧ t.latches = []) ∧
      (∀ w ∈ (exitThreads tids x).warps, w.tids ≠ [] ∧ ∀ t ∈ w.tids, t ∉ tids) ∧
      (∀ t ∈ x.threads, t.tid ∉ tids → t ∈ (exitThreads tids x).threads)

/-- A special register as an operand code (04 Table 4.7). -/
def sregNamed (f : LongForm) : Nat := f.sa.toNat - 0x140

/-- 07 R133, 06 R103, R104: `SRD` gives each active thread the special register that its code names, 24 to 31 in handler
mode only, and `SWR` writes a writable one: per thread its own value, per group the value of the highest active `tid`. -/
def Obligations.SpecialRegisters : Prop :=
  ∀ (s : State) (c : Ctx) (f : LongForm),
    (Issues s (.srd f) f.g c → 0x140 ≤ f.sa.toNat →
      (sregNamed f ≤ 17 ∨ (24 ≤ sregNamed f ∧ sregNamed f ≤ 31 ∧ ∀ t ∈ c.act, t.hnd = true)) →
      dstOk c (sregWide (sregNamed f)) f.dst = true →
      Gives (.srd f) s c f (sregWide (sregNamed f)) (sregVal s c (sregNamed f))) ∧
    (Issues s (.swr f) f.g c → srcOk c f.lit true f.sa = true →
      (f.dst.toNat = 6 → exec (.swr f) s = .next (c.done s fun t => { t with meet := a64 f t })) ∧
      ((∀ t ∈ c.act, t.hnd = true) →
        (f.dst.toNat = 25 → exec (.swr f) s = .next (c.done s fun t => { t with xpc := a64 f t })) ∧
        (f.dst.toNat = 31 → exec (.swr f) s = .next (c.done s fun t => { t with xscr := a64 f t })) ∧
        (f.dst.toNat = 29 → ∀ t, c.act.getLast? = some t →
          exec (.swr f) s = .next (c.upd (c.done s id) fun g => { g with xhand := a64 f t })))) ∧
    (Issues s (.swr f) f.g c → srcOk c f.lit false f.sa = true →
      (f.dst.toNat = 16 → (∀ t ∈ c.act, (a32 f t).toNat < 16) →
        exec (.swr f) s = .next (c.done s fun t => { t with fflag := (a32 f t).setWidth 4 })) ∧
      (f.dst.toNat = 14 → (∀ t ∈ c.act, a32 f t &&& 0xFC0E0000 = 0) → ∀ t, c.act.getLast? = some t →
        exec (.swr f) s = .next (c.upd (c.done s id) fun g => { g with
          fair := (if (a32 f t).toNat % 2 ^ 17 = 0 then 0 else max 256 (min 65536 ((a32 f t).toNat % 2 ^ 17)))
          cthr := min 32 ((a32 f t).toNat / 2 ^ 20 % 64) })))

/-- The budget word of a request: a `uni` source that names legal budgets (07 R134). -/
def BudgetNamed (c : Ctx) (f : LongForm) (b : Nat) : Prop :=
  srcOk c f.lit false f.sa = true ∧ srcUni c false f.sa = true ∧ uniSrc c f f.sa = b ∧ budgetOk b = true

/-- 07 R134, R135, 06 R105: `REGGROW` that fits, with no pending request of another group of the core that fits as well,
grants the budget at once and sets `kD`, one that no core could meet clears `kD`, and any other puts every runnable thread
of the group that no held instruction keeps in the grow state with its place in the order of issue, of which the requesting
ones name `kD` and the others `k0`, which no write changes; `REGSHRINK` shrinks the budget at once. -/
def Obligations.RegisterBudget : Prop :=
  ∀ (s : State) (c : Ctx) (f : LongForm) (b : Nat),
    (Issues s (.reggrow f) f.g c → f.dst.toNat < 8 → BudgetNamed c f b → c.grp.n ≤ b % 512 → c.grp.g ≤ b / 65536 % 512 →
      ¬ (b % 512 = c.grp.n ∧ b / 65536 % 512 = c.grp.g) →
      (growHopeless c.grp (b % 512) (b / 65536 % 512) = true →
        exec (.reggrow f) s = .next (c.masks s f.dst.toNat fun _ => false)) ∧
      (growHopeless c.grp (b % 512) (b / 65536 % 512) = false → growFits s c.grp (b % 512) (b / 65536 % 512) = true →
        (∀ x ∈ residents s (coreOf c.grp), x.gid ≠ c.grp.gid → ∀ n q, pendingGrow x = some (n, q) → growFits s x n q = false) →
        exec (.reggrow f) s = .next (c.upd (c.masks s f.dst.toNat fun _ => true) fun g =>
          { g with n := b % 512, g := b / 65536 % 512 })) ∧
      (growHopeless c.grp (b % 512) (b / 65536 % 512) = false →
        (growFits s c.grp (b % 512) (b / 65536 % 512) = false ∨ ∃ x ∈ residents s (coreOf c.grp), x.gid ≠ c.grp.gid ∧
          ∃ n q k, pendingGrow x = some (n, q) ∧ growSince x = some k ∧ growFits s x n q = true) →
        exec (.reggrow f) s = .next (c.upd (freshId s).2 fun g => { g with
          threads := g.threads.map fun t =>
            if t.runnable = true ∧ inHeld c.grp t.tid = false then
              { t with
                wait := .grow (b % 512) (b / 65536 % 512) (if t.tid ∈ c.act.map (·.tid) then f.dst.toNat else 0) (freshId s).1
                wnext := if t.tid ∈ c.setTids then c.cur.next else t.pc }
            else t }))) ∧
    (Issues s (.reggrow f) f.g c → f.dst.toNat < 8 → BudgetNamed c f b → b % 512 = c.grp.n → b / 65536 % 512 = c.grp.g →
      exec (.reggrow f) s = .next (c.masks s f.dst.toNat fun _ => true)) ∧
    (Issues s (.regshrink f) f.g c → BudgetNamed c f b → b % 512 ≤ c.grp.n → b / 65536 % 512 ≤ c.grp.g →
      exec (.regshrink f) s =
        .next (unblockFreed s (c.upd (c.done s id) (shrinkGroup (b % 512) (b / 65536 % 512))) c.core))

/-- 07 R136 to R138: `SHAPE` copies a word, `IDX` gives base + stride × `tid`, `UNIF` broadcasts the value of the lowest
active thread. -/
def Obligations.ShapesAndBroadcast : Prop :=
  ∀ (s : State) (c : Ctx) (f : LongForm),
    (Issues s (.shape f) f.g c → Legal c f false [(f.sa, false)] → Gives (.shape f) s c f false fun t => (a32 f t).setWidth 64) ∧
    (Issues s (.idx f) f.g c → Legal c f false [(f.sa, false), (f.sb, false)] →
      Gives (.idx f) s c f false fun t => (a32 f t + b32 f t * BitVec.ofNat 32 t.tid).setWidth 64) ∧
    (∀ t, c.act.head? = some t →
      Computes .unif src1 s c f fun _ => byWidth f (a32 f) (a64 f) t)

/-! ## What a result, a mask and a plain advance do (06 R94, R96, 04 R63) -/

/-- 06 R94, R96, 07 R109: an instruction with a result advances the latches of the whole issuing set, empty in its inactive
threads; it writes the destination of the active threads only, and not even that with `_`; it moves the set on; and it
changes no other thread, register, mask, special register, group, and no memory. -/
def Obligations.ResultEffect : Prop :=
  ∀ (s : State) (c : Ctx) (d : BitVec 8) (w : Bool) (r : Result) (h : Thread → Thread),
    OnlyGroup s (c.result s d w r h) c.cur.gid ∧
    ∀ g, groupOf s c.cur.gid = some g → ∃ g', groupOf (c.result s d w r h) c.cur.gid = some g' ∧ SameGroup g g' ∧
      g'.threads = g.threads.map fun t =>
        if t.tid ∈ c.set.map (·.tid) then
          if t.tid ∈ c.act.map (·.tid) then
            let u := { h t with latches := (some (r.latch t) :: (h t).latches).take 8, pc := c.cur.next }
            if w then u else u.write d.toNat r.wide (r.val t)
          else { t with latches := (none :: t.latches).take 8, pc := c.cur.next }
        else t

/-- 06 R94: writing a register or a pair changes it and no other register, mask or special register of the thread; a register
that is written is good again, and no other one (27 R400, log 106). -/
def Obligations.RegisterWriteFrame : Prop :=
  ∀ (t : Thread) (d : Nat) (wide : Bool) (v : W64),
    (t.write d wide v).reg d = v.setWidth 32 ∧
    (wide = true → (t.write d wide v).reg (d + 1) = (v >>> 32).setWidth 32) ∧
    (∀ r, r ≠ d → (wide = true → r ≠ d + 1) → (t.write d wide v).reg r = t.reg r) ∧
    t.write d wide v = { t with regs := (t.write d wide v).regs, rbad := (t.write d wide v).rbad } ∧
    ∀ r, r ∈ (t.write d wide v).rbad ↔ r ∈ t.rbad ∧ r ≠ d ∧ (wide = true → r ≠ d + 1)

/-- 04 R58, 07 R109, R123: an instruction whose destination is a mask writes it in the active threads only, discards a
write of `k0`, moves the set on, and changes no other mask, register, group, and no memory. -/
def Obligations.MaskEffect : Prop :=
  ∀ (s : State) (c : Ctx) (d : Nat) (v : Thread → Bool),
    OnlyGroup s (c.masks s d v) c.cur.gid ∧
    (∀ g, groupOf s c.cur.gid = some g → ∃ g', groupOf (c.masks s d v) c.cur.gid = some g' ∧
      g' = { g with threads := g'.threads } ∧
      g'.threads = g.threads.map fun t =>
        let u := if t.tid ∈ c.act.map (·.tid) then t.setMask d (v t) else t
        if t.tid ∈ c.set.map (·.tid) then { u with pc := c.cur.next } else u) ∧
    ∀ (t : Thread) (b : Bool) (n : Nat), n < 8 →
      (t.setMask d b).mask n = (if d = n ∧ n ≠ 0 then b else t.mask n) ∧
      t.setMask d b = { t with k := (t.setMask d b).k } ∧ (t.setMask 0 b) = t

/-! ## Floating point and cross-lane (08) -/

/-- 08 R141 to R146: the arithmetic instructions round the exact value once and OR its conditions into the flags; minimum,
maximum, class and integral rounding work on encodings; `FCMP` writes a mask. -/
def Obligations.FloatArithmetic : Prop :=
  ∀ (s : State) (c : Ctx) (f : LongForm),
    ComputesF .fadd fp2 s c f (fun t => cvt (fmtOf f.ty) .rn false ((fA f t).add (fB f t))) ∧
    ComputesF .fsub fp2 s c f (fun t => cvt (fmtOf f.ty) .rn false ((fA f t).add (fB f t).neg)) ∧
    ComputesF .fmul fp2 s c f (fun t => cvt (fmtOf f.ty) .rn false ((fA f t).mul (fB f t))) ∧
    ComputesF .ffma fp3 s c f (fun t => cvt (fmtOf f.ty) .rn false (((fA f t).mul (fB f t)).add (fC f t))) ∧
    ComputesF .fmin fp2 s c f (fun t =>
      minMax (fmtOf f.ty) false (f.op == 1) (srcCode f.lit f.ty f.sa t) (srcCode f.lit f.ty f.sb t)) ∧
    ComputesF .fmax fp2 s c f (fun t =>
      minMax (fmtOf f.ty) true (f.op == 1) (srcCode f.lit f.ty f.sa t) (srcCode f.lit f.ty f.sb t)) ∧
    ComputesF .fclass fp1 s c f (fun t => (2 ^ classBit (fmtOf f.ty) (srcCode f.lit f.ty f.sa t),
      if (srcVal f.lit f.ty f.sa t).isNan then 8#4 else 0#4)) ∧
    ComputesF .frnd fp1 s c f (fun t => frndVal (fmtOf f.ty) (rmodeOf f.op) (srcCode f.lit f.ty f.sa t)) ∧
    (Issues s (.fcmp f) f.g c → LegalMask c f [(f.sa, false), (f.sb, false)] → (f.op / 8 ≠ 0 → f.sc.toNat < 8) →
      exec (.fcmp f) s = .next (c.masks s f.dst.toNat
        (fun t =>
          let r := cmpFp (f.op % 8) (srcVal f.lit f.ty f.sa t) (srcVal f.lit f.ty f.sb t)
          if f.op / 8 = 1 then r && t.mask f.sc.toNat else if f.op / 8 = 2 then r || t.mask f.sc.toNat else r)
        fun t => if (srcVal f.lit f.ty f.sa t).isNan || (srcVal f.lit f.ty f.sb t).isNan then t.flag 8#4 else t))

/-- 08 R147 to R156: packed and dot-product forms, conversions, packing and the special functions run on every legal operand
and OR their conditions into the flags. -/
def Obligations.FloatConversionsAndFunctions : Prop :=
  ∀ (s : State) (c : Ctx) (f : LongForm) (r : RMode),
    ComputesF .hadd2 fp2 s c f (packed f fun h t => (halfVal f f.sa 0 h t).add (halfVal f f.sb 1 h t)) ∧
    ComputesF .hmul2 fp2 s c f (packed f fun h t => (halfVal f f.sa 0 h t).mul (halfVal f f.sb 1 h t)) ∧
    ComputesF .hfma2 fp3 s c f (packed f fun h t =>
      ((halfVal f f.sa 0 h t).mul (halfVal f f.sb 1 h t)).add (halfVal f f.sc 2 h t)) ∧
    ComputesF .dot4 fp3 s c f (dotVal f 4 8) ∧
    ComputesF .dot2 fp3 s c f (dotVal f 2 16) ∧
    ComputesF (.cvts r) fp2 s c f (cvtsVal r f) ∧
    ComputesF .rcp fp1 s c f (fun t => special .rcp (fmtOf f.ty) (BitVec.ofNat 32 (srcCode f.lit f.ty f.sa t))) ∧
    ComputesF .rsq fp1 s c f (fun t => special .rsq (fmtOf f.ty) (BitVec.ofNat 32 (srcCode f.lit f.ty f.sa t))) ∧
    ComputesF .sqrt fp1 s c f (fun t => special .sqrt (fmtOf f.ty) (BitVec.ofNat 32 (srcCode f.lit f.ty f.sa t))) ∧
    ComputesF .ex2 fp1 s c f (fun t => special .ex2 (fmtOf f.ty) (BitVec.ofNat 32 (srcCode f.lit f.ty f.sa t))) ∧
    ComputesF .lg2 fp1 s c f (fun t => special .lg2 (fmtOf f.ty) (BitVec.ofNat 32 (srcCode f.lit f.ty f.sa t))) ∧
    ComputesF .sin fp1 s c f (fun t => special .sin (fmtOf f.ty) (BitVec.ofNat 32 (srcCode f.lit f.ty f.sa t))) ∧
    ComputesF .cos fp1 s c f (fun t => special .cos (fmtOf f.ty) (BitVec.ofNat 32 (srcCode f.lit f.ty f.sa t))) ∧
    ComputesF .tanh fp1 s c f (fun t => special .tanh (fmtOf f.ty) (BitVec.ofNat 32 (srcCode f.lit f.ty f.sa t))) ∧
    (Issues s (.cvt r f) f.g c → Legal c f (tyWide f.dty) [(f.sa, tyWide f.sty)] →
      GivesAnd (.cvt r f) s c f (tyWide f.dty)
        (fun t => if tyWide f.dty then BitVec.ofNat 64 (cvtVal r f t).1 else (BitVec.ofNat 32 (cvtVal r f t).1).setWidth 64)
        fun t => t.flag (cvtVal r f t).2) ∧
    (Issues s (.pack4 f) f.g c → Legal c f false [(f.sb, false)] → f.sa.toNat < 0x100 → f.sa.toNat % 4 = 0 →
      f.sa.toNat + 3 < c.grp.n →
      GivesAnd (.pack4 f) s c f false (fun t => (BitVec.ofNat 32 (pack4Val f t).1).setWidth 64)
        fun t => t.flag (pack4Val f t).2)

/-- 08 R154: `UNPACK4` writes the four elements to the destination and the three registers after it. -/
def Obligations.UnpackWritesFour : Prop :=
  ∀ (s : State) (c : Ctx) (f : LongForm), Issues s (.unpack4 f) f.g c → f.dst.toNat % 4 = 0 → f.dst.toNat + 3 < c.grp.n →
    srcOk c f.lit false f.sa = true → srcOk c f.lit false f.sb = true →
    ∃ s', exec (.unpack4 f) s = .next s' ∧ OnlyGroup s s' c.cur.gid ∧
      ∀ g, groupOf s c.cur.gid = some g → ∃ g', groupOf s' c.cur.gid = some g' ∧ SameGroup g g' ∧
        ∀ u ∈ g'.threads, u.tid ∈ c.act.map (·.tid) → u.tid ∈ c.set.map (·.tid) → ∃ t ∈ g.threads, t.tid = u.tid ∧
          u.pc = c.cur.next ∧ (∀ i, i < 4 → u.reg (f.dst.toNat + i) = BitVec.ofNat 32 (unpack4Val f i t).1) ∧
          ∀ r, (r < f.dst.toNat ∨ f.dst.toNat + 4 ≤ r) → u.reg r = t.reg r

/-- 08 R157 to R162: the cross-lane instructions work among the participants of each thread's sub-group; bit `i` of a mask
of threads is 1 exactly when one of them stands at logical lane `i`. -/
def Obligations.CrossLane : Prop :=
  ∀ (s : State) (c : Ctx) (f : LongForm),
    (Issues s (.shfl f) f.g c → Legal c f (wideTy f) [(f.sa, wideTy f), (f.sb, false)] → f.sc.toNat < 8 →
      GivesAnd (.shfl f) s c f (wideTy f) (fun t => byWidth f (a32 f) (a64 f) ((shflFrom c f t).getD t))
        fun t => t.setMask f.sc.toNat (shflFrom c f t).isSome) ∧
    (Issues s (.vote f) f.g c → f.dst.toNat < 8 → f.sa.toNat < 8 →
      GivesMask (.vote f) s c f.dst.toNat fun t =>
        voteBit (f.op % 4) ((participants c f.wc t).map fun u => u.mask f.sa.toNat)) ∧
    (Issues s (.ballot f) f.g c → Legal c f false [] → f.sa.toNat < 8 →
      Gives (.ballot f) s c f false fun t =>
        (laneMask (((participants c f.wc t).filter fun u => u.mask f.sa.toNat).map (·.tid))).setWidth 64) ∧
    (Issues s (.matchL f) f.g c → Legal c f false (src1 f) →
      Gives (.matchL f) s c f false fun t =>
        (laneMask (((participants c f.wc t).filter fun u =>
          byWidth f (a32 f) (a64 f) u = byWidth f (a32 f) (a64 f) t).map (·.tid))).setWidth 64) ∧
    (Issues s (.lfirst f) f.g c → Legal c f (wideTy f) (src1 f) →
      Gives (.lfirst f) s c f (wideTy f) fun t => byWidth f (a32 f) (a64 f) (((participants c f.wc t).head?).getD t)) ∧
    ComputesF .lscan fp1 s c f (lscanVal c f) ∧
    ComputesF .lred fp1 s c f (lredVal c f) ∧
    ∀ (tids : List Nat) (i : Nat), i < 32 → ((laneMask tids).getLsbD i = true ↔ ∃ t ∈ tids, t % 32 = i)

/-! ## Memory (10, 11, 12) -/

/-- An address of a memory instruction: a base of 64 bits and an offset (12 R221). -/
def AddrLegal (c : Ctx) (f : LongForm) : Prop := srcOk c f.lit true f.sa = true ∧ srcOk c f.lit false f.sb = true

/-- Every access of an instruction is decided without a condition. -/
def AllOk (ls : List Lane) : Prop := ∀ l ∈ ls, ∃ p, l.dec = .ok p

/-- The threads that meet a class 4 condition, each with its cause and its lowest faulting byte, and those that meet a class 3
condition and none of class 4 (12 R222). -/
abbrev trapped (ls : List Lane) : List (Nat × Nat × W64) := firstBad (ls.filterMap Lane.cls4)
abbrev heldOf3 (ls : List Lane) : List Held3 := (ls.filterMap Lane.cls3).filter fun h => (trapped ls).all fun b => b.1 ≠ h.tid
abbrev faulting (ls : List Lane) : List Nat := (trapped ls).map (·.1) ++ (heldOf3 ls).map (·.tid)

/-- Where an instruction's accesses meet conditions, and none waits at a channel: the threads that meet none go on to `u`, those
that meet class 3 are held at the instruction, and those that meet class 4 trap there. -/
abbrev TrapsAndHolds (i : Instr) (s : State) (c : Ctx) (kind : Nat) (ls : List Lane) (u : State) : Prop :=
  (∀ l ∈ ls, l.dec ≠ .waits) →
    exec i s = .next (c.traps4 (hold3 u c.grp c.cur.pc kind (heldOf3 ls)) (trapped ls))

/-- The active threads of an instruction whose mask bit is still 0 (12 R228, R229). -/
def todo (c : Ctx) (m : Nat) : Ctx := { c with act := c.act.filter fun t => !t.mask m }

/-- The lines of elements that lie in two lines leave this core's L1, so that they are read at the homes of both (12 R233). -/
def dropsOver (s : State) (c : Ctx) (ls : List Lane) : State :=
  { s with mm := dropL1 s.mm c.core (((ls.map overLines).filterMap fun l => l.places.map fun p =>
      if p.locs = p.unc then p.locs else []).flatten) }

/-- 12 R226, R228, R232: `LD`, `LDG` and `LDE` whose accesses meet no condition run: an acquire covers, every access is
performed, and each thread is given its value or owed a reply; an element in two lines is read at the homes of both (R233). 12
R222: where accesses of `LD` meet conditions, only the threads that meet none load and move on, those of class 3 are held at the
instruction and those of class 4 trap there; `LDG` records class 3 and goes on without it (R228). -/
def Obligations.LoadsComplete : Prop :=
  ∀ (s s1 s2 : State) (c : Ctx) (f : LongForm) (ls : List Lane) (xs : List Loaded),
    (Issues s (.ld f) f.g c → Legal c f (wideTy f) [(f.sa, true), (f.sb, false)] →
      c.decideLanes s (effAddr f) (fun _ => tyBytes f.ty) 1 .load = (ls, s1) → AllOk ls →
      c.loadLanes (c.acquire s1 f.scope) f.scope (f.hint != 3) (addrUni c f) (fun _ => loadVal f.ty) ls = (xs, s2) →
      exec (.ld f) s = .next (c.loaded s2 f (wideTy f) (addrUni c f) xs)) ∧
    (Issues s (.lde f) f.g c → Legal c f false [(f.sa, true), (f.sb, false)] →
      c.decideLanes s (fun t => (elemOf f t).va) (fun t => (elemOf f t).n) 1 .load = (ls, s1) →
      AllOk (ls.map (c.markStraddle s)) →
      c.loadLanes (c.acquire (dropsOver s1 c (ls.map (c.markStraddle s))) f.scope) f.scope (f.hint != 3) false
        (fun tid x => BitVec.ofNat 64 (x / 2 ^ (c.elem f tid).sh % 2 ^ tyBits f.ty))
        ((ls.map (c.markStraddle s)).map overLines) (fun _ => 0) = (xs, s2) →
      exec (.lde f) s = .next (c.loaded s2 f false false xs)) ∧
    (Issues s (.ldg f) f.g c → Legal c f (wideTy f) [(f.sa, true), (f.sb, false)] → f.sc.toNat < 8 → f.sc ≠ 0 →
      (todo c f.sc.toNat).decideLanes s (effAddr f) (fun _ => tyBytes f.ty) 1 .load = (ls, s1) → AllOk ls →
      (todo c f.sc.toNat).loadLanes ((todo c f.sc.toNat).acquire s1 f.scope) f.scope (f.hint != 3) false
        (fun _ => loadVal f.ty) ls = (xs, s2) →
      exec (.ldg f) s = .next (oweLoaded (c.ldgWrite s2 f xs) c.cur.gid
        ⟨f.dst.toNat, !f.w, wideTy f, false, some f.sc.toNat⟩ xs)) ∧
    (∀ c', Issues s (.ld f) f.g c → Legal c f (wideTy f) [(f.sa, true), (f.sb, false)] →
      c.decideLanes s (effAddr f) (fun _ => tyBytes f.ty) 1 .load = (ls, s1) → c' = c.without (faulting ls) →
      (c'.act = [] → TrapsAndHolds (.ld f) s c 0 ls (c'.skip s1 true)) ∧
      (c'.act ≠ [] → c'.loadLanes (c'.acquire s1 f.scope) f.scope (f.hint != 3) (addrUni c' f) (fun _ => loadVal f.ty) ls =
        (xs, s2) → TrapsAndHolds (.ld f) s c 0 ls (c'.loaded s2 f (wideTy f) (addrUni c' f) xs))) ∧
    (∀ c', Issues s (.ldg f) f.g c → Legal c f (wideTy f) [(f.sa, true), (f.sb, false)] → f.sc.toNat < 8 → f.sc ≠ 0 →
      (todo c f.sc.toNat).decideLanes s (effAddr f) (fun _ => tyBytes f.ty) 1 .load = (ls, s1) →
      (∀ l ∈ ls, l.dec ≠ .waits) →
      c' = (todo c f.sc.toNat).without ((trapped ls).map (·.1) ++ (ls.filterMap Lane.cls3).map (·.tid)) →
      c'.loadLanes (c'.acquire s1 f.scope) f.scope (f.hint != 3) false (fun _ => loadVal f.ty) ls = (xs, s2) →
      exec (.ldg f) s = .next (c.traps4 (record3 (oweLoaded ((c.without ((trapped ls).map (·.1))).ldgWrite s2 f xs) c.cur.gid
        ⟨f.dst.toNat, !f.w, wideTy f, false, some f.sc.toNat⟩ xs) c.grp c.cur.pc 0 true (ls.filterMap Lane.cls3)).2
        (trapped ls)))

/-- 10 R188, R189, 11 R211, R212: each byte of a load is the byte at its home; or, but for the places `unc` that never go
through L1, the byte of a copy in this core's own L1 that is not older than the thread's last covering event; or a byte that a
write has replaced which does not happen before the load through an admitted chain (which writes those are is log 20's); and
loading changes no byte of memory. -/
def Obligations.LoadsReadHomeOrCopy : Prop :=
  ∀ (s : State) (me : Who) (core cover : Nat) (unc : List Nat) (fill : Bool) (key : Nat → Nat) (locs : List Nat) (r : Read),
    readCore s me core cover unc fill key locs = r →
    r.bytes.length = locs.length ∧
    (∀ (i l : Nat), locs[i]? = some l →
      r.bytes[i]? = some (homeByte s.mm l) ∨
      (l ∉ unc ∧ ∃ y ∈ s.mm.l1, y.core = core ∧ y.line = l / 128 ∧ cover ≤ y.stamp ∧
        ∃ b, y.bytes = some b ∧ r.bytes[i]? = some (b.getD (l % 128) 0)) ∨
      ∃ w ∈ s.mm.past, w.binds me 0 = false ∧ ∃ b, tfind w.was l = some b ∧ r.bytes[i]? = some b) ∧
    r.st.mm.mem = s.mm.mem ∧ r.st.mm.deferred = s.mm.deferred

/-- Whether a location is among the places of some accesses. -/
def Stored (ls : List Lane) (l : Nat) : Prop := ∃ x ∈ ls, ∃ p, x.dec = .ok p ∧ l ∈ p.locs

/-- 12 R227, R229, R233: `ST`, `STG` and `STE` whose accesses meet no condition, and that need not wait as a release to a
peer does (11 R216), run and move on, such a release after a fence; after them every byte of memory outside the places of
their accesses reads as it did once the accesses were decided. 12 R222: where accesses of `ST` meet conditions, the parts that
meet none are stored, and the threads of a part that meets class 3 are held at the instruction and those of class 4 trap there;
`STG` records class 3 and goes on without it (R229). -/
def Obligations.StoresCompleteAndFrame : Prop :=
  ∀ (s s1 : State) (c : Ctx) (f : LongForm) (ls : List Lane),
    (Issues s (.st f) f.g c → srcOk c f.lit true f.sa = true → srcOk c f.lit false f.sb = true →
      srcOk c f.lit (wideTy f) f.sc = true →
      c.decideParts s (c.storeParts s (effAddr f) (tyBytes f.ty)) 1 .store = (ls, s1) → AllOk ls →
      c.releaseWaits s1 f.scope ls = false →
      exec (.st f) s = .next (c.done (c.storeLanes (c.fenceFirst s1 f.scope ls) f.scope (c.partBytes f) ls) id)) ∧
    (Issues s (.ste f) f.g c → srcOk c f.lit true f.sa = true → srcOk c f.lit false f.sb = true →
      srcOk c f.lit false f.sc = true →
      c.decideLanes s (fun t => (elemOf f t).va) (fun t => (elemOf f t).n) 1 .store = (ls, s1) →
      AllOk (ls.map (c.markStraddle s)) → c.releaseWaits s1 f.scope (ls.map (c.markStraddle s)) = false →
      exec (.ste f) s = .next (c.done (c.storeLanes (c.fenceFirst s1 f.scope (ls.map (c.markStraddle s))) f.scope
        (fun s l p => (mergeElem (leNat (p.locs.map (homeByte s.mm))) (c.elem f l.tid).sh (tyBits f.ty)
          (c.dataOf (dataBits f) l.tid) l.n, elemEnables p.locs (c.elem f l.tid).sh (tyBits f.ty)))
        (ls.map (c.markStraddle s))) id)) ∧
    (Issues s (.stg f) f.g c → f.dst.toNat < 8 → f.dst ≠ 0 → srcOk c f.lit true f.sa = true →
      srcOk c f.lit false f.sb = true → srcOk c f.lit (wideTy f) f.sc = true →
      (todo c f.dst.toNat).decideParts s ((todo c f.dst.toNat).storeParts s (effAddr f) (tyBytes f.ty)) 1 .store = (ls, s1) →
      AllOk ls → c.releaseWaits s1 f.scope ls = false →
      exec (.stg f) s = .next (c.done
        ((todo c f.dst.toNat).storeLanes ((todo c f.dst.toNat).fenceFirst s1 f.scope ls) f.scope
          ((todo c f.dst.toNat).partBytes f) ls) fun t =>
        if t.tid ∈ (todo c f.dst.toNat).act.map (·.tid) then t.setMask f.dst.toNat true else t)) ∧
    (Issues s (.st f) f.g c → AddrLegal c f → srcOk c f.lit (wideTy f) f.sc = true →
      c.decideParts s (c.storeParts s (effAddr f) (tyBytes f.ty)) 1 .store = (ls, s1) →
      c.releaseWaits s1 f.scope ls = false → TrapsAndHolds (.st f) s c 1 ls ((c.without (faulting ls)).done
        (c.storeLanes (c.fenceFirst s1 f.scope ls) f.scope (c.partBytes f) ls) id)) ∧
    (Issues s (.stg f) f.g c → f.dst.toNat < 8 → f.dst ≠ 0 → AddrLegal c f → srcOk c f.lit (wideTy f) f.sc = true →
      (todo c f.dst.toNat).decideParts s ((todo c f.dst.toNat).storeParts s (effAddr f) (tyBytes f.ty)) 1 .store = (ls, s1) →
      (∀ l ∈ ls, l.dec ≠ .waits) → c.releaseWaits s1 f.scope ls = false →
      exec (.stg f) s = .next (c.traps4 (record3 ((c.without ((trapped ls).map (·.1))).done
        ((todo c f.dst.toNat).storeLanes ((todo c f.dst.toNat).fenceFirst s1 f.scope ls) f.scope
          ((todo c f.dst.toNat).partBytes f) ls) fun t =>
        if t.tid ∈ (todo c f.dst.toNat).act.map (·.tid) ∧ ∀ h ∈ heldOf3 ls, h.tid ≠ t.tid then t.setMask f.dst.toNat true
        else t) c.grp c.cur.pc 1 true (heldOf3 ls)).2 (trapped ls))) ∧
    ∀ scope data, SameMemory s1 (c.done (c.storeLanes (c.fenceFirst s1 scope ls) scope data ls) id) fun l => ¬ Stored ls l

/-- A write meets no poison: its granules are clean and their channels are up (10 R203, 01 R19). -/
def Clean (s : State) (ws : List (Nat × Byte)) : Prop := ∀ x ∈ ws, poisoned s x.1 = false

/-- 11 R210: a write of clean bytes at distinct locations leaves each of them at its home, leaves every other byte, keeps
the canonical form of memory, and leaves the device's bytes of host memory deferred (R217); 10 R203: a write of a whole
granule clears its poison, and one of a part of a poisoned granule is discarded and leaves it poisoned. 11 R211: the bytes that
the write replaces are kept for reads that may miss it; a read returns the byte at its home or one that a write which does not
bind it has replaced, it returns the home's where the last write of its bytes binds it, and whoever made the write reads it
(what binds a read is log 20's reading of R209 to R214). -/
def Obligations.WriteLands : Prop :=
  (∀ (s : State) (w : Writer) (ws : List (Nat × Byte)), s.Inv → Clean s ws → (ws.map (·.1)).Nodup →
    (∀ x ∈ ws, homeByte (applyWrite s w ws).mm x.1 = x.2) ∧
    SameMemory s (applyWrite s w ws) (fun l => l ∉ ws.map (·.1)) ∧
    (applyWrite s w ws).Inv ∧
    (∀ l, isHostLoc l = true → tget 0 (applyWrite s w ws).mm.mem l = tget 0 s.mm.mem l) ∧
    ∀ x ∈ ws, x.1 < peerBase → ∀ path a, w.src = some (path, a) →
      (∃ y rest, (applyWrite s w ws).mm.past = y :: rest ∧ y.path = path ∧ y.by_ = a ∧
        tfind y.was x.1 = some (homeByte s.mm x.1)) ∧
      ∀ me q unit, a ∈ me.all → x.1 ∈ unit → seenByte (applyWrite s w ws) me q unit x.1 = x.2) ∧
  (∀ (s : State) (me : Who) (q : Nat) (unit : List Nat) (l : Nat),
    (seenByte s me q unit l = homeByte s.mm l ∨
      ∃ w ∈ s.mm.past, w.binds me q = false ∧ tfind w.was l = some (seenByte s me q unit l)) ∧
    ∀ w, (s.mm.past.find? (·.touches unit)) = some w → w.binds me q = true → seenByte s me q unit l = homeByte s.mm l) ∧
  ∀ (s : State) (w : Writer) (g : Nat) (b : Bytes) (o : Nat), g ∈ s.mm.poison →
    (b.length = 32 → g ∉ (writeLoc s w (32 * g) b).mm.poison) ∧
    (o + b.length ≤ 32 → b.length < 32 → g ∈ (writeLoc s w (32 * g + o) b).mm.poison ∧
      ∀ l, homeByte (writeLoc s w (32 * g + o) b).mm l = homeByte s.mm l)

/-- 10 R199: translating changes no byte of memory but those of the leaf entry that the walk finds. 10 R185, R186, R201, 12
R222: what an access of up to 64 KiB that lies in one page meets, each condition with the lowest byte that meets it: an address
that is not canonical, then a misaligned one, then the cause of its translation, then a byte without a place, then a byte in a
window that is being disabled. 13 R252, 10 R202: threads that meet class 3 write or join one record for each home warp and page,
with the lanes, the lowest faulting byte and the instruction, and a thread that is held waits for the record of its own; several
causes on one page are recorded under the first thread's (log 25). 09 R167: class 4 conditions of one cause are one trap of their
threads at the instruction, each with its lowest faulting byte. -/
def Obligations.TranslationFrame : Prop :=
  (∀ (s s' : State) (eng ham asn : Nat) (va : W64) (n : Nat) (a : Acc) (p : Nat) (unc : Bool),
    translate s eng ham asn va n a = .ok (p, unc, s') →
    SameMemory s s' fun l => ∀ at_ sh e, walk s asn a (va.toNat % 2 ^ 57) = .ok (at_, sh, e) → ¬ (at_ ≤ l ∧ l < at_ + 8)) ∧
  (∀ (s : State) (eng ham asn : Nat) (va : W64) (n align : Nat) (a : Acc), 0 < n → va.toNat % 65536 + n ≤ 65536 →
    (canonical va = false → decideAccess s eng ham asn va n align a = (.cls4 0x34 va, s)) ∧
    (canonical va = true → va.toNat % align ≠ 0 → decideAccess s eng ham asn va n align a = (.cls4 0x36 va, s)) ∧
    (canonical va = true → va.toNat % align = 0 →
      (∀ cause, translate s eng ham asn va n a = .error cause → cause ≠ 0 → decideAccess s eng ham asn va n align a =
        (if 0x20 ≤ cause ∧ cause ≤ 0x2F then .cls3 cause va else .cls4 cause va, s)) ∧
      (translate s eng ham asn va n a = .error 0 → decideAccess s eng ham asn va n align a = (.waits, s)) ∧
      (∀ p unc s' i, translate s eng ham asn va n a = .ok (p, unc, s') → i < n → locOf s.fab (p + i) = none →
        (∀ j < i, locOf s.fab (p + j) ≠ none) →
        decideAccess s eng ham asn va n align a = (.cls4 0x35 (va + BitVec.ofNat 64 i), s')) ∧
      ∀ p unc s' i, translate s eng ham asn va n a = .ok (p, unc, s') → (∀ j < n, locOf s.fab (p + j) ≠ none) →
        i < n → (∃ l, locOf s.fab (p + i) = some l ∧ windowBusy s.mm l = true) →
        (∀ j < i, ∀ l, locOf s.fab (p + j) = some l → windowBusy s.mm l = false) →
        decideAccess s eng ham asn va n align a = (.cls3 0x21 (va + BitVec.ofNat 64 i), s'))) ∧
  (∀ (s : State) (g : Group) (pc : W64) (kind : Nat) (nw : Bool) (hs : List Held3),
    record3 s g pc kind nw hs = (heldParts hs).foldl (fun acc part =>
      (acc.1 ++ (record3 acc.2 g pc kind nw part).1, (record3 acc.2 g pc kind nw part).2)) ([], s) ∧
    (heldParts hs).flatten.Perm hs ∧
    (∀ part ∈ heldParts hs, part ≠ [] ∧ ∀ x ∈ part, ∀ y, y ∈ part ↔
      y ∈ hs ∧ y.tid / 32 = x.tid / 32 ∧ y.addr.toNat / 65536 = x.addr.toNat / 65536) ∧
    ∀ h low, hs.head? = some h → (∀ x ∈ hs, x.tid / 32 = h.tid / 32 ∧ pageOf x.addr = pageOf h.addr) →
      (∃ x ∈ hs, x.addr = low) → (∀ x ∈ hs, low.toNat ≤ x.addr.toNat) → ∃ ref s',
      class3 s (coreOf g / 128) g.asn kind nw (some (g.gid.tag, g.gid.grp, h.tid / 32))
        { cls := 3, cause := h.cause, prec := true, fwd := false, rpl := true, lanes := laneMask (hs.map (·.tid)),
          who := groupWho g h.tid, tag := g.gid.tag, pc := pc, addr := low, info := 0, hlp := hlpOf s g } = (ref, s') ∧
      record3 s g pc kind nw hs = (hs.map fun x => (x.tid, ref), s')) ∧
  (∀ (s s' : State) (g g' : Group) (pc : W64) (kind : Nat) (hs : List Held3) (refs : List (Nat × RecRef)),
    (hs.map (·.tid)).Nodup → record3 s g pc kind false hs = (refs, s') → groupOf s' g.gid = some g' →
    OnlyGroup s' (hold3 s g pc kind hs) g.gid ∧ groupOf (hold3 s g pc kind hs) g.gid = some { g' with
      threads := g'.threads.map fun t => ((hs.find? fun h => h.tid = t.tid).map fun h => { t with
        wait := .fault g.asn (pageOf h.addr) kind h.addr ((refs.lookup t.tid).getD none) }).getD t }) ∧
  ∀ (s : State) (c : Ctx) (cause : Nat) (bad : List (Nat × Nat × W64)), bad ≠ [] → (∀ b ∈ bad, b.2.1 = cause) →
    c.traps4 s bad = takeTrap s c.cur.gid (bad.map fun b =>
      { tid := b.1, cls := 4, cause := cause, prec := true, pc := c.cur.pc, xpc := c.cur.pc, addr := b.2.2, info := 0 })

/-- 12 R234, R235, 05 R84: an atomic of one thread at a place without poison returns the old value and leaves the value that
its operation gives, and changes no other byte. -/
def Obligations.AtomicReadsModifiesWrites : Prop :=
  ∀ (s : State) (c : Ctx) (op : AtomOp) (ty scope tid b e : Nat) (acq : Bool) (va : W64) (p : Places), s.Inv →
    scope ≠ 7 → p.peer = false → p.via = [] → p.locs.length = tyBytes ty → p.locs.Nodup → (∀ l ∈ p.locs, poisoned s l = false) →
    (∀ l ∈ p.locs, l < 2 ^ 52) → op ≠ .fadd →
    ∃ s', c.atomPlace s op ty scope acq va p [(tid, b, e)] =
        ([⟨tid, va, BitVec.ofNat 64 (leNat (p.locs.map (homeByte s.mm))), none, isRemote p⟩], s') ∧
      p.locs.map (homeByte s'.mm) = natLe (tyBytes ty) (rmw op ty (leNat (p.locs.map (homeByte s.mm))) b e) ∧
      SameMemory s s' fun l => l ∉ p.locs

/-- 12 R234, R235: `ATOM` and `RED` whose accesses meet no condition, and that need not wait as a release to a peer does
(DESIGN CHOICE, log 97), run: the sets of each home warp and address are
performed, and each thread of an `ATOM` is given the old value or owed a reply. 12 R222: where accesses of an `ATOM` meet
conditions, only the threads that meet none are performed, those of class 3 are held and those of class 4 trap. -/
def Obligations.AtomicsComplete : Prop :=
  ∀ (s s1 s2 : State) (c : Ctx) (f : LongForm) (ls : List Lane) (xs : List Loaded),
    c.decideLanes s (effAddr f) (fun _ => tyBytes f.ty) (tyBytes f.ty) .store = (ls, s1) →
    c.releaseWaits s1 f.scope ls = false →
    (∀ op, AllOk ls → Issues s (.atom op f) f.g c → dstOk c (wideTy f) f.dst = true → srcOk c f.lit true f.sa = true →
      srcOk c f.lit false f.sb = true → srcOk c f.lit (wideTy f) f.sc = true →
      c.atomLanes (c.acquire (c.fenceFirst s1 f.scope ls) f.scope) op f.ty f.scope true (fun tid => (c.dataOf (dataBits f) tid,
        c.dataOf (fun t => if wideTy f then (join64 (t.reg f.dst.toNat) (t.reg (f.dst.toNat + 1))).toNat
          else (t.reg f.dst.toNat).toNat) tid)) ls = (xs, s2) →
      exec (.atom op f) s = .next (c.loaded s2 f (wideTy f) false xs)) ∧
    (∀ op, AllOk ls → Issues s (.red op f) f.g c → srcOk c f.lit true f.sa = true →
      srcOk c f.lit false f.sb = true → srcOk c f.lit (wideTy f) f.sc = true →
      c.atomLanes (c.fenceFirst s1 f.scope ls) (RedOp.atom op) f.ty f.scope false (fun tid => (c.dataOf (dataBits f) tid, 0)) ls = (xs, s2) →
      exec (.red op f) s = .next (oweLoaded (c.done s2 id) c.cur.gid ⟨0, false, false, true, none⟩
        (xs.filter fun x => x.err.isSome || x.remote))) ∧
    ∀ op c', Issues s (.atom op f) f.g c → dstOk c (wideTy f) f.dst = true → AddrLegal c f →
      srcOk c f.lit (wideTy f) f.sc = true → c' = c.without (faulting ls) →
      (c'.act = [] → TrapsAndHolds (.atom op f) s c 1 ls (c'.skip s1 true)) ∧
      (c'.act ≠ [] → c'.atomLanes (c'.acquire (c'.fenceFirst s1 f.scope ls) f.scope) op f.ty f.scope true
          (fun tid => (c'.dataOf (dataBits f) tid, c'.dataOf (fun t =>
            if wideTy f then (join64 (t.reg f.dst.toNat) (t.reg (f.dst.toNat + 1))).toNat else (t.reg f.dst.toNat).toNat)
            tid)) ls = (xs, s2) →
        TrapsAndHolds (.atom op f) s c 1 ls (c'.loaded s2 f (wideTy f) false xs))

/-- 11 R212, R213, R217, 12 R247 to R251: a fence below `dom` completes at once, and at `dom` and `sys` once nothing is owed
to its threads; from `gang` on it covers. What a write of the thread, or one that it knows of, comes before the fence it is
known after it, and an `XFENCE` that names its path carries it to the other path that it names; a write that does not happen
before the fence is left as it was. The cache instructions run on every range; `CINV` and `CINV.code` wait where a walk of
their range is held at its home. That an `XFENCE` is kept as what its threads carry from path to path, and how happens-before is
kept, is log 20's choice; which deferred lines a fence at `sys` remembers is log 104's. -/
def Obligations.FencesAndCaches : Prop :=
  ∀ (s s1 : State) (c : Ctx) (f : LongForm) (locs : List Nat) (ls : List Lane) (mm : MemSys),
    (Issues s (.fence f) f.g c → (6 ≤ fenceScope f → ∀ t ∈ c.act, owed s c.cur.gid t.tid = false) →
      exec (.fence f) s = .next (c.done (fenceThreads s c.grp (fenceScope f) [] c.actTids) id)) ∧
    (∀ a b, Issues s (.xfence f) f.g c → a ≤ 4 → b ≤ 4 → a ≠ b → f.sa.toNat = 0x110 + a → f.sb.toNat = 0x110 + b →
      (6 ≤ fenceScope f → ∀ t ∈ c.act, owed s c.cur.gid t.tid = false) →
      exec (.xfence f) s = .next (c.done (fenceThreads s c.grp (fenceScope f) [a, b] c.actTids) id)) ∧
    (∀ g scope cross tids, fenceThreads s g scope cross tids = { (if 3 ≤ scope ∧ tids ≠ [] then coverThreads s g.gid tids else s) with
      mm := tids.foldl (fun m t => fenceAt m (threadWho g t) scope cross)
        (if 3 ≤ scope ∧ tids ≠ [] then coverThreads s g.gid tids else s).mm }) ∧
    (∀ (m : MemSys) (g : Group) (t scope : Nat) (cross : List Nat), ∀ w ∈ m.past,
      ((w.priorTo (threadWho g t)).isSome → ∃ w' ∈ (fenceAt m (threadWho g t) scope cross).past,
        w'.was = w.was ∧ w'.path = w.path ∧ w'.by_ = w.by_ ∧
        ∃ k ∈ w'.know, k.who = .thread g.gid t ∧ ∀ q, w.path ∈ cross → q ∈ cross → q ∈ k.via) ∧
      ((w.priorTo (threadWho g t)).isNone → (∀ k ∈ w.know, ∀ rel, k.who ≠ .seen g.gid t rel) →
        w ∈ (fenceAt m (threadWho g t) scope cross).past)) ∧
    (Issues s (.cflush f) f.g c → srcOk c f.lit true f.sa = true → srcOk c f.lit false f.sb = true →
      srcOk c f.lit false f.sc = true →
      (c.act.foldl (fun (acc : List Lane × State) t =>
        ((acc.1 ++ [⟨t.tid, effAddr f t, rangeLen f t, (decideRange acc.2 c (effAddr f t) (rangeLen f t)).1, 0⟩]),
          (decideRange acc.2 c (effAddr f t) (rangeLen f t)).2)) ([], s)) = (ls, s1) → AllOk ls →
      locs = ((ls.filter fun l => c.actTids.contains l.tid).filterMap fun l => l.places.map (·.locs)).flatten →
      mm = (distinct ((locs.filter isHostLoc).map (· / 128))).foldl writeBackLine s1.mm →
      exec (.cflush f) s = .next (c.done { s1 with
        mm := dropL1 { mm with writers := mm.writers.filter fun x => !(locs.any fun l => l / 128 == x.1) } c.core locs }
        id)) ∧
    (Issues s (.cinv f) f.g c → srcOk c f.lit true f.sa = true → srcOk c f.lit false f.sb = true →
      srcOk c f.lit false f.sc = true →
      (c.rangeLines s f = some locs → exec (.cinv f) s = .next (c.done { s with
        mm := coverPast (dropL1 s.mm c.core locs) c.cur.gid c.actTids fun r =>
          r.was.any fun x => locs.any fun l => l / 128 == x.1 / 128 } id)) ∧
      (c.rangeLines s f = none → exec (.cinv f) s = .next s)) ∧
    (Issues s (.cinvCode f) f.g c → srcOk c f.lit true f.sa = true → srcOk c f.lit false f.sb = true →
      srcOk c f.lit false f.sc = true →
      (c.rangeLines s f = some locs →
        exec (.cinvCode f) s = .next (c.done { s with mm := dropCode (dropL1 s.mm c.core locs) locs } id)) ∧
      (c.rangeLines s f = none → exec (.cinvCode f) s = .next s)) ∧
    (Issues s (.pref f) f.g c → srcOk c f.lit true f.sa = true → srcOk c f.lit false f.sb = true →
      ∃ s2, exec (.pref f) s = .next (c.done s2 id) ∧ (f.hint = 3 → s2 = s))

/-! ## Waiting and mailboxes (12 R236 to R246) -/

/-- 12 R236, R239, R242, R245, R246: `WAITC`, `FLD`, `FSET`, `MBSEND`, `MBRECV` and `MBPEEK` whose accesses meet no condition
run lane by lane: a thread whose word, future or mailbox answers at once gets its result, and another waits. That a releasing
`FSET` waits and fences as a release store to a peer does is DESIGN CHOICE, log 97. -/
def Obligations.WaitsComplete : Prop :=
  ∀ (s s1 s2 : State) (c : Ctx) (f : LongForm) (ls : List Lane) (a : Asked),
    (Issues s (.waitc f) f.g c → Legal c f (wideTy f) [(f.sa, true), (f.sc, wideTy f)] → waitCcOk f = true →
      c.decideLanes s (a64 f) (fun _ => tyBytes f.ty) (tyBytes f.ty) .load = (ls, s1) → AllOk ls →
      (c.okLanes ls).foldl (c.waitcLane f (freshId s1).1) (⟨[], [], []⟩, (freshId s1).2) = (a, s2) →
      exec (.waitc f) s = .next (c.asked (c.dropRead s2 ls) f (wideTy f) a none)) ∧
    (Issues s (.fld f) f.g c → Legal c f (wideTy f) [(f.sa, true), (f.sb, false)] → f.sc.toNat < 8 →
      c.decideLanes s (effAddr f) (fun _ => 16) 16 .load = (ls, s1) → AllOk ls →
      (c.okLanes ls).foldl (c.fldLane f (freshId s1).1) (⟨[], [], []⟩, (freshId s1).2) = (a, s2) →
      exec (.fld f) s = .next (c.asked (c.dropRead s2 ls) f (wideTy f) a (some f.sc.toNat))) ∧
    (∀ es, Issues s (.fset f) f.g c → srcOk c f.lit true f.sa = true → srcOk c f.lit false f.sb = true →
      srcOk c f.lit (wideTy f) f.sc = true →
      c.decideLanes s (effAddr f) (fun _ => 16) 16 .store = (ls, s1) → AllOk ls → c.releaseWaits s1 (scopeOr 5 f) ls = false →
      (c.okLanes ls).foldl (c.fsetLane f) ([], c.fenceFirst s1 (scopeOr 5 f) ls) = (es, s2) →
      exec (.fset f) s = .next (pushErrs (c.done s2 id) c.cur.gid 0 es)) ∧
    (∀ ks es, Issues s (.mbsend f) f.g c → f.dst.toNat < 8 → srcOk c f.lit true f.sa = true →
      srcOk c f.lit false f.sb = true → srcOk c f.lit false f.sc = true → (∀ t ∈ c.act, (c32 f t).toNat < 2 ^ 14) →
      c.decideLanes s (effAddr f) (fun _ => 64) 64 .load = (ls, s1) → AllOk ls →
      (c.okLanes ls).foldl (c.mbsendLane f) ([], [], s1) = (ks, es, s2) →
      exec (.mbsend f) s = .next
        (pushErrs (c.masks s2 f.dst.toNat fun t => (ks.lookup t.tid).getD false) c.cur.gid 0 es)) ∧
    (Issues s (.mbrecv f) f.g c → Legal c f false [(f.sa, true), (f.sb, false), (f.sc, false)] →
      (∀ t ∈ c.act, c.recvOk s f t = true) →
      c.decideLanes s (effAddr f) (fun _ => 64) 64 .store = (ls, s1) → AllOk ls →
      (c.okLanes ls).foldl (c.mbrecvLane f (freshId s1).1) (⟨[], [], []⟩, c.acquire (freshId s1).2 (scopeOr 4 f)) = (a, s2) →
      exec (.mbrecv f) s = .next (c.asked s2 f false a none)) ∧
    (Issues s (.mbpeek f) f.g c → Legal c f false [(f.sa, false)] →
      (∀ t ∈ c.act, (a32 f t).toNat < 2 ^ 14 ∧ (a32 f t).toNat % 1024 / 128 = c.core / 128) →
      Gives (.mbpeek f) s c f false fun t => (BitVec.ofNat 32 (peekWord s c.cur.gid (a32 f t).toNat)).setWidth 64)

/-- 12 R238, R242: an `FSET` of one thread on an empty future writes the value and `fst` and keeps every other bit of the
state word, and one on a future that is set or failed changes nothing. -/
def Obligations.FuturesAreSetOnce : Prop :=
  ∀ (s : State) (c : Ctx) (f : LongForm) (l : Lane) (p : Places), s.Inv → l.dec = .ok p → p.locs.length = 16 →
    p.peer = false → p.via = [] → p.locs.Nodup → (∀ x ∈ p.locs, poisoned s x = false ∧ x < 2 ^ 52) →
    (field (p.locs.map (homeByte s.mm)) 8 8 / 2 ^ 62 ≠ 0 → c.fsetLane f ([], s) l = ([], s)) ∧
    (field (p.locs.map (homeByte s.mm)) 8 8 / 2 ^ 62 = 0 →
      p.locs.map (homeByte (c.fsetLane f ([], s) l).2.mm) =
        natLe 8 (c.dataOf (fun t => rdBits f.lit (wideTy f) f.sc t) l.tid) ++
        natLe 8 (field (p.locs.map (homeByte s.mm)) 8 8 + (if f.ty = 0 then 2 else 1) * 2 ^ 62))

/-- A group and one of its threads. -/
def Member (s : State) (tag grp tid : Nat) (g : Group) (t : Thread) : Prop :=
  groupOf s ⟨tag, grp⟩ = some g ∧ g.threads.find? (fun t => t.tid = tid) = some t

/-- 12 R223, R228, R237, R241, 09 R182, R183, 26 R374: a reply that is whole reaches the registers and masks of its threads,
or, for a saved group, its rows; the first packet of a message of two reaches no register of a group on a core; an acknowledgement ends what is owed; a monitor or a future that answers ends its wait; a refused request is sent
again after 1,024 cycles; an error that has arrived is raised. -/
def Obligations.RepliesArrive : Prop :=
  ∀ (s : State) (tag grp tid rid : Nat) (g : Group) (t : Thread) (r : Req),
    (reqOf s rid = some r → r.store = false → groupOf s r.gid = some g → onCore g = true → packetsOf r = 2 →
      ∃ s', exec (.loadReply rid) s = .next s' ∧ s'.groups = s.groups ∧ s'.mm = s.mm ∧
        ∀ x ∈ s'.reqs, x.id = r.id → packetsOf x = 1) ∧
    (reqOf s rid = some r → r.store = false → groupOf s r.gid = some g → onCore g = true → packetsOf r = 1 →
      ∃ s', exec (.loadReply rid) s = .next s' ∧ s'.reqs = s.reqs.filter (fun x => x.id ≠ r.id) ∧ s'.mm = s.mm ∧
        ∃ g', groupOf s' r.gid = some g' ∧ g'.threads = g.threads.map (replyThread g.n r)) ∧
    (reqOf s rid = some r → r.store = false → groupOf s r.gid = some g → onCore g = false → g.place ≠ .done →
      exec (.depositArrival rid) s = .next (depositNow s r)) ∧
    (ackOf s ⟨tag, grp⟩ tid = some r → ∃ s', exec (.storeAcknowledgement tag grp tid) s = .next s' ∧ s'.mm = s.mm ∧
      s'.groups = s.groups ∧ ∀ x ∈ s'.reqs, x.id = r.id → ∀ l ∈ x.lanes, l.tid ≠ tid) ∧
    (∀ m v, Member s tag grp tid g t → t.wait = .monitor m → m.hit = some v → g.place ≠ .below →
      exec (.monitorReply tag grp tid) s =
        .next (completeWait s g tid m.scope [m.loc] ⟨m.dst, m.toReg, tyWide m.ty, v⟩ id)) ∧
    (∀ w v b, Member s tag grp tid g t → t.wait = .future w → w.hit = some (v, b) → g.place ≠ .below →
      exec (.futureAnswer tag grp tid) s =
        .next (completeWait s g tid w.scope [w.loc, w.loc + 8] ⟨w.dst, w.toReg, w.wide, futValue w.wide v⟩
          fun t => t.setMask w.kd b)) ∧
    (∀ m, Member s tag grp tid g t → t.wait = .monitor m → m.hit = none → m.placed = false → g.place ≠ .below →
      m.sent + 1024 ≤ s.sch.cycle →
      exec (.nackResend tag grp tid) s =
        .next (resendMonitor (updGroup s ⟨tag, grp⟩ fun g => { g with searched := false }) g tid m)) ∧
    (∀ w, Member s tag grp tid g t → t.wait = .future w → w.hit = none → w.placed = false → g.place ≠ .below →
      w.sent + 1024 ≤ s.sch.cycle →
      exec (.nackResend tag grp tid) s =
        .next (resendFuture (updGroup s ⟨tag, grp⟩ fun g => { g with searched := false }) g tid w)) ∧
    (∀ e, s.errs.find? (fun e => e.id = rid && errDue s e) = some e → exec (.deferredError rid) s = .next (raiseError s e))

/-- 12 R226, R228, R237, R241, R245: a reply writes the destination in the threads of its lanes and, without an error, the
mask; a wait that ends gives the thread its value, makes it runnable and moves it on. -/
def Obligations.RepliesAndWaitsWrite : Prop :=
  (∀ (n : Nat) (r : Req) (t : Thread) (l : ReqLane), r.lanes.find? (fun l => l.tid = t.tid) = some l →
    (r.toReg = true → r.dst < n → (replyThread n r t).reg r.dst = l.val.setWidth 32 ∧
      (r.wide = true → (replyThread n r t).reg (r.dst + 1) = (l.val >>> 32).setWidth 32)) ∧
    (∀ k, r.kset = some k → k < 8 → l.err = none → (replyThread n r t).mask k = true) ∧
    (∀ k, r.kset = some k → l.err ≠ none → (replyThread n r t).k = t.k) ∧
    (replyThread n r t).pc = t.pc ∧ (replyThread n r t).wait = t.wait ∧ (replyThread n r t).latches = t.latches) ∧
  ∀ (n : Nat) (r : WaitRes) (t : Thread),
    (endWait n r t).wait = .run ∧ (endWait n r t).pc = t.wnext ∧
    (r.toReg = true → r.dst < n → (endWait n r t).reg r.dst = r.val.setWidth 32) ∧
    (∀ d, d ≠ r.dst → d ≠ r.dst + 1 → (endWait n r t).reg d = t.reg d) ∧
    (endWait n r t).k = t.k ∧ (endWait n r t).meet = t.meet ∧ (endWait n r t).stack = t.stack

/-! ## Exceptions (09) -/

/-- A thread that enters the handler for a charge: `xcause` with class, cause, `prec` and `hlp`, the record's lanes, pc and
time, the saved pc, and the pc at the handler; its latches are empty (09 R167, Table 9.3). By class 8 it owes an answer, and
an entry that it held is no longer pending (R177, R183). -/
def entered (g : Group) (now : Nat) (lanes : W32) (x : Charge) (t : Thread) : Thread :=
  { t with
    xcause := BitVec.ofNat 32 (x.cls + x.cause * 2 ^ 8 + (if x.prec then 2 ^ 16 else 0) + (if g.helper.isSome then 2 ^ 17 else 0))
    xaddr := x.addr, xinfo := x.info, xpc := x.xpc, xlanes := lanes, xfpc := x.pc, xtime := now
    latches := [], hnd := true, pc := g.xhand
    pre := t.pre && decide (x.cls ≠ 8), dph := if x.cls = 6 then none else t.dph, owes := t.owes || decide (x.cls = 8)
    evb := if x.prec then none else t.evb }

/-- 09 R167, R168, R170, R184: a trap of a class delivered to the handler, whose threads are outside it, in a group with a
handler at a marked instruction, enters it and changes no other thread, once the handler's line is checked; one of class 1, 2,
4, 5 or 7 of a thread that is in the handler, and one in a group without a handler, fails the gang, every group of which is
stopped. An entry of class 6 or 8 of a thread in the handler is held, and class 3 enters no handler (R170, 10 R202): of these
it says nothing. -/
def Obligations.TrapEntry : Prop :=
  ∀ (s s' : State) (gid : Gid) (g g' : Group) (cs : List Charge), groupOf s gid = some g → onCore g = true → cs ≠ [] →
    ((∀ x ∈ cs, x.cls ∈ [1, 2, 4, 5, 6, 7, 8]) → (∀ x ∈ cs, ∀ t ∈ g.threads, t.tid = x.tid → t.hnd = false) → g.xhand ≠ 0 →
      checkTarget s g g.xhand true = (.ok, s') → groupOf s' gid = some g' →
      OnlyGroup s' (takeTrap s gid cs) gid ∧
      groupOf (takeTrap s gid cs) gid = some { g' with threads := g'.threads.map fun t =>
        ((cs.find? fun x => x.tid = t.tid).map fun x => entered g' (nowNs s)
          (laneMask ((cs.filter fun y => y.tid / 32 = t.tid / 32).map (·.tid))) x t).getD t }) ∧
    (((∀ x ∈ cs, x.cls ∈ [1, 2, 4, 5, 7]) ∧ (∃ x ∈ cs, ∃ t ∈ g.threads, t.tid = x.tid ∧ t.hnd = true)) ∨
        ((∀ x ∈ cs, x.cls ∈ [1, 2, 4, 5, 6, 7, 8]) ∧ (∀ x ∈ cs, ∀ t ∈ g.threads, t.tid = x.tid → t.hnd = false) ∧ g.xhand = 0) →
      ∀ y, gangOf (takeTrap s gid cs) gid.tag = some y → y.stopped = true ∧ y.fail.isSome = true)

/-- Every active thread is in handler mode. -/
def InHandler (c : Ctx) : Prop := ∀ t ∈ c.act, t.hnd = true

/-- 09 R172, R173, R177, 07 Table 4.11: `TRAP` is a trap of class 7 with the next address as its `xpc` and its source in
`xinfo`; `TRET`, `FREC_GET`, `FREC_FWD` and `PDONE` outside the handler are `ILLOP`; in it `TRET` resumes each thread at
its `xpc`, `FREC_GET` stores each thread's record, `FREC_FWD` forwards a record for each home warp and fails the gang, and
`PDONE` stops its threads. That `prec` is 0 in the charge of `TRAP` is log 74 (DEDUCED), and the time and the lanes of the record
that `FREC_FWD` writes are log 28 (DEDUCED). -/
def Obligations.TrapInstructions : Prop :=
  ∀ (s s1 : State) (c : Ctx) (f : LongForm) (ls : List Lane),
    (Issues s (.trap f) f.g c → srcOk c f.lit false f.sa = true →
      exec (.trap f) s = .next (takeTrap s c.cur.gid (c.act.map fun t =>
        ⟨t.tid, 7, 0x60, false, c.cur.pc, c.cur.next, 0, (a32 f t).setWidth 64⟩))) ∧
    (Issues s (.tret f) f.g c → InHandler c → (∀ t ∈ c.act, t.dph = none ∧ t.pre = false) → Passes s c false (·.xpc) s1 →
      exec (.tret f) s = .next (c.upd s1 (modThreads c.setTids fun t =>
        if t.tid ∈ c.actTids then { t with pc := t.xpc, hnd := false, latches := [] }
        else { t with pc := c.cur.next, latches := [] }))) ∧
    (Issues s (.frecGet f) f.g c → AddrLegal c f → InHandler c →
      c.decideLanes s (effAddr f) (fun _ => 64) 64 .store = (ls, s1) → AllOk ls →
      exec (.frecGet f) s = .next (c.done (c.storeLanes s1 0 (fun _ l _ =>
        (((c.act.find? fun t => t.tid = l.tid).map fun t => (recordOf s c.grp t false).bytes t.xtime).getD [], [])) ls) id)) ∧
    (Issues s (.frecFwd f) f.g c → InHandler c → ∀ t0, c.act.head? = some t0 →
      exec (.frecFwd f) s = .next (failGang ((c.act.filter fun t =>
          c.act.all fun u => u.tid / 32 != t.tid / 32 || t.tid ≤ u.tid).foldl (fun s t =>
        postRecord s c.die ((recordOf s c.grp t true).bytes t.xtime)) s) c.cur.gid.tag (t0.xcause.toNat / 2 ^ 8 % 2 ^ 8))) ∧
    (Issues s (.pdone f) f.g c → InHandler c → (∀ t ∈ c.act, t.xcause.toNat % 256 = 8) →
      exec (.pdone f) s = .next (keptSave (c.upd (c.done s id) (modThreads c.actTids fun t =>
        { t with wait := .pdone, pc := t.xpc, hnd := false, owes := false, latches := [] })) c.cur.gid)) ∧
    ((∃ t ∈ c.act, t.hnd = false) →
      (Issues s (.tret f) f.g c → exec (.tret f) s = .next (c.trapAct s 0x01)) ∧
      (Issues s (.frecGet f) f.g c → AddrLegal c f → exec (.frecGet f) s = .next (c.trapAct s 0x01)) ∧
      (Issues s (.frecFwd f) f.g c → exec (.frecFwd f) s = .next (c.trapAct s 0x01)) ∧
      (Issues s (.pdone f) f.g c → exec (.pdone f) s = .next (c.trapAct s 0x01)))

/-- The range of registers that a context instruction names: `n` from code `v` on, within the budget. -/
def RangeNamed (c : Ctx) (f : LongForm) (v n : Nat) : Prop :=
  f.sa.toNat = v ∧ srcOk c f.lit false f.sb = true ∧ srcUni c false f.sb = true ∧ uniSrc c f f.sb = n ∧
    1 ≤ n ∧ n ≤ 256 ∧ v + n ≤ c.grp.n ∧ v < 256

/-- 09 R174, R175, R181, 11 R209, R217: `CTXSAVE`, where the fabric delivers its writes, writes a range's tags, entries and
`gen` rows to the area as stores of its threads, `CTXSAVE_KEEP` adds the range to the keep set, and `CTXLOAD` reads a range
back, its slot pending until it is done; a place that gives an error reply charges its threads before their next instruction
(12 R223). -/
def Obligations.ContextInstructions : Prop :=
  ∀ (s s1 s2 t : State) (c : Ctx) (f : LongForm) (v n : Nat) (p1 p2 : List (Nat × Nat)) (g : Group) (ws : List (Nat × Byte))
    (locs : List Nat),
    RangeNamed c f v n → g = reformAll c.grp [] [] →
    (Issues s (.ctxsave f) f.g c →
      areaPieces c.grp .store (entryPieces g v n ++ rowPieces g v n fun w r => homeTag g w r == .gen) [] s = .ok p1 s1 →
      ws = ((List.range (homeWarps c.grp.nthr)).map fun w => regWrites g w ((List.range n).map (v + ·))
        fun q => (areaBytes s1 g p1 (saWarp g w + q) 1).headD 0#8).flatten →
      (∀ x ∈ ws, (areaLoc g p1 x.1).any (fabricFails s1.fab) = false) → locs = ws.filterMap (fun x => areaLoc g p1 x.1) →
      exec (.ctxsave f) s = .next (c.done (acquireAnswered s1 (c.actTids.foldl (fun s t =>
        markWrite s (threadWho c.grp t) 0 locs) (areaWriteBy (countArea s1 c.cur.gid locs) g (some c.core)
          (some (0, .thread c.cur.gid (c.actTids.headD 0))) p1 ws))) id)) ∧
    (Issues s (.ctxsaveKeep f) f.g c → (∀ t ∈ c.act, t.hnd = true ∧ t.xcause.toNat % 256 = 8) →
      exec (.ctxsaveKeep f) s = .next (c.upd (c.done s id) fun g => { g with keep := some ((g.keep.getD []) ++ [(v, n)]) })) ∧
    (Issues s (.ctxload f) f.g c → f.dst.toNat < 16 → (∀ op, c.grp.slots.getD f.dst.toNat .idle ≠ .pending op) →
      areaPieces c.grp .load (entryPieces c.grp v n) [] s = .ok p1 s1 →
      areaPieces c.grp .load (entryPieces c.grp v n ++ rowPieces c.grp v n fun w r =>
        2 ≤ savedTag (areaBytes s1 c.grp p1 (saWarp c.grp w) 64) r) [] s1 = .ok p2 s2 →
      t = slotStarts (c.upd (c.done s2 id) fun g => setSlot f.dst.toNat (.pending (.ctxload v n))
        ((List.range (homeWarps g.nthr)).foldl (fun g w =>
          (List.range n).foldl (fun g i => loadReg s2 p2 w (v + i) g) g) g)) c.cur.gid f.dst.toNat c.actTids →
      (ctxPoison s2 c.grp p2 v n = none → exec (.ctxload f) s = .next t) ∧
      (∀ r e a, ctxPoison s2 c.grp p2 v n = some (r, e, a) → exec (.ctxload f) s =
        .next (pushErrs t c.cur.gid (BitVec.ofNat 64 r) (c.actTids.map fun t => (t, e, a)))))

/-- 09 R182, 22 R328, R336, 23 R342, R343: `DEPWAIT` on a slot that is not pending, `CTXLOAD`'s end, and `MWAIT` and `MPOLL`
by the state of the slot: an idle one lets them go on, a set one makes the threads cover, with what its operation had behind
it (11 R209, R212), a failed one raises its error and is idle once it has been raised, and `MWAIT` waits for a pending one,
whose state `MPOLL` gives. In `DEPWAIT` the group waits: every runnable thread of it; a header that gives an error reply
charges the active threads (12 R223; what the slot then holds is log 34's). -/
def Obligations.SlotInstructions : Prop :=
  ∀ (s s1 : State) (c : Ctx) (f : LongForm) (ls : List Lane) (l : Lane) (p : Places) (g : Group) (d v n : Nat),
    (Issues s (.depwait f) f.g c → f.dst.toNat < 16 → AddrLegal c f → addrUni c f = true →
      (∀ op, c.grp.slots.getD f.dst.toNat .idle ≠ .pending op) →
      c.decideLanes s (effAddr f) (fun _ => 8) 1 .load = (ls, s1) → AllOk ls → ls.head? = some l → l.dec = .ok p →
      (∀ x u, depositsOf s1 p = some x →
        u = slotStarts (c.upd (c.done s1 id) (setSlot f.dst.toNat x)) c.cur.gid f.dst.toNat c.actTids →
        (headerErr s1 p = none → exec (.depwait f) s = .next u) ∧
        ∀ e, headerErr s1 p = some e →
          exec (.depwait f) s = .next (pushErrs u c.cur.gid 0 (c.actTids.map fun t => (t, e, l.va)))) ∧
      (depositsOf s1 p = none → exec (.depwait f) s = .next (slotStarts (c.upd s1 fun g =>
        setSlot f.dst.toNat (.pending (.deposit l.va)) { g with threads := g.threads.map fun t =>
          if t.runnable && !(inHeld c.grp t.tid) then
            { t with wait := .slot f.dst.toNat, wnext := if t.tid ∈ c.setTids then c.cur.next else t.pc }
          else t }) c.cur.gid f.dst.toNat c.actTids))) ∧
    (groupOf s g.gid = some g → g.slots.getD d .idle = .pending (.ctxload v n) →
      exec (.ctxloadDone g.gid.tag g.gid.grp d) s = .next (finishSlot s g.gid d
        (match g.derr with
          | none => .set
          | some e => .failed (BitVec.ofNat 64 (0x50 + e.2.2.toNat / 2 ^ 16 % 2 ^ 8 * 2 ^ 16)) e.1))) ∧
    (Issues s (.mwait f) f.g c → f.dst.toNat < 16 →
      (c.grp.slots.getD f.dst.toNat .idle = .idle → exec (.mwait f) s = .next (c.done s id)) ∧
      (c.grp.slots.getD f.dst.toNat .idle = .set →
        exec (.mwait f) s = .next (c.done (slotFound s c.cur.gid f.dst.toNat c.actTids) id)) ∧
      (∀ op, c.grp.slots.getD f.dst.toNat .idle = .pending op → exec (.mwait f) s = .next (c.upd s
        (modThreads c.setTids fun t => if t.tid ∈ c.actTids then waitThread c.cur.pc (.slot f.dst.toNat) t
          else { t with pc := c.cur.next }))) ∧
      (∀ w a t, c.grp.slots.getD f.dst.toNat .idle = .failed w a → w.toNat % 256 ≠ 0x50 →
        t = c.trap (c.upd s (setSlot f.dst.toNat .idle)) 5 (w.toNat % 256) (c.actTids.map fun t => (t, a, w)) →
        exec (.mwait f) s = .next (if trapTaken t c.cur.gid c.actTids = true then t
          else c.upd t (setSlot f.dst.toNat (.failed w a))))) ∧
    (Issues s (.mpoll f) f.g c → dstOk c false f.dst = true → f.sa.toNat < 16 →
      ((∀ w a, c.grp.slots.getD f.sa.toNat .idle ≠ .failed w a) → c.grp.slots.getD f.sa.toNat .idle ≠ .set →
        Gives (.mpoll f) s c f false fun _ => if c.grp.slots.getD f.sa.toNat .idle = .idle then 0 else 1) ∧
      (c.grp.slots.getD f.sa.toNat .idle = .set → ∃ tlo thi, exec (.mpoll f) s =
        .next (c.result (slotFound s c.cur.gid f.sa.toNat c.actTids) f.dst f.w ⟨false, fun _ => 2, tlo, thi⟩)))

/-! ## Events and automata (15, 16) -/

/-- A release at `dom` or beyond has no reply of its threads to wait for (11 R213). -/
def MayRelease (s : State) (c : Ctx) (scope : Nat) : Prop := 6 ≤ scope → ∀ t ∈ c.act, owed s c.cur.gid t.tid = false

/-- The word that an automaton instruction gives a thread. -/
def autoWord (rs : List AutoRes) (t : Thread) : W32 := ((rs.find? fun r => r.tid = t.tid).map (·.word)).getD 0#32

/-- An action on a handle, thread by thread: where no thread has to wait, each gets its bit. -/
def HandleActs (i : LongForm → Instr) (go : State → W32 → Option (Bool × State)) (s : State) (c : Ctx) (f : LongForm) : Prop :=
  ∀ s1 rs, Issues s (i f) f.g c →
    c.oneByOne s (fun s t => match go s (a32 f t) with
      | some (k, s') => (⟨t.tid, .done, 0, k⟩, s')
      | none => (⟨t.tid, .waits, 0, false⟩, s)) = (rs, s1) → (∀ r ∈ rs, r.fin = .done) →
    exec (i f) s = .next (c.done s1 fun t =>
      t.setMask f.dst.toNat (((rs.find? fun r => r.tid = t.tid).map (·.ok)).getD false))

/-- 15 R264, R265, 16 R280 to R284: `EVPOST`, `EVPOST_BUF` and `EVBAR` run thread by thread; where each thread's posts are
made, or its stream is closed, the whole set moves on, and `EVBAR` writes its mask. The automaton instructions whose threads
have nothing to wait for run thread by thread: `AMLOAD` and `AMRESTORE` give each thread its handle or error word, the others
its mask bit. -/
def Obligations.EventInstructions : Prop :=
  ∀ (s s1 s2 : State) (c : Ctx) (f : LongForm) (ls : List Lane) (rs : List AutoRes), MayRelease s c (scopeOr 5 f) →
    (∀ ends, Issues s (.evpost f) f.g c → evpostOk c f = true →
      c.act.foldl (c.evpostLane f fun s t => (.ok (natLe 8 (c64 f t).toNat), s)) ([], s) = (ends, s1) →
      (∀ e ∈ ends, e.2 = .done) → exec (.evpost f) s = .next (c.done s1 id)) ∧
    (∀ ends, Issues s (.evpostBuf f) f.g c → evpostOk c f = true →
      c.act.foldl (c.evpostLane f (readPayload f c)) ([], s) = (ends, s1) →
      (∀ e ∈ ends, e.2 = .done) → exec (.evpostBuf f) s = .next (c.done s1 id)) ∧
    (∀ xs, Issues s (.evbar f) f.g c → f.dst.toNat < 8 → AddrLegal c f →
      c.decideLanes s (effAddr f) (fun _ => 64) 64 .store = (ls, s1) → AllOk ls →
      ls.foldl (c.evbarLane f) ([], s1) = (xs, s2) →
      (∀ x ∈ xs, x.2.2 = .done) →
      exec (.evbar f) s = .next (c.done s2 fun t =>
        t.setMask f.dst.toNat (((xs.find? fun x => x.1 = t.tid).map (·.2.1)).getD false))) ∧
    (∀ (restore : Bool), Legal c f false [(f.sa, true), (f.sb, false), (f.sc, false)] →
      (∀ t ∈ c.act, (c32 f t).toNat < 4096) →
      c.oneByOne s (c.amReadLane f restore) = (rs, s1) → (∀ r ∈ rs, r.fin = .done) →
      Issues s (if restore then .amrestore f else .amload f) f.g c →
      exec (if restore then .amrestore f else .amload f) s = .next (c.result s1 f.dst f.w
        ⟨false, fun t => (autoWord rs t).setWidth 64, .gen, .uni⟩ id
        fun t => rs.any fun r => r.tid = t.tid && r.fin = .done)) ∧
    (f.dst.toNat < 8 → srcOk c f.lit false f.sa = true →
      HandleActs .amarm armHandle s c f ∧ HandleActs .amdisarm (disarmHandle false) s c f ∧
      HandleActs .amdisarmFree (disarmHandle true) s c f) ∧
    (∀ (stop : Bool), f.dst.toNat < 8 → AddrLegal c f → srcOk c f.lit false f.sc = true →
      c.oneByOne s (c.amSaveLane f stop) = (rs, s1) → (∀ r ∈ rs, r.fin = .done) →
      Issues s (if stop then .amsaveStop f else .amsave f) f.g c →
      exec (if stop then .amsaveStop f else .amsave f) s = .next (c.done s1 fun t =>
        t.setMask f.dst.toNat (((rs.find? fun r => r.tid = t.tid).map (·.ok)).getD false)))

/-- The bytes of a stream record: index, type, flags with the source, timestamp, payload (15 Table 15.4). -/
def recordBytes (i : W32) (etype src ts : Nat) (payload : Bytes) : Bytes :=
  natLe 4 i.toNat ++ natLe 2 etype ++ natLe 1 (2 * src) ++ zeros 1 ++ natLe 8 ts ++ payload ++ zeros (48 - payload.length)

/-- 15 R258, R260, R264: a post to an open stream with room reserves the index that `res` holds, adds one to `res`, writes
the record at the index's slot, and writes the tail; no other byte changes but those of the accesses' decisions. -/
def Obligations.PostWritesRecord : Prop :=
  ∀ (s s1 s2 : State) (b : Poster) (n etype ts : Nat) (payload : Bytes) (p q : Places) (res head : W32), s.Inv →
    streamOpen (streamOf s n) = true →
    decideAccess s b.eng b.ham (streamOf s n).asn (streamOf s n).scba 8 4 .store = (.ok p, s1) →
    res = f32 (p.locs.map (homeByte s1.mm)) 0 → head = f32 (p.locs.map (homeByte s1.mm)) 4 →
    (res - head).toNat < 2 ^ (streamOf s n).lsize →
    decideAccess s1 b.eng b.ham (streamOf s n).asn (slotVa (streamOf s n) res) 64 64 .store = (.ok q, s2) →
    p.locs.length = 8 → q.locs.length = 64 → (p.locs ++ q.locs).Nodup → payload.length ≤ 48 →
    s.fab.did ∉ s.fab.down → (∀ l ∈ p.locs ++ q.locs, fabricFails s.fab l = false ∧ poisoned s1 l = false ∧ poisoned s2 l = false) →
    ∃ s', postTo s b n etype ts payload = (.posted, s') ∧
      q.locs.map (homeByte s'.mm) = recordBytes res etype b.src ts payload ∧
      (p.locs.take 4).map (homeByte s'.mm) = natLe 4 (res + 1).toNat ∧
      streamOf s' n = tailWrite (res + 1) (streamOf s n) ∧
      SameMemory s2 s' fun l => l ∉ p.locs.take 4 ++ q.locs

/-- 16 R279, R281: loading a malformed image changes nothing and answers its lowest error, a die without a free slot answers
code 6, and any other image is placed, unarmed, in the lowest free slot, whose handle is answered; arming gives an automaton
its place at the end of the arming order. No other slot changes. -/
def Obligations.AutomataAreLoadedAndArmed : Prop :=
  ∀ (s : State) (die n : Nat) (img : Bytes),
    (∀ code idx, malformed img = some (code, idx) →
      loadInto s die n img = (BitVec.ofNat 32 (2 ^ 31 + idx * 2 ^ 8 + code), s)) ∧
    (malformed img = none → (∀ k, k < 256 → (autoOf s die k).isSome = true) →
      loadInto s die n img = (BitVec.ofNat 32 (2 ^ 31 + 6), s)) ∧
    (∀ k, malformed img = none → k < 256 → autoOf s die k = none → (∀ j, j < k → (autoOf s die j).isSome = true) →
      ∃ s', loadInto s die n img = (BitVec.ofNat 32 (die * 2 ^ 8 + k), s') ∧
        autoOf s' die k = some ⟨img, n, none, 0, []⟩ ∧ s'.mm = s.mm ∧
        ∀ d j, (d, j) ≠ (die, k) → autoOf s' d j = autoOf s d j) ∧
    (∀ k a, autoOf s die k = some a → a.armed = none →
      autoOf (armSlot s die k) die k = some { a with armed := some (dieOf s die).nextArm } ∧
      (dieOf (armSlot s die k) die).nextArm = (dieOf s die).nextArm + 1 ∧
      ∀ d j, (d, j) ≠ (die, k) → autoOf (armSlot s die k) d j = autoOf s d j)

/-! ## Gangs, ownership, engines (17, 18, 22 to 26) -/

/-- A barrier instruction leaves its active threads waiting and moves the others on. -/
def WaitsAt (i : Instr) (s : State) (c : Ctx) (k : BarKind) : Prop :=
  exec i s = .next (c.upd s (modThreads c.setTids fun t =>
    if t.tid ∈ c.actTids then { t with wait := .barrier k s.sch.cycle, wnext := c.cur.next }
    else { t with pc := c.cur.next }))

/-- An ownership instruction runs thread by thread; where no thread meets a condition each gets its mask bit. -/
def EachThread (i : Instr) (s : State) (c : Ctx) (f : LongForm) (go : State → Thread → (Bool × LaneEnd) × State) : Prop :=
  ∀ rs s1, Issues s i f.g c → f.dst.toNat < 8 → c.each go s = (rs, s1) → (∀ r ∈ rs, r.2.2 = .done) →
    exec i s = .next (c.done s1 fun t =>
      t.setMask f.dst.toNat (((rs.find? fun r => r.1 = t.tid).map (·.2.1)).getD false))

/-- `HELPQ` issues on a record that can be read, and its threads cover (18 R317). -/
def AsksHelp (s : State) (c : Ctx) (f : LongForm) (r : RecRead) (s2 : State) : Prop :=
  ∃ t0 s1, Issues s (.helpq f) f.g c ∧ dstOk c false f.dst = true ∧ AddrLegal c f ∧ addrUni c f = true ∧
    c.act.head? = some t0 ∧ canonical (effAddr f t0) = true ∧ (effAddr f t0).toNat % 16 = 0 ∧
    readRec s c.grp (effAddr f t0) = (r, s1) ∧ r ≠ .waits ∧ s2 = coverThreads s1 c.cur.gid c.actTids

/-- 17 R302, R304, 18 R311, R317: the barriers wait; the ownership instructions run thread by thread; `HELPQ` on an owner
that is adoptable stops its group, with the status word to come, and goes on to the adoption, and on one that is not it
counts a refusal and gives the status word; the word reaches the active threads as the group resumes; an adoption parks
the helper below a parked owner, which runs on its core; `BEQUEATH` marks its gang and writes its threads' places only. -/
def Obligations.LaunchInstructions : Prop :=
  ∀ (s s1 : State) (c : Ctx) (f : LongForm),
    (Issues s (.grpbar f) f.g c → WaitsAt (.grpbar f) s c .group) ∧
    (Issues s (.gangbar f) f.g c → WaitsAt (.gangbar f) s c .gang) ∧
    (Issues s (.stagebar f) f.g c → WaitsAt (.stagebar f) s c .stage) ∧
    (AddrLegal c f → srcOk c f.lit true f.sc = true → EachThread (.ownClaim f) s c f (c.claimLane f)) ∧
    (AddrLegal c f → addrUni c f = true → EachThread (.ownSelf f) s c f (c.selfLane f)) ∧
    (AddrLegal c f → srcOk c f.lit true f.sc = true → EachThread (.ownWord f) s c f (c.wordLane f)) ∧
    (AddrLegal c f → srcOk c f.lit false f.sc = true → (∀ t ∈ c.act, dieBox c (boxId f.lit f.sc t) = true) →
      EachThread (.ownMbox f) s c f (c.mboxLane f)) ∧
    (AddrLegal c f → EachThread (.disownClaim f) s c f (c.unclaimLane f)) ∧
    EachThread (.disownSelf f) s c f c.unselfLane ∧
    (AddrLegal c f → EachThread (.disownWord f) s c f (c.unwordLane f)) ∧
    (srcOk c f.lit false f.sc = true → (∀ t ∈ c.act, dieBox c (boxId f.lit f.sc t) = true) →
      EachThread (.disownMbox f) s c f (c.unmboxLane f)) ∧
    (∀ r w, AsksHelp s c f r s1 → adoptable s1 c.grp r.rec? = .no w →
      ∃ tlo thi, exec (.helpq f) s = .next (c.result (updDie s1 c.die fun d => { d with hrefuse := d.hrefuse + 1 })
        f.dst f.w ⟨false, fun _ => (BitVec.ofNat 32 (((r.rec?.map Rec.state).getD 0) + w * 2 ^ 5 +
          ((r.rec?.map Rec.cause).getD 0) * 2 ^ 8)).setWidth 64, tlo, thi⟩)) ∧
    (∀ r x, AsksHelp s c f (.ok r) s1 → (adoptable s1 c.grp (some r)).chosen = some x →
      exec (.helpq f) s = .next (adoptOn (c.upd s1 fun g =>
        { modThreads c.setTids (fun t =>
            if t.tid ∈ c.actTids then { t with wnext := c.cur.next } else { t with pc := c.cur.next }) g with
          chosen := some (x, true)
          helpq := some ⟨c.actTids, f.dst.toNat, !f.w, BitVec.ofNat 32 (r.state + 2 ^ 4 + r.cause * 2 ^ 8)⟩ }) c.cur.gid)) ∧
    (∀ (g : Group) (q : HelpRes), g.helpq = some q → (giveHelp g).helpq = none ∧
      ∀ t ∈ (giveHelp g).threads, ∃ u ∈ g.threads, t.tid = u.tid ∧ (u.tid ∉ q.tids → t = u) ∧
        (u.tid ∈ q.tids → t.pc = u.wnext ∧ (q.toReg = true → t.reg q.dst = q.word) ∧
          ∀ d, d ≠ q.dst → t.reg d = u.reg d)) ∧
    (∀ (h : Gid) (g g1 : Group) (x : Chosen) (full : Bool), groupOf s h = some g → g.chosen = some (x, full) →
      onCore g = true → parkGroup s h full .below = s1 → groupOf s1 h = some g1 → g1.place = .below →
      g1.chosen = some (x, full) → adoptOn s h = adoptOn s1 h) ∧
    (∀ (h o : Gid) (g x y : Group) (full : Bool), groupOf s h = some g → g.chosen = some (.parked o, full) →
      g.place = .below → groupOf s o = some x → x.place = .parked → x.saveHold = none → wakes s x = true →
      ownerFits s g (groupWarps x) (groupBytes x) = true →
      resumeGroup s o (coreOf g) (some (h, g.depth + 1)) = s1 → groupOf s1 o = some y → onCore y = true →
      adoptOn s h = countAdoption (updGroup s1 h fun g => { g with chosen := none }) (coreOf g / 128) (g.depth + 1) false) ∧
    (∀ l xs, Issues s (.bequeath f) f.g c → RangeNamed c f f.sa.toNat (bqCount c f) → bqCount c f ≤ 8 →
      c.launch s = some l → gcfgBqen l.tmpl = true →
      ((c.bqHeader s (bqArea l.tmpl l.aix c.cur.gid.grp)).testBit 31 = true →
        c.bqHeader s (bqArea l.tmpl l.aix c.cur.gid.grp) % 256 = f.sa.toNat ∧
        c.bqHeader s (bqArea l.tmpl l.aix c.cur.gid.grp) / 256 % 16 = bqCount c f) →
      c.bqDecide s (bqArea l.tmpl l.aix c.cur.gid.grp) (bqCount c f) = (xs, [], s1) →
      ∃ s', exec (.bequeath f) s = .next s' ∧ SameMemory s1 s' (fun b => ∀ x ∈ xs, ∀ p ∈ x.here, b ∉ p.locs) ∧
        ∀ x, gangOf s1 c.cur.gid.tag = some x → gangOf s' c.cur.gid.tag = some { x with bq := true })

/-- A record of 64 bytes at the address of the active threads is read (23 R341, 25 R364). -/
def RecordRead (s : State) (c : Ctx) (f : LongForm) (l : Lane) (img : Bytes) (s2 : State) : Prop :=
  ∃ ls s1 p, c.decideLanes s (effAddr f) (fun _ => 64) 64 .load = (ls, s1) ∧ AllOk ls ∧ ls.head? = some l ∧ l.dec = .ok p ∧
    c.readRecord s1 p = (.ok img, s2)

/-- The task that a record makes: what it waits for, and the task that it follows with `tmill` 3. -/
def taskOf (c : Ctx) (s : State) (slot : Nat) (va : W64) (img : Bytes) : Task :=
  ⟨s.sch.ids, img, va, c.cur.gid, c.actTids.headD 0, groupWho c.grp (c.actTids.headD 0), c.cur.pc, c.grp.asn, slot,
    captures c.grp (field img 4 4),
    if field img 0 4 / 2 ^ 17 % 4 = 3 then (followed (hamOf s c.ham) (captures c.grp (field img 4 4))).map (·.1) else none,
    if field img 0 4 / 2 ^ 17 % 4 = 3 then (followed (hamOf s c.ham) (captures c.grp (field img 4 4))).bind (·.2) else none,
    failedWait c.grp (field img 4 4)⟩

/-- The copy that a record makes. -/
def copyRec (c : Ctx) (s : State) (form : Nat) (va : W64) (img : Bytes) : Copy :=
  ⟨s.sch.ids, img, va, form, c.cur.gid, c.actTids.headD 0, groupWho c.grp (c.actTids.headD 0), c.cur.pc, c.grp.asn, [], [],
    [], false, none, none, false, none⟩

/-- The model's next id is taken. -/
def idTaken (s : State) : State := { s with sch := { s.sch with ids := s.sch.ids + 1 } }

/-- A copying instruction whose record passes its checks enqueues its copy while the carter has room, and one that fails
a check is `ILLOPND`. -/
def Copies (i : Instr) (s : State) (c : Ctx) (f : LongForm) (form : Nat) : Prop :=
  ∀ l img s2, Issues s i f.g c → AddrLegal c f → sameAddr c f = true → RecordRead s c f l img s2 →
    (copyOk (copyRec c s2 form l.va img) = true → (hamOf s2 c.ham).copies.length < 32 →
      exec i s = .next (updHam (c.done (c.issues (idTaken s2) (.copy c.cur.gid s2.sch.ids)) id) c.ham fun h =>
        { h with copies := h.copies ++ [copyRec c s2 form l.va img] })) ∧
    (copyOk (copyRec c s2 form l.va img) = false → exec i s = .next (c.trapAct s2 0x02))

/-- 23 R341, R344, R345, R347, 25 R364, R366, 26 R373, R383: `MTASK` enqueues its task, whose slot becomes pending, or
raises the error of its record; the bin instructions read good words and write and zero words of the hamlet's bins, outside
a bolter's pass; `BLDP` acts thread by thread, each putting the image that it reads, where that is good, and its mask bit;
the copying instructions enqueue; `CPYQ` and `NETQ` give their status words; `STREL` runs lane by lane. -/
def Obligations.EngineInstructions : Prop :=
  ∀ (s s1 s2 : State) (c : Ctx) (f : LongForm) (l : Lane) (ls : List Lane) (img : Bytes) (rs : List ReqLane),
    (Issues s (.mtask f) f.g c → f.dst.toNat < 16 → AddrLegal c f → sameAddr c f = true →
      (∀ op, c.grp.slots.getD f.dst.toNat .idle ≠ .pending op) → RecordRead s c f l img s2 →
      (∀ e, taskError (hamOf s2 c.ham) (taskOf c s2 f.dst.toNat l.va img)
          (followed (hamOf s2 c.ham) (captures c.grp (field img 4 4))).isSome = some e →
        exec (.mtask f) s = .next (c.trap (s2) 5 e (c.actTids.map fun t => (t, 0, BitVec.ofNat 64 e)))) ∧
      (taskError (hamOf s2 c.ham) (taskOf c s2 f.dst.toNat l.va img)
          (followed (hamOf s2 c.ham) (captures c.grp (field img 4 4))).isSome = none →
        millerTakes (idTaken s2) c.ham (taskOf c s2 f.dst.toNat l.va img) = true →
        exec (.mtask f) s = .next (queueTask (c.done (c.issues (idTaken s2) (.task c.cur.gid s2.sch.ids)) id) c.ham
          (taskOf c s2 f.dst.toNat l.va img)))) ∧
    (∀ t ham, ∃ s', queueTask s ham t = s' ∧ s'.mm.mem = s.mm.mem ∧ s'.dies = (updHam s ham fun h =>
        { h with queue := h.queue ++ [t] }).dies ∧
      s'.groups = (updGroup s t.gid (setSlot t.slot (.pending (.task t.id)))).groups) ∧
    (Issues s (.binld f) f.g c → dstOk c false f.dst = true → srcOk c f.lit false f.sa = true →
      (∀ t ∈ c.act, (a32 f t).toNat < 2 ^ 17) →
      (∀ t ∈ c.act, (a32 f t).toNat % 2 ^ 16 ∉ ((hamOf s c.ham).mill ((a32 f t).toNat / 2 ^ 16 % 2)).bad) →
      Gives (.binld f) s c f false fun t => (tget 0#32 ((hamOf s c.ham).mill ((a32 f t).toNat / 2 ^ 16 % 2)).bin
        ((a32 f t).toNat % 2 ^ 16)).setWidth 64) ∧
    (Issues s (.binst f) f.g c → srcOk c f.lit false f.sa = true → srcOk c f.lit false f.sc = true →
      (∀ t ∈ c.act, (a32 f t).toNat < 2 ^ 17) →
      (∀ t ∈ c.act, inBolter s c.ham ((a32 f t).toNat / 2 ^ 16 % 2) = false) →
      exec (.binst f) s = .next (c.done (c.act.foldl (fun s t => updMill s c.ham ((a32 f t).toNat / 2 ^ 16 % 2) fun x =>
        { x with
          bin := tset 0#32 x.bin ((a32 f t).toNat % 2 ^ 16) (c32 f t)
          bad := (x.putBin [((a32 f t).toNat % 2 ^ 16, c32 f t)]).bad }) s) id)) ∧
    (∀ t0 a x, Issues s (.binz f) f.g c → srcOk c f.lit false f.sa = true → srcOk c f.lit false f.sb = true →
      srcUni c false f.sa = true → srcUni c false f.sb = true → c.act.head? = some t0 →
      a = (a32 f t0).toNat → x = (b32 f t0).toNat → a < 2 ^ 17 → x < 2 ^ 16 →
      a / 128 % 512 + x / 128 % 512 + 1 ≤ 512 → a % 128 + x % 128 + 1 ≤ 128 →
      inBolter s c.ham (a / 2 ^ 16 % 2) = false →
      ∃ s', exec (.binz f) s = .next (c.done s' id) ∧ s'.groups = s.groups ∧ s'.mm = s.mm ∧ ∀ m k, m < 2 →
        tget 0#32 ((hamOf s' c.ham).mill m).bin k =
          if m = a / 2 ^ 16 ∧ (a / 128 % 512 ≤ k / 128 ∧ k / 128 ≤ a / 128 % 512 + x / 128 % 512) ∧
            (a % 128 ≤ k % 128 ∧ k % 128 ≤ a % 128 + x % 128) then 0
          else tget 0#32 ((hamOf s c.ham).mill m).bin k) ∧
    (Issues s (.bldp f) f.g c → f.dst.toNat < 8 → AddrLegal c f → srcOk c f.lit false f.sc = true →
      (∀ t ∈ c.act, (c32 f t).toNat < 2 ^ 6) →
      exec (.bldp f) s = .next (bldpRun c.cur.gid c.warp.num c.act.length
        (c.holdWarp s (.bldp (c.act.map fun t => (t.tid, effAddr f t, c32 f t)) f.dst.toNat)))) ∧
    (∀ (g : Group) (h : Held) (kd tid : Nat) (va : W64) (w : W32) (p : Places) (r : Read), w.getLsbD 5 = false →
      decideAccess s (coreOf g) (coreOf g / 8) g.asn va 256 64 .load = (.ok p, s1) →
      readCore s1 (threadWho g tid) (coreOf g) (coverOf s1 g.gid tid) p.unc true byPart p.locs = r →
      readErr s1 p r = none →
      bldpAct s g h kd tid va w = updGroup
        (if imageOk r.bytes then putProg r.st (coreOf g / 8) w (some r.bytes) else r.st) g.gid
        (modThreads [tid] fun t => { t.setMask kd (imageOk r.bytes) with pc := h.next })) ∧
    Copies (.cpy f) s c f 0 ∧ Copies (.cpy2 f) s c f 1 ∧ Copies (.cpyt f) s c f 2 ∧ Copies (.cpyr f) s c f 3 ∧
    (Issues s (.cpyq f) f.g c → dstOk c false f.dst = true → Gives (.cpyq f) s c f false fun _ =>
      (BitVec.ofNat 32 ((hamOf s c.ham).copies.length +
        ((hamOf s c.ham).copies.filter fun x => x.gid = c.cur.gid).length * 2 ^ 16)).setWidth 64) ∧
    (Issues s (.netq f) f.g c → dstOk c false f.dst = true → Gives (.netq f) s c f false fun _ =>
      (BitVec.ofNat 32 (min 8 (buffersHeld s c.cur.gid) + (tget 0#8 (dieOf s c.die).pinj (c.core % 128)).toNat * 2 ^ 8 +
        min 255 (nodeOf s c.core).rate * 2 ^ 16 + (if (nodeOf s c.core).thr then 2 ^ 31 else 0))).setWidth 64) ∧
    (Issues s (.strel f) f.g c → AddrLegal c f → srcOk c f.lit (wideTy f) f.sc = true →
      c.decideLanes s (effAddr f) (fun _ => tyBytes f.ty) (tyBytes f.ty) .store = (ls, s1) → AllOk ls →
      (ls.filter fun l => c.actTids.contains l.tid).foldl (c.strelLane f) ([], s1) = (rs, s2) →
      exec (.strel f) s = .next (c.done (makeReqs s2 c.cur.gid ⟨0, false, false, true, none⟩ rs) id))

/-- The bolter's operation writes an element register, lane by lane, and the next word follows. -/
def BoltSets (i : Instr) (s : State) (c : BCtx) (d : BitVec 3) (v : List W32) : Prop :=
  exec i s = .next (updRun s c.ham c.m fun r =>
    { r with bolt := some { c.b with word := c.b.word + 1, regs := c.b.regs.set d.toNat v } })

/-- The bolter's operation adds stores to those of the pass. -/
def BoltStores (i : Instr) (s s' : State) (c : BCtx) (xs : List BStore) : Prop :=
  exec i s = .next (updRun s' c.ham c.m fun r =>
    { r with bolt := some { c.b with word := c.b.word + 1, stores := c.b.stores ++ xs } })

/-- Two and three registers, lane by lane. -/
def lanes2 (x y : List W32) (f : W32 → W32 → W32) : List W32 := (x.zip y).map fun p => f p.1 p.2
def lanes3 (x y z : List W32) (f : W32 → W32 → W32 → W32) : List W32 := (x.zip (y.zip z)).map fun p => f p.1 p.2.1 p.2.2

/-- 23 R354, R356 to R358, 27 R400: each operation of the bolter that runs writes its register of N lanes, or adds to the stores of
the pass; `BEND` goes on to the next row with zeroed registers, and after the last row commits the stores and the step. -/
def Obligations.BolterOperations : Prop :=
  ∀ (s s1 : State) (c : BCtx) (d a b x : BitVec 3) (h : Bool) (fm : BitVec 4) (im : BitVec 7) (locs : List Nat) (n : Nat),
    bctxOf s = some c → n = c.r.task.n →
    (c.b.row + 1 < 128 * c.b.pass + (c.r.task.passRows c.b.pass).length →
      exec .bend s = .next (updRun s c.ham c.m fun r => { r with bolt := some { c.b with
        row := c.b.row + 1, word := 0, regs := List.replicate 8 (List.replicate n 0) } })) ∧
    (¬ c.b.row + 1 < 128 * c.b.pass + (c.r.task.passRows c.b.pass).length → c.b.chk = none →
      (∀ x ∈ c.b.stores, x.busy s.mm = none) →
      exec .bend s = .next (endBolt (stepDone (c.b.stores.foldl (commitOne c) s) c.ham c.m) c.ham c.m)) ∧
    exec .bnop s = .next (updRun s c.ham c.m fun r => { r with bolt := some { c.b with word := c.b.word + 1 } }) ∧
    ((∀ j < n, 128 * (c.r.task.row0 + c.b.row) + (c.r.task.col0 + j) ∉ ((hamOf s c.ham).mill c.m).bad) →
    BoltSets (.bld d false) s c d ((List.range n).map fun j => tget 0#32 ((hamOf s c.ham).mill c.m).bin
      (128 * (c.r.task.row0 + c.b.row) + (c.r.task.col0 + j))) ∧
    BoltSets (.bld d true) s c d ((List.range n).map fun j => toF32 (FVal.ofInt (tget 0#32 ((hamOf s c.ham).mill c.m).bin
      (128 * (c.r.task.row0 + c.b.row) + (c.r.task.col0 + j))).toInt))) ∧
    BoltStores (.bst a) s s c ((c.reg a).zipIdx.map fun p =>
      .bin (128 * (c.r.task.row0 + c.b.row) + (c.r.task.col0 + p.2)) p.1) ∧
    BoltSets (.bconst d x) s c d (List.replicate n (f32 c.img (0x10 + 4 * x.toNat))) ∧
    (millAccess s c.ham c.r.task.asn (boltAddr c.img x.toNat) ((if h then 2 else 4) * n) .load true 3 = (.ok locs, s1) →
      exec (.bcolv d x h) s = .next (updRun s1 c.ham c.m fun r => { r with bolt := some { c.b with
        word := c.b.word + 1
        regs := c.b.regs.set d.toNat ((List.range n).map fun j =>
          loadedWord h (seenBits s1 (c.r.task.me c.ham) 1 locs (8 * (if h then 2 else 4) * j) (8 * if h then 2 else 4))) } })) ∧
    (millAccess s c.ham c.r.task.asn (boltAddr c.img x.toNat + BitVec.ofNat 64 ((if h then 2 else 4) * c.b.row))
        (if h then 2 else 4) .load true 3 = (.ok locs, s1) →
      exec (.browv d x h) s = .next (updRun s1 c.ham c.m fun r => { r with bolt := some { c.b with
        word := c.b.word + 1
        regs := c.b.regs.set d.toNat (List.replicate n
          (loadedWord h (seenBits s1 (c.r.task.me c.ham) 1 locs 0 (8 * if h then 2 else 4)))) } })) ∧
    BoltSets (.badd d a b) s c d (lanes2 (c.reg a) (c.reg b) fun u v => toF32 ((fv u).add (fv v))) ∧
    BoltSets (.bsub d a b) s c d (lanes2 (c.reg a) (c.reg b) fun u v => toF32 ((fv u).add (fv v).neg)) ∧
    BoltSets (.bmul d a b) s c d (lanes2 (c.reg a) (c.reg b) fun u v => toF32 ((fv u).mul (fv v))) ∧
    BoltSets (.bfma d a b x) s c d (lanes3 (c.reg a) (c.reg b) (c.reg x) fun u v w => toF32 (((fv u).mul (fv v)).add (fv w))) ∧
    BoltSets (.bmin d a b) s c d (lanes2 (c.reg a) (c.reg b) boltMin) ∧
    BoltSets (.bmax d a b) s c d (lanes2 (c.reg a) (c.reg b) boltMax) ∧
    BoltSets (.bclamp d a b x) s c d (lanes3 (c.reg a) (c.reg b) (c.reg x) fun u v w => boltMin (boltMax u v) w) ∧
    BoltSets (.brelu d a) s c d ((c.reg a).map fun u => boltMax u 0) ∧
    BoltSets (.bgelu d a) s c d ((c.reg a).map (gated .gelu geluArg)) ∧
    BoltSets (.bsilu d a) s c d ((c.reg a).map (gated .silu id)) ∧
    BoltSets (.btanh d a) s c d ((c.reg a).map boltTanh) ∧
    (∃ v, BoltSets (.bamax d a) s c d (List.replicate n v) ∧ (∀ u ∈ c.reg a, (magOf u).toNat ≤ v.toNat) ∧
      (v = 0 ∨ ∃ u ∈ c.reg a, v = magOf u)) ∧
    BoltSets (.bscale d a fm) s c d (List.replicate n (scaleWord (boltFmt fm.toNat) ((c.reg a).headD 0))) ∧
    (millAccess s c.ham c.r.task.asn (c.r.task.out + BitVec.ofNat 64 (c.b.row * boltPitch c.img))
        (((boltFmt (im.toNat % 16)).width * n + 7) / 8) .store false 3 = (.ok locs, s1) → im.getLsbD 5 = false →
      BoltStores (.bsto a b im) s s1 c [rowStore (c.r.task.out + BitVec.ofNat 64 (c.b.row * boltPitch c.img)) locs
        (boltFmt (im.toNat % 16)).width (((c.reg a).zip (c.reg b)).map fun p => (cvt (boltFmt (im.toNat % 16)) .rn (im.getLsbD 4)
          (if im.getLsbD 6 then boltQuot (fv p.1) (fv p.2) else fv p.1)).1)]) ∧
    (millAccess s c.ham c.r.task.asn (boltAddr c.img x.toNat + BitVec.ofNat 64 ((if h then 4 else 1) * c.b.row))
        (if h then 4 else 1) .store false 3 = (.ok locs, s1) →
      BoltStores (.bstsc a x h) s s1 c [.mem (boltAddr c.img x.toNat + BitVec.ofNat 64 ((if h then 4 else 1) * c.b.row)) locs
        (if h then natLe 4 ((c.reg a).headD 0).toNat
        else natLe 1 (scaleCode .rn true (fv ((c.reg a).headD 0))))]) ∧
    (millAccess s c.ham c.r.task.asn (boltAddr c.img x.toNat) 4 .store true 3 = (.ok locs, s1) →
      BoltStores (.bamaxg a x) s s1 c [.max (boltAddr c.img x.toNat) locs (magOf ((c.reg a).headD 0))])

/-! ## Happenings (03, 15 to 18, 22 to 27) -/

/-- A happening changes one stream only, to `x`. -/
def SetsStream (i : Instr) (s : State) (n : Nat) (x : Stream) : Prop :=
  ∃ s', exec i s = .next s' ∧ s' = { s with streams := s'.streams } ∧ streamOf s' n = x ∧
    ∀ m, m ≠ n → streamOf s' m = streamOf s m

/-- The fields of `SCTL` that a write sets while `en` is 0 (15 Table 15.2). -/
def sctlSet (v : Nat) (st : Stream) : Stream :=
  if st.en then st else { st with odie := v / 2 ^ 27 % 8, lsize := v / 2 ^ 15 % 32, asn := v % 2 ^ 12 }

/-- A write of `en` = 1 is refused: a bad ring size, a reserved bit, an address that is not aligned, a reset (15 R257). -/
abbrev SctlRefused (v : Nat) (st : Stream) : Prop :=
  st.lsize < 6 ∨ 24 < st.lsize ∨ v / 2 ^ 20 % 2 ^ 7 ≠ 0 ∨ v / 2 ^ 12 % 2 ^ 3 ≠ 0 ∨
    st.sbase.toNat % (64 * 2 ^ st.lsize) ≠ 0 ∨ st.scba.toNat % 64 ≠ 0 ∨ st.rst = true

/-- 15 R256 to R267, 16 R274 to R278: a tail write moves the tail, sets `ovf` or is ignored; a write of `SCTL` enables,
disables or is refused; a reset marks the stream, drops its acceptances and kills its gangs, and its end restarts the
indices at `res`; the event at `SHEAD` is offered, an unpublished slot sets `gap`; a barrier record arrives and is
consumed; a held offer and a pending time go on. That a refused enable keeps the other fields of the write is log 46 (DEDUCED),
and what the write of `headm` does where it cannot be made at the end of an offer is log 36. -/
def Obligations.StreamHappenings : Prop :=
  ∀ (s s1 : State) (n die : Nat) (v : W32) (b : Bytes) (locs : List Nat),
    SetsStream (.stailWrite n v) s n (
      if streamOpen (streamOf s n) = false ∨ v = (streamOf s n).stail ∨ 2 ^ 31 ≤ (v - (streamOf s n).stail).toNat then
        streamOf s n
      else if 2 ^ (streamOf s n).lsize < (v - (streamOf s n).shead).toNat then { streamOf s n with ovf := true }
      else { streamOf s n with stail := v }) ∧
    ((streamOf s n).posts = [] → SetsStream (.streamEnable n v) s n (
      if v.getLsbD 30 = false then { sctlSet v.toNat (streamOf s n) with en := false }
      else if SctlRefused v.toNat (sctlSet v.toNat (streamOf s n)) then
        { sctlSet v.toNat (streamOf s n) with cfgerr := true }
      else { sctlSet v.toNat (streamOf s n) with en := true, cfgerr := false })) ∧
    ((streamOf s n).rst = false → s1 = updStream s n (fun st => { st with rst := true, rstWait := true }) →
      (resetWaits s1 n = true → exec (.streamReset n) s = .next s1) ∧
      (resetWaits s1 n = false → exec (.streamReset n) s = .next (goReset s1 n))) ∧
    (drainDue s n = true → (streamOf s n).rstWait = true → exec (.streamResetDrain n) s = .next (goReset s n)) ∧
    ((streamOf (goReset s n) n).rstWait = false ∧ (streamOf (goReset s n) n).rst = (streamOf s n).rst ∧
      (streamOf (goReset s n) n).rstRes = reserved s n ∧ (streamOf (goReset s n) n).accepts = [] ∧
      (streamOf (goReset s n) n).queued = [] ∧ ∀ x ∈ (goReset s n).gangs, x.launch.stream ≠ n) ∧
    (drainDue s n = true → (streamOf s n).rstWait = false →
      ∃ s', exec (.streamResetDrain n) s = .next s' ∧ (streamOf s' n).rst = false ∧
      (streamOf s' n).stail = (streamOf s n).rstRes ∧ (streamOf s' n).shead = (streamOf s n).rstRes ∧
      (streamOf s' n).stall = false ∧ (streamOf s' n).dead = false ∧ (streamOf s' n).bar = none ∧
      (streamOf s' n).drop = 0) ∧
    (offerUnfinished s n = true → exec (.eventOffer n) s = .next (offerOn s n)) ∧
    (fetches s n = true →
      (offerUnfinished s n = false → readSlot s n = (.gap, s1) →
        exec (.eventOffer n) s = .next (updStream s1 n fun st => { st with gap := true })) ∧
      (offerUnfinished s n = false → readSlot s n = (.found b, s1) → field b 4 2 ≠ 0xFFFF →
        exec (.eventOffer n) s = .next (offerLoop n 200000 (updStream s1 n fun st => { st with
          hold := some (newOffer (stamped s1 b) (field (stamped s1 b) 8 8)) }))) ∧
      (readSlot s n = (.found b, s1) → field b 4 2 = 0xFFFF →
        ((∃ k ls, (blockAt s n (f64 b 16)).1 = .ok k ls ∧ blockLive k = true) ∨
          ((blockAt s n (f64 b 16)).1 ≠ .waits ∧ (finishOffer s n).isSome = true)) →
        exec (.barrierRecord n) s = .next (reachBarrier s1 n (f64 b 16)))) ∧
    (barrierOver s n = true → exec (.barrierRecordDone n) s = .next (consumeAt s n)) ∧
    (hayAccess s none (streamOf s n).odie (streamOf s n).asn ((streamOf s n).scba + 4#64) 4 4 .store true =
      (.ok b locs, s1) → consumeAt s n = consume s1 n locs) ∧
    (∀ h, holdOver s n = true → (streamOf s n).hold = some h → exec (.overflowHoldEnd n) s = .next (offerOn
      (endHold s n (!((autoOf s (streamOf s n).odie h.slot).any fun a => a.armed.isSome))) n)) ∧
    (∀ m p, timeDue s die = some (m, p) →
      (p.edge.isSome = true → exec (.deadlineEdge die) s = .next (processTime s die m p)) ∧
      (p.edge.isSome = false → exec (.invariantExpiry die) s = .next (processTime s die m p)))

/-- 17 R288 to R300, R304, R306, 03 R27, R40: an acceptance's template is worked on, a launch record enters its queue, the
lottery draws by tickets with the xor-shift of R296 and a placed record commits or leaves its queue; groups and gangs
complete, a barrier releases its threads, and a gang without progress fails. That a placed record waits, an adopted owner's too,
while a parked group's wake has come is log 101 (DEDUCED from 03 R39). -/
def Obligations.LaunchHappenings : Prop :=
  ∀ (s s1 : State) (n die q : Nat) (tag grp : Nat) (k : BarKind) (idx : Nat),
    (∀ x rest t, acceptReady s n = true → (streamOf s n).accepts = x :: rest → x.read = none →
      readTemplate s (hayWho n (streamOf s n).odie) (streamOf s n).odie (streamOf s n).asn x.tmpl = (.ok t, s1) →
      exec (.argBlockWrite n) s = .next ((launchWith (updAccept s1 n fun x => { x with read := some t }) n
        { x with read := some t } t).getD (updAccept s1 n fun x => { x with read := some t }))) ∧
    (∀ x rest t, acceptReady s n = true → (streamOf s n).accepts = x :: rest → x.read = some t →
      exec (.argBlockWrite n) s = .next ((launchWith s n x t).getD s)) ∧
    (∀ l rest, (streamOf s n).queued = (q, l) :: rest → (streamOf s n).rst = false →
      (queueOf s (streamOf s n).odie q).recs.length < 32 →
      exec (.launchEnqueue n) s = .next (offerOn (updStream (enqueueLaunch s (streamOf s n).odie q l) n
        fun st => { st with queued := rest }) n)) ∧
    ((((eligible s die).map fun e => e.2.tick).sum ≠ 0) →
      (dieOf (drawQueue s die).2 die).lstate =
        (let a := (dieOf s die).lstate ^^^ ((dieOf s die).lstate <<< 13); let b := a ^^^ (a >>> 17); b ^^^ (b <<< 5)) ∧
      ∃ pre e post, eligible s die = pre ++ e :: post ∧ (drawQueue s die).1 = some e.1 ∧
        (pre.map fun e => e.2.tick).sum ≤
          (dieOf (drawQueue s die).2 die).lstate.toNat % ((eligible s die).map fun e => e.2.tick).sum ∧
        (dieOf (drawQueue s die).2 die).lstate.toNat % ((eligible s die).map fun e => e.2.tick).sum <
          (pre.map fun e => e.2.tick).sum + e.2.tick) ∧
    (∀ l rest cores, drawDue s die = true → drawQueue s die = (some q, s1) → (queueOf s1 die q).recs = l :: rest →
      unplaceable l.tmpl = false →
      (placeGang s1 die l.tmpl = some cores → exec (.lotteryDraw die) s = .next (updDie s1 die fun d => { d with
        placed := d.placed ++ [⟨q, l, cores, none, [], none, false⟩], rrp := ((cores.getLast?.getD 0) % 128 + 1) % 128 })) ∧
      (placeGang s1 die l.tmpl = none →
        exec (.lotteryDraw die) s = .next (updQueue s1 die q fun x => { x with blk := true }))) ∧
    (∀ p p' l t, (dieOf s die).placed = [p] → p.hold = none → p.owner = none → p.begun = false →
      wakesFirst s die = false → (queueOf s die p.queue).recs.head? = some l → l.tag = p.launch.tag →
      placeFits s p = true →
      commitWrites die (commitList { p with begun := true }) { p with begun := true }
        (setPlaced s die { p with begun := true }) = (.done, p', s1) →
      startGang (unqueueTag (dropPlaced s1 die p') die p'.queue p'.launch.tag) die p'.queue p'.launch p'.cores p'.owner =
        some t → exec (.gangCommit die) s = .next t) ∧
    (wakesFirst s die = true → exec (.gangCommit die) s = .next s) ∧
    (∀ g, groupOf s ⟨tag, grp⟩ = some g → groupQuiet s g = true →
      exec (.groupComplete tag grp) s = .next (finishGroup s g)) ∧
    (∀ x, gangOf s tag = some x → gangDue s x = true → exec (.gangComplete tag) s = .next (completeGang s x)) ∧
    (barDue s tag k idx = true → exec (.barrierComplete tag k idx) s = .next (completeBarrier s tag k idx)) ∧
    (∀ x, gangOf s tag = some x → timeoutDue s x = true → ∃ s', exec (.progressTimeout tag) s = .next s' ∧
      ∀ y, gangOf s' tag = some y → y.stopped = true ∧ y.fail = some (x.fail.getD 0x71))

/-- 03 R31, R32, R35 to R37, R41, R42, 06 R105, R106, 09 R176, R178, 18 R313, R314, 21 R323: a complete meeting releases
its threads, a due fairness count moves the warp, a pending growth is granted or fails, a group swaps out, resumes, adopts
or is pre-empted where it is due, and otherwise nothing changes: log 11 (DESIGN CHOICE). That a gang resumes whole on cores that
the model picks is log 33, and the number of a re-formed warp (`usedNums`) is log 87 (DESIGN CHOICE). -/
def Obligations.GroupHappenings : Prop :=
  ∀ (s : State) (tag grp core num : Nat) (a : W64) (g : Group), groupOf s ⟨tag, grp⟩ = some g →
    (onCore g = true → a ≠ 0 → (∃ t ∈ g.threads, t.held = true ∧ t.meet = a) →
      (∀ t ∈ g.threads, t.meet = a → t.held = true ∨ t.wait = .exited) →
      exec (.meetingRelease tag grp a) s = .next (progress (unblockFreed s (updGroup s g.gid fun x =>
        reform (modThreads ((g.threads.filter fun t => t.held && t.meet = a).map (·.tid)) (releaseThread a) x)
          (usedNums s (coreOf g)) (owedOf s g ((g.threads.filter fun t => t.held && t.meet = a).map (·.tid))) .meeting
          ((g.threads.filter fun t => t.held && t.meet = a).map (·.tid))) (coreOf g)) g)) ∧
    (∀ w pc more, g.warps.find? (fun w => w.num = num) = some w → g.fair ≠ 0 → g.fair ≤ w.fcnt → onCore g = true →
      issueOrder g w = pc :: more → exec (.fairnessMove tag grp num) s = .next (moveWarp s g.gid num pc)) ∧
    (∀ n q, pendingGrow g = some (n, q) → onCore g = true → growServed s g n q (growSince g) = true →
      exec (.reggrowGrant tag grp) s = .next (updGroup s g.gid fun x =>
        growGroup n q { x with threads := x.threads.map (endGrow true) })) ∧
    (∀ y, youngest s core = some y → growStuck s core = true →
      exec (.reggrowFail core) s = .next (updGroup s y.gid fun x => { x with threads := x.threads.map (endGrow false) })) ∧
    (swapDue s g = true → exec (.swapOut tag grp) s = .next (parkGroup s g.gid false .parked)) ∧
    (roomFor s g core = true → g.place = .parked → wakes s g = true →
      exec (.groupResume tag grp core) s = .next (resumeGroup s g.gid core none)) ∧
    (roomFor s g core = true → g.place = .preempted → (∃ x, gangOf s tag = some x ∧ x.preSaved = true) →
      exec (.groupResume tag grp core) s = .next (resumeGang s tag g.gid core)) ∧
    (adoptionDue s g = true → exec (.adoption tag grp) s = .next (searchRecs g.gid
      (distinct (g.threads.filterMap foundRec)) (coverThreads s g.gid (g.threads.map (·.tid))))) ∧
    (helperDue s g = true → (∀ x, gangOf s tag = some x → x.preSent = false) →
      exec (.helperResume tag grp) s = .next (resumeHelper s g)) ∧
    (∀ x, helperDue s g = true → gangOf s tag = some x → x.preSent = true → x.stopped = false →
      exec (.helperResume tag grp) s = .next (signalGroup (resumeHelper s g) g.gid x.preDue)) ∧
    (∀ x, gangOf s tag = some x → signalDue s x = true → ∃ s', exec (.preemptSignal tag) s = .next s' ∧
      ∀ y, gangOf s' tag = some y → y.preSent = true) ∧
    (∀ x, gangOf s tag = some x → deadlineDue s x = true →
      exec (.preemptDeadline tag) s = .next (markSaved ((gangGroups s tag).foldl (fun s g =>
        if answered s g then keptSave s g.gid else parkGroup s g.gid true .preempted) s) tag)) ∧
    (swapDue s g = false → exec (.swapOut tag grp) s = .next s) ∧
    (adoptionDue s g = false → exec (.adoption tag grp) s = .next s) ∧
    (onCore g = true → g.present ≠ [] → exec (.helperResume tag grp) s = .next (presentAll s g.gid g.present)) ∧
    (g.present = [] → helperDue s g = false → exec (.helperResume tag grp) s = .next s)

/-- The zeroing of a region of a bin. -/
def ZeroedBin (x y : Table W32) (row col rows cols : Nat) : Prop :=
  ∀ k, tget 0#32 y k = if row ≤ k / 128 ∧ k / 128 < row + rows ∧ col ≤ k % 128 ∧ k % 128 < col + cols then 0 else tget 0#32 x k

/-- 22 R327 to R336, 23 R341, R347, R354, 25 R364 to R368, 26 R383: held instructions go on when the engine takes them, a
ready task is issued to a mill, its steps run in order (one that adds to a spoilt word of the bin fails with 0x37, 27
R400; the address 0 and the operand 0 of that failure are log 106's, DEDUCED), it completes with its slot and count; a mill is held and released;
a copy's units are performed in any order and it completes; a counted release is applied once its accesses have arrived. -/
def Obligations.EngineHappenings : Prop :=
  ∀ (s s1 : State) (tag grp num ham m : Nat) (g : Group) (h : Held) (r : Run) (p : Nat), m < 2 →
    (heldOf s ⟨tag, grp⟩ num = some (g, h) → stillHeld g h ≠ [] →
      (∀ t, h.what = .mtask t → millerTakes s (coreOf g / 8) t = true →
        (∀ op, g.slots.getD t.slot .idle ≠ .pending op) →
        exec (.mtaskEnqueue tag grp num) s =
          .next (queueTask (endHeld s g.gid num h (stillHeld g h)) (coreOf g / 8) t)) ∧
      (∀ x, h.what = .copy x → (hamOf s (coreOf g / 8)).copies.length < 32 →
        exec (.copyEnqueue tag grp num) s =
          .next (queueCopy (endHeld s g.gid num h (stillHeld g h)) (coreOf g / 8) x)) ∧
      (∀ todo kd, h.what = .bldp todo kd →
        exec (.bldpReplace tag grp num) s = .next (bldpRun ⟨tag, grp⟩ num (todo.length + 1) s))) ∧
    (∀ t, nextIssue (hamOf s ham) (hamOf s ham).queue = some (t, m) →
      exec (.taskIssue ham) s = .next (issueTask s ham t m) ∧ t ∈ (hamOf s ham).queue ∧ t.ready = true ∧
        ((hamOf s ham).mill m).run = none ∧ ((hamOf s ham).mill m).hold = false) ∧
    (nextStep s ham m = some (r, .z p) → ∃ s', exec (.zeroStep ham m) s = .next (stepDone s' ham m) ∧
      ZeroedBin ((hamOf s ham).mill m).bin ((hamOf s' ham).mill m).bin (r.task.row0 + 128 * p) r.task.col0
        (min 128 (r.task.m - 128 * p)) r.task.n) ∧
    (∀ k ws wa wb, nextStep s ham m = some (r, .x p k) → kStep s ham m r p k = (.ok (ws, wa, wb), s1) →
      (∀ w ∈ ws, w.1 ∉ ((hamOf s1 ham).mill m).bad) →
      exec (.kStep ham m) s = .next (stepDone (updMill s1 ham m fun x => { x with
        bin := ws.foldl (fun b w => tset 0#32 b w.1 w.2) x.bin
        bad := x.bad.filter fun k => !(ws.any fun w => w.1 = k)
        run := x.run.map fun r => { r with winA := wa, winB := wb } }) ham m)) ∧
    (∀ ws wa wb, nextStep s ham m = some (r, .l p) → loadAdd s ham m r p = (.ok (ws, wa, wb), s1) →
      (∀ w ∈ ws, w.1 ∉ ((hamOf s1 ham).mill m).bad) →
      exec (.loadAddStep ham m) s = .next (stepDone (updMill s1 ham m fun x => { x with
        bin := ws.foldl (fun b w => tset 0#32 b w.1 w.2) x.bin
        bad := x.bad.filter fun k => !(ws.any fun w => w.1 = k)
        run := x.run.map fun r => { r with winA := wa, winB := wb } }) ham m)) ∧
    (∀ k ws wa wb, nextStep s ham m = some (r, .x p k) → kStep s ham m r p k = (.ok (ws, wa, wb), s1) →
      (∃ w ∈ ws, w.1 ∈ ((hamOf s1 ham).mill m).bad) →
      exec (.kStep ham m) s = .next (stopStep s1 ham m (.fail 0x48 0x37 0 0 0))) ∧
    (s.sch.bolt = none → nextStep s ham m = some (r, .e p) → ∃ s', exec (.epilogueStep ham m) s = .next s' ∧
      s'.sch.bolt = some (ham, m) ∧ s'.mm = s.mm ∧ ((hamOf s' ham).mill m).run = some { r with
        bolt := some ⟨p, 128 * p, 0, List.replicate 8 (List.replicate r.task.n 0), [], none⟩ }) ∧
    (∀ x k, copyOf s ham k = some x → x.post = none → x.hold = none → mayStart (hamOf s ham) x = true →
      (∀ u y, x.fail = none → u ∉ x.units → x.unit u = some y →
        exec (.copyUnit ham k u) s = .next (doUnit s ham x u y)) ∧
      (x.moved = true → exec (.copyCompletion ham k) s = .next (completeCopy s ham x))) ∧
    (∀ t k, (hamOf s ham).queue.find? (fun t => t.id = k && t.failed.isSome) = some t →
      exec (.taskCompletion ham k) s = .next (completeTask (updHam s ham fun h =>
        { h with queue := h.queue.filter fun x => x.id ≠ k }) ham t 0 0 t.failed)) ∧
    (∀ k, (hamOf s ham).queue.find? (fun t => t.id = k && t.failed.isSome) = none →
      endedOn (hamOf s ham) k = some (m, r) →
      exec (.taskCompletion ham k) s = .next (completeTask (updMill s ham m fun x =>
        { x with run := none, held := false }) ham r.task m r.start r.ended)) ∧
    (∃ s', exec (.millHold ham m) s = .next s' ∧ ((hamOf s' ham).mill m).hold = true ∧
      ((hamOf s' ham).mill m).run = ((hamOf s ham).mill m).run ∧ ((hamOf s' ham).mill (1 - m)) = (hamOf s ham).mill (1 - m)) ∧
    (∃ s', exec (.millRelease ham m) s = .next s' ∧ ((hamOf s' ham).mill m).hold = false ∧
      ((hamOf s' ham).mill m).held = false ∧ ((hamOf s' ham).mill m).run = ((hamOf s ham).mill m).run) ∧
    (∀ x k, s.fab.strels.find? (fun x => x.id = k) = some x → x.count ≤ arrivedOf s.fab x.gid x.dev →
      exec (.strelApply k) s = .next (applyStrel s x))

/-- What a window's block holds after a write of `WCTL`: `cfgerr` is cleared by a 1, the formats are set out of use. -/
def wctlSet (v : W32) (x : Window) : Window :=
  let y := { x with cfgerr := x.cfgerr && !v.getLsbD 30 }
  if x.on || x.busy then y
  else { y with sfmt := v.toNat / 2 ^ 10 % 4, geo := v.toNat / 2 ^ 8 % 4, efmt := v.toNat / 2 ^ 4 % 16 }

/-- Writes that the fabric makes: a release at `scope`, where that is not 0. -/
abbrev fabricWrites (s : State) (rmw : Bool) (scope : Nat) (ws : List (Nat × Byte)) : State :=
  writeAs s { deviceWriter with src := some (4, .fabric), rmw := rmw } ws fabricWho scope carryFab

/-- 01 R17, R19, 10 R192, R194, R200, R203, R204, 11 R217, 26 R372, R379, 27 R400: host and fabric writes reach their
homes, a marked read takes the mark, an ownership request writes back, an error at eviction and a scrub poison their
granule, the node's throttle has its hysteresis, windows are enabled and disabled, and translations are invalidated; corrected
errors are counted (27 R399). That a fabric load and a recall change nothing is log 79 (DESIGN CHOICE), the host's and the
fabric's place in the order of writes is log 20, the accesses that `XLI_DONE` waits for are log 103 and the `addr` of an eviction
record is log 56 (both DEDUCED). -/
def Obligations.MemoryHappenings : Prop :=
  ∀ (s : State) (addr core count w g : Nat) (b : Bytes) (v : W32),
    (addr + b.length ≤ Config.localBytes → homeWaits s ((List.range b.length).map (addr + ·)) = false → s.host.heldWr = [] →
      exec (.hostMemoryWrite addr b) s = .next (hostRelease s
        (applyWrite s { deviceWriter with src := some (hostPath, .host) } (writesAt addr b))
        ((List.range b.length).map (addr + ·)))) ∧
    (b ≠ [] → addr + b.length ≤ Config.localBytes → homeWaits s ((List.range b.length).map (addr + ·)) = true →
      exec (.hostMemoryWrite addr b) s = .next { s with host := { s.host with heldWr := s.host.heldWr ++ [(addr, b)] } }) ∧
    (b ≠ [] → addr + b.length ≤ Config.localBytes → s.fab.waits = [] →
      (homeWaits s ((List.range b.length).map (addr + ·)) = false →
        exec (.fabAccess none addr (.store b)) s = .next (fabricWrites s false 0 (writesAt addr b)) ∧
        exec (.fabAccess none addr (.release b)) s = .next (fabricWrites s false 7 (writesAt addr b))) ∧
      (homeWaits s ((List.range b.length).map (addr + ·)) = true →
        exec (.fabAccess none addr (.store b)) s =
          .next { s with fab := { s.fab with waits := [(none, addr, .store b)] } })) ∧
    (addr + 4 ≤ Config.localBytes → homeWaits s ((List.range 4).map (addr + ·)) = false → s.fab.waits = [] →
      exec (.fabAccess none addr (.add32 v)) s =
        .next (fabricWrites s true 0 (writesAt addr (natLe 4 (BitVec.ofNat 32 (homeNat s.mm addr 4) + v).toNat)))) ∧
    (∀ p, (∀ k, exec (.fabAccess p addr (.load k)) s = .next s) ∧ exec (.fabAccess p addr .recall) s = .next s) ∧
    (homeWaits s [addr] = false → exec (.hostMarkedRead addr) s = .next { s with
      mm := acquire (takeMark s.mm addr) hostWho 7 ((List.range 4).map (addr / 4 * 4 + ·)) }) ∧
    (homeWaits s [addr] = true → exec (.hostMarkedRead addr) s = .next s) ∧
    (∀ m : Bytes, b ≠ [] → m.length = b.length → addr + b.length ≤ Config.localBytes → (∀ x ∈ m, x ≠ 0#8) →
      homeWaits s ((List.range b.length).map (addr + ·)) = false →
      (∀ k < b.length, poisoned s (addr + k) = false) → s.fab.waits = [] →
      exec (.fabAccess none addr (.masked b m)) s = .next (fabricWrites s false 0 ((writesAt addr
        ((List.range b.length).map fun k =>
          (m.getD k 0#8 &&& b.getD k 0#8) ||| (~~~m.getD k 0#8 &&& homeByte s.mm (addr + k))))))) ∧
    exec (.hostOwnershipRequest addr) s = .next (wakeAll { s with mm := writeBackLine s.mm addr }
      (writesAt (128 * addr) (homeBytes (writeBackLine s.mm addr) (128 * addr) 128))) ∧
    (tfind s.mm.writers (g / 4) = none → exec (.evictionError g) s = .next s) ∧
    (tfind s.mm.writers (g / 4) = some none →
      exec (.evictionError g) s = .next { s with mm := poisonGranule (writeBackLine s.mm (g / 4)) g }) ∧
    (∀ tag who, tfind s.mm.writers (g / 4) = some (some (tag, who)) → exec (.evictionError g) s =
      .next (postRecord { s with mm := poisonGranule (writeBackLine s.mm (g / 4)) g } (who.toNat % 2 ^ 10 / 128)
        ((evictionRecord tag who g).bytes (nowNs s)))) ∧
    g ∈ (poisonGranule (writeBackLine s.mm (g / 4)) g).poison ∧
    (∃ s', exec (.nodeThrottle core count) s = .next s' ∧ s' = { s with nodes := s'.nodes } ∧
      nodeOf s' core = ⟨count, if 64 ≤ count then true else if count ≤ 32 then false else (nodeOf s core).thr⟩ ∧
      ∀ k, k ≠ core → nodeOf s' k = nodeOf s k) ∧
    (32 * g < Config.localBytes → exec (.patrolScrub g .clean) s = .next s ∧
      (∃ s', exec (.patrolScrub g .corrected) s = .next s' ∧ s'.mm = s.mm ∧
        (dieOf s' (homeDie (32 * g))).ecc = (dieOf s (homeDie (32 * g))).ecc + 1) ∧
      ∃ s', exec (.patrolScrub g .uncorrectable) s = .next s' ∧ s' = { s with mm := s'.mm } ∧ g ∈ s'.mm.poison ∧
        ∀ l, homeByte s'.mm l = homeByte s.mm l) ∧
    (w < 16 → v.getLsbD 1 = true → (winOf s w).on = false → (winOf s w).busy = false →
      winRefused s w (wctlSet v (winOf s w)) v.toNat = true →
      exec (.windowEnable w v) s = .next (setWin s w { wctlSet v (winOf s w) with cfgerr := true, en := false })) ∧
    (w < 16 → v.getLsbD 1 = true → (winOf s w).on = false → (winOf s w).busy = false →
      winRefused s w (wctlSet v (winOf s w)) v.toNat = false → ∃ s', exec (.windowEnable w v) s = .next s' ∧
      s' = { s with mm := { s.mm with windows := s'.mm.windows } } ∧
      winOf s' w = { wctlSet v (winOf s w) with busy := true, en := true }) ∧
    (w < 16 → v.getLsbD 1 = false → (winOf s w).on = true →
      exec (.windowDisable w v) s = .next (setWin s w { wctlSet v (winOf s w) with on := false, busy := true, en := false })) ∧
    ((winOf s w).busy = true → ∀ on, (winOf s w).en = on → ∃ s1, (∀ k, winOf s1 k = if k = w then
        { winOf s w with busy := false, on := on } else winOf s k) ∧ s1.mm.mem = s.mm.mem ∧
        exec (if on then .windowEnableDone w else .windowDisableDone w) s = .next (homesFree s1)) ∧
    (s.mm.xliCtl.getLsbD 31 = false → v.getLsbD 31 = true → ∃ s', exec (.xliInvalidate v) s = .next s' ∧
      s'.mm.xliCtl.getLsbD 31 = true ∧ s'.mm.mem = s.mm.mem ∧
      ∀ e, e ∈ s'.mm.tlb ↔ e ∈ s.mm.tlb ∧ ¬ ((v.getLsbD 30 = true ∨ e.asn = v.toNat / 2 ^ 16 % 2 ^ 12) ∧
        (v.toNat % 2 ^ 16 = 0 ∨
          (e.vpage + 2 ^ 41 - s.mm.xliAddr.toNat % 2 ^ 57 / 65536) % 2 ^ 41 < v.toNat % 2 ^ 16))) ∧
    (s.mm.xliCtl.getLsbD 31 = true → exec (.xliInvalidate v) s = .next s) ∧
    (s.mm.xliCtl.getLsbD 31 = true → (∀ k ∈ underWay s, k ∉ s.mm.xliWait) →
      exec .xliDone s = .next { s with mm := { s.mm with xliCtl := s.mm.xliCtl &&& 0x7FFFFFFF, xliWait := [] } })

/-- A happening changes one die only, to `x`. -/
def SetsDie (i : Instr) (s : State) (n : Nat) (x : Die) : Prop :=
  ∃ s', exec i s = .next s' ∧ s' = { s with dies := s'.dies } ∧ dieOf s' n = x ∧ ∀ m, m ≠ n → dieOf s' m = dieOf s m

/-- A command of the host automaton port is performed when it is due (16 R286). -/
def PortRuns (i : Instr) (s : State) (op : Nat) : Prop :=
  s.host.port.go = true → portOp s.host.port = op → portDue s op = true → exec i s = .next ((portRun s).getD s)

/-- 16 R286, 17 R295, 27 R387 to R389, R392, R395, R397, R398, 17 Table 17.6: the port's commands, the actions and the
registers of a reeve queue, restart, heartbeats and hang declarations, samples of the supply and tables of codes. That a sample
which raises the supply to its ceiling does not exhaust the margin is log 57, that a restart drops the running image is log 77
(both DEDUCED), and that a queue's action is done in the step that starts it is log 64 (DESIGN CHOICE). -/
def Obligations.ReeveHappenings : Prop :=
  ∀ (s : State) (die slot : Nat) (v : W32) (a : W64) (o : OpenRec) (pdm : BitVec 16) (t1 t2 t3 : Bytes),
    PortRuns .portLoad s 0 ∧ PortRuns .portArm s 1 ∧ PortRuns .portDisarm s 2 ∧ PortRuns .portDisarmFree s 3 ∧
    PortRuns .portSave s 4 ∧ PortRuns .portSaveStop s 5 ∧ PortRuns .portRestore s 6 ∧
    (s.host.port.go = true → portOp s.host.port = 7 → exec .portReservedOp s = .next { s with host := { s.host with
      port := { s.host.port with go := false, hres := 0x8000000B } } }) ∧
    (openRec s die slot = none →
      SetsDie (.rqRetry die slot) s die { dieOf s die with act := 0, aslot := slot, aerr := true } ∧
      SetsDie (.rqFail die slot) s die { dieOf s die with act := 1, aslot := slot, aerr := true } ∧
      SetsDie (.rqDrop die slot) s die { dieOf s die with act := 2, aslot := slot, aerr := true }) ∧
    (openRec s die slot = some o → o.notice ≠ some 1 →
      exec (.rqRetry die slot) s = .next (slotFreed (retryRef (some (die, slot)) (updDie s die fun d =>
        { d with act := 0, aslot := slot, aerr := false, recs := tdel d.recs slot })) die) ∧
      exec (.rqFail die slot) s = .next (slotFreed (failRef (some (die, slot)) o.addr (updDie s die fun d =>
        { d with act := 1, aslot := slot, aerr := false, recs := tdel d.recs slot })) die) ∧
      SetsDie (.rqDrop die slot) s die { dieOf s die with act := 2, aslot := slot, aerr := true }) ∧
    (openRec s die slot = some o → o.notice = some 1 →
      exec (.rqDrop die slot) s = .next (slotFreed (dropHeld (updDie s die fun d =>
        { d with act := 2, aslot := slot, aerr := false }) (some (die, slot))) die)) ∧
    ((v - (dieOf s die).rqcons).toNat ≤ ((dieOf s die).rqprod - (dieOf s die).rqcons).toNat →
      exec (.rqconsWrite die v) s = .next (slotFreed (updDie s die fun d => { d with rqcons := v }) die)) ∧
    (((dieOf s die).rqprod - (dieOf s die).rqcons).toNat < (v - (dieOf s die).rqcons).toNat →
      exec (.rqconsWrite die v) s = .next s) ∧
    (a.toNat % 65536 = 0 → die * Config.dieBytes ≤ a.toNat → a.toNat + 65536 ≤ (die + 1) * Config.dieBytes →
      exec (.rqbaseWrite die a) s = .next (slotFreed (updDie s die fun d => { d with rqbase := a, rqset := true }) die)) ∧
    (a.toNat % 65536 ≠ 0 → exec (.rqbaseWrite die a) s = .next s) ∧
    ((dieOf s die).hung = true → (dieOf s die).rrst = false → ∃ s', exec (.reeveRestart die) s = .next s' ∧
      (dieOf s' die).rrst = true ∧ tfind s'.host.running die = none ∧ s'.mm = s.mm) ∧
    (DevFn.reeve die ∈ s.host.ready →
      SetsDie (.heartbeat die false) s die { dieOf s die with hbeat := (dieOf s die).hbeat + 1, beatP := nowNs s } ∧
      SetsDie (.heartbeat die true) s die { dieOf s die with beatC := nowNs s }) ∧
    (reeveRuns s die = true → reeveRuns s (Nat.xor die 1) = true → (dieOf s die).beatP + 1000000 ≤ nowNs s →
      exec (.hangDeclare die) s = .next (declareHung s die (Nat.xor die 1))) ∧
    (reeveRuns s die = true → (dieOf s die).moved = false → reeveRuns s (Nat.xor die 4) = true →
      (dieOf s die).beatC + 1200000 ≤ nowNs s →
      exec (.columnHangDeclare die) s = .next (declareHung s die (Nat.xor die 4))) ∧
    (reeveRuns s die = true → ¬ (1440 ≤ (dieOf s die).margin.vnow ∧ pdm.toNat < 10) →
      SetsDie (.marginSample die pdm) s die { dieOf s die with margin := (let m := { (dieOf s die).margin with pdm := pdm }
        if pdm = 0xFFFF then m
        else if pdm.toNat < 20 ∧ m.vnow < 1440 then { m with vnow := m.vnow + 5, vsteps := m.vsteps + 1 }
        else if 40 < pdm.toNat ∧ 1300 < m.vnow then { m with vnow := m.vnow - 5 }
        else m) }) ∧
    (reeveRuns s die = true → ∃ s', exec (.codeTableRefresh die t1 t2 t3) s = .next s' ∧ s' = { s with dies := s'.dies } ∧
      ∀ i, i < 128 → tget 0#8 (dieOf s' die).ptemp i = t1.getD i 0 ∧ tget 0#8 (dieOf s' die).pdroop i = t2.getD i 0 ∧
        tget 0#8 (dieOf s' die).pinj i = t3.getD i 0) ∧
    SetsDie (.lstateWrite die v) s die { dieOf s die with lstate := if v = 0 then 1 else v }

/-- 00 R4, 01 R17, 10 R197, 15 R260, 16 R286, 26 R376, 27 R391, R402, R403: attestation, the start of a controller's
image, functions that become ready or fail, the fabric's registers, writes of registers by their places, and the reset of
the device, which keeps memory, its poison and the fuses (log 62). Block 16 as the place of the address-space table is log 76, that
reserved bytes of a header fail its image is log 13, and that a report is made in one step is log 64 (all DESIGN CHOICE). -/
def Obligations.HostHappenings : Prop :=
  ∀ (s : State) (n ctl off : Nat) (v : W32) (f : DevFn) (img : FwImage),
    (∃ s', exec .attestRequest s = .next s' ∧ s'.mm = s.mm ∧ s'.host.report.length = 352 ∧
      s'.host.report.take 8 = natLe 4 0x41540001 ++ natLe 4 s.host.fused.toNat ∧
      (s'.host.report.drop 200).take 56 =
        ((List.range 12).map fun i => natLe 4 (tget 0#32 s.host.nonce i).toNat).flatten ++ natLe 8 (nowNs s)) ∧
    (ctlFn ctl ∉ s.host.failed → ctlFn ctl ∉ s.host.ready → tfind s.host.running ctl = none →
      (img.magic = 0x46570001 ∧ img.kind = (if ctl < 8 then 1 else 2) ∧ s.host.fused.toNat ≤ img.sv.toNat ∧
        img.rsvZero = true ∧ img.ecdsaOk = true ∧ img.lmsOk = true →
        ∃ s', exec (.controllerBoot ctl img) s = .next s' ∧ tfind s'.host.running ctl = some img ∧
          s'.host.fused = (if s.host.fused.toNat < img.minv.toNat then img.minv else s.host.fused) ∧ s'.mm = s.mm) ∧
      (img.magic ≠ 0x46570001 ∨ img.sv.toNat < s.host.fused.toNat ∨ img.rsvZero = false ∨ img.ecdsaOk = false ∨
        img.lmsOk = false → exec (.controllerBoot ctl img) s = .next (setFailed s (ctlFn ctl)))) ∧
    (f ∉ s.host.ready → f ∉ s.host.failed →
      (readyDue s f = true → exec (.functionReady f) s = .next (afterReady (setReady s f true) f)) ∧
      (readyDue s f = false → exec (.functionReady f) s = .next s) ∧
      ((∀ k, f ≠ .channel k) → exec (.bringupFail f) s = .next (setFailed s f)) ∧
      (∀ k, f = .channel k → exec (.bringupFail f) s = .next (homesFree (setFailed s f)))) ∧
    exec (.fstripeWrite v) s = .next { s with fab := { s.fab with
      sg := if 12 ≤ v.toNat / 2 ^ 21 % 32 ∧ v.toNat / 2 ^ 21 % 32 ≤ 30 then v.toNat / 2 ^ 21 % 32 else s.fab.sg
      sn := if v.toNat % 2 ^ 10 ≤ 576 then v.toNat % 2 ^ 10 else s.fab.sn } } ∧
    exec .fabricPortTrained s = .next { s with fab := { s.fab with fon := true } } ∧
    (off % 4 ≠ 0 → exec (.registerWrite 0 off v) s = .next s) ∧
    (n < 4096 → exec (.registerWrite 0 (0x1000 * n) v) s = .next (updStream s n (tailWrite v))) ∧
    (n < 8 → exec (.registerWrite 0 (0x1006000 + 0x200 * n) v) s =
      .next (updDie s n fun d => { d with lstate := if v = 0 then 1 else v })) ∧
    (n < 12 → exec (.registerWrite 0 (0x100C000 + 4 * n) v) s =
      .next { s with host := { s.host with nonce := tset 0#32 s.host.nonce n v } }) ∧
    (s.host.port.go = true → n < 6 → exec (.registerWrite 0 (0x100E000 + 4 * n) v) s = .next s) ∧
    (s.host.port.go = false → exec (.registerWrite 0 0x100E010 v) s = .next { s with host := { s.host with
      port := { s.host.port with hop := v &&& 7, orsv := decide (v.toNat / 2 ^ 3 % 2 ^ 28 ≠ 0), go := v.getLsbD 31 } } }) ∧
    (n < 4096 → ∃ s', exec (.registerWrite 16 (16 * n) v) s = .next s' ∧ s'.mm.mem = s.mm.mem ∧
      tget 0#64 s'.mm.asnTab n = hi32 (tget 0#64 s.mm.asnTab n) ++ v) ∧
    (∃ s', exec .deviceReset s = .next s' ∧ s'.mm.mem = s.mm.mem ∧ s'.mm.poison = s.mm.poison ∧
      s'.host.fused = s.host.fused ∧ s'.groups = [] ∧ s'.gangs = [] ∧ s'.dies = [] ∧ s'.hams = [] ∧ s'.streams = [] ∧
      s'.boxes = [] ∧ s'.reqs = [] ∧ s'.errs = [] ∧ s'.fab = State.reset.fab ∧ s'.host.ready = [] ∧ s'.mm.asnTab = [])

/-! ## Every core instruction -/

/-- 04 R63, R64: whatever its fields, a core instruction with no active thread moves its set on and changes nothing else,
but that an opcode with a result advances the latches with an empty `b1`; with an active thread and an illegal encoding it
raises `ILLOP` at its own address for its active threads, before it changes anything, and with a legal encoding and operands
that `operandsLegal` calls illegal (04 Table 4.11) it raises `ILLOPND` so. With legal operands it runs by its own meaning, one
function of the issuing context and the state; 27 R400, log 106: where some of its threads read a register with an uncorrectable
error, those enter the handler for class 4 cause 0x37, with address and operand 0, and the others run by that meaning, or, where
there are none, the set moves on. -/
def Obligations.IllegalAndInactive : Prop :=
  (∀ (s : State) (i : Instr) (g : BitVec 5) (c : Ctx), guardOf i = some g → ctxOf s g = some c →
    (c.act = [] → exec i s = .next (updGroup s c.cur.gid fun x => { x with threads := x.threads.map fun t =>
      if t.tid ∈ c.setTids then { t with
        pc := c.cur.next
        latches := if hasResult i then (none :: t.latches).take 8 else t.latches }
      else t })) ∧
    (c.act ≠ [] → i.wf = false → exec i s = .next (takeTrap s c.cur.gid (c.act.map fun t =>
      { tid := t.tid, cls := 1, cause := 0x01, prec := true, pc := c.cur.pc, xpc := c.cur.pc, addr := 0, info := 0 }))) ∧
    (c.act ≠ [] → i.wf = true → operandsLegal s c i = false → exec i s = .next (takeTrap s c.cur.gid (c.act.map fun t =>
      { tid := t.tid, cls := 1, cause := 0x02, prec := true, pc := c.cur.pc, xpc := c.cur.pc, addr := 0, info := 0 })))) ∧
  ∀ (i : Instr) (g : BitVec 5), guardOf i = some g → ∃ run : Ctx → State → State, ∀ (s : State) (c : Ctx),
    Arrives s i g c → operandsLegal s c i = true →
    ((∀ t ∈ c.act, ∀ r ∈ readRegs i t, r ∉ t.rbad) → exec i s = .next (run c s)) ∧
    ∀ (bad : List Thread) (c' : Ctx), bad = (c.act.filter fun t => (readRegs i t).any t.rbad.contains) → bad ≠ [] →
      c' = c.without (bad.map (·.tid)) →
      exec i s = .next (takeTrap (if c'.act = [] then c'.skip s (hasResult i) else run c' s) c.cur.gid (bad.map fun t =>
        { tid := t.tid, cls := 4, cause := 0x37, prec := true, pc := c.cur.pc, xpc := c.cur.pc, addr := 0, info := 0 }))

/-! ## Encodings, steps and the invariant -/

/-- 04 R47, R52, R53, R65 to R67 and 23 R356: a well-formed core instruction is read back from its parcels, whatever stands
after them, and the first parcel gives their number; parcels that are read as an instruction are that instruction's; a
bolter operation is read back from its word, and a word that is read as an operation is that operation's. -/
def Obligations.RoundTrip : Prop :=
  (∀ (i : Instr) (x y z : W32), i.wf = true → bolterWord i = none → encode i ≠ [] →
    decode ((encode i).getD 0 x) ((encode i).getD 1 y) ((encode i).getD 2 z) = .ok i ∧
    lengthOf ((encode i).getD 0 x) = (encode i).length) ∧
  (∀ (i : Instr) (x y z : W32), decode x y z = .ok i → encode i = [x, y, z].take (lengthOf x)) ∧
  (∀ (i : Instr) (w : Nat), i.wf = true → bolterWord i = some w → decodeBolter (BitVec.ofNat 32 w) = .ok i) ∧
  (∀ (i : Instr) (x : W32), decodeBolter x = .ok i → encode i = [x])

/-- 04 Tables 4.4, 4.5, 4.9, 4.12 and 4.13 and 23 Table 23.8: words written out field by field, most significant first,
are the instructions that they stand for. -/
def Obligations.DecodesWords : Prop :=
  -- `MOV_S v5, v3` without a guard: dst, sa, opc 0x20, guard, len 0
  decode (0b00000101_000000011_00100000_00000_00#32) 0 0 = .ok (.movS ⟨0, 5, 3⟩) ∧
  -- `BRA_S` by -4 parcels where `k2` is false: off, opc 0x10, guard en 1, neg 1, k2, len 0
  decode (0b11111111111111100_00010000_11010_00#32) 0 0 = .ok (.braS ⟨0b11010, -4⟩) ∧
  -- `IADD.u32 v1, v2, 7`: sa's low six bits, w, dst, opc 0x003, guard, len 1; then mod (type 11, op 0), sc, sb, sa's high bits
  decode (0b000010_0_00000001_0000000011_00000_01#32) (0b01011000000_000000000_100010111_000#32) 0 =
    .ok (.iadd ⟨0, 1, false, 2, 0x117, 0, 0b01011000000, none⟩) ∧
  -- `IMAD.i64.sat` with a literal as `sc` and `w`: len 2
  decode (0b000010_1_00000110_0000000111_00000_10#32) (0b01000000001_101111111_000000100_000#32) 0xFFFFFFFE =
    .ok (.imad ⟨0, 6, true, 2, 4, 0x17F, 0b01000000001, some 0xFFFFFFFE⟩) ∧
  -- `ATOM_ADD.u32` at scope 6 with hint 1
  decode (0b001000_0_00001001_0010001000_00000_01#32) (0b01011_110_01_0_000001010_100010000_000#32) 0 =
    .ok (.atom .add ⟨0, 9, false, 8, 0x110, 10, 0b01011110010, none⟩) ∧
  -- `BRA` by 1,000 parcels: opc 0x030
  decode (0b00000000000000_0000110000_0000001#32) (0b00000000000000000001111101000_000#32) 0 = .ok (.bra ⟨0, 1000⟩) ∧
  -- a reserved length, a reserved opcode, a guard with `en` 0 and a bit set, and `.sat` on a bit type are no instructions
  decode 3 0 0 = .error .reservedLength ∧
  decode (0b0_01000000_00000_00#32) 0 0 = .error .reservedOpcode ∧
  decode (0b00000101_000000011_00100000_00001_00#32) 0 0 = .error (.illFormed (.movS ⟨1, 5, 3⟩)) ∧
  decode (0b000010_0_00000001_0000000011_00000_01#32) (0b00011000001_000000000_100010111_000#32) 0 =
    .error (.illFormed (.iadd ⟨0, 1, false, 2, 0x117, 0, 0b00011000001, none⟩)) ∧
  -- bolter words: `BFMA r1, r2, r3, r4` and `BSCALE r2, r5` in format 4, and one with an unused bit set
  decodeBolter (0b001010_001_010_011_100_00000000000000#32) = .ok (.bfma 1 2 3 4) ∧
  decodeBolter (0b010011_010_101_000_000_00000000000100#32) = .ok (.bscale 2 5 4) ∧
  decodeBolter (0b001010_001_010_011_100_00000000000001#32) = .error .notBolter

/-- 03 R30, 04 R47, R48, R62, 23 R355, and logs 3 and 4: a step that a warp's turn is named for runs the instruction that
the bytes at the warp's issue address decode to, with its issuing set, address and next address in the context; a step of a
bolter runs the operation that its word decodes to; a step that a happening is named for runs it, and one that a
soft error is named for lets it arise (27 R399, R400). After each, conditions
that other agents have met are seen and time passes. That the choices are named by an agenda is the model's. -/
def Obligations.StepRunsDecoded : Prop :=
  (∀ (s s1 : State) (core num : Nat) (rest : List Choice) (g : Group) (w : Warp) (pc : W64) (more : List W64) (b : Bytes)
    (i : Instr),
    let s0 : State := { s with sch := { s.sch with agenda := rest, cur := none } }
    let parcel (k : Nat) : W32 := parcelAt b (pc.toNat % 64 / 4 + k)
    let n := lengthOf (parcel 0)
    let here := (runnables g w).filter fun t => t.pc = pc
    let set := (here.filter fun t => operandsReady s0 g.gid i (bitsOf (parcel 0).toNat 2 5) t && !inLoad i g t).map (·.tid)
    let si := issueState s1 g w (here.map (·.tid)) set pc n false
    s.sch.agenda = .issue core num :: rest →
    (allWarps s0).find? (fun (g, w) => g.place = .core core && w.num = num) = some (g, w) →
    groupIssues s0 g = true → w.held = none → late6 g = [] → late8 g w = [] → issueOrder g w = pc :: more →
    (∀ e ∈ s.errs, e.gid = g.gid → ∀ t ∈ here, t.tid ≠ e.tid) →
    enterLine s0 (coreOf g) g.asn pc = (.ok b, s1) →
    (w.first = true → markedTarget b pc = true) → beginsInstr b pc = true →
    decode (parcel 0) (parcel 1) (parcel 2) = .ok i → set ≠ [] →
    si.sch.cur = some ⟨g.gid, w.num, set, pc, nextPc pc n⟩ ∧
      ∃ t, exec i si = .next t ∧ step s = .next (settle s none t)) ∧
  (∀ (s : State) (c : BCtx) (i : Instr),
    let s0 : State := { s with sch := { s.sch with cur := none } }
    s.sch.agenda = [] → bctxOf s0 = some c → decodeBolter (boltCode c.img c.b.word) = .ok i →
    changes s0 (exec i) = true → ∃ t, exec i s0 = .next t ∧ step s = .next (settle s none t)) ∧
  (∀ (s : State) (rest : List Choice) (i : Instr), s.sch.agenda = .happen i :: rest → encode i = [] →
    ∃ t, exec i { s with sch := { s.sch with agenda := rest, cur := none } } = .next t ∧ step s = .next (settle s none t)) ∧
  (∀ (s : State) (rest : List Choice) (u : Upset), s.sch.agenda = .upset u :: rest →
    step s = .next (settle s none (upsetNow u { s with sch := { s.sch with agenda := rest, cur := none } })))

/-- 11 R217 and log 1: every step keeps the invariant of memory: the canonical form of its bytes, which is the model's own,
and that only lines of host memory hold bytes that the device has not yet written home. -/
def Obligations.StepKeepsInv : Prop := ∀ s s' : State, s.Inv → step s = .next s' → s'.Inv

/-- 15 Tables 15.1 to 15.3, 17 Tables 17.5 and 17.6, R296, 18 Table 18.7, 26 Tables 26.4 to 26.6, 27 Tables 27.2, 27.3 and
27.6: what the spec says that the registers hold after reset; the invariant holds. -/
def Obligations.ResetState : Prop :=
  State.reset.Inv ∧ State.reset.groups = [] ∧ State.reset.gangs = [] ∧ State.reset.host.ready = [] ∧
  State.reset.host.failed = [] ∧ State.reset.fab.fon = false ∧ State.reset.fab.sg = 16 ∧ State.reset.fab.sn = 0 ∧
  State.reset.host.port.go = false ∧
  (∀ n < 4096, let x := streamOf State.reset n
    x.stail = 0 ∧ x.shead = 0 ∧ x.en = false ∧ x.rst = false ∧ x.dead = false ∧ x.stall = false) ∧
  (∀ n < 8, let d := dieOf State.reset n
    d.rqprod = 0 ∧ d.rqcons = 0 ∧ d.hung = false ∧ d.rrst = false ∧ d.sven = false ∧ d.recs = [] ∧ d.autos = [] ∧
    d.lstate = 0x9E3779B9 ^^^ BitVec.ofNat 32 (n * 0x01010101) ∧ d.rrp = 0 ∧ d.wt = 1 ∧ d.wd = 1 ∧ d.wi = 1 ∧
    (∀ k, tget Queue.reset d.queues k = ⟨false, 1, 0, []⟩) ∧ d.hadopt = 0 ∧ d.hqueued = 0 ∧ d.hrefuse = 0 ∧ d.hmaxd = 0 ∧
    d.margin = ⟨1300, false, 0xFFFF, 0⟩) ∧
  (∀ w < 16, let x := winOf State.reset w
    x.on = false ∧ x.busy = false ∧ x.en = false) ∧
  (∀ k, k < 128 → hamOf State.reset k = Hamlet.reset ∧ Hamlet.reset.queue = [] ∧ Hamlet.reset.copies = [])
end

