-- ==== Sys2Proof/Laws/Exec.lean ====
section
/-! SUPPORT. What `exec` does with every instruction: it answers a next state, and a core instruction runs through the one
operation that decides inactive and illegal encodings. -/

namespace Sys2Proof.Machine

open Sys2Proof

/-- Every instruction answers a next state. -/
theorem exec_next (i : Instr) (s : State) : ∃ t, exec i s = .next t := by
  cases i <;> exact ⟨_, rfl⟩

/-! ## The cases of a core instruction -/

section
variable {s : State} {i : Instr} {g : BitVec 5} {res : Bool} {chk : Ctx → Bool} {body : Ctx → State} {c : Ctx}

theorem runCore_none (h : ctxOf s g = none) : runCore s i g res chk body = s := by simp [runCore, h]

theorem runCore_inactive (h : ctxOf s g = some c) (ha : c.act = []) : runCore s i g res chk body = c.skip s res := by
  simp [runCore, h, ha]

theorem runCore_illegal (h : ctxOf s g = some c) (ha : c.act ≠ []) (hw : i.wf = false) :
    runCore s i g res chk body = c.trapAct s cILLOP := by simp [runCore, h, ha, hw]

theorem runCore_badOperand (h : Arrives s i g c) (hc : chk c = false) : runCore s i g res chk body = c.trapAct s cILLOPND := by
  simp [runCore, h.ctx, h.act, h.wf, hc]

theorem runCore_bad (h : Arrives s i g c) (hc : chk c = true) :
    runCore s i g res chk body = c.sparing s res ((c.act.filter (readsBad i)).map (·.tid)) body := by
  simp [runCore, h.ctx, h.act, h.wf, hc]

theorem runCore_body (h : Issues s i g c) (hc : chk c = true) : runCore s i g res chk body = body c := by
  have hb : c.act.filter (readsBad i) = [] := by simpa [List.filter_eq_nil_iff] using h.sound
  simp [runCore_bad h.toArrives hc, Ctx.sparing, hb]

end

/-- An instruction runs through `runCore` with its guard and its kind of result. -/
def RunsCore (i : Instr) (g : BitVec 5) : Prop :=
  ∀ s, ∃ chk body, exec i s = .next (runCore s i g (hasResult i) chk body)


theorem runs_nopS (g : BitVec 5) : RunsCore (.nopS g) g := fun _ => ⟨_, _, rfl⟩
theorem runs_exitS (g : BitVec 5) : RunsCore (.exitS g) g := fun _ => ⟨_, _, rfl⟩
theorem runs_retS (g : BitVec 5) : RunsCore (.retS g) g := fun _ => ⟨_, _, rfl⟩
theorem runs_yieldS (g : BitVec 5) : RunsCore (.yieldS g) g := fun _ => ⟨_, _, rfl⟩
theorem runs_tretS (g : BitVec 5) : RunsCore (.tretS g) g := fun _ => ⟨_, _, rfl⟩
theorem runs_pdoneS (g : BitVec 5) : RunsCore (.pdoneS g) g := fun _ => ⟨_, _, rfl⟩
theorem runs_grpbarS (g : BitVec 5) : RunsCore (.grpbarS g) g := fun _ => ⟨_, _, rfl⟩
theorem runs_gangbarS (g : BitVec 5) : RunsCore (.gangbarS g) g := fun _ => ⟨_, _, rfl⟩
theorem runs_stagebarS (g : BitVec 5) : RunsCore (.stagebarS g) g := fun _ => ⟨_, _, rfl⟩
theorem runs_braS (f : ShortBranch) : RunsCore (.braS f) f.g := fun _ => ⟨_, _, rfl⟩
theorem runs_callS (f : ShortBranch) : RunsCore (.callS f) f.g := fun _ => ⟨_, _, rfl⟩
theorem runs_meetS (f : ShortBranch) : RunsCore (.meetS f) f.g := fun _ => ⟨_, _, rfl⟩
theorem runs_movS (f : ShortForm) : RunsCore (.movS f) f.g := fun _ => ⟨_, _, rfl⟩
theorem runs_notS (f : ShortForm) : RunsCore (.notS f) f.g := fun _ => ⟨_, _, rfl⟩
theorem runs_inegS (f : ShortForm) : RunsCore (.inegS f) f.g := fun _ => ⟨_, _, rfl⟩
theorem runs_iabsS (f : ShortForm) : RunsCore (.iabsS f) f.g := fun _ => ⟨_, _, rfl⟩
theorem runs_popcS (f : ShortForm) : RunsCore (.popcS f) f.g := fun _ => ⟨_, _, rfl⟩
theorem runs_clzS (f : ShortForm) : RunsCore (.clzS f) f.g := fun _ => ⟨_, _, rfl⟩
theorem runs_brevS (f : ShortForm) : RunsCore (.brevS f) f.g := fun _ => ⟨_, _, rfl⟩
theorem runs_srdS (f : ShortForm) : RunsCore (.srdS f) f.g := fun _ => ⟨_, _, rfl⟩
theorem runs_swrS (f : ShortForm) : RunsCore (.swrS f) f.g := fun _ => ⟨_, _, rfl⟩
theorem runs_kmovS (f : ShortForm) : RunsCore (.kmovS f) f.g := fun _ => ⟨_, _, rfl⟩
theorem runs_knotS (f : ShortForm) : RunsCore (.knotS f) f.g := fun _ => ⟨_, _, rfl⟩
theorem runs_kpopS (f : ShortForm) : RunsCore (.kpopS f) f.g := fun _ => ⟨_, _, rfl⟩
theorem runs_rcpS (f : ShortForm) : RunsCore (.rcpS f) f.g := fun _ => ⟨_, _, rfl⟩
theorem runs_rsqS (f : ShortForm) : RunsCore (.rsqS f) f.g := fun _ => ⟨_, _, rfl⟩
theorem runs_sqrtS (f : ShortForm) : RunsCore (.sqrtS f) f.g := fun _ => ⟨_, _, rfl⟩
theorem runs_mwaitS (g : BitVec 5) (d : BitVec 8) : RunsCore (.mwaitS g d) g := fun _ => ⟨_, _, rfl⟩
theorem runs_mov (f : LongForm) : RunsCore (.mov f) f.g := fun _ => ⟨_, _, rfl⟩
theorem runs_movl (f : LongForm) : RunsCore (.movl f) f.g := fun _ => ⟨_, _, rfl⟩
theorem runs_lea (f : LongForm) : RunsCore (.lea f) f.g := fun _ => ⟨_, _, rfl⟩
theorem runs_iadd (f : LongForm) : RunsCore (.iadd f) f.g := fun _ => ⟨_, _, rfl⟩
theorem runs_isub (f : LongForm) : RunsCore (.isub f) f.g := fun _ => ⟨_, _, rfl⟩
theorem runs_imul (f : LongForm) : RunsCore (.imul f) f.g := fun _ => ⟨_, _, rfl⟩
theorem runs_imulh (f : LongForm) : RunsCore (.imulh f) f.g := fun _ => ⟨_, _, rfl⟩
theorem runs_imad (f : LongForm) : RunsCore (.imad f) f.g := fun _ => ⟨_, _, rfl⟩
theorem runs_idiv (f : LongForm) : RunsCore (.idiv f) f.g := fun _ => ⟨_, _, rfl⟩
theorem runs_irem (f : LongForm) : RunsCore (.irem f) f.g := fun _ => ⟨_, _, rfl⟩
theorem runs_imin (f : LongForm) : RunsCore (.imin f) f.g := fun _ => ⟨_, _, rfl⟩
theorem runs_imax (f : LongForm) : RunsCore (.imax f) f.g := fun _ => ⟨_, _, rfl⟩
theorem runs_iabs (f : LongForm) : RunsCore (.iabs f) f.g := fun _ => ⟨_, _, rfl⟩
theorem runs_ineg (f : LongForm) : RunsCore (.ineg f) f.g := fun _ => ⟨_, _, rfl⟩
theorem runs_and (f : LongForm) : RunsCore (.and f) f.g := fun _ => ⟨_, _, rfl⟩
theorem runs_or (f : LongForm) : RunsCore (.or f) f.g := fun _ => ⟨_, _, rfl⟩
theorem runs_xor (f : LongForm) : RunsCore (.xor f) f.g := fun _ => ⟨_, _, rfl⟩
theorem runs_andn (f : LongForm) : RunsCore (.andn f) f.g := fun _ => ⟨_, _, rfl⟩
theorem runs_not (f : LongForm) : RunsCore (.not f) f.g := fun _ => ⟨_, _, rfl⟩
theorem runs_shl (f : LongForm) : RunsCore (.shl f) f.g := fun _ => ⟨_, _, rfl⟩
theorem runs_shr (f : LongForm) : RunsCore (.shr f) f.g := fun _ => ⟨_, _, rfl⟩
theorem runs_sar (f : LongForm) : RunsCore (.sar f) f.g := fun _ => ⟨_, _, rfl⟩
theorem runs_rol (f : LongForm) : RunsCore (.rol f) f.g := fun _ => ⟨_, _, rfl⟩
theorem runs_bfx (f : LongForm) : RunsCore (.bfx f) f.g := fun _ => ⟨_, _, rfl⟩
theorem runs_bfi (f : LongForm) : RunsCore (.bfi f) f.g := fun _ => ⟨_, _, rfl⟩
theorem runs_popc (f : LongForm) : RunsCore (.popc f) f.g := fun _ => ⟨_, _, rfl⟩
theorem runs_clz (f : LongForm) : RunsCore (.clz f) f.g := fun _ => ⟨_, _, rfl⟩
theorem runs_brev (f : LongForm) : RunsCore (.brev f) f.g := fun _ => ⟨_, _, rfl⟩
theorem runs_sel (f : LongForm) : RunsCore (.sel f) f.g := fun _ => ⟨_, _, rfl⟩
theorem runs_icmp (f : LongForm) : RunsCore (.icmp f) f.g := fun _ => ⟨_, _, rfl⟩
theorem runs_kand (f : LongForm) : RunsCore (.kand f) f.g := fun _ => ⟨_, _, rfl⟩
theorem runs_kor (f : LongForm) : RunsCore (.kor f) f.g := fun _ => ⟨_, _, rfl⟩
theorem runs_kxor (f : LongForm) : RunsCore (.kxor f) f.g := fun _ => ⟨_, _, rfl⟩
theorem runs_knot (f : LongForm) : RunsCore (.knot f) f.g := fun _ => ⟨_, _, rfl⟩
theorem runs_kmov (f : LongForm) : RunsCore (.kmov f) f.g := fun _ => ⟨_, _, rfl⟩
theorem runs_kpop (f : LongForm) : RunsCore (.kpop f) f.g := fun _ => ⟨_, _, rfl⟩
theorem runs_bra (f : LongBranch) : RunsCore (.bra f) f.g := fun _ => ⟨_, _, rfl⟩
theorem runs_brx (f : LongForm) : RunsCore (.brx f) f.g := fun _ => ⟨_, _, rfl⟩
theorem runs_call (f : LongBranch) : RunsCore (.call f) f.g := fun _ => ⟨_, _, rfl⟩
theorem runs_ret (f : LongForm) : RunsCore (.ret f) f.g := fun _ => ⟨_, _, rfl⟩
theorem runs_meet (f : LongBranch) : RunsCore (.meet f) f.g := fun _ => ⟨_, _, rfl⟩
theorem runs_yield (f : LongForm) : RunsCore (.yield f) f.g := fun _ => ⟨_, _, rfl⟩
theorem runs_exit (f : LongForm) : RunsCore (.exit f) f.g := fun _ => ⟨_, _, rfl⟩
theorem runs_nop (f : LongForm) : RunsCore (.nop f) f.g := fun _ => ⟨_, _, rfl⟩
theorem runs_srd (f : LongForm) : RunsCore (.srd f) f.g := fun _ => ⟨_, _, rfl⟩
theorem runs_swr (f : LongForm) : RunsCore (.swr f) f.g := fun _ => ⟨_, _, rfl⟩
theorem runs_reggrow (f : LongForm) : RunsCore (.reggrow f) f.g := fun _ => ⟨_, _, rfl⟩
theorem runs_regshrink (f : LongForm) : RunsCore (.regshrink f) f.g := fun _ => ⟨_, _, rfl⟩
theorem runs_shape (f : LongForm) : RunsCore (.shape f) f.g := fun _ => ⟨_, _, rfl⟩
theorem runs_idx (f : LongForm) : RunsCore (.idx f) f.g := fun _ => ⟨_, _, rfl⟩
theorem runs_unif (f : LongForm) : RunsCore (.unif f) f.g := fun _ => ⟨_, _, rfl⟩
theorem runs_fadd (f : LongForm) : RunsCore (.fadd f) f.g := fun _ => ⟨_, _, rfl⟩
theorem runs_fsub (f : LongForm) : RunsCore (.fsub f) f.g := fun _ => ⟨_, _, rfl⟩
theorem runs_fmul (f : LongForm) : RunsCore (.fmul f) f.g := fun _ => ⟨_, _, rfl⟩
theorem runs_ffma (f : LongForm) : RunsCore (.ffma f) f.g := fun _ => ⟨_, _, rfl⟩
theorem runs_fmin (f : LongForm) : RunsCore (.fmin f) f.g := fun _ => ⟨_, _, rfl⟩
theorem runs_fmax (f : LongForm) : RunsCore (.fmax f) f.g := fun _ => ⟨_, _, rfl⟩
theorem runs_fcmp (f : LongForm) : RunsCore (.fcmp f) f.g := fun _ => ⟨_, _, rfl⟩
theorem runs_fclass (f : LongForm) : RunsCore (.fclass f) f.g := fun _ => ⟨_, _, rfl⟩
theorem runs_frnd (f : LongForm) : RunsCore (.frnd f) f.g := fun _ => ⟨_, _, rfl⟩
theorem runs_hadd2 (f : LongForm) : RunsCore (.hadd2 f) f.g := fun _ => ⟨_, _, rfl⟩
theorem runs_hmul2 (f : LongForm) : RunsCore (.hmul2 f) f.g := fun _ => ⟨_, _, rfl⟩
theorem runs_hfma2 (f : LongForm) : RunsCore (.hfma2 f) f.g := fun _ => ⟨_, _, rfl⟩
theorem runs_dot4 (f : LongForm) : RunsCore (.dot4 f) f.g := fun _ => ⟨_, _, rfl⟩
theorem runs_dot2 (f : LongForm) : RunsCore (.dot2 f) f.g := fun _ => ⟨_, _, rfl⟩
theorem runs_cvt (r : RMode) (f : LongForm) : RunsCore (.cvt r f) f.g := fun _ => ⟨_, _, rfl⟩
theorem runs_cvts (r : RMode) (f : LongForm) : RunsCore (.cvts r f) f.g := fun _ => ⟨_, _, rfl⟩
theorem runs_pack4 (f : LongForm) : RunsCore (.pack4 f) f.g := fun _ => ⟨_, _, rfl⟩
theorem runs_unpack4 (f : LongForm) : RunsCore (.unpack4 f) f.g := fun _ => ⟨_, _, rfl⟩
theorem runs_rcp (f : LongForm) : RunsCore (.rcp f) f.g := fun _ => ⟨_, _, rfl⟩
theorem runs_rsq (f : LongForm) : RunsCore (.rsq f) f.g := fun _ => ⟨_, _, rfl⟩
theorem runs_sqrt (f : LongForm) : RunsCore (.sqrt f) f.g := fun _ => ⟨_, _, rfl⟩
theorem runs_ex2 (f : LongForm) : RunsCore (.ex2 f) f.g := fun _ => ⟨_, _, rfl⟩
theorem runs_lg2 (f : LongForm) : RunsCore (.lg2 f) f.g := fun _ => ⟨_, _, rfl⟩
theorem runs_sin (f : LongForm) : RunsCore (.sin f) f.g := fun _ => ⟨_, _, rfl⟩
theorem runs_cos (f : LongForm) : RunsCore (.cos f) f.g := fun _ => ⟨_, _, rfl⟩
theorem runs_tanh (f : LongForm) : RunsCore (.tanh f) f.g := fun _ => ⟨_, _, rfl⟩
theorem runs_shfl (f : LongForm) : RunsCore (.shfl f) f.g := fun _ => ⟨_, _, rfl⟩
theorem runs_vote (f : LongForm) : RunsCore (.vote f) f.g := fun _ => ⟨_, _, rfl⟩
theorem runs_ballot (f : LongForm) : RunsCore (.ballot f) f.g := fun _ => ⟨_, _, rfl⟩
theorem runs_matchL (f : LongForm) : RunsCore (.matchL f) f.g := fun _ => ⟨_, _, rfl⟩
theorem runs_lscan (f : LongForm) : RunsCore (.lscan f) f.g := fun _ => ⟨_, _, rfl⟩
theorem runs_lred (f : LongForm) : RunsCore (.lred f) f.g := fun _ => ⟨_, _, rfl⟩
theorem runs_lfirst (f : LongForm) : RunsCore (.lfirst f) f.g := fun _ => ⟨_, _, rfl⟩
theorem runs_trap (f : LongForm) : RunsCore (.trap f) f.g := fun _ => ⟨_, _, rfl⟩
theorem runs_tret (f : LongForm) : RunsCore (.tret f) f.g := fun _ => ⟨_, _, rfl⟩
theorem runs_ctxsave (f : LongForm) : RunsCore (.ctxsave f) f.g := fun _ => ⟨_, _, rfl⟩
theorem runs_ctxsaveKeep (f : LongForm) : RunsCore (.ctxsaveKeep f) f.g := fun _ => ⟨_, _, rfl⟩
theorem runs_ctxload (f : LongForm) : RunsCore (.ctxload f) f.g := fun _ => ⟨_, _, rfl⟩
theorem runs_pdone (f : LongForm) : RunsCore (.pdone f) f.g := fun _ => ⟨_, _, rfl⟩
theorem runs_depwait (f : LongForm) : RunsCore (.depwait f) f.g := fun _ => ⟨_, _, rfl⟩
theorem runs_frecGet (f : LongForm) : RunsCore (.frecGet f) f.g := fun _ => ⟨_, _, rfl⟩
theorem runs_frecFwd (f : LongForm) : RunsCore (.frecFwd f) f.g := fun _ => ⟨_, _, rfl⟩
theorem runs_ld (f : LongForm) : RunsCore (.ld f) f.g := fun _ => ⟨_, _, rfl⟩
theorem runs_st (f : LongForm) : RunsCore (.st f) f.g := fun _ => ⟨_, _, rfl⟩
theorem runs_ldg (f : LongForm) : RunsCore (.ldg f) f.g := fun _ => ⟨_, _, rfl⟩
theorem runs_stg (f : LongForm) : RunsCore (.stg f) f.g := fun _ => ⟨_, _, rfl⟩
theorem runs_lde (f : LongForm) : RunsCore (.lde f) f.g := fun _ => ⟨_, _, rfl⟩
theorem runs_ste (f : LongForm) : RunsCore (.ste f) f.g := fun _ => ⟨_, _, rfl⟩
theorem runs_atom (op : AtomOp) (f : LongForm) : RunsCore (.atom op f) f.g := fun _ => ⟨_, _, rfl⟩
theorem runs_red (op : RedOp) (f : LongForm) : RunsCore (.red op f) f.g := fun _ => ⟨_, _, rfl⟩
theorem runs_waitc (f : LongForm) : RunsCore (.waitc f) f.g := fun _ => ⟨_, _, rfl⟩
theorem runs_fld (f : LongForm) : RunsCore (.fld f) f.g := fun _ => ⟨_, _, rfl⟩
theorem runs_fset (f : LongForm) : RunsCore (.fset f) f.g := fun _ => ⟨_, _, rfl⟩
theorem runs_mbsend (f : LongForm) : RunsCore (.mbsend f) f.g := fun _ => ⟨_, _, rfl⟩
theorem runs_mbrecv (f : LongForm) : RunsCore (.mbrecv f) f.g := fun _ => ⟨_, _, rfl⟩
theorem runs_mbpeek (f : LongForm) : RunsCore (.mbpeek f) f.g := fun _ => ⟨_, _, rfl⟩
theorem runs_fence (f : LongForm) : RunsCore (.fence f) f.g := fun _ => ⟨_, _, rfl⟩
theorem runs_xfence (f : LongForm) : RunsCore (.xfence f) f.g := fun _ => ⟨_, _, rfl⟩
theorem runs_cflush (f : LongForm) : RunsCore (.cflush f) f.g := fun _ => ⟨_, _, rfl⟩
theorem runs_cinv (f : LongForm) : RunsCore (.cinv f) f.g := fun _ => ⟨_, _, rfl⟩
theorem runs_cinvCode (f : LongForm) : RunsCore (.cinvCode f) f.g := fun _ => ⟨_, _, rfl⟩
theorem runs_pref (f : LongForm) : RunsCore (.pref f) f.g := fun _ => ⟨_, _, rfl⟩
theorem runs_evpost (f : LongForm) : RunsCore (.evpost f) f.g := fun _ => ⟨_, _, rfl⟩
theorem runs_evpostBuf (f : LongForm) : RunsCore (.evpostBuf f) f.g := fun _ => ⟨_, _, rfl⟩
theorem runs_evbar (f : LongForm) : RunsCore (.evbar f) f.g := fun _ => ⟨_, _, rfl⟩
theorem runs_amload (f : LongForm) : RunsCore (.amload f) f.g := fun _ => ⟨_, _, rfl⟩
theorem runs_amarm (f : LongForm) : RunsCore (.amarm f) f.g := fun _ => ⟨_, _, rfl⟩
theorem runs_amdisarm (f : LongForm) : RunsCore (.amdisarm f) f.g := fun _ => ⟨_, _, rfl⟩
theorem runs_amdisarmFree (f : LongForm) : RunsCore (.amdisarmFree f) f.g := fun _ => ⟨_, _, rfl⟩
theorem runs_amsave (f : LongForm) : RunsCore (.amsave f) f.g := fun _ => ⟨_, _, rfl⟩
theorem runs_amsaveStop (f : LongForm) : RunsCore (.amsaveStop f) f.g := fun _ => ⟨_, _, rfl⟩
theorem runs_amrestore (f : LongForm) : RunsCore (.amrestore f) f.g := fun _ => ⟨_, _, rfl⟩
theorem runs_bequeath (f : LongForm) : RunsCore (.bequeath f) f.g := fun _ => ⟨_, _, rfl⟩
theorem runs_grpbar (f : LongForm) : RunsCore (.grpbar f) f.g := fun _ => ⟨_, _, rfl⟩
theorem runs_gangbar (f : LongForm) : RunsCore (.gangbar f) f.g := fun _ => ⟨_, _, rfl⟩
theorem runs_stagebar (f : LongForm) : RunsCore (.stagebar f) f.g := fun _ => ⟨_, _, rfl⟩
theorem runs_ownClaim (f : LongForm) : RunsCore (.ownClaim f) f.g := fun _ => ⟨_, _, rfl⟩
theorem runs_ownSelf (f : LongForm) : RunsCore (.ownSelf f) f.g := fun _ => ⟨_, _, rfl⟩
theorem runs_ownWord (f : LongForm) : RunsCore (.ownWord f) f.g := fun _ => ⟨_, _, rfl⟩
theorem runs_ownMbox (f : LongForm) : RunsCore (.ownMbox f) f.g := fun _ => ⟨_, _, rfl⟩
theorem runs_disownClaim (f : LongForm) : RunsCore (.disownClaim f) f.g := fun _ => ⟨_, _, rfl⟩
theorem runs_disownSelf (f : LongForm) : RunsCore (.disownSelf f) f.g := fun _ => ⟨_, _, rfl⟩
theorem runs_disownWord (f : LongForm) : RunsCore (.disownWord f) f.g := fun _ => ⟨_, _, rfl⟩
theorem runs_disownMbox (f : LongForm) : RunsCore (.disownMbox f) f.g := fun _ => ⟨_, _, rfl⟩
theorem runs_helpq (f : LongForm) : RunsCore (.helpq f) f.g := fun _ => ⟨_, _, rfl⟩
theorem runs_mtask (f : LongForm) : RunsCore (.mtask f) f.g := fun _ => ⟨_, _, rfl⟩
theorem runs_mwait (f : LongForm) : RunsCore (.mwait f) f.g := fun _ => ⟨_, _, rfl⟩
theorem runs_mpoll (f : LongForm) : RunsCore (.mpoll f) f.g := fun _ => ⟨_, _, rfl⟩
theorem runs_binld (f : LongForm) : RunsCore (.binld f) f.g := fun _ => ⟨_, _, rfl⟩
theorem runs_binst (f : LongForm) : RunsCore (.binst f) f.g := fun _ => ⟨_, _, rfl⟩
theorem runs_binz (f : LongForm) : RunsCore (.binz f) f.g := fun _ => ⟨_, _, rfl⟩
theorem runs_bldp (f : LongForm) : RunsCore (.bldp f) f.g := fun _ => ⟨_, _, rfl⟩
theorem runs_cpy (f : LongForm) : RunsCore (.cpy f) f.g := fun _ => ⟨_, _, rfl⟩
theorem runs_cpy2 (f : LongForm) : RunsCore (.cpy2 f) f.g := fun _ => ⟨_, _, rfl⟩
theorem runs_cpyt (f : LongForm) : RunsCore (.cpyt f) f.g := fun _ => ⟨_, _, rfl⟩
theorem runs_cpyr (f : LongForm) : RunsCore (.cpyr f) f.g := fun _ => ⟨_, _, rfl⟩
theorem runs_cpyq (f : LongForm) : RunsCore (.cpyq f) f.g := fun _ => ⟨_, _, rfl⟩
theorem runs_strel (f : LongForm) : RunsCore (.strel f) f.g := fun _ => ⟨_, _, rfl⟩
theorem runs_netq (f : LongForm) : RunsCore (.netq f) f.g := fun _ => ⟨_, _, rfl⟩

end Sys2Proof.Machine
end

