-- ==== Sys2Proof/Laws/Table.lean ====
section
/-! SUPPORT. What the sparse tables and the small list operations do. -/

namespace Sys2Proof.Machine

open Sys2Proof

variable {α : Type}

/-! ## Reading after writing -/

theorem tfind_tput (t : Table α) (n m : Nat) (v : α) :
    tfind (tput t n v) m = if n = m then some v else tfind t m := by
  induction t with
  | nil => simp [tput, tfind]
  | cons x t ih =>
    obtain ⟨k, w⟩ := x
    simp only [tput]
    split
    · simp only [tfind]
    · split
      · rename_i _ h
        subst h
        simp only [tfind]
        split <;> rfl
      · rename_i _ h
        simp only [tfind]
        split
        · rename_i hk
          subst hk
          simp [Ne.symm h]
        · rename_i hk
          exact ih

theorem tfind_tdel (t : Table α) (n m : Nat) : tfind (tdel t n) m = if n = m then none else tfind t m := by
  induction t with
  | nil => simp [tdel, tfind]
  | cons x t ih =>
    obtain ⟨k, w⟩ := x
    have h' : tdel ((k, w) :: t) n = if k = n then tdel t n else (k, w) :: tdel t n := by
      by_cases hk : k = n <;> simp [tdel, hk]
    rw [h']
    by_cases hk : k = n
    · subst hk
      simp only [if_true, ih, tfind]
      split <;> rfl
    · simp only [hk, if_false, tfind, ih]
      by_cases hm : k = m
      · subst hm
        simp [Ne.symm hk]
      · simp [hm]

theorem tget_tput (d : α) (t : Table α) (n m : Nat) (v : α) :
    tget d (tput t n v) m = if n = m then v else tget d t m := by
  simp only [tget, tfind_tput]
  split <;> rfl

theorem tget_tset [DecidableEq α] (d : α) (t : Table α) (n m : Nat) (v : α) :
    tget d (tset d t n v) m = if n = m then v else tget d t m := by
  unfold tset
  split
  · rename_i h
    subst h
    simp only [tget, tfind_tdel]
    split <;> rfl
  · exact tget_tput d t n m v

@[simp] theorem tget_tset_same [DecidableEq α] (d : α) (t : Table α) (n : Nat) (v : α) : tget d (tset d t n v) n = v := by
  simp [tget_tset]

theorem tget_tset_other [DecidableEq α] (d : α) (t : Table α) (n m : Nat) (v : α) (h : n ≠ m) : tget d (tset d t n v) m = tget d t m := by
  simp [tget_tset, h]

theorem tget_tmod (d : α) (t : Table α) (n m : Nat) (f : α → α) :
    tget d (tmod d t n f) m = if n = m then f (tget d t n) else tget d t m := tget_tput ..

@[simp] theorem tget_nil (d : α) (n : Nat) : tget d ([] : Table α) n = d := rfl

/-! ## The canonical form -/

/-- Every key of a table in canonical form lies above a bound. -/
def Above (b : Nat) (t : Table α) : Prop := ∀ x ∈ t, b < x.1

theorem twf_cons [DecidableEq α] (d : α) (k : Nat) (v : α) (t : Table α) :
    twf d ((k, v) :: t) = true ↔ v ≠ d ∧ Above k t ∧ twf d t = true := by
  constructor
  · intro h
    induction t generalizing k v with
    | nil => simpa [twf, Above] using h
    | cons y t ih =>
      obtain ⟨k', v'⟩ := y
      simp only [twf, Bool.and_eq_true, decide_eq_true_eq] at h
      obtain ⟨⟨h1, h2⟩, h3⟩ := h
      have h4 := ih k' v' (by simpa [twf] using h3)
      refine ⟨h1, ?_, by simpa [twf] using h3⟩
      intro x hx
      rcases List.mem_cons.1 hx with rfl | hx
      · exact h2
      · exact Nat.lt_trans h2 (h4.2.1 x hx)
  · rintro ⟨h1, h2, h3⟩
    cases t with
    | nil => simp [twf, h1]
    | cons y t =>
      have := h2 y (by simp)
      simp only [twf, Bool.and_eq_true, decide_eq_true_eq] at h3 ⊢
      exact ⟨⟨h1, this⟩, h3⟩

theorem above_tput {b : Nat} {t : Table α} {n : Nat} {v : α} (h : Above b t) (hn : b < n) : Above b (tput t n v) := by
  induction t with
  | nil =>
    intro x hx
    simp only [tput, List.mem_singleton] at hx
    subst hx
    exact hn
  | cons y t ih =>
    obtain ⟨k, w⟩ := y
    have hk : b < k := h (k, w) (by simp)
    have ht : Above b t := fun x hx => h x (by simp [hx])
    intro x hx
    simp only [tput] at hx
    split at hx
    · rcases List.mem_cons.1 hx with rfl | hx
      · exact hn
      · exact h x hx
    · split at hx
      · rcases List.mem_cons.1 hx with rfl | hx
        · exact hn
        · exact ht x hx
      · rcases List.mem_cons.1 hx with rfl | hx
        · exact hk
        · exact ih ht x hx

theorem twf_tput [DecidableEq α] {d : α} {t : Table α} {n : Nat} {v : α} (h : twf d t = true) (hv : v ≠ d) : twf d (tput t n v) = true := by
  induction t with
  | nil => simp [tput, twf, hv]
  | cons y t ih =>
    obtain ⟨k, w⟩ := y
    obtain ⟨h1, h2, h3⟩ := (twf_cons d k w t).1 h
    simp only [tput]
    split
    · rename_i hlt
      refine (twf_cons ..).2 ⟨hv, ?_, h⟩
      intro x hx
      rcases List.mem_cons.1 hx with rfl | hx
      · exact hlt
      · exact Nat.lt_trans hlt (h2 x hx)
    · split
      · rename_i _ heq
        subst heq
        exact (twf_cons ..).2 ⟨hv, h2, h3⟩
      · rename_i h4 h5
        exact (twf_cons ..).2 ⟨h1, above_tput h2 (by omega), ih h3⟩

theorem twf_tdel [DecidableEq α] {d : α} {t : Table α} {n : Nat} (h : twf d t = true) : twf d (tdel t n) = true := by
  induction t with
  | nil => rfl
  | cons y t ih =>
    obtain ⟨k, w⟩ := y
    obtain ⟨h1, h2, h3⟩ := (twf_cons d k w t).1 h
    unfold tdel
    rw [List.filter_cons]
    split
    · exact (twf_cons ..).2 ⟨h1, fun x hx => h2 x (List.mem_filter.1 hx).1, ih h3⟩
    · exact ih h3

/-- Writing a key keeps the canonical form. -/
theorem twf_tset [DecidableEq α] {d : α} {t : Table α} {n : Nat} {v : α} (h : twf d t = true) : twf d (tset d t n v) = true := by
  unfold tset
  split
  · exact twf_tdel h
  · rename_i hv
    exact twf_tput h hv

/-! ## Lists -/

/-- What every step of a fold keeps, the fold keeps. -/
theorem foldl_keeps {β : Type} (P : α → Prop) (f : α → β → α) (hf : ∀ a b, P a → P (f a b)) (l : List β) (a : α)
    (h : P a) : P (l.foldl f a) := by
  induction l generalizing a with
  | nil => exact h
  | cons b l ih => exact ih _ (hf a b h)

@[simp] theorem modAll_id (p : α → Bool) (l : List α) : modAll p id l = l := by simp [modAll]

@[simp] theorem length_modAll (p : α → Bool) (f : α → α) (l : List α) : (modAll p f l).length = l.length := by simp [modAll]

/-- A change that keeps what a search looks for finds the changed element. -/
theorem find_modAll (p q : α → Bool) (f : α → α) (hf : ∀ x, q (f x) = q x) (l : List α) :
    (modAll p f l).find? q = (l.find? q).map fun x => if p x then f x else x := by
  induction l with
  | nil => rfl
  | cons x l ih =>
    have hx : q (if p x then f x else x) = q x := by split <;> simp [hf]
    simp only [modAll, List.map_cons, List.find?_cons, hx]
    cases hq : q x with
    | true => rfl
    | false => exact ih

/-- The numbers that bytes denote and the bytes of a number. -/
theorem leNat_natLe (n v : Nat) : leNat (natLe n v) = v % 256 ^ n := by
  induction n generalizing v with
  | zero => simp [natLe, leNat, Nat.mod_one]
  | succ n ih =>
    have h : v % 256 ^ (n + 1) = v % 256 + 256 * (v / 256 % 256 ^ n) := by
      rw [Nat.pow_succ', Nat.mod_mul]
    rw [h, natLe, leNat, ih, BitVec.toNat_ofNat]

@[simp] theorem length_natLe (n v : Nat) : (natLe n v).length = n := by
  induction n generalizing v with
  | zero => rfl
  | succ n ih => simp [natLe, ih]

end Sys2Proof.Machine
end

