-- ==== Sys2Proof/Laws/State.lean ====
section
/-! SUPPORT. What each update of the state leaves, field by field, and what the lookups find after it. -/

namespace Sys2Proof.Machine

open Sys2Proof

/-! ### `updGroup` changes `groups` only -/

@[simp] theorem updGroup_sch (s : State) (g : Gid) (f : Group → Group) : (updGroup s g f).sch = s.sch := rfl
@[simp] theorem updGroup_mm (s : State) (g : Gid) (f : Group → Group) : (updGroup s g f).mm = s.mm := rfl
@[simp] theorem updGroup_gangs (s : State) (g : Gid) (f : Group → Group) : (updGroup s g f).gangs = s.gangs := rfl
@[simp] theorem updGroup_dies (s : State) (g : Gid) (f : Group → Group) : (updGroup s g f).dies = s.dies := rfl
@[simp] theorem updGroup_hams (s : State) (g : Gid) (f : Group → Group) : (updGroup s g f).hams = s.hams := rfl
@[simp] theorem updGroup_streams (s : State) (g : Gid) (f : Group → Group) : (updGroup s g f).streams = s.streams := rfl
@[simp] theorem updGroup_boxes (s : State) (g : Gid) (f : Group → Group) : (updGroup s g f).boxes = s.boxes := rfl
@[simp] theorem updGroup_nodes (s : State) (g : Gid) (f : Group → Group) : (updGroup s g f).nodes = s.nodes := rfl
@[simp] theorem updGroup_reqs (s : State) (g : Gid) (f : Group → Group) : (updGroup s g f).reqs = s.reqs := rfl
@[simp] theorem updGroup_errs (s : State) (g : Gid) (f : Group → Group) : (updGroup s g f).errs = s.errs := rfl
@[simp] theorem updGroup_fab (s : State) (g : Gid) (f : Group → Group) : (updGroup s g f).fab = s.fab := rfl
@[simp] theorem updGroup_host (s : State) (g : Gid) (f : Group → Group) : (updGroup s g f).host = s.host := rfl
@[simp] theorem updGroup_tagNext (s : State) (g : Gid) (f : Group → Group) : (updGroup s g f).tagNext = s.tagNext := rfl
@[simp] theorem updGroup_recWr (s : State) (g : Gid) (f : Group → Group) : (updGroup s g f).recWr = s.recWr := rfl
@[simp] theorem updGroup_bqs (s : State) (g : Gid) (f : Group → Group) : (updGroup s g f).bqs = s.bqs := rfl

/-! ### `updThread` changes `groups` only -/

@[simp] theorem updThread_sch (s : State) (g : Gid) (n : Nat) (f : Thread → Thread) : (updThread s g n f).sch = s.sch := rfl
@[simp] theorem updThread_mm (s : State) (g : Gid) (n : Nat) (f : Thread → Thread) : (updThread s g n f).mm = s.mm := rfl
@[simp] theorem updThread_gangs (s : State) (g : Gid) (n : Nat) (f : Thread → Thread) : (updThread s g n f).gangs = s.gangs := rfl
@[simp] theorem updThread_dies (s : State) (g : Gid) (n : Nat) (f : Thread → Thread) : (updThread s g n f).dies = s.dies := rfl
@[simp] theorem updThread_hams (s : State) (g : Gid) (n : Nat) (f : Thread → Thread) : (updThread s g n f).hams = s.hams := rfl
@[simp] theorem updThread_streams (s : State) (g : Gid) (n : Nat) (f : Thread → Thread) : (updThread s g n f).streams = s.streams := rfl
@[simp] theorem updThread_boxes (s : State) (g : Gid) (n : Nat) (f : Thread → Thread) : (updThread s g n f).boxes = s.boxes := rfl
@[simp] theorem updThread_nodes (s : State) (g : Gid) (n : Nat) (f : Thread → Thread) : (updThread s g n f).nodes = s.nodes := rfl
@[simp] theorem updThread_reqs (s : State) (g : Gid) (n : Nat) (f : Thread → Thread) : (updThread s g n f).reqs = s.reqs := rfl
@[simp] theorem updThread_errs (s : State) (g : Gid) (n : Nat) (f : Thread → Thread) : (updThread s g n f).errs = s.errs := rfl
@[simp] theorem updThread_fab (s : State) (g : Gid) (n : Nat) (f : Thread → Thread) : (updThread s g n f).fab = s.fab := rfl
@[simp] theorem updThread_host (s : State) (g : Gid) (n : Nat) (f : Thread → Thread) : (updThread s g n f).host = s.host := rfl
@[simp] theorem updThread_tagNext (s : State) (g : Gid) (n : Nat) (f : Thread → Thread) : (updThread s g n f).tagNext = s.tagNext := rfl
@[simp] theorem updThread_recWr (s : State) (g : Gid) (n : Nat) (f : Thread → Thread) : (updThread s g n f).recWr = s.recWr := rfl
@[simp] theorem updThread_bqs (s : State) (g : Gid) (n : Nat) (f : Thread → Thread) : (updThread s g n f).bqs = s.bqs := rfl

/-! ### `updGang` changes `gangs` only -/

@[simp] theorem updGang_sch (s : State) (n : Nat) (f : Gang → Gang) : (updGang s n f).sch = s.sch := rfl
@[simp] theorem updGang_mm (s : State) (n : Nat) (f : Gang → Gang) : (updGang s n f).mm = s.mm := rfl
@[simp] theorem updGang_groups (s : State) (n : Nat) (f : Gang → Gang) : (updGang s n f).groups = s.groups := rfl
@[simp] theorem updGang_dies (s : State) (n : Nat) (f : Gang → Gang) : (updGang s n f).dies = s.dies := rfl
@[simp] theorem updGang_hams (s : State) (n : Nat) (f : Gang → Gang) : (updGang s n f).hams = s.hams := rfl
@[simp] theorem updGang_streams (s : State) (n : Nat) (f : Gang → Gang) : (updGang s n f).streams = s.streams := rfl
@[simp] theorem updGang_boxes (s : State) (n : Nat) (f : Gang → Gang) : (updGang s n f).boxes = s.boxes := rfl
@[simp] theorem updGang_nodes (s : State) (n : Nat) (f : Gang → Gang) : (updGang s n f).nodes = s.nodes := rfl
@[simp] theorem updGang_reqs (s : State) (n : Nat) (f : Gang → Gang) : (updGang s n f).reqs = s.reqs := rfl
@[simp] theorem updGang_errs (s : State) (n : Nat) (f : Gang → Gang) : (updGang s n f).errs = s.errs := rfl
@[simp] theorem updGang_fab (s : State) (n : Nat) (f : Gang → Gang) : (updGang s n f).fab = s.fab := rfl
@[simp] theorem updGang_host (s : State) (n : Nat) (f : Gang → Gang) : (updGang s n f).host = s.host := rfl
@[simp] theorem updGang_tagNext (s : State) (n : Nat) (f : Gang → Gang) : (updGang s n f).tagNext = s.tagNext := rfl
@[simp] theorem updGang_recWr (s : State) (n : Nat) (f : Gang → Gang) : (updGang s n f).recWr = s.recWr := rfl
@[simp] theorem updGang_bqs (s : State) (n : Nat) (f : Gang → Gang) : (updGang s n f).bqs = s.bqs := rfl

/-! ### `updDie` changes `dies` only -/

@[simp] theorem updDie_sch (s : State) (n : Nat) (f : Die → Die) : (updDie s n f).sch = s.sch := rfl
@[simp] theorem updDie_mm (s : State) (n : Nat) (f : Die → Die) : (updDie s n f).mm = s.mm := rfl
@[simp] theorem updDie_groups (s : State) (n : Nat) (f : Die → Die) : (updDie s n f).groups = s.groups := rfl
@[simp] theorem updDie_gangs (s : State) (n : Nat) (f : Die → Die) : (updDie s n f).gangs = s.gangs := rfl
@[simp] theorem updDie_hams (s : State) (n : Nat) (f : Die → Die) : (updDie s n f).hams = s.hams := rfl
@[simp] theorem updDie_streams (s : State) (n : Nat) (f : Die → Die) : (updDie s n f).streams = s.streams := rfl
@[simp] theorem updDie_boxes (s : State) (n : Nat) (f : Die → Die) : (updDie s n f).boxes = s.boxes := rfl
@[simp] theorem updDie_nodes (s : State) (n : Nat) (f : Die → Die) : (updDie s n f).nodes = s.nodes := rfl
@[simp] theorem updDie_reqs (s : State) (n : Nat) (f : Die → Die) : (updDie s n f).reqs = s.reqs := rfl
@[simp] theorem updDie_errs (s : State) (n : Nat) (f : Die → Die) : (updDie s n f).errs = s.errs := rfl
@[simp] theorem updDie_fab (s : State) (n : Nat) (f : Die → Die) : (updDie s n f).fab = s.fab := rfl
@[simp] theorem updDie_host (s : State) (n : Nat) (f : Die → Die) : (updDie s n f).host = s.host := rfl
@[simp] theorem updDie_tagNext (s : State) (n : Nat) (f : Die → Die) : (updDie s n f).tagNext = s.tagNext := rfl
@[simp] theorem updDie_recWr (s : State) (n : Nat) (f : Die → Die) : (updDie s n f).recWr = s.recWr := rfl
@[simp] theorem updDie_bqs (s : State) (n : Nat) (f : Die → Die) : (updDie s n f).bqs = s.bqs := rfl

/-! ### `updQueue` changes `dies` only -/

@[simp] theorem updQueue_sch (s : State) (n q : Nat) (f : Queue → Queue) : (updQueue s n q f).sch = s.sch := rfl
@[simp] theorem updQueue_mm (s : State) (n q : Nat) (f : Queue → Queue) : (updQueue s n q f).mm = s.mm := rfl
@[simp] theorem updQueue_groups (s : State) (n q : Nat) (f : Queue → Queue) : (updQueue s n q f).groups = s.groups := rfl
@[simp] theorem updQueue_gangs (s : State) (n q : Nat) (f : Queue → Queue) : (updQueue s n q f).gangs = s.gangs := rfl
@[simp] theorem updQueue_hams (s : State) (n q : Nat) (f : Queue → Queue) : (updQueue s n q f).hams = s.hams := rfl
@[simp] theorem updQueue_streams (s : State) (n q : Nat) (f : Queue → Queue) : (updQueue s n q f).streams = s.streams := rfl
@[simp] theorem updQueue_boxes (s : State) (n q : Nat) (f : Queue → Queue) : (updQueue s n q f).boxes = s.boxes := rfl
@[simp] theorem updQueue_nodes (s : State) (n q : Nat) (f : Queue → Queue) : (updQueue s n q f).nodes = s.nodes := rfl
@[simp] theorem updQueue_reqs (s : State) (n q : Nat) (f : Queue → Queue) : (updQueue s n q f).reqs = s.reqs := rfl
@[simp] theorem updQueue_errs (s : State) (n q : Nat) (f : Queue → Queue) : (updQueue s n q f).errs = s.errs := rfl
@[simp] theorem updQueue_fab (s : State) (n q : Nat) (f : Queue → Queue) : (updQueue s n q f).fab = s.fab := rfl
@[simp] theorem updQueue_host (s : State) (n q : Nat) (f : Queue → Queue) : (updQueue s n q f).host = s.host := rfl
@[simp] theorem updQueue_tagNext (s : State) (n q : Nat) (f : Queue → Queue) : (updQueue s n q f).tagNext = s.tagNext := rfl
@[simp] theorem updQueue_recWr (s : State) (n q : Nat) (f : Queue → Queue) : (updQueue s n q f).recWr = s.recWr := rfl
@[simp] theorem updQueue_bqs (s : State) (n q : Nat) (f : Queue → Queue) : (updQueue s n q f).bqs = s.bqs := rfl

/-! ### `updHam` changes `hams` only -/

@[simp] theorem updHam_sch (s : State) (n : Nat) (f : Hamlet → Hamlet) : (updHam s n f).sch = s.sch := rfl
@[simp] theorem updHam_mm (s : State) (n : Nat) (f : Hamlet → Hamlet) : (updHam s n f).mm = s.mm := rfl
@[simp] theorem updHam_groups (s : State) (n : Nat) (f : Hamlet → Hamlet) : (updHam s n f).groups = s.groups := rfl
@[simp] theorem updHam_gangs (s : State) (n : Nat) (f : Hamlet → Hamlet) : (updHam s n f).gangs = s.gangs := rfl
@[simp] theorem updHam_dies (s : State) (n : Nat) (f : Hamlet → Hamlet) : (updHam s n f).dies = s.dies := rfl
@[simp] theorem updHam_streams (s : State) (n : Nat) (f : Hamlet → Hamlet) : (updHam s n f).streams = s.streams := rfl
@[simp] theorem updHam_boxes (s : State) (n : Nat) (f : Hamlet → Hamlet) : (updHam s n f).boxes = s.boxes := rfl
@[simp] theorem updHam_nodes (s : State) (n : Nat) (f : Hamlet → Hamlet) : (updHam s n f).nodes = s.nodes := rfl
@[simp] theorem updHam_reqs (s : State) (n : Nat) (f : Hamlet → Hamlet) : (updHam s n f).reqs = s.reqs := rfl
@[simp] theorem updHam_errs (s : State) (n : Nat) (f : Hamlet → Hamlet) : (updHam s n f).errs = s.errs := rfl
@[simp] theorem updHam_fab (s : State) (n : Nat) (f : Hamlet → Hamlet) : (updHam s n f).fab = s.fab := rfl
@[simp] theorem updHam_host (s : State) (n : Nat) (f : Hamlet → Hamlet) : (updHam s n f).host = s.host := rfl
@[simp] theorem updHam_tagNext (s : State) (n : Nat) (f : Hamlet → Hamlet) : (updHam s n f).tagNext = s.tagNext := rfl
@[simp] theorem updHam_recWr (s : State) (n : Nat) (f : Hamlet → Hamlet) : (updHam s n f).recWr = s.recWr := rfl
@[simp] theorem updHam_bqs (s : State) (n : Nat) (f : Hamlet → Hamlet) : (updHam s n f).bqs = s.bqs := rfl

/-! ### `updMill` changes `hams` only -/

@[simp] theorem updMill_sch (s : State) (n m : Nat) (f : Mill → Mill) : (updMill s n m f).sch = s.sch := rfl
@[simp] theorem updMill_mm (s : State) (n m : Nat) (f : Mill → Mill) : (updMill s n m f).mm = s.mm := rfl
@[simp] theorem updMill_groups (s : State) (n m : Nat) (f : Mill → Mill) : (updMill s n m f).groups = s.groups := rfl
@[simp] theorem updMill_gangs (s : State) (n m : Nat) (f : Mill → Mill) : (updMill s n m f).gangs = s.gangs := rfl
@[simp] theorem updMill_dies (s : State) (n m : Nat) (f : Mill → Mill) : (updMill s n m f).dies = s.dies := rfl
@[simp] theorem updMill_streams (s : State) (n m : Nat) (f : Mill → Mill) : (updMill s n m f).streams = s.streams := rfl
@[simp] theorem updMill_boxes (s : State) (n m : Nat) (f : Mill → Mill) : (updMill s n m f).boxes = s.boxes := rfl
@[simp] theorem updMill_nodes (s : State) (n m : Nat) (f : Mill → Mill) : (updMill s n m f).nodes = s.nodes := rfl
@[simp] theorem updMill_reqs (s : State) (n m : Nat) (f : Mill → Mill) : (updMill s n m f).reqs = s.reqs := rfl
@[simp] theorem updMill_errs (s : State) (n m : Nat) (f : Mill → Mill) : (updMill s n m f).errs = s.errs := rfl
@[simp] theorem updMill_fab (s : State) (n m : Nat) (f : Mill → Mill) : (updMill s n m f).fab = s.fab := rfl
@[simp] theorem updMill_host (s : State) (n m : Nat) (f : Mill → Mill) : (updMill s n m f).host = s.host := rfl
@[simp] theorem updMill_tagNext (s : State) (n m : Nat) (f : Mill → Mill) : (updMill s n m f).tagNext = s.tagNext := rfl
@[simp] theorem updMill_recWr (s : State) (n m : Nat) (f : Mill → Mill) : (updMill s n m f).recWr = s.recWr := rfl
@[simp] theorem updMill_bqs (s : State) (n m : Nat) (f : Mill → Mill) : (updMill s n m f).bqs = s.bqs := rfl

/-! ### `updRun` changes `hams` only -/

@[simp] theorem updRun_sch (s : State) (n m : Nat) (f : Run → Run) : (updRun s n m f).sch = s.sch := rfl
@[simp] theorem updRun_mm (s : State) (n m : Nat) (f : Run → Run) : (updRun s n m f).mm = s.mm := rfl
@[simp] theorem updRun_groups (s : State) (n m : Nat) (f : Run → Run) : (updRun s n m f).groups = s.groups := rfl
@[simp] theorem updRun_gangs (s : State) (n m : Nat) (f : Run → Run) : (updRun s n m f).gangs = s.gangs := rfl
@[simp] theorem updRun_dies (s : State) (n m : Nat) (f : Run → Run) : (updRun s n m f).dies = s.dies := rfl
@[simp] theorem updRun_streams (s : State) (n m : Nat) (f : Run → Run) : (updRun s n m f).streams = s.streams := rfl
@[simp] theorem updRun_boxes (s : State) (n m : Nat) (f : Run → Run) : (updRun s n m f).boxes = s.boxes := rfl
@[simp] theorem updRun_nodes (s : State) (n m : Nat) (f : Run → Run) : (updRun s n m f).nodes = s.nodes := rfl
@[simp] theorem updRun_reqs (s : State) (n m : Nat) (f : Run → Run) : (updRun s n m f).reqs = s.reqs := rfl
@[simp] theorem updRun_errs (s : State) (n m : Nat) (f : Run → Run) : (updRun s n m f).errs = s.errs := rfl
@[simp] theorem updRun_fab (s : State) (n m : Nat) (f : Run → Run) : (updRun s n m f).fab = s.fab := rfl
@[simp] theorem updRun_host (s : State) (n m : Nat) (f : Run → Run) : (updRun s n m f).host = s.host := rfl
@[simp] theorem updRun_tagNext (s : State) (n m : Nat) (f : Run → Run) : (updRun s n m f).tagNext = s.tagNext := rfl
@[simp] theorem updRun_recWr (s : State) (n m : Nat) (f : Run → Run) : (updRun s n m f).recWr = s.recWr := rfl
@[simp] theorem updRun_bqs (s : State) (n m : Nat) (f : Run → Run) : (updRun s n m f).bqs = s.bqs := rfl

/-! ### `updStream` changes `streams` only -/

@[simp] theorem updStream_sch (s : State) (n : Nat) (f : Stream → Stream) : (updStream s n f).sch = s.sch := rfl
@[simp] theorem updStream_mm (s : State) (n : Nat) (f : Stream → Stream) : (updStream s n f).mm = s.mm := rfl
@[simp] theorem updStream_groups (s : State) (n : Nat) (f : Stream → Stream) : (updStream s n f).groups = s.groups := rfl
@[simp] theorem updStream_gangs (s : State) (n : Nat) (f : Stream → Stream) : (updStream s n f).gangs = s.gangs := rfl
@[simp] theorem updStream_dies (s : State) (n : Nat) (f : Stream → Stream) : (updStream s n f).dies = s.dies := rfl
@[simp] theorem updStream_hams (s : State) (n : Nat) (f : Stream → Stream) : (updStream s n f).hams = s.hams := rfl
@[simp] theorem updStream_boxes (s : State) (n : Nat) (f : Stream → Stream) : (updStream s n f).boxes = s.boxes := rfl
@[simp] theorem updStream_nodes (s : State) (n : Nat) (f : Stream → Stream) : (updStream s n f).nodes = s.nodes := rfl
@[simp] theorem updStream_reqs (s : State) (n : Nat) (f : Stream → Stream) : (updStream s n f).reqs = s.reqs := rfl
@[simp] theorem updStream_errs (s : State) (n : Nat) (f : Stream → Stream) : (updStream s n f).errs = s.errs := rfl
@[simp] theorem updStream_fab (s : State) (n : Nat) (f : Stream → Stream) : (updStream s n f).fab = s.fab := rfl
@[simp] theorem updStream_host (s : State) (n : Nat) (f : Stream → Stream) : (updStream s n f).host = s.host := rfl
@[simp] theorem updStream_tagNext (s : State) (n : Nat) (f : Stream → Stream) : (updStream s n f).tagNext = s.tagNext := rfl
@[simp] theorem updStream_recWr (s : State) (n : Nat) (f : Stream → Stream) : (updStream s n f).recWr = s.recWr := rfl
@[simp] theorem updStream_bqs (s : State) (n : Nat) (f : Stream → Stream) : (updStream s n f).bqs = s.bqs := rfl

/-! ### `updBox` changes `boxes` only -/

@[simp] theorem updBox_sch (s : State) (n b : Nat) (f : Mailbox → Mailbox) : (updBox s n b f).sch = s.sch := rfl
@[simp] theorem updBox_mm (s : State) (n b : Nat) (f : Mailbox → Mailbox) : (updBox s n b f).mm = s.mm := rfl
@[simp] theorem updBox_groups (s : State) (n b : Nat) (f : Mailbox → Mailbox) : (updBox s n b f).groups = s.groups := rfl
@[simp] theorem updBox_gangs (s : State) (n b : Nat) (f : Mailbox → Mailbox) : (updBox s n b f).gangs = s.gangs := rfl
@[simp] theorem updBox_dies (s : State) (n b : Nat) (f : Mailbox → Mailbox) : (updBox s n b f).dies = s.dies := rfl
@[simp] theorem updBox_hams (s : State) (n b : Nat) (f : Mailbox → Mailbox) : (updBox s n b f).hams = s.hams := rfl
@[simp] theorem updBox_streams (s : State) (n b : Nat) (f : Mailbox → Mailbox) : (updBox s n b f).streams = s.streams := rfl
@[simp] theorem updBox_nodes (s : State) (n b : Nat) (f : Mailbox → Mailbox) : (updBox s n b f).nodes = s.nodes := rfl
@[simp] theorem updBox_reqs (s : State) (n b : Nat) (f : Mailbox → Mailbox) : (updBox s n b f).reqs = s.reqs := rfl
@[simp] theorem updBox_errs (s : State) (n b : Nat) (f : Mailbox → Mailbox) : (updBox s n b f).errs = s.errs := rfl
@[simp] theorem updBox_fab (s : State) (n b : Nat) (f : Mailbox → Mailbox) : (updBox s n b f).fab = s.fab := rfl
@[simp] theorem updBox_host (s : State) (n b : Nat) (f : Mailbox → Mailbox) : (updBox s n b f).host = s.host := rfl
@[simp] theorem updBox_tagNext (s : State) (n b : Nat) (f : Mailbox → Mailbox) : (updBox s n b f).tagNext = s.tagNext := rfl
@[simp] theorem updBox_recWr (s : State) (n b : Nat) (f : Mailbox → Mailbox) : (updBox s n b f).recWr = s.recWr := rfl
@[simp] theorem updBox_bqs (s : State) (n b : Nat) (f : Mailbox → Mailbox) : (updBox s n b f).bqs = s.bqs := rfl

/-! ### `setWin` changes `mm` only -/

@[simp] theorem setWin_sch (s : State) (n : Nat) (x : Window) : (setWin s n x).sch = s.sch := rfl
@[simp] theorem setWin_groups (s : State) (n : Nat) (x : Window) : (setWin s n x).groups = s.groups := rfl
@[simp] theorem setWin_gangs (s : State) (n : Nat) (x : Window) : (setWin s n x).gangs = s.gangs := rfl
@[simp] theorem setWin_dies (s : State) (n : Nat) (x : Window) : (setWin s n x).dies = s.dies := rfl
@[simp] theorem setWin_hams (s : State) (n : Nat) (x : Window) : (setWin s n x).hams = s.hams := rfl
@[simp] theorem setWin_streams (s : State) (n : Nat) (x : Window) : (setWin s n x).streams = s.streams := rfl
@[simp] theorem setWin_boxes (s : State) (n : Nat) (x : Window) : (setWin s n x).boxes = s.boxes := rfl
@[simp] theorem setWin_nodes (s : State) (n : Nat) (x : Window) : (setWin s n x).nodes = s.nodes := rfl
@[simp] theorem setWin_reqs (s : State) (n : Nat) (x : Window) : (setWin s n x).reqs = s.reqs := rfl
@[simp] theorem setWin_errs (s : State) (n : Nat) (x : Window) : (setWin s n x).errs = s.errs := rfl
@[simp] theorem setWin_fab (s : State) (n : Nat) (x : Window) : (setWin s n x).fab = s.fab := rfl
@[simp] theorem setWin_host (s : State) (n : Nat) (x : Window) : (setWin s n x).host = s.host := rfl
@[simp] theorem setWin_tagNext (s : State) (n : Nat) (x : Window) : (setWin s n x).tagNext = s.tagNext := rfl
@[simp] theorem setWin_recWr (s : State) (n : Nat) (x : Window) : (setWin s n x).recWr = s.recWr := rfl
@[simp] theorem setWin_bqs (s : State) (n : Nat) (x : Window) : (setWin s n x).bqs = s.bqs := rfl

/-! ### `setReady` changes `host` only -/

@[simp] theorem setReady_sch (s : State) (x : DevFn) (b : Bool) : (setReady s x b).sch = s.sch := rfl
@[simp] theorem setReady_mm (s : State) (x : DevFn) (b : Bool) : (setReady s x b).mm = s.mm := rfl
@[simp] theorem setReady_groups (s : State) (x : DevFn) (b : Bool) : (setReady s x b).groups = s.groups := rfl
@[simp] theorem setReady_gangs (s : State) (x : DevFn) (b : Bool) : (setReady s x b).gangs = s.gangs := rfl
@[simp] theorem setReady_dies (s : State) (x : DevFn) (b : Bool) : (setReady s x b).dies = s.dies := rfl
@[simp] theorem setReady_hams (s : State) (x : DevFn) (b : Bool) : (setReady s x b).hams = s.hams := rfl
@[simp] theorem setReady_streams (s : State) (x : DevFn) (b : Bool) : (setReady s x b).streams = s.streams := rfl
@[simp] theorem setReady_boxes (s : State) (x : DevFn) (b : Bool) : (setReady s x b).boxes = s.boxes := rfl
@[simp] theorem setReady_nodes (s : State) (x : DevFn) (b : Bool) : (setReady s x b).nodes = s.nodes := rfl
@[simp] theorem setReady_reqs (s : State) (x : DevFn) (b : Bool) : (setReady s x b).reqs = s.reqs := rfl
@[simp] theorem setReady_errs (s : State) (x : DevFn) (b : Bool) : (setReady s x b).errs = s.errs := rfl
@[simp] theorem setReady_fab (s : State) (x : DevFn) (b : Bool) : (setReady s x b).fab = s.fab := rfl
@[simp] theorem setReady_tagNext (s : State) (x : DevFn) (b : Bool) : (setReady s x b).tagNext = s.tagNext := rfl
@[simp] theorem setReady_recWr (s : State) (x : DevFn) (b : Bool) : (setReady s x b).recWr = s.recWr := rfl
@[simp] theorem setReady_bqs (s : State) (x : DevFn) (b : Bool) : (setReady s x b).bqs = s.bqs := rfl

/-! ### `setFailed` changes `host` only -/

@[simp] theorem setFailed_sch (s : State) (x : DevFn) : (setFailed s x).sch = s.sch := rfl
@[simp] theorem setFailed_mm (s : State) (x : DevFn) : (setFailed s x).mm = s.mm := rfl
@[simp] theorem setFailed_groups (s : State) (x : DevFn) : (setFailed s x).groups = s.groups := rfl
@[simp] theorem setFailed_gangs (s : State) (x : DevFn) : (setFailed s x).gangs = s.gangs := rfl
@[simp] theorem setFailed_dies (s : State) (x : DevFn) : (setFailed s x).dies = s.dies := rfl
@[simp] theorem setFailed_hams (s : State) (x : DevFn) : (setFailed s x).hams = s.hams := rfl
@[simp] theorem setFailed_streams (s : State) (x : DevFn) : (setFailed s x).streams = s.streams := rfl
@[simp] theorem setFailed_boxes (s : State) (x : DevFn) : (setFailed s x).boxes = s.boxes := rfl
@[simp] theorem setFailed_nodes (s : State) (x : DevFn) : (setFailed s x).nodes = s.nodes := rfl
@[simp] theorem setFailed_reqs (s : State) (x : DevFn) : (setFailed s x).reqs = s.reqs := rfl
@[simp] theorem setFailed_errs (s : State) (x : DevFn) : (setFailed s x).errs = s.errs := rfl
@[simp] theorem setFailed_fab (s : State) (x : DevFn) : (setFailed s x).fab = s.fab := rfl
@[simp] theorem setFailed_tagNext (s : State) (x : DevFn) : (setFailed s x).tagNext = s.tagNext := rfl
@[simp] theorem setFailed_recWr (s : State) (x : DevFn) : (setFailed s x).recWr = s.recWr := rfl
@[simp] theorem setFailed_bqs (s : State) (x : DevFn) : (setFailed s x).bqs = s.bqs := rfl

/-! ### `dropReq` changes `reqs` only -/

@[simp] theorem dropReq_sch (s : State) (n : Nat) : (dropReq s n).sch = s.sch := rfl
@[simp] theorem dropReq_mm (s : State) (n : Nat) : (dropReq s n).mm = s.mm := rfl
@[simp] theorem dropReq_groups (s : State) (n : Nat) : (dropReq s n).groups = s.groups := rfl
@[simp] theorem dropReq_gangs (s : State) (n : Nat) : (dropReq s n).gangs = s.gangs := rfl
@[simp] theorem dropReq_dies (s : State) (n : Nat) : (dropReq s n).dies = s.dies := rfl
@[simp] theorem dropReq_hams (s : State) (n : Nat) : (dropReq s n).hams = s.hams := rfl
@[simp] theorem dropReq_streams (s : State) (n : Nat) : (dropReq s n).streams = s.streams := rfl
@[simp] theorem dropReq_boxes (s : State) (n : Nat) : (dropReq s n).boxes = s.boxes := rfl
@[simp] theorem dropReq_nodes (s : State) (n : Nat) : (dropReq s n).nodes = s.nodes := rfl
@[simp] theorem dropReq_errs (s : State) (n : Nat) : (dropReq s n).errs = s.errs := rfl
@[simp] theorem dropReq_fab (s : State) (n : Nat) : (dropReq s n).fab = s.fab := rfl
@[simp] theorem dropReq_host (s : State) (n : Nat) : (dropReq s n).host = s.host := rfl
@[simp] theorem dropReq_tagNext (s : State) (n : Nat) : (dropReq s n).tagNext = s.tagNext := rfl
@[simp] theorem dropReq_recWr (s : State) (n : Nat) : (dropReq s n).recWr = s.recWr := rfl
@[simp] theorem dropReq_bqs (s : State) (n : Nat) : (dropReq s n).bqs = s.bqs := rfl

/-! ### Lookups after an update -/

theorem groupOf_updGroup (s : State) (g h : Gid) (f : Group → Group) (hf : ∀ x, (f x).gid = x.gid) :
    groupOf (updGroup s g f) h = (groupOf s h).map fun x => if x.gid = g then f x else x := by
  simp only [groupOf, updGroup]
  rw [find_modAll _ _ _ (fun x => by rw [hf])]
  cases List.find? (fun x => decide (x.gid = h)) s.groups <;> simp

/-- The group itself, and every other group. -/
theorem groupOf_updGroup_same (s : State) (g : Gid) (f : Group → Group) (hf : ∀ x, (f x).gid = x.gid) :
    groupOf (updGroup s g f) g = (groupOf s g).map f := by
  rw [groupOf_updGroup s g g f hf]
  cases h : groupOf s g with
  | none => rfl
  | some x =>
    have := List.find?_some h
    simp only [decide_eq_true_eq] at this
    simp [this]

theorem groupOf_updGroup_other (s : State) (g h : Gid) (f : Group → Group) (hf : ∀ x, (f x).gid = x.gid) (hg : h ≠ g) :
    groupOf (updGroup s g f) h = groupOf s h := by
  rw [groupOf_updGroup s g h f hf]
  cases hh : groupOf s h with
  | none => rfl
  | some x =>
    have := List.find?_some hh
    simp only [decide_eq_true_eq] at this
    simp [this, hg]

theorem gangOf_updGang (s : State) (n m : Nat) (f : Gang → Gang) (hf : ∀ x, (f x).tag = x.tag) :
    gangOf (updGang s n f) m = (gangOf s m).map fun x => if x.tag = n then f x else x := by
  simp only [gangOf, updGang]
  rw [find_modAll _ _ _ (fun x => by rw [hf])]
  cases List.find? (fun x => decide (x.tag = m)) s.gangs <;> simp

theorem dieOf_updDie (s : State) (n m : Nat) (f : Die → Die) :
    dieOf (updDie s n f) m = if n = m then f (dieOf s n) else dieOf s m := by
  simp only [dieOf, updDie, tfind_tput]
  split <;> simp_all

theorem hamOf_updHam (s : State) (n m : Nat) (f : Hamlet → Hamlet) :
    hamOf (updHam s n f) m = if n = m then f (hamOf s n) else hamOf s m := by
  simp only [hamOf, updHam, tfind_tput]
  split <;> simp_all

theorem streamOf_updStream (s : State) (n m : Nat) (f : Stream → Stream) :
    streamOf (updStream s n f) m = if n = m then f (streamOf s n) else streamOf s m := by
  simp only [streamOf, updStream, tfind_tput]
  split <;> simp_all

theorem queueOf_updQueue (s : State) (d q : Nat) (f : Queue → Queue) :
    queueOf (updQueue s d q f) d q = f (queueOf s d q) := by
  simp [queueOf, updQueue, dieOf_updDie, tget_tmod]

@[simp] theorem dieOf_updDie_same (s : State) (n : Nat) (f : Die → Die) : dieOf (updDie s n f) n = f (dieOf s n) := by
  simp [dieOf_updDie]
@[simp] theorem hamOf_updHam_same (s : State) (n : Nat) (f : Hamlet → Hamlet) : hamOf (updHam s n f) n = f (hamOf s n) := by
  simp [hamOf_updHam]
@[simp] theorem streamOf_updStream_same (s : State) (n : Nat) (f : Stream → Stream) :
    streamOf (updStream s n f) n = f (streamOf s n) := by
  simp [streamOf_updStream]

theorem boxOf_updBox_same (s : State) (c b : Nat) (f : Mailbox → Mailbox) : boxOf (updBox s c b f) c b = f (boxOf s c b) := by
  simp [boxOf, updBox, tfind_tput]

theorem winOf_setWin (s : State) (w v : Nat) (x : Window) : winOf (setWin s w x) v = if w = v then x else winOf s v := by
  simp [winOf, setWin, tget_tset]

theorem mill_setMill (h : Hamlet) (m n : Nat) (x : Mill) (hm : m < 2) (hn : n < 2) :
    (h.setMill m x).mill n = if m = n then x else h.mill n := by
  rcases (by omega : m = 0 ∨ m = 1) with rfl | rfl <;> rcases (by omega : n = 0 ∨ n = 1) with rfl | rfl <;> rfl

/-! ### Reset -/

theorem reset_dieOf (n : Nat) : dieOf State.reset n = Die.reset n := rfl
theorem reset_hamOf (n : Nat) : hamOf State.reset n = Hamlet.reset := rfl
theorem reset_streamOf (n : Nat) : streamOf State.reset n = Stream.reset := rfl
theorem reset_groupOf (g : Gid) : groupOf State.reset g = none := rfl
theorem reset_gangOf (n : Nat) : gangOf State.reset n = none := rfl
theorem reset_winOf (n : Nat) : winOf State.reset n = Window.reset := rfl
/-- Memory lists nothing after reset. -/
theorem reset_mem : State.reset.mm.mem = [] := rfl
theorem reset_mem_wf : Memory.wf State.reset.mm.mem = true := rfl

/-! ### A register's write -/

section
variable (t : Thread) (r : Nat) (v : W32)
@[simp] theorem Thread.setReg_regs : (t.setReg r v).regs = tset 0#32 t.regs r v := rfl
@[simp] theorem Thread.setReg_rbad : (t.setReg r v).rbad = t.rbad.filter (· != r) := rfl
@[simp] theorem Thread.setReg_tid : (t.setReg r v).tid = t.tid := rfl
@[simp] theorem Thread.setReg_pc : (t.setReg r v).pc = t.pc := rfl
@[simp] theorem Thread.setReg_k : (t.setReg r v).k = t.k := rfl
@[simp] theorem Thread.setReg_wait : (t.setReg r v).wait = t.wait := rfl
@[simp] theorem Thread.setReg_latches : (t.setReg r v).latches = t.latches := rfl
@[simp] theorem Thread.setReg_stack : (t.setReg r v).stack = t.stack := rfl
end

end Sys2Proof.Machine
end

