-- ==== Sys2Proof/Laws/Memory.lean ====
section
/-! SUPPORT. What the operations over memory do: each keeps the invariant of memory, and what a byte reads as after it. -/

namespace Sys2Proof.Machine

open Sys2Proof

/-! ## The invariant of memory -/

/-- An operation that leaves the bytes leaves the invariant. -/
theorem MemSys.Inv.of_eq {a b : MemSys} (h : a.Inv) (hm : b.mem = a.mem) (hd : b.deferred = a.deferred) : b.Inv := by
  unfold MemSys.Inv at *
  rwa [hm, hd]

/-- So of the bytes that are written home where nothing is added to the deferred ones. -/
theorem MemSys.Inv.of_sub {a b : MemSys} (h : a.Inv) (hm : Memory.wf b.mem = true)
    (hd : ∀ x ∈ b.deferred, x ∈ a.deferred) : b.Inv := ⟨hm, fun x hx => h.2 x (hd x hx)⟩

theorem State.Inv.of_eq {a b : State} (h : a.Inv) (hm : b.mm.mem = a.mm.mem) (hd : b.mm.deferred = a.mm.deferred) : b.Inv :=
  MemSys.Inv.of_eq h hm hd

theorem inv_reset : State.reset.Inv := ⟨rfl, fun _ h => by cases h⟩

/-! ## One byte -/

theorem mem_tput {α : Type} {t : Table α} {n : Nat} {v : α} {x : Nat × α} (h : x ∈ tput t n v) : x = (n, v) ∨ x ∈ t := by
  induction t with
  | nil => simpa [tput] using h
  | cons y t ih =>
    obtain ⟨k, w⟩ := y
    simp only [tput] at h
    split at h
    · exact List.mem_cons.1 h
    · split at h
      · rcases List.mem_cons.1 h with h | h
        · exact .inl h
        · exact .inr (by simp [h])
      · rcases List.mem_cons.1 h with h | h
        · exact .inr (by simp [h])
        · rcases ih h with h | h
          · exact .inl h
          · exact .inr (by simp [h])

theorem putByte_inv {mm : MemSys} (h : mm.Inv) (l : Nat) (b : Byte) : (putByte mm l b).Inv := by
  unfold putByte
  split
  · rename_i hl
    refine ⟨h.1, fun x hx => ?_⟩
    rcases mem_tput hx with rfl | hx
    · exact hl
    · exact h.2 x hx
  · exact ⟨twf_tset h.1, h.2⟩

/-- No byte outside host memory is deferred. -/
theorem tfind_deferred_none {mm : MemSys} (h : mm.Inv) {l : Nat} (hl : isHostLoc l = false) : tfind mm.deferred l = none := by
  have := h.2
  generalize mm.deferred = d at this
  induction d with
  | nil => rfl
  | cons x d ih =>
    obtain ⟨k, v⟩ := x
    simp only [tfind]
    split
    · rename_i hk
      subst hk
      have := this (k, v) (by simp)
      simp [hl] at this
    · exact ih fun x hx => this x (by simp [hx])

/-- A read after a write of one byte. -/
theorem homeByte_putByte {mm : MemSys} (h : mm.Inv) (l m : Nat) (b : Byte) :
    homeByte (putByte mm l b) m = if l = m then b else homeByte mm m := by
  by_cases hlm : l = m
  · subst hlm
    cases hl : isHostLoc l <;> simp [putByte, hl, homeByte, tfind_tput, tfind_deferred_none h]
  · cases hl : isHostLoc l <;> simp [putByte, hl, homeByte, tget_tset, tfind_tput, hlm]

/-! ## Writes -/

theorem putBytes_inv {mm : MemSys} (h : mm.Inv) (ws : List (Nat × Byte)) : (putBytes mm ws).Inv :=
  foldl_keeps MemSys.Inv _ (fun _ _ h => putByte_inv h ..) ws mm h

/-- A byte that no write names reads as before. -/
theorem homeByte_putBytes_other {mm : MemSys} (h : mm.Inv) (ws : List (Nat × Byte)) (m : Nat) (hm : m ∉ ws.map (·.1)) :
    homeByte (putBytes mm ws) m = homeByte mm m := by
  induction ws generalizing mm with
  | nil => rfl
  | cons w ws ih =>
    simp only [List.map_cons, List.mem_cons, not_or] at hm
    simp only [putBytes, List.foldl_cons]
    rw [← putBytes, ih (putByte_inv h ..) hm.2, homeByte_putByte h, if_neg (Ne.symm hm.1)]

/-- Writes at distinct locations are all read back. -/
theorem homeByte_putBytes {mm : MemSys} (h : mm.Inv) (ws : List (Nat × Byte)) (hn : (ws.map (·.1)).Nodup) :
    ∀ x ∈ ws, homeByte (putBytes mm ws) x.1 = x.2 := by
  induction ws generalizing mm with
  | nil => simp
  | cons w ws ih =>
    simp only [List.map_cons, List.nodup_cons] at hn
    intro x hx
    simp only [putBytes, List.foldl_cons]
    rw [← putBytes]
    rcases List.mem_cons.1 hx with rfl | hx
    · rw [homeByte_putBytes_other (putByte_inv h ..) _ _ hn.1, homeByte_putByte h, if_pos rfl]
    · exact ih (putByte_inv h ..) hn.2 x hx

/-- Memory just before the bytes of a write are put. -/
def beforeWrite (s : State) (w : Writer) (ws : List (Nat × Byte)) : MemSys :=
  { s.mm with
    poison := (throughPoison s w ws).2
    l1 := snapL1 s.mm w ws (throughPoison s w ws).1
    icache := snapI s.mm (throughPoison s w ws).1
    past := notePast s.mm w (throughPoison s w ws).1 }

/-- What a write changes: bytes, poison, copies, last writers and the writes that reads may miss, and the threads that it
answers. -/
theorem applyWrite_bytes (s : State) (w : Writer) (ws : List (Nat × Byte)) :
    (applyWrite s w ws).mm.mem = (putBytes (beforeWrite s w ws) (throughPoison s w ws).1).mem ∧
    (applyWrite s w ws).mm.deferred = (putBytes (beforeWrite s w ws) (throughPoison s w ws).1).deferred := ⟨rfl, rfl⟩

theorem applyWrite_inv {s : State} (h : s.Inv) (w : Writer) (ws : List (Nat × Byte)) : (applyWrite s w ws).Inv :=
  State.Inv.of_eq (a := { s with mm := putBytes (beforeWrite s w ws) (throughPoison s w ws).1 })
    (putBytes_inv (mm := beforeWrite s w ws) (h.of_eq rfl rfl) _) rfl rfl

theorem writeLoc_inv {s : State} (h : s.Inv) (w : Writer) (l : Nat) (b : Bytes) : (writeLoc s w l b).Inv := applyWrite_inv h ..

@[simp] theorem wakeAll_mm (s : State) (ws : List (Nat × Byte)) : (wakeAll s ws).mm = s.mm := rfl

theorem setLeafBits_inv {s : State} (h : s.Inv) (at_ e : Nat) (a : Acc) : (setLeafBits s at_ e a).Inv := by
  unfold setLeafBits
  dsimp only
  generalize e ||| 2 ^ 57 ||| _ = x
  split
  · exact h
  · exact writeLoc_inv h ..

/-! ## Deferred lines -/

theorem writeBackLine_inv {mm : MemSys} (h : mm.Inv) (line : Nat) : (writeBackLine mm line).Inv := by
  refine h.of_sub ?_ ?_
  · exact foldl_keeps (fun m => Memory.wf m = true) _ (fun _ _ h => twf_tset h) _ _ h.1
  · intro x hx
    exact (List.mem_filter.1 hx).1

theorem foldl_writeBackLine_inv {mm : MemSys} (h : mm.Inv) (ls : List Nat) : (ls.foldl writeBackLine mm).Inv :=
  foldl_keeps MemSys.Inv _ (fun _ _ h => writeBackLine_inv h _) ls mm h

theorem takeMark_inv {mm : MemSys} (h : mm.Inv) (l : Nat) : (takeMark mm l).Inv :=
  (foldl_writeBackLine_inv h _).of_eq rfl rfl

theorem markWord_inv {mm : MemSys} (h : mm.Inv) (l : Nat) (ls : List Nat) : (markWord mm l ls).Inv := by
  unfold markWord
  simp only []
  split
  · exact h
  · exact h.of_eq rfl rfl

theorem dropL1_inv {mm : MemSys} (h : mm.Inv) (c : Nat) (ls : List Nat) : (dropL1 mm c ls).Inv := h.of_eq rfl rfl

theorem coverNow_inv {mm : MemSys} (h : mm.Inv) : (coverNow mm).Inv := h.of_eq rfl rfl

/-! ## The writes that reads may miss (11 R209 to R214) -/

theorem mapPast_inv {mm : MemSys} (h : mm.Inv) (f : Past → Past) : (mapPast mm f).Inv := h.of_eq rfl rfl

theorem forget_inv {mm : MemSys} (h : mm.Inv) (p : Agent → Bool) : (forget mm p).Inv := by
  unfold forget
  split
  · exact h
  · exact mapPast_inv h _

@[simp] theorem mapPast_nil {mm : MemSys} (h : mm.past = []) (f : Past → Past) : mapPast mm f = mm := by
  cases mm; simp_all [mapPast]

@[simp] theorem nextLook_mm (s : State) : (nextLook s).mm = s.mm := by unfold nextLook; split <;> rfl

theorem nextLook_inv {s : State} (h : s.Inv) : (nextLook s).Inv := h.of_eq (by simp) (by simp)

theorem learn_inv {mm : MemSys} (h : mm.Inv) (src : Past → Option (List Nat)) (dst : Agent) (carry : Nat → List Nat)
    (cov : Past → Bool) : (learn mm src dst carry cov).Inv := mapPast_inv h _

theorem learnTo_inv {mm : MemSys} (h : mm.Inv) (src : Past → Option (List Nat)) (dst : Agent) (carry : Nat → List Nat) :
    (learnTo mm src dst carry).Inv := learn_inv h ..

theorem releaseBy_inv {mm : MemSys} (h : mm.Inv) (me : Who) (scope : Nat) (mk : Rel → Agent) (carry : Nat → List Nat) :
    (releaseBy mm me scope mk carry).Inv := by
  unfold releaseBy
  split
  · exact h
  · refine foldl_keeps MemSys.Inv _ (fun _ _ h => learnTo_inv h ..) _ _ ?_
    split
    · exact h
    · exact learnTo_inv h ..

theorem release_inv {mm : MemSys} (h : mm.Inv) (me : Who) (scope : Nat) (locs : List Nat) (carry : Nat → List Nat) :
    (release mm me scope locs carry).Inv := releaseBy_inv h ..

theorem acquireBy_inv {mm : MemSys} (h : mm.Inv) (me : Who) (scope : Nat) (of : Agent → Option Rel) :
    (acquireBy mm me scope of).Inv := mapPast_inv h _

theorem acquire_inv {mm : MemSys} (h : mm.Inv) (me : Who) (scope : Nat) (locs : List Nat) :
    (acquire mm me scope locs).Inv := acquireBy_inv h ..

theorem fenceAt_inv {mm : MemSys} (h : mm.Inv) (me : Who) (scope : Nat) (cross : List Nat) :
    (fenceAt mm me scope cross).Inv :=
  foldl_keeps MemSys.Inv _ (fun _ _ h => learnTo_inv h ..) _ _ (mapPast_inv (learn_inv h ..) _)

theorem coverPast_inv {mm : MemSys} (h : mm.Inv) (g : Gid) (tids : List Nat) (of : Past → Bool) :
    (coverPast mm g tids of).Inv := mapPast_inv h _

theorem acquired_inv {s : State} (h : s.Inv) (g : Group) (scope : Nat) (newest : Bool) (locs tids : List Nat) :
    (acquired s g scope newest locs tids).Inv := by
  unfold acquired
  split
  · exact h
  · exact foldl_keeps MemSys.Inv _ (fun _ _ h => acquire_inv h ..) _ _ h

theorem acquireAnswered_inv (before : State) {s : State} (h : s.Inv) : (acquireAnswered before s).Inv := by
  unfold acquireAnswered
  split
  · exact h
  · refine foldl_keeps State.Inv _ (fun s g h => ?_) _ _ h
    refine foldl_keeps State.Inv _ (fun s t h => ?_) _ _ h
    split
    · split
      · exact acquired_inv h ..
      · exact h
    · exact h

theorem markWrite_inv {s : State} (h : s.Inv) (me : Who) (scope : Nat) (locs : List Nat) (carry : Nat → List Nat) :
    (markWrite s me scope locs carry).Inv := by
  show MemSys.Inv (if _ then _ else _)
  split
  · exact release_inv h ..
  · exact foldl_keeps MemSys.Inv _ (fun _ _ h => markWord_inv h ..) _ _ (release_inv h ..)

/-- A look changes who knows of writes only. -/
theorem sawPast_bytes (mm : MemSys) (free : Nat) (me : Who) (q : Nat) (unit : List Nat) :
    (sawPast mm free me q unit).mem = mm.mem ∧ (sawPast mm free me q unit).deferred = mm.deferred := by
  unfold sawPast
  split
  · exact ⟨rfl, rfl⟩
  · exact ⟨rfl, rfl⟩

theorem lookPast_bytes (s : State) (me : Who) (q : Nat) (key : Nat → Nat) (locs : List Nat) :
    (lookPast s me q key locs).mm.mem = s.mm.mem ∧ (lookPast s me q key locs).mm.deferred = s.mm.deferred := by
  unfold lookPast
  simp only [nextLook_mm]
  split
  · exact ⟨rfl, rfl⟩
  · exact foldl_keeps (fun m : MemSys => m.mem = s.mm.mem ∧ m.deferred = s.mm.deferred) _
      (fun m u h => ⟨(sawPast_bytes ..).1.trans h.1, (sawPast_bytes ..).2.trans h.2⟩) _ _ ⟨rfl, rfl⟩

theorem lookPast_inv {s : State} (h : s.Inv) (me : Who) (q : Nat) (key : Nat → Nat) (locs : List Nat) :
    (lookPast s me q key locs).Inv := h.of_eq (lookPast_bytes ..).1 (lookPast_bytes ..).2

theorem mem_of_takeWhile {α : Type} {p : α → Bool} {l : List α} {x : α} (h : x ∈ l.takeWhile p) : x ∈ l ∧ p x = true := by
  induction l with
  | nil => simp at h
  | cons y l ih =>
    simp only [List.takeWhile_cons] at h
    split at h
    · rename_i hy
      rcases List.mem_cons.1 h with rfl | h
      · exact ⟨by simp, hy⟩
      · exact ⟨by simp [(ih h).1], (ih h).2⟩
    · simp at h

/-- A write that a read misses is one of its bytes which does not bind it. -/
theorem of_missed {mm : MemSys} {free : Nat} {me : Who} {q : Nat} {unit : List Nat} {r : Past}
    (h : r ∈ missed mm free me q unit) : r ∈ mm.past ∧ r.touches unit = true ∧ r.binds me q = false := by
  unfold missed at h
  split at h
  · simp at h
  · rename_i x ho
    have := List.mem_of_mem_take h
    obtain ⟨h1, h2⟩ := mem_of_takeWhile this
    obtain ⟨h3, h4⟩ := List.mem_filter.1 h1
    exact ⟨h3, h4, by simpa using h2⟩

/-- What `undo` answers is the byte, or what one of the writes replaced. -/
theorem undo_cases (ps : List Past) (l : Nat) (b : Byte) : undo ps l b = b ∨ ∃ r ∈ ps, tfind r.was l = some (undo ps l b) := by
  unfold undo
  induction ps generalizing b with
  | nil => exact .inl rfl
  | cons r ps ih =>
    simp only [List.foldl_cons]
    rcases ih ((tfind r.was l).getD b) with h | ⟨x, hx, h⟩
    · rw [h]
      cases hw : tfind r.was l with
      | none => exact .inl rfl
      | some y => exact .inr ⟨r, by simp, by simp [hw]⟩
    · exact .inr ⟨x, by simp [hx], h⟩

/-- A byte as a read returns it is the home's, or one that a write which does not bind the read has replaced. -/
theorem seenByte_cases (s : State) (me : Who) (q : Nat) (unit : List Nat) (l : Nat) :
    seenByte s me q unit l = homeByte s.mm l ∨
    ∃ r ∈ s.mm.past, r.touches unit = true ∧ r.binds me q = false ∧ tfind r.was l = some (seenByte s me q unit l) := by
  rcases undo_cases (missed s.mm s.sch.free me q unit) l (homeByte s.mm l) with h | ⟨r, hr, h⟩
  · exact .inl h
  · exact .inr ⟨r, (of_missed hr).1, (of_missed hr).2.1, (of_missed hr).2.2, h⟩

/-- A read whose last write of each byte binds it reads its bytes at their homes. -/
theorem missed_bound {mm : MemSys} {me : Who} {q : Nat} {unit : List Nat}
    (h : ∀ r ∈ (mm.past.filter (·.touches unit)).head?, r.binds me q = true) (free : Nat) : missed mm free me q unit = [] := by
  unfold missed
  cases hf : mm.past.filter (·.touches unit) with
  | nil => simp
  | cons r rs => simp [h r (by simp [hf])]

theorem seenByte_bound {s : State} {me : Who} {q : Nat} {unit : List Nat}
    (h : ∀ r ∈ (s.mm.past.filter (·.touches unit)).head?, r.binds me q = true) (l : Nat) :
    seenByte s me q unit l = homeByte s.mm l := by
  unfold seenByte
  rw [missed_bound h]
  rfl

theorem missed_nil {mm : MemSys} (h : mm.past = []) (free : Nat) (me : Who) (q : Nat) (unit : List Nat) :
    missed mm free me q unit = [] := missed_bound (by simp [h]) free

theorem seenByte_nil {s : State} (h : s.mm.past = []) (me : Who) (q : Nat) (unit : List Nat) (l : Nat) :
    seenByte s me q unit l = homeByte s.mm l := seenByte_bound (by simp [h]) l

/-- A write by a known maker stands first among those that reads may miss. -/
theorem notePast_known (mm : MemSys) (w : Writer) (ws : List (Nat × Byte)) (path : Nat) (a : Agent) (h : w.src = some (path, a))
    (hne : distinct ((ws.map (·.1)).filter (· < peerBase)) ≠ []) :
    (notePast mm w ws).head? =
      some ⟨(distinct ((ws.map (·.1)).filter (· < peerBase))).map fun l => (l, homeByte mm l), path, a, []⟩ := by
  unfold notePast
  simp [h, hne]

theorem mem_distinct {α : Type} [DecidableEq α] (x : α) (l : List α) : x ∈ distinct l ↔ x ∈ l := by
  induction l with
  | nil => rfl
  | cons y l ih =>
    by_cases h : x = y <;> simp [distinct, h, ih]

/-- A write and what it releases keep the invariant. -/
theorem writeAs_inv {s : State} (h : s.Inv) (w : Writer) (ws : List (Nat × Byte)) (me : Who) (scope : Nat)
    (carry : Nat → List Nat) : (writeAs s w ws me scope carry).Inv :=
  acquireAnswered_inv _ (markWrite_inv (applyWrite_inv h ..) ..)

/-! ## Reads -/

/-- Filling a line changes copies and the counter of free values only. -/
theorem fillLine_bytes (s : State) (c line : Nat) :
    (fillLine s c line).mm.mem = s.mm.mem ∧ (fillLine s c line).mm.deferred = s.mm.deferred := ⟨rfl, rfl⟩

theorem fillCode_inv {s : State} (h : s.Inv) (c line : Nat) : (fillCode s c line).Inv := h.of_eq rfl rfl

/-- So does the source of a line. -/
theorem lineSource_bytes (s : State) (c cover : Nat) (fill : Bool) (line : Nat) :
    (lineSource s c cover fill line).2.mm.mem = s.mm.mem ∧ (lineSource s c cover fill line).2.mm.deferred = s.mm.deferred := by
  unfold lineSource
  split
  · dsimp only
    split
    · exact ⟨rfl, rfl⟩
    · split
      · exact ⟨rfl, rfl⟩
      · dsimp only
        split <;> exact ⟨rfl, rfl⟩
  · dsimp only
    split <;> exact ⟨rfl, rfl⟩

theorem lineSource_inv {s : State} (h : s.Inv) (c cover : Nat) (fill : Bool) (line : Nat) :
    (lineSource s c cover fill line).2.Inv :=
  h.of_eq (lineSource_bytes ..).1 (lineSource_bytes ..).2

theorem readCore_inv {s : State} (h : s.Inv) (me : Who) (c cover : Nat) (unc : List Nat) (fill : Bool) (key : Nat → Nat)
    (ls : List Nat) : (readCore s me c cover unc fill key ls).st.Inv := by
  unfold readCore
  refine lookPast_inv ?_ ..
  refine foldl_keeps (fun (x : List L1Line × State) => x.2.Inv) _ ?_ _ _ h
  rintro ⟨o, s⟩ l h
  have := lineSource_inv h c cover fill l
  dsimp only
  split <;> rename_i heq <;> rw [heq] at this <;> exact this

/-! ## Translation, decision, fetch -/

theorem translate_inv {s s' : State} {eng ham asn : Nat} {va : W64} {n : Nat} {a : Acc} {p : Nat} {unc : Bool} (h : s.Inv)
    (ht : translate s eng ham asn va n a = .ok (p, unc, s')) : s'.Inv := by
  unfold translate at ht
  split at ht
  · simp at ht
  · split at ht
    · split at ht
      · simp at ht
      · simp only [Except.ok.injEq, Prod.mk.injEq] at ht
        exact ht.2.2 ▸ h
    · simp only [] at ht
      split at ht
      · split at ht
        · simp at ht
        · simp only [Except.ok.injEq, Prod.mk.injEq] at ht
          exact ht.2.2 ▸ h
      · split at ht
        · simp at ht
        · split at ht
          · simp at ht
          · simp only [Except.ok.injEq, Prod.mk.injEq] at ht
            rw [← ht.2.2]
            refine State.Inv.of_eq (a := if backed s.fab _ n then setLeafBits s _ _ a else s) ?_ rfl rfl
            split
            · exact setLeafBits_inv h ..
            · exact h

theorem decidePiece_inv {s : State} (h : s.Inv) (eng ham asn : Nat) (va : W64) (n : Nat) (a : Acc) :
    (decidePiece s eng ham asn va n a).2.Inv := by
  unfold decidePiece
  split
  · exact h
  · rename_i p unc s' ht
    have := translate_inv h ht
    simp only []
    split
    · exact this
    · split <;> exact this

theorem decideAccess_inv {s : State} (h : s.Inv) (eng ham asn : Nat) (va : W64) (n align : Nat) (a : Acc) :
    (decideAccess s eng ham asn va n align a).2.Inv := by
  unfold decideAccess
  simp only []
  split
  · exact h
  · split
    · exact h
    · have key : ∀ (pcs : List (W64 × Nat)) (acc : List (Except (Nat × W64) Places) × State), acc.2.Inv →
          (pcs.foldl (fun acc pc =>
            (acc.1 ++ [(decidePiece acc.2 eng ham asn pc.1 pc.2 a).1], (decidePiece acc.2 eng ham asn pc.1 pc.2 a).2)) acc).2.Inv :=
        fun pcs acc h => foldl_keeps (fun (x : List (Except (Nat × W64) Places) × State) => x.2.Inv) _
          (fun x pc h => decidePiece_inv h ..) pcs acc h
      have := key (pagePieces va n) ([], s) h
      split
      · exact this
      · split
        · exact this
        · split
          · exact this
          · split <;> exact this

theorem lineBytes_inv {s : State} (h : s.Inv) (c l : Nat) : (lineBytes s c l).2.2.Inv := by
  unfold lineBytes
  dsimp only
  split
  · split
    · exact h.of_eq rfl rfl
    · exact State.Inv.of_eq h rfl rfl
  · split
    · exact h
    · exact fillCode_inv h ..

theorem enterLine_inv {s : State} (h : s.Inv) (c asn : Nat) (pc : W64) : (enterLine s c asn pc).2.Inv := by
  unfold enterLine
  simp only []
  split
  · exact h
  · rename_i p _ s1 ht
    have h1 := translate_inv h ht
    have := lineBytes_inv h1 c p
    split
    · exact h1
    · split
      · exact h1
      · split
        · exact this
        · split <;> exact this

/-! ## What a step adds -/

theorem updGroup_inv {s : State} (h : s.Inv) (g : Gid) (f : Group → Group) : (updGroup s g f).Inv := h.of_eq rfl rfl

theorem Ctx.done_inv {s : State} (h : s.Inv) (c : Ctx) (f : Thread → Thread) : (c.done s f).Inv := h.of_eq rfl rfl

theorem Ctx.skip_inv {s : State} (h : s.Inv) (c : Ctx) (r : Bool) : (c.skip s r).Inv := h.of_eq rfl rfl

theorem checkTarget_inv {s : State} (h : s.Inv) (g : Group) (pc : W64) (mark : Bool) : (checkTarget s g pc mark).2.Inv := by
  unfold checkTarget
  have := enterLine_inv h (coreOf g) g.asn pc
  split <;> rename_i heq <;> rw [heq] at this
  · exact this
  · exact this
  · split <;> (split <;> exact this)

/-! ## Soft errors (27 R400) -/

@[simp] theorem poisonGranule_mem (mm : MemSys) (g : Nat) : (poisonGranule mm g).mem = mm.mem := by
  unfold poisonGranule; split <;> rfl
@[simp] theorem poisonGranule_deferred (mm : MemSys) (g : Nat) : (poisonGranule mm g).deferred = mm.deferred := by
  unfold poisonGranule; split <;> rfl

/-- A soft error leaves every byte at its home. -/
theorem upsetNow_mem (u : Upset) (s : State) : (upsetNow u s).mm.mem = s.mm.mem := by
  cases u <;> simp only [upsetNow] <;> (try split) <;> rfl
theorem upsetNow_deferred (u : Upset) (s : State) : (upsetNow u s).mm.deferred = s.mm.deferred := by
  cases u <;> simp only [upsetNow] <;> (try split) <;> rfl

theorem upsetNow_inv {s : State} (h : s.Inv) (u : Upset) : (upsetNow u s).Inv :=
  h.of_eq (upsetNow_mem u s) (upsetNow_deferred u s)

end Sys2Proof.Machine
end

