-- ==== Sys2Proof/Laws/Ops.lean ====
section
/-! SUPPORT. What the shared operations of a core instruction change: the issuing group and nothing else, or, for taking an
exception, what the check of the handler's line changes as well. -/

namespace Sys2Proof.Machine

open Sys2Proof

variable (c : Ctx) (s : State)

/-! ## Changes of the issuing group -/

/-- An operation through `updGroup` changes one group only. -/
theorem onlyGroup_updGroup (g : Gid) (f : Group → Group) (hf : ∀ x, (f x).gid = x.gid) : OnlyGroup s (updGroup s g f) g :=
  ⟨rfl, fun h hh => groupOf_updGroup_other s g h f hf hh⟩

@[simp] theorem modThreads_gid (l : List Nat) (f : Thread → Thread) (g : Group) : (modThreads l f g).gid = g.gid := rfl
@[simp] theorem modThreads_warps (l : List Nat) (f : Thread → Thread) (g : Group) : (modThreads l f g).warps = g.warps := rfl
@[simp] theorem modThreads_threads (l : List Nat) (f : Thread → Thread) (g : Group) :
    (modThreads l f g).threads = g.threads.map fun t => if l.contains t.tid then f t else t := rfl
@[simp] theorem setTags_gid (n d : Nat) (w : Bool) (x y : Tag) (g : Group) : (setTags n d w x y g).gid = g.gid := rfl
@[simp] theorem setTags_threads (n d : Nat) (w : Bool) (x y : Tag) (g : Group) :
    (setTags n d w x y g).threads = g.threads := rfl

theorem onlyGroup_done (f : Thread → Thread) : OnlyGroup s (c.done s f) c.cur.gid :=
  onlyGroup_updGroup s _ _ fun _ => rfl

theorem onlyGroup_skip (r : Bool) : OnlyGroup s (c.skip s r) c.cur.gid := onlyGroup_updGroup s _ _ fun _ => rfl

@[simp] theorem done_mm (f : Thread → Thread) : (c.done s f).mm = s.mm := rfl
@[simp] theorem skip_mm (r : Bool) : (c.skip s r).mm = s.mm := rfl
@[simp] theorem upd_mm (f : Group → Group) : (c.upd s f).mm = s.mm := rfl
@[simp] theorem masks_mm (d : Nat) (b : Thread → Bool) (f : Thread → Thread) : (c.masks s d b f).mm = s.mm := rfl
@[simp] theorem result_mm (d : BitVec 8) (w : Bool) (r : Result) (f : Thread → Thread) (wr : Thread → Bool) :
    (c.result s d w r f wr).mm = s.mm := rfl

/-- The threads of the issuing group after an instruction without a result. -/
theorem groupOf_done (f : Thread → Thread) : groupOf (c.done s f) c.cur.gid = (groupOf s c.cur.gid).map fun g =>
    modThreads c.setTids (fun t => { t with pc := c.cur.next }) (modThreads c.actTids f g) :=
  groupOf_updGroup_same s _ _ fun _ => rfl

/-- The threads of the issuing group after an instruction that no thread is active for. -/
theorem groupOf_skip (r : Bool) : groupOf (c.skip s r) c.cur.gid = (groupOf s c.cur.gid).map fun g =>
    modThreads c.setTids (fun t => { (if r then pushLatch none t else t) with pc := c.cur.next }) g :=
  groupOf_updGroup_same s _ _ fun _ => rfl

/-! ## Taking an exception -/

/-- Every way that `takeTrap` can go: nothing, for a group that is not on a core; the failure of the group, where a charged
thread is in the handler; and else the check of the handler's line, after which the entry is made, is kept for later, or
goes on to the group's failure. -/
theorem takeTrap_cases (gid : Gid) (cs : List Charge) :
    takeTrap s gid cs = s ∨
    ∃ g, groupOf s gid = some g ∧ onCore g = true ∧
      ((∃ first ∈ cs, takeTrap s gid cs = doubleTrap s g cs (lowestCharge first cs)) ∨
       ∃ s', (s' = s ∨ s' = (checkTarget s g g.xhand true).2) ∧
        (takeTrap s gid cs = updGroup s' gid (awaitEntry cs) ∨ takeTrap s gid cs = forwardTraps s' g cs ∨
         (∃ pc hs, takeTrap s gid cs = hold3 (updGroup s' gid (awaitEntry cs)) g pc 2 hs) ∨
         takeTrap s gid cs = updGroup s' gid (enterGroup cs (nowNs s)))) := by
  unfold takeTrap
  split
  · exact .inl rfl
  · exact .inl rfl
  · rename_i g first rest hg
    split
    · exact .inl rfl
    · rename_i hc
      refine .inr ⟨g, hg, by simpa using hc, ?_⟩
      simp only []
      split
      · exact .inl ⟨first, by simp, rfl⟩
      · refine .inr ?_
        split
        · exact ⟨s, .inl rfl, .inr (.inl rfl)⟩
        · split <;> rename_i heq
          · exact ⟨_, .inr (by rw [heq]), .inl rfl⟩
          · exact ⟨_, .inr (by rw [heq]), .inr (.inr (.inl ⟨_, _, rfl⟩))⟩
          · exact ⟨_, .inr (by rw [heq]), .inr (.inl rfl)⟩
          · exact ⟨_, .inr (by rw [heq]), .inr (.inr (.inr rfl))⟩

end Sys2Proof.Machine
end

