-- ==== Sys2Proof/Laws/PerInstr.lean ====
section
/-! SUPPORT. One lemma per instruction: its row of the long opcode map is read back. -/

namespace Sys2Proof.Laws.Row

open Sys2Proof

/-- The opcode of a long instruction lies outside the hint space and the LB opcodes, and its row of 04 Table 4.13 is the
instruction. It says nothing of an instruction without a long opcode. -/
def Statement (i : Instr) : Prop :=
  ∀ opc f, longOpc i = some (opc, f) → i.wf = true →
    opc < 0x3C0 ∧ (∀ b, branchRow opc b = none) ∧ longRow opc f = some i

theorem nopS (g : BitVec 5) : Statement (.nopS g) := by
  intro _ _ h
  cases h
theorem exitS (g : BitVec 5) : Statement (.exitS g) := by
  intro _ _ h
  cases h
theorem retS (g : BitVec 5) : Statement (.retS g) := by
  intro _ _ h
  cases h
theorem yieldS (g : BitVec 5) : Statement (.yieldS g) := by
  intro _ _ h
  cases h
theorem tretS (g : BitVec 5) : Statement (.tretS g) := by
  intro _ _ h
  cases h
theorem pdoneS (g : BitVec 5) : Statement (.pdoneS g) := by
  intro _ _ h
  cases h
theorem grpbarS (g : BitVec 5) : Statement (.grpbarS g) := by
  intro _ _ h
  cases h
theorem gangbarS (g : BitVec 5) : Statement (.gangbarS g) := by
  intro _ _ h
  cases h
theorem stagebarS (g : BitVec 5) : Statement (.stagebarS g) := by
  intro _ _ h
  cases h
theorem braS (f : ShortBranch) : Statement (.braS f) := by
  intro _ _ h
  cases h
theorem callS (f : ShortBranch) : Statement (.callS f) := by
  intro _ _ h
  cases h
theorem meetS (f : ShortBranch) : Statement (.meetS f) := by
  intro _ _ h
  cases h
theorem movS (f : ShortForm) : Statement (.movS f) := by
  intro _ _ h
  cases h
theorem notS (f : ShortForm) : Statement (.notS f) := by
  intro _ _ h
  cases h
theorem inegS (f : ShortForm) : Statement (.inegS f) := by
  intro _ _ h
  cases h
theorem iabsS (f : ShortForm) : Statement (.iabsS f) := by
  intro _ _ h
  cases h
theorem popcS (f : ShortForm) : Statement (.popcS f) := by
  intro _ _ h
  cases h
theorem clzS (f : ShortForm) : Statement (.clzS f) := by
  intro _ _ h
  cases h
theorem brevS (f : ShortForm) : Statement (.brevS f) := by
  intro _ _ h
  cases h
theorem srdS (f : ShortForm) : Statement (.srdS f) := by
  intro _ _ h
  cases h
theorem swrS (f : ShortForm) : Statement (.swrS f) := by
  intro _ _ h
  cases h
theorem kmovS (f : ShortForm) : Statement (.kmovS f) := by
  intro _ _ h
  cases h
theorem knotS (f : ShortForm) : Statement (.knotS f) := by
  intro _ _ h
  cases h
theorem kpopS (f : ShortForm) : Statement (.kpopS f) := by
  intro _ _ h
  cases h
theorem rcpS (f : ShortForm) : Statement (.rcpS f) := by
  intro _ _ h
  cases h
theorem rsqS (f : ShortForm) : Statement (.rsqS f) := by
  intro _ _ h
  cases h
theorem sqrtS (f : ShortForm) : Statement (.sqrtS f) := by
  intro _ _ h
  cases h
theorem mwaitS (g : BitVec 5) (d : BitVec 8) : Statement (.mwaitS g d) := by
  intro _ _ h
  cases h
theorem hintS (g : BitVec 5) (h : BitVec 4) (x : BitVec 17) : Statement (.hintS g h x) := by
  intro _ _ h
  cases h
theorem mov (f : LongForm) : Statement (.mov f) := by
  intro _ _ h _
  cases h
  exact ⟨by decide, fun _ => rfl, rfl⟩
theorem movl (f : LongForm) : Statement (.movl f) := by
  intro _ _ h _
  cases h
  exact ⟨by decide, fun _ => rfl, rfl⟩
theorem lea (f : LongForm) : Statement (.lea f) := by
  intro _ _ h _
  cases h
  exact ⟨by decide, fun _ => rfl, rfl⟩
theorem iadd (f : LongForm) : Statement (.iadd f) := by
  intro _ _ h _
  cases h
  exact ⟨by decide, fun _ => rfl, rfl⟩
theorem isub (f : LongForm) : Statement (.isub f) := by
  intro _ _ h _
  cases h
  exact ⟨by decide, fun _ => rfl, rfl⟩
theorem imul (f : LongForm) : Statement (.imul f) := by
  intro _ _ h _
  cases h
  exact ⟨by decide, fun _ => rfl, rfl⟩
theorem imulh (f : LongForm) : Statement (.imulh f) := by
  intro _ _ h _
  cases h
  exact ⟨by decide, fun _ => rfl, rfl⟩
theorem imad (f : LongForm) : Statement (.imad f) := by
  intro _ _ h _
  cases h
  exact ⟨by decide, fun _ => rfl, rfl⟩
theorem idiv (f : LongForm) : Statement (.idiv f) := by
  intro _ _ h _
  cases h
  exact ⟨by decide, fun _ => rfl, rfl⟩
theorem irem (f : LongForm) : Statement (.irem f) := by
  intro _ _ h _
  cases h
  exact ⟨by decide, fun _ => rfl, rfl⟩
theorem imin (f : LongForm) : Statement (.imin f) := by
  intro _ _ h _
  cases h
  exact ⟨by decide, fun _ => rfl, rfl⟩
theorem imax (f : LongForm) : Statement (.imax f) := by
  intro _ _ h _
  cases h
  exact ⟨by decide, fun _ => rfl, rfl⟩
theorem iabs (f : LongForm) : Statement (.iabs f) := by
  intro _ _ h _
  cases h
  exact ⟨by decide, fun _ => rfl, rfl⟩
theorem ineg (f : LongForm) : Statement (.ineg f) := by
  intro _ _ h _
  cases h
  exact ⟨by decide, fun _ => rfl, rfl⟩
theorem and (f : LongForm) : Statement (.and f) := by
  intro _ _ h _
  cases h
  exact ⟨by decide, fun _ => rfl, rfl⟩
theorem or (f : LongForm) : Statement (.or f) := by
  intro _ _ h _
  cases h
  exact ⟨by decide, fun _ => rfl, rfl⟩
theorem xor (f : LongForm) : Statement (.xor f) := by
  intro _ _ h _
  cases h
  exact ⟨by decide, fun _ => rfl, rfl⟩
theorem andn (f : LongForm) : Statement (.andn f) := by
  intro _ _ h _
  cases h
  exact ⟨by decide, fun _ => rfl, rfl⟩
theorem not (f : LongForm) : Statement (.not f) := by
  intro _ _ h _
  cases h
  exact ⟨by decide, fun _ => rfl, rfl⟩
theorem shl (f : LongForm) : Statement (.shl f) := by
  intro _ _ h _
  cases h
  exact ⟨by decide, fun _ => rfl, rfl⟩
theorem shr (f : LongForm) : Statement (.shr f) := by
  intro _ _ h _
  cases h
  exact ⟨by decide, fun _ => rfl, rfl⟩
theorem sar (f : LongForm) : Statement (.sar f) := by
  intro _ _ h _
  cases h
  exact ⟨by decide, fun _ => rfl, rfl⟩
theorem rol (f : LongForm) : Statement (.rol f) := by
  intro _ _ h _
  cases h
  exact ⟨by decide, fun _ => rfl, rfl⟩
theorem bfx (f : LongForm) : Statement (.bfx f) := by
  intro _ _ h _
  cases h
  exact ⟨by decide, fun _ => rfl, rfl⟩
theorem bfi (f : LongForm) : Statement (.bfi f) := by
  intro _ _ h _
  cases h
  exact ⟨by decide, fun _ => rfl, rfl⟩
theorem popc (f : LongForm) : Statement (.popc f) := by
  intro _ _ h _
  cases h
  exact ⟨by decide, fun _ => rfl, rfl⟩
theorem clz (f : LongForm) : Statement (.clz f) := by
  intro _ _ h _
  cases h
  exact ⟨by decide, fun _ => rfl, rfl⟩
theorem brev (f : LongForm) : Statement (.brev f) := by
  intro _ _ h _
  cases h
  exact ⟨by decide, fun _ => rfl, rfl⟩
theorem sel (f : LongForm) : Statement (.sel f) := by
  intro _ _ h _
  cases h
  exact ⟨by decide, fun _ => rfl, rfl⟩
theorem icmp (f : LongForm) : Statement (.icmp f) := by
  intro _ _ h _
  cases h
  exact ⟨by decide, fun _ => rfl, rfl⟩
theorem kand (f : LongForm) : Statement (.kand f) := by
  intro _ _ h _
  cases h
  exact ⟨by decide, fun _ => rfl, rfl⟩
theorem kor (f : LongForm) : Statement (.kor f) := by
  intro _ _ h _
  cases h
  exact ⟨by decide, fun _ => rfl, rfl⟩
theorem kxor (f : LongForm) : Statement (.kxor f) := by
  intro _ _ h _
  cases h
  exact ⟨by decide, fun _ => rfl, rfl⟩
theorem knot (f : LongForm) : Statement (.knot f) := by
  intro _ _ h _
  cases h
  exact ⟨by decide, fun _ => rfl, rfl⟩
theorem kmov (f : LongForm) : Statement (.kmov f) := by
  intro _ _ h _
  cases h
  exact ⟨by decide, fun _ => rfl, rfl⟩
theorem kpop (f : LongForm) : Statement (.kpop f) := by
  intro _ _ h _
  cases h
  exact ⟨by decide, fun _ => rfl, rfl⟩
theorem bra (f : LongBranch) : Statement (.bra f) := by
  intro _ _ h
  cases h
theorem brx (f : LongForm) : Statement (.brx f) := by
  intro _ _ h _
  cases h
  exact ⟨by decide, fun _ => rfl, rfl⟩
theorem call (f : LongBranch) : Statement (.call f) := by
  intro _ _ h
  cases h
theorem ret (f : LongForm) : Statement (.ret f) := by
  intro _ _ h _
  cases h
  exact ⟨by decide, fun _ => rfl, rfl⟩
theorem meet (f : LongBranch) : Statement (.meet f) := by
  intro _ _ h
  cases h
theorem yield (f : LongForm) : Statement (.yield f) := by
  intro _ _ h _
  cases h
  exact ⟨by decide, fun _ => rfl, rfl⟩
theorem exit (f : LongForm) : Statement (.exit f) := by
  intro _ _ h _
  cases h
  exact ⟨by decide, fun _ => rfl, rfl⟩
theorem nop (f : LongForm) : Statement (.nop f) := by
  intro _ _ h _
  cases h
  exact ⟨by decide, fun _ => rfl, rfl⟩
theorem srd (f : LongForm) : Statement (.srd f) := by
  intro _ _ h _
  cases h
  exact ⟨by decide, fun _ => rfl, rfl⟩
theorem swr (f : LongForm) : Statement (.swr f) := by
  intro _ _ h _
  cases h
  exact ⟨by decide, fun _ => rfl, rfl⟩
theorem reggrow (f : LongForm) : Statement (.reggrow f) := by
  intro _ _ h _
  cases h
  exact ⟨by decide, fun _ => rfl, rfl⟩
theorem regshrink (f : LongForm) : Statement (.regshrink f) := by
  intro _ _ h _
  cases h
  exact ⟨by decide, fun _ => rfl, rfl⟩
theorem shape (f : LongForm) : Statement (.shape f) := by
  intro _ _ h _
  cases h
  exact ⟨by decide, fun _ => rfl, rfl⟩
theorem idx (f : LongForm) : Statement (.idx f) := by
  intro _ _ h _
  cases h
  exact ⟨by decide, fun _ => rfl, rfl⟩
theorem unif (f : LongForm) : Statement (.unif f) := by
  intro _ _ h _
  cases h
  exact ⟨by decide, fun _ => rfl, rfl⟩
theorem fadd (f : LongForm) : Statement (.fadd f) := by
  intro _ _ h _
  cases h
  exact ⟨by decide, fun _ => rfl, rfl⟩
theorem fsub (f : LongForm) : Statement (.fsub f) := by
  intro _ _ h _
  cases h
  exact ⟨by decide, fun _ => rfl, rfl⟩
theorem fmul (f : LongForm) : Statement (.fmul f) := by
  intro _ _ h _
  cases h
  exact ⟨by decide, fun _ => rfl, rfl⟩
theorem ffma (f : LongForm) : Statement (.ffma f) := by
  intro _ _ h _
  cases h
  exact ⟨by decide, fun _ => rfl, rfl⟩
theorem fmin (f : LongForm) : Statement (.fmin f) := by
  intro _ _ h _
  cases h
  exact ⟨by decide, fun _ => rfl, rfl⟩
theorem fmax (f : LongForm) : Statement (.fmax f) := by
  intro _ _ h _
  cases h
  exact ⟨by decide, fun _ => rfl, rfl⟩
theorem fcmp (f : LongForm) : Statement (.fcmp f) := by
  intro _ _ h _
  cases h
  exact ⟨by decide, fun _ => rfl, rfl⟩
theorem fclass (f : LongForm) : Statement (.fclass f) := by
  intro _ _ h _
  cases h
  exact ⟨by decide, fun _ => rfl, rfl⟩
theorem frnd (f : LongForm) : Statement (.frnd f) := by
  intro _ _ h _
  cases h
  exact ⟨by decide, fun _ => rfl, rfl⟩
theorem hadd2 (f : LongForm) : Statement (.hadd2 f) := by
  intro _ _ h _
  cases h
  exact ⟨by decide, fun _ => rfl, rfl⟩
theorem hmul2 (f : LongForm) : Statement (.hmul2 f) := by
  intro _ _ h _
  cases h
  exact ⟨by decide, fun _ => rfl, rfl⟩
theorem hfma2 (f : LongForm) : Statement (.hfma2 f) := by
  intro _ _ h _
  cases h
  exact ⟨by decide, fun _ => rfl, rfl⟩
theorem dot4 (f : LongForm) : Statement (.dot4 f) := by
  intro _ _ h _
  cases h
  exact ⟨by decide, fun _ => rfl, rfl⟩
theorem dot2 (f : LongForm) : Statement (.dot2 f) := by
  intro _ _ h _
  cases h
  exact ⟨by decide, fun _ => rfl, rfl⟩
theorem cvt (r : RMode) (f : LongForm) : Statement (.cvt r f) := by
  intro _ _ h _
  cases r <;> cases h <;> exact ⟨by decide, fun _ => rfl, rfl⟩
theorem cvts (r : RMode) (f : LongForm) : Statement (.cvts r f) := by
  intro _ _ h _
  cases r <;> cases h <;> exact ⟨by decide, fun _ => rfl, rfl⟩
theorem pack4 (f : LongForm) : Statement (.pack4 f) := by
  intro _ _ h _
  cases h
  exact ⟨by decide, fun _ => rfl, rfl⟩
theorem unpack4 (f : LongForm) : Statement (.unpack4 f) := by
  intro _ _ h _
  cases h
  exact ⟨by decide, fun _ => rfl, rfl⟩
theorem rcp (f : LongForm) : Statement (.rcp f) := by
  intro _ _ h _
  cases h
  exact ⟨by decide, fun _ => rfl, rfl⟩
theorem rsq (f : LongForm) : Statement (.rsq f) := by
  intro _ _ h _
  cases h
  exact ⟨by decide, fun _ => rfl, rfl⟩
theorem sqrt (f : LongForm) : Statement (.sqrt f) := by
  intro _ _ h _
  cases h
  exact ⟨by decide, fun _ => rfl, rfl⟩
theorem ex2 (f : LongForm) : Statement (.ex2 f) := by
  intro _ _ h _
  cases h
  exact ⟨by decide, fun _ => rfl, rfl⟩
theorem lg2 (f : LongForm) : Statement (.lg2 f) := by
  intro _ _ h _
  cases h
  exact ⟨by decide, fun _ => rfl, rfl⟩
theorem sin (f : LongForm) : Statement (.sin f) := by
  intro _ _ h _
  cases h
  exact ⟨by decide, fun _ => rfl, rfl⟩
theorem cos (f : LongForm) : Statement (.cos f) := by
  intro _ _ h _
  cases h
  exact ⟨by decide, fun _ => rfl, rfl⟩
theorem tanh (f : LongForm) : Statement (.tanh f) := by
  intro _ _ h _
  cases h
  exact ⟨by decide, fun _ => rfl, rfl⟩
theorem shfl (f : LongForm) : Statement (.shfl f) := by
  intro _ _ h _
  cases h
  exact ⟨by decide, fun _ => rfl, rfl⟩
theorem vote (f : LongForm) : Statement (.vote f) := by
  intro _ _ h _
  cases h
  exact ⟨by decide, fun _ => rfl, rfl⟩
theorem ballot (f : LongForm) : Statement (.ballot f) := by
  intro _ _ h _
  cases h
  exact ⟨by decide, fun _ => rfl, rfl⟩
theorem matchL (f : LongForm) : Statement (.matchL f) := by
  intro _ _ h _
  cases h
  exact ⟨by decide, fun _ => rfl, rfl⟩
theorem lscan (f : LongForm) : Statement (.lscan f) := by
  intro _ _ h _
  cases h
  exact ⟨by decide, fun _ => rfl, rfl⟩
theorem lred (f : LongForm) : Statement (.lred f) := by
  intro _ _ h _
  cases h
  exact ⟨by decide, fun _ => rfl, rfl⟩
theorem lfirst (f : LongForm) : Statement (.lfirst f) := by
  intro _ _ h _
  cases h
  exact ⟨by decide, fun _ => rfl, rfl⟩
theorem trap (f : LongForm) : Statement (.trap f) := by
  intro _ _ h _
  cases h
  exact ⟨by decide, fun _ => rfl, rfl⟩
theorem tret (f : LongForm) : Statement (.tret f) := by
  intro _ _ h _
  cases h
  exact ⟨by decide, fun _ => rfl, rfl⟩
theorem ctxsave (f : LongForm) : Statement (.ctxsave f) := by
  intro _ _ h hw
  cases h
  simp [Instr.wf, LongForm.tyOp] at hw
  exact ⟨by decide, fun _ => rfl, by simp [longRow, hw]⟩
theorem ctxsaveKeep (f : LongForm) : Statement (.ctxsaveKeep f) := by
  intro _ _ h hw
  cases h
  simp [Instr.wf, LongForm.tyOp] at hw
  exact ⟨by decide, fun _ => rfl, by simp [longRow, hw]⟩
theorem ctxload (f : LongForm) : Statement (.ctxload f) := by
  intro _ _ h _
  cases h
  exact ⟨by decide, fun _ => rfl, rfl⟩
theorem pdone (f : LongForm) : Statement (.pdone f) := by
  intro _ _ h _
  cases h
  exact ⟨by decide, fun _ => rfl, rfl⟩
theorem depwait (f : LongForm) : Statement (.depwait f) := by
  intro _ _ h _
  cases h
  exact ⟨by decide, fun _ => rfl, rfl⟩
theorem frecGet (f : LongForm) : Statement (.frecGet f) := by
  intro _ _ h hw
  cases h
  simp [Instr.wf, LongForm.tyOp] at hw
  exact ⟨by decide, fun _ => rfl, by simp [longRow, hw]⟩
theorem frecFwd (f : LongForm) : Statement (.frecFwd f) := by
  intro _ _ h hw
  cases h
  simp [Instr.wf, LongForm.tyOp] at hw
  exact ⟨by decide, fun _ => rfl, by simp [longRow, hw]⟩
theorem ld (f : LongForm) : Statement (.ld f) := by
  intro _ _ h _
  cases h
  exact ⟨by decide, fun _ => rfl, rfl⟩
theorem st (f : LongForm) : Statement (.st f) := by
  intro _ _ h _
  cases h
  exact ⟨by decide, fun _ => rfl, rfl⟩
theorem ldg (f : LongForm) : Statement (.ldg f) := by
  intro _ _ h _
  cases h
  exact ⟨by decide, fun _ => rfl, rfl⟩
theorem stg (f : LongForm) : Statement (.stg f) := by
  intro _ _ h _
  cases h
  exact ⟨by decide, fun _ => rfl, rfl⟩
theorem lde (f : LongForm) : Statement (.lde f) := by
  intro _ _ h _
  cases h
  exact ⟨by decide, fun _ => rfl, rfl⟩
theorem ste (f : LongForm) : Statement (.ste f) := by
  intro _ _ h _
  cases h
  exact ⟨by decide, fun _ => rfl, rfl⟩
theorem atom (op : AtomOp) (f : LongForm) : Statement (.atom op f) := by
  intro _ _ h _
  cases op <;> cases h <;> exact ⟨by decide, fun _ => rfl, rfl⟩
theorem red (op : RedOp) (f : LongForm) : Statement (.red op f) := by
  intro _ _ h _
  cases op <;> cases h <;> exact ⟨by decide, fun _ => rfl, rfl⟩
theorem waitc (f : LongForm) : Statement (.waitc f) := by
  intro _ _ h _
  cases h
  exact ⟨by decide, fun _ => rfl, rfl⟩
theorem fld (f : LongForm) : Statement (.fld f) := by
  intro _ _ h _
  cases h
  exact ⟨by decide, fun _ => rfl, rfl⟩
theorem fset (f : LongForm) : Statement (.fset f) := by
  intro _ _ h _
  cases h
  exact ⟨by decide, fun _ => rfl, rfl⟩
theorem mbsend (f : LongForm) : Statement (.mbsend f) := by
  intro _ _ h _
  cases h
  exact ⟨by decide, fun _ => rfl, rfl⟩
theorem mbrecv (f : LongForm) : Statement (.mbrecv f) := by
  intro _ _ h _
  cases h
  exact ⟨by decide, fun _ => rfl, rfl⟩
theorem mbpeek (f : LongForm) : Statement (.mbpeek f) := by
  intro _ _ h _
  cases h
  exact ⟨by decide, fun _ => rfl, rfl⟩
theorem fence (f : LongForm) : Statement (.fence f) := by
  intro _ _ h _
  cases h
  exact ⟨by decide, fun _ => rfl, rfl⟩
theorem xfence (f : LongForm) : Statement (.xfence f) := by
  intro _ _ h _
  cases h
  exact ⟨by decide, fun _ => rfl, rfl⟩
theorem cflush (f : LongForm) : Statement (.cflush f) := by
  intro _ _ h _
  cases h
  exact ⟨by decide, fun _ => rfl, rfl⟩
theorem cinv (f : LongForm) : Statement (.cinv f) := by
  intro _ _ h hw
  cases h
  simp [Instr.wf, LongForm.mem] at hw
  exact ⟨by decide, fun _ => rfl, by simp [longRow, hw]⟩
theorem cinvCode (f : LongForm) : Statement (.cinvCode f) := by
  intro _ _ h hw
  cases h
  simp [Instr.wf, LongForm.mem] at hw
  exact ⟨by decide, fun _ => rfl, by simp [longRow, hw]⟩
theorem pref (f : LongForm) : Statement (.pref f) := by
  intro _ _ h _
  cases h
  exact ⟨by decide, fun _ => rfl, rfl⟩
theorem evpost (f : LongForm) : Statement (.evpost f) := by
  intro _ _ h hw
  cases h
  simp [Instr.wf, LongForm.mem] at hw
  exact ⟨by decide, fun _ => rfl, by simp [longRow, hw]⟩
theorem evpostBuf (f : LongForm) : Statement (.evpostBuf f) := by
  intro _ _ h hw
  cases h
  simp [Instr.wf, LongForm.mem] at hw
  exact ⟨by decide, fun _ => rfl, by simp [longRow, hw]⟩
theorem evbar (f : LongForm) : Statement (.evbar f) := by
  intro _ _ h _
  cases h
  exact ⟨by decide, fun _ => rfl, rfl⟩
theorem amload (f : LongForm) : Statement (.amload f) := by
  intro _ _ h _
  cases h
  exact ⟨by decide, fun _ => rfl, rfl⟩
theorem amarm (f : LongForm) : Statement (.amarm f) := by
  intro _ _ h _
  cases h
  exact ⟨by decide, fun _ => rfl, rfl⟩
theorem amdisarm (f : LongForm) : Statement (.amdisarm f) := by
  intro _ _ h hw
  cases h
  simp [Instr.wf, LongForm.mem] at hw
  exact ⟨by decide, fun _ => rfl, by simp [longRow, hw]⟩
theorem amdisarmFree (f : LongForm) : Statement (.amdisarmFree f) := by
  intro _ _ h hw
  cases h
  simp [Instr.wf, LongForm.mem] at hw
  exact ⟨by decide, fun _ => rfl, by simp [longRow, hw]⟩
theorem amsave (f : LongForm) : Statement (.amsave f) := by
  intro _ _ h hw
  cases h
  simp [Instr.wf, LongForm.mem] at hw
  exact ⟨by decide, fun _ => rfl, by simp [longRow, hw]⟩
theorem amsaveStop (f : LongForm) : Statement (.amsaveStop f) := by
  intro _ _ h hw
  cases h
  simp [Instr.wf, LongForm.mem] at hw
  exact ⟨by decide, fun _ => rfl, by simp [longRow, hw]⟩
theorem amrestore (f : LongForm) : Statement (.amrestore f) := by
  intro _ _ h _
  cases h
  exact ⟨by decide, fun _ => rfl, rfl⟩
theorem bequeath (f : LongForm) : Statement (.bequeath f) := by
  intro _ _ h _
  cases h
  exact ⟨by decide, fun _ => rfl, rfl⟩
theorem grpbar (f : LongForm) : Statement (.grpbar f) := by
  intro _ _ h _
  cases h
  exact ⟨by decide, fun _ => rfl, rfl⟩
theorem gangbar (f : LongForm) : Statement (.gangbar f) := by
  intro _ _ h _
  cases h
  exact ⟨by decide, fun _ => rfl, rfl⟩
theorem stagebar (f : LongForm) : Statement (.stagebar f) := by
  intro _ _ h _
  cases h
  exact ⟨by decide, fun _ => rfl, rfl⟩
theorem ownClaim (f : LongForm) : Statement (.ownClaim f) := by
  intro _ _ h hw
  cases h
  simp [Instr.wf, LongForm.mem] at hw
  exact ⟨by decide, fun _ => rfl, by simp [longRow, hw]⟩
theorem ownSelf (f : LongForm) : Statement (.ownSelf f) := by
  intro _ _ h hw
  cases h
  simp [Instr.wf, LongForm.mem] at hw
  exact ⟨by decide, fun _ => rfl, by simp [longRow, hw]⟩
theorem ownWord (f : LongForm) : Statement (.ownWord f) := by
  intro _ _ h hw
  cases h
  simp [Instr.wf, LongForm.mem] at hw
  exact ⟨by decide, fun _ => rfl, by simp [longRow, hw]⟩
theorem ownMbox (f : LongForm) : Statement (.ownMbox f) := by
  intro _ _ h hw
  cases h
  simp [Instr.wf, LongForm.mem] at hw
  exact ⟨by decide, fun _ => rfl, by simp [longRow, hw]⟩
theorem disownClaim (f : LongForm) : Statement (.disownClaim f) := by
  intro _ _ h hw
  cases h
  simp [Instr.wf, LongForm.mem] at hw
  exact ⟨by decide, fun _ => rfl, by simp [longRow, hw]⟩
theorem disownSelf (f : LongForm) : Statement (.disownSelf f) := by
  intro _ _ h hw
  cases h
  simp [Instr.wf, LongForm.mem] at hw
  exact ⟨by decide, fun _ => rfl, by simp [longRow, hw]⟩
theorem disownWord (f : LongForm) : Statement (.disownWord f) := by
  intro _ _ h hw
  cases h
  simp [Instr.wf, LongForm.mem] at hw
  exact ⟨by decide, fun _ => rfl, by simp [longRow, hw]⟩
theorem disownMbox (f : LongForm) : Statement (.disownMbox f) := by
  intro _ _ h hw
  cases h
  simp [Instr.wf, LongForm.mem] at hw
  exact ⟨by decide, fun _ => rfl, by simp [longRow, hw]⟩
theorem helpq (f : LongForm) : Statement (.helpq f) := by
  intro _ _ h _
  cases h
  exact ⟨by decide, fun _ => rfl, rfl⟩
theorem mtask (f : LongForm) : Statement (.mtask f) := by
  intro _ _ h _
  cases h
  exact ⟨by decide, fun _ => rfl, rfl⟩
theorem mwait (f : LongForm) : Statement (.mwait f) := by
  intro _ _ h _
  cases h
  exact ⟨by decide, fun _ => rfl, rfl⟩
theorem mpoll (f : LongForm) : Statement (.mpoll f) := by
  intro _ _ h _
  cases h
  exact ⟨by decide, fun _ => rfl, rfl⟩
theorem binld (f : LongForm) : Statement (.binld f) := by
  intro _ _ h _
  cases h
  exact ⟨by decide, fun _ => rfl, rfl⟩
theorem binst (f : LongForm) : Statement (.binst f) := by
  intro _ _ h _
  cases h
  exact ⟨by decide, fun _ => rfl, rfl⟩
theorem binz (f : LongForm) : Statement (.binz f) := by
  intro _ _ h _
  cases h
  exact ⟨by decide, fun _ => rfl, rfl⟩
theorem bldp (f : LongForm) : Statement (.bldp f) := by
  intro _ _ h _
  cases h
  exact ⟨by decide, fun _ => rfl, rfl⟩
theorem cpy (f : LongForm) : Statement (.cpy f) := by
  intro _ _ h _
  cases h
  exact ⟨by decide, fun _ => rfl, rfl⟩
theorem cpy2 (f : LongForm) : Statement (.cpy2 f) := by
  intro _ _ h _
  cases h
  exact ⟨by decide, fun _ => rfl, rfl⟩
theorem cpyt (f : LongForm) : Statement (.cpyt f) := by
  intro _ _ h _
  cases h
  exact ⟨by decide, fun _ => rfl, rfl⟩
theorem cpyr (f : LongForm) : Statement (.cpyr f) := by
  intro _ _ h _
  cases h
  exact ⟨by decide, fun _ => rfl, rfl⟩
theorem cpyq (f : LongForm) : Statement (.cpyq f) := by
  intro _ _ h _
  cases h
  exact ⟨by decide, fun _ => rfl, rfl⟩
theorem strel (f : LongForm) : Statement (.strel f) := by
  intro _ _ h _
  cases h
  exact ⟨by decide, fun _ => rfl, rfl⟩
theorem netq (f : LongForm) : Statement (.netq f) := by
  intro _ _ h _
  cases h
  exact ⟨by decide, fun _ => rfl, rfl⟩
theorem hintL (g : BitVec 5) (h : BitVec 6) (x : BitVec 47) (lit : Option W32) : Statement (.hintL g h x lit) := by
  intro _ _ h
  cases h
theorem bend : Statement .bend := by
  intro _ _ h
  cases h
theorem bnop : Statement .bnop := by
  intro _ _ h
  cases h
theorem bld (d : BitVec 3) (int : Bool) : Statement (.bld d int) := by
  intro _ _ h
  cases h
theorem bst (a : BitVec 3) : Statement (.bst a) := by
  intro _ _ h
  cases h
theorem bconst (d : BitVec 3) (x : BitVec 3) : Statement (.bconst d x) := by
  intro _ _ h
  cases h
theorem bcolv (d : BitVec 3) (x : BitVec 3) (bf16 : Bool) : Statement (.bcolv d x bf16) := by
  intro _ _ h
  cases h
theorem browv (d : BitVec 3) (x : BitVec 3) (bf16 : Bool) : Statement (.browv d x bf16) := by
  intro _ _ h
  cases h
theorem badd (d : BitVec 3) (a : BitVec 3) (b : BitVec 3) : Statement (.badd d a b) := by
  intro _ _ h
  cases h
theorem bsub (d : BitVec 3) (a : BitVec 3) (b : BitVec 3) : Statement (.bsub d a b) := by
  intro _ _ h
  cases h
theorem bmul (d : BitVec 3) (a : BitVec 3) (b : BitVec 3) : Statement (.bmul d a b) := by
  intro _ _ h
  cases h
theorem bfma (d : BitVec 3) (a : BitVec 3) (b : BitVec 3) (x : BitVec 3) : Statement (.bfma d a b x) := by
  intro _ _ h
  cases h
theorem bmin (d : BitVec 3) (a : BitVec 3) (b : BitVec 3) : Statement (.bmin d a b) := by
  intro _ _ h
  cases h
theorem bmax (d : BitVec 3) (a : BitVec 3) (b : BitVec 3) : Statement (.bmax d a b) := by
  intro _ _ h
  cases h
theorem bclamp (d : BitVec 3) (a : BitVec 3) (b : BitVec 3) (x : BitVec 3) : Statement (.bclamp d a b x) := by
  intro _ _ h
  cases h
theorem brelu (d : BitVec 3) (a : BitVec 3) : Statement (.brelu d a) := by
  intro _ _ h
  cases h
theorem bgelu (d : BitVec 3) (a : BitVec 3) : Statement (.bgelu d a) := by
  intro _ _ h
  cases h
theorem bsilu (d : BitVec 3) (a : BitVec 3) : Statement (.bsilu d a) := by
  intro _ _ h
  cases h
theorem btanh (d : BitVec 3) (a : BitVec 3) : Statement (.btanh d a) := by
  intro _ _ h
  cases h
theorem bamax (d : BitVec 3) (a : BitVec 3) : Statement (.bamax d a) := by
  intro _ _ h
  cases h
theorem bscale (d : BitVec 3) (a : BitVec 3) (fmt : BitVec 4) : Statement (.bscale d a fmt) := by
  intro _ _ h
  cases h
theorem bsto (a : BitVec 3) (b : BitVec 3) (i : BitVec 7) : Statement (.bsto a b i) := by
  intro _ _ h
  cases h
theorem bstsc (a : BitVec 3) (x : BitVec 3) (wide : Bool) : Statement (.bstsc a x wide) := by
  intro _ _ h
  cases h
theorem bamaxg (a : BitVec 3) (x : BitVec 3) : Statement (.bamaxg a x) := by
  intro _ _ h
  cases h
theorem stailWrite (n : Nat) (v : W32) : Statement (.stailWrite n v) := by
  intro _ _ h
  cases h
theorem streamEnable (n : Nat) (v : W32) : Statement (.streamEnable n v) := by
  intro _ _ h
  cases h
theorem streamReset (n : Nat) : Statement (.streamReset n) := by
  intro _ _ h
  cases h
theorem swapOut (tag : Nat) (grp : Nat) : Statement (.swapOut tag grp) := by
  intro _ _ h
  cases h
theorem groupResume (tag : Nat) (grp : Nat) (core : Nat) : Statement (.groupResume tag grp core) := by
  intro _ _ h
  cases h
theorem preemptSignal (tag : Nat) : Statement (.preemptSignal tag) := by
  intro _ _ h
  cases h
theorem loadReply (id : Nat) : Statement (.loadReply id) := by
  intro _ _ h
  cases h
theorem deferredError (id : Nat) : Statement (.deferredError id) := by
  intro _ _ h
  cases h
theorem depositArrival (id : Nat) : Statement (.depositArrival id) := by
  intro _ _ h
  cases h
theorem monitorReply (tag : Nat) (grp : Nat) (tid : Nat) : Statement (.monitorReply tag grp tid) := by
  intro _ _ h
  cases h
theorem futureAnswer (tag : Nat) (grp : Nat) (tid : Nat) : Statement (.futureAnswer tag grp tid) := by
  intro _ _ h
  cases h
theorem millHold (ham : Nat) (mill : Nat) : Statement (.millHold ham mill) := by
  intro _ _ h
  cases h
theorem millRelease (ham : Nat) (mill : Nat) : Statement (.millRelease ham mill) := by
  intro _ _ h
  cases h
theorem copyUnit (ham : Nat) (copy : Nat) (unit : Nat) : Statement (.copyUnit ham copy unit) := by
  intro _ _ h
  cases h
theorem copyCompletion (ham : Nat) (copy : Nat) : Statement (.copyCompletion ham copy) := by
  intro _ _ h
  cases h
theorem strelApply (id : Nat) : Statement (.strelApply id) := by
  intro _ _ h
  cases h
theorem fabAccess (peer : Option Nat) (off : Nat) (op : FabOp) : Statement (.fabAccess peer off op) := by
  intro _ _ h
  cases h
theorem hostMarkedRead (addr : Nat) : Statement (.hostMarkedRead addr) := by
  intro _ _ h
  cases h
theorem hostOwnershipRequest (line : Nat) : Statement (.hostOwnershipRequest line) := by
  intro _ _ h
  cases h
theorem evictionError (granule : Nat) : Statement (.evictionError granule) := by
  intro _ _ h
  cases h
theorem nodeThrottle (core : Nat) (count : Nat) : Statement (.nodeThrottle core count) := by
  intro _ _ h
  cases h
theorem windowEnable (w : Nat) (v : W32) : Statement (.windowEnable w v) := by
  intro _ _ h
  cases h
theorem windowDisable (w : Nat) (v : W32) : Statement (.windowDisable w v) := by
  intro _ _ h
  cases h
theorem xliInvalidate (v : W32) : Statement (.xliInvalidate v) := by
  intro _ _ h
  cases h
theorem rqRetry (die : Nat) (slot : Nat) : Statement (.rqRetry die slot) := by
  intro _ _ h
  cases h
theorem rqFail (die : Nat) (slot : Nat) : Statement (.rqFail die slot) := by
  intro _ _ h
  cases h
theorem rqDrop (die : Nat) (slot : Nat) : Statement (.rqDrop die slot) := by
  intro _ _ h
  cases h
theorem rqconsWrite (die : Nat) (v : W32) : Statement (.rqconsWrite die v) := by
  intro _ _ h
  cases h
theorem rqbaseWrite (die : Nat) (v : W64) : Statement (.rqbaseWrite die v) := by
  intro _ _ h
  cases h
theorem reeveRestart (die : Nat) : Statement (.reeveRestart die) := by
  intro _ _ h
  cases h
theorem heartbeat (die : Nat) (column : Bool) : Statement (.heartbeat die column) := by
  intro _ _ h
  cases h
theorem hangDeclare (die : Nat) : Statement (.hangDeclare die) := by
  intro _ _ h
  cases h
theorem columnHangDeclare (die : Nat) : Statement (.columnHangDeclare die) := by
  intro _ _ h
  cases h
theorem marginSample (die : Nat) (pdm : BitVec 16) : Statement (.marginSample die pdm) := by
  intro _ _ h
  cases h
theorem codeTableRefresh (die : Nat) (temp : Bytes) (droop : Bytes) (inj : Bytes) : Statement (.codeTableRefresh die temp droop inj) := by
  intro _ _ h
  cases h
theorem patrolScrub (granule : Nat) (found : ScrubFound) : Statement (.patrolScrub granule found) := by
  intro _ _ h
  cases h
theorem controllerBoot (ctl : Nat) (img : FwImage) : Statement (.controllerBoot ctl img) := by
  intro _ _ h
  cases h
theorem functionReady (f : DevFn) : Statement (.functionReady f) := by
  intro _ _ h
  cases h
theorem bringupFail (f : DevFn) : Statement (.bringupFail f) := by
  intro _ _ h
  cases h
theorem lstateWrite (die : Nat) (v : W32) : Statement (.lstateWrite die v) := by
  intro _ _ h
  cases h
theorem fstripeWrite (v : W32) : Statement (.fstripeWrite v) := by
  intro _ _ h
  cases h
theorem registerWrite (bar : Nat) (off : Nat) (v : W32) : Statement (.registerWrite bar off v) := by
  intro _ _ h
  cases h
theorem hostMemoryWrite (addr : Nat) (bytes : Bytes) : Statement (.hostMemoryWrite addr bytes) := by
  intro _ _ h
  cases h
theorem storeAcknowledgement (tag : Nat) (grp : Nat) (tid : Nat) : Statement (.storeAcknowledgement tag grp tid) := by
  intro _ _ h
  cases h
theorem nackResend (tag : Nat) (grp : Nat) (tid : Nat) : Statement (.nackResend tag grp tid) := by
  intro _ _ h
  cases h
theorem preemptDeadline (tag : Nat) : Statement (.preemptDeadline tag) := by
  intro _ _ h
  cases h
theorem helperResume (tag : Nat) (grp : Nat) : Statement (.helperResume tag grp) := by
  intro _ _ h
  cases h
theorem adoption (tag : Nat) (grp : Nat) : Statement (.adoption tag grp) := by
  intro _ _ h
  cases h
theorem progressTimeout (tag : Nat) : Statement (.progressTimeout tag) := by
  intro _ _ h
  cases h
theorem fairnessMove (tag : Nat) (grp : Nat) (warp : Nat) : Statement (.fairnessMove tag grp warp) := by
  intro _ _ h
  cases h
theorem barrierComplete (tag : Nat) (kind : BarKind) (idx : Nat) : Statement (.barrierComplete tag kind idx) := by
  intro _ _ h
  cases h
theorem meetingRelease (tag : Nat) (grp : Nat) (addr : W64) : Statement (.meetingRelease tag grp addr) := by
  intro _ _ h
  cases h
theorem reggrowFail (core : Nat) : Statement (.reggrowFail core) := by
  intro _ _ h
  cases h
theorem reggrowGrant (tag : Nat) (grp : Nat) : Statement (.reggrowGrant tag grp) := by
  intro _ _ h
  cases h
theorem ctxloadDone (tag : Nat) (grp : Nat) (slot : Nat) : Statement (.ctxloadDone tag grp slot) := by
  intro _ _ h
  cases h
theorem taskCompletion (ham : Nat) (task : Nat) : Statement (.taskCompletion ham task) := by
  intro _ _ h
  cases h
theorem epilogueStep (ham : Nat) (mill : Nat) : Statement (.epilogueStep ham mill) := by
  intro _ _ h
  cases h
theorem loadAddStep (ham : Nat) (mill : Nat) : Statement (.loadAddStep ham mill) := by
  intro _ _ h
  cases h
theorem kStep (ham : Nat) (mill : Nat) : Statement (.kStep ham mill) := by
  intro _ _ h
  cases h
theorem zeroStep (ham : Nat) (mill : Nat) : Statement (.zeroStep ham mill) := by
  intro _ _ h
  cases h
theorem taskIssue (ham : Nat) : Statement (.taskIssue ham) := by
  intro _ _ h
  cases h
theorem copyEnqueue (tag : Nat) (grp : Nat) (warp : Nat) : Statement (.copyEnqueue tag grp warp) := by
  intro _ _ h
  cases h
theorem bldpReplace (tag : Nat) (grp : Nat) (warp : Nat) : Statement (.bldpReplace tag grp warp) := by
  intro _ _ h
  cases h
theorem mtaskEnqueue (tag : Nat) (grp : Nat) (warp : Nat) : Statement (.mtaskEnqueue tag grp warp) := by
  intro _ _ h
  cases h
theorem windowDisableDone (w : Nat) : Statement (.windowDisableDone w) := by
  intro _ _ h
  cases h
theorem windowEnableDone (w : Nat) : Statement (.windowEnableDone w) := by
  intro _ _ h
  cases h
theorem gangComplete (tag : Nat) : Statement (.gangComplete tag) := by
  intro _ _ h
  cases h
theorem groupComplete (tag : Nat) (grp : Nat) : Statement (.groupComplete tag grp) := by
  intro _ _ h
  cases h
theorem lotteryDraw (die : Nat) : Statement (.lotteryDraw die) := by
  intro _ _ h
  cases h
theorem gangCommit (die : Nat) : Statement (.gangCommit die) := by
  intro _ _ h
  cases h
theorem launchEnqueue (n : Nat) : Statement (.launchEnqueue n) := by
  intro _ _ h
  cases h
theorem argBlockWrite (n : Nat) : Statement (.argBlockWrite n) := by
  intro _ _ h
  cases h
theorem invariantExpiry (die : Nat) : Statement (.invariantExpiry die) := by
  intro _ _ h
  cases h
theorem deadlineEdge (die : Nat) : Statement (.deadlineEdge die) := by
  intro _ _ h
  cases h
theorem barrierRecordDone (n : Nat) : Statement (.barrierRecordDone n) := by
  intro _ _ h
  cases h
theorem barrierRecord (n : Nat) : Statement (.barrierRecord n) := by
  intro _ _ h
  cases h
theorem overflowHoldEnd (n : Nat) : Statement (.overflowHoldEnd n) := by
  intro _ _ h
  cases h
theorem eventOffer (n : Nat) : Statement (.eventOffer n) := by
  intro _ _ h
  cases h
theorem streamResetDrain (n : Nat) : Statement (.streamResetDrain n) := by
  intro _ _ h
  cases h
theorem xliDone : Statement .xliDone := by
  intro _ _ h
  cases h
theorem portLoad : Statement .portLoad := by
  intro _ _ h
  cases h
theorem portArm : Statement .portArm := by
  intro _ _ h
  cases h
theorem portDisarm : Statement .portDisarm := by
  intro _ _ h
  cases h
theorem portDisarmFree : Statement .portDisarmFree := by
  intro _ _ h
  cases h
theorem portSave : Statement .portSave := by
  intro _ _ h
  cases h
theorem portSaveStop : Statement .portSaveStop := by
  intro _ _ h
  cases h
theorem portRestore : Statement .portRestore := by
  intro _ _ h
  cases h
theorem portReservedOp : Statement .portReservedOp := by
  intro _ _ h
  cases h
theorem attestRequest : Statement .attestRequest := by
  intro _ _ h
  cases h
theorem deviceReset : Statement .deviceReset := by
  intro _ _ h
  cases h
theorem fabricPortTrained : Statement .fabricPortTrained := by
  intro _ _ h
  cases h

end Sys2Proof.Laws.Row
end

