-- ==== Sys2Proof/Tests/Slice0.lean ====
section
/-! SUPPORT. The model's own tests: ill-formed terms, words of the encoding tables, single steps with results from the
manual, and for every statement that has hypotheses a state and operands that meet them. -/

namespace Sys2Proof.Tests

open Sys2Proof Sys2Proof.Machine

set_option Elab.async false

/-! ## Words written out field by field from 04 Tables 4.4, 4.5, 4.9, 4.12, 4.13 -/

theorem test_decode_words1 :
  decode 0b011001_0_10100111_0000000000_10101_01
    0b00100000000_000000000_000000000_000 0 = .ok (.mov ⟨21, 167, false, 25, 0, 0, 256, none⟩) ∧
  decode 0b011110_0_10010110_0000000001_10001_10
    0b00100000000_000000000_101111111_000 0x36F675CC = .ok (.movl ⟨17, 150, false, 30, 383, 0, 256, (some 0x36F675CC)⟩) ∧
  decode 0b100100_0_01101100_0000000010_10000_01
    0b00000000010_000000000_001111100_000 0 = .ok (.lea ⟨16, 108, false, 36, 124, 0, 2, none⟩) ∧
  decode 0b100010_0_11010100_0000000011_00000_01
    0b00111000001_000000000_001000000_100 0 = .ok (.iadd ⟨0, 212, false, 290, 64, 0, 449, none⟩) ∧
  decode 0b001100_0_10010110_0000000100_11000_01
    0b00111000001_000000000_000011010_011 0 = .ok (.isub ⟨24, 150, false, 204, 26, 0, 449, none⟩) ∧
  decode 0b000101_0_11011100_0000000101_11000_01
    0b00111000001_000000000_010010101_001 0 = .ok (.imul ⟨24, 220, false, 69, 149, 0, 449, none⟩) ∧
  decode 0b100101_0_00011111_0000000110_11010_01
    0b01100000000_000000000_010011110_100 0 = .ok (.imulh ⟨26, 31, false, 293, 158, 0, 768, none⟩) ∧
  decode 0b100001_1_10010011_0000000111_11001_01
    0b01011000001_000110010_010111111_001 0 = .ok (.imad ⟨25, 147, true, 97, 191, 50, 705, none⟩) ∧
  decode 0b111111_0_00110101_0000001000_11000_01
    0b01000000000_000000000_100010001_011 0 = .ok (.idiv ⟨24, 53, false, 255, 273, 0, 512, none⟩) ∧
  decode 0b101001_0_10010110_0000001001_10110_01
    0b01000000000_000000000_010111010_011 0 = .ok (.irem ⟨22, 150, false, 233, 186, 0, 512, none⟩) ∧
  decode 0b111101_0_10110011_0000001010_00000_01
    0b01000000000_000000000_000101010_001 0 = .ok (.imin ⟨0, 179, false, 125, 42, 0, 512, none⟩) ∧
  decode 0b100110_0_10111011_0000001011_10100_01
    0b01000000000_000000000_010010100_011 0 = .ok (.imax ⟨20, 187, false, 230, 148, 0, 512, none⟩) := by decide +kernel

theorem test_decode_words2 :
  decode 0b010101_0_01101100_0000001100_11001_01
    0b00111000001_000000000_000000000_001 0 = .ok (.iabs ⟨25, 108, false, 85, 0, 0, 449, none⟩) ∧
  decode 0b010101_0_01101100_0000001101_10101_01
    0b00111000001_000000000_000000000_000 0 = .ok (.ineg ⟨21, 108, false, 21, 0, 0, 449, none⟩) ∧
  decode 0b110100_0_10110010_0000010000_10001_01
    0b00100000000_000000000_011111111_010 0 = .ok (.and ⟨17, 178, false, 180, 255, 0, 256, none⟩) ∧
  decode 0b001011_0_11110010_0000010001_00000_01
    0b00100000000_000000000_011110011_010 0 = .ok (.or ⟨0, 242, false, 139, 243, 0, 256, none⟩) ∧
  decode 0b011111_0_10110100_0000010010_11000_01
    0b00100000000_000000000_100101000_010 0 = .ok (.xor ⟨24, 180, false, 159, 296, 0, 256, none⟩) ∧
  decode 0b110010_0_01100011_0000010011_11100_01
    0b00100000000_000000000_000001100_010 0 = .ok (.andn ⟨28, 99, false, 178, 12, 0, 256, none⟩) ∧
  decode 0b111100_0_10011101_0000010101_00000_01
    0b00100000000_000000000_011111101_000 0 = .ok (.shl ⟨0, 157, false, 60, 253, 0, 256, none⟩) ∧
  decode 0b111111_0_00100010_0000010110_10000_01
    0b00100000000_000000000_011001100_001 0 = .ok (.shr ⟨16, 34, false, 127, 204, 0, 256, none⟩) ∧
  decode 0b100110_0_00101011_0000010111_00000_01
    0b00100000000_000000000_011001110_011 0 = .ok (.sar ⟨0, 43, false, 230, 206, 0, 256, none⟩) ∧
  decode 0b011010_0_11011110_0000011000_10100_01
    0b00100000000_000000000_010001111_100 0 = .ok (.rol ⟨20, 222, false, 282, 143, 0, 256, none⟩) ∧
  decode 0b000011_0_11100011_0000010100_11101_01
    0b00011000000_000000000_000000000_011 0 = .ok (.not ⟨29, 227, false, 195, 0, 0, 192, none⟩) ∧
  decode 0b001110_0_00101110_0000011001_00000_10
    0b00111000000_000000000_101111111_001 0xA8948C89 = .ok (.bfx ⟨0, 46, false, 78, 383, 0, 448, (some 0xA8948C89)⟩) := by decide +kernel

theorem test_decode_words3 :
  decode 0b101110_0_11010101_0000011010_10011_01
    0b00011000000_010000111_001011110_100 0 = .ok (.bfi ⟨19, 213, false, 302, 94, 135, 192, none⟩) ∧
  decode 0b010010_0_01101100_0000011011_00000_01
    0b00100000000_000000000_000000000_100 0 = .ok (.popc ⟨0, 108, false, 274, 0, 0, 256, none⟩) ∧
  decode 0b001000_0_10110001_0000011100_00000_01
    0b00100000000_000000000_000000000_100 0 = .ok (.clz ⟨0, 177, false, 264, 0, 0, 256, none⟩) ∧
  decode 0b011111_0_11001101_0000011101_11111_01
    0b00100000000_000000000_000000000_100 0 = .ok (.brev ⟨31, 205, false, 287, 0, 0, 256, none⟩) ∧
  decode 0b110110_0_01100101_0000011110_10110_01
    0b00011000000_011001110_011110111_000 0 = .ok (.sel ⟨22, 101, false, 54, 247, 206, 192, none⟩) ∧
  decode 0b101011_0_11111101_0000011111_00000_01
    0b01100010101_001010100_011100010_001 0 = .ok (.icmp ⟨0, 253, false, 107, 226, 84, 789, none⟩) ∧
  decode 0b110101_0_00001110_0000100000_11101_01
    0b00000000000_000000000_000000001_000 0 = .ok (.kand ⟨29, 14, false, 53, 1, 0, 0, none⟩) ∧
  decode 0b001110_0_10011110_0000100001_10010_01
    0b00000000000_000000000_000100101_000 0 = .ok (.kor ⟨18, 158, false, 14, 37, 0, 0, none⟩) ∧
  decode 0b000010_0_10100011_0000100010_00000_01
    0b00000000000_000000000_010110010_010 0 = .ok (.kxor ⟨0, 163, false, 130, 178, 0, 0, none⟩) ∧
  decode 0b111010_0_00011110_0000100011_00000_01
    0b00000000000_000000000_000000000_011 0 = .ok (.knot ⟨0, 30, false, 250, 0, 0, 0, none⟩) ∧
  decode 0b101100_0_01010000_0000100100_10111_01
    0b00000000000_000000000_000000000_000 0 = .ok (.kmov ⟨23, 80, false, 44, 0, 0, 0, none⟩) ∧
  decode 0b001000_0_01011000_0000100101_11001_01
    0b00000000000_000000000_000000000_010 0 = .ok (.kpop ⟨25, 88, false, 136, 0, 0, 0, none⟩) := by decide +kernel

theorem test_decode_words4 :
  decode 0b001100_0_00000000_0000110001_11010_01
    0b00000000000_000000000_000000000_000 0 = .ok (.brx ⟨26, 0, false, 12, 0, 0, 0, none⟩) ∧
  decode 0b010111_0_00000000_0000110011_00000_01
    0b00000000001_000000000_000000000_100 0 = .ok (.ret ⟨0, 0, false, 279, 0, 0, 1, none⟩) ∧
  decode 0b000000_0_00000000_0000110101_11100_01
    0b00000000000_000000000_000000000_000 0 = .ok (.yield ⟨28, 0, false, 0, 0, 0, 0, none⟩) ∧
  decode 0b000000_0_00000000_0000110110_11100_01
    0b00000000000_000000000_000000000_000 0 = .ok (.exit ⟨28, 0, false, 0, 0, 0, 0, none⟩) ∧
  decode 0b000000_0_00000000_0000110111_10101_01
    0b00000000000_000000000_000000000_000 0 = .ok (.nop ⟨21, 0, false, 0, 0, 0, 0, none⟩) ∧
  decode 0b000000_0_00000000_0001110001_11101_01
    0b00000000000_000000000_000000000_000 0 = .ok (.tret ⟨29, 0, false, 0, 0, 0, 0, none⟩) ∧
  decode 0b000000_0_00000000_0001110100_00000_01
    0b00000000000_000000000_000000000_000 0 = .ok (.pdone ⟨0, 0, false, 0, 0, 0, 0, none⟩) ∧
  decode 0b000000_0_00000000_0011001001_00000_01
    0b00000000000_000000000_000000000_000 0 = .ok (.grpbar ⟨0, 0, false, 0, 0, 0, 0, none⟩) ∧
  decode 0b000000_0_00000000_0011001010_11101_01
    0b00000000000_000000000_000000000_000 0 = .ok (.gangbar ⟨29, 0, false, 0, 0, 0, 0, none⟩) ∧
  decode 0b000000_0_00000000_0011001011_10000_01
    0b00000000000_000000000_000000000_000 0 = .ok (.stagebar ⟨16, 0, false, 0, 0, 0, 0, none⟩) ∧
  decode 0b110001_0_10110010_0000111000_00000_01
    0b00000000000_000000000_000000000_010 0 = .ok (.srd ⟨0, 178, false, 177, 0, 0, 0, none⟩) ∧
  decode 0b110001_0_00010101_0000111001_10111_01
    0b00000000000_000000000_000000000_001 0 = .ok (.swr ⟨23, 21, false, 113, 0, 0, 0, none⟩) := by decide +kernel

theorem test_decode_words5 :
  decode 0b111111_0_00110011_0000111010_10001_10
    0b00000000000_000000000_000000000_101 0x3451D013 = .ok (.reggrow ⟨17, 51, false, 383, 0, 0, 0, (some 0x3451D013)⟩) ∧
  decode 0b110001_0_00000000_0000111011_10111_01
    0b00000000000_000000000_000000000_010 0 = .ok (.regshrink ⟨23, 0, false, 177, 0, 0, 0, none⟩) ∧
  decode 0b100111_0_11001001_0000111100_10001_01
    0b00011000001_000000000_000000000_001 0 = .ok (.shape ⟨17, 201, false, 103, 0, 0, 193, none⟩) ∧
  decode 0b101011_0_11001011_0000111101_10111_01
    0b00011000000_000000000_000101101_010 0 = .ok (.idx ⟨23, 203, false, 171, 45, 0, 192, none⟩) ∧
  decode 0b101100_0_10111111_0000111110_10110_01
    0b00100000000_000000000_000000000_000 0 = .ok (.unif ⟨22, 191, false, 44, 0, 0, 256, none⟩) ∧
  decode 0b001110_0_00001000_0001000000_00000_01
    0b01111000011_000000000_100101111_001 0 = .ok (.fadd ⟨0, 8, false, 78, 303, 0, 963, none⟩) ∧
  decode 0b110011_0_11010100_0001000001_11010_01
    0b01111000011_000000000_010110100_011 0 = .ok (.fsub ⟨26, 212, false, 243, 180, 0, 963, none⟩) ∧
  decode 0b110101_0_00000100_0001000010_00000_01
    0b01111000011_000000000_100001110_000 0 = .ok (.fmul ⟨0, 4, false, 53, 270, 0, 963, none⟩) ∧
  decode 0b101101_0_11010100_0001000011_00000_01
    0b01110000111_010000001_000001111_001 0 = .ok (.ffma ⟨0, 212, false, 109, 15, 129, 903, none⟩) ∧
  decode 0b101101_0_00111110_0001000100_11100_01
    0b01101000001_000000000_010100111_100 0 = .ok (.fmin ⟨28, 62, false, 301, 167, 0, 833, none⟩) ∧
  decode 0b110110_0_00010000_0001000101_00000_01
    0b01101000001_000000000_011101011_010 0 = .ok (.fmax ⟨0, 16, false, 182, 235, 0, 833, none⟩) ∧
  decode 0b001101_0_00100111_0001000110_11010_01
    0b01111001111_000001010_100000110_100 0 = .ok (.fcmp ⟨26, 39, false, 269, 262, 10, 975, none⟩) := by decide +kernel

theorem test_decode_words6 :
  decode 0b001101_0_00000010_0001000111_11010_01
    0b01111000000_000000000_000000000_001 0 = .ok (.fclass ⟨26, 2, false, 77, 0, 0, 960, none⟩) ∧
  decode 0b111110_0_10011111_0001001000_10010_01
    0b01111000011_000000000_000000000_000 0 = .ok (.frnd ⟨18, 159, false, 62, 0, 0, 963, none⟩) ∧
  decode 0b010000_0_10000101_0001001001_11101_01
    0b01110000011_000000000_100011101_100 0 = .ok (.hadd2 ⟨29, 133, false, 272, 285, 0, 899, none⟩) ∧
  decode 0b000000_0_00001111_0001001010_11001_01
    0b01110000011_000000000_001100010_010 0 = .ok (.hmul2 ⟨25, 15, false, 128, 98, 0, 899, none⟩) ∧
  decode 0b101000_0_10000010_0001001011_00000_01
    0b01101000111_000001111_100100000_011 0 = .ok (.hfma2 ⟨0, 130, false, 232, 288, 15, 839, none⟩) ∧
  decode 0b000011_0_10011101_0001001100_10001_01
    0b01001000000_001100111_100000111_100 0 = .ok (.dot4 ⟨17, 157, false, 259, 263, 103, 576, none⟩) ∧
  decode 0b110101_0_10001001_0001001101_11111_01
    0b01110000000_001111111_100000100_011 0 = .ok (.dot2 ⟨31, 137, false, 245, 260, 127, 896, none⟩) ∧
  decode 0b010110_0_00100100_0001010000_10100_01
    0b01000101111_000000000_000000000_011 0 = .ok (.cvt .rn ⟨20, 36, false, 214, 0, 0, 559, none⟩) ∧
  decode 0b100110_0_01010001_0001010100_10001_01
    0b10001001111_000000000_001111100_000 0 = .ok (.cvts .rn ⟨17, 81, false, 38, 124, 0, 1103, none⟩) ∧
  decode 0b011100_0_10101100_0001010001_00000_01
    0b01000101111_000000000_000000000_010 0 = .ok (.cvt .rz ⟨0, 172, false, 156, 0, 0, 559, none⟩) ∧
  decode 0b111100_0_10100101_0001010101_11010_01
    0b10001001111_000000000_001001010_010 0 = .ok (.cvts .rz ⟨26, 165, false, 188, 74, 0, 1103, none⟩) ∧
  decode 0b110001_0_00111001_0001010010_10100_01
    0b01000101111_000000000_000000000_000 0 = .ok (.cvt .rd ⟨20, 57, false, 49, 0, 0, 559, none⟩) := by decide +kernel

theorem test_decode_words7 :
  decode 0b110011_0_11111110_0001010110_00000_01
    0b10001001111_000000000_001010011_001 0 = .ok (.cvts .rd ⟨0, 254, false, 115, 83, 0, 1103, none⟩) ∧
  decode 0b100101_0_01101100_0001010011_10110_01
    0b01000101111_000000000_000000000_001 0 = .ok (.cvt .ru ⟨22, 108, false, 101, 0, 0, 559, none⟩) ∧
  decode 0b111100_0_10111001_0001010111_00000_01
    0b10001001111_000000000_000001010_010 0 = .ok (.cvts .ru ⟨0, 185, false, 188, 10, 0, 1103, none⟩) ∧
  decode 0b001010_0_10110101_0001011000_10101_01
    0b10101101111_000000000_011000101_000 0 = .ok (.pack4 ⟨21, 181, false, 10, 197, 0, 1391, none⟩) ∧
  decode 0b100001_0_11110110_0001011001_11100_01
    0b01111010001_000000000_000111010_000 0 = .ok (.unpack4 ⟨28, 246, false, 33, 58, 0, 977, none⟩) ∧
  decode 0b001100_0_01000100_0001100000_00000_01
    0b01111000000_000000000_000000000_010 0 = .ok (.rcp ⟨0, 68, false, 140, 0, 0, 960, none⟩) ∧
  decode 0b000011_0_11000010_0001100001_10000_01
    0b01111000000_000000000_000000000_001 0 = .ok (.rsq ⟨16, 194, false, 67, 0, 0, 960, none⟩) ∧
  decode 0b010011_0_00100111_0001100010_10110_01
    0b01111000000_000000000_000000000_100 0 = .ok (.sqrt ⟨22, 39, false, 275, 0, 0, 960, none⟩) ∧
  decode 0b011110_0_01001000_0001100011_00000_01
    0b01111000000_000000000_000000000_000 0 = .ok (.ex2 ⟨0, 72, false, 30, 0, 0, 960, none⟩) ∧
  decode 0b001001_0_01000101_0001100100_00000_01
    0b01111000000_000000000_000000000_000 0 = .ok (.lg2 ⟨0, 69, false, 9, 0, 0, 960, none⟩) ∧
  decode 0b110010_0_10011100_0001100101_00000_01
    0b01111000000_000000000_000000000_001 0 = .ok (.sin ⟨0, 156, false, 114, 0, 0, 960, none⟩) ∧
  decode 0b000110_0_01110101_0001100110_00000_01
    0b01111000000_000000000_000000000_000 0 = .ok (.cos ⟨0, 117, false, 6, 0, 0, 960, none⟩) := by decide +kernel

theorem test_decode_words8 :
  decode 0b000011_0_10100000_0001100111_10101_01
    0b01111000000_000000000_000000000_001 0 = .ok (.tanh ⟨21, 160, false, 67, 0, 0, 960, none⟩) ∧
  decode 0b010011_0_11111001_0001101000_00000_01
    0b00011010111_000011010_010000111_001 0 = .ok (.shfl ⟨0, 249, false, 83, 135, 26, 215, none⟩) ∧
  decode 0b011101_0_10100001_0001101001_10010_01
    0b00000001001_000000000_000000000_010 0 = .ok (.vote ⟨18, 161, false, 157, 0, 0, 9, none⟩) ∧
  decode 0b011100_0_10000001_0001101010_10011_01
    0b00000000100_000000000_000000000_001 0 = .ok (.ballot ⟨19, 129, false, 92, 0, 0, 4, none⟩) ∧
  decode 0b000001_0_11111111_0001101011_00000_01
    0b00100001000_000000000_000000000_010 0 = .ok (.matchL ⟨0, 255, false, 129, 0, 0, 264, none⟩) ∧
  decode 0b000011_0_10111100_0001101100_00000_01
    0b00111100010_000000000_000000000_100 0 = .ok (.lscan ⟨0, 188, false, 259, 0, 0, 482, none⟩) ∧
  decode 0b100101_0_11110000_0001101101_00000_01
    0b01111000010_000000000_000000000_011 0 = .ok (.lred ⟨0, 240, false, 229, 0, 0, 962, none⟩) ∧
  decode 0b011000_0_01111111_0001101110_11110_01
    0b00100000100_000000000_000000000_100 0 = .ok (.lfirst ⟨30, 127, false, 280, 0, 0, 260, none⟩) ∧
  decode 0b101111_0_00000000_0001110000_11100_01
    0b00000000000_000000000_000000000_001 0 = .ok (.trap ⟨28, 0, false, 111, 0, 0, 0, none⟩) ∧
  decode 0b001000_0_00000000_0001110010_00000_01
    0b00000000000_000000000_011010000_001 0 = .ok (.ctxsave ⟨0, 0, false, 72, 208, 0, 0, none⟩) ∧
  decode 0b001000_0_00000000_0001110010_00000_01
    0b00000000001_000000000_000100101_000 0 = .ok (.ctxsaveKeep ⟨0, 0, false, 8, 37, 0, 1, none⟩) ∧
  decode 0b101100_0_00001111_0001110011_00000_01
    0b00000000000_000000000_011000100_000 0 = .ok (.ctxload ⟨0, 15, false, 44, 196, 0, 0, none⟩) := by decide +kernel

theorem test_decode_words9 :
  decode 0b011000_0_01001100_0001110101_11011_01
    0b00000000000_000000000_011101100_000 0 = .ok (.depwait ⟨27, 76, false, 24, 236, 0, 0, none⟩) ∧
  decode 0b100101_0_00000000_0001110110_10010_01
    0b00000000000_000000000_000000010_011 0 = .ok (.frecGet ⟨18, 0, false, 229, 2, 0, 0, none⟩) ∧
  decode 0b000000_0_00000000_0001110110_10100_01
    0b00000000001_000000000_000000000_000 0 = .ok (.frecFwd ⟨20, 0, false, 0, 0, 0, 1, none⟩) ∧
  decode 0b011111_1_11111000_0010000000_00000_01
    0b00100110110_000000000_001110000_010 0 = .ok (.ld ⟨0, 248, true, 159, 112, 0, 310, none⟩) ∧
  decode 0b101100_0_00000000_0010000001_00000_01
    0b00001101010_000101011_011000100_010 0 = .ok (.st ⟨0, 0, false, 172, 196, 43, 106, none⟩) ∧
  decode 0b100111_0_10101000_0010000010_11100_01
    0b00111001100_100000011_010000000_001 0 = .ok (.ldg ⟨28, 168, false, 103, 128, 259, 460, none⟩) ∧
  decode 0b101110_0_11010010_0010000011_10000_01
    0b01111000110_011001101_001001010_000 0 = .ok (.stg ⟨16, 210, false, 46, 74, 205, 966, none⟩) ∧
  decode 0b011100_0_01001101_0010000100_00000_01
    0b10101000010_000000000_001111000_010 0 = .ok (.lde ⟨0, 77, false, 156, 120, 0, 1346, none⟩) ∧
  decode 0b001000_0_00000000_0010000101_11010_01
    0b10011111000_011111110_010100111_011 0 = .ok (.ste ⟨26, 0, false, 200, 167, 254, 1272, none⟩) ∧
  decode 0b001011_0_10011111_0010001000_11100_01
    0b01011110010_100000111_000010111_001 0 = .ok (.atom .add ⟨28, 159, false, 75, 23, 263, 754, none⟩) ∧
  decode 0b000011_0_11000001_0010001001_11010_01
    0b00111110010_000001001_100100100_100 0 = .ok (.atom .min ⟨26, 193, false, 259, 292, 9, 498, none⟩) ∧
  decode 0b000101_0_00001011_0010001010_00000_01
    0b01000110010_000110110_010111001_001 0 = .ok (.atom .max ⟨0, 11, false, 69, 185, 54, 562, none⟩) := by decide +kernel

theorem test_decode_words10 :
  decode 0b001010_0_00001101_0010001011_11111_01
    0b00011110010_001111110_100010001_000 0 = .ok (.atom .and ⟨31, 13, false, 10, 273, 126, 242, none⟩) ∧
  decode 0b100100_0_01110101_0010001100_00000_01
    0b00100110010_100010011_100000010_000 0 = .ok (.atom .or ⟨0, 117, false, 36, 258, 275, 306, none⟩) ∧
  decode 0b110011_0_10111101_0010001101_11001_01
    0b00011110010_000100111_010000010_011 0 = .ok (.atom .xor ⟨25, 189, false, 243, 130, 39, 242, none⟩) ∧
  decode 0b101010_0_11000010_0010001110_11011_01
    0b00100110010_011101100_001110111_001 0 = .ok (.atom .exch ⟨27, 194, false, 106, 119, 236, 306, none⟩) ∧
  decode 0b010100_0_01111011_0010001111_00000_01
    0b00011110010_001100110_000011000_010 0 = .ok (.atom .cas ⟨0, 123, false, 148, 24, 102, 242, none⟩) ∧
  decode 0b011100_0_01000010_0010010000_10001_01
    0b01011110010_001000101_100100011_010 0 = .ok (.atom .incw ⟨17, 66, false, 156, 291, 69, 754, none⟩) ∧
  decode 0b001010_0_01111101_0010010001_00000_01
    0b01011110010_001110000_000110011_010 0 = .ok (.atom .decw ⟨0, 125, false, 138, 51, 112, 754, none⟩) ∧
  decode 0b010011_0_10000101_0010010010_11100_01
    0b01111110010_011101111_011101110_010 0 = .ok (.atom .fadd ⟨28, 133, false, 147, 238, 239, 1010, none⟩) ∧
  decode 0b100111_0_00000000_0010011000_11001_01
    0b01011100100_000101100_010100000_001 0 = .ok (.red .add ⟨25, 0, false, 103, 160, 44, 740, none⟩) ∧
  decode 0b101011_0_00000000_0010011001_10111_01
    0b00111100100_100000100_000101000_011 0 = .ok (.red .min ⟨23, 0, false, 235, 40, 260, 484, none⟩) ∧
  decode 0b101100_0_00000000_0010011010_10111_01
    0b01000100100_000100111_001101100_001 0 = .ok (.red .max ⟨23, 0, false, 108, 108, 39, 548, none⟩) ∧
  decode 0b001101_0_00000000_0010011011_11010_01
    0b00011100100_010111001_010000111_100 0 = .ok (.red .and ⟨26, 0, false, 269, 135, 185, 228, none⟩) := by decide +kernel

theorem test_decode_words11 :
  decode 0b111011_0_00000000_0010011100_00000_01
    0b00100100100_011111111_001110111_010 0 = .ok (.red .or ⟨0, 0, false, 187, 119, 255, 292, none⟩) ∧
  decode 0b010010_0_00000000_0010011101_00000_01
    0b00011100100_011111100_000000010_001 0 = .ok (.red .xor ⟨0, 0, false, 82, 2, 252, 228, none⟩) ∧
  decode 0b001001_0_00000000_0010011110_10111_01
    0b01111100100_010110001_011010110_001 0 = .ok (.red .fadd ⟨23, 0, false, 73, 214, 177, 996, none⟩) ∧
  decode 0b101010_0_11011000_0010100000_00000_01
    0b01000101000_010100111_000000001_010 0 = .ok (.waitc ⟨0, 216, false, 170, 1, 167, 552, none⟩) ∧
  decode 0b100101_0_11110001_0010100001_00000_01
    0b00100101000_010010101_000000111_001 0 = .ok (.fld ⟨0, 241, false, 101, 7, 149, 296, none⟩) ∧
  decode 0b001010_0_00000000_0010100010_00000_01
    0b00000110000_100101110_011001000_011 0 = .ok (.fset ⟨0, 0, false, 202, 200, 302, 48, none⟩) ∧
  decode 0b001101_0_11000010_0010100100_10001_01
    0b00000100000_010010000_000011001_010 0 = .ok (.mbsend ⟨17, 194, false, 141, 25, 144, 32, none⟩) ∧
  decode 0b001101_1_01001010_0010100101_11000_01
    0b00000100000_010001001_010000000_001 0 = .ok (.mbrecv ⟨24, 74, true, 77, 128, 137, 32, none⟩) ∧
  decode 0b000000_0_11000110_0010100110_00000_01
    0b00000000000_000000000_000000000_011 0 = .ok (.mbpeek ⟨0, 198, false, 192, 0, 0, 0, none⟩) ∧
  decode 0b000000_0_00000000_0010101000_11000_01
    0b00000111000_000000000_000000000_000 0 = .ok (.fence ⟨24, 0, false, 0, 0, 0, 56, none⟩) ∧
  decode 0b101010_0_00000000_0010101001_11011_01
    0b00000110000_000000000_000011010_000 0 = .ok (.xfence ⟨27, 0, false, 42, 26, 0, 48, none⟩) ∧
  decode 0b000111_0_00000000_0010101010_11111_01
    0b00000000000_011111001_010010011_001 0 = .ok (.cflush ⟨31, 0, false, 71, 147, 249, 0, none⟩) := by decide +kernel

theorem test_decode_words12 :
  decode 0b110010_0_00000000_0010101011_00000_01
    0b00000000000_010110000_011010101_011 0 = .ok (.cinv ⟨0, 0, false, 242, 213, 176, 0, none⟩) ∧
  decode 0b000110_0_00000000_0010101011_10100_01
    0b00000000010_001111011_011010000_010 0 = .ok (.cinvCode ⟨20, 0, false, 134, 208, 123, 2, none⟩) ∧
  decode 0b001010_0_00000000_0010101100_11111_01
    0b00000000110_000000000_000111110_011 0 = .ok (.pref ⟨31, 0, false, 202, 62, 0, 6, none⟩) ∧
  decode 0b101011_0_00000000_0011000000_00000_01
    0b00000101000_011111111_100000001_001 0 = .ok (.evpost ⟨0, 0, false, 107, 257, 255, 40, none⟩) ∧
  decode 0b100111_0_00000000_0011000000_10011_01
    0b00000101010_001001000_011011011_011 0 = .ok (.evpostBuf ⟨19, 0, false, 231, 219, 72, 42, none⟩) ∧
  decode 0b110000_0_00101101_0011000001_00000_01
    0b00000110000_000000000_100011101_010 0 = .ok (.evbar ⟨0, 45, false, 176, 285, 0, 48, none⟩) ∧
  decode 0b000101_0_01011111_0011000010_00000_01
    0b00000000000_001101000_100100100_010 0 = .ok (.amload ⟨0, 95, false, 133, 292, 104, 0, none⟩) ∧
  decode 0b001101_0_01101010_0011000011_10000_01
    0b00000000000_000000000_000000000_100 0 = .ok (.amarm ⟨16, 106, false, 269, 0, 0, 0, none⟩) ∧
  decode 0b100000_0_01010111_0011000100_10011_01
    0b00000000000_000000000_000000000_000 0 = .ok (.amdisarm ⟨19, 87, false, 32, 0, 0, 0, none⟩) ∧
  decode 0b111001_0_11111000_0011000100_11100_01
    0b00000000010_000000000_000000000_010 0 = .ok (.amdisarmFree ⟨28, 248, false, 185, 0, 0, 2, none⟩) ∧
  decode 0b000000_0_01000110_0011000101_00000_01
    0b00000000000_011001101_011000101_010 0 = .ok (.amsave ⟨0, 70, false, 128, 197, 205, 0, none⟩) ∧
  decode 0b001100_0_11011010_0011000101_10111_01
    0b00000000010_000010001_001000010_000 0 = .ok (.amsaveStop ⟨23, 218, false, 12, 66, 17, 2, none⟩) := by decide +kernel

theorem test_decode_words13 :
  decode 0b000001_0_01111110_0011000110_11111_01
    0b00000000000_011001001_000100110_000 0 = .ok (.amrestore ⟨31, 126, false, 1, 38, 201, 0, none⟩) ∧
  decode 0b111000_0_00000000_0011001000_00000_01
    0b00000000000_000000000_001110011_000 0 = .ok (.bequeath ⟨0, 0, false, 56, 115, 0, 0, none⟩) ∧
  decode 0b111000_0_11111001_0011001100_11010_01
    0b00000000000_000101100_011101011_000 0 = .ok (.ownClaim ⟨26, 249, false, 56, 235, 44, 0, none⟩) ∧
  decode 0b100100_0_00111100_0011001100_00000_01
    0b00000000010_000000000_000010100_100 0 = .ok (.ownSelf ⟨0, 60, false, 292, 20, 0, 2, none⟩) ∧
  decode 0b001111_0_01000001_0011001100_11010_01
    0b00000000100_000111010_011100000_100 0 = .ok (.ownWord ⟨26, 65, false, 271, 224, 58, 4, none⟩) ∧
  decode 0b101011_0_10000111_0011001100_10001_01
    0b00000000110_011000111_001100011_100 0 = .ok (.ownMbox ⟨17, 135, false, 299, 99, 199, 6, none⟩) ∧
  decode 0b000110_0_00000001_0011001101_11011_01
    0b00000000000_000000000_100010100_000 0 = .ok (.disownClaim ⟨27, 1, false, 6, 276, 0, 0, none⟩) ∧
  decode 0b000000_0_11110110_0011001101_10100_01
    0b00000000010_000000000_000000000_000 0 = .ok (.disownSelf ⟨20, 246, false, 0, 0, 0, 2, none⟩) ∧
  decode 0b111001_0_10000111_0011001101_10101_01
    0b00000000100_000000000_100011001_001 0 = .ok (.disownWord ⟨21, 135, false, 121, 281, 0, 4, none⟩) ∧
  decode 0b000000_0_10110101_0011001101_10011_01
    0b00000000110_010011110_000000000_000 0 = .ok (.disownMbox ⟨19, 181, false, 0, 0, 158, 6, none⟩) ∧
  decode 0b011000_0_10000000_0011001110_00000_01
    0b00000000000_000000000_000101010_011 0 = .ok (.helpq ⟨0, 128, false, 216, 42, 0, 0, none⟩) ∧
  decode 0b111110_0_01101101_0011010000_11011_01
    0b00000000000_000000000_001110101_010 0 = .ok (.mtask ⟨27, 109, false, 190, 117, 0, 0, none⟩) := by decide +kernel

theorem test_decode_words14 :
  decode 0b000000_0_01010111_0011010001_11000_01
    0b00000000000_000000000_000000000_000 0 = .ok (.mwait ⟨24, 87, false, 0, 0, 0, 0, none⟩) ∧
  decode 0b100110_0_01100110_0011010010_11101_01
    0b00000000000_000000000_000000000_001 0 = .ok (.mpoll ⟨29, 102, false, 102, 0, 0, 0, none⟩) ∧
  decode 0b000011_0_11011001_0011010011_11100_01
    0b00111000000_000000000_000000000_100 0 = .ok (.binld ⟨28, 217, false, 259, 0, 0, 448, none⟩) ∧
  decode 0b100111_0_00000000_0011010100_10001_01
    0b01111000000_010100000_000000000_001 0 = .ok (.binst ⟨17, 0, false, 103, 0, 160, 960, none⟩) ∧
  decode 0b110010_0_00000000_0011010101_10011_01
    0b00000000000_000000000_010001000_001 0 = .ok (.binz ⟨19, 0, false, 114, 136, 0, 0, none⟩) ∧
  decode 0b100000_0_01111111_0011010110_11001_01
    0b00000000000_011111001_001110011_001 0 = .ok (.bldp ⟨25, 127, false, 96, 115, 249, 0, none⟩) ∧
  decode 0b001011_0_00000000_0011011000_11000_01
    0b00000000000_000000000_011001010_001 0 = .ok (.cpy ⟨24, 0, false, 75, 202, 0, 0, none⟩) ∧
  decode 0b001001_0_00000000_0011011001_00000_01
    0b00000000000_000000000_011010101_001 0 = .ok (.cpy2 ⟨0, 0, false, 73, 213, 0, 0, none⟩) ∧
  decode 0b001010_0_00000000_0011011010_00000_01
    0b00000000000_000000000_011100111_011 0 = .ok (.cpyt ⟨0, 0, false, 202, 231, 0, 0, none⟩) ∧
  decode 0b010101_0_00000000_0011011011_00000_01
    0b00000000000_000000000_010101001_001 0 = .ok (.cpyr ⟨0, 0, false, 85, 169, 0, 0, none⟩) ∧
  decode 0b000000_0_11110000_0011011100_11010_01
    0b00000000000_000000000_000000000_000 0 = .ok (.cpyq ⟨26, 240, false, 0, 0, 0, 0, none⟩) ∧
  decode 0b000010_0_00000000_0011100000_10111_01
    0b01011111000_010101010_011000000_011 0 = .ok (.strel ⟨23, 0, false, 194, 192, 170, 760, none⟩) := by decide +kernel

theorem test_decode_words15 :
  decode 0b000000_1_00000001_0011100001_00000_01
    0b00000000000_000000000_000000000_000 0 = .ok (.netq ⟨0, 1, true, 0, 0, 0, 0, none⟩) ∧
  decode 0b000000000000000_0000110000_10011_01
    0b00101000000011110101011001100_000 0 = .ok (.bra ⟨19, 84011724⟩) ∧
  decode 0b000000000000000_0000110010_10011_01
    0b10001111010000101100100111001_000 0 = .ok (.call ⟨19, 300439865⟩) ∧
  decode 0b000000000000000_0000110100_10011_01
    0b00101001010110011100001110010_000 0 = .ok (.meet ⟨19, 86718578⟩) ∧
  decode 0b000000000000101_1111000101_10101_01
    0b10000000000000000000000000000001 0 = .ok (.hintL 21 5 70368744210437 none) ∧
  decode 0b00000000000000000_00000000_10110_00 0 0 = .ok (.nopS 22) ∧
  decode 0b00000000000000000_00000001_10110_00 0 0 = .ok (.exitS 22) ∧
  decode 0b00000000000000000_00000010_00000_00 0 0 = .ok (.retS 0) ∧
  decode 0b00000000000000000_00000011_11001_00 0 0 = .ok (.yieldS 25) ∧
  decode 0b00000000000000000_00000100_00000_00 0 0 = .ok (.tretS 0) ∧
  decode 0b00000000000000000_00000101_10110_00 0 0 = .ok (.pdoneS 22) ∧
  decode 0b00000000000000000_00000110_10110_00 0 0 = .ok (.grpbarS 22) := by decide +kernel

theorem test_decode_words16 :
  decode 0b00000000000000000_00000111_10110_00 0 0 = .ok (.gangbarS 22) ∧
  decode 0b00000000000000000_00001000_10110_00 0 0 = .ok (.stagebarS 22) ∧
  decode 0b00011001001110000_00010000_00000_00 0 0 = .ok (.braS ⟨0, 12912⟩) ∧
  decode 0b11110010011010011_00010001_11001_00 0 0 = .ok (.callS ⟨25, 124115⟩) ∧
  decode 0b10111110110101000_00010010_00000_00 0 0 = .ok (.meetS ⟨0, 97704⟩) ∧
  decode 0b11100100_011000101_00100000_11001_00 0 0 = .ok (.movS ⟨25, 228, 197⟩) ∧
  decode 0b10111010_111100101_00100001_10110_00 0 0 = .ok (.notS ⟨22, 186, 485⟩) ∧
  decode 0b11010010_011111101_00100010_00000_00 0 0 = .ok (.inegS ⟨0, 210, 253⟩) ∧
  decode 0b11001111_000101001_00100011_11001_00 0 0 = .ok (.iabsS ⟨25, 207, 41⟩) ∧
  decode 0b00010001_111011011_00100100_10110_00 0 0 = .ok (.popcS ⟨22, 17, 475⟩) ∧
  decode 0b00011111_100000111_00100101_00000_00 0 0 = .ok (.clzS ⟨0, 31, 263⟩) ∧
  decode 0b00100000_101011011_00100110_00000_00 0 0 = .ok (.brevS ⟨0, 32, 347⟩) := by decide +kernel

theorem test_decode_words17 :
  decode 0b10001011_101010111_00100111_10110_00 0 0 = .ok (.srdS ⟨22, 139, 343⟩) ∧
  decode 0b00010110_100001100_00101000_11001_00 0 0 = .ok (.swrS ⟨25, 22, 268⟩) ∧
  decode 0b10100010_100011010_00101001_11001_00 0 0 = .ok (.kmovS ⟨25, 162, 282⟩) ∧
  decode 0b00000001_001000010_00101010_10110_00 0 0 = .ok (.knotS ⟨22, 1, 66⟩) ∧
  decode 0b01110111_001101101_00101011_00000_00 0 0 = .ok (.kpopS ⟨0, 119, 109⟩) ∧
  decode 0b11101110_110001011_00101100_10110_00 0 0 = .ok (.rcpS ⟨22, 238, 395⟩) ∧
  decode 0b11011100_111111001_00101101_10110_00 0 0 = .ok (.rsqS ⟨22, 220, 505⟩) ∧
  decode 0b11111110_010111011_00101110_00000_00 0 0 = .ok (.sqrtS ⟨0, 254, 187⟩) ∧
  decode 0b00001011_000000000_00110000_00000_00 0 0 = .ok (.mwaitS 0 11) ∧
  decode 0b00000000001001101_11111001_00011_00 0 0 = .ok (.hintS 3 9 77) := by decide +kernel

/-! ## Bolter words from 23 Tables 23.8, 23.8a and the worked words of Table 23.9 -/

theorem test_decode_bolter :
  decodeBolter 0b000000_000_000_000_000_00000000000000 = .ok .bend ∧
  decodeBolter 0b000001_000_000_000_000_00000000000000 = .ok .bnop ∧
  decodeBolter 0b000010_101_000_000_000_00000000000001 = .ok (.bld 5 true) ∧
  decodeBolter 0b000011_000_110_000_000_00000000000000 = .ok (.bst 6) ∧
  decodeBolter 0b000100_001_000_000_111_00000000000000 = .ok (.bconst 1 7) ∧
  decodeBolter 0b000101_010_000_000_011_00000000000001 = .ok (.bcolv 2 3 true) ∧
  decodeBolter 0b000110_011_000_000_010_00000000000000 = .ok (.browv 3 2 false) ∧
  decodeBolter 0b000111_001_010_011_000_00000000000000 = .ok (.badd 1 2 3) ∧
  decodeBolter 0b001000_100_101_110_000_00000000000000 = .ok (.bsub 4 5 6) ∧
  decodeBolter 0b001001_111_000_001_000_00000000000000 = .ok (.bmul 7 0 1) ∧
  decodeBolter 0b001010_001_010_011_100_00000000000000 = .ok (.bfma 1 2 3 4) ∧
  decodeBolter 0b001011_101_110_111_000_00000000000000 = .ok (.bmin 5 6 7) ∧
  decodeBolter 0b001100_010_100_110_000_00000000000000 = .ok (.bmax 2 4 6) ∧
  decodeBolter 0b001101_001_011_101_111_00000000000000 = .ok (.bclamp 1 3 5 7) ∧
  decodeBolter 0b001110_010_011_000_000_00000000000000 = .ok (.brelu 2 3) ∧
  decodeBolter 0b001111_011_100_000_000_00000000000000 = .ok (.bgelu 3 4) ∧
  decodeBolter 0b010000_100_101_000_000_00000000000000 = .ok (.bsilu 4 5) ∧
  decodeBolter 0b010001_101_110_000_000_00000000000000 = .ok (.btanh 5 6) ∧
  decodeBolter 0b010010_110_111_000_000_00000000000000 = .ok (.bamax 6 7) ∧
  decodeBolter 0b010011_111_001_000_000_00000000000101 = .ok (.bscale 7 1 5) ∧
  decodeBolter 0b010100_000_001_010_000_00000001010111 = .ok (.bsto 1 2 87) ∧
  decodeBolter 0b010101_000_011_000_010_00000000000001 = .ok (.bstsc 3 2 true) ∧
  decodeBolter 0b010110_000_100_000_001_00000000000000 = .ok (.bamaxg 4 1) := by decide +kernel
/-! ## A small machine: one group of two threads in warp 0 of core 0, an instruction at 0x10000 -/

/-- Thread `tid` with v2 = 7 + tid, v3 = 0, v4 = 5, v6 = 0x10000, v8 = 0x10040, v10 = 0x80000000, and k1 set. -/
def th (tid : Nat) : Thread :=
  { newThread tid 0x10000 0 with regs := [(2, BitVec.ofNat 32 (7 + tid)), (4, 5), (6, 0x10000), (8, 0x10040), (10, 0x80000000)], k := 2 }

def wp : Warp := newWarp 0 (homeSlots [0, 1] 0) [] [] .start

def gr (ts : List Thread) : Group :=
  { placedGroup with nthr := 2, threads := ts, warps := [{ wp with first := false }] }

def cu : Cur := ⟨⟨1, 0⟩, 0, [0, 1], 0x10000, 0x10004⟩

/-- The machine with some threads: page 1 is mapped onto itself, the first 64 KiB page on the channels of die 0 is ready. -/
def mk (ts : List Thread) : State :=
  { State.reset with
    sch := { Sched.reset with cur := some cu }
    groups := [gr ts]
    host := { HostIf.reset with ready := (List.range 48).map DevFn.channel ++ [.hayward 0, .reeve 0, .hamlet 0] }
    mm := { MemSys.reset with tlb := [⟨0, 0, 1, 65536, true, true, false, true⟩, ⟨1024, 0, 1, 65536, true, true, false, true⟩] } }

def st : State := mk [th 0, th 1]

/-- The context of an unguarded instruction in such a machine. -/
def cxOf (ts : List Thread) : Ctx := ⟨cu, gr ts, { wp with first := false }, ts, ts⟩
def cx : Ctx := cxOf [th 0, th 1]

/-- An unguarded long form: v12 from v2, v4 and k1 or v6, with a modifier; and with an address in v6:v7. -/
def fm (mod : BitVec 11) (sc : BitVec 9) : LongForm := ⟨0, 12, false, 2, 4, sc, mod, none⟩
def f1 (mod : BitVec 11) : LongForm := ⟨0, 12, false, 2, 0, 0, mod, none⟩
def f2 (mod : BitVec 11) : LongForm := fm mod 0
def f3 (mod : BitVec 11) : LongForm := fm mod 6

/-- A Bool that says that an instruction issues with legal operands. -/
def okB (s : State) (c : Ctx) (i : Instr) (f : LongForm) (wd : Bool) (srcs : List (BitVec 9 × Bool)) : Bool :=
  ctxOf s f.g == some c && !c.act.isEmpty && i.wf && (c.act.all fun t => !readsBad i t) && dstOk c wd f.dst &&
    srcs.all fun x => srcOk c f.lit x.2 x.1

/-- The hypotheses of a statement of the form `Computes`. -/
def Meets (i : LongForm → Instr) (srcs : LongForm → List (BitVec 9 × Bool)) (f : LongForm) (wd : Bool) : Prop :=
  Issues st (i f) f.g cx ∧ Legal cx f wd (srcs f)

theorem issues_of {s : State} {c : Ctx} {i : Instr} {g : BitVec 5}
    (h : (ctxOf s g == some c && !c.act.isEmpty && i.wf && c.act.all fun t => !readsBad i t) = true) : Issues s i g c := by
  simp only [Bool.and_eq_true, beq_iff_eq, Bool.not_eq_true', List.all_eq_true] at h
  exact ⟨⟨h.1.1.1, h.1.1.2, h.1.2⟩, h.2⟩

theorem meets {i : LongForm → Instr} {srcs : LongForm → List (BitVec 9 × Bool)} {f : LongForm} {wd : Bool}
    (h : okB st cx (i f) f wd (srcs f) = true) : Meets i srcs f wd := by
  simp only [okB, Bool.and_eq_true, List.all_eq_true] at h
  exact ⟨issues_of (by simp only [Bool.and_eq_true, List.all_eq_true]; exact h.1.1), h.1.2, h.2⟩

theorem allOk_of {ls : List Lane} (h : (ls.all fun l => match l.dec with | .ok _ => true | _ => false) = true) : AllOk ls := by
  intro l hl
  have := List.all_eq_true.1 h l hl
  cases hd : l.dec <;> simp [hd] at this
  exact ⟨_, rfl⟩

/-- A modifier of layout A or M from a type and the rest. -/
def ty (t : Nat) (x : Nat := 0) : BitVec 11 := BitVec.ofNat 11 (64 * t + x)

/-! ## Witnesses of the statements about the core's instructions -/

theorem wit_IntegerArithmeticWraps :
    Meets .iadd src2 (f2 (ty 7)) false ∧ Meets .isub src2 (f2 (ty 12)) true ∧ Meets .imul src2 (f2 (ty 3)) false ∧
    Meets .imad src3 (f3 (ty 8)) true ∧ Meets .ineg src1 (f1 (ty 7)) false ∧ Meets .iabs src1 (f1 (ty 8)) true := by
  refine ⟨meets ?_, meets ?_, meets ?_, meets ?_, meets ?_, meets ?_⟩ <;> decide +kernel

theorem wit_IntegerArithmeticClamps :
    Meets .iadd src2 (f2 (ty 7 1)) false ∧ Meets .isub src2 (f2 (ty 12 1)) true ∧ Meets .imul src2 (f2 (ty 11 1)) false ∧
    Meets .imad src3 (f3 (ty 8 1)) true ∧ Meets .ineg src1 (f1 (ty 7 1)) false ∧ Meets .iabs src1 (f1 (ty 8 1)) true := by
  refine ⟨meets ?_, meets ?_, meets ?_, meets ?_, meets ?_, meets ?_⟩ <;> decide +kernel

theorem wit_DivisionHighProductExtrema :
    Meets .idiv src2 (f2 (ty 7)) false ∧ Meets .irem src2 (f2 (ty 8)) true ∧ Meets .imulh src2 (f2 (ty 11)) false ∧
    Meets .imin src2 (f2 (ty 12)) true ∧ Meets .imax src2 (f2 (ty 7)) false := by
  refine ⟨meets ?_, meets ?_, meets ?_, meets ?_, meets ?_⟩ <;> decide +kernel

theorem wit_LogicAndShifts :
    Meets .and src2 (f2 (ty 3)) false ∧ Meets .or src2 (f2 (ty 4)) true ∧ Meets .xor src2 (f2 (ty 3)) false ∧
    Meets .andn src2 (f2 (ty 4)) true ∧ Meets .not src1 (f1 (ty 3)) false ∧ Meets .shl amount (f2 (ty 4)) true ∧
    Meets .shr amount (f2 (ty 3)) false ∧ Meets .sar amount (f2 (ty 4)) true ∧ Meets .rol amount (f2 (ty 3)) false := by
  refine ⟨meets ?_, meets ?_, meets ?_, meets ?_, meets ?_, meets ?_, meets ?_, meets ?_, meets ?_⟩ <;> decide +kernel

theorem wit_BitFields :
    Meets .bfx amount (f2 (ty 7)) false ∧ Meets .bfi (fun f => [(f.sa, wideTy f), (f.sb, wideTy f), (f.sc, false)]) (f3 (ty 4)) true := by
  refine ⟨meets ?_, meets ?_⟩ <;> decide +kernel

theorem wit_CountsAndReversal :
    Meets .popc src1 (f1 (ty 4)) false ∧ Meets .clz src1 (f1 (ty 3)) false ∧ Meets .brev src1 (f1 (ty 4)) true := by
  refine ⟨meets ?_, meets ?_, meets ?_⟩ <;> decide +kernel

theorem wit_MovesAddressesSelection :
    Meets .mov src1 (f1 (ty 4)) true ∧
    (Meets .movl (fun f => [(f.sa, false)]) ⟨0, 12, false, 2, litCode, 0, ty 4, some 9⟩ true) ∧
    Meets .lea (fun f => [(f.sa, true), (f.sb, false)]) (f2 (ty 7 4)) true ∧
    Meets .sel src2 (fm (ty 3) 1) false ∧ (fm (ty 3) 1).sc.toNat < 8 := by
  refine ⟨meets ?_, meets ?_, meets ?_, meets ?_, by decide⟩ <;> decide +kernel

theorem wit_ComparisonsAndMasks :
    (Issues st (.icmp ⟨0, 1, false, 2, 4, 0, ty 7 2, none⟩) 0 cx ∧ LegalMask cx ⟨0, 1, false, 2, 4, 0, ty 7 2, none⟩
      (src2 ⟨0, 1, false, 2, 4, 0, ty 7 2, none⟩)) ∧
    (Issues st (.icmp ⟨0, 7, false, 2, 4, 7, ty 12 13, none⟩) 0 cx ∧ LegalMask cx ⟨0, 7, false, 2, 4, 7, ty 12 13, none⟩
      (src2 ⟨0, 7, false, 2, 4, 7, ty 12 13, none⟩)) ∧
    (∀ i ∈ [Instr.kand, .kor, .kxor], Issues st (i ⟨0, 7, false, 1, 7, 0, 0, none⟩) 0 cx) ∧
    masksNamed ⟨0, 7, false, 1, 7, 0, 0, none⟩ true ∧
    (∀ i ∈ [Instr.knot, .kmov], Issues st (i ⟨0, 3, false, 1, 0, 0, 0, none⟩) 0 cx) ∧
    masksNamed ⟨0, 3, false, 1, 0, 0, 0, none⟩ false ∧
    Meets .kpop (fun _ => []) ⟨0, 12, false, 7, 0, 0, 0, none⟩ false := by
  refine ⟨⟨issues_of (by decide +kernel), by decide +kernel, by decide +kernel⟩,
    ⟨issues_of (by decide +kernel), by decide +kernel, by decide +kernel⟩, ?_, by unfold masksNamed; decide, ?_,
    by unfold masksNamed; decide, meets (by decide +kernel)⟩
  all_goals
    intro i hi
    simp only [List.mem_cons, List.not_mem_nil, or_false] at hi
  · rcases hi with rfl | rfl | rfl <;> exact issues_of (by decide +kernel)
  · rcases hi with rfl | rfl <;> exact issues_of (by decide +kernel)

theorem wit_ShapesAndBroadcast :
    Meets .shape (fun f => [(f.sa, false)]) (f1 (ty 3)) false ∧
    Meets .idx (fun f => [(f.sa, false), (f.sb, false)]) (f2 (ty 3)) false ∧ Meets .unif src1 (f1 (ty 4)) true ∧
    cx.act.head? = some (th 0) := by
  refine ⟨meets ?_, meets ?_, meets ?_, rfl⟩ <;> decide +kernel

/-- The hypotheses of a statement of the form `ComputesF`. -/
def MeetsF (i : LongForm → Instr) (srcs : LongForm → List (BitVec 9)) (f : LongForm) : Prop :=
  Meets i (fun f => (srcs f).map fun x => (x, false)) f false

theorem wit_FloatArithmetic :
    MeetsF .fadd fp2 (f2 (ty 15 3)) ∧ MeetsF .fsub fp2 (f2 (ty 13)) ∧ MeetsF .fmul fp2 (f2 (ty 14)) ∧
    MeetsF .ffma fp3 (f3 (ty 15 7)) ∧ MeetsF .fmin fp2 (f2 (ty 15 1)) ∧ MeetsF .fmax fp2 (f2 (ty 15)) ∧
    MeetsF .fclass fp1 (f1 (ty 15)) ∧ MeetsF .frnd fp1 (f1 (ty 13 3)) ∧
    (Issues st (.fcmp ⟨0, 7, false, 2, 4, 1, ty 15 15, none⟩) 0 cx ∧ LegalMask cx ⟨0, 7, false, 2, 4, 1, ty 15 15, none⟩
      [(2, false), (4, false)]) := by
  refine ⟨meets ?_, meets ?_, meets ?_, meets ?_, meets ?_, meets ?_, meets ?_, meets ?_,
    issues_of (by decide +kernel), by decide +kernel, by decide +kernel⟩ <;> decide +kernel

theorem wit_FloatConversionsAndFunctions :
    MeetsF .hadd2 fp2 (f2 (ty 13 3)) ∧ MeetsF .hmul2 fp2 (f2 (ty 14)) ∧ MeetsF .hfma2 fp3 (f3 (ty 13 7)) ∧
    MeetsF .dot4 fp3 (f3 (ty 5)) ∧ MeetsF .dot2 fp3 (f3 (ty 14)) ∧ MeetsF (.cvts .rn) fp2 (f2 (ty 17 15)) ∧
    MeetsF .rcp fp1 (f1 (ty 15)) ∧ MeetsF .rsq fp1 (f1 (ty 13)) ∧ MeetsF .sqrt fp1 (f1 (ty 15)) ∧
    MeetsF .ex2 fp1 (f1 (ty 15)) ∧ MeetsF .lg2 fp1 (f1 (ty 13)) ∧ MeetsF .sin fp1 (f1 (ty 15)) ∧
    MeetsF .cos fp1 (f1 (ty 15)) ∧ MeetsF .tanh fp1 (f1 (ty 13)) ∧
    Meets (.cvt .ru) (fun f => [(f.sa, tyWide f.sty)]) (f1 (ty 12 47)) true ∧
    (Meets .pack4 (fun f => [(f.sb, false)]) ⟨0, 12, false, 4, 0x110, 0, ty 17 15, none⟩ false ∧ 4 + 3 < cx.grp.n) := by
  refine ⟨meets ?_, meets ?_, meets ?_, meets ?_, meets ?_, meets ?_, meets ?_, meets ?_, meets ?_, meets ?_, meets ?_,
    meets ?_, meets ?_, meets ?_, meets ?_, meets ?_, by decide⟩ <;> decide +kernel

theorem wit_UnpackWritesFour :
    Issues st (.unpack4 ⟨0, 12, false, 2, 0x110, 0, ty 15 17, none⟩) 0 cx ∧ 12 % 4 = 0 ∧ 12 + 3 < cx.grp.n ∧
    srcOk cx none false 2 = true ∧ srcOk cx none false 0x110 = true :=
  ⟨issues_of (by decide +kernel), by decide, by decide, by decide +kernel, by decide +kernel⟩

theorem wit_CrossLane :
    (Meets .shfl (fun f => [(f.sa, wideTy f), (f.sb, false)]) (fm (ty 4 0) 7) true) ∧
    Issues st (.vote ⟨0, 7, false, 1, 0, 0, 2, none⟩) 0 cx ∧
    Meets .ballot (fun _ => []) ⟨0, 12, false, 7, 0, 0, 20, none⟩ false ∧ Meets .matchL src1 (f1 (ty 4)) false ∧
    Meets .lfirst src1 (f1 (ty 4)) true ∧ MeetsF .lscan fp1 (f1 (ty 7 32)) ∧ MeetsF .lred fp1 (f1 (ty 15 2)) := by
  refine ⟨meets ?_, issues_of ?_, meets ?_, meets ?_, meets ?_, meets ?_, meets ?_⟩ <;> decide +kernel

/-! ### Control, special registers, budgets -/

/-- The machine with a line of `NOP_S` at 0x10000 whose parcels 0 and 1 are marked as targets. -/
def mkc (ts : List Thread) : State := { mk ts with mm := { (mk ts).mm with mem := [(65596, 3)] } }

/-- Two threads with a control stack, a handler flag and a class of their last trap. -/
def thS (es : List CsEntry) : List Thread := [{ th 0 with stack := es }, { th 1 with stack := es }]
def thH (cls : BitVec 32) : List Thread :=
  [{ th 0 with hnd := true, xcause := cls, xpc := 0x10004 }, { th 1 with hnd := true, xcause := cls, xpc := 0x10004 }]

theorem passes_of {s : State} {c : Ctx} {m : Bool} {t : Thread → W64}
    (h : (targetsPass c.grp m (distinct (c.act.map t)) s).isSome = true) : ∃ s', Passes s c m t s' :=
  Option.isSome_iff_exists.1 h

theorem wit_TransfersAreTaken :
    (Issues (mkc [th 0, th 1]) (.bra ⟨0, 1⟩) 0 cx ∧ ∃ s', Passes (mkc [th 0, th 1]) cx true (fun _ => relTarget cx 1) s') ∧
    (Issues (mkc [th 0, th 1]) (.brx ⟨0, 0, false, 6, 0, 0, 0, none⟩) 0 cx ∧ srcOk cx none true 6 = true ∧
      ∃ s', Passes (mkc [th 0, th 1]) cx true (a64 ⟨0, 0, false, 6, 0, 0, 0, none⟩) s') ∧
    (Issues (mkc [th 0, th 1]) (.call ⟨0, 1⟩) 0 cx ∧ ∀ t ∈ cx.act, t.stack.length < 32) ∧
    (Issues (mkc (thS [⟨0, 0x10004, false⟩])) (.ret ⟨0, 0, false, 0, 0, 0, 0, none⟩) 0 (cxOf (thS [⟨0, 0x10004, false⟩])) ∧
      (∀ t ∈ (cxOf (thS [⟨0, 0x10004, false⟩])).act, ∃ e ∈ t.stack, e.meet = false) ∧
      ∃ s', Passes (mkc (thS [⟨0, 0x10004, false⟩])) (cxOf (thS [⟨0, 0x10004, false⟩])) true
        (fun t => ((popCall t).map fun e => e.1.addr).getD 0) s') ∧
    (Issues (mkc (thS [⟨0, 0x10004, false⟩])) (.ret ⟨0, 0, false, 6, 0, 0, 1, none⟩) 0 (cxOf (thS [⟨0, 0x10004, false⟩])) ∧
      srcOk (cxOf (thS [⟨0, 0x10004, false⟩])) none true 6 = true ∧
      ∃ s', Passes (mkc (thS [⟨0, 0x10004, false⟩])) (cxOf (thS [⟨0, 0x10004, false⟩])) true
        (a64 ⟨0, 0, false, 6, 0, 0, 1, none⟩) s') := by
  refine ⟨⟨issues_of ?_, passes_of ?_⟩, ⟨issues_of ?_, ?_, passes_of ?_⟩, ⟨issues_of ?_, ?_⟩,
    ⟨issues_of ?_, ?_, passes_of ?_⟩, issues_of ?_, ?_, passes_of ?_⟩ <;> decide +kernel

theorem wit_ReturnPopsTopmostCall :
    ((th 0).stack = [] ∧ ({ th 0 with stack := [⟨1, 4, true⟩, ⟨2, 8, false⟩, ⟨3, 12, true⟩] } : Thread).stack =
      [⟨1, 4, true⟩] ++ (⟨2, 8, false⟩ : CsEntry) :: [⟨3, 12, true⟩]) ∧ ∀ x ∈ [(⟨3, 12, true⟩ : CsEntry)], x.meet = true := by
  decide +kernel

theorem wit_TakenEffect : ∀ g, groupOf ({ st with groups := [{ gr [th 0, th 1] with cthr := 0 }] } : State) cx.cur.gid = some g →
    g.cthr = 0 := by
  intro g h
  have : g = { gr [th 0, th 1] with cthr := 0 } := by
    have h2 : groupOf ({ st with groups := [{ gr [th 0, th 1] with cthr := 0 }] } : State) cx.cur.gid =
      some { gr [th 0, th 1] with cthr := 0 } := by decide +kernel
    rw [h2] at h
    exact (Option.some.inj h).symm
  rw [this]

theorem fst_is {α β : Type} {x : α × β} {a : α} (h : x.1 = a) : ∃ b, x = (a, b) := ⟨x.2, by rw [← h]⟩

theorem wit_FailedTargetTraps :
    (∃ s', checkTarget (mkc [th 0, th 1]) cx.grp (relTarget cx 5) true = (.fault 1 0x05, s')) ∧
    Issues (mkc [th 0, th 1]) (.bra ⟨0, 5⟩) 0 cx ∧ Issues (mkc [th 0, th 1]) (.call ⟨0, 5⟩) 0 cx ∧
    (∀ t ∈ cx.act, t.stack.length < 32) :=
  ⟨fst_is (by decide +kernel), issues_of (by decide +kernel), issues_of (by decide +kernel), by decide +kernel⟩

/-- A full control stack of meet entries. -/
def full : List CsEntry := List.replicate 32 ⟨0, 0x10008, true⟩

theorem wit_StackFaults :
    (Issues (mkc (thS full)) (.call ⟨0, 1⟩) 0 (cxOf (thS full)) ∧ ∃ t ∈ (cxOf (thS full)).act, 32 ≤ t.stack.length) ∧
    (Issues (mkc (thS full)) (.meet ⟨0, 1⟩) 0 (cxOf (thS full)) ∧
      ∃ t ∈ (cxOf (thS full)).act, 32 ≤ t.stack.length ∧ ¬ t.meet = relTarget (cxOf (thS full)) 1) ∧
    (Issues (mkc (thS full)) (.ret ⟨0, 0, false, 0, 0, 0, 0, none⟩) 0 (cxOf (thS full)) ∧
      ∃ t ∈ (cxOf (thS full)).act, ∀ e ∈ t.stack, e.meet = true) := by
  refine ⟨⟨issues_of ?_, ?_⟩, ⟨issues_of ?_, ?_⟩, issues_of ?_, ?_⟩ <;> decide +kernel

theorem wit_MeetNopYieldExit :
    (Issues st (.meet ⟨0, 4⟩) 0 cx ∧ ∀ t ∈ cx.act, t.stack.length < 32) ∧ Issues st (.nop (longForm 0 0 0 0)) 0 cx ∧
    ctxOf st 0 = some cx ∧ Issues st (.yield (longForm 0 0 0 0)) 0 cx ∧ Issues st (.exit (longForm 0 0 0 0)) 0 cx := by
  refine ⟨⟨issues_of ?_, ?_⟩, issues_of ?_, ?_, issues_of ?_, issues_of ?_⟩ <;> decide +kernel

theorem wit_SpecialRegisters :
    (∀ n ∈ [0, 17], Issues st (.srd ⟨0, 12, false, BitVec.ofNat 9 (0x140 + n), 0, 0, 0, none⟩) 0 cx ∧
      dstOk cx (sregWide n) 12 = true) ∧
    (∀ n ∈ [24, 31], Issues (mk (thH 1)) (.srd ⟨0, 12, false, BitVec.ofNat 9 (0x140 + n), 0, 0, 0, none⟩) 0 (cxOf (thH 1)) ∧
      dstOk (cxOf (thH 1)) (sregWide n) 12 = true) ∧
    Issues st (.swr ⟨0, 6, false, 6, 0, 0, 0, none⟩) 0 cx ∧ srcOk cx none true 6 = true ∧
    (∀ d ∈ [25, 31, 29], Issues (mk (thH 1)) (.swr ⟨0, d, false, 6, 0, 0, 0, none⟩) 0 (cxOf (thH 1))) ∧
    (∀ t ∈ (cxOf (thH 1)).act, t.hnd = true) ∧ (cxOf (thH 1)).act.getLast?.isSome = true ∧
    Issues st (.swr ⟨0, 16, false, 4, 0, 0, 0, none⟩) 0 cx ∧ (∀ t ∈ cx.act, (a32 ⟨0, 16, false, 4, 0, 0, 0, none⟩ t).toNat < 16) ∧
    Issues st (.swr ⟨0, 14, false, 4, 0, 0, 0, none⟩) 0 cx ∧
    (∀ t ∈ cx.act, a32 ⟨0, 14, false, 4, 0, 0, 0, none⟩ t &&& 0xFC0E0000 = 0) := by
  refine ⟨?_, ?_, issues_of ?_, ?_, ?_, ?_, ?_, issues_of ?_, ?_, issues_of ?_, ?_⟩
  · intro n hn
    simp only [List.mem_cons, List.not_mem_nil, or_false] at hn
    rcases hn with rfl | rfl <;> exact ⟨issues_of (by decide +kernel), by decide +kernel⟩
  · intro n hn
    simp only [List.mem_cons, List.not_mem_nil, or_false] at hn
    rcases hn with rfl | rfl <;> exact ⟨issues_of (by decide +kernel), by decide +kernel⟩
  · decide +kernel
  · decide +kernel
  · intro d hd
    simp only [List.mem_cons, List.not_mem_nil, or_false] at hd
    rcases hd with rfl | rfl | rfl <;> exact issues_of (by decide +kernel)
  all_goals decide +kernel

/-- Forms whose literal is a budget word: `n` registers and `n` rows; the budget in force is 64 and 64. -/
def bud (k : BitVec 8) (n : Nat) : LongForm := ⟨0, k, false, 0x17F, 0, 0, 0, some (BitVec.ofNat 32 (n + n * 65536))⟩

/-- The group with a save budget, and the core with two more groups whose warps take its storage. -/
def gN (n : Nat) : Group := { gr [th 0, th 1] with ns := n }
def sN (n : Nat) : State := { st with groups := [gN n] }
def sFull : State := { st with groups := gN 256 :: (List.range 2).map fun i =>
  { gr ((List.range 128).map th) with
    gid := ⟨2, i⟩, nthr := 128, n := 256, g := 256, warps := (List.range 4).map fun w => newWarp (4 * i + w) [] [] [] .compaction } }

theorem wit_RegisterBudget :
    (Issues st (.reggrow (bud 1 72)) 0 cx ∧ BudgetNamed cx (bud 1 72) (72 + 72 * 65536) ∧ growHopeless cx.grp 72 72 = true) ∧
    (Issues (sN 72) (.reggrow (bud 7 72)) 0 { cx with grp := gN 72 } ∧
      BudgetNamed { cx with grp := gN 72 } (bud 7 72) (72 + 72 * 65536) ∧
      growHopeless (gN 72) 72 72 = false ∧ growFits (sN 72) (gN 72) 72 72 = true) ∧
    (Issues sFull (.reggrow (bud 1 256)) 0 { cx with grp := gN 256 } ∧
      BudgetNamed { cx with grp := gN 256 } (bud 1 256) (256 + 256 * 65536) ∧
      growHopeless (gN 256) 256 256 = false ∧ growFits sFull (gN 256) 256 256 = false) ∧
    (Issues st (.reggrow (bud 1 64)) 0 cx ∧ BudgetNamed cx (bud 1 64) (64 + 64 * 65536)) ∧
    (Issues st (.regshrink (bud 0 56)) 0 cx ∧ BudgetNamed cx (bud 0 56) (56 + 56 * 65536)) := by
  refine ⟨⟨issues_of ?_, ?_, ?_⟩, ⟨issues_of ?_, ?_, ?_, ?_⟩, ⟨issues_of ?_, ?_, ?_, ?_⟩, ⟨issues_of ?_, ?_⟩, issues_of ?_, ?_⟩ <;>
    (try unfold BudgetNamed) <;> decide +kernel

theorem wit_ResultEffect : (groupOf st cx.cur.gid).isSome = true := by decide +kernel

/-! ### Memory -/

theorem wit_MaskEffect : (groupOf st cx.cur.gid).isSome = true := by decide +kernel

/-- A memory form at the address in v6:v7. -/
def fa (dst : BitVec 8) (mod : BitVec 11) (sc : BitVec 9) : LongForm := ⟨0, dst, false, 6, 0x110, sc, mod, none⟩

/-- Some accesses are decided, all without a condition. -/
def Decided (r : List Lane × State) : Prop := ∃ ls s1, r = (ls, s1) ∧ AllOk ls

theorem decided {r : List Lane × State}
    (h : (r.1.all fun l => match l.dec with | .ok _ => true | _ => false) = true) : Decided r := ⟨r.1, r.2, rfl, allOk_of h⟩

theorem wit_LoadsComplete :
    (Meets .ld (fun f => [(f.sa, true), (f.sb, false)]) (fa 12 (ty 8 0x36) 0) true ∧
      Decided (cx.decideLanes st (effAddr (fa 12 (ty 8 0x36) 0)) (fun _ => 8) 1 .load)) ∧
    (Meets .lde (fun f => [(f.sa, true), (f.sb, false)]) (fa 12 (ty 17) 0) false ∧
      AllOk ((cx.decideLanes st (fun t => (elemOf (fa 12 (ty 17) 0) t).va) (fun t => (elemOf (fa 12 (ty 17) 0) t).n) 1
        .load).1.map (cx.markStraddle st))) ∧
    (Meets .ldg (fun f => [(f.sa, true), (f.sb, false)]) (fa 12 (ty 7) 7) false ∧
      Decided ((todo cx 7).decideLanes st (effAddr (fa 12 (ty 7) 7)) (fun _ => 4) 1 .load)) := by
  refine ⟨⟨meets ?_, decided ?_⟩, ⟨meets ?_, allOk_of ?_⟩, meets ?_, decided ?_⟩ <;> decide +kernel

/-- A copy of the line at 0x10000 in this core's L1 with its old bytes; a listed location of it. -/
theorem wit_LoadsReadHomeOrCopy : [65536, 65537][1]? = some 65537 ∧ (⟨0, 512, 0, some (zeros 128), []⟩ : L1Line) ∈
    ({ st with mm := { st.mm with l1 := [⟨0, 512, 0, some (zeros 128), []⟩] } } : State).mm.l1 := by decide +kernel

theorem wit_StoresCompleteAndFrame :
    (Issues st (.st (fa 0 (ty 8) 4)) 0 cx ∧ srcOk cx none true 6 = true ∧ srcOk cx none false 0x110 = true ∧
      srcOk cx none true 4 = true ∧
      Decided (cx.decideParts st (cx.storeParts st (effAddr (fa 0 (ty 8) 4)) 8) 1 .store) ∧
      cx.releaseWaits st 0 [] = false ∧ cx.releaseWaits st 6 [] = false) ∧
    (Issues st (.ste (fa 0 (ty 17) 4)) 0 cx ∧
      AllOk ((cx.decideLanes st (fun t => (elemOf (fa 0 (ty 17) 4) t).va) (fun t => (elemOf (fa 0 (ty 17) 4) t).n) 1
        .store).1.map (cx.markStraddle st))) ∧
    (Issues st (.stg (fa 7 (ty 7) 4)) 0 cx ∧
      Decided ((todo cx 7).decideParts st ((todo cx 7).storeParts st (effAddr (fa 7 (ty 7) 4)) 4) 1 .store)) := by
  refine ⟨⟨issues_of ?_, ?_, ?_, ?_, decided ?_, ?_⟩, ⟨issues_of ?_, allOk_of ?_⟩, issues_of ?_, decided ?_⟩ <;>
    decide +kernel

/-- The machine with granule 2,048, the one at 0x10000, poisoned. -/
def sPoison : State := { st with mm := { st.mm with poison := [2048] } }

theorem inv_of {s : State} (h : (Memory.wf s.mm.mem && s.mm.deferred.all fun x => isHostLoc x.1) = true) : s.Inv := by
  simp only [Bool.and_eq_true, List.all_eq_true] at h
  exact ⟨h.1, h.2⟩

theorem wit_WriteLands :
    (st.Inv ∧ Clean st [(65536, 1), (65537, 2)] ∧ ([((65536, 1) : Nat × Byte), (65537, 2)].map (·.1)).Nodup) ∧
    (65536 < peerBase ∧ (groupWriter cx.grp 0).src = some (0, .thread ⟨1, 0⟩ 0) ∧
      Agent.thread ⟨1, 0⟩ 0 ∈ (threadWho cx.grp 0).all ∧ 65536 ∈ [65536, 65537]) ∧
    (((applyWrite st (groupWriter cx.grp 0) [(65537, 7)]).mm.past.find? (·.touches [65537])).any
      (·.binds (threadWho cx.grp 0) 0) = true) ∧
    (2048 ∈ sPoison.mm.poison ∧ (zeros 32).length = 32 ∧ 4 + (zeros 28).length ≤ 32 ∧ (zeros 28).length < 32) := by
  refine ⟨⟨inv_of ?_, ?_, ?_⟩, ?_, ?_, ?_⟩
  · decide +kernel
  · unfold Clean
    decide +kernel
  · decide
  all_goals decide +kernel

/-- 11 R211, R213, Table 11.6: what the hoist and the carter may still miss of a thread's store when the thread issues a task
and a copy: all of it; after `XFENCE CORE, MILL` the hoist may not, the carter may. -/
theorem test_crossPath :
    let s := applyWrite st (groupWriter cx.grp 0) [(65537, 7)]
    let misses (s : State) (q : Nat) : Bool :=
      (cx.issues s (.task ⟨1, 0⟩ 5)).mm.past.any fun w => !w.binds (engineWho (.task ⟨1, 0⟩ 5) 0) q
    let f := fenceThreads s cx.grp 0 [0, 1] [0]
    homeByte s.mm 65537 = 7 ∧ misses s 1 = true ∧ misses f 1 = false ∧ misses f 2 = true := by
  decide +kernel

/-- The machine without cached translations, with the table of ASN 0 at 0x30000: entries of five levels that map page 2. -/
def sWalk : State :=
  { st with mm := { st.mm with
    tlb := []
    asnTab := [(0, 0x8000000000030000)]
    mem := [(0x30001, 0x10), (0x30002, 0x03), (0x30007, 0x80), (0x31001, 0x20), (0x31002, 0x03), (0x31007, 0x80),
      (0x32001, 0x30), (0x32002, 0x03), (0x32007, 0x80), (0x33001, 0x40), (0x33002, 0x03), (0x33007, 0x80),
      (0x34012, 0x01), (0x34017, 0xE0)] } }

theorem wit_TranslationFrame :
    ∃ p u s', translate sWalk 0 0 0 0x20000 4 .store = .ok (p, u, s') ∧ p = 0x10000 := by
  have h : (match translate sWalk 0 0 0 0x20000 4 .store with | .ok x => x.1 == 0x10000 | .error _ => false) = true := by
    decide +kernel
  split at h
  · rename_i x hx
    exact ⟨x.1, x.2.1, x.2.2, hx, by simpa using h⟩
  · cases h

/-- The places of four bytes at 0x10000. -/
def p4 : Places := ⟨[65536, 65537, 65538, 65539], [], false, []⟩

theorem wit_AtomicReadsModifiesWrites :
    st.Inv ∧ p4.peer = false ∧ p4.via = [] ∧ p4.locs.length = tyBytes 11 ∧ p4.locs.Nodup ∧ (∀ l ∈ p4.locs, poisoned st l = false) ∧
    (∀ l ∈ p4.locs, l < 2 ^ 52) ∧ AtomOp.incw ≠ .fadd := by
  refine ⟨inv_of ?_, ?_, ?_, ?_, ?_, ?_, ?_, ?_⟩ <;> decide +kernel

theorem wit_AtomicsComplete :
    Decided (cx.decideLanes st (effAddr (fa 12 (ty 11) 4)) (fun _ => 4) 4 .store) ∧
    (∀ op ∈ [AtomOp.add, .min, .max, .incw, .decw], Issues st (.atom op (fa 12 (ty 11) 4)) 0 cx) ∧
    (∀ op ∈ [AtomOp.and, .or, .xor, .exch, .cas], Issues st (.atom op (fa 12 (ty 3) 4)) 0 cx) ∧
    Issues st (.atom .fadd (fa 12 (ty 15) 4)) 0 cx ∧
    (∀ op ∈ [RedOp.add, .min, .max], Issues st (.red op (fa 0 (ty 11) 4)) 0 cx) ∧
    (∀ op ∈ [RedOp.and, .or, .xor], Issues st (.red op (fa 0 (ty 3) 4)) 0 cx) ∧
    Issues st (.red .fadd (fa 0 (ty 15) 4)) 0 cx ∧
    dstOk cx false 12 = true ∧ srcOk cx none true 6 = true ∧ srcOk cx none false 0x110 = true ∧ srcOk cx none false 4 = true := by
  refine ⟨decided ?_, ?_, ?_, issues_of ?_, ?_, ?_, issues_of ?_, ?_⟩
  case refine_1 => decide +kernel
  case refine_4 => decide +kernel
  case refine_7 => decide +kernel
  case refine_8 => decide +kernel
  all_goals
    intro op ho
    apply issues_of
    revert op
    decide +kernel

theorem wit_FencesAndCaches :
    Issues st (.fence ⟨0, 0, false, 0, 0, 0, 0, none⟩) 0 cx ∧ Issues st (.fence ⟨0, 0, false, 0, 0, 0, 0x38, none⟩) 0 cx ∧
    (∀ t ∈ cx.act, owed st cx.cur.gid t.tid = false) ∧
    Issues st (.xfence ⟨0, 0, false, 0x110, 0x114, 0, 0x30, none⟩) 0 cx ∧
    (∀ i ∈ [Instr.cflush, .cinv], Issues st (i (fa 0 0 4)) 0 cx) ∧ Issues st (.cinvCode (fa 0 2 4)) 0 cx ∧
    AllOk ((cx.act.foldl (fun (acc : List Lane × State) t =>
        ((acc.1 ++ [⟨t.tid, effAddr (fa 0 0 4) t, rangeLen (fa 0 0 4) t,
          (decideRange acc.2 cx (effAddr (fa 0 0 4) t) (rangeLen (fa 0 0 4) t)).1, 0⟩]),
          (decideRange acc.2 cx (effAddr (fa 0 0 4) t) (rangeLen (fa 0 0 4) t)).2)) ([], st)).1) ∧
    Issues st (.pref (fa 0 6 0)) 0 cx ∧ (fa 0 6 0).hint = 3 := by
  refine ⟨issues_of ?_, issues_of ?_, ?_, issues_of ?_, ?_, issues_of ?_, allOk_of ?_, issues_of ?_, ?_⟩
  case refine_5 =>
    intro i hi
    simp only [List.mem_cons, List.not_mem_nil, or_false] at hi
    rcases hi with rfl | rfl <;> exact issues_of (by decide +kernel)
  all_goals decide +kernel

/-! ### Waits, mailboxes, replies -/

theorem wit_WaitsComplete :
    (Meets .waitc (fun f => [(f.sa, true), (f.sc, wideTy f)]) (fa 12 (ty 11) 4) false ∧ waitCcOk (fa 12 (ty 11) 4) = true ∧
      Decided (cx.decideLanes st (a64 (fa 12 (ty 11) 4)) (fun _ => 4) 4 .load)) ∧
    (Meets .fld (fun f => [(f.sa, true), (f.sb, false)]) (fa 12 (ty 4) 7) true ∧
      Decided (cx.decideLanes st (effAddr (fa 12 (ty 4) 7)) (fun _ => 16) 16 .load)) ∧
    (Issues st (.fset (fa 0 (ty 0) 4)) 0 cx ∧
      Decided (cx.decideLanes st (effAddr (fa 0 (ty 0) 4)) (fun _ => 16) 16 .store)) ∧
    (Issues st (.mbsend (fa 7 (ty 0) 4)) 0 cx ∧ (∀ t ∈ cx.act, (c32 (fa 7 (ty 0) 4) t).toNat < 2 ^ 14) ∧
      Decided (cx.decideLanes st (effAddr (fa 7 (ty 0) 4)) (fun _ => 64) 64 .load)) ∧
    (Meets .mbrecv (fun f => [(f.sa, true), (f.sb, false), (f.sc, false)]) (fa 12 (ty 0) 0x110) false ∧
      (∀ t ∈ cx.act, cx.recvOk st (fa 12 (ty 0) 0x110) t = true) ∧
      Decided (cx.decideLanes st (effAddr (fa 12 (ty 0) 0x110)) (fun _ => 64) 64 .store)) ∧
    (Meets .mbpeek (fun f => [(f.sa, false)]) ⟨0, 12, false, 0x12F, 0, 0, 0, none⟩ false ∧
      ∀ t ∈ cx.act, (a32 ⟨0, 12, false, 0x12F, 0, 0, 0, none⟩ t).toNat < 2 ^ 14 ∧
        (a32 ⟨0, 12, false, 0x12F, 0, 0, 0, none⟩ t).toNat % 1024 / 128 = cx.core / 128) := by
  refine ⟨⟨meets ?_, ?_, decided ?_⟩, ⟨meets ?_, decided ?_⟩, ⟨issues_of ?_, decided ?_⟩, ⟨issues_of ?_, ?_, decided ?_⟩,
    ⟨meets ?_, ?_, decided ?_⟩, meets ?_, ?_⟩ <;> decide +kernel

/-- The places of a future at 0x10000, empty in `st` and set in `sSet`. -/
def p16 : Places := ⟨(List.range 16).map (65536 + ·), [], false, []⟩
def sSet : State := { st with mm := { st.mm with mem := [(65551, 0x40)] } }

theorem wit_FuturesAreSetOnce :
    (st.Inv ∧ p16.peer = false ∧ p16.via = [] ∧ p16.locs.length = 16 ∧ p16.locs.Nodup ∧ (∀ x ∈ p16.locs, poisoned st x = false ∧ x < 2 ^ 52) ∧
      field (p16.locs.map (homeByte st.mm)) 8 8 / 2 ^ 62 = 0) ∧
    (sSet.Inv ∧ (∀ x ∈ p16.locs, poisoned sSet x = false) ∧ field (p16.locs.map (homeByte sSet.mm)) 8 8 / 2 ^ 62 ≠ 0) := by
  refine ⟨⟨inv_of ?_, ?_⟩, inv_of ?_, ?_⟩ <;> decide +kernel

/-- The machine with a thread that waits, and one with a reply owed. -/
def tW (w : Wait) : Thread := { th 0 with wait := w, wnext := 0x10004 }
def sW (w : Wait) : State := mk [tW w, th 1]
def mW (hit : Option W64) : MonWait := ⟨0x10000, 65536, false, 9, 0, 11, 0, 12, true, 0, false, 0, none, hit⟩
def fW (hit : Option (W64 × Bool)) : FutWait := ⟨0x10000, 65536, false, 9, true, 12, true, 7, 0, false, 0, none, hit⟩
def rq (store : Bool) : Req := ⟨3, ⟨1, 0⟩, [⟨0, 5, 0x10000, none⟩], 12, true, false, store, some 2, none, 0⟩
def rq2 : Req := { rq false with buf := some 0, wide := true }
def sR (store : Bool) : State := { st with reqs := [rq store] }
def late (s : State) : State := { s with sch := { s.sch with cycle := 1024 } }

theorem wit_RepliesArrive :
    (reqOf (sR false) 3 = some (rq false) ∧ (groupOf (sR false) ⟨1, 0⟩).map onCore = some true ∧ packetsOf (rq false) = 1) ∧
    (reqOf { st with reqs := [rq2] } 3 = some rq2 ∧ (groupOf { st with reqs := [rq2] } ⟨1, 0⟩).map onCore = some true ∧
      packetsOf rq2 = 2) ∧
    (groupOf { sR false with groups := [{ gr [th 0, th 1] with place := .parked }] } ⟨1, 0⟩).map onCore = some false ∧
    ackOf (sR true) ⟨1, 0⟩ 0 = some (rq true) ∧
    Member (sW (.monitor (mW (some 1)))) 1 0 0 (gr [tW (.monitor (mW (some 1))), th 1]) (tW (.monitor (mW (some 1)))) ∧
    Member (sW (.future (fW (some (1, true))))) 1 0 0 (gr [tW (.future (fW (some (1, true)))), th 1])
      (tW (.future (fW (some (1, true))))) ∧
    (Member (late (sW (.monitor (mW none)))) 1 0 0 (gr [tW (.monitor (mW none)), th 1]) (tW (.monitor (mW none))) ∧
      (mW none).sent + 1024 ≤ (late (sW (.monitor (mW none)))).sch.cycle) ∧
    Member (late (sW (.future (fW none)))) 1 0 0 (gr [tW (.future (fW none)), th 1]) (tW (.future (fW none))) ∧
    ({ st with errs := [⟨4, ⟨1, 0⟩, 0, 0x37, 0x10000, 0⟩] } : State).errs.find?
      (fun e => e.id = 4 && errDue { st with errs := [⟨4, ⟨1, 0⟩, 0, 0x37, 0x10000, 0⟩] } e) =
      some ⟨4, ⟨1, 0⟩, 0, 0x37, 0x10000, 0⟩ := by
  unfold Member
  decide +kernel

theorem wit_RepliesAndWaitsWrite :
    (rq false).lanes.find? (fun l => l.tid = (th 0).tid) = some ⟨0, 5, 0x10000, none⟩ ∧ (rq false).toReg = true ∧
    (rq false).dst < 64 ∧ (rq false).kset = some 2 := by decide +kernel

/-! ### Exceptions, contexts, slots -/

/-- The machine of marked parcels with a handler at 0x10000, and its group. -/
def gH (h : W64) (ts : List Thread) : Group := { gr ts with xhand := h }
def sH (h : W64) (ts : List Thread) : State := { mkc ts with groups := [gH h ts] }

theorem wit_TrapEntry :
    (groupOf (sH 0x10000 [th 0, th 1]) ⟨1, 0⟩ = some (gH 0x10000 [th 0, th 1]) ∧ onCore (gH 0x10000 [th 0, th 1]) = true ∧
      (∀ x ∈ [(⟨0, 1, 1, true, 0x10004, 0x10004, 0, 0⟩ : Charge)], ∀ t ∈ (gH 0x10000 [th 0, th 1]).threads,
        t.tid = x.tid → t.hnd = false) ∧
      ∃ s', checkTarget (sH 0x10000 [th 0, th 1]) (gH 0x10000 [th 0, th 1]) 0x10000 true = (.ok, s')) ∧
    (∃ x ∈ [(⟨0, 1, 1, true, 0x10004, 0x10004, 0, 0⟩ : Charge)], ∃ t ∈ (gH 0 (thH 1)).threads, t.tid = x.tid ∧ t.hnd = true) ∧
    (gH 0 [th 0, th 1]).xhand = 0 := by
  refine ⟨⟨?_, ?_, ?_, fst_is ?_⟩, ?_, ?_⟩ <;> decide +kernel

theorem wit_TrapInstructions :
    (Issues st (.trap (f1 0)) 0 cx → False) ∧
    (Issues st (.trap ⟨0, 0, false, 2, 0, 0, 0, none⟩) 0 cx ∧ srcOk cx none false 2 = true) ∧
    (Issues (mkc (thH 1)) (.tret (longForm 0 0 0 0)) 0 (cxOf (thH 1)) ∧ InHandler (cxOf (thH 1)) ∧
      (∀ t ∈ (cxOf (thH 1)).act, t.dph = none ∧ t.pre = false) ∧ ∃ s', Passes (mkc (thH 1)) (cxOf (thH 1)) false (·.xpc) s') ∧
    (Issues (mk (thH 1)) (.frecGet ⟨0, 0, false, 8, 0x110, 0, 0, none⟩) 0 (cxOf (thH 1)) ∧
      AddrLegal (cxOf (thH 1)) ⟨0, 0, false, 8, 0x110, 0, 0, none⟩) ∧
    Decided ((cxOf (thH 1)).decideLanes (mk (thH 1)) (effAddr (fa 0 0 0)) (fun _ => 64) 64 .store) ∧
    (Issues (mk (thH 1)) (.frecFwd ⟨0, 0, false, 0, 0, 0, 1, none⟩) 0 (cxOf (thH 1)) ∧ (cxOf (thH 1)).act.head?.isSome = true) ∧
    (Issues (mk (thH 8)) (.pdone (longForm 0 0 0 0)) 0 (cxOf (thH 8)) ∧ InHandler (cxOf (thH 8)) ∧
      ∀ t ∈ (cxOf (thH 8)).act, t.xcause.toNat % 256 = 8) ∧
    ((∃ t ∈ cx.act, t.hnd = false) ∧ Issues st (.tret (longForm 0 0 0 0)) 0 cx ∧
      Issues st (.frecGet ⟨0, 0, false, 8, 0x110, 0, 0, none⟩) 0 cx ∧ AddrLegal cx ⟨0, 0, false, 8, 0x110, 0, 0, none⟩ ∧
      Issues st (.frecFwd ⟨0, 0, false, 0, 0, 0, 1, none⟩) 0 cx ∧ Issues st (.pdone (longForm 0 0 0 0)) 0 cx) := by
  unfold InHandler AddrLegal
  refine ⟨fun h => by have := h.wf; revert this; decide, ⟨issues_of ?_, ?_⟩, ⟨issues_of ?_, ?_, ?_, passes_of ?_⟩,
    ⟨issues_of ?_, ?_⟩, decided ?_, ⟨issues_of ?_, ?_⟩, ⟨issues_of ?_, ?_, ?_⟩, ?_, issues_of ?_, issues_of ?_, ?_,
    issues_of ?_, issues_of ?_⟩ <;> decide +kernel

/-- The group with a save area at 0x11000, mapped. -/
def gA (ts : List Thread) : Group := { gr ts with xsave := 0x11000 }
def sA (ts : List Thread) : State := { mk ts with groups := [gA ts] }
def cA (ts : List Thread) : Ctx := { cxOf ts with grp := gA ts }
/-- Registers v2 to v4. -/
def fR (dst : BitVec 8) (mod : BitVec 11) : LongForm := ⟨0, dst, false, 2, 0x113, 0, mod, none⟩

def areaOk (r : AreaRes) : Bool := match r with
  | .ok _ _ => true
  | _ => false

/-- The pieces of a range's registers, read: whether none of them is poisoned. -/
def ctxB (s : State) (g : Group) (v n : Nat) : Option Bool :=
  match areaPieces g .load (entryPieces g v n) [] s with
  | .ok p1 s1 => (match areaPieces g .load (entryPieces g v n ++ rowPieces g v n fun w r =>
        2 ≤ savedTag (areaBytes s1 g p1 (saWarp g w) 64) r) [] s1 with
    | .ok p2 s2 => some (ctxPoison s2 g p2 v n).isNone
    | _ => none)
  | _ => none

theorem area_of {r : AreaRes} (h : areaOk r = true) : ∃ p s, r = .ok p s := by
  cases r <;> first | exact ⟨_, _, rfl⟩ | cases h

theorem wit_ContextInstructions :
    RangeNamed (cA [th 0, th 1]) (fR 0 0) 2 3 ∧
    (Issues (sA [th 0, th 1]) (.ctxsave (fR 0 0)) 0 (cA [th 0, th 1]) ∧
      ∃ p s', areaPieces (gA [th 0, th 1]) .store (entryPieces (reformAll (gA [th 0, th 1]) [] []) 2 3 ++
        rowPieces (reformAll (gA [th 0, th 1]) [] []) 2 3 fun w r => homeTag (reformAll (gA [th 0, th 1]) [] []) w r == .gen) []
        (sA [th 0, th 1]) = .ok p s') ∧
    (Issues (sA (thH 8)) (.ctxsaveKeep (fR 0 1)) 0 (cA (thH 8)) ∧
      ∀ t ∈ (cA (thH 8)).act, t.hnd = true ∧ t.xcause.toNat % 256 = 8) ∧
    (Issues (sA [th 0, th 1]) (.ctxload (fR 15 0)) 0 (cA [th 0, th 1]) ∧ (gA [th 0, th 1]).slots.getD 15 .idle = .idle ∧
      ∃ p s', areaPieces (gA [th 0, th 1]) .load (entryPieces (gA [th 0, th 1]) 2 3) [] (sA [th 0, th 1]) = .ok p s') ∧
    ctxB (sA [th 0, th 1]) (gA [th 0, th 1]) 2 3 = some true ∧
    ctxB { sA [th 0, th 1] with mm := { (sA [th 0, th 1]).mm with poison := (List.range 128).map (2176 + ·) } }
      (gA [th 0, th 1]) 2 3 = some false := by
  unfold RangeNamed
  refine ⟨?_, ⟨issues_of ?_, area_of ?_⟩, ⟨issues_of ?_, ?_⟩, ⟨issues_of ?_, ?_, area_of ?_⟩, ?_, ?_⟩ <;> decide +kernel

/-- The machine with a state of slot d3. -/
def gS (x : Slot) : Group := setSlot 3 x (gr [th 0, th 1])
def sS (x : Slot) : State := { st with groups := [gS x] }
def cS (x : Slot) : Ctx := { cx with grp := gS x }

def p8 : Places := ⟨(List.range 8).map (65536 + ·), [], false, []⟩

theorem wit_SlotInstructions :
    (Issues st (.depwait (fa 3 0 0)) 0 cx ∧ addrUni cx (fa 3 0 0) = true ∧ AddrLegal cx (fa 3 0 0) ∧
      Decided (cx.decideLanes st (effAddr (fa 3 0 0)) (fun _ => 8) 1 .load) ∧
      (depositsOf st p8).isSome = true ∧ headerErr st p8 = none ∧ headerErr sPoison p8 = some 0x37 ∧
      depositsOf { st with mm := { st.mm with mem := [(65540, 1)] } } p8 = none) ∧
    (groupOf (sS (.pending (.ctxload 2 3))) ⟨1, 0⟩ = some (gS (.pending (.ctxload 2 3))) ∧
      (gS (.pending (.ctxload 2 3))).slots.getD 3 .idle = .pending (.ctxload 2 3)) ∧
    (∀ x ∈ [Slot.idle, .set, .pending (.task 5), .failed 0x40 0],
      Issues (sS x) (.mwait ⟨0, 3, false, 0, 0, 0, 0, none⟩) 0 (cS x) ∧ (cS x).grp.slots.getD 3 .idle = x ∧
      Issues (sS x) (.mpoll ⟨0, 12, false, 3, 0, 0, 0, none⟩) 0 (cS x) ∧ dstOk (cS x) false 12 = true) := by
  unfold AddrLegal
  refine ⟨⟨issues_of ?_, ?_, ?_, decided ?_, ?_, ?_, ?_, ?_⟩, ?_, ?x⟩
  case x =>
    intro x hx
    simp only [List.mem_cons, List.not_mem_nil, or_false] at hx
    rcases hx with rfl | rfl | rfl | rfl <;>
      exact ⟨issues_of (by decide +kernel), by decide +kernel, issues_of (by decide +kernel), by decide +kernel⟩
  all_goals decide +kernel

/-! ### Events and automata -/

/-- The machine with stream 5 open on die 0: its ring of 64 slots at 0x14000, its control block at 0x13000. -/
def st5 : Stream := { Stream.reset with en := true, lsize := 6, sbase := 0x14000, scba := 0x13000 }
def sE : State := { st with streams := [(5, st5)] }

theorem wit_EventInstructions :
    (∀ n, MayRelease st cx n) ∧
    (Issues sE (.evpost ⟨0, 0, false, 0x115, 0x111, 6, 0, none⟩) 0 cx ∧ evpostOk cx ⟨0, 0, false, 0x115, 0x111, 6, 0, none⟩ = true ∧
      ∀ e ∈ (cx.act.foldl (cx.evpostLane ⟨0, 0, false, 0x115, 0x111, 6, 0, none⟩ fun s t =>
        (.ok (natLe 8 (c64 ⟨0, 0, false, 0x115, 0x111, 6, 0, none⟩ t).toNat), s)) ([], sE)).1, e.2 = .done) ∧
    (Issues sE (.evpostBuf ⟨0, 0, false, 0x115, 0x111, 6, 2, none⟩) 0 cx ∧
      ∀ e ∈ (cx.act.foldl (cx.evpostLane ⟨0, 0, false, 0x115, 0x111, 6, 2, none⟩
        (readPayload ⟨0, 0, false, 0x115, 0x111, 6, 2, none⟩ cx)) ([], sE)).1, e.2 = .done) ∧
    (Issues sE (.evbar (fa 7 0 0)) 0 cx ∧ AddrLegal cx (fa 7 0 0) ∧
      Decided (cx.decideLanes sE (effAddr (fa 7 0 0)) (fun _ => 64) 64 .store) ∧
      ∀ x ∈ ((cx.decideLanes sE (effAddr (fa 7 0 0)) (fun _ => 64) 64 .store).1.foldl (cx.evbarLane (fa 7 0 0))
        ([], (cx.decideLanes sE (effAddr (fa 7 0 0)) (fun _ => 64) 64 .store).2)).1, x.2.2 = .done) ∧
    (∀ r : Bool, Issues sE (if r then .amrestore (fa 12 0 0x115) else .amload (fa 12 0 0x115)) 0 cx ∧
      ∀ x ∈ (cx.oneByOne sE (cx.amReadLane (fa 12 0 0x115) r)).1, x.fin = .done) ∧
    (∀ i ∈ [Instr.amarm, .amdisarm], Issues sE (i ⟨0, 7, false, 2, 0, 0, 0, none⟩) 0 cx) ∧
    Issues sE (.amdisarmFree ⟨0, 7, false, 2, 0, 0, 2, none⟩) 0 cx ∧
    (∀ go ∈ [armHandle, disarmHandle false, disarmHandle true], ∀ r ∈ (cx.oneByOne sE (fun s t =>
      match go s (a32 ⟨0, 7, false, 2, 0, 0, 0, none⟩ t) with
      | some (k, s') => (⟨t.tid, .done, 0, k⟩, s')
      | none => (⟨t.tid, .waits, 0, false⟩, s))).1, r.fin = .done) ∧
    (∀ p : Bool, Issues sE (if p then .amsaveStop (fa 7 2 2) else .amsave (fa 7 0 2)) 0 cx ∧
      ∀ x ∈ (cx.oneByOne sE (cx.amSaveLane (fa 7 0 2) p)).1, x.fin = .done) := by
  unfold AddrLegal
  refine ⟨?a, ⟨issues_of ?_, ?_, ?_⟩, ⟨issues_of ?_, ?_⟩, ⟨issues_of ?_, ?_, decided ?_, ?_⟩, ?b, ?c, issues_of ?_, ?e, ?d⟩
  case a =>
    intro n _ t ht
    revert t
    decide +kernel
  case b =>
    intro r
    cases r <;> exact ⟨issues_of (by decide +kernel), by decide +kernel⟩
  case e =>
    intro go hg
    simp only [List.mem_cons, List.not_mem_nil, or_false] at hg
    rcases hg with rfl | rfl | rfl <;> decide +kernel
  case c =>
    intro i hi
    simp only [List.mem_cons, List.not_mem_nil, or_false] at hi
    rcases hi with rfl | rfl <;> exact issues_of (by decide +kernel)
  case d =>
    intro p
    cases p <;> exact ⟨issues_of (by decide +kernel), by decide +kernel⟩
  all_goals decide +kernel

/-- Thread 0 as a poster. -/
def by0 : Poster := ⟨0, 0, 0, 5, threadWho cx.grp 0, groupWriter cx.grp 0⟩

theorem wit_PostWritesRecord :
    sE.Inv ∧ streamOpen (streamOf sE 5) = true ∧
    ∃ p s1 q s2, decideAccess sE 0 0 0 0x13000 8 4 .store = (.ok p, s1) ∧
      decideAccess s1 0 0 0 0x14000 64 64 .store = (.ok q, s2) ∧ p.locs.length = 8 ∧ q.locs.length = 64 ∧
      (p.locs ++ q.locs).Nodup ∧ f32 (p.locs.map (homeByte s1.mm)) 0 = 0 ∧ f32 (p.locs.map (homeByte s1.mm)) 4 = 0 ∧
      slotVa (streamOf sE 5) 0 = 0x14000 ∧
      ∀ l ∈ p.locs ++ q.locs, fabricFails sE.fab l = false ∧ poisoned s1 l = false ∧ poisoned s2 l = false := by
  refine ⟨inv_of (by decide +kernel), by decide +kernel, ⟨(List.range 8).map (0x13000 + ·), [], false, []⟩, sE,
    ⟨(List.range 64).map (0x14000 + ·), [], false, []⟩, sE, ?_⟩
  decide +kernel

/-- An automaton image: its magic and a quota of 1, one state. -/
def imgA : Bytes := overlay (overlay (overlay (zeros 224) 0 (natLe 4 0x414D0001)) 4 (natLe 4 0)) 8 (natLe 4 (1 * 2 ^ 0))

theorem wit_AutomataAreLoadedAndArmed :
    malformed (zeros 224) = some (1, 0) ∧ malformed imgA = none ∧ autoOf st 0 0 = none ∧
    (∀ k, k < 256 → (autoOf { st with dies := [(0, { Die.reset 0 with
      autos := (List.range 256).map fun k => (k, (⟨imgA, 5, none, 0, []⟩ : Automaton)) })] } 0 k).isSome = true) ∧
    autoOf { st with dies := [(0, { Die.reset 0 with autos := [(0, ⟨imgA, 5, none, 0, []⟩)] })] } 0 0 =
      some ⟨imgA, 5, none, 0, []⟩ := by decide +kernel

/-! ### Gangs, ownership, engines -/

/-- The hypotheses of an ownership instruction. -/
def Own (i : Instr) (f : LongForm) (go : State → Thread → (Bool × LaneEnd) × State) : Prop :=
  Issues st i f.g cx ∧ f.dst.toNat < 8 ∧ ∀ r ∈ (cx.each go st).1, r.2.2 = .done

theorem own_of {i : Instr} {f : LongForm} {go : State → Thread → (Bool × LaneEnd) × State}
    (h : ((ctxOf st f.g == some cx && !cx.act.isEmpty && i.wf && cx.act.all fun t => !readsBad i t) &&
      (decide (f.dst.toNat < 8) && decide (∀ r ∈ (cx.each go st).1, r.2.2 = .done))) = true) : Own i f go := by
  have h' := (Bool.and_eq_true _ _).mp h
  have h2 := (Bool.and_eq_true _ _).mp h'.2
  exact ⟨issues_of h'.1, of_decide_eq_true h2.1, of_decide_eq_true h2.2⟩

/-- A gang that bequeaths: its areas start at 0x12000. -/
def tq : Template := ⟨0, 0x4000, 0, 0, 0, 0x12000, 0x2000, 0, 0, 0, 0, 0, []⟩
def la : Launch := ⟨1, 0, 0, tq, 5, none, none⟩
def ga : Gang := ⟨1, 0, la, 0, 0, 0, false, none, false, true, false, false, 0, 0, none⟩
def sG : State := { st with gangs := [ga] }
def fB : LongForm := ⟨0, 0, false, 2, 0x112, 0, 0, none⟩

/-- A record of a queued owner, tag 1 in queue 3 of die 0, at 0x10000, and its launch. -/
def tqR (n : W32) : Template := { tq with gcfg := 0, roles := [⟨0x10000, n, 0x20002, 0x11000, 0x1000, 0⟩] }
def lR (n : W32) : Launch := { la with tmpl := tqR n, block := 0x15000 }
def sHq : State := { st with
  mm := { st.mm with mem := [(0x10000, 1), (0x10004, 2), (0x10006, 3)] }
  dies := [(0, { Die.reset 0 with queues := [(3, ⟨false, 1, 0, [lR 16]⟩)] })] }

/-- The hypotheses on `HELPQ`'s record: it is read, and `P` holds of what was read in the state that follows. -/
def Asks (s : State) (P : RecRead → State → Bool) : Prop :=
  ∃ r s2, AsksHelp s cx (fa 12 0 0) r s2 ∧ P r s2 = true

theorem asks_of {s : State} {P : RecRead → State → Bool}
    (h : (ctxOf s 0 == some cx && !cx.act.isEmpty && (Instr.helpq (fa 12 0 0)).wf &&
      cx.act.all fun t => !readsBad (.helpq (fa 12 0 0)) t) = true)
    (h2 : (match readRec s cx.grp 0x10000 with
      | (r, s1) => r != .waits && P r (coverThreads s1 cx.cur.gid cx.actTids)) = true) : Asks s P := by
  rcases hr : readRec s cx.grp 0x10000 with ⟨r, s1⟩
  rw [hr] at h2
  simp only [Bool.and_eq_true, bne_iff_ne] at h2
  exact ⟨r, _, ⟨th 0, s1, issues_of h, by decide +kernel, by unfold AddrLegal; decide +kernel, by decide +kernel,
    by decide +kernel, by decide +kernel, by decide +kernel, hr, h2.1, rfl⟩, h2.2⟩

/-- A helper of one thread, without registers, that has chosen a parked owner, whose thread can go on; the channels of
their areas are ready. -/
def hlpG (pl : Place) : Group :=
  { gr [th 0] with nthr := 1, n := 0, g := 0, ns := 0, xsave := 0x11000, place := pl, chosen := some (.parked ⟨2, 0⟩, false) }
def ownG : Group := { gr [th 0] with n := 0, g := 0, ns := 0, gid := ⟨2, 0⟩, nthr := 1, xsave := 0x14000, place := .parked }
def sAd (pl : Place) : State := { st with
  groups := [hlpG pl, ownG]
  host := { st.host with ready := (List.range 13).map (DevFn.channel <| 32 + ·) ++ [.hamlet 0] } }

theorem wit_helper_parks :
    groupOf (sAd (.core 0)) ⟨1, 0⟩ = some (hlpG (.core 0)) ∧ onCore (hlpG (.core 0)) = true ∧
    (groupOf (parkGroup (sAd (.core 0)) ⟨1, 0⟩ false .below) ⟨1, 0⟩).any (fun g =>
      g.place == .below && g.chosen == some (.parked ⟨2, 0⟩, false)) = true := by decide +kernel

theorem wit_owner_resumes :
    groupOf (sAd .below) ⟨1, 0⟩ = some (hlpG .below) ∧ groupOf (sAd .below) ⟨2, 0⟩ = some ownG ∧ wakes (sAd .below) ownG = true ∧
    (groupOf (resumeGroup (sAd .below) ⟨2, 0⟩ (coreOf (hlpG .below)) (some (⟨1, 0⟩, 1))) ⟨2, 0⟩).any onCore = true := by
  decide +kernel

theorem wit_LaunchInstructions :
    (∀ i ∈ [Instr.grpbar, .gangbar, .stagebar], Issues st (i (longForm 0 0 0 0)) 0 cx) ∧
    AddrLegal cx (fa 7 0 6) ∧ srcOk cx none true 6 = true ∧ srcOk cx none false 0x110 = true ∧
    (∀ t ∈ cx.act, dieBox cx (boxId none 0x110 t) = true) ∧ addrUni cx (fa 7 2 0) = true ∧
    Own (.ownClaim (fa 7 0 6)) (fa 7 0 6) (cx.claimLane (fa 7 0 6)) ∧
    Own (.ownSelf (fa 7 2 0)) (fa 7 2 0) (cx.selfLane (fa 7 2 0)) ∧
    Own (.ownWord (fa 7 4 6)) (fa 7 4 6) (cx.wordLane (fa 7 4 6)) ∧
    Own (.ownMbox (fa 7 6 0x110)) (fa 7 6 0x110) (cx.mboxLane (fa 7 6 0x110)) ∧
    Own (.disownClaim (fa 7 0 0)) (fa 7 0 0) (cx.unclaimLane (fa 7 0 0)) ∧
    Own (.disownSelf ⟨0, 7, false, 0, 0, 0, 2, none⟩) ⟨0, 7, false, 0, 0, 0, 2, none⟩ cx.unselfLane ∧
    Own (.disownWord (fa 7 4 0)) (fa 7 4 0) (cx.unwordLane (fa 7 4 0)) ∧
    Own (.disownMbox ⟨0, 7, false, 0, 0, 0x110, 6, none⟩) ⟨0, 7, false, 0, 0, 0x110, 6, none⟩
      (cx.unmboxLane ⟨0, 7, false, 0, 0, 0x110, 6, none⟩) ∧
    Asks st (fun r s => adoptable s cx.grp r.rec? = .no 1) ∧
    Asks sHq (fun r s => r.rec?.isSome && (adoptable s cx.grp r.rec?).chosen == some (.queued 3 1)) ∧
    (giveHelp { gr [th 0, th 1] with helpq := some ⟨[0], 12, true, 0x12⟩ }).helpq = none ∧
    (Issues sG (.bequeath fB) 0 cx ∧ RangeNamed cx fB 2 2 ∧ bqCount cx fB = 2 ∧ cx.launch sG = some la ∧
      gcfgBqen la.tmpl = true ∧
      (cx.bqHeader sG (bqArea la.tmpl la.aix cx.cur.gid.grp)).testBit 31 = false ∧
      (cx.bqDecide sG (bqArea la.tmpl la.aix cx.cur.gid.grp) 2).2.1.isEmpty = true) := by
  unfold AddrLegal RangeNamed
  refine ⟨?a, ?_, ?_, ?_, ?_, ?_, own_of ?_, own_of ?_, own_of ?_, own_of ?_, own_of ?_, own_of ?_, own_of ?_, own_of ?_,
    asks_of ?_ ?_, asks_of ?_ ?_, ?_, issues_of ?_, ?_⟩
  case a =>
    intro i hi
    simp only [List.mem_cons, List.not_mem_nil, or_false] at hi
    rcases hi with rfl | rfl | rfl <;> exact issues_of (by decide +kernel)
  all_goals decide +kernel

/-- The machine with a record of 64 bytes at 0x10000, given by some of its bytes. -/
def sRec (m : List Host.Cell) : State := { st with mm := { st.mm with mem := m } }

/-- A record at the address in v6:v7 is read; `P` holds of its bytes. -/
def Reads (s : State) (f : LongForm) (P : Lane → Bytes → State → Bool) : Prop :=
  ∃ l img s2, RecordRead s cx f l img s2 ∧ P l img s2 = true

def readsD (d : List Lane × State) (P : Lane → Bytes → State → Bool) : Bool :=
  (d.1.all fun l => match l.dec with | .ok _ => true | _ => false) &&
  match d.1 with
  | [] => false
  | l :: _ => match l.dec with
    | .ok p => match cx.readRecord d.2 p with
      | (.ok img, s2) => P l img s2
      | _ => false
    | _ => false

theorem readsD_gives {d : List Lane × State} {P : Lane → Bytes → State → Bool} (h : readsD d P = true) :
    ∃ l img s2 p, AllOk d.1 ∧ d.1.head? = some l ∧ l.dec = .ok p ∧ cx.readRecord d.2 p = (.ok img, s2) ∧
      P l img s2 = true := by
  unfold readsD at h
  simp only [Bool.and_eq_true] at h
  obtain ⟨h1, h2⟩ := h
  split at h2
  · cases h2
  · rename_i l rest hl
    split at h2
    · rename_i p hp
      split at h2
      · rename_i img s2 hr
        exact ⟨l, img, s2, p, allOk_of h1, by rw [hl]; rfl, hp, hr, h2⟩
      · cases h2
    · cases h2

theorem reads_of {s : State} {f : LongForm} {P : Lane → Bytes → State → Bool}
    (h : readsD (cx.decideLanes s (effAddr f) (fun _ => 64) 64 .load) P = true) : Reads s f P := by
  obtain ⟨l, img, s2, p, h1, h2, h3, h4, h5⟩ := readsD_gives h
  exact ⟨l, img, s2, ⟨_, _, p, rfl, h1, h2, h3, h4⟩, h5⟩

/-- A task of one element: operands in FP16 with pitches of 32 bytes. -/
def recTask : List Host.Cell := [(65536, 0x21), (65537, 0x02), (65560, 32), (65564, 32)]
def okTask (l : Lane) (img : Bytes) (s : State) : Bool :=
  taskError (hamOf s cx.ham) (taskOf cx s 3 l.va img) (followed (hamOf s cx.ham) (captures cx.grp (field img 4 4))).isSome = none &&
  millerTakes (idTaken s) cx.ham (taskOf cx s 3 l.va img)
/-- A copy of 4 bytes from 0x100 to 0x200. -/
def recCopy : List Host.Cell := [(65545, 1), (65553, 2), (65560, 4)]
def okCopy (form : Nat) (l : Lane) (img : Bytes) (s : State) : Bool :=
  copyOk (copyRec cx s form l.va img) && (hamOf s cx.ham).copies.length < 32

theorem wit_EngineInstructions :
    (Issues (sRec recTask) (.mtask (fa 3 0 0)) 0 cx ∧ AddrLegal cx (fa 3 0 0) ∧ sameAddr cx (fa 3 0 0) = true ∧
      cx.grp.slots.getD 3 .idle = .idle ∧ Reads (sRec recTask) (fa 3 0 0) okTask ∧
      Reads (sRec []) (fa 3 0 0) (fun l img s => taskError (hamOf s cx.ham) (taskOf cx s 3 l.va img)
        (followed (hamOf s cx.ham) (captures cx.grp (field img 4 4))).isSome = some 0x40)) ∧
    (Issues st (.binld ⟨0, 12, false, 2, 0, 0, ty 7, none⟩) 0 cx ∧
      (∀ m, m < 2 → ((hamOf st cx.ham).mill m).bad = []) ∧
      ∀ t ∈ cx.act, (a32 ⟨0, 12, false, 2, 0, 0, ty 7, none⟩ t).toNat < 2 ^ 17) ∧
    (Issues st (.binst ⟨0, 0, false, 2, 0, 4, ty 15, none⟩) 0 cx ∧ ∀ m, m < 2 → inBolter st cx.ham m = false) ∧
    (Issues st (.binz ⟨0, 0, false, 0x110, 0x110, 0, 0, none⟩) 0 cx ∧ srcUni cx false 0x110 = true) ∧
    (Issues st (.bldp (fa 7 0 4)) 0 cx ∧ (∀ t ∈ cx.act, (c32 (fa 7 0 4) t).toNat < 2 ^ 6) ∧
      (match decideAccess st (coreOf cx.grp) (coreOf cx.grp / 8) cx.grp.asn 0x10000 256 64 .load with
        | (.ok p, s1) => (readErr s1 p (readCore s1 (threadWho cx.grp 0) (coreOf cx.grp) (coverOf s1 cx.grp.gid 0) p.unc true byPart p.locs)).isNone
        | _ => false) = true) ∧
    (Issues (sRec recCopy) (.cpy (fa 0 0 0)) 0 cx ∧ Reads (sRec recCopy) (fa 0 0 0) (okCopy 0)) ∧
    (Issues (sRec recCopy) (.cpy2 (fa 0 0 0)) 0 cx ∧ Reads (sRec recCopy) (fa 0 0 0) (okCopy 1)) ∧
    (Issues (sRec recCopy) (.cpyt (fa 0 0 0)) 0 cx ∧ Reads (sRec recCopy) (fa 0 0 0) (okCopy 2)) ∧
    (Issues (sRec recCopy) (.cpyr (fa 0 0 0)) 0 cx ∧ Reads (sRec recCopy) (fa 0 0 0) (okCopy 3)) ∧
    Reads (sRec []) (fa 0 0 0) (fun l img s => !copyOk (copyRec cx s 0 l.va img)) ∧
    Issues st (.cpyq ⟨0, 12, false, 0, 0, 0, 0, none⟩) 0 cx ∧ Issues st (.netq ⟨0, 12, false, 0, 0, 0, 0, none⟩) 0 cx ∧
    dstOk cx false 12 = true ∧
    (Issues st (.strel (fa 0 (ty 11) 4)) 0 cx ∧
      Decided (cx.decideLanes st (effAddr (fa 0 (ty 11) 4)) (fun _ => 4) 4 .store)) := by
  unfold AddrLegal
  refine ⟨⟨issues_of ?_, ?_, ?_, ?_, reads_of ?_, reads_of ?_⟩, ⟨issues_of ?_, ?_⟩, ⟨issues_of ?_, ?_⟩, ⟨issues_of ?_, ?_⟩,
    ⟨issues_of ?_, ?_, ?_⟩, ⟨issues_of ?_, reads_of ?_⟩, ⟨issues_of ?_, reads_of ?_⟩, ⟨issues_of ?_, reads_of ?_⟩,
    ⟨issues_of ?_, reads_of ?_⟩, reads_of ?_, issues_of ?_, issues_of ?_, ?_, issues_of ?_, decided ?_⟩ <;> decide +kernel

/-- The machine whose mill 0 runs a bolter program, at a word; its page 0 and page 1 are mapped for the mill. -/
def sB (w : BitVec 32) : State :=
  let s := { st with mm := { st.mm with tlb := ⟨1024, 0, 0, 0, true, true, false, true⟩ :: st.mm.tlb } }
  placeBolter s w

def cB (w : BitVec 32) : BCtx := (bctxOf (sB w)).getD ⟨0, 0, ⟨⟨0, [], 0, ⟨0, 0⟩, 0, 0, 0, 0, 0, [], none, none, none⟩, 0, 0, none, none,
  none, none, none, false⟩, ⟨0, 0, 0, [], [], none⟩, []⟩

/-- An access of the mill is decided without a condition. -/
def millOk (r : Except Stop (List Nat) × State) : Bool := match r.1 with
  | .ok _ => true
  | .error _ => false

theorem cB_is : bctxOf (sB 0) = some (cB 0) := by
  have h : (bctxOf (sB 0)).isSome = true := by decide +kernel
  unfold cB
  cases hb : bctxOf (sB 0) with
  | none => rw [hb] at h; cases h
  | some c => rfl

theorem wit_BolterOperations :
    bctxOf (sB 0) = some (cB 0) ∧ ((hamOf (sB 0) (cB 0).ham).mill (cB 0).m).bad = [] ∧ (cB 0).r.task.n = 1 ∧ (cB 0).b.chk = none ∧
    ¬ (cB 0).b.row + 1 < 128 * (cB 0).b.pass + ((cB 0).r.task.passRows (cB 0).b.pass).length ∧
    millOk (millAccess (sB 0) 0 0 (boltAddr (cB 0).img 0) 4 .load true 3) = true ∧
    millOk (millAccess (sB 0) 0 0 (boltAddr (cB 0).img 0 + 0) 2 .load true 3) = true ∧
    millOk (millAccess (sB 0) 0 0 ((cB 0).r.task.out + 0) 4 .store false 3) = true ∧
    millOk (millAccess (sB 0) 0 0 (boltAddr (cB 0).img 0) 4 .store true 3) = true :=
  ⟨cB_is, by decide +kernel, by decide +kernel, by decide +kernel, by decide +kernel, by decide +kernel, by decide +kernel,
    by decide +kernel, by decide +kernel⟩

/-! ### Streams and launches -/

/-- The machine with a state of stream 5, some bytes of memory and state of die 0; its hayward and its hamlet 0 are ready. -/
def sF (x : Stream) (m : List Host.Cell) (d : Die := Die.reset 0) : State :=
  { st with
    streams := [(5, x)]
    mm := { st.mm with mem := m }
    dies := [(0, d)]
    host := { st.host with ready := .hamlet 0 :: st.host.ready } }

def st5t : Stream := { st5 with stail := 1 }

def hayOk (r : HayRes) : Bool := match r with
  | .ok _ _ => true
  | _ => false
/-- A barrier record for a block at 0x15000, in the first slot of the ring. -/
def barB : Bytes := overlay (overlay (zeros 64) 4 [0xFF#8, 0xFF#8]) 16 (natLe 8 0x15000)
def barM : List Host.Cell := [(0x14004, 0xFF), (0x14005, 0xFF), (0x14011, 0x50), (0x14012, 0x01)]
def blockLives (r : HayRes) : Bool := match r with
  | .ok b _ => blockLive b
  | _ => false

/-- An edge that waits until 0 ns: a deadline from state 0; and a state 0 whose candidates expire at 0 ns. -/
def imgD : Bytes := overlay imgA 0xC0 (natLe 4 (2 * 2 ^ 8))
def imgX : Bytes := overlay imgA 0x40 (natLe 4 (2 ^ 31))
def dAuto (i : Bytes) : Die := { Die.reset 0 with autos := [(0, ⟨i, 5, some 0, 0, [⟨1, 0, 0, [], []⟩]⟩)] }

theorem wit_StreamHappenings :
    (streamOf sE 5).posts = [] ∧ (streamOf sE 5).rst = false ∧
    SctlRefused 0 (sctlSet 0 (streamOf st 5)) ∧ ¬ SctlRefused (6 * 2 ^ 8) (sctlSet (6 * 2 ^ 8) st5) ∧
    (resetWaits (sF { st5 with rst := true, rstWait := true } []) 5 = false ∧
      resetWaits { sF { st5 with rst := true, rstWait := true } [] with host := HostIf.reset } 5 = true) ∧
    (∀ w : Bool, drainDue (sF { st5 with rst := true, rstWait := w } []) 5 = true) ∧
    offerUnfinished (sF { st5t with hold := some (newOffer (zeros 64) 0) } []) 5 = true ∧
    (fetches (sF st5t []) 5 = true ∧ offerUnfinished (sF st5t []) 5 = false ∧
      (∃ s1, readSlot (sF st5t [(0x14000, 1)]) 5 = (.gap, s1)) ∧
      (∃ s1, readSlot (sF st5t []) 5 = (.found (zeros 64), s1) ∧ field (zeros 64) 4 2 ≠ 0xFFFF) ∧
      ∃ s1, readSlot (sF st5t barM) 5 = (.found barB, s1)) ∧
    (field barB 4 2 = 0xFFFF ∧ f64 barB 16 = 0x15000 ∧
      blockLives (blockAt (sF st5t (barM ++ [(0x15003, 0x80)])) 5 0x15000).1 = true ∧
      blockLives (blockAt (sF st5t barM) 5 0x15000).1 = false ∧
      (blockAt (sF st5t barM) 5 0x15000).1 ≠ .waits ∧ (finishOffer (sF st5t barM) 5).isSome = true) ∧
    barrierOver (sF { st5t with bar := some 0x15000 } []) 5 = true ∧
    hayOk (hayAccess (sF st5t []) none (streamOf (sF st5t []) 5).odie (streamOf (sF st5t []) 5).asn
      ((streamOf (sF st5t []) 5).scba + 4#64) 4 4 .store true).1 = true ∧
    holdOver (sF { st5t with hold := some { newOffer (zeros 64) 0 with full := true } } []) 5 = true ∧
    (∃ m p, timeDue (sF st5 [] (dAuto imgD)) 0 = some (m, p) ∧ p.edge.isSome = true) ∧
    (∃ m p, timeDue (sF st5 [] (dAuto imgX)) 0 = some (m, p) ∧ p.edge.isSome = false) := by
  unfold SctlRefused
  refine ⟨?_, ?_, ?_, ?_, ?_, ?_, ?_, ⟨?_, ?_, fst_is ?_, ?f, fst_is ?_⟩, ?_, ?_, ?_, ?_, ?t1, ?t2⟩
  case f =>
    obtain ⟨s1, h⟩ := fst_is (x := readSlot (sF st5t []) 5) (a := Slotted.found (zeros 64)) (by decide +kernel)
    exact ⟨s1, h, by decide⟩
  case t1 =>
    have h : ((timeDue (sF st5 [] (dAuto imgD)) 0).any fun x => x.2.edge.isSome) = true := by decide +kernel
    cases hx : timeDue (sF st5 [] (dAuto imgD)) 0 with
    | none => rw [hx] at h; cases h
    | some x => exact ⟨x.1, x.2, rfl, by rw [hx] at h; exact h⟩
  case t2 =>
    have h : ((timeDue (sF st5 [] (dAuto imgX)) 0).any fun x => !x.2.edge.isSome) = true := by decide +kernel
    cases hx : timeDue (sF st5 [] (dAuto imgX)) 0 with
    | none => rw [hx] at h; cases h
    | some x =>
      rw [hx] at h
      exact ⟨x.1, x.2, rfl, by simpa using h⟩
  all_goals decide +kernel

/-- A template without a gang at 0x16000, and an acceptance of it. -/
def tmplN : List Host.Cell := [(0x16000, 1), (0x16002, 0x4E), (0x16003, 0x47), (0x16005, 0x80)]
def acc : Accept := ⟨0, 0, 0x16000, [], 0, 0, false, none, none, false⟩

def dieQ (l : Launch) (p : List Placement) : Die :=
  { Die.reset 0 with queues := [(3, ⟨false, 1, 0, [l]⟩)], placed := p }

/-- The machine whose only record finds no hamlet ready. -/
def sNoHam : State := { sF st5 [] (dieQ (lR 16) []) with host := { st.host with ready := [.reeve 0] } }

theorem state_of {α : Type} {r : α × State} {P : α → Bool} (h : P r.1 = true) : ∃ a s', r = (a, s') ∧ P a = true :=
  ⟨r.1, r.2, rfl, h⟩

def tmplOk : TmplRes → Bool
  | .ok _ => true
  | _ => false

/-- The group alone, its threads stopped at a barrier or exited; its gang. -/
def sBar (w : Wait) (x : Gang) : State :=
  { st with groups := [{ gr [th 0, th 1] with threads := [{ th 0 with wait := w }, { th 1 with wait := .exited }] }], gangs := [x] }
def gaT : Gang := { ga with started := true, launch := { la with tmpl := { tq with gptmo := 5 } } }

/-- A placement of that launch on core 0, and the machine that holds it. -/
def pl0 : Placement := ⟨3, lR 16, [0], none, [], none, false⟩
def sCom : State := sF st5 [] (dieQ (lR 16) [pl0])
def starts (s : State) (p : Placement) : Bool :=
  match commitWrites 0 (commitList { p with begun := true }) { p with begun := true } (setPlaced s 0 { p with begun := true }) with
  | (.done, p', s1) => (startGang (unqueueTag (dropPlaced s1 0 p') 0 p'.queue p'.launch.tag) 0 p'.queue p'.launch p'.cores
      p'.owner).isSome
  | _ => false

theorem wit_LaunchHappenings :
    (acceptReady (sF { st5 with accepts := [acc] } tmplN) 5 = true ∧ (streamOf (sF { st5 with accepts := [acc] } tmplN) 5).accepts = [acc] ∧
      ∃ r s1, readTemplate (sF { st5 with accepts := [acc] } tmplN) (hayWho 5 0) 0 0 0x16000 = (r, s1) ∧ tmplOk r = true) ∧
    ((streamOf (sF { st5 with queued := [(3, lR 16)] } []) 5).queued = [(3, lR 16)] ∧
      (streamOf (sF { st5 with queued := [(3, lR 16)] } []) 5).rst = false ∧
      (queueOf (sF { st5 with queued := [(3, lR 16)] } []) 0 3).recs.length < 32) ∧
    ((eligible (sF st5 [] (dieQ (lR 16) [])) 0).map fun e => e.2.tick).sum ≠ 0 ∧
    (drawDue (sF st5 [] (dieQ (lR 16) [])) 0 = true ∧
      (drawQueue (sF st5 [] (dieQ (lR 16) [])) 0).1 = some 3 ∧
      (queueOf (drawQueue (sF st5 [] (dieQ (lR 16) [])) 0).2 0 3).recs = [lR 16] ∧ unplaceable (tqR 16) = false) ∧
    (placeGang (drawQueue (sF st5 [] (dieQ (lR 16) [])) 0).2 0 (tqR 16)).isSome = true ∧
    (drawDue sNoHam 0 = true ∧ (drawQueue sNoHam 0).1 = some 3 ∧ (queueOf (drawQueue sNoHam 0).2 0 3).recs = [lR 16] ∧
      placeGang (drawQueue sNoHam 0).2 0 (tqR 16) = none) ∧
    ((dieOf sCom 0).placed = [pl0] ∧ wakesFirst sCom 0 = false ∧ (queueOf sCom 0 3).recs.head? = some (lR 16) ∧
      placeFits sCom pl0 = true ∧ starts sCom pl0 = true) ∧
    (let s := { sCom with groups := [{ gr [th 0, th 1] with place := .parked }] }
     (dieOf s 0).placed = [pl0] ∧ wakesFirst s 0 = true) ∧
    (let s := sF { st5 with accepts := [{ acc with read := some tq }] } tmplN
     acceptReady s 5 = true ∧ (streamOf s 5).accepts = [{ acc with read := some tq }]) ∧
    ((groupOf (sBar .exited ga) ⟨1, 0⟩).any (groupQuiet (sBar .exited ga)) = true) ∧
    (gangOf { st with groups := [], gangs := [ga] } 1 = some ga ∧ gangDue { st with groups := [], gangs := [ga] } ga = true) ∧
    (∀ k ∈ [BarKind.group, .gang, .stage], barDue (sBar (.barrier k 0) ga) 1 k 0 = true) ∧
    (let s := { sBar .run gaT with sch := { (sBar .run gaT).sch with cycle := 100 } }
     gangOf s 1 = some gaT ∧ timeoutDue s gaT = true) := by
  refine ⟨⟨?_, ?_, state_of ?_⟩, ⟨?_, ?_, ?_⟩, ?_, ?_, ?_, ⟨?_, ?_, ?_, ?_⟩, ⟨?_, ?_, ?_, ?_, ?_⟩, ?_, ?_, ?_, ⟨?_, ?_⟩, ?_, ?_, ?_⟩ <;> decide +kernel

/-! ### Groups and engines -/

/-- The group alone with its gang. -/
def sP (g : Group) (x : Gang) : State := { st with groups := [g], gangs := [x] }
def gw (w1 w2 : Wait) : Group := { gr [th 0, th 1] with threads := [{ th 0 with wait := w1 }, { th 1 with wait := w2 }] }
def wMon (o : Option W64) : Wait := .monitor ⟨0x10000, 65536, false, 9, 0, 7, 0, 12, true, 0, true, 0, o, none⟩
def gMeet : Group := { gr [th 0, th 1] with threads := [{ th 0 with meet := 0x10000 }, { th 1 with meet := 0x10000 }] }
def gFair : Group := { gr [th 0, th 1] with warps := [{ wp with first := false, holder := [0], fcnt := 2048 }] }
def lBig : Launch := { la with tmpl := { tq with roles := [⟨0x10000, 0x01000100, 0x04000020, 0x11000, 0x1000, 0⟩] } }
def gSig : Gang := { ga with preSent := true }

theorem wit_GroupHappenings :
    (groupOf (sP gMeet ga) ⟨1, 0⟩ = some gMeet ∧ onCore gMeet = true ∧ (0x10000 : W64) ≠ 0 ∧
      (∃ t ∈ gMeet.threads, t.held = true ∧ t.meet = 0x10000) ∧
      ∀ t ∈ gMeet.threads, t.meet = 0x10000 → t.held = true ∨ t.wait = .exited) ∧
    (groupOf (sP gFair ga) ⟨1, 0⟩ = some gFair ∧ onCore gFair = true ∧
      gFair.warps.find? (fun w => w.num = 0) = some { wp with first := false, holder := [0], fcnt := 2048 } ∧
      gFair.fair ≠ 0 ∧ gFair.fair ≤ 2048 ∧
      issueOrder gFair { wp with first := false, holder := [0], fcnt := 2048 } = [0x10000]) ∧
    (groupOf (sP (gw (.grow 128 64 3 0) .exited) ga) ⟨1, 0⟩ = some (gw (.grow 128 64 3 0) .exited) ∧
      pendingGrow (gw (.grow 128 64 3 0) .exited) = some (128, 64) ∧
      growServed (sP (gw (.grow 128 64 3 0) .exited) ga) (gw (.grow 128 64 3 0) .exited) 128 64
        (growSince (gw (.grow 128 64 3 0) .exited)) = true) ∧
    (let s := { sP (gw (.grow 128 64 3 0) .exited) ga with dies := [(0, dieQ lBig [⟨3, lBig, [0], none, [], some (none, 0), true⟩])] }
     youngest s 0 = some (gw (.grow 128 64 3 0) .exited) ∧ growStuck s 0 = true) ∧
    (groupOf (sP (gw (.slot 3) .exited) ga) ⟨1, 0⟩ = some (gw (.slot 3) .exited) ∧
      swapDue (sP (gw (.slot 3) .exited) ga) (gw (.slot 3) .exited) = true) ∧
    (∀ p ∈ [Place.parked, .preempted], let g := { gw .run .exited with place := p }
      groupOf (sP g ga) ⟨1, 0⟩ = some g ∧ roomFor (sP g ga) g 0 = true ∧ wakes (sP g ga) g = true) ∧
    gangOf (sP (gr []) { ga with preSaved := true }) 1 = some { ga with preSaved := true } ∧
    (groupOf (sP (gw (wMon (some 0x12000)) .exited) ga) ⟨1, 0⟩ = some (gw (wMon (some 0x12000)) .exited) ∧
      adoptionDue (sP (gw (wMon (some 0x12000)) .exited) ga) (gw (wMon (some 0x12000)) .exited) = true) ∧
    (let g := { gw .run .exited with place := .below }
     groupOf (sP g ga) ⟨1, 0⟩ = some g ∧ helperDue (sP g ga) g = true ∧ gangOf (sP g ga) 1 = some ga ∧ ga.preSent = false ∧
     groupOf (sP g gSig) ⟨1, 0⟩ = some g ∧ helperDue (sP g gSig) g = true ∧ gangOf (sP g gSig) 1 = some gSig ∧
     gSig.preSent = true ∧ gSig.stopped = false) ∧
    (gangOf (sP (gw .run .exited) ga) 1 = some ga ∧ signalDue (sP (gw .run .exited) ga) ga = true) ∧
    (let s := sP { gw .run .exited with deadline := some 0 } gSig
     gangOf s 1 = some gSig ∧ deadlineDue s gSig = true) ∧
    (swapDue (sP (gw .run .exited) ga) (gw .run .exited) = false ∧
      adoptionDue (sP (gw .run .exited) ga) (gw .run .exited) = false ∧
      helperDue (sP (gw .run .exited) ga) (gw .run .exited) = false) := by
  refine ⟨?_, ?_, ?_, ?_, ?_, ?_, ?_, ?_, ?_, ?_, ?_, ?_⟩
  case refine_6 =>
    intro p hp
    simp only [List.mem_cons, List.not_mem_nil, or_false] at hp
    rcases hp with rfl | rfl <;> decide +kernel
  all_goals decide +kernel

/-- A task of one element whose operands lie at 0x10000. -/
def tk (u : Nat) : Task :=
  ⟨7, overlay (overlay (overlay (zeros 64) 0 (natLe 4 u)) 8 (natLe 8 0x10000 ++ natLe 8 0x10000)) 0x18 (natLe 8 0x2000000020),
    0x10000, ⟨1, 0⟩, 0, 0, 0x10000, 0, 3, [], none, none, none⟩
/-- A copy of four bytes. -/
def cp (units : List Nat) : Copy :=
  ⟨7, overlay (overlay (zeros 64) 8 (natLe 8 0x10100 ++ natLe 8 0x10200)) 0x18 (natLe 4 4), 0x10000, 0, ⟨1, 0⟩, 0, 0, 0x10000, 0,
    units, [], [], false, none, none, false, none⟩

/-- Warp 0 held by an instruction at 0x10000. -/
def hl (w : Hold) : Held := ⟨[0, 1], 0x10000, 0x10004, w⟩
def gHold (w : Hold) : Group := { gr [th 0, th 1] with warps := [{ wp with first := false, held := some (hl w) }] }
def sHold (w : Hold) : State := { st with groups := [gHold w] }

/-- Hamlet 0 with a task, a run or a copy. -/
def sHam (f : Hamlet → Hamlet) : State := updHam st 0 f
def rn (t : Task) : Run := ⟨t, 0, 0, none, none, none, none, none, false⟩
def sRun (t : Task) : State := updMill st 0 0 fun m => { m with run := some (rn t) }
def stepOk (x : Except Stop (List (Nat × W32) × Option Nat × Option Nat)) : Bool := match x with
  | .ok _ => true
  | .error _ => false

/-- The mill with an error in word 0 of its bin, which the task's step reads. -/
def sSpoilt : State := updMill (sRun (tk 0x221)) 0 0 fun m => { m with bad := [0] }

theorem wit_EngineHappenings_spoilt : ∃ ws wa wb s1, nextStep sSpoilt 0 0 = some (rn (tk 0x221), .x 0 0) ∧
    kStep sSpoilt 0 0 (rn (tk 0x221)) 0 0 = (.ok (ws, wa, wb), s1) ∧ ∃ w ∈ ws, w.1 ∈ ((hamOf s1 0).mill 0).bad := by
  have h : (match kStep sSpoilt 0 0 (rn (tk 0x221)) 0 0 with
    | (.ok (ws, _, _), s1) => ws.any fun w => ((hamOf s1 0).mill 0).bad.contains w.1
    | _ => false) = true := by decide +kernel
  rcases hk : kStep sSpoilt 0 0 (rn (tk 0x221)) 0 0 with ⟨e, s1⟩
  rw [hk] at h
  rcases e with _ | ⟨ws, wa, wb⟩
  · cases h
  · exact ⟨ws, wa, wb, s1, by decide +kernel, rfl, by simpa using h⟩

theorem wit_EngineHappenings :
    (∀ w ∈ [Hold.mtask (tk 0x221), .copy (cp []), .bldp [] 3], heldOf (sHold w) ⟨1, 0⟩ 0 = some (gHold w, hl w) ∧
      stillHeld (gHold w) (hl w) ≠ []) ∧
    (millerTakes (sHold (.mtask (tk 0x221))) (coreOf (gHold (.mtask (tk 0x221))) / 8) (tk 0x221) = true ∧
      (gHold (.mtask (tk 0x221))).slots.getD 3 .idle = .idle) ∧
    (hamOf (sHold (.copy (cp []))) 0).copies.length < 32 ∧
    (∀ m, m < 2 → nextIssue (hamOf (sHam fun h => { h with queue := [tk (0x221 + (m + 1) * 2 ^ 17)] }) 0)
      [tk (0x221 + (m + 1) * 2 ^ 17)] = some (tk (0x221 + (m + 1) * 2 ^ 17), m)) ∧
    nextStep (sRun (tk 0x1221)) 0 0 = some (rn (tk 0x1221), .z 0) ∧
    (nextStep (sRun (tk 0x221)) 0 0 = some (rn (tk 0x221), .x 0 0) ∧
      ∃ r s1, kStep (sRun (tk 0x221)) 0 0 (rn (tk 0x221)) 0 0 = (r, s1) ∧ stepOk r = true) ∧
    (nextStep (sRun (tk 0x24)) 0 0 = some (rn (tk 0x24), .l 0) ∧
      ∃ r s1, loadAdd (sRun (tk 0x24)) 0 0 (rn (tk 0x24)) 0 = (r, s1) ∧ stepOk r = true) ∧
    ((sRun (tk 0x2005)).sch.bolt = none ∧ nextStep (sRun (tk 0x2005)) 0 0 = some (rn (tk 0x2005), .e 0)) ∧
    (let s := sHam fun h => { h with copies := [cp []] }
     copyOf s 0 7 = some (cp []) ∧ mayStart (hamOf s 0) (cp []) = true ∧ ((cp []).unit 0).isSome = true) ∧
    (let s := sHam fun h => { h with copies := [cp [0]] }
     copyOf s 0 7 = some (cp [0]) ∧ mayStart (hamOf s 0) (cp [0]) = true ∧ (cp [0]).moved = true) ∧
    (let t := { tk 0x221 with failed := some (0x40, 0) }
     (hamOf (sHam fun h => { h with queue := [t] }) 0).queue.find? (fun t => t.id = 7 && t.failed.isSome) = some t) ∧
    (let s := updMill st 0 0 fun m => { m with run := some { rn (tk 0x221) with step := 1 } }
     (hamOf s 0).queue.find? (fun t => t.id = 7 && t.failed.isSome) = none ∧
       endedOn (hamOf s 0) 7 = some (0, { rn (tk 0x221) with step := 1 })) ∧
    (let x : HeldStrel := ⟨9, ⟨1, 0⟩, 0, 0x10000, 1, 65536, zeros 4, 0, 0⟩
     ({ st.fab with strels := [x] } : Fabric).strels.find? (fun x => x.id = 9) = some x ∧
       x.count ≤ arrivedOf { st.fab with strels := [x] } x.gid x.dev) := by
  refine ⟨?_, ?_, ?_, ?_, ?_, ⟨?_, state_of ?_⟩, ⟨?_, state_of ?_⟩, ?_, ?_, ?_, ?_, ?_, ?_⟩
  case refine_1 =>
    intro p hp
    simp only [List.mem_cons, List.not_mem_nil, or_false] at hp
    rcases hp with rfl | rfl | rfl <;> decide +kernel
  case refine_4 =>
    intro m hm
    have : m = 0 ∨ m = 1 := by omega
    rcases this with rfl | rfl <;> decide +kernel
  all_goals decide +kernel

/-! ### Memory, reeve, host -/

def sMM (f : MemSys → MemSys) : State := { st with mm := f st.mm }
def xWin (busy en on : Bool) : Window := { Window.reset with base := 0x20000, size := 0x1000, pitch := 128, busy := busy, en := en, on := on }
def sWin (busy en on : Bool) : State := sMM fun m => { m with windows := [(0, xWin busy en on)] }

theorem wit_MemoryHappenings :
    (0x10000 + [0x11#8, 0x22#8].length ≤ Config.localBytes ∧ st.host.heldWr = [] ∧
      homeWaits st ((List.range 2).map (0x10000 + ·)) = false) ∧
    (homeWaits { st with host := HostIf.reset } ((List.range 2).map (0x10000 + ·)) = true ∧
      homeWaits st ((List.range 4).map (0x10000 + ·)) = false ∧ homeWaits st [0x10000] = false ∧
      (∀ k < 2, poisoned st (0x10000 + k) = false) ∧ ∀ x ∈ [0x0F#8, 0xFF#8], x ≠ 0#8) ∧
    tfind (sMM fun m => { m with writers := [(512, some (1, 0))] }).mm.writers (2048 / 4) = some (some (1, 0)) ∧
    tfind (sMM fun m => { m with writers := [(512, none)] }).mm.writers (2048 / 4) = some none ∧ tfind st.mm.writers (2048 / 4) = none ∧
    32 * 2048 < Config.localBytes ∧
    ((winOf st 0).on = false ∧ (winOf st 0).busy = false ∧ (2 : W32).getLsbD 1 = true ∧
      winRefused st 0 (wctlSet 2 (winOf st 0)) (2 : W32).toNat = true) ∧
    ((winOf (sWin false false false) 0).on = false ∧ (winOf (sWin false false false) 0).busy = false ∧
      winRefused (sWin false false false) 0 (wctlSet 2 (winOf (sWin false false false) 0)) (2 : W32).toNat = false) ∧
    ((0 : W32).getLsbD 1 = false ∧ (winOf (sWin false true true) 0).on = true) ∧
    (∀ on : Bool, (winOf (sWin true on (!on)) 0).busy = true ∧
      (winOf (sWin true on (!on)) 0).en = on) ∧
    (st.mm.xliCtl.getLsbD 31 = false ∧ (0x80000000 : W32).getLsbD 31 = true) ∧
    ((sMM fun m => { m with xliCtl := 0x80000000 }).mm.xliCtl.getLsbD 31 = true ∧ underWay (sR true) = [3]) := by
  refine ⟨?_, ?_, ?_, ?_, ?_, ?_, ?_, ?_, ?_, ?_, ?_, ?_⟩ <;> decide +kernel

/-- The machine with a command in the host automaton port. -/
def sPort (op : Nat) : State := { st with host := { st.host with port := { st.host.port with go := true, hop := BitVec.ofNat 32 op } } }
/-- The machine with an unresolved record in slot 5 of die 0. -/
def sRec0 (notice : Option Nat) : State :=
  { st with dies := [(0, { Die.reset 0 with recs := [(5, ⟨0, 1, 0, false, 0x10000, none, notice⟩)] })] }
def sDies (d : Die) (time : Nat) : State :=
  { st with
    dies := [(0, d)]
    sch := { st.sch with cycle := time }
    host := { st.host with ready := [.reeve 0, .reeve 1, .reeve 4] ++ st.host.ready } }

theorem wit_ReeveHappenings :
    (∀ op, op < 7 → (sPort op).host.port.go = true ∧ portOp (sPort op).host.port = op ∧ portDue (sPort op) op = true) ∧
    ((sPort 7).host.port.go = true ∧ portOp (sPort 7).host.port = 7) ∧
    openRec st 0 5 = none ∧
    (∃ o, openRec (sRec0 none) 0 5 = some o ∧ o.notice ≠ some 1) ∧
    (∃ o, openRec (sRec0 (some 1)) 0 5 = some o ∧ o.notice = some 1) ∧
    ((1 - (dieOf (sDies { Die.reset 0 with rqprod := 2 } 0) 0).rqcons).toNat ≤
      ((dieOf (sDies { Die.reset 0 with rqprod := 2 } 0) 0).rqprod - (dieOf (sDies { Die.reset 0 with rqprod := 2 } 0) 0).rqcons).toNat) ∧
    ((dieOf st 0).rqprod - (dieOf st 0).rqcons).toNat < (1 - (dieOf st 0).rqcons).toNat ∧
    ((0x20000 : W64).toNat % 65536 = 0 ∧ 0 * Config.dieBytes ≤ (0x20000 : W64).toNat ∧
      (0x20000 : W64).toNat + 65536 ≤ (0 + 1) * Config.dieBytes) ∧
    (0x20004 : W64).toNat % 65536 ≠ 0 ∧
    ((dieOf (sDies { Die.reset 0 with hung := true } 0) 0).hung = true ∧ (dieOf (sDies { Die.reset 0 with hung := true } 0) 0).rrst = false) ∧
    DevFn.reeve 0 ∈ st.host.ready ∧
    (let s := sDies (Die.reset 0) 1500000
     reeveRuns s 0 = true ∧ reeveRuns s (Nat.xor 0 1) = true ∧ (dieOf s 0).beatP + 1000000 ≤ nowNs s ∧
       (dieOf s 0).moved = false ∧ reeveRuns s (Nat.xor 0 4) = true ∧ (dieOf s 0).beatC + 1200000 ≤ nowNs s) ∧
    ¬ (1440 ≤ (dieOf st 0).margin.vnow ∧ (15 : BitVec 16).toNat < 10) := by
  refine ⟨?_, ?_, ?_, ⟨⟨0, 1, 0, false, 0x10000, none, none⟩, ?_, ?_⟩, ⟨⟨0, 1, 0, false, 0x10000, none, some 1⟩, ?_, ?_⟩,
    ?_, ?_, ?_, ?_, ?_, ?_, ?_, ?_⟩ <;> decide +kernel

/-- A firmware image that passes its checks, for a reeve. -/
def fw : FwImage := ⟨0x46570001, 1, 3, 2, true, true, true, some 5, []⟩

theorem wit_HostHappenings :
    (ctlFn 3 ∉ st.host.failed ∧ ctlFn 3 ∉ st.host.ready ∧ tfind st.host.running 3 = none ∧ fw.magic = 0x46570001 ∧
      fw.kind = (if 3 < 8 then 1 else 2) ∧ st.host.fused.toNat ≤ fw.sv.toNat ∧ fw.rsvZero = true ∧ fw.ecdsaOk = true ∧
      fw.lmsOk = true) ∧
    (ctlFn 9 ∉ st.host.failed ∧ ctlFn 9 ∉ st.host.ready ∧ tfind st.host.running 9 = none ∧ ({ fw with magic := 0 } : FwImage).magic ≠ 0x46570001) ∧
    (DevFn.coreDie 2 ∉ st.host.ready ∧ DevFn.coreDie 2 ∉ st.host.failed ∧ readyDue st (.coreDie 2) = true) ∧
    (DevFn.reeve 3 ∉ st.host.ready ∧ DevFn.reeve 3 ∉ st.host.failed ∧ readyDue st (.reeve 3) = false ∧ ∀ k, DevFn.reeve 3 ≠ .channel k) ∧
    (DevFn.channel 60 ∉ st.host.ready ∧ DevFn.channel 60 ∉ st.host.failed) ∧
    (6 % 4 ≠ 0 ∧ (sPort 0).host.port.go = true ∧ st.host.port.go = false) := by
  refine ⟨?_, ?_, ?_, ⟨?_, ?_, ?_, fun k h => by cases h⟩, ?_, ?_⟩ <;> decide +kernel

/-! ### The whole machine -/

theorem wit_IllegalAndInactive :
    (guardOf (.iadd { f2 (ty 7) with g := 17 }) = some 17 ∧
      ctxOf (mk [{ th 0 with k := 0 }, { th 1 with k := 0 }]) 17 = some { cxOf [{ th 0 with k := 0 }, { th 1 with k := 0 }] with act := [] }) ∧
    (guardOf (.iadd (f3 (ty 7))) = some 0 ∧ ctxOf st 0 = some cx ∧ cx.act ≠ [] ∧ (Instr.iadd (f3 (ty 7))).wf = false) := by
  decide +kernel

/-- Register 2 of thread 0 holds an error, and `IADD` reads it: that thread enters the handler, the other goes on. -/
def tB : Thread := { th 0 with rbad := [2] }

theorem wit_IllegalAndInactive_bad : Arrives (mk [tB, th 1]) (.iadd (f2 (ty 7))) 0 (cxOf [tB, th 1]) ∧
    2 ∈ readRegs (.iadd (f2 (ty 7))) tB ∧ 2 ∈ tB.rbad ∧ tB ∈ (cxOf [tB, th 1]).act := by
  refine ⟨⟨?_, ?_, ?_⟩, ?_⟩ <;> decide +kernel

/-- 27 R400: the lane that reads the error enters the handler with class 4 cause 0x37, and the other lane goes on. -/
theorem test_registerError :
    (match exec (.iadd (f2 (ty 7))) { mkc [tB, th 1] with groups := [gH 0x10000 [tB, th 1]] } with
      | .next s => (threadOf s ⟨1, 0⟩ 0).map (·.xcause) == some 0x13704 &&
        (threadOf s ⟨1, 0⟩ 1).map (·.pc) == some cx.cur.next
      | _ => false) = true := by decide +kernel

theorem wit_RoundTrip :
    ((Instr.iadd (f2 (ty 7))).wf = true ∧ bolterWord (.iadd (f2 (ty 7))) = none ∧ encode (.iadd (f2 (ty 7))) ≠ []) ∧
    (∃ i, decode 0 0 0 = .ok i) ∧ (Instr.wf (.badd 1 2 3) = true ∧ (bolterWord (.badd 1 2 3)).isSome = true) ∧
    (∃ i, decodeBolter 0x08000000 = .ok i) := by
  refine ⟨by decide +kernel, ?_, by decide +kernel, ?_⟩
  · have h : (match decode 0 0 0 with | .ok _ => true | .error _ => false) = true := by decide +kernel
    split at h
    · rename_i i hi
      exact ⟨i, hi⟩
    · cases h
  · have h : (match decodeBolter 0x08000000 with | .ok _ => true | .error _ => false) = true := by decide +kernel
    split at h
    · rename_i i hi
      exact ⟨i, hi⟩
    · cases h

/-- A machine that issues warp 0 of core 0. -/
def sIss : State := { mkc [th 0, th 1] with sch := { Sched.reset with agenda := [.issue 0 0] } }
def sIss0 : State := { sIss with sch := { sIss.sch with agenda := [], cur := none } }
def wIss : Warp := { wp with first := false }

def lineIssues : LineRes → Bool
  | .ok b => markedTarget b 0x10000 && beginsInstr b 0x10000 && (match decode (parcelAt b 0) (parcelAt b 1) (parcelAt b 2) with
    | .ok i => [th 0, th 1].any fun t => operandsReady sIss0 ⟨1, 0⟩ i (bitsOf (parcelAt b 0).toNat 2 5) t
    | .error _ => false)
  | _ => false

theorem wit_StepRunsDecoded :
    ((allWarps sIss0).find? (fun (g, w) => g.place = .core 0 && w.num = 0) = some (gr [th 0, th 1], wIss) ∧
      groupIssues sIss0 (gr [th 0, th 1]) = true ∧ wIss.held = none ∧ issueOrder (gr [th 0, th 1]) wIss = [0x10000] ∧
      late6 (gr [th 0, th 1]) = [] ∧ late8 (gr [th 0, th 1]) wIss = [] ∧
      sIss.errs = [] ∧ (runnables (gr [th 0, th 1]) wIss).filter (fun t => t.pc = 0x10000) = [th 0, th 1] ∧
      ∃ r s1, enterLine sIss0 (coreOf (gr [th 0, th 1])) (gr [th 0, th 1]).asn 0x10000 = (r, s1) ∧ lineIssues r = true) ∧
    ((sB 0x08000000).sch.agenda = [] ∧
      (bctxOf { sB 0x08000000 with sch := { (sB 0x08000000).sch with cur := none } }).any (fun c =>
        match decodeBolter (boltCode c.img c.b.word) with
        | .ok i => changes { sB 0x08000000 with sch := { (sB 0x08000000).sch with cur := none } } (exec i)
        | .error _ => false) = true) ∧
    encode .fabricPortTrained = [] := by
  refine ⟨⟨?_, ?_, ?_, ?_, ?_, ?_, ?_, ?_, state_of ?_⟩, ⟨?_, ?_⟩, ?_⟩ <;> decide +kernel

theorem wit_StepKeepsInv : State.reset.Inv ∧ ∃ s', step State.reset = .next s' := by
  refine ⟨inv_of (by decide +kernel), ?_⟩
  have h : (match step State.reset with | .next _ => true | _ => false) = true := by decide +kernel
  split at h
  · rename_i s' hs
    exact ⟨s', hs⟩
  · cases h

/-! ### Transfers that part a set, and targets that fail -/

/-- What makes a list the addresses of some threads. -/
theorem addresses_of {ts : List Thread} {f : Thread → Bool} {pcs : List W64} (h : pcs = (ts.filter f).map (·.pc)) :
    ∀ p, p ∈ pcs ↔ ∃ t ∈ ts, f t = true ∧ t.pc = p := by
  subst h
  intro p
  simp [List.mem_map, List.mem_filter, and_assoc]

/-- The set of both threads, of which only thread 0 transfers. -/
def cx0 : Ctx := { cx with act := [th 0] }

theorem wit_TakenEffect_parts : ∃ (g : Group) (pcs : List W64),
    groupOf (parted st cx0 (fun _ => 0x10010) id) cx0.cur.gid = some g ∧ pcs.Pairwise (fun p q => p.toNat < q.toNat) ∧
    (∀ p, p ∈ pcs ↔ ∃ t ∈ g.threads, t.tid ∈ cx0.setTids ∧ t.live = true ∧ t.pc = p) ∧ g.cthr ≠ 0 ∧ ¬ pcs.length < 2 := by
  have h : (groupOf (parted st cx0 (fun _ => 0x10010) id) cx0.cur.gid).any (fun g =>
      ([0x10004, 0x10010] == (g.threads.reverse.filter fun t => decide (t.tid ∈ cx0.setTids) && t.live).map (·.pc)) &&
      g.cthr != 0) = true := by decide +kernel
  obtain ⟨g, hg⟩ : ∃ g, groupOf (parted st cx0 (fun _ => 0x10010) id) cx0.cur.gid = some g :=
    Option.isSome_iff_exists.1 (by decide +kernel)
  rw [hg] at h
  simp only [Option.any_some, Bool.and_eq_true, beq_iff_eq, bne_iff_ne] at h
  refine ⟨g, [0x10004, 0x10010], hg, by decide, fun p => ?_, h.2, by decide⟩
  have := addresses_of (f := fun t => decide (t.tid ∈ cx0.setTids) && t.live) h.1 p
  simpa [and_assoc] using this

/-- Both threads at their instruction, in a group of threshold 16 and in one of threshold 1; a core with and one without room
for a fresh warp. -/
theorem wit_TakenEffect_compacts :
    (groupOf st ⟨1, 0⟩ = some (gr [th 0, th 1]) ∧
      ((gr [th 0, th 1]).threads.filter fun t => t.tid ∈ [0, 1] ∧ t.runnable = true ∧ t.pc = 0x10000).length = 2 ∧
      (gr [th 0, th 1]).cthr = 16) ∧
    (0 < freeSlots st 0 ∧ 8 * (gr [th 0, th 1]).n + 128 * (gr [th 0, th 1]).g ≤ freeStorage st 0 ∧
      (genRegs (tableOfTags (gr [th 0, th 1]).n (mergeTag (gr [th 0, th 1]) (owedOf st (gr [th 0, th 1]) [0])
        (gr [th 0, th 1]).warps [0]))).length ≤ (gr [th 0, th 1]).g) ∧
    (groupOf sFull ⟨1, 0⟩ = some (gN 256) ∧ freeStorage sFull 0 < 8 * (gN 256).n + 128 * (gN 256).g) := by decide +kernel

/-- The machine whose pages but page 1 are not present; addresses that fail. -/
def sNP (s : State) : State := { s with mm := { s.mm with asnTab := [(0, 0x8000000000040000)] } }

def checks (s : State) (c : Ctx) (target : Thread → W64) : List (W64 × TargetRes) × State :=
  (distinct (c.act.map target)).foldl (fun acc pc =>
    (acc.1 ++ [(pc, (checkTarget acc.2 c.grp pc true).1)], (checkTarget acc.2 c.grp pc true).2)) ([], s)

def fBr : LongForm := ⟨0, 0, false, 6, 0, 0, 0, none⟩
def fRt : LongForm := ⟨0, 0, false, 6, 0, 0, 1, none⟩
/-- Threads that would branch to an address, or return to it. -/
def thA (a : BitVec 32) : List Thread :=
  (thS [⟨0, a.setWidth 64, false⟩]).map fun t => { t with regs := [(6, a)] }

theorem wit_FailedTargetTraps_forms :
    (∀ x ∈ [((5 : Int), TargetRes.fault 1 0x05), (0x8000, .fault 3 0x22)], (∃ s', Checked (sNP (mkc [th 0, th 1])) cx
        (fun _ => relTarget cx x.1) [(relTarget cx x.1, x.2)] s') ∧
      Issues (sNP (mkc [th 0, th 1])) (.bra ⟨0, BitVec.ofInt 29 x.1⟩) 0 cx ∧
      Issues (sNP (mkc [th 0, th 1])) (.call ⟨0, BitVec.ofInt 29 x.1⟩) 0 cx) ∧
    ∀ x ∈ [((0x10014 : BitVec 32), TargetRes.fault 1 0x05), (0x30000, .fault 3 0x22)],
      (∃ s', Checked (sNP (mkc (thA x.1))) (cxOf (thA x.1)) (a64 fBr) [(x.1.setWidth 64, x.2)] s') ∧
      Issues (sNP (mkc (thA x.1))) (.brx fBr) 0 (cxOf (thA x.1)) ∧ srcOk (cxOf (thA x.1)) none true 6 = true ∧
      Issues (sNP (mkc (thA x.1))) (.ret fRt) 0 (cxOf (thA x.1)) ∧
      (∃ s', Checked (sNP (mkc (thA x.1))) (cxOf (thA x.1)) (fun t => ((popCall t).map fun e => e.1.addr).getD 0)
        [(x.1.setWidth 64, x.2)] s') ∧
      Issues (sNP (mkc (thA x.1))) (.ret (longForm 0 0 0 0)) 0 (cxOf (thA x.1)) ∧
      (∀ t ∈ (cxOf (thA x.1)).act, ∃ e ∈ t.stack, e.meet = false) := by
  unfold Checked
  constructor
  all_goals
    intro x hx
    simp only [List.mem_cons, List.not_mem_nil, or_false] at hx
    rcases hx with rfl | rfl
  iterate 2 exact ⟨fst_is (by decide +kernel), issues_of (by decide +kernel), issues_of (by decide +kernel)⟩
  all_goals exact ⟨fst_is (by decide +kernel), issues_of (by decide +kernel), by decide +kernel, issues_of (by decide +kernel),
      fst_is (by decide +kernel), issues_of (by decide +kernel), by decide +kernel⟩

/-- Thread 1 at another address than the issuing set, which is thread 0. -/
def tsY : List Thread := [th 0, { th 1 with pc := 0x10008 }]
def stY : State := { mk tsY with sch := { Sched.reset with cur := some { cu with set := [0] } } }
def cxY : Ctx := { cxOf tsY with cur := { cu with set := [0] }, set := [th 0], act := [th 0] }

theorem wit_MeetNopYieldExit_moves :
    (Issues stY (.yield (longForm 0 0 0 0)) 0 cxY ∧
      addressesOf ((runnables cxY.grp cxY.warp).filter fun t => t.tid ∉ cxY.setTids) = [0x10008]) ∧
    addressesOf ((runnables cx.grp cx.warp).filter fun t => t.tid ∉ cx.setTids) = [] := by
  refine ⟨⟨issues_of ?_, ?_⟩, ?_⟩ <;> decide +kernel

/-! ### Accesses that meet conditions -/

/-- Threads at addresses: 0x10000, one that is not present, one that is not canonical. -/
def at_ (tid : Nat) (lo hi : BitVec 32) : Thread := { th tid with regs := [(6, lo), (7, hi)] }
def tsSome : List Thread := [at_ 0 0x10000 0, at_ 1 0x30000 0]
def tsAll : List Thread := [at_ 0 0 0x80000000, at_ 1 0x30000 0]
def sX (ts : List Thread) : State := sNP (mk ts)

/-- Whether accesses meet conditions, none waits, and these threads fault. -/
def meetsX (ls : List Lane) (tids : List Nat) : Bool := (ls.all fun l => l.dec != .waits) && (faulting ls == tids)

theorem wit_AccessesMeetConditions :
    (∀ x ∈ [(tsSome, [1]), (tsAll, [0, 1])],
      Issues (sX x.1) (.ld (fa 12 (ty 7) 0)) 0 (cxOf x.1) ∧
      meetsX ((cxOf x.1).decideLanes (sX x.1) (effAddr (fa 12 (ty 7) 0)) (fun _ => 4) 1 .load).1 x.2 = true ∧
      Issues (sX x.1) (.ldg (fa 12 (ty 7) 7)) 0 (cxOf x.1) ∧
      meetsX ((todo (cxOf x.1) 7).decideLanes (sX x.1) (effAddr (fa 12 (ty 7) 7)) (fun _ => 4) 1 .load).1 x.2 = true ∧
      Issues (sX x.1) (.atom .add (fa 12 (ty 11) 4)) 0 (cxOf x.1) ∧
      (∀ r, r = (cxOf x.1).decideLanes (sX x.1) (effAddr (fa 12 (ty 11) 4)) (fun _ => 4) 4 .store →
        meetsX r.1 x.2 = true ∧ (cxOf x.1).releaseWaits r.2 0 r.1 = false) ∧
      Issues (sX x.1) (.st (fa 0 (ty 7) 4)) 0 (cxOf x.1) ∧
      (∀ r, r = (cxOf x.1).decideParts (sX x.1) ((cxOf x.1).storeParts (sX x.1) (effAddr (fa 0 (ty 7) 4)) 4) 1 .store →
        meetsX r.1 x.2 = true ∧ (cxOf x.1).releaseWaits r.2 0 r.1 = false) ∧
      Issues (sX x.1) (.stg (fa 7 (ty 7) 4)) 0 (cxOf x.1) ∧
      (∀ r, r = (todo (cxOf x.1) 7).decideParts (sX x.1) ((todo (cxOf x.1) 7).storeParts (sX x.1) (effAddr (fa 7 (ty 7) 4)) 4) 1
        .store → meetsX r.1 x.2 = true ∧ (cxOf x.1).releaseWaits r.2 0 r.1 = false)) ∧
    ((cxOf tsSome).without [1]).act ≠ [] ∧ ((cxOf tsAll).without [0, 1]).act = [] ∧
    Legal (cxOf tsSome) (fa 12 (ty 7) 0) false [(6, true), (0x110, false)] ∧
    Legal (cxOf tsAll) (fa 12 (ty 7) 0) false [(6, true), (0x110, false)] := by
  refine ⟨?_, by decide +kernel, by decide +kernel, by unfold Legal; decide +kernel, by unfold Legal; decide +kernel⟩
  intro x hx
  simp only [List.mem_cons, List.not_mem_nil, or_false] at hx
  rcases hx with rfl | rfl
  all_goals exact ⟨issues_of (by decide +kernel), by decide +kernel, issues_of (by decide +kernel), by decide +kernel,
    issues_of (by decide +kernel), fun r h => by subst h; decide +kernel, issues_of (by decide +kernel),
    fun r h => by subst h; decide +kernel, issues_of (by decide +kernel), fun r h => by subst h; decide +kernel⟩

/-- Page 2 mapped onto itself in a window that is being disabled, and page 3 onto peers' memory in stripes of 4 KiB, of which
only the even ones belong to a member. -/
def sDec : State := { sWin true false false with
  mm := { (sWin true false false).mm with
    tlb := [⟨0, 0, 2, 0x20000, true, true, false, true⟩, ⟨0, 0, 3, peerBase, true, true, false, true⟩] }
  fab := { st.fab with sg := 12, sn := 2, members := [(0, 0x80000001)] } }
def errIs (c : Nat) (r : Except Nat (Nat × Bool × State)) : Bool := match r with
  | .error e => e == c
  | .ok _ => false
def okAt (f : Nat → State → Bool) (r : Except Nat (Nat × Bool × State)) : Bool := match r with
  | .error _ => false
  | .ok x => f x.1 x.2.2

theorem wit_TranslationFrame_decides :
    canonical 0x8000000000000000 = false ∧ (canonical 0x10002 = true ∧ (0x10002 : W64).toNat % 4 ≠ 0) ∧
    (canonical 0x30000 = true ∧ (0x30000 : W64).toNat % 4 = 0) ∧
    errIs 0x33 (translate st 0 0 0 0x30000 4 .load) = true ∧ errIs 0x20 (translate (sNP st) 0 0 0 0x30000 4 .load) = true ∧
    errIs 0 (translate { sNP st with host := HostIf.reset } 0 0 0 0x30000 4 .load) = true ∧
    okAt (fun p _ => ((List.range 2).all fun j => (locOf sDec.fab (p + j)).isSome) && (locOf sDec.fab (p + 2)).isNone)
      (translate sDec 0 0 0 0x30FFE 4 .load) = true ∧
    okAt (fun p _ => ((List.range 4).all fun j => (locOf sDec.fab (p + j)).isSome) &&
        (locOf sDec.fab (p + 0)).any fun l => windowBusy sDec.mm l) (translate sDec 0 0 0 0x20000 4 .load) = true := by
  decide +kernel

/-- Two threads of one warp that meet a class 3 condition on one page. -/
def hs2 : List Held3 := [⟨0, 0x20, 0x30004⟩, ⟨1, 0x20, 0x30000⟩]

theorem wit_TranslationFrame_records :
    (hs2.head? = some ⟨0, 0x20, 0x30004⟩ ∧ (∀ x ∈ hs2, x.tid / 32 = 0 / 32 ∧ pageOf x.addr = pageOf (0x30004 : W64)) ∧
      (∃ x ∈ hs2, x.addr = 0x30000) ∧ ∀ x ∈ hs2, (0x30000 : W64).toNat ≤ x.addr.toNat) ∧
    (hs2.map (·.tid)).Nodup ∧ ((groupOf (record3 st (gr [th 0, th 1]) 0x10000 0 false hs2).2 ⟨1, 0⟩).isSome = true) ∧
    ([((0 : Nat), (0x34 : Nat), (0 : W64))] ≠ [] ∧ ∀ b ∈ [((0 : Nat), (0x34 : Nat), (0 : W64))], b.2.1 = 0x34) := by
  decide +kernel

theorem wit_TrapEntry_premises :
    (∃ s', checkTarget (sH 0x10000 [th 0, th 1]) (gH 0x10000 [th 0, th 1]) 0x10000 true = (.ok, s') ∧
      (groupOf s' ⟨1, 0⟩).isSome = true) ∧
    (∀ x ∈ [(⟨0, 1, 1, true, 0x10004, 0x10004, 0, 0⟩ : Charge)], x.cls ∈ [1, 2, 4, 5, 6, 7, 8] ∧ x.cls ∈ [1, 2, 4, 5, 7]) ∧
    groupOf (sH 0 (thH 1)) ⟨1, 0⟩ = some (gH 0 (thH 1)) ∧ onCore (gH 0 (thH 1)) = true ∧
    groupOf (sH 0 [th 0, th 1]) ⟨1, 0⟩ = some (gH 0 [th 0, th 1]) ∧ onCore (gH 0 [th 0, th 1]) = true := by
  refine ⟨?_, by decide +kernel⟩
  have h := fst_is (x := checkTarget (sH 0x10000 [th 0, th 1]) (gH 0x10000 [th 0, th 1]) 0x10000 true) (a := .ok)
    (by decide +kernel)
  obtain ⟨s', h⟩ := h
  refine ⟨s', h, ?_⟩
  have e : s' = (checkTarget (sH 0x10000 [th 0, th 1]) (gH 0x10000 [th 0, th 1]) 0x10000 true).2 := by rw [h]
  rw [e]
  decide +kernel

theorem wit_owner_fits : ownG.saveHold = none ∧
    ownerFits (sAd .below) (hlpG .below) (groupWarps ownG) (groupBytes ownG) = true := by decide +kernel

/-- The machine whose bolter stands in the first row of a task of two. -/
def sB2 : State := updRun (sB 0) 0 0 fun r => { r with task := { r.task with img := overlay r.task.img 0x20 (natLe 2 1) } }

theorem wit_BolterOperations_rows : (∀ x ∈ (cB 0).b.stores, x.busy (sB 0).mm = none) ∧
    ∃ c, bctxOf sB2 = some c ∧ c.b.row + 1 < 128 * c.b.pass + (c.r.task.passRows c.b.pass).length := by
  refine ⟨by decide +kernel, ?_⟩
  have h : ((bctxOf sB2).any fun c => decide (c.b.row + 1 < 128 * c.b.pass + (c.r.task.passRows c.b.pass).length)) = true := by
    decide +kernel
  cases hc : bctxOf sB2 with
  | none => rw [hc] at h; cases h
  | some c =>
    rw [hc] at h
    exact ⟨c, rfl, by simpa using h⟩

/-- A group that resumes with a held thread to present, and one that has none. -/
def gPres : Group := { gw .run .exited with present := [0] }

theorem wit_GroupHappenings_presents :
    groupOf (sP gPres ga) ⟨1, 0⟩ = some gPres ∧ onCore gPres = true ∧ gPres.present ≠ [] ∧
    (gw .run .exited).present = [] ∧ helperDue (sP (gw .run .exited) ga) (gw .run .exited) = false := by decide +kernel

theorem wit_MemoryHappenings_writes :
    st.fab.waits = [] ∧ homeWaits { st with host := HostIf.reset } [0x10000] = true ∧
    homeWaits { st with host := HostIf.reset } ((List.range 4).map (0x10000 + ·)) = true ∧
    (∀ k ∈ underWay (sMM fun m => { m with xliCtl := 0x80000000 }), k ∉ (sMM fun m => { m with xliCtl := 0x80000000 }).mm.xliWait) := by
  decide +kernel

/-- An operand that is not legal: an odd register as a pair. -/
theorem wit_IllegalAndInactive_operands :
    (guardOf (.iadd ⟨0, 12, false, 3, 4, 0, ty 8, none⟩) = some 0 ∧ (Instr.iadd ⟨0, 12, false, 3, 4, 0, ty 8, none⟩).wf = true ∧
      operandsLegal st cx (.iadd ⟨0, 12, false, 3, 4, 0, ty 8, none⟩) = false) ∧
    (Arrives st (.iadd (f2 (ty 7))) 0 cx ∧ operandsLegal st cx (.iadd (f2 (ty 7))) = true ∧
      ∀ t ∈ cx.act, ∀ r ∈ readRegs (.iadd (f2 (ty 7))) t, r ∉ t.rbad) ∧
    (operandsLegal (mk [tB, th 1]) (cxOf [tB, th 1]) (.iadd (f2 (ty 7))) = true ∧
      ((cxOf [tB, th 1]).act.filter fun t => (readRegs (.iadd (f2 (ty 7))) t).any t.rbad.contains) = [tB] ∧
      ((cxOf [tB, th 1]).without [0]).act ≠ []) ∧
    (Arrives (mk [tB]) (.iadd (f2 (ty 7))) 0 (cxOf [tB]) ∧ operandsLegal (mk [tB]) (cxOf [tB]) (.iadd (f2 (ty 7))) = true ∧
      ((cxOf [tB]).without [0]).act = []) := by
  refine ⟨by decide +kernel, ⟨⟨?_, ?_, ?_⟩, ?_, ?_⟩, by decide +kernel, ⟨?_, ?_, ?_⟩, ?_, ?_⟩ <;> decide +kernel

/-! ## Ill-formed terms: one for each check -/

/-- Each check of the well-formedness refuses a term, and the same term without the fault passes. -/
theorem test_wf_fields :
    (Instr.iadd (f2 (ty 7))).wf = true ∧
    (Instr.iadd { f2 (ty 7) with g := 8 }).wf = false ∧
    (Instr.nopS 3).wf = false ∧
    (Instr.brx ⟨0, 1, false, 6, 0, 0, 0, none⟩).wf = false ∧
    (Instr.fence ⟨0, 0, false, 6, 0, 0, 0, none⟩).wf = false ∧
    (Instr.iabs (f2 (ty 7))).wf = false ∧
    (Instr.iadd (f3 (ty 7))).wf = false ∧
    (Instr.icmp ⟨0, 1, true, 2, 4, 0, ty 7, none⟩).wf = false ∧
    (Instr.kand ⟨0, 1, false, 2, litCode, 0, 0, some 9⟩).wf = false ∧
    (Instr.iadd { f2 (ty 7) with lit := some 9 }).wf = false ∧
    (Instr.iadd { f2 (ty 7) with sb := litCode, lit := some 9 }).wf = true ∧
    (Instr.movl ⟨0, 12, false, 2, 4, 0, ty 4, none⟩).wf = false := by decide +kernel

theorem test_wf_modifiers :
    (Instr.iadd (f2 (ty 13))).wf = false ∧ (Instr.and (f2 (ty 7))).wf = false ∧ (Instr.and (f2 (ty 3 1))).wf = false ∧
    (Instr.iadd (f2 (ty 3 1))).wf = false ∧ (Instr.iadd (f2 (ty 7 2))).wf = false ∧
    (Instr.lea (f2 (ty 7 5))).wf = false ∧ (Instr.icmp ⟨0, 1, false, 2, 4, 0, ty 7 6, none⟩).wf = false ∧
    (Instr.icmp ⟨0, 1, false, 2, 4, 0, ty 3 2, none⟩).wf = false ∧ (Instr.icmp ⟨0, 1, false, 2, 4, 0, ty 7 24, none⟩).wf = false ∧
    (Instr.icmp ⟨0, 1, false, 2, 4, 2, ty 7 0, none⟩).wf = false ∧
    (Instr.cvts .rn (f2 (ty 7 15))).wf = false ∧ (Instr.cvt .rn (f1 (ty 1 15))).wf = false ∧
    (Instr.unpack4 ⟨0, 12, true, 2, 0x110, 0, ty 15 17, none⟩).wf = false ∧
    (Instr.lscan (f1 (ty 7 24))).wf = false ∧ (Instr.lred (f1 (ty 7 3))).wf = false ∧ (Instr.lred (f1 (ty 3 3))).wf = true ∧
    (Instr.ld (fa 12 (ty 7 1) 0)).wf = false ∧ (Instr.ld (fa 12 (ty 17) 0)).wf = false ∧
    (Instr.mbpeek ⟨0, 12, false, 2, 0, 0, 8, none⟩).wf = false ∧ (Instr.waitc (fm (ty 7 2) 6)).wf = false ∧
    (Instr.strel (fa 0 (ty 11 0x18) 4)).wf = false ∧ (Instr.atom .cas { fa 12 (ty 3) 4 with w := true }).wf = false := by
  decide +kernel

theorem test_wf_ranges :
    (Instr.hintS 3 15 0).wf = true ∧     (Instr.bcolv 1 4 false).wf = false ∧ (Instr.bscale 1 2 8).wf = false ∧ (Instr.bscale 1 2 2).wf = false ∧
    (Instr.stailWrite 4096 0).wf = false ∧ (Instr.rqRetry 8 0).wf = false ∧ (Instr.groupComplete 1 16).wf = false ∧
    (Instr.groupResume 1 0 1024).wf = false ∧ (Instr.taskIssue 128).wf = false ∧ (Instr.kStep 0 2).wf = false ∧
    (Instr.windowEnable 16 0).wf = false ∧ (Instr.controllerBoot 136 fw).wf = false ∧
    (Instr.fabAccess (some 576) 0 .recall).wf = false ∧ (Instr.codeTableRefresh 0 [] [] []).wf = false ∧
    (Instr.nodeThrottle 1024 0).wf = false := by decide +kernel

/-! ## Words that the manual prints -/

/-- 04 Table 4.14: the parcels of the line, its parity and its format. -/
def line414 : Bytes :=
  ([0x00020900, 0x00018844, 0x140A0A81, 0x18000888, 0x08004081, 0x38005020, 0x00000080] ++ List.replicate 8 0 ++ [0x0C030010]
    : List Nat).flatMap (natLe 4)

theorem test_manual_line :
    decode 0x00020900 0 0 = .ok (.meetS ⟨0, 4⟩) ∧ decode 0x00018844 0 0 = .ok (.braS ⟨17, 3⟩) ∧
    decode 0x140A0A81 0x18000888 0 = .ok (.shl ⟨0, 5, false, 5, 0x111, 0, ty 3, none⟩) ∧
    decode 0x08004081 0x38005020 0 = .ok (.st ⟨0, 0, false, 2, 4, 5, ty 7, none⟩) ∧
    decode 0x00000080 0 0 = .ok (.exitS 0) ∧ decode 0 0 0 = .ok (.nopS 0) ∧
    parityOk line414 = true ∧ lineFormatOk line414 = true ∧
    beginsInstr line414 0x10008 = true ∧ beginsInstr line414 0x1000C = false ∧
    markedTarget line414 0x10010 = true ∧ markedTarget line414 0x10008 = false := by decide +kernel

/-- 07 Table 7.3, 28 Table 28.3, and the examples of 09, 15, 16, 17, 18 and 26. -/
theorem test_manual_words :
    decode 0x14020F81 0x38400880 0 = .ok (.icmp ⟨0, 1, false, 5, 0x110, 0, ty 7 2, none⟩) ∧
    decode 0x080A0182 0x38000BF8 0xFFFFFF81 = .ok (.iadd ⟨0, 5, false, 2, 0x17F, 0, ty 7, some 0xFFFFFF81⟩) ∧
    decode 0x54003801 0x00000004 0 = .ok (.trap ⟨0, 0, false, 0x115, 0, 0, 0, none⟩) ∧
    decode 0x00000200 0 0 = .ok (.tretS 0) ∧ decode 0x00000280 0 0 = .ok (.pdoneS 0) ∧
    decode 0x08006045 0x050048B8 0 = .ok (.evpost ⟨17, 0, false, 2, 0x117, 4, 0x28, none⟩) ∧
    decode 0x08106101 0x00004880 0 = .ok (.amload ⟨0, 8, false, 2, 0x110, 4, 0, none⟩) ∧
    decode 0x18046181 0 0 = .ok (.amarm ⟨0, 2, false, 6, 0, 0, 0, none⟩) ∧
    decode 0x18046201 0x00400000 0 = .ok (.amdisarmFree ⟨0, 2, false, 6, 0, 0, 2, none⟩) ∧
    decode 0x40006401 0x00000890 0 = .ok (.bequeath ⟨0, 0, false, 16, 0x112, 0, 0, none⟩) ∧
    decode 0x20026601 0x00400880 0 = .ok (.ownSelf ⟨0, 1, false, 8, 0x110, 0, 2, none⟩) ∧
    decode 0x20086701 0x00000880 0 = .ok (.helpq ⟨0, 4, false, 8, 0x110, 0, 0, none⟩) := by decide +kernel

/-- Whether words are an instruction that is not well formed. -/
def isIll : Except Reject Instr → Bool
  | .error (.illFormed _) => true
  | _ => false

/-- Scope code 5 is illegal for `AMLOAD`; scope code 7 is not for `STREL`, but 3 is. -/
theorem test_manual_illegal :
    isIll (decode 0x08106101 0x05004880 0) = true ∧ isIll (decode 0x28007001 0x2000C880 0) = false ∧
    isIll (decode 0x28007001 0x2700C880 0) = false ∧ isIll (decode 0x28007001 0x2300C880 0) = true := by decide +kernel

/-- 23 Table 23.9. -/
theorem test_manual_bolter :
    decodeBolter 0x08000000 = .ok (.bld 0 false) ∧ decodeBolter 0x14800000 = .ok (.bcolv 1 0 false) ∧
    decodeBolter 0x1C020000 = .ok (.badd 0 0 1) ∧ decodeBolter 0x11000000 = .ok (.bconst 2 0) ∧
    decodeBolter 0x24040000 = .ok (.bmul 0 0 2) ∧ decodeBolter 0x50000001 = .ok (.bsto 0 0 1) ∧
    decodeBolter 0 = .ok .bend := by decide +kernel

/-! ## Results that the manual prints -/

/-- v12 of thread 0 after an instruction on v2 = `a`, v4 = `b`. -/
def out (i : Instr) (a b : W32) : Option W32 :=
  match exec i (mk [{ th 0 with regs := [(2, a), (4, b)] }]) with
  | .next s => ((groupOf s ⟨1, 0⟩).bind fun g => g.threads.head?).map fun t => tget 0#32 t.regs 12
  | _ => none

/-- 07 Table 7.2. -/
theorem test_division :
    out (.idiv (f2 (ty 7))) 7 (-2) = some (-3) ∧ out (.irem (f2 (ty 7))) 7 (-2) = some 1 ∧
    out (.idiv (f2 (ty 7))) (-7) 2 = some (-3) ∧ out (.irem (f2 (ty 7))) (-7) 2 = some (-1) ∧
    out (.idiv (f2 (ty 7))) 5 0 = some 0xFFFFFFFF ∧ out (.irem (f2 (ty 7))) 5 0 = some 5 ∧
    out (.idiv (f2 (ty 7))) 0x80000000 (-1) = some 0x80000000 ∧ out (.irem (f2 (ty 7))) 0x80000000 (-1) = some 0 ∧
    out (.idiv (f2 (ty 11))) 0xFFFFFFFF 0 = some 0xFFFFFFFF := by decide +kernel

/-- 07 R118 to R120: a shift by the width, `SAR` of -1, a rotation by the width and one, `BFX.i32` of pos 28 and len 8,
`CLZ` of 0. -/
theorem test_shifts_fields :
    out (.shl (f2 (ty 3))) 1 32 = some 0 ∧ out (.sar (f2 (ty 3))) (-1) 40 = some (-1) ∧ out (.rol (f2 (ty 3))) 1 33 = some 2 ∧
    out (.bfx (f2 (ty 7))) 0xF0000000 (28 + 256 * 8) = some 0xF ∧ out (.clz (f1 (ty 3))) 0 0 = some 32 := by decide +kernel

/-- 05 R76, 08 R148: 470.0 to E4M3 is NaN, or, with `.sat`, the largest finite value; 460.0 rounds to 448. -/
theorem test_narrow_conversions :
    out (.cvt .rn (f1 (ty 17 15))) 0x43EB0000 0 = some 0x7F ∧ out (.cvt .rn (f1 (ty 17 47))) 0x43EB0000 0 = some 0x7E ∧
    out (.cvt .rn (f1 (ty 17 15))) 0x43E60000 0 = some 0x7E := by decide +kernel

/-- 19 Table 19.1: the image is not malformed and has `0x120` bytes. -/
def pairauto : Bytes :=
  ([(0x00, 0x414D0001), (0x04, 0x000A2222), (0x08, 0x00010004), (0x10, 0x00001000), (0x14, 3), (0x48, 0x80000000), (0x4C, 0xB),
    (0xC0, 0x00011010), (0xC4, 0xFFFF0001), (0xE0, 0x101), (0xE4, 0xFFFF0003), (0x100, 0x3C01), (0x104, 0xFFFF0002), (0x110, 8),
    (0x114, 0xA)] : List (Nat × Nat)).foldl (fun b x => overlay b x.1 (natLe 4 x.2)) (zeros 0x120)

theorem test_automaton_image :
    malformed pairauto = none ∧ imBytes pairauto = 0x120 ∧ imEdges pairauto = 3 ∧ imStates pairauto = 2 ∧ imQuota pairauto = 4 ∧
    imUnit pairauto = 1024 ∧ (imEdge pairauto 0).from_ = 0 ∧ (imEdge pairauto 0).to = 1 ∧ (imEdge pairauto 2).acc = true := by
  decide +kernel

/-- The placed instruction is the one that the next step runs: a short `MOV v2, 5`, of `opc` 0x20 and `sa` 0x115. -/
theorem test_step_runs_placed :
    (match step (State.withFetchWord State.reset 32 (2 * 2 ^ 24 + 0x115 * 2 ^ 15 + 0x1000)) with
    | .next s => (groupOf s ⟨1, 0⟩).bind fun g => g.threads.head?
    | _ => none).map (fun t : Thread => (t.pc, tget 0#32 t.regs 2)) = some (0x10004, 5) := by decide +kernel

end Sys2Proof.Tests
end

section
/-! The happenings that the host and the controllers bring about (O54): attestation, the start of an image, bring-up, writes of
registers by their places, and the reset of the device. -/

namespace Sys2Proof.Machine

open Sys2Proof

/-! ## The happenings' meanings -/

theorem exec_attestRequest (s : State) : exec .attestRequest s = execAttestRequest s := rfl

theorem exec_controllerBoot (ctl : Nat) (img : FwImage) (s : State) :
    exec (.controllerBoot ctl img) s = execControllerBoot ctl img s := rfl

theorem exec_functionReady (f : DevFn) (s : State) : exec (.functionReady f) s = execFunctionReady f s := rfl

theorem exec_bringupFail (f : DevFn) (s : State) : exec (.bringupFail f) s = execBringupFail f s := rfl

theorem exec_fstripeWrite (v : W32) (s : State) : exec (.fstripeWrite v) s = execFstripeWrite v s := rfl

theorem exec_registerWrite (bar off : Nat) (v : W32) (s : State) :
    exec (.registerWrite bar off v) s = execRegisterWrite bar off v s := rfl

/-! ## The attestation report (27 Table 27.8) -/

@[simp] theorem length_le32 (w : W32) : (le32 w).length = 4 := length_natLe 4 _

@[simp] theorem length_openBytes (key n : Nat) : (openBytes key n).length = n := by simp [openBytes]

@[simp] theorem length_digest (b : Bytes) : (digest b).length = 48 := by simp [digest]

/-- The bytes of the nonce, as the host wrote them. -/
def nonceBytes (s : State) : Bytes := ((List.range 12).map fun i => le32 (tget 0#32 s.host.nonce i)).flatten

@[simp] theorem length_nonceBytes (s : State) : (nonceBytes s).length = 48 := by
  simp [nonceBytes, List.length_flatten, Function.comp_def]

/-- The key's digest and the three measurements, which stand between the fused minimum and the nonce. -/
def reportDigests (s : State) : Bytes :=
  openBytes 0 48 ++ digest (imageInUse s 0 8) ++ digest (imageInUse s 8 128) ++ digest (configBytes s)

@[simp] theorem length_reportDigests (s : State) : (reportDigests s).length = 192 := by simp [reportDigests]

theorem attestReport_parts (s : State) : attestReport s =
    (natLe 4 0x41540001 ++ le32 s.host.fused) ++ reportDigests s ++ (nonceBytes s ++ natLe 8 (nowNs s)) ++
      openBytes (s.sch.free + 1) 96 := by
  simp [attestReport, reportDigests, nonceBytes]

theorem length_attestReport (s : State) : (attestReport s).length = 352 := by simp [attestReport_parts]

theorem attestReport_take_head (s : State) :
    (attestReport s).take 8 = natLe 4 0x41540001 ++ le32 s.host.fused := by
  rw [attestReport_parts, List.append_assoc, List.append_assoc]
  exact List.take_left' (by simp)

theorem attestReport_drop_digests (s : State) :
    (attestReport s).drop 200 = (nonceBytes s ++ natLe 8 (nowNs s)) ++ openBytes (s.sch.free + 1) 96 := by
  rw [attestReport_parts, List.append_assoc]
  exact List.drop_left' (by simp)

theorem attestReport_fresh (s : State) :
    ((attestReport s).drop 200).take 56 = nonceBytes s ++ natLe 8 (nowNs s) := by
  rw [attestReport_drop_digests]
  exact List.take_left' (by simp)

/-! ## The start of an image (27 R402) -/

theorem imageVerifies_iff (fused : W32) (ctl : Nat) (img : FwImage) : imageVerifies fused ctl img = true ↔
    img.magic = 0x46570001 ∧ img.kind = (if ctl < 8 then 1 else 2) ∧ fused.toNat ≤ img.sv.toNat ∧
      img.rsvZero = true ∧ img.ecdsaOk = true ∧ img.lmsOk = true := by
  simp [imageVerifies, and_assoc]

section
variable {s : State} {ctl : Nat} {img : FwImage}

/-- A controller that has neither failed nor started has its image checked. -/
theorem controllerBoot_idle (hf : ctlFn ctl ∉ s.host.failed) (hr : ctlFn ctl ∉ s.host.ready)
    (hn : tfind s.host.running ctl = none) : exec (.controllerBoot ctl img) s =
      .next (if imageVerifies s.host.fused ctl img then startImage s ctl img else setFailed s (ctlFn ctl)) := by
  simp [exec_controllerBoot, execControllerBoot, isReady, hf, hr, hn]

theorem startImage_running : tfind (startImage s ctl img).host.running ctl = some img := by
  simp [startImage, tfind_tput]

theorem startImage_fused : (startImage s ctl img).host.fused =
    if s.host.fused.toNat < img.minv.toNat then img.minv else s.host.fused := rfl

theorem startImage_mm : (startImage s ctl img).mm = s.mm := rfl

end

/-! ## Functions that become ready or fail (01 R19, 27 R391) -/

section
variable {s : State} {f : DevFn}

theorem functionReady_idle (hr : f ∉ s.host.ready) (hf : f ∉ s.host.failed) :
    exec (.functionReady f) s = .next (if readyDue s f then afterReady (setReady s f true) f else s) := by
  cases hd : readyDue s f <;> simp [exec_functionReady, execFunctionReady, isReady, hr, hf, hd]

theorem bringupFail_other (hr : f ∉ s.host.ready) (hf : f ∉ s.host.failed) (hk : ∀ k, f ≠ .channel k) :
    exec (.bringupFail f) s = .next (setFailed s f) := by
  cases f with
  | channel k => exact absurd rfl (hk k)
  | _ => simp [exec_bringupFail, execBringupFail, isReady, hr, hf]

theorem bringupFail_channel {k : Nat} (hr : DevFn.channel k ∉ s.host.ready) (hf : DevFn.channel k ∉ s.host.failed) :
    exec (.bringupFail (.channel k)) s = .next (homesFree (setFailed s (.channel k))) := by
  simp [exec_bringupFail, execBringupFail, isReady, hr, hf]

end

/-! ## Writes of registers by their places (00 R4, 01 Table 1.8) -/

section
variable (s : State) (v : W32)

theorem registerWrite_unaligned {off : Nat} (h : off % 4 ≠ 0) (bar : Nat) :
    exec (.registerWrite bar off v) s = .next s := by
  simp [exec_registerWrite, execRegisterWrite, h]

theorem registerWrite_stream {n r : Nat} (hn : n < 4096) (hr : r < 0x1000) (h4 : r % 4 = 0) :
    exec (.registerWrite 0 (0x1000 * n + r) v) s = .next (streamReg n r v s) := by
  have hal : (0x1000 * n + r) % 4 = 0 := by omega
  have hlt : 0x1000 * n + r < 0x1000000 := by omega
  have hdiv : (0x1000 * n + r) / 0x1000 = n := by omega
  have hmod : (0x1000 * n + r) % 0x1000 = r := by omega
  simp only [exec_registerWrite, execRegisterWrite, hal, hlt, hdiv, hmod, ne_eq, not_true_eq_false, if_true, if_false]

theorem registerWrite_control {o : Nat} (h4 : o % 4 = 0) :
    exec (.registerWrite 0 (0x1000000 + o) v) s = .next (controlReg o v s) := by
  have hal : (0x1000000 + o) % 4 = 0 := by omega
  have hge : ¬ 0x1000000 + o < 0x1000000 := by omega
  have hsub : 0x1000000 + o - 0x1000000 = o := by omega
  simp only [exec_registerWrite, execRegisterWrite, hal, hge, hsub, ne_eq, not_true_eq_false, if_false]

theorem registerWrite_asn {o : Nat} (h4 : o % 4 = 0) : exec (.registerWrite 16 o v) s = .next (asnReg o v s) := by
  simp only [exec_registerWrite, execRegisterWrite, h4, ne_eq, not_true_eq_false, if_false]

theorem controlReg_sched {die r : Nat} (hd : die < 8) (hr : r < 0x200) :
    controlReg (0x6000 + 0x200 * die + r) v s = schedReg die r v s := by
  have hdiv : (0x6000 + 0x200 * die + r - 0x6000) / 0x200 = die := by omega
  have hmod : (0x6000 + 0x200 * die + r) % 0x200 = r := by omega
  simp only [controlReg, Bool.and_eq_true, decide_eq_true_eq]
  rw [if_neg (by omega), if_neg (by omega), if_neg (by omega), if_pos (by omega), hdiv, hmod]

theorem controlReg_attest {r : Nat} (hr : r < 0x100) : controlReg (0xC000 + r) v s = attestReg r v s := by
  have hsub : 0xC000 + r - 0xC000 = r := by omega
  simp only [controlReg, Bool.and_eq_true, decide_eq_true_eq]
  rw [if_neg (by omega), if_neg (by omega), if_neg (by omega), if_neg (by omega), if_neg (by omega), if_neg (by omega),
    if_neg (by omega), if_pos (by omega), hsub]

theorem controlReg_port {r : Nat} (hr : r < 0x18) :
    controlReg (0xE000 + r) v s = { s with host := { s.host with port := portReg r v s.host.port } } := by
  have hsub : 0xE000 + r - 0xE000 = r := by omega
  simp only [controlReg, Bool.and_eq_true, decide_eq_true_eq]
  rw [if_neg (by omega), if_neg (by omega), if_neg (by omega), if_neg (by omega), if_neg (by omega), if_neg (by omega),
    if_neg (by omega), if_neg (by omega), if_neg (by omega), if_pos (by omega), hsub]

theorem registerWrite_tail {n : Nat} (hn : n < 4096) :
    exec (.registerWrite 0 (0x1000 * n) v) s = .next (updStream s n (tailWrite v)) :=
  registerWrite_stream s v hn (r := 0) (by decide) rfl

theorem registerWrite_lstate {die : Nat} (hd : die < 8) : exec (.registerWrite 0 (0x1006000 + 0x200 * die) v) s =
    .next (updDie s die fun d => { d with lstate := if v = 0 then 1 else v }) := by
  have hoff : 0x1006000 + 0x200 * die = 0x1000000 + (0x6000 + 0x200 * die + 0) := by omega
  rw [hoff, registerWrite_control s v (by omega), controlReg_sched s v hd (by decide)]
  rfl

theorem registerWrite_nonce {i : Nat} (hi : i < 12) : exec (.registerWrite 0 (0x100C000 + 4 * i) v) s =
    .next { s with host := { s.host with nonce := tset 0#32 s.host.nonce i v } } := by
  have hoff : 0x100C000 + 4 * i = 0x1000000 + (0xC000 + 4 * i) := by omega
  have hlt : 4 * i < 0x30 := by omega
  have hdiv : 4 * i / 4 = i := by omega
  rw [hoff, registerWrite_control s v (by omega), controlReg_attest s v (by omega), attestReg, if_pos hlt, hdiv]

theorem registerWrite_port {i : Nat} (hi : i < 6) : exec (.registerWrite 0 (0x100E000 + 4 * i) v) s =
    .next { s with host := { s.host with port := portReg (4 * i) v s.host.port } } := by
  have hoff : 0x100E000 + 4 * i = 0x1000000 + (0xE000 + 4 * i) := by omega
  rw [hoff, registerWrite_control s v (by omega), controlReg_port s v (by omega)]

theorem portReg_locked {p : Port} (hg : p.go = true) (r : Nat) : portReg r v p = p := by simp [portReg, hg]

theorem portReg_command {p : Port} (hg : p.go = false) : portReg 0x10 v p =
    { p with hop := v &&& 7, orsv := decide (v.toNat / 2 ^ 3 % 2 ^ 28 ≠ 0), go := v.getLsbD 31 } := by
  simp [portReg, hg, bits, bit, BitVec.testBit_toNat, bne, beq_eq_decide]

theorem asnReg_low {n : Nat} (hn : n < 4096) : asnReg (16 * n) v s = { s with mm := { s.mm with
    asnTab := tset 0#64 s.mm.asnTab n (hi32 (tget 0#64 s.mm.asnTab n) ++ v) } } := by
  have hdiv : 16 * n / 16 = n := by omega
  have hmod : 16 * n % 16 = 0 := by omega
  simp [asnReg, hdiv, hmod, hn, setHalf, join64]

theorem stripeWrite_fields (f : Fabric) : stripeWrite v.toNat f = { f with
    sg := if 12 ≤ v.toNat / 2 ^ 21 % 32 ∧ v.toNat / 2 ^ 21 % 32 ≤ 30 then v.toNat / 2 ^ 21 % 32 else f.sg
    sn := if v.toNat % 2 ^ 10 ≤ 576 then v.toNat % 2 ^ 10 else f.sn } := by
  have hsg : bits v.toNat 21 5 = v.toNat / 2 ^ 21 % 32 := rfl
  have hsn : bits v.toNat 0 10 = v.toNat % 2 ^ 10 := by simp [bits]
  simp only [stripeWrite, hsg, hsn, Bool.and_eq_true, decide_eq_true_eq]

end

/-! ## The statement -/

/-- Settles O54, from the lemmas above, one for each happening and each register. -/
theorem hostHappenings : Obligations.HostHappenings := by
  unfold Obligations.HostHappenings
  intro s n ctl off v f img
  refine ⟨?attest, ?boot, ?bringUp, ?stripe, rfl, fun h => registerWrite_unaligned s v h 0, registerWrite_tail s v,
    registerWrite_lstate s v, registerWrite_nonce s v, ?portLocked, ?portCommand, ?asn, ?reset⟩
  case attest =>
    exact ⟨_, exec_attestRequest s, rfl, length_attestReport s, attestReport_take_head s, attestReport_fresh s⟩
  case boot =>
    intro hf hr hn
    rw [controllerBoot_idle hf hr hn]
    constructor
    · intro himg
      rw [if_pos ((imageVerifies_iff ..).2 himg)]
      exact ⟨_, rfl, startImage_running, startImage_fused, startImage_mm⟩
    · intro hbad
      have hno : ¬ imageVerifies s.host.fused ctl img = true := by
        rw [imageVerifies_iff]
        rintro ⟨hmagic, -, hsv, hrsv, hecdsa, hlms⟩
        simp [hmagic, hrsv, hecdsa, hlms, Nat.not_lt.2 hsv] at hbad
      rw [if_neg hno]
  case bringUp =>
    intro hr hf
    rw [functionReady_idle hr hf]
    refine ⟨fun hd => by rw [if_pos hd], fun hd => by simp [hd], bringupFail_other hr hf, ?_⟩
    rintro k rfl
    exact bringupFail_channel hr hf
  case stripe => rw [exec_fstripeWrite, execFstripeWrite, stripeWrite_fields]
  case portLocked =>
    intro hg hn
    rw [registerWrite_port s v hn, portReg_locked v hg]
  case portCommand =>
    intro hg
    exact (registerWrite_port s v (i := 4) (by decide)).trans (by rw [portReg_command v hg])
  case asn =>
    intro hn
    rw [registerWrite_asn s v (by omega), asnReg_low s v hn]
    exact ⟨_, rfl, rfl, tget_tset_same ..⟩
  case reset => exact ⟨_, rfl, rfl, rfl, rfl, rfl, rfl, rfl, rfl, rfl, rfl, rfl, rfl, rfl, rfl, rfl⟩

end Sys2Proof.Machine
end

section
/-! The happenings of memory (O52): writes and reads of the host and the fabric at their homes, errors at eviction and scrubs,
the nodes' throttle, format windows, and the invalidation of translations. -/

namespace Sys2Proof.Machine

open Sys2Proof

/-! ## The happenings' meanings -/

section
variable (s : State)

theorem exec_hostMemoryWrite (addr : Nat) (b : Bytes) : exec (.hostMemoryWrite addr b) s = .next (hostWrite s addr b) := rfl

theorem exec_fabAccess (peer : Option Nat) (off : Nat) (op : FabOp) :
    exec (.fabAccess peer off op) s = .next (fabAccess s (peer, off, op)) := rfl

theorem exec_hostMarkedRead (addr : Nat) : exec (.hostMarkedRead addr) s = execHostMarkedRead addr s := rfl

theorem exec_hostOwnershipRequest (line : Nat) : exec (.hostOwnershipRequest line) s = execHostOwnershipRequest line s := rfl

theorem exec_evictionError (g : Nat) : exec (.evictionError g) s = execEvictionError g s := rfl

theorem exec_nodeThrottle (core count : Nat) : exec (.nodeThrottle core count) s = execNodeThrottle core count s := rfl

theorem exec_patrolScrub (g : Nat) (found : ScrubFound) : exec (.patrolScrub g found) s = execPatrolScrub g found s := rfl

theorem exec_windowEnable (w : Nat) (v : W32) : exec (.windowEnable w v) s = execWindowEnable w v s := rfl

theorem exec_windowDisable (w : Nat) (v : W32) : exec (.windowDisable w v) s = execWindowDisable w v s := rfl

theorem exec_windowEnableDone (w : Nat) : exec (.windowEnableDone w) s = execWindowEnableDone w s := rfl

theorem exec_windowDisableDone (w : Nat) : exec (.windowDisableDone w) s = execWindowDisableDone w s := rfl

theorem exec_xliInvalidate (v : W32) : exec (.xliInvalidate v) s = execXliInvalidate v s := rfl

theorem exec_xliDone : exec .xliDone s = execXliDone s := rfl

end

/-! ## The places of a write of consecutive bytes -/

@[simp] theorem writesAt_locs (loc : Nat) (b : Bytes) :
    (writesAt loc b).map (·.1) = (List.range b.length).map (loc + ·) := by
  rw [List.range_eq_range', ← List.zipIdx_map_snd, writesAt, List.map_map, List.map_map]
  rfl

@[simp] theorem length_writesAt (loc : Nat) (b : Bytes) : (writesAt loc b).length = b.length := by simp [writesAt]

@[simp] theorem getElem_writesAt (loc : Nat) (b : Bytes) (k : Nat) (h : k < (writesAt loc b).length) :
    (writesAt loc b)[k] = (loc + k, b[k]'(by simpa using h)) := by simp [writesAt]

theorem writesAt_ne_nil {b : Bytes} (h : b ≠ []) (loc : Nat) : writesAt loc b ≠ [] := by simpa [writesAt] using h

/-! ## Writes of the host to device memory (01 R17, R19) -/

section
variable {s : State} {addr : Nat} {b : Bytes}

/-- Device memory ends below the host's aperture, so that no byte of a write within it is cut off. -/
theorem hostWrite_local (h : addr + b.length ≤ Config.localBytes) : hostWrite s addr b =
    if homeWaits s ((List.range b.length).map (addr + ·)) ||
        s.host.heldWr.any (fun h => overlapBytes addr b.length h.1 h.2.length) then
      { s with host := { s.host with heldWr := s.host.heldWr ++ [(addr, b)] } }
    else hostRelease s (applyWrite s hostWriter (writesAt addr b)) ((List.range b.length).map (addr + ·)) := by
  have hend : Config.localBytes < hostBase := by decide
  have hlow : ¬ hostBase ≤ addr := by omega
  have htake : b.take (Config.localBytes - addr) = b := List.take_of_length_le (by omega)
  simp only [hostWrite, if_neg hlow, htake]

end

/-! ## Accesses from the fabric (26 R379, 01 R19, 10 R194) -/

/-- Whether the write of an access from the fabric is a read-modify-write (11 R209). -/
def fabRmw : FabOp → Bool
  | .add32 _ => true
  | _ => false

/-- The scope that an access from the fabric releases at; 0 for one that is no release. -/
def fabScope : FabOp → Nat
  | .release _ => 7
  | _ => 0

theorem fabAccess_writes_nothing {s : State} {peer : Option Nat} {off : Nat} {op : FabOp}
    (h : fabWrites s (fabLoc s.fab peer off) op = []) : exec (.fabAccess peer off op) s = .next s := by
  simp [exec_fabAccess, fabAccess, h]

section
variable {s : State} {off : Nat} {op : FabOp} (hne : fabWrites s off op ≠ [])
  (hend : off + fabSize op ≤ Config.localBytes) (hw : s.fab.waits = [])
include hne hend hw

/-- A write to this device's memory, before which no other is held, is made or waits as its homes say. -/
theorem fabAccess_local : fabAccess s (none, off, op) =
    if homeWaits s ((fabWrites s off op).map (·.1)) then { s with fab := { s.fab with waits := [(none, off, op)] } }
    else fabricWrites s (fabRmw op) (fabScope op) (fabWrites s off op) := by
  have hin : ¬ Config.localBytes < off + fabSize op := by omega
  simp only [fabAccess, fabLoc, List.isEmpty_iff, hne, hin, hw, Bool.or_eq_true, decide_false,
    List.any_nil, List.nil_append, or_self, or_false, if_false, Bool.false_eq_true]
  cases op <;> rfl

theorem fabAccess_made (hh : homeWaits s ((fabWrites s off op).map (·.1)) = false) :
    exec (.fabAccess none off op) s = .next (fabricWrites s (fabRmw op) (fabScope op) (fabWrites s off op)) := by
  rw [exec_fabAccess, fabAccess_local hne hend hw, if_neg (by simp [hh])]

theorem fabAccess_waits (hh : homeWaits s ((fabWrites s off op).map (·.1)) = true) :
    exec (.fabAccess none off op) s = .next { s with fab := { s.fab with waits := [(none, off, op)] } } := by
  rw [exec_fabAccess, fabAccess_local hne hend hw, if_pos hh]

end

/-- The bytes of a masked write: those of `m` that are 1 take `b`, the others keep what stands at the home. -/
def maskedBytes (mm : MemSys) (loc : Nat) (b m : Bytes) : Bytes :=
  (List.range b.length).map fun k => (m.getD k 0#8 &&& b.getD k 0#8) ||| (~~~m.getD k 0#8 &&& homeByte mm (loc + k))

@[simp] theorem length_maskedBytes (mm : MemSys) (loc : Nat) (b m : Bytes) : (maskedBytes mm loc b m).length = b.length := by
  simp [maskedBytes]

theorem mergeByte_eq (en old new : Byte) : mergeByte en old new = (en &&& new) ||| (~~~en &&& old) := by
  rw [mergeByte, BitVec.or_comm, BitVec.and_comm new, BitVec.and_comm old]

/-- Where no byte is poisoned and each has a bit enabled, a masked write writes all of its bytes (10 R196). -/
theorem maskedWrites_clean {s : State} {loc : Nat} {b m : Bytes} (hlen : m.length = b.length) (hm : ∀ x ∈ m, x ≠ 0#8)
    (hp : ∀ k < b.length, poisoned s (loc + k) = false) :
    maskedWrites s loc b m = writesAt loc (maskedBytes s.mm loc b m) := by
  have hall : maskedWrites s loc b m = ((writesAt loc b).zip m).map fun x =>
      (x.1.1, mergeByte x.2 (homeByte s.mm x.1.1) x.1.2) := by
    rw [← List.filterMap_eq_map]
    refine List.filterMap_congr ?_
    rintro ⟨⟨l, x⟩, e⟩ hx
    obtain ⟨hl, he⟩ := List.of_mem_zip hx
    have hpl : poisoned s l = false := by
      have hmem : l ∈ (writesAt loc b).map (·.1) := List.mem_map_of_mem hl
      rw [writesAt_locs] at hmem
      obtain ⟨k, hk, rfl⟩ := List.mem_map.1 hmem
      exact hp k (List.mem_range.1 hk)
    simp [hm e he, hpl]
  rw [hall]
  refine List.ext_getElem (by simp [hlen]) fun k hk _ => ?_
  have hkb : k < b.length := by simpa [hlen] using hk
  simp [maskedBytes, mergeByte_eq, hkb, hlen]

/-! ## Errors at eviction and scrubs (10 R203, R204, 27 R399, R400) -/

theorem mem_poison_poisonGranule (mm : MemSys) (g : Nat) : g ∈ (poisonGranule mm g).poison := by
  by_cases h : g ∈ mm.poison <;> simp [poisonGranule, h]

theorem homeByte_poisonGranule (mm : MemSys) (g l : Nat) : homeByte (poisonGranule mm g) l = homeByte mm l := by
  simp [homeByte]

/-- What a scrub of a granule of device memory does. -/
theorem patrolScrub_local {s : State} {g : Nat} (h : 32 * g < Config.localBytes) (found : ScrubFound) :
    exec (.patrolScrub g found) s = .next (match found with
      | .clean => s
      | .corrected => updDie s (homeDie (32 * g)) fun d => { d with ecc := d.ecc + 1 }
      | .uncorrectable => { s with mm := poisonGranule s.mm g }) := by
  have hin : ¬ Config.localBytes ≤ 32 * g := by omega
  cases found <;> simp only [exec_patrolScrub, execPatrolScrub, if_neg hin]

section
variable {s : State} {g : Nat}

theorem evictionError_clean (h : tfind s.mm.writers (g / 4) = none) : exec (.evictionError g) s = .next s := by
  simp [exec_evictionError, execEvictionError, h]

theorem evictionError_noGang (h : tfind s.mm.writers (g / 4) = some none) :
    exec (.evictionError g) s = .next { s with mm := poisonGranule (writeBackLine s.mm (g / 4)) g } := by
  simp [exec_evictionError, execEvictionError, h]

theorem evictionError_gang {tag : Nat} {who : W32} (h : tfind s.mm.writers (g / 4) = some (some (tag, who))) :
    exec (.evictionError g) s = .next (postRecord { s with mm := poisonGranule (writeBackLine s.mm (g / 4)) g }
      (who.toNat % 2 ^ 10 / 128) ((evictionRecord tag who g).bytes (nowNs s))) := by
  simp [exec_evictionError, execEvictionError, h, bits, nowNs]

end

/-! ## The nodes' throttle (26 R372) -/

theorem nodeOf_tmod (s : State) (core k : Nat) (f : Node → Node) :
    nodeOf { s with nodes := tmod Node.reset s.nodes core f } k = if core = k then f (nodeOf s core) else nodeOf s k :=
  tget_tmod ..

/-! ## Format windows (10 R192, R194) -/

theorem winFields_eq_wctlSet (v : W32) (x : Window) : winFields v.toNat x = wctlSet v x := rfl

section
variable {v : W32} {x : Window}

theorem wctlSet_on : (wctlSet v x).on = x.on := by
  unfold wctlSet
  dsimp only
  split <;> rfl

theorem wctlSet_busy : (wctlSet v x).busy = x.busy := by
  unfold wctlSet
  dsimp only
  split <;> rfl

end

/-- A change of a table's values that leaves those of a key leaves what the key is found with. -/
theorem tfind_map_of_fixed {α : Type} {f : Nat × α → α} {n : Nat} (hf : ∀ v, f (n, v) = v) (t : Table α) :
    tfind (t.map fun x => (x.1, f x)) n = tfind t n := by
  induction t with
  | nil => rfl
  | cons x t ih =>
    obtain ⟨k, v⟩ := x
    by_cases h : k = n
    · subst h
      simp [tfind, hf]
    · simp [tfind, h, ih]

/-- An enable refuses windows of higher numbers only. -/
theorem winOf_refuseOthers_same (s : State) (w : Nat) (x : Window) : winOf (refuseOthers s w x) w = winOf s w := by
  simp only [winOf, refuseOthers, tget]
  rw [tfind_map_of_fixed fun y => by simp]

section
variable {s : State} {w : Nat} {v : W32}

/-- A write of `en` = 1 to a window that is neither on nor busy is refused or starts the enable. -/
theorem windowEnable_idle (hw : w < 16) (hv : v.getLsbD 1 = true) (hon : (winOf s w).on = false)
    (hbusy : (winOf s w).busy = false) : exec (.windowEnable w v) s = .next
      (if winRefused s w (wctlSet v (winOf s w)) v.toNat then
        setWin s w { wctlSet v (winOf s w) with cfgerr := true, en := false }
      else refuseOthers (setWin s w { wctlSet v (winOf s w) with busy := true, en := true }) w (wctlSet v (winOf s w))) := by
  have hbit : bit v.toNat 1 = true := hv
  simp [exec_windowEnable, execWindowEnable, enableWrite, hw, hbit, winFields_eq_wctlSet, wctlSet_on, wctlSet_busy, hon, hbusy]

theorem windowDisable_on (hw : w < 16) (hv : v.getLsbD 1 = false) (hon : (winOf s w).on = true) :
    exec (.windowDisable w v) s =
      .next (setWin s w { wctlSet v (winOf s w) with on := false, busy := true, en := false }) := by
  have hbit : bit v.toNat 1 = false := hv
  simp [exec_windowDisable, execWindowDisable, disableWrite, hw, hbit, winFields_eq_wctlSet, wctlSet_on, hon]

/-- The state in which a change of a window has ended, before what its homes held goes on. -/
def windowSettled (s : State) (w : Nat) : State :=
  setWin { s with mm := cleanRange s.mm (winOf s w) } w { winOf s w with busy := false, on := (winOf s w).en }

theorem winOf_windowSettled (k : Nat) : winOf (windowSettled s w) k =
    if k = w then { winOf s w with busy := false, on := (winOf s w).en } else winOf s k := by
  rw [windowSettled, winOf_setWin]
  simp only [eq_comm (a := w)]
  rfl

theorem windowEnableDone_due (hbusy : (winOf s w).busy = true) (hen : (winOf s w).en = true) :
    exec (.windowEnableDone w) s = .next (homesFree (windowSettled s w)) := by
  simp [exec_windowEnableDone, execWindowEnableDone, winDone, windowSettled, hbusy, hen]

theorem windowDisableDone_due (hbusy : (winOf s w).busy = true) (hen : (winOf s w).en = false) :
    exec (.windowDisableDone w) s = .next (homesFree (windowSettled s w)) := by
  simp [exec_windowDisableDone, execWindowDisableDone, winDone, windowSettled, hbusy, hen]

end

/-! ## Invalidation of translations (10 R200) -/

theorem xliHits_iff (addr : W64) (v : W32) (e : TlbEntry) : xliHits addr v.toNat e = true ↔
    (v.getLsbD 30 = true ∨ e.asn = v.toNat / 2 ^ 16 % 2 ^ 12) ∧
      (v.toNat % 2 ^ 16 = 0 ∨ (e.vpage + 2 ^ 41 - addr.toNat % 2 ^ 57 / 65536) % 2 ^ 41 < v.toNat % 2 ^ 16) := by
  have hbit : bit v.toNat 30 = v.getLsbD 30 := rfl
  simp only [xliHits, bits, hbit, Nat.pow_zero, Nat.div_one, Bool.and_eq_true, Bool.or_eq_true, beq_iff_eq,
    decide_eq_true_eq]

theorem mem_tlb_startXli (s : State) (v : W32) (e : TlbEntry) :
    e ∈ (startXli s v).mm.tlb ↔ e ∈ s.mm.tlb ∧ ¬ xliHits s.mm.xliAddr v.toNat e = true := by
  simp [startXli]

theorem startXli_act {s : State} {v : W32} (h : v.getLsbD 31 = true) : (startXli s v).mm.xliCtl.getLsbD 31 = true := by
  simp [startXli, h]

section
variable {s : State} {v : W32}

theorem xliInvalidate_idle (hact : s.mm.xliCtl.getLsbD 31 = false) (hv : v.getLsbD 31 = true) :
    exec (.xliInvalidate v) s = .next (startXli s v) := by
  rw [exec_xliInvalidate, execXliInvalidate, if_neg (Bool.eq_false_iff.1 hact), if_pos hv]

theorem xliInvalidate_busy (hact : s.mm.xliCtl.getLsbD 31 = true) : exec (.xliInvalidate v) s = .next s := by
  rw [exec_xliInvalidate, execXliInvalidate, if_pos hact]

theorem xliDone_over (hact : s.mm.xliCtl.getLsbD 31 = true) (hover : ∀ k ∈ underWay s, k ∉ s.mm.xliWait) :
    exec .xliDone s = .next { s with mm := { s.mm with xliCtl := s.mm.xliCtl &&& 0x7FFFFFFF, xliWait := [] } } := by
  have hdue : xliOver s = true := by simpa [xliOver, hact] using hover
  rw [exec_xliDone, execXliDone, if_pos hdue]
  rfl

end

/-! ## The statement -/

/-- Settles O52, from the lemmas above, one for each happening and each of its cases. -/
theorem memoryHappenings : Obligations.MemoryHappenings := by
  unfold Obligations.MemoryHappenings
  intro s addr core count w g b v
  refine ⟨?hostMade, ?hostKept, ?fabBytes, ?fabAdd, ?fabReads, ?markedRead, ?markedWaits, ?fabMasked, rfl,
    evictionError_clean, evictionError_noGang, fun _ _ => evictionError_gang, mem_poison_poisonGranule .., ?throttle,
    ?scrub, ?refused, ?enabled, windowDisable_on, ?settled, ?invalidate, xliInvalidate_busy, xliDone_over⟩
  case hostMade =>
    intro hend hh hheld
    rw [exec_hostMemoryWrite, hostWrite_local hend, if_neg (by simp [hh, hheld])]
    rfl
  case hostKept =>
    intro _ hend hh
    rw [exec_hostMemoryWrite, hostWrite_local hend, if_pos (by simp [hh])]
  case fabBytes =>
    intro hb hend hw
    have hne := writesAt_ne_nil hb addr
    refine ⟨fun hh => ⟨?_, ?_⟩, fun hh => ?_⟩
    · exact fabAccess_made (op := .store b) hne hend hw (by rwa [fabWrites, writesAt_locs])
    · exact fabAccess_made (op := .release b) hne hend hw (by rwa [fabWrites, writesAt_locs])
    · exact fabAccess_waits (op := .store b) hne hend hw (by rwa [fabWrites, writesAt_locs])
  case fabAdd =>
    intro hend hh hw
    exact fabAccess_made (op := .add32 v) (writesAt_ne_nil (by simp [le32, natLe]) addr) hend hw
      (by rwa [fabWrites, writesAt_locs, length_le32])
  case fabReads => exact fun p => ⟨fun k => fabAccess_writes_nothing rfl, fabAccess_writes_nothing rfl⟩
  case markedRead =>
    intro hh
    rw [exec_hostMarkedRead, execHostMarkedRead, if_neg (by simp [hh])]
  case markedWaits =>
    intro hh
    rw [exec_hostMarkedRead, execHostMarkedRead, if_pos hh]
  case fabMasked =>
    intro m hb hlen hend hm hh hp hw
    have hws : fabWrites s addr (.masked b m) = writesAt addr (maskedBytes s.mm addr b m) :=
      maskedWrites_clean hlen hm hp
    have hne : maskedBytes s.mm addr b m ≠ [] := by
      rwa [← List.length_pos_iff, length_maskedBytes, List.length_pos_iff]
    have hmade := fabAccess_made (op := .masked b m) (by rw [hws]; exact writesAt_ne_nil hne addr) hend hw
      (by rwa [hws, writesAt_locs, length_maskedBytes])
    rwa [hws] at hmade
  case throttle =>
    refine ⟨_, rfl, rfl, ?_, fun k hk => ?_⟩
    · rw [nodeOf_tmod, if_pos rfl]
      rfl
    · rw [nodeOf_tmod, if_neg (Ne.symm hk)]
  case scrub =>
    intro hg
    refine ⟨patrolScrub_local hg .clean, ⟨_, patrolScrub_local hg .corrected, rfl, ?_⟩,
      ⟨_, patrolScrub_local hg .uncorrectable, rfl, mem_poison_poisonGranule .., homeByte_poisonGranule _ g⟩⟩
    simp only [dieOf_updDie_same]
  case refused =>
    intro hw hv hon hbusy href
    rw [windowEnable_idle hw hv hon hbusy, if_pos href]
  case enabled =>
    intro hw hv hon hbusy href
    refine ⟨_, by rw [windowEnable_idle hw hv hon hbusy, if_neg (by simp [href])], rfl, ?_⟩
    rw [winOf_refuseOthers_same, winOf_setWin, if_pos rfl]
  case settled =>
    rintro hbusy on rfl
    refine ⟨windowSettled s w, fun k => winOf_windowSettled k, rfl, ?_⟩
    cases hen : (winOf s w).en with
    | true => exact windowEnableDone_due hbusy hen
    | false => exact windowDisableDone_due hbusy hen
  case invalidate =>
    intro hact hv
    refine ⟨_, xliInvalidate_idle hact hv, startXli_act hv, rfl, fun e => ?_⟩
    rw [mem_tlb_startXli, xliHits_iff]

end Sys2Proof.Machine
end

section
/-! Which gangs have been sent their pre-emption signal (09 R176). -/

namespace Sys2Proof.Machine

open Sys2Proof

/-- The gangs by tag, each with whether its pre-emption signal has been sent. -/
def signals (s : State) : List (Nat × Bool) := s.gangs.map fun x => (x.tag, x.preSent)

theorem signals_foldl {β : Type} {f : State → β → State} (hf : ∀ s b, signals (f s b) = signals s) (l : List β) (s : State) :
    signals (l.foldl f s) = signals s :=
  foldl_keeps (fun x => signals x = signals s) f (fun x b h => (hf x b).trans h) l s rfl

theorem signals_foldl_snd {α β : Type} {f : α × State → β → α × State} (hf : ∀ x b, signals (f x b).2 = signals x.2)
    (l : List β) (x : α × State) : signals (l.foldl f x).2 = signals x.2 :=
  foldl_keeps (fun y : α × State => signals y.2 = signals x.2) f (fun y b h => (hf y b).trans h) l x rfl

theorem signals_of_snd {α : Type} {x : α × State} {a : α} {s s' : State} (hx : x = (a, s')) (h : signals x.2 = signals s) :
    signals s' = signals s := by
  rw [← h, hx]

/-! ## Updates of the state's other parts -/

section
variable (s : State)

@[simp] theorem signals_updGroup (g : Gid) (f : Group → Group) : signals (updGroup s g f) = signals s := rfl
@[simp] theorem signals_updThread (g : Gid) (n : Nat) (f : Thread → Thread) : signals (updThread s g n f) = signals s := rfl
@[simp] theorem signals_updDie (n : Nat) (f : Die → Die) : signals (updDie s n f) = signals s := rfl
@[simp] theorem signals_updBox (n b : Nat) (f : Mailbox → Mailbox) : signals (updBox s n b f) = signals s := rfl
@[simp] theorem signals_freshId : signals (freshId s).2 = signals s := rfl
@[simp] theorem signals_dropReplies (tag : Nat) : signals (dropReplies s tag) = signals s := rfl
@[simp] theorem signals_coverThreads (g : Gid) (tids : List Nat) : signals (coverThreads s g tids) = signals s := rfl
@[simp] theorem signals_takeMsg (g : Group) (scope tid id : Nat) : signals (takeMsg s g scope tid id) = signals s := rfl

/-- A change of the gangs of a tag that leaves their tags and their signals. -/
theorem signals_updGang {tag : Nat} {f : Gang → Gang} (hf : ∀ x, (f x).tag = x.tag ∧ (f x).preSent = x.preSent) :
    signals (updGang s tag f) = signals s := by
  simp only [signals, updGang, modAll, List.map_map]
  refine List.map_congr_left fun x _ => ?_
  obtain ⟨htag, hpre⟩ := hf x
  by_cases h : x.tag = tag <;> simp [h, htag, hpre]

@[simp] theorem signals_unblock (die : Nat) : signals (unblock s die) = signals s := by
  unfold unblock
  split <;> rfl

@[simp] theorem signals_unblockFreed (before : State) (core : Nat) : signals (unblockFreed before s core) = signals s := by
  unfold unblockFreed
  split
  · exact signals_unblock s _
  · rfl

/-! ## Writes and reads of memory -/

@[simp] theorem signals_applyWrite (w : Writer) (ws : List (Nat × Byte)) : signals (applyWrite s w ws) = signals s := rfl

@[simp] theorem signals_writeLoc (w : Writer) (l : Nat) (b : Bytes) : signals (writeLoc s w l b) = signals s := rfl

@[simp] theorem signals_acquired (g : Group) (scope : Nat) (newest : Bool) (locs tids : List Nat) :
    signals (acquired s g scope newest locs tids) = signals s := by
  unfold acquired
  split <;> rfl

@[simp] theorem signals_acquireAnswered (before : State) : signals (acquireAnswered before s) = signals s := by
  unfold acquireAnswered
  split
  · rfl
  · refine signals_foldl (fun s g => signals_foldl (fun s t => ?_) _ s) _ s
    split
    · split
      · exact signals_acquired ..
      · rfl
    · rfl

@[simp] theorem signals_takeMarks (scope : Nat) (locs : List Nat) : signals (takeMarks s scope locs) = signals s := by
  unfold takeMarks
  split <;> rfl

@[simp] theorem signals_writeAs (w : Writer) (ws : List (Nat × Byte)) (me : Who) (scope : Nat) (carry : Nat → List Nat) :
    signals (writeAs s w ws me scope carry) = signals s := signals_acquireAnswered ..

@[simp] theorem signals_setLeafBits (l e : Nat) (a : Acc) : signals (setLeafBits s l e a) = signals s := by
  simp only [setLeafBits, apply_ite signals, signals_writeLoc, ite_self]

/-- A translation marks the leaf entry of its walk and is cached; neither is a signal. -/
theorem signals_translate {s s' : State} {eng ham asn : Nat} {va : W64} {n : Nat} {a : Acc} {p : Nat} {unc : Bool}
    (h : translate s eng ham asn va n a = .ok (p, unc, s')) : signals s' = signals s := by
  unfold translate at h
  split at h
  · simp at h
  split at h
  · split at h
    · simp at h
    · simp only [Except.ok.injEq, Prod.mk.injEq] at h
      rw [h.2.2]
  simp only [] at h
  split at h
  · split at h
    · simp at h
    · simp only [Except.ok.injEq, Prod.mk.injEq] at h
      rw [h.2.2]
  split at h
  · simp at h
  split at h
  · simp at h
  simp only [Except.ok.injEq, Prod.mk.injEq] at h
  obtain ⟨-, -, rfl⟩ := h
  show signals (if _ then _ else _) = signals s
  simp only [apply_ite signals, signals_setLeafBits, ite_self]

@[simp] theorem signals_decidePiece (eng ham asn : Nat) (va : W64) (n : Nat) (a : Acc) :
    signals (decidePiece s eng ham asn va n a).2 = signals s := by
  unfold decidePiece
  split
  · rfl
  next h =>
    dsimp only
    split
    · exact signals_translate h
    · split <;> exact signals_translate h

@[simp] theorem signals_decideAccess (eng ham asn : Nat) (va : W64) (n align : Nat) (a : Acc) :
    signals (decideAccess s eng ham asn va n align a).2 = signals s := by
  unfold decideAccess
  dsimp only
  have hfold : signals ((pagePieces va n).foldl (fun (acc : List (Except (Nat × W64) Places) × State) (pc : W64 × Nat) =>
      (acc.1 ++ [(decidePiece acc.2 eng ham asn pc.1 pc.2 a).1], (decidePiece acc.2 eng ham asn pc.1 pc.2 a).2)) ([], s)).2 =
      signals s := signals_foldl_snd (fun x pc => by exact signals_decidePiece x.2 ..) _ _
  split
  · rfl
  split
  · rfl
  split
  · exact hfold
  split
  · exact hfold
  split
  · exact hfold
  · split <;> exact hfold

@[simp] theorem signals_lineBytes (c loc : Nat) : signals (lineBytes s c loc).2.2 = signals s := by
  unfold lineBytes
  dsimp only
  split
  · split <;> rfl
  · simp only [apply_ite signals, ite_self, show signals (fillCode s c (loc / 64)) = signals s from rfl]

@[simp] theorem signals_enterLine (c asn : Nat) (pc : W64) : signals (enterLine s c asn pc).2 = signals s := by
  unfold enterLine
  dsimp only
  split
  · rfl
  next p _ s1 h =>
    have h1 := signals_translate h
    have h2 : signals (lineBytes s1 c p).2.2 = signals s := (signals_lineBytes s1 c p).trans h1
    split
    · exact h1
    split
    · exact h1
    split
    · exact h2
    · split <;> exact h2

@[simp] theorem signals_checkTarget (g : Group) (pc : W64) (mark : Bool) :
    signals (checkTarget s g pc mark).2 = signals s := by
  unfold checkTarget
  split <;> rename_i heq
  · exact signals_of_snd heq (signals_enterLine ..)
  · exact signals_of_snd heq (signals_enterLine ..)
  · simp only [apply_ite Prod.snd, ite_self]
    exact signals_of_snd heq (signals_enterLine ..)

/-! ## Records of the reeve's queue -/

@[simp] theorem signals_putRecord (die : Nat) (b : Bytes) (o : Option OpenRec) :
    signals (putRecord s die b o).2 = signals s := rfl

@[simp] theorem signals_postRecord (die : Nat) (b : Bytes) : signals (postRecord s die b) = signals s := by
  simp only [postRecord, apply_ite signals, signals_updDie, signals_putRecord, ite_self]

@[simp] theorem signals_class3 (die asn kind : Nat) (nw : Bool) (hw : Option (Nat × Nat × Nat)) (r : FRec) :
    signals (class3 s die asn kind nw hw r).2 = signals s := by
  unfold class3
  dsimp only
  split
  · simp only [apply_ite signals, signals_writeLoc, ite_self]
  · split <;> rfl

@[simp] theorem signals_record3 (g : Group) (pc : W64) (kind : Nat) (nw : Bool) (hs : List Held3) :
    signals (record3 s g pc kind nw hs).2 = signals s := by
  unfold record3
  refine signals_foldl_snd (fun x part => ?_) _ _
  cases part with
  | nil => rfl
  | cons h rest => exact signals_class3 ..

@[simp] theorem signals_hold3 (g : Group) (pc : W64) (kind : Nat) (hs : List Held3) :
    signals (hold3 s g pc kind hs) = signals s :=
  (signals_foldl (fun s _ => signals_updGroup s ..) _ _).trans (signals_record3 s g pc kind false hs)

/-! ## The save area (09 R177, R416) -/

/-- The state that an access to the area leaves. -/
def AreaRes.st : AreaRes → State
  | .ok _ s | .cls3 _ _ s | .cls4 _ _ s | .waits s => s

@[simp] theorem signals_areaPages (eng : Nat) (g : Group) (a : Acc) (fuel off n : Nat) (acc : List (Nat × Nat)) :
    signals (areaPages eng g a fuel off n acc s).st = signals s := by
  induction fuel generalizing off n acc s with
  | zero => rfl
  | succ fuel ih =>
    by_cases hn : n = 0
    · rw [areaPages, if_pos hn]
      rfl
    · rw [areaPages, if_neg hn]
      dsimp only
      generalize g.xsave + BitVec.ofNat 64 off = va
      generalize min n _ = k
      split <;> rename_i heq
      · rw [apply_ite AreaRes.st, apply_ite signals, ih]
        simp only [AreaRes.st, ite_self]
        exact signals_of_snd heq (signals_decideAccess ..)
      all_goals exact signals_of_snd heq (signals_decideAccess ..)

@[simp] theorem signals_areaWrite (g : Group) (pages : List (Nat × Nat)) (ws : List (Nat × Byte)) :
    signals (areaWrite s g pages ws) = signals s := rfl

@[simp] theorem signals_saveImage (g : Group) (full : Bool) (keep : Nat → Nat → Bool) :
    signals (saveImage s g full keep).st = signals s := by
  have h := signals_areaPages s (areaEngine g) g .store (saBytes g / 65536 + 2) 0 (saBytes g) []
  unfold saveImage
  generalize areaPages (areaEngine g) g .store (saBytes g / 65536 + 2) 0 (saBytes g) [] s = r at h ⊢
  cases r with
  | ok pages s' => exact (signals_areaWrite ..).trans h
  | _ => exact h

@[simp] theorem signals_stopGang (tag cause : Nat) : signals (stopGang s tag cause) = signals s :=
  signals_updGang _ fun _ => ⟨rfl, rfl⟩

@[simp] theorem signals_areaEnds (g : Group) (cause : Nat) (addr : W64) : signals (areaEnds s g cause addr) = signals s := by
  rw [areaEnds, signals_stopGang, signals_postRecord]

/-- What an access to the area meets, from the state `s` on, leaves the signals. -/
theorem signals_areaMeets (g : Group) (store : Bool) {r : AreaRes} (h : signals r.st = signals s) :
    signals (areaMeets s g store r) = signals s := by
  cases r with
  | ok => rfl
  | cls3 cause addr s' => exact (signals_class3 s' ..).trans h
  | waits => exact h
  | cls4 cause addr s' => exact (signals_areaEnds s' ..).trans h

@[simp] theorem signals_areaPut (g : Group) (off : Nat) (b : Bytes) : signals (areaPut s g off b) = signals s := by
  have h := signals_areaPages s (areaEngine g) g .store 3 off b.length []
  unfold areaPut
  dsimp only
  split
  · rfl
  · split
    next heq =>
      rw [heq] at h
      exact h
    next heq =>
      rw [heq] at h
      exact (signals_areaEnds ..).trans h
    · exact signals_areaMeets s g true h

@[simp] theorem signals_depositRow (g : Group) (tid r : Nat) (v : W32) : signals (depositRow s g tid r v) = signals s :=
  signals_areaPut ..

@[simp] theorem signals_putDerr (g : Group) : signals (putDerr s g) = signals s := by
  unfold putDerr
  split
  · rfl
  · rw [signals_areaPut, signals_areaPut]

/-! ## Gangs that fail, exceptions (09 R167 to R173) -/

@[simp] theorem signals_saveAll (gids : List Gid) : signals (saveAll gids s) = signals s := by
  induction gids generalizing s with
  | nil => rfl
  | cons gid rest ih =>
    unfold saveAll
    split
    · exact ih s
    next g _ =>
      split
      · exact ih _
      · dsimp only
        have h := signals_saveImage s (saveForm s g true) true fun _ _ => true
        split
        next heq =>
          rw [heq] at h
          exact (ih _).trans h
        next heq =>
          rw [heq] at h
          exact (signals_areaEnds ..).trans h
        · exact (ih _).trans (signals_areaMeets s g true h)

@[simp] theorem signals_failGang (tag cause : Nat) : signals (failGang s tag cause) = signals s :=
  (signals_saveAll ..).trans (signals_updGang s fun _ => ⟨rfl, rfl⟩)

@[simp] theorem signals_forwardTraps (g : Group) (cs : List Charge) : signals (forwardTraps s g cs) = signals s :=
  (signals_failGang ..).trans (signals_foldl (fun s _ => signals_postRecord s ..) _ s)

@[simp] theorem signals_doubleTrap (g : Group) (cs : List Charge) (x : Charge) :
    signals (doubleTrap s g cs x) = signals s :=
  (signals_postRecord ..).trans (signals_failGang ..)

@[simp] theorem signals_takeTrap (gid : Gid) (cs : List Charge) : signals (takeTrap s gid cs) = signals s := by
  obtain h | ⟨g, -, -, ⟨first, -, h⟩ | ⟨s', hs', h⟩⟩ := takeTrap_cases s gid cs
  · rw [h]
  · rw [h, signals_doubleTrap]
  · have hsig : signals s' = signals s := by
      obtain rfl | rfl := hs'
      · rfl
      · exact signals_checkTarget ..
    obtain h | h | ⟨pc, hs, h⟩ | h := h
    · rw [h, signals_updGroup, hsig]
    · rw [h, signals_forwardTraps, hsig]
    · rw [h, signals_hold3, signals_updGroup, hsig]
    · rw [h, signals_updGroup, hsig]

@[simp] theorem signals_meetOne (gid : Gid) (met : List Met) : signals (meetOne s gid met) = signals s := by
  unfold meetOne
  dsimp only
  split
  · refine (signals_foldl (fun s cause => signals_takeTrap s ..) _ _).trans ?_
    rw [signals_updGroup, signals_hold3, signals_updGroup]
  · rfl

@[simp] theorem signals_meetAll (gid : Gid) (met : List Met) : signals (meetAll s gid met) = signals s :=
  signals_foldl (fun s _ => signals_meetOne s ..) _ s

/-! ## Waits that end, messages (12 R236 to R242, 06 R101) -/

@[simp] theorem signals_completeWait (g : Group) (tid scope : Nat) (locs : List Nat) (r : WaitRes) (f : Thread → Thread) :
    signals (completeWait s g tid scope locs r f) = signals s := by
  simp only [completeWait, apply_ite signals, signals_depositRow, signals_coverThreads, signals_updGroup, ite_self]
  split
  · exact signals_takeMarks ..
  · exact signals_takeMarks ..

@[simp] theorem signals_waitError (g : Group) (tid scope : Nat) (r : WaitRes) (f : Thread → Thread) (cause : Nat)
    (va : W64) : signals (waitError s g tid scope r f cause va) = signals s := by
  unfold waitError
  dsimp only
  split
  · exact signals_completeWait ..
  · split
    · rw [signals_putDerr, signals_updGroup, signals_completeWait]
    · rw [signals_updGroup, signals_completeWait]

@[simp] theorem signals_endMonitor (g : Group) (tid : Nat) (m : MonWait) (v : W64) :
    signals (endMonitor s g tid m v) = signals s := signals_completeWait ..

@[simp] theorem signals_endFuture (g : Group) (tid : Nat) (f : FutWait) (v : W64) (k : Bool) :
    signals (endFuture s g tid f v k) = signals s := signals_completeWait ..

@[simp] theorem signals_readRec (g : Group) (va : W64) : signals (readRec s g va).2 = signals s := by
  unfold readRec
  dsimp only
  split <;> rename_i heq <;> exact signals_of_snd heq (signals_decideAccess ..)

@[simp] theorem signals_failedOwner (g : Group) (orec : Option W64) : signals (failedOwner s g orec).2 = signals s := by
  unfold failedOwner
  split
  · rfl
  · split <;> rename_i heq <;> exact signals_of_snd heq (signals_readRec ..)

@[simp] theorem signals_resendMonitor (g : Group) (tid : Nat) (m : MonWait) :
    signals (resendMonitor s g tid m) = signals s := by
  unfold resendMonitor
  dsimp only
  split
  · rfl
  · exact signals_waitError ..
  · rw [apply_ite signals, signals_endMonitor, signals_acquired, signals_updThread, ite_self]

@[simp] theorem signals_resendFuture (g : Group) (tid : Nat) (f : FutWait) :
    signals (resendFuture s g tid f) = signals s := by
  unfold resendFuture
  dsimp only
  split
  · rfl
  · exact signals_waitError ..
  · split
    · rw [signals_endFuture, signals_acquired]
    · split <;> rename_i heq
      · rw [signals_endFuture, signals_of_snd heq (signals_failedOwner ..)]
      · rw [signals_updThread, signals_of_snd heq (signals_failedOwner ..)]

@[simp] theorem signals_countPlaces (gid : Gid) (p : Places) : signals (countPlaces s gid p) = signals s := by
  unfold countPlaces
  split
  · refine signals_foldl (fun s _ => ?_) _ s
    unfold countFab
    split <;> rfl
  · rfl

@[simp] theorem signals_pushReq (gid : Gid) (f : ReqForm) (ls : List ReqLane) (buf : Option Nat) :
    signals (pushReq s gid f ls buf) = signals s := by
  unfold pushReq
  dsimp only
  split <;> rfl

@[simp] theorem signals_makeReqs (gid : Gid) (f : ReqForm) (ls : List ReqLane) :
    signals (makeReqs s gid f ls) = signals s := by
  refine signals_foldl (fun s hw => ?_) _ s
  unfold homeReqs
  split
  · split
    · rw [signals_pushReq]
    · rw [signals_pushReq, signals_pushReq]
  · rw [signals_pushReq]

@[simp] theorem signals_storeMsg (g : Group) (tid : Nat) (p : Places) (va : W64) (b : Bytes) :
    signals (storeMsg s g tid p va b) = signals s := by
  simp only [storeMsg, apply_ite signals, signals_makeReqs, signals_writeAs, signals_countPlaces, ite_self]

@[simp] theorem signals_offerMsg (key : Nat) (acc : List (Gid × Met) × State) (w : Group × Thread × BoxWait) :
    signals (offerMsg key acc w).2 = signals acc.2 := by
  unfold offerMsg
  dsimp only
  split
  · rfl
  · split <;> rename_i heq
    · rw [signals_completeWait, signals_storeMsg, signals_takeMsg, signals_updBox,
        signals_of_snd heq (signals_decideAccess ..)]
    · exact signals_of_snd heq (signals_decideAccess ..)

@[simp] theorem signals_deliverMsg (key : Nat) : signals (deliverMsg s key) = signals s := by
  unfold deliverMsg
  split
  · rfl
  · exact (signals_foldl (fun s _ => signals_meetAll s ..) _ _).trans
      (signals_foldl_snd (fun acc w => signals_offerMsg key acc w) _ ([], s))

/-! ## Parking (09 R177, R178) -/

@[simp] theorem signals_tryRecWrite (w : RecWrite) : signals (tryRecWrite s w) = signals s := by
  unfold tryRecWrite
  dsimp only
  split <;> rename_i heq <;> have h := signals_of_snd heq (signals_decideAccess ..)
  · exact h
  · split
    · rw [signals_postRecord, h]
    · rw [signals_acquireAnswered]
      exact h
  · rw [signals_postRecord, h]

@[simp] theorem signals_ownState (g : Group) (st cause : Nat) : signals (ownState s g st cause) = signals s := by
  unfold ownState
  split
  · rfl
  · unfold writeRecord
    split
    · rfl
    · rw [signals_tryRecWrite]

@[simp] theorem signals_parkGroup (gid : Gid) (full : Bool) (place : Place) :
    signals (parkGroup s gid full place) = signals s := by
  unfold parkGroup
  split
  · rfl
  next g _ =>
    split
    · rfl
    · dsimp only
      have h := signals_saveImage s (saveForm s g full) full fun hw r =>
        full || kept g.keep r || (owedRegs s g hw).contains r
      split
      next heq =>
        rw [heq] at h
        rw [signals_ownState, signals_unblockFreed, signals_updGroup]
        exact h
      · rw [apply_ite signals, signals_updGroup, ite_self]
        exact signals_areaMeets s g true h

@[simp] theorem signals_markSaved (tag : Nat) : signals (markSaved s tag) = signals s := by
  unfold markSaved
  split
  · exact signals_updGang s fun _ => ⟨rfl, rfl⟩
  · rfl

@[simp] theorem signals_keptSave (gid : Gid) : signals (keptSave s gid) = signals s := by
  unfold keptSave
  split
  · rfl
  · rw [apply_ite signals, signals_markSaved, signals_parkGroup, ite_self]

/-! ## Resumption (03 R36, 18 R314) -/

@[simp] theorem signals_enterDeposit (gid : Gid) : signals (enterDeposit s gid) = signals s := by
  unfold enterDeposit
  split
  · rfl
  · split
    · rfl
    · rw [signals_takeTrap, signals_updGroup]

@[simp] theorem signals_deliverAll (core n : Nat) : signals (deliverAll core n s) = signals s := by
  induction n generalizing s with
  | zero => rfl
  | succ n ih => exact (ih _).trans (signals_foldl (fun s _ => signals_deliverMsg s _) _ s)

@[simp] theorem signals_putOnCore (gid : Gid) (core : Nat) (owner : Option (Gid × Nat)) :
    signals (putOnCore s gid core owner) = signals s := by
  unfold putOnCore
  split
  · rfl
  · dsimp only
    rw [signals_deliverAll, signals_enterDeposit, signals_ownState, signals_coverThreads, signals_updGroup, signals_freshId]

@[simp] theorem signals_restoreMeets (g : Group) : signals (restoreMeets s g).st = signals s := by
  have h := signals_areaPages s (areaEngine g) g .load (saBytes g / 65536 + 2) 0 (saBytes g) []
  unfold restoreMeets
  generalize areaPages (areaEngine g) g .load (saBytes g / 65536 + 2) 0 (saBytes g) [] s = r at h ⊢
  cases r with
  | ok pages s' =>
    dsimp only
    split <;> exact h
  | _ => exact h

@[simp] theorem signals_resumeGroup (gid : Gid) (core : Nat) (owner : Option (Gid × Nat)) :
    signals (resumeGroup s gid core owner) = signals s := by
  unfold resumeGroup
  split
  · rfl
  next g _ =>
    have h := signals_restoreMeets s g
    split
    next heq =>
      rw [heq] at h
      rw [signals_putOnCore]
      exact h
    · exact signals_areaMeets s g false h

@[simp] theorem signals_presentThread (gid : Gid) (acc : List Met × List Nat × State) (tid : Nat) :
    signals (presentThread gid acc tid).2.2 = signals acc.2.2 := by
  obtain ⟨met, again, s⟩ := acc
  unfold presentThread
  dsimp only
  split
  · split
    · split
      · rfl
      · split <;> rename_i heq
        · rw [signals_resendMonitor, signals_updThread, signals_of_snd heq (signals_decideAccess ..)]
        all_goals exact signals_of_snd heq (signals_decideAccess ..)
    · split
      · rfl
      · split <;> rename_i howner
        · rw [signals_endFuture, signals_of_snd howner (signals_failedOwner ..)]
        · split <;> rename_i heq
          · rw [signals_resendFuture, signals_updThread, signals_of_snd heq (signals_decideAccess ..)]
          all_goals exact signals_of_snd heq (signals_decideAccess ..)
    · split <;> rename_i heq
      · rw [signals_deliverMsg, signals_updThread, signals_of_snd heq (signals_decideAccess ..)]
      all_goals exact signals_of_snd heq (signals_decideAccess ..)
    · rfl
  · rfl

@[simp] theorem signals_presentAll (gid : Gid) (tids : List Nat) : signals (presentAll s gid tids) = signals s := by
  have h : signals (tids.foldl (presentThread gid) ([], [], s)).2.2 = signals s :=
    foldl_keeps (fun acc : List Met × List Nat × State => signals acc.2.2 = signals s) _
      (fun acc tid hacc => (signals_presentThread gid acc tid).trans hacc) tids _ rfl
  unfold presentAll
  dsimp only
  rw [signals_updGroup, signals_meetAll, h]

@[simp] theorem signals_resumeHelper (g : Group) : signals (resumeHelper s g) = signals s := by
  simp only [resumeHelper, apply_ite signals, signals_presentAll, signals_updGroup, signals_unblockFreed,
    signals_resumeGroup, ite_self]

/-! ## The signal (09 R176, 03 R42) -/

@[simp] theorem signals_unwind (n : Nat) (gid : Gid) : signals (unwind n gid s) = signals s := by
  induction n generalizing gid s with
  | zero => rfl
  | succ n ih =>
    have hown : signals (match ownerOf s gid with
        | some o => parkGroup (unwind n o.gid s) o.gid false .parked
        | none => s) = signals s := by
      split
      · rw [signals_parkGroup, ih]
      · rfl
    unfold unwind
    split
    · rfl
    · split
      · rfl
      · dsimp only
        split
        · rw [apply_ite signals, signals_resumeHelper, ite_self]
          exact hown
        · exact hown

@[simp] theorem signals_signalGroup (gid : Gid) (deadline : Nat) :
    signals (signalGroup s gid deadline) = signals s := by
  unfold signalGroup
  dsimp only
  split
  · exact signals_unwind ..
  · simp only [apply_ite signals, signals_keptSave, signals_takeTrap, signals_parkGroup, signals_updGroup, signals_unwind,
      ite_self]

end

end Sys2Proof.Machine
end

section
/-! The happenings of groups and gangs (O50): meetings, fairness, growth, swapping, resumption, adoption and pre-emption. -/

namespace Sys2Proof.Machine

open Sys2Proof

/-! ## The happenings' meanings -/

section
variable (s : State) (tag grp core num : Nat)

theorem exec_meetingRelease (a : W64) : exec (.meetingRelease tag grp a) s = execMeetingRelease tag grp a s := rfl

theorem exec_fairnessMove : exec (.fairnessMove tag grp num) s = execFairnessMove tag grp num s := rfl

theorem exec_reggrowGrant : exec (.reggrowGrant tag grp) s = execReggrowGrant tag grp s := rfl

theorem exec_reggrowFail : exec (.reggrowFail core) s = execReggrowFail core s := rfl

theorem exec_swapOut : exec (.swapOut tag grp) s = execSwapOut tag grp s := rfl

theorem exec_groupResume : exec (.groupResume tag grp core) s = execGroupResume tag grp core s := rfl

theorem exec_adoption : exec (.adoption tag grp) s = execAdoption tag grp s := rfl

theorem exec_helperResume : exec (.helperResume tag grp) s = execHelperResume tag grp s := rfl

theorem exec_preemptSignal : exec (.preemptSignal tag) s = execPreemptSignal tag s := rfl

theorem exec_preemptDeadline : exec (.preemptDeadline tag) s = execPreemptDeadline tag s := rfl

end

/-! ## Meetings, fairness and growth (03 R31, R32, R37, 06 R105, R106) -/

theorem meetingDue_iff (g : Group) (a : W64) : meetingDue g a = true ↔ a ≠ 0 ∧ (∃ t ∈ g.threads, t.held = true ∧ t.meet = a) ∧
    ∀ t ∈ g.threads, t.meet = a → t.held = true ∨ t.wait = .exited := by
  simp [meetingDue, Thread.live, imp_iff_not_or, or_assoc, and_assoc]

theorem fairnessDue_iff (g : Group) (w : Warp) :
    fairnessDue g w = true ↔ g.fair ≠ 0 ∧ g.fair ≤ w.fcnt ∧ onCore g = true := by
  simp [fairnessDue, and_assoc]

theorem onCore_of_helperDue {s : State} {g : Group} (h : helperDue s g = true) : onCore g = false := by
  have hbelow : g.place = .below := by
    simp only [helperDue, orphan, Bool.and_eq_true, beq_iff_eq] at h
    exact h.1.1.1.1.1.1
  rw [onCore, hbelow]

theorem reggrowFail_stuck {s : State} {core : Nat} {y : Group} (hy : youngest s core = some y)
    (hstuck : growStuck s core = true) : exec (.reggrowFail core) s =
      .next (updGroup s y.gid fun x => { x with threads := x.threads.map (endGrow false) }) := by
  simp only [exec_reggrowFail, execReggrowFail, hy, hstuck, if_true]

section
variable {s : State} {tag grp : Nat} {g : Group} (hg : groupOf s ⟨tag, grp⟩ = some g)
include hg

theorem meetingRelease_due {a : W64} (hdue : meetingDue g a = true) (hon : onCore g = true) :
    exec (.meetingRelease tag grp a) s = .next (progress (unblockFreed s (updGroup s g.gid fun x =>
      reform (modThreads ((g.threads.filter fun t => t.held && t.meet = a).map (·.tid)) (releaseThread a) x)
        (usedNums s (coreOf g)) (owedOf s g ((g.threads.filter fun t => t.held && t.meet = a).map (·.tid))) .meeting
        ((g.threads.filter fun t => t.held && t.meet = a).map (·.tid))) (coreOf g)) g) := by
  simp only [exec_meetingRelease, execMeetingRelease, hg, hdue, hon, Bool.and_self, if_true]

theorem fairnessMove_due {num : Nat} {w : Warp} {pc : W64} {more : List W64}
    (hw : g.warps.find? (fun w => w.num = num) = some w) (hdue : fairnessDue g w = true)
    (hpc : issueOrder g w = pc :: more) : exec (.fairnessMove tag grp num) s = .next (moveWarp s g.gid num pc) := by
  simp only [exec_fairnessMove, execFairnessMove, hg, hw, hdue, hpc, if_true]

theorem reggrowGrant_served {n q : Nat} (hp : pendingGrow g = some (n, q)) (hon : onCore g = true)
    (hserved : growServed s g n q (growSince g) = true) : exec (.reggrowGrant tag grp) s =
      .next (updGroup s g.gid fun x => growGroup n q { x with threads := x.threads.map (endGrow true) }) := by
  simp only [exec_reggrowGrant, execReggrowGrant, hg, hp, hon, hserved, Bool.and_self, if_true]

/-! ## Swapping, resumption and adoption (03 R35, R36, 09 R178, 18 R313, R314) -/

theorem swapOut_eq : exec (.swapOut tag grp) s =
    .next (if swapDue s g then parkGroup s g.gid false .parked else s) := by
  rw [exec_swapOut, execSwapOut, hg]

theorem adoption_eq : exec (.adoption tag grp) s = .next (if adoptionDue s g then searchRecs g.gid
    (distinct (g.threads.filterMap foundRec)) (coverThreads s g.gid (g.threads.map (·.tid))) else s) := by
  rw [exec_adoption, execAdoption, hg]

theorem groupResume_parked {core : Nat} (hroom : roomFor s g core = true) (hp : g.place = .parked)
    (hw : wakes s g = true) : exec (.groupResume tag grp core) s = .next (resumeGroup s g.gid core none) := by
  simp [exec_groupResume, execGroupResume, hg, hroom, hp, hw]

theorem groupResume_preempted {core : Nat} {x : Gang} (hroom : roomFor s g core = true) (hp : g.place = .preempted)
    (hx : gangOf s tag = some x) (hsaved : x.preSaved = true) :
    exec (.groupResume tag grp core) s = .next (resumeGang s tag g.gid core) := by
  simp [exec_groupResume, execGroupResume, hg, hroom, hp, hx, hsaved]

/-! ## Helpers (18 R314, 21 R323, 03 R42) -/

theorem helperResume_present (hon : onCore g = true) (hp : g.present ≠ []) :
    exec (.helperResume tag grp) s = .next (presentAll s g.gid g.present) := by
  simp [exec_helperResume, execHelperResume, hg, hon, hp]

theorem helperResume_idle (hp : g.present = []) (hdue : helperDue s g = false) :
    exec (.helperResume tag grp) s = .next s := by
  simp [exec_helperResume, execHelperResume, hg, hp, hdue]

theorem helperResume_unsignalled (hdue : helperDue s g = true) (hx : ∀ x, gangOf s tag = some x → x.preSent = false) :
    exec (.helperResume tag grp) s = .next (resumeHelper s g) := by
  have hoff := onCore_of_helperDue hdue
  cases hgang : gangOf s tag with
  | none => simp [exec_helperResume, execHelperResume, hg, hoff, hdue, hgang]
  | some x => simp [exec_helperResume, execHelperResume, hg, hoff, hdue, hgang, hx x hgang]

theorem helperResume_signalled {x : Gang} (hdue : helperDue s g = true) (hx : gangOf s tag = some x)
    (hsent : x.preSent = true) (hrun : x.stopped = false) :
    exec (.helperResume tag grp) s = .next (signalGroup (resumeHelper s g) g.gid x.preDue) := by
  simp [exec_helperResume, execHelperResume, hg, onCore_of_helperDue hdue, hdue, hx, hsent, hrun]

end

/-! ## Pre-emption (09 R176 to R178) -/

theorem preSent_gangOf (s : State) (tag : Nat) :
    (gangOf s tag).map (·.preSent) = ((signals s).find? fun x => x.1 = tag).map (·.2) := by
  simp [gangOf, signals, List.find?_map, Function.comp_def]

section
variable {s : State} {tag : Nat} {x : Gang} (hx : gangOf s tag = some x)
include hx

/-- The gang with its signal sent, before the signal has reached its groups. -/
theorem preemptSignal_due (hdue : signalDue s x = true) : exec (.preemptSignal tag) s =
    .next (markSaved ((gangGroups s tag).foldl (fun s' g => signalGroup s' g.gid (nowNs s + preBudget x))
      (updGang s tag fun x' => { x' with preSent := true, preSaved := false, preDue := nowNs s + preBudget x })) tag) := by
  simp only [exec_preemptSignal, execPreemptSignal, hx, hdue, if_true]

/-- What the signal does in the groups of a gang takes no signal back. -/
theorem preemptSignal_sends (hdue : signalDue s x = true) : ∃ s', exec (.preemptSignal tag) s = .next s' ∧
    ∀ y, gangOf s' tag = some y → y.preSent = true := by
  refine ⟨_, preemptSignal_due hx hdue, fun y hy => ?_⟩
  have hsent := congrArg (Option.map (·.preSent)) hy
  rw [preSent_gangOf, signals_markSaved, signals_foldl (fun s g => signals_signalGroup s ..), ← preSent_gangOf,
    gangOf_updGang, hx] at hsent
  · have htag : x.tag = tag := by simpa using List.find?_some hx
    simpa [htag] using hsent.symm
  · exact fun _ => rfl

theorem preemptDeadline_due (hdue : deadlineDue s x = true) : exec (.preemptDeadline tag) s =
    .next (markSaved ((gangGroups s tag).foldl (fun s g =>
      if answered s g then keptSave s g.gid else parkGroup s g.gid true .preempted) s) tag) := by
  simp only [exec_preemptDeadline, execPreemptDeadline, hx, hdue, if_true]

end

/-! ## The statement -/

/-- Settles O50, from the lemmas above, one for each happening and each of its cases. -/
theorem groupHappenings : Obligations.GroupHappenings := by
  unfold Obligations.GroupHappenings
  intro s tag grp core num a g hg
  refine ⟨fun hon ha hheld hall => meetingRelease_due hg ((meetingDue_iff g a).2 ⟨ha, hheld, hall⟩) hon,
    fun w pc more hw hfair hcount hon hpc => fairnessMove_due hg hw ((fairnessDue_iff g w).2 ⟨hfair, hcount, hon⟩) hpc,
    fun n q hp hon hserved => reggrowGrant_served hg hp hon hserved, fun y => reggrowFail_stuck, ?swapOut,
    groupResume_parked hg, ?resumeGang, ?adoption, helperResume_unsignalled hg, fun x => helperResume_signalled hg,
    fun x => preemptSignal_sends, fun x => preemptDeadline_due, ?noSwap, ?noAdoption, helperResume_present hg,
    helperResume_idle hg⟩
  case swapOut =>
    intro hdue
    rw [swapOut_eq hg, if_pos hdue]
  case noSwap =>
    intro hdue
    rw [swapOut_eq hg, if_neg (by simp [hdue])]
  case adoption =>
    intro hdue
    rw [adoption_eq hg, if_pos hdue]
  case noAdoption =>
    intro hdue
    rw [adoption_eq hg, if_neg (by simp [hdue])]
  case resumeGang =>
    rintro hroom hp ⟨x, hx, hsaved⟩
    exact groupResume_preempted hg hroom hp hx hsaved

end Sys2Proof.Machine
end

section
/-! A step that runs no instruction (O58): the instruction that a warp's turn decodes reads an overflow row, and the row cannot
be read (06 R92, 09 R416). -/

namespace Sys2Proof.Machine

open Sys2Proof

/-! ## A warp whose turn stops at an overflow row -/

/-- `MOV_S v5, v3` without a guard. -/
def rowReader : Instr := .movS ⟨0, 5, 3⟩

/-- A budget without rows of the register file, so that `v3`, which is `gen`, lies in the save area; no page of the area is
mapped. -/
def rowWarp : Warp := { newWarp 0 (homeSlots [0] 0) [(3, .gen)] [] .start with first := false }
def rowGroup : Group := { placedGroup with g := 0, warps := [rowWarp] }

/-- The warp's turn is next, and `rowReader` stands at its issue address. -/
def rowState : State := { placeCore State.reset (encode rowReader) with groups := [rowGroup] }

/-- The line at the issue address, read with the choice taken off the agenda. -/
def rowLine : LineRes × State :=
  enterLine { rowState with sch := { rowState.sch with agenda := [], cur := none } } (coreOf rowGroup) rowGroup.asn
    (BitVec.ofNat 64 placeAddr)

/-- The bytes of a line that a fetch has read. -/
def LineRes.bytes : LineRes → Bytes
  | .ok b => b
  | _ => []

/-- The addresses of every thread in the state that a step answers. -/
def nextPcs : Host.Outcome State Fault Refusal → List W64
  | .next s => (s.groups.map fun g => g.threads.map (·.pc)).flatten
  | _ => []

theorem rowLine_fst : rowLine.1 = .ok rowLine.1.bytes := by decide +kernel

theorem rowLine_ok : rowLine = (.ok rowLine.1.bytes, rowLine.2) := by rw [← rowLine_fst]

/-- The row's page does not translate: the group's context ends (R416), and its thread has not moved on. -/
theorem nextPcs_step_rowState : nextPcs (step rowState) = [BitVec.ofNat 64 placeAddr] := by decide +kernel

theorem runThen_next {h : Hap} {s t : State} {f : State → State} (ht : h s = .next t) : runThen h s f = .next (f t) := by
  rw [runThen, ht]

/-! ## The statement -/

/-- Refutes O58: the rows that an instruction reads where they overflow are read before it (`readOver`, 06 R92, 09 R416), and
the statement has no hypothesis that they can be. In `rowState` every hypothesis of its first part holds, but the row of `v3`
stands in a save area that no page maps: the step ends the group's context, where `MOV_S` would move the thread on. -/
theorem not_stepRunsDecoded : ¬ Obligations.StepRunsDecoded := by
  unfold Obligations.StepRunsDecoded
  rintro ⟨hissue, -⟩
  obtain ⟨-, t, hexec, hstep⟩ := hissue rowState rowLine.2 0 0 [] rowGroup rowWarp (BitVec.ofNat 64 placeAddr) []
    rowLine.1.bytes rowReader rfl (by decide +kernel) (by decide +kernel) rfl (by decide +kernel) (by decide +kernel)
    (by decide +kernel) (fun e he => by cases he) rowLine_ok (by decide +kernel) (by decide +kernel)
    (by decide +kernel) (by decide +kernel)
  have hran := congrArg nextPcs (hstep.trans (runThen_next (f := settle rowState none) hexec).symm)
  rw [nextPcs_step_rowState] at hran
  exact absurd hran (by decide +kernel)

end Sys2Proof.Machine
end

section
/-! The decoders and the encoder (O56, O57): every core instruction and every bolter operation is read back from its parcels,
and parcels or a word that are read as one are its own (04 R47, R52, R53, R65 to R67, 23 R356). -/

namespace Sys2Proof

/-! ## Fields of a word -/

theorem bitsOf_eq_iff {n : Nat} (w lo : Nat) (x : BitVec n) : bitsOf w lo n = x ↔ w / 2 ^ lo % 2 ^ n = x.toNat := by
  rw [← BitVec.toNat_inj, bitsOf, BitVec.toNat_ofNat, Nat.shiftRight_eq_div_pow]

theorem toNat_bitsOf (w lo n : Nat) : (bitsOf w lo n).toNat = w / 2 ^ lo % 2 ^ n := by
  rw [bitsOf, BitVec.toNat_ofNat, Nat.shiftRight_eq_div_pow]

theorem toNat_testBit (w k : Nat) : (w.testBit k).toNat = w / 2 ^ k % 2 := by
  rw [Nat.testBit_eq_decide_div_mod_eq]
  rcases Nat.mod_two_eq_zero_or_one (w / 2 ^ k) with h | h <;> simp [h]

theorem testBit_eq_iff (w k : Nat) (b : Bool) : w.testBit k = b ↔ w / 2 ^ k % 2 = b.toNat := by
  rw [← toNat_testBit]
  exact ⟨congrArg Bool.toNat, fun h => by simpa using congrArg (· != 0) h⟩

/-! ## Parcels (04 R47, R52) -/

/-- The low parcel and the high parcel of a word of 64 bits. -/
def twoParcels (w : Nat) : List W32 := [BitVec.ofNat 32 w, BitVec.ofNat 32 (w >>> 32)]

theorem twoParcels_toNat {w : Nat} (h : w < 2 ^ 64) :
    (BitVec.ofNat 32 w).toNat + (BitVec.ofNat 32 (w >>> 32)).toNat * 2 ^ 32 = w := by
  simp only [BitVec.toNat_ofNat, Nat.shiftRight_eq_div_pow]; omega

theorem twoParcels_of_toNat (p q : W32) : twoParcels (p.toNat + q.toNat * 2 ^ 32) = [p, q] := by
  have hp : BitVec.ofNat 32 (p.toNat + q.toNat * 2 ^ 32) = p := BitVec.eq_of_toNat_eq (by simp; omega)
  have hq : BitVec.ofNat 32 ((p.toNat + q.toNat * 2 ^ 32) >>> 32) = q :=
    BitVec.eq_of_toNat_eq (by rw [BitVec.toNat_ofNat, Nat.shiftRight_eq_div_pow]; omega)
  rw [twoParcels, hp, hq]

theorem lengthOf_eq (p : W32) : lengthOf p = if p.toNat % 4 = 3 then 0 else p.toNat % 4 + 1 := by
  have hp : (p &&& 3#32).toNat = p.toNat % 4 := by
    rw [BitVec.toNat_and]; exact Nat.and_two_pow_sub_one_eq_mod p.toNat 2
  have hlt := Nat.mod_lt p.toNat (by decide : 0 < 4)
  rw [lengthOf, hp]
  generalize p.toNat % 4 = n at hlt ⊢
  interval_cases n <;> rfl

/-! ## Words of 64 bits (04 R52, R53) -/

/-- The low two bits of a long instruction's word: its length in parcels less one. -/
def lenBits (lit : Option W32) : Nat := if lit.isSome then 2 else 1

theorem lenBits_lt (lit : Option W32) : lenBits lit < 4 := by unfold lenBits; split <;> decide

/-- A word of 64 bits from what formats L, X and LB and the long hints share: the length, the guard, the opcode, and the
47 bits above them. -/
def wideWord (lit : Option W32) (g : BitVec 5) (opc rest : Nat) : Nat :=
  lenBits lit + g.toNat * 4 + opc * 2 ^ 7 + rest * 2 ^ 17

section
variable (lit : Option W32) (g : BitVec 5) {opc : Nat} (ho : opc < 2 ^ 10) (rest : Nat)

theorem wideWord_guard : bitsOf (wideWord lit g opc rest) 2 5 = g := by
  have := lenBits_lt lit
  rw [bitsOf_eq_iff, wideWord]; omega

theorem wideWord_len : wideWord lit g opc rest % 4 = lenBits lit := by
  have := lenBits_lt lit
  rw [wideWord]; omega

include ho

theorem wideWord_lt (hr : rest < 2 ^ 47) : wideWord lit g opc rest < 2 ^ 64 := by
  have := lenBits_lt lit
  unfold wideWord; omega

theorem wideWord_opc : (bitsOf (wideWord lit g opc rest) 7 10).toNat = opc := by
  have := lenBits_lt lit
  rw [toNat_bitsOf, wideWord]; omega

theorem wideWord_div : wideWord lit g opc rest / 2 ^ 17 = rest := by
  have := lenBits_lt lit
  rw [wideWord]; omega

end

/-- A word is made of its own fields. -/
theorem wideWord_of_fields {w : Nat} {lit : Option W32} (hl : w % 4 = lenBits lit) :
    wideWord lit (bitsOf w 2 5) (bitsOf w 7 10).toNat (w / 2 ^ 17) = w := by
  simp only [wideWord, toNat_bitsOf, ← hl]; omega

/-- The fields of formats L and X in a word of 64 bits, with the literal parcel beside it. -/
def longFields (w : Nat) (lit : Option W32) : LongForm :=
  ⟨bitsOf w 2 5, bitsOf w 17 8, w.testBit 25, bitsOf w 26 9, bitsOf w 35 9, bitsOf w 44 9, bitsOf w 53 11, lit⟩

/-- The bits of a long instruction above its opcode. -/
def LongForm.rest (f : LongForm) : Nat :=
  f.dst.toNat + f.w.toNat * 2 ^ 8 + f.sa.toNat * 2 ^ 9 + f.sb.toNat * 2 ^ 18 + f.sc.toNat * 2 ^ 27 + f.mod.toNat * 2 ^ 36

theorem LongForm.rest_lt (f : LongForm) : f.rest < 2 ^ 47 := by
  have := f.w.toNat_lt
  unfold LongForm.rest; omega

theorem encL_eq (opc : Nat) (f : LongForm) : encL opc f = twoParcels (wideWord f.lit f.g opc f.rest) ++ f.lit.toList := by
  have h : (if f.lit.isSome then 2 else 1) + f.g.toNat * 4 + opc * 2 ^ 7 + f.dst.toNat * 2 ^ 17 + f.w.toNat * 2 ^ 25 +
      f.sa.toNat * 2 ^ 26 + f.sb.toNat * 2 ^ 35 + f.sc.toNat * 2 ^ 44 + f.mod.toNat * 2 ^ 53 =
      wideWord f.lit f.g opc f.rest := by
    unfold wideWord LongForm.rest lenBits; omega
  rw [encL, h, twoParcels]

theorem encLB_eq (opc : Nat) (b : LongBranch) : encLB opc b = twoParcels (wideWord none b.g opc (b.off.toNat * 2 ^ 18)) := by
  have h : 1 + b.g.toNat * 4 + opc * 2 ^ 7 + b.off.toNat * 2 ^ 35 = wideWord none b.g opc (b.off.toNat * 2 ^ 18) := by
    rw [wideWord, show lenBits none = 1 from rfl]; omega
  rw [encLB, h, twoParcels]

theorem longFields_wideWord {opc : Nat} (ho : opc < 2 ^ 10) (f : LongForm) :
    longFields (wideWord f.lit f.g opc f.rest) f.lit = f := by
  have := lenBits_lt f.lit
  have := f.w.toNat_lt
  cases f
  simp only [longFields, LongForm.mk.injEq, bitsOf_eq_iff, testBit_eq_iff, wideWord, LongForm.rest] at *
  refine ⟨?_, ?_, ?_, ?_, ?_, ?_, ?_, trivial⟩
  all_goals omega

theorem rest_longFields {w : Nat} (hw : w < 2 ^ 64) (lit : Option W32) : (longFields w lit).rest = w / 2 ^ 17 := by
  simp only [LongForm.rest, longFields, toNat_bitsOf, toNat_testBit]; omega

/-! ### What the parser answers for such a word -/

section
variable {w : Nat} {lit : Option W32} {i : Instr}

theorem parseLong_hint (h : 0x3C0 ≤ (bitsOf w 7 10).toNat) :
    parseLong w lit = .ok (.hintL (bitsOf w 2 5) (bitsOf w 7 6) (bitsOf w 17 47) lit) := by
  simp only [parseLong, if_pos h]

theorem parseLong_branch (h : ¬ 0x3C0 ≤ (bitsOf w 7 10).toNat)
    (hb : branchRow (bitsOf w 7 10).toNat ⟨bitsOf w 2 5, bitsOf w 35 29⟩ = some i) :
    parseLong w lit = if lit.isNone && bitsOf w 17 18 == 0#18 then .ok i else .error .wrongFormat := by
  simp only [parseLong, if_neg h, hb]

theorem parseLong_row (h : ¬ 0x3C0 ≤ (bitsOf w 7 10).toNat)
    (hb : branchRow (bitsOf w 7 10).toNat ⟨bitsOf w 2 5, bitsOf w 35 29⟩ = none)
    (hr : longRow (bitsOf w 7 10).toNat (longFields w lit) = some i) : parseLong w lit = .ok i := by
  rw [longFields] at hr
  simp only [parseLong, if_neg h, hb, hr]

theorem parseLong_reserved (h : ¬ 0x3C0 ≤ (bitsOf w 7 10).toNat)
    (hb : branchRow (bitsOf w 7 10).toNat ⟨bitsOf w 2 5, bitsOf w 35 29⟩ = none)
    (hr : longRow (bitsOf w 7 10).toNat (longFields w lit) = none) : parseLong w lit = .error .reservedOpcode := by
  rw [longFields] at hr
  simp only [parseLong, if_neg h, hb, hr]
end

/-! ## The rows of the parser and of the encoder (04 Table 4.13) -/

theorem longOpc_ite {p : Prop} [Decidable p] {i j : Instr} {x : Option (Nat × LongForm)} (hi : longOpc i = x)
    (hj : longOpc j = x) : longOpc (if p then i else j) = x := by
  split <;> assumption

/-- What a row of the opcode map answers has that row's opcode; eight rows choose their instruction by `op` or `hint`. -/
theorem longOpc_of_longRow {opc : Nat} {f : LongForm} {i : Instr} (h : longRow opc f = some i) :
    longOpc i = some (opc, f) := by
  unfold longRow at h
  split at h <;> cases h
  case h_90.refl | h_94.refl | h_128.refl | h_130.refl | h_134.refl | h_135.refl => exact longOpc_ite rfl rfl
  case h_141.refl | h_142.refl => exact longOpc_ite rfl (longOpc_ite rfl (longOpc_ite rfl rfl))
  all_goals rfl

theorem encode_of_longOpc {opc : Nat} {f : LongForm} {i : Instr} (h : longOpc i = some (opc, f)) : encode i = encL opc f := by
  unfold encode
  split
  case h_34 => rw [h]
  all_goals cases h

theorem longOpc_of_bolterWord {i : Instr} {w : Nat} (h : bolterWord i = some w) : longOpc i = none := by
  unfold bolterWord at h
  split at h
  case h_24 => cases h
  all_goals rfl

theorem encode_of_bolterWord {i : Instr} {w : Nat} (h : bolterWord i = some w) : encode i = [BitVec.ofNat 32 w] := by
  unfold encode
  split
  case h_34 => rw [longOpc_of_bolterWord h, h]
  all_goals cases h

theorem encode_of_branchRow {opc : Nat} {b : LongBranch} {i : Instr} (h : branchRow opc b = some i) :
    encode i = encLB opc b := by
  unfold branchRow at h
  split at h <;> cases h <;> rfl

/-! ## Format S (04 Table 4.4) -/

/-- The word of a short instruction: its guard, its opcode, and the 17 bits above them. -/
def shortWord (g : BitVec 5) (opc hi : Nat) : Nat := g.toNat * 4 + opc * 2 ^ 7 + hi * 2 ^ 15

section
variable (g : BitVec 5) (opc hi : Nat)

theorem encS_eq : encS opc g hi = [BitVec.ofNat 32 (shortWord g opc hi)] := rfl

theorem shortWord_len : shortWord g opc hi % 4 = 0 := by rw [shortWord]; omega

theorem shortWord_lt (ho : opc < 2 ^ 8) (hh : hi < 2 ^ 17) : shortWord g opc hi < 2 ^ 32 := by rw [shortWord]; omega

theorem shortWord_guard : bitsOf (shortWord g opc hi) 2 5 = g := by rw [bitsOf_eq_iff, shortWord]; omega

theorem shortWord_opc : bitsOf (shortWord g opc hi) 7 8 = BitVec.ofNat 8 opc := by
  rw [bitsOf_eq_iff, shortWord, BitVec.toNat_ofNat]; omega

theorem shortWord_hint : bitsOf (shortWord g opc hi) 7 4 = BitVec.ofNat 4 opc := by
  rw [bitsOf_eq_iff, shortWord, BitVec.toNat_ofNat]; omega

variable (ho : opc < 2 ^ 8)
include ho

theorem shortWord_off : bitsOf (shortWord g opc hi) 15 17 = BitVec.ofNat 17 hi := by
  rw [bitsOf_eq_iff, shortWord, BitVec.toNat_ofNat]; omega

theorem shortWord_sa : bitsOf (shortWord g opc hi) 15 9 = BitVec.ofNat 9 hi := by
  rw [bitsOf_eq_iff, shortWord, BitVec.toNat_ofNat]; omega

theorem shortWord_dst : bitsOf (shortWord g opc hi) 24 8 = BitVec.ofNat 8 (hi / 2 ^ 9) := by
  rw [bitsOf_eq_iff, shortWord, BitVec.toNat_ofNat]; omega

end

section
variable {p : W32} (hl : p.toNat % 4 = 0)
include hl

theorem encS_of_fields {opc : Nat} (ho : (bitsOf p.toNat 7 8).toNat = opc) :
    encS opc (bitsOf p.toNat 2 5) (bitsOf p.toNat 15 17).toNat = [p] := by
  rw [encS, List.singleton_inj, ← ho]
  refine BitVec.eq_of_toNat_eq ?_
  simp only [BitVec.toNat_ofNat, toNat_bitsOf]; omega

theorem encS_of_fields_zero {opc : Nat} (ho : (bitsOf p.toNat 7 8).toNat = opc) (hz : (bitsOf p.toNat 15 17 == 0#17) = true) :
    encS opc (bitsOf p.toNat 2 5) 0 = [p] := by
  rw [← encS_of_fields hl ho, eq_of_beq hz]; rfl

theorem encS1_of_fields {opc : Nat} (ho : (bitsOf p.toNat 7 8).toNat = opc) :
    encS1 opc ⟨bitsOf p.toNat 2 5, bitsOf p.toNat 24 8, bitsOf p.toNat 15 9⟩ = [p] := by
  rw [← encS_of_fields hl ho, encS1]
  congr 1
  simp only [toNat_bitsOf]; omega

/-- Where a short word is read as an instruction, it is that instruction's: the formats S0, S2 and S1 in the order of the
opcodes, and `MWAIT_S`, which uses format S1 without its source. -/
theorem encode_of_parseShort {i : Instr} (h : parseShort p.toNat = .ok i) : encode i = [p] := by
  simp only [parseShort] at h
  split at h
  next hhint =>
    cases h
    refine encS_of_fields hl ?_
    simp only [toNat_bitsOf] at hhint ⊢
    omega
  next =>
    split at h
    case h_28 hopc =>
      split at h
      next hsa =>
        cases h
        have h1 := encS1_of_fields hl hopc
        rw [encS1, eq_of_beq hsa, show (0#9).toNat = 0 from rfl, Nat.zero_add] at h1
        exact h1
      next => cases h
    case h_29 => cases h
    case h_10 hopc | h_11 hopc | h_12 hopc => cases h; exact encS_of_fields hl hopc
    case h_1 hopc | h_2 hopc | h_3 hopc | h_4 hopc | h_5 hopc | h_6 hopc | h_7 hopc | h_8 hopc | h_9 hopc =>
      split at h
      next hz => cases h; exact encS_of_fields_zero hl hopc hz
      next => cases h
    all_goals
      rename_i hopc
      cases h
      exact encS1_of_fields hl hopc

end

/-! ## An instruction is read back from its parcels -/

/-- A well-formed instruction is read back from its parcels, whatever stands after them. -/
def ReadsBack (i : Instr) : Prop :=
  ∀ x y z : W32, decode ((encode i).getD 0 x) ((encode i).getD 1 y) ((encode i).getD 2 z) = .ok i ∧
    lengthOf ((encode i).getD 0 x) = (encode i).length

section
variable {x y z : W32}

theorem parse_reserved (h : lengthOf x = 0) : parse x y z = .error .reservedLength := by simp only [parse, h]
theorem parse_one (h : lengthOf x = 1) : parse x y z = parseShort x.toNat := by simp only [parse, h]
theorem parse_two (h : lengthOf x = 2) : parse x y z = parseLong (x.toNat + y.toNat * 2 ^ 32) none := by simp only [parse, h]
theorem parse_three (h : lengthOf x = 3) : parse x y z = parseLong (x.toNat + y.toNat * 2 ^ 32) (some z) := by
  simp only [parse, h]

end

theorem decode_of_parse {x y z : W32} {i : Instr} (h : parse x y z = .ok i) (hw : i.wf = true) : decode x y z = .ok i := by
  simp only [decode, h, hw, if_true]

theorem parse_of_decode {x y z : W32} {i : Instr} (h : decode x y z = .ok i) : parse x y z = .ok i := by
  unfold decode at h
  split at h
  next j hj =>
    split at h
    · rw [hj, h]
    · cases h
  next => cases h

/-- A short instruction is read back where the parser answers it for its word. -/
theorem readsBack_short {i : Instr} {g : BitVec 5} {opc hi : Nat} (henc : encode i = encS opc g hi) (ho : opc < 2 ^ 8)
    (hh : hi < 2 ^ 17) (hw : i.wf = true) (hp : parseShort (shortWord g opc hi) = .ok i) : ReadsBack i := by
  intro x y z
  have hn : (BitVec.ofNat 32 (shortWord g opc hi)).toNat = shortWord g opc hi := by
    rw [BitVec.toNat_ofNat, Nat.mod_eq_of_lt (shortWord_lt g opc hi ho hh)]
  have hl : lengthOf (BitVec.ofNat 32 (shortWord g opc hi)) = 1 := by rw [lengthOf_eq, hn, shortWord_len]; rfl
  simp only [henc, encS_eq, List.getD_cons_zero, List.getD_cons_succ, List.getD_nil, List.length_singleton]
  refine ⟨decode_of_parse ?_ hw, hl⟩
  rw [parse_one hl, hn, hp]

/-- A long instruction is read back where the parser answers it for its word, with its literal parcel. -/
theorem readsBack_wide {i : Instr} {lit : Option W32} {g : BitVec 5} {opc rest : Nat}
    (henc : encode i = twoParcels (wideWord lit g opc rest) ++ lit.toList) (ho : opc < 2 ^ 10) (hr : rest < 2 ^ 47)
    (hw : i.wf = true) (hp : parseLong (wideWord lit g opc rest) lit = .ok i) : ReadsBack i := by
  intro x y z
  have hn := twoParcels_toNat (wideWord_lt lit g ho rest hr)
  have hl : lengthOf (BitVec.ofNat 32 (wideWord lit g opc rest)) = lenBits lit + 1 := by
    have hmod : wideWord lit g opc rest % 2 ^ 32 % 4 = lenBits lit := by
      rw [← wideWord_len lit g (opc := opc) rest]; omega
    rw [lengthOf_eq, BitVec.toNat_ofNat, hmod]
    cases lit <;> rfl
  rw [← hn] at hp
  rw [henc]
  refine ⟨decode_of_parse ?_ hw, ?_⟩
  · cases lit with
    | none => exact (parse_two hl).trans hp
    | some l => exact (parse_three hl).trans hp
  · cases lit <;> exact hl

/-- The bits of format S1 above the opcode. -/
def ShortForm.high (f : ShortForm) : Nat := f.sa.toNat + f.dst.toNat * 2 ^ 9

theorem ShortForm.high_lt (f : ShortForm) : f.high < 2 ^ 17 := by unfold ShortForm.high; omega

/-- The fields of a short word of format S1 are its form's. -/
theorem shortWord_form (f : ShortForm) {opc : Nat} (ho : opc < 2 ^ 8) :
    (⟨bitsOf (shortWord f.g opc f.high) 2 5, bitsOf (shortWord f.g opc f.high) 24 8,
      bitsOf (shortWord f.g opc f.high) 15 9⟩ : ShortForm) = f := by
  cases f
  simp only [ShortForm.mk.injEq, bitsOf_eq_iff, shortWord, ShortForm.high]
  omega

theorem readsBack_hintS (g : BitVec 5) (h : BitVec 4) (x : BitVec 17) : ReadsBack (.hintS g h x) := by
  have hh := h.isLt
  refine readsBack_short (opc := 0xF0 + h.toNat) (hi := x.toNat) rfl (by omega) x.isLt ?_ ?_
  · simpa [Instr.wf] using hh
  · have hopc : 0xF0 ≤ (bitsOf (shortWord g (0xF0 + h.toNat) x.toNat) 7 8).toNat := by
      rw [shortWord_opc, BitVec.toNat_ofNat]; omega
    have hhint : BitVec.ofNat 4 (0xF0 + h.toNat) = h := BitVec.eq_of_toNat_eq (by rw [BitVec.toNat_ofNat]; omega)
    have hoff := shortWord_off g (0xF0 + h.toNat) x.toNat (by omega)
    simp only [parseShort, if_pos hopc, shortWord_guard, shortWord_hint, hhint, hoff, BitVec.ofNat_toNat, BitVec.setWidth_eq]

theorem readsBack_hintL (g : BitVec 5) (h : BitVec 6) (x : BitVec 47) (lit : Option W32) : ReadsBack (.hintL g h x lit) := by
  have hh := h.isLt
  have ho : 0x3C0 + h.toNat < 2 ^ 10 := by omega
  refine readsBack_wide (lit := lit) (g := g) (opc := 0x3C0 + h.toNat) (rest := x.toNat) rfl ho x.isLt ?_ ?_
  · simpa [Instr.wf] using hh
  · rw [parseLong_hint (by rw [wideWord_opc lit g ho]; omega), wideWord_guard]
    have hb : bitsOf (wideWord lit g (0x3C0 + h.toNat) x.toNat) 7 6 = h := by
      have := wideWord_opc lit g ho x.toNat
      rw [toNat_bitsOf] at this
      rw [bitsOf_eq_iff]; omega
    have hx : bitsOf (wideWord lit g (0x3C0 + h.toNat) x.toNat) 17 47 = x := by
      rw [bitsOf_eq_iff, wideWord_div lit g ho, Nat.mod_eq_of_lt x.isLt]
    rw [hb, hx]

theorem readsBack_branch {opc : Nat} {b : LongBranch} {i : Instr} (hrow : branchRow opc b = some i) (ho : opc < 0x3C0)
    (hw : i.wf = true) : ReadsBack i := by
  have ho' : opc < 2 ^ 10 := by omega
  have hopc := wideWord_opc none b.g ho' (b.off.toNat * 2 ^ 18)
  have hdiv := wideWord_div none b.g ho' (b.off.toNat * 2 ^ 18)
  have hb : (⟨bitsOf (wideWord none b.g opc (b.off.toNat * 2 ^ 18)) 2 5,
      bitsOf (wideWord none b.g opc (b.off.toNat * 2 ^ 18)) 35 29⟩ : LongBranch) = b := by
    have hoff : bitsOf (wideWord none b.g opc (b.off.toNat * 2 ^ 18)) 35 29 = b.off := by rw [bitsOf_eq_iff]; omega
    rw [wideWord_guard, hoff]
  have hz : bitsOf (wideWord none b.g opc (b.off.toNat * 2 ^ 18)) 17 18 = 0#18 := by
    rw [bitsOf_eq_iff, hdiv]; simp
  refine readsBack_wide (by rw [encode_of_branchRow hrow, encLB_eq]; rfl) ho' (by omega) hw ?_
  rw [parseLong_branch (by omega) (by rw [hopc, hb, hrow]), hz]
  rfl

theorem readsBack_row {opc : Nat} {f : LongForm} {i : Instr} (h : longOpc i = some (opc, f)) (ho : opc < 0x3C0)
    (hb : ∀ b, branchRow opc b = none) (hr : longRow opc f = some i) (hw : i.wf = true) : ReadsBack i := by
  have ho' : opc < 2 ^ 10 := by omega
  have hopc := wideWord_opc f.lit f.g ho' f.rest
  refine readsBack_wide (by rw [encode_of_longOpc h, encL_eq]) ho' f.rest_lt hw ?_
  exact parseLong_row (by omega) (by rw [hopc, hb]) (by rw [hopc, longFields_wideWord ho', hr])

/-- Every long instruction's row of the opcode map is read back: the lemmas of the constructors, together. -/
theorem row_statement (i : Instr) : Laws.Row.Statement i := by
  cases i with
  | mov f => exact Laws.Row.mov f | movl f => exact Laws.Row.movl f | lea f => exact Laws.Row.lea f
  | iadd f => exact Laws.Row.iadd f | isub f => exact Laws.Row.isub f | imul f => exact Laws.Row.imul f
  | imulh f => exact Laws.Row.imulh f | imad f => exact Laws.Row.imad f | idiv f => exact Laws.Row.idiv f
  | irem f => exact Laws.Row.irem f | imin f => exact Laws.Row.imin f | imax f => exact Laws.Row.imax f
  | iabs f => exact Laws.Row.iabs f | ineg f => exact Laws.Row.ineg f | and f => exact Laws.Row.and f
  | or f => exact Laws.Row.or f | xor f => exact Laws.Row.xor f | andn f => exact Laws.Row.andn f
  | not f => exact Laws.Row.not f | shl f => exact Laws.Row.shl f | shr f => exact Laws.Row.shr f
  | sar f => exact Laws.Row.sar f | rol f => exact Laws.Row.rol f | bfx f => exact Laws.Row.bfx f
  | bfi f => exact Laws.Row.bfi f | popc f => exact Laws.Row.popc f | clz f => exact Laws.Row.clz f
  | brev f => exact Laws.Row.brev f | sel f => exact Laws.Row.sel f | icmp f => exact Laws.Row.icmp f
  | kand f => exact Laws.Row.kand f | kor f => exact Laws.Row.kor f | kxor f => exact Laws.Row.kxor f
  | knot f => exact Laws.Row.knot f | kmov f => exact Laws.Row.kmov f | kpop f => exact Laws.Row.kpop f
  | brx f => exact Laws.Row.brx f | ret f => exact Laws.Row.ret f | yield f => exact Laws.Row.yield f
  | exit f => exact Laws.Row.exit f | nop f => exact Laws.Row.nop f | srd f => exact Laws.Row.srd f
  | swr f => exact Laws.Row.swr f | reggrow f => exact Laws.Row.reggrow f | regshrink f => exact Laws.Row.regshrink f
  | shape f => exact Laws.Row.shape f | idx f => exact Laws.Row.idx f | unif f => exact Laws.Row.unif f
  | fadd f => exact Laws.Row.fadd f | fsub f => exact Laws.Row.fsub f | fmul f => exact Laws.Row.fmul f
  | ffma f => exact Laws.Row.ffma f | fmin f => exact Laws.Row.fmin f | fmax f => exact Laws.Row.fmax f
  | fcmp f => exact Laws.Row.fcmp f | fclass f => exact Laws.Row.fclass f | frnd f => exact Laws.Row.frnd f
  | hadd2 f => exact Laws.Row.hadd2 f | hmul2 f => exact Laws.Row.hmul2 f | hfma2 f => exact Laws.Row.hfma2 f
  | dot4 f => exact Laws.Row.dot4 f | dot2 f => exact Laws.Row.dot2 f | cvt r f => exact Laws.Row.cvt r f
  | cvts r f => exact Laws.Row.cvts r f | pack4 f => exact Laws.Row.pack4 f | unpack4 f => exact Laws.Row.unpack4 f
  | rcp f => exact Laws.Row.rcp f | rsq f => exact Laws.Row.rsq f | sqrt f => exact Laws.Row.sqrt f
  | ex2 f => exact Laws.Row.ex2 f | lg2 f => exact Laws.Row.lg2 f | sin f => exact Laws.Row.sin f
  | cos f => exact Laws.Row.cos f | tanh f => exact Laws.Row.tanh f | shfl f => exact Laws.Row.shfl f
  | vote f => exact Laws.Row.vote f | ballot f => exact Laws.Row.ballot f | matchL f => exact Laws.Row.matchL f
  | lscan f => exact Laws.Row.lscan f | lred f => exact Laws.Row.lred f | lfirst f => exact Laws.Row.lfirst f
  | trap f => exact Laws.Row.trap f | tret f => exact Laws.Row.tret f | ctxsave f => exact Laws.Row.ctxsave f
  | ctxsaveKeep f => exact Laws.Row.ctxsaveKeep f | ctxload f => exact Laws.Row.ctxload f
  | pdone f => exact Laws.Row.pdone f | depwait f => exact Laws.Row.depwait f | frecGet f => exact Laws.Row.frecGet f
  | frecFwd f => exact Laws.Row.frecFwd f | ld f => exact Laws.Row.ld f | st f => exact Laws.Row.st f
  | ldg f => exact Laws.Row.ldg f | stg f => exact Laws.Row.stg f | lde f => exact Laws.Row.lde f
  | ste f => exact Laws.Row.ste f | atom op f => exact Laws.Row.atom op f | red op f => exact Laws.Row.red op f
  | waitc f => exact Laws.Row.waitc f | fld f => exact Laws.Row.fld f | fset f => exact Laws.Row.fset f
  | mbsend f => exact Laws.Row.mbsend f | mbrecv f => exact Laws.Row.mbrecv f | mbpeek f => exact Laws.Row.mbpeek f
  | fence f => exact Laws.Row.fence f | xfence f => exact Laws.Row.xfence f | cflush f => exact Laws.Row.cflush f
  | cinv f => exact Laws.Row.cinv f | cinvCode f => exact Laws.Row.cinvCode f | pref f => exact Laws.Row.pref f
  | evpost f => exact Laws.Row.evpost f | evpostBuf f => exact Laws.Row.evpostBuf f
  | evbar f => exact Laws.Row.evbar f | amload f => exact Laws.Row.amload f | amarm f => exact Laws.Row.amarm f
  | amdisarm f => exact Laws.Row.amdisarm f | amdisarmFree f => exact Laws.Row.amdisarmFree f
  | amsave f => exact Laws.Row.amsave f | amsaveStop f => exact Laws.Row.amsaveStop f
  | amrestore f => exact Laws.Row.amrestore f | bequeath f => exact Laws.Row.bequeath f
  | grpbar f => exact Laws.Row.grpbar f | gangbar f => exact Laws.Row.gangbar f
  | stagebar f => exact Laws.Row.stagebar f | ownClaim f => exact Laws.Row.ownClaim f
  | ownSelf f => exact Laws.Row.ownSelf f | ownWord f => exact Laws.Row.ownWord f
  | ownMbox f => exact Laws.Row.ownMbox f | disownClaim f => exact Laws.Row.disownClaim f
  | disownSelf f => exact Laws.Row.disownSelf f | disownWord f => exact Laws.Row.disownWord f
  | disownMbox f => exact Laws.Row.disownMbox f | helpq f => exact Laws.Row.helpq f
  | mtask f => exact Laws.Row.mtask f | mwait f => exact Laws.Row.mwait f | mpoll f => exact Laws.Row.mpoll f
  | binld f => exact Laws.Row.binld f | binst f => exact Laws.Row.binst f | binz f => exact Laws.Row.binz f
  | bldp f => exact Laws.Row.bldp f | cpy f => exact Laws.Row.cpy f | cpy2 f => exact Laws.Row.cpy2 f
  | cpyt f => exact Laws.Row.cpyt f | cpyr f => exact Laws.Row.cpyr f | cpyq f => exact Laws.Row.cpyq f
  | strel f => exact Laws.Row.strel f | netq f => exact Laws.Row.netq f
  | _ => intro _ _ h; cases h

/-- Every well-formed core instruction is read back: the cases are the arms of the encoder, in its order. -/
theorem readsBack_of_wf {i : Instr} (hw : i.wf = true) (hb : bolterWord i = none) (he : encode i ≠ []) : ReadsBack i := by
  have hlong := row_statement i
  unfold encode at he
  split at he
  case h_29 => exact readsBack_hintS _ _ _
  case h_33 => exact readsBack_hintL _ _ _ _
  case h_30 f => exact readsBack_branch (opc := 0x030) (b := f) rfl (by decide) hw
  case h_31 f => exact readsBack_branch (opc := 0x032) (b := f) rfl (by decide) hw
  case h_32 f => exact readsBack_branch (opc := 0x034) (b := f) rfl (by decide) hw
  case h_28 g d =>
    refine readsBack_short (opc := 0x30) (hi := d.toNat * 512) rfl (by decide) (by omega) hw ?_
    have hsa : BitVec.ofNat 9 (d.toNat * 512) = 0#9 := BitVec.eq_of_toNat_eq (by simp)
    simp [parseShort, shortWord_guard, shortWord_opc, shortWord_sa, shortWord_dst, hsa]
  case h_10 f | h_11 f | h_12 f =>
    refine readsBack_short rfl (by decide) f.off.isLt hw ?_
    simp [parseShort, shortWord_guard, shortWord_opc, shortWord_off]
  case h_1 | h_2 | h_3 | h_4 | h_5 | h_6 | h_7 | h_8 | h_9 =>
    refine readsBack_short rfl (by decide) (by decide) hw ?_
    simp [parseShort, shortWord_guard, shortWord_opc, shortWord_off]
  case h_34 =>
    cases hl : longOpc i with
    | some x =>
      obtain ⟨ho, hbr, hr⟩ := hlong _ _ hl hw
      exact readsBack_row hl ho hbr hr hw
    | none => simp only [hl, hb, ne_eq, not_true_eq_false] at he
  all_goals
    rename_i f
    refine readsBack_short (hi := f.high) rfl (by decide) f.high_lt hw ?_
    simp [parseShort, shortWord_form, shortWord_opc]

/-! ## Parcels that are read are the instruction's -/

/-- Where a word of 64 bits is read as an instruction, it is that instruction's: a hint, a row of format LB, or one of formats
L and X. -/
theorem encode_of_parseLong {w : Nat} (hw : w < 2 ^ 64) {lit : Option W32} (hl : w % 4 = lenBits lit) {i : Instr}
    (h : parseLong w lit = .ok i) : encode i = twoParcels w ++ lit.toList := by
  have hword := wideWord_of_fields hl
  by_cases hhint : 0x3C0 ≤ (bitsOf w 7 10).toNat
  · rw [parseLong_hint hhint] at h
    cases h
    have hopc : 0x3C0 + (bitsOf w 7 6).toNat = (bitsOf w 7 10).toNat := by
      simp only [toNat_bitsOf] at hhint ⊢; omega
    have hrest : (bitsOf w 17 47).toNat = w / 2 ^ 17 := by rw [toNat_bitsOf]; omega
    rw [← hopc, ← hrest] at hword
    exact congrArg (fun w => twoParcels w ++ lit.toList) hword
  · cases hb : branchRow (bitsOf w 7 10).toNat ⟨bitsOf w 2 5, bitsOf w 35 29⟩ with
    | some j =>
      rw [parseLong_branch hhint hb] at h
      split at h
      next hz =>
        cases h
        rw [Bool.and_eq_true, Option.isNone_iff_eq_none, beq_iff_eq, bitsOf_eq_iff] at hz
        obtain ⟨rfl, hz⟩ := hz
        have hrest : (bitsOf w 35 29).toNat * 2 ^ 18 = w / 2 ^ 17 := by
          rw [toNat_bitsOf]; simp only [BitVec.toNat_ofNat] at hz; omega
        rw [encode_of_branchRow hb, encLB_eq, hrest, hword]; rfl
      next => cases h
    | none =>
      cases hr : longRow (bitsOf w 7 10).toNat (longFields w lit) with
      | none => rw [parseLong_reserved hhint hb hr] at h; cases h
      | some j =>
        rw [parseLong_row hhint hb hr] at h
        cases h
        rw [encode_of_longOpc (longOpc_of_longRow hr), encL_eq, rest_longFields hw]
        exact congrArg (fun w => twoParcels w ++ lit.toList) hword

/-- Parcels that are read as an instruction are that instruction's. -/
theorem encode_of_decode {x y z : W32} {i : Instr} (h : decode x y z = .ok i) : encode i = [x, y, z].take (lengthOf x) := by
  have hp := parse_of_decode h
  have hl := lengthOf_eq x
  have hlt := Nat.mod_lt x.toNat (by decide : 0 < 4)
  have hw : x.toNat + y.toNat * 2 ^ 32 < 2 ^ 64 := by omega
  have hlen : lengthOf x = 0 ∨ lengthOf x = 1 ∨ lengthOf x = 2 ∨ lengthOf x = 3 := by
    rw [hl]; split <;> omega
  rcases hlen with h0 | h1 | h2 | h3
  · rw [parse_reserved h0] at hp; cases hp
  · rw [parse_one h1] at hp
    rw [h1]
    exact encode_of_parseShort (by rw [h1] at hl; split at hl <;> omega) hp
  · rw [parse_two h2] at hp
    have hbits : (x.toNat + y.toNat * 2 ^ 32) % 4 = lenBits none := by
      rw [h2] at hl; rw [show lenBits none = 1 from rfl]; split at hl <;> omega
    rw [h2, encode_of_parseLong hw hbits hp, twoParcels_of_toNat]
    rfl
  · rw [parse_three h3] at hp
    have hbits : (x.toNat + y.toNat * 2 ^ 32) % 4 = lenBits (some z) := by
      rw [h3] at hl; rw [show lenBits (some z) = 2 from rfl]; split at hl <;> omega
    rw [h3, encode_of_parseLong hw hbits hp, twoParcels_of_toNat]
    rfl

/-! ## Bolter words (23 R356) -/

/-- What a bolter word's fields are (23 Table 23.8): the opcode, four registers, and the 14 bits below them. -/
structure BoltFields (p op : Nat) (d a b x : BitVec 3) (lo : Nat) : Prop where
  op : (bitsOf p 26 6).toNat = op
  d  : bitsOf p 23 3 = d
  a  : bitsOf p 20 3 = a
  b  : bitsOf p 17 3 = b
  x  : bitsOf p 14 3 = x
  lo : p % 2 ^ 14 = lo

section
variable {p op lo : Nat} {d a b x : BitVec 3}

theorem BoltFields.bit {v : Bool} (h : BoltFields p op d a b x v.toNat) : p.testBit 0 = v := by
  have := h.lo
  have := v.toNat_lt
  rw [testBit_eq_iff]; omega

theorem BoltFields.fmt {f : BitVec 4} (h : BoltFields p op d a b x f.toNat) : bitsOf p 0 4 = f := by
  have := h.lo
  rw [bitsOf_eq_iff]; omega

theorem BoltFields.idx {j : BitVec 7} (h : BoltFields p op d a b x j.toNat) : bitsOf p 0 7 = j := by
  have := h.lo
  rw [bitsOf_eq_iff]; omega

end

/-- The word that holds some fields. -/
def boltWord (op : Nat) (d a b x : BitVec 3) (lo : Nat) : Nat :=
  op * 2 ^ 26 + d.toNat * 2 ^ 23 + a.toNat * 2 ^ 20 + b.toNat * 2 ^ 17 + x.toNat * 2 ^ 14 + lo

section
variable {op lo : Nat} (d a b x : BitVec 3) (ho : op < 2 ^ 6) (hl : lo < 2 ^ 14)
include ho hl

theorem boltWord_lt : boltWord op d a b x lo < 2 ^ 32 := by rw [boltWord]; omega

theorem boltFields_boltWord : BoltFields (boltWord op d a b x lo) op d a b x lo := by
  constructor <;> simp only [bitsOf_eq_iff, toNat_bitsOf, boltWord] <;> omega

end

/-- An operation that the parser answers for every word with its fields is read back from its word. -/
theorem reads_of_fields {i : Instr} {w : Nat} (op : Nat) (d a b x : BitVec 3) (lo : Nat)
    (hp : ∀ p, BoltFields p op d a b x lo → parseBolter p = some i) (hw : boltWord op d a b x lo = w := by simp [boltWord])
    (ho : op < 2 ^ 6 := by decide) (hl : lo < 2 ^ 14 := by decide) : w < 2 ^ 32 ∧ parseBolter w = some i := by
  subst hw
  exact ⟨boltWord_lt d a b x ho hl, hp _ (boltFields_boltWord d a b x ho hl)⟩

/-- Every bolter operation is read back from its word: the cases are the arms of `bolterWord`, in its order. -/
theorem parseBolter_of_bolterWord {i : Instr} {w : Nat} (h : bolterWord i = some w) :
    w < 2 ^ 32 ∧ parseBolter w = some i := by
  have hv (v : Bool) : v.toNat < 2 ^ 14 := v.toNat_lt.trans (by decide)
  unfold bolterWord at h
  split at h
  case h_24 => cases h
  all_goals obtain rfl := Option.some.inj h
  case h_1 =>
    exact reads_of_fields 0x00 0 0 0 0 0
      (fun _ hp => by simp only [parseBolter, hp.op])
  case h_2 =>
    exact reads_of_fields 0x01 0 0 0 0 0
      (fun _ hp => by simp only [parseBolter, hp.op])
  case h_3 d v =>
    exact reads_of_fields 0x02 d 0 0 0 v.toNat
      (fun _ hp => by simp only [parseBolter, hp.op, hp.d, hp.bit]) (hl := hv v)
  case h_4 a =>
    exact reads_of_fields 0x03 0 a 0 0 0
      (fun _ hp => by simp only [parseBolter, hp.op, hp.a])
  case h_5 d x =>
    exact reads_of_fields 0x04 d 0 0 x 0
      (fun _ hp => by simp only [parseBolter, hp.op, hp.d, hp.x])
  case h_6 d x v =>
    exact reads_of_fields 0x05 d 0 0 x v.toNat
      (fun _ hp => by simp only [parseBolter, hp.op, hp.d, hp.x, hp.bit]) (hl := hv v)
  case h_7 d x v =>
    exact reads_of_fields 0x06 d 0 0 x v.toNat
      (fun _ hp => by simp only [parseBolter, hp.op, hp.d, hp.x, hp.bit]) (hl := hv v)
  case h_8 d a b =>
    exact reads_of_fields 0x07 d a b 0 0
      (fun _ hp => by simp only [parseBolter, hp.op, hp.d, hp.a, hp.b])
  case h_9 d a b =>
    exact reads_of_fields 0x08 d a b 0 0
      (fun _ hp => by simp only [parseBolter, hp.op, hp.d, hp.a, hp.b])
  case h_10 d a b =>
    exact reads_of_fields 0x09 d a b 0 0
      (fun _ hp => by simp only [parseBolter, hp.op, hp.d, hp.a, hp.b])
  case h_11 d a b x =>
    exact reads_of_fields 0x0A d a b x 0
      (fun _ hp => by simp only [parseBolter, hp.op, hp.d, hp.a, hp.b, hp.x])
  case h_12 d a b =>
    exact reads_of_fields 0x0B d a b 0 0
      (fun _ hp => by simp only [parseBolter, hp.op, hp.d, hp.a, hp.b])
  case h_13 d a b =>
    exact reads_of_fields 0x0C d a b 0 0
      (fun _ hp => by simp only [parseBolter, hp.op, hp.d, hp.a, hp.b])
  case h_14 d a b x =>
    exact reads_of_fields 0x0D d a b x 0
      (fun _ hp => by simp only [parseBolter, hp.op, hp.d, hp.a, hp.b, hp.x])
  case h_15 d a =>
    exact reads_of_fields 0x0E d a 0 0 0
      (fun _ hp => by simp only [parseBolter, hp.op, hp.d, hp.a])
  case h_16 d a =>
    exact reads_of_fields 0x0F d a 0 0 0
      (fun _ hp => by simp only [parseBolter, hp.op, hp.d, hp.a])
  case h_17 d a =>
    exact reads_of_fields 0x10 d a 0 0 0
      (fun _ hp => by simp only [parseBolter, hp.op, hp.d, hp.a])
  case h_18 d a =>
    exact reads_of_fields 0x11 d a 0 0 0
      (fun _ hp => by simp only [parseBolter, hp.op, hp.d, hp.a])
  case h_19 d a =>
    exact reads_of_fields 0x12 d a 0 0 0
      (fun _ hp => by simp only [parseBolter, hp.op, hp.d, hp.a])
  case h_20 d a f =>
    exact reads_of_fields 0x13 d a 0 0 f.toNat
      (fun _ hp => by simp only [parseBolter, hp.op, hp.d, hp.a, hp.fmt]) (hl := by omega)
  case h_21 a b j =>
    exact reads_of_fields 0x14 0 a b 0 j.toNat
      (fun _ hp => by simp only [parseBolter, hp.op, hp.a, hp.b, hp.idx]) (hl := by omega)
  case h_22 a x v =>
    exact reads_of_fields 0x15 0 a 0 x v.toNat
      (fun _ hp => by simp only [parseBolter, hp.op, hp.a, hp.x, hp.bit]) (hl := hv v)
  case h_23 a x =>
    exact reads_of_fields 0x16 0 a 0 x 0
      (fun _ hp => by simp only [parseBolter, hp.op, hp.a, hp.x])

theorem decodeBolter_bolterWord {i : Instr} {w : Nat} (hw : i.wf = true) (h : bolterWord i = some w) :
    decodeBolter (BitVec.ofNat 32 w) = .ok i := by
  obtain ⟨hlt, hp⟩ := parseBolter_of_bolterWord h
  simp only [decodeBolter, BitVec.toNat_ofNat, Nat.mod_eq_of_lt hlt, hp, hw, h, beq_self_eq_true, Bool.and_self, if_true]

theorem bolterWord_of_decodeBolter {x : W32} {i : Instr} (h : decodeBolter x = .ok i) : bolterWord i = some x.toNat := by
  unfold decodeBolter at h
  split at h
  next j _ =>
    split at h
    next hj =>
      cases h
      exact eq_of_beq (Bool.and_eq_true_iff.1 hj).2
    next => cases h
  next => cases h

/-! ## The statements -/

/-- Settles O56: a well-formed instruction is read back by `readsBack_of_wf` and `decodeBolter_bolterWord`, from one lemma for
each format; what a decoder answers is written back by `encode_of_decode` and `bolterWord_of_decodeBolter`. -/
theorem roundTrip : Obligations.RoundTrip := by
  unfold Obligations.RoundTrip
  refine ⟨fun i x y z hw hb he => readsBack_of_wf hw hb he x y z, fun i x y z => encode_of_decode,
    fun i w => decodeBolter_bolterWord, fun i x h => ?_⟩
  rw [encode_of_bolterWord (bolterWord_of_decodeBolter h), BitVec.ofNat_toNat, BitVec.setWidth_eq]

/-- Settles O57, by running the decoders on its words. -/
theorem decodesWords : Obligations.DecodesWords := by
  unfold Obligations.DecodesWords
  decide +kernel

end Sys2Proof
end

section
/-! What an instruction with a mask destination does (O21), short forms beside their long forms (O9), and core instructions
that are inactive, illegal, or read a bad register (O55). -/

namespace Sys2Proof.Machine

open Sys2Proof

/-! ## Lane masks (04 R58, 06 R99, 07 R123) -/

@[simp] theorem setMask_zero (t : Thread) (b : Bool) : t.setMask 0 b = t := rfl

/-- Bit `n` of a thread's masks after a write of another mask than `k0`. -/
theorem getLsbD_setMask_k (t : Thread) {d n : Nat} (b : Bool) (hd : d ≠ 0) (hn : n < 8) :
    (t.setMask d b).k.getLsbD n = if d = n then b else t.k.getLsbD n := by
  have hbit : (1#8 <<< d).getLsbD n = decide (d = n) := by
    rw [← BitVec.twoPow_eq, BitVec.getLsbD_twoPow]
    by_cases h : d = n <;> simp [h, hn]
  rw [Thread.setMask, if_neg hd]
  cases b
  · simp only [Bool.false_eq_true, if_false, BitVec.getLsbD_and, BitVec.getLsbD_not, hbit, hn]
    by_cases h : d = n <;> simp [h]
  · simp only [if_true, BitVec.getLsbD_or, hbit]
    by_cases h : d = n <;> simp [h]

theorem mask_setMask (t : Thread) (d : Nat) (b : Bool) {n : Nat} (hn : n < 8) :
    (t.setMask d b).mask n = if d = n ∧ n ≠ 0 then b else t.mask n := by
  rcases eq_or_ne d 0 with rfl | hd
  · rw [setMask_zero, if_neg (by omega)]
  rcases eq_or_ne n 0 with rfl | hn0
  · simp [Thread.mask]
  · simp only [Thread.mask, beq_eq_false_iff_ne.2 hn0, Bool.false_or, getLsbD_setMask_k t b hd hn, hn0, ne_eq, not_false_iff,
      and_true]

theorem setMask_eq (t : Thread) (d : Nat) (b : Bool) : t.setMask d b = { t with k := (t.setMask d b).k } := by
  unfold Thread.setMask
  split <;> rfl

@[simp] theorem setMask_tid (t : Thread) (d : Nat) (b : Bool) : (t.setMask d b).tid = t.tid := by rw [setMask_eq]

/-- The issuing group after an instruction with a mask destination. -/
theorem groupOf_masks (c : Ctx) {s : State} (d : Nat) (v : Thread → Bool) {g : Group} (hg : groupOf s c.cur.gid = some g) :
    ∃ g', groupOf (c.masks s d v) c.cur.gid = some g' ∧ g' = { g with threads := g'.threads } ∧
      g'.threads = g.threads.map fun t =>
        let u := if t.tid ∈ c.act.map (·.tid) then t.setMask d (v t) else t
        if t.tid ∈ c.set.map (·.tid) then { u with pc := c.cur.next } else u := by
  refine ⟨_, by rw [Ctx.masks, groupOf_done, hg, Option.map_some], rfl, ?_⟩
  rw [modThreads_threads, modThreads_threads, List.map_map]
  refine List.map_congr_left fun t _ => ?_
  simp only [Function.comp, List.contains_iff_mem, Ctx.actTids, Ctx.setTids, id, apply_ite Thread.tid, setMask_tid, ite_self]

/-- Settles O21: the frame is `onlyGroup_done`'s, the threads are `groupOf_masks`'s, and a mask is read by `mask_setMask`. -/
theorem maskEffect : Obligations.MaskEffect := by
  unfold Obligations.MaskEffect
  intro s c d v
  exact ⟨onlyGroup_done c s _, fun g => groupOf_masks c d v,
    fun t b n hn => ⟨mask_setMask t d b hn, setMask_eq t d b, setMask_zero t b⟩⟩

/-! ## The long form of a short instruction -/

section
variable (g : BitVec 5) (dst : BitVec 8) (sa : BitVec 9) (ty : Nat)

theorem longForm_mod_toNat : (longForm g dst sa ty).mod.toNat = 64 * (ty % 32) := by
  rw [longForm, BitVec.toNat_ofNat]; omega

@[simp] theorem longForm_ty (h : ty < 32) : (longForm g dst sa ty).ty = ty := by
  rw [LongForm.ty, BitVec.toNat_ushiftRight, longForm_mod_toNat, Nat.shiftRight_eq_div_pow]; omega

@[simp] theorem longForm_op : (longForm g dst sa ty).op = 0 := by
  rw [LongForm.op, BitVec.toNat_and, longForm_mod_toNat]
  exact (Nat.and_two_pow_sub_one_eq_mod _ 6).trans (by omega)

@[simp] theorem longForm_scope : (longForm g dst sa ty).scope = 0 := by
  rw [LongForm.scope, BitVec.toNat_and, BitVec.toNat_ushiftRight, longForm_mod_toNat, Nat.shiftRight_eq_div_pow]
  exact (Nat.and_two_pow_sub_one_eq_mod _ 3).trans (by omega)

@[simp] theorem longForm_hint : (longForm g dst sa ty).hint = 0 := by
  rw [LongForm.hint, BitVec.toNat_and, BitVec.toNat_ushiftRight, longForm_mod_toNat, Nat.shiftRight_eq_div_pow]
  exact (Nat.and_two_pow_sub_one_eq_mod _ 2).trans (by omega)

@[simp] theorem longForm_mod0 : (longForm g dst sa ty).mod0 = false := by
  rw [LongForm.mod0, BitVec.getLsbD, longForm_mod_toNat, Nat.testBit_zero, decide_eq_false_iff_not]; omega

@[simp] theorem longForm_sa : (longForm g dst sa ty).sa = sa := rfl
@[simp] theorem longForm_dst : (longForm g dst sa ty).dst = dst := rfl

/-- A source of a 32-bit type is one register. -/
theorem saRegs_longForm (h : ty < 32) (hw : tyWide ty = false) :
    saRegs (longForm g dst sa ty) (wideRegs (longForm g dst sa ty)) = [(sa.toNat, 1)] := by
  simp [saRegs, wideRegs, wideTy, h, hw]

variable {g dst sa}

/-- A long form that stands for a short one uses no field that its entry leaves unused. -/
theorem longForm_uses {u : Uses} (hd : u.dst = true ∨ dst = 0) (hs : u.sa = true ∨ sa = 0) :
    (longForm g dst sa ty).uses u = guardOk g := by
  simp only [LongForm.uses, longForm]
  rcases hd with hd | rfl <;> rcases hs with hs | rfl <;> simp [*]

end

/-! ## Instructions that run alike -/

/-- Two instructions are legal for the same reasons and read the same registers. -/
structure SameChecks (i j : Instr) : Prop where
  wf : i.wf = j.wf
  src : srcCodes i = srcCodes j

theorem runCore_congr {s : State} {i j : Instr} (h : SameChecks i j) (g : BitVec 5) (res : Bool) (chk : Ctx → Bool)
    (body : Ctx → State) : runCore s i g res chk body = runCore s j g res chk body := by
  have hb : readsBad i = readsBad j := by funext t; simp only [readsBad, readRegs, h.src]
  simp only [runCore, h.wf, hb]

theorem runAlike_of_sameChecks {s : State} {i j : Instr} {g : BitVec 5} {res : Bool} {chk : Ctx → Bool} {body : Ctx → State}
    (h : SameChecks i j) (hi : exec i s = .next (runCore s i g res chk body))
    (hj : exec j s = .next (runCore s j g res chk body)) : RunAlike i j s :=
  ⟨_, hi, hj.trans (by rw [runCore_congr h])⟩

theorem longForm_wf {g : BitVec 5} {dst : BitVec 8} {sa : BitVec 9} {ty : Nat} {u : Uses} {b : Bool}
    (hb : b = true) (hd : u.dst = true ∨ dst = 0) (hs : u.sa = true ∨ sa = 0) :
    guardOk g = ((longForm g dst sa ty).uses u && b) := by
  rw [longForm_uses ty hd hs, hb, Bool.and_true]

/-- `RET` with `op` 0 returns through the stack (07 R128). -/
theorem exec_ret_longForm (s : State) (g : BitVec 5) : exec (.ret (longForm g 0 0 0)) s =
    .next (retOp s (.ret (longForm g 0 0 0)) g (fun _ => true) none) := by
  have hexec : exec (.ret (longForm g 0 0 0)) s = execRet (longForm g 0 0 0) s := rfl
  simp only [hexec, execRet, longForm_op, beq_self_eq_true, Bool.true_or, Nat.zero_ne_one, if_false]
  rfl

/-- Settles O9: each pair of forms has the same checks, and the same operation of `runCore` gives both their meaning. -/
theorem shortFormsRunAsLong : Obligations.ShortFormsRunAsLong := by
  unfold Obligations.ShortFormsRunAsLong
  intro s g f b
  have hoff : b.off.toInt = (b.off.signExtend 29).toInt := (BitVec.toInt_signExtend_of_le (by decide)).symm
  refine ⟨?nop, ?exit, ?ret, ?yield, ?tret, ?pdone, ?grpbar, ?gangbar, ?stagebar, ?bra, ?call, ?meet, ?mov, ?not, ?ineg,
    ?iabs, ?popc, ?clz, ?brev, ?srd, ?swr, ?kmov, ?knot, ?kpop, ?rcp, ?rsq, ?sqrt, ?mwait⟩
  case bra => exact runAlike_of_sameChecks (i := .braS b) ⟨rfl, rfl⟩ rfl (by rw [hoff]; rfl)
  case call => exact runAlike_of_sameChecks (i := .callS b) ⟨rfl, rfl⟩ rfl (by rw [hoff]; rfl)
  case meet => exact runAlike_of_sameChecks (i := .meetS b) ⟨rfl, rfl⟩ rfl (by rw [hoff]; rfl)
  case nop | exit | yield | tret | pdone | grpbar | gangbar | stagebar =>
    exact runAlike_of_sameChecks ⟨longForm_wf (by simp [LongForm.tyOp]) (.inr rfl) (.inr rfl), rfl⟩ rfl rfl
  case ret =>
    refine runAlike_of_sameChecks (i := .retS g) ⟨longForm_wf (by simp [LongForm.tyOp]) (.inr rfl) (.inr rfl), ?_⟩ rfl
      (exec_ret_longForm s g)
    exact funext fun t => by simp [srcCodes]
  case mwait => exact runAlike_of_sameChecks ⟨longForm_wf (by simp [LongForm.mem]) (.inl rfl) (.inr rfl), rfl⟩ rfl rfl
  case srd | swr | kmov | knot | kpop | rcp | rsq | sqrt =>
    exact runAlike_of_sameChecks ⟨longForm_wf (by simp [LongForm.tyOp]) (.inl rfl) (.inl rfl), rfl⟩ rfl rfl
  case mov | not | ineg | iabs | popc | clz | brev =>
    refine runAlike_of_sameChecks ⟨longForm_wf ?_ (.inl rfl) (.inl rfl), ?_⟩ rfl rfl
    · simp [LongForm.tyOp, TypeSet.w, TypeSet.w32, TypeSet.b, TypeSet.i]
    · exact funext fun t => (saRegs_longForm _ _ _ _ (by decide) (by decide)).symm

/-! ## Legality of operands, as the instructions check it -/

section
variable (c : Ctx) (f : LongForm)

@[simp] theorem srcsOk_nil : srcsOk c f [] = true := rfl
@[simp] theorem srcsOk_cons (x : BitVec 9) (w : Bool) (l : List (BitVec 9 × Bool)) :
    srcsOk c f ((x, w) :: l) = (srcOk c f.lit w x && srcsOk c f l) := rfl
@[simp] theorem srcsOk_addrSrcs : srcsOk c f (addrSrcs f) = addrOk c f := by simp [addrSrcs, addrOk]
@[simp] theorem srcsOk_src1 : srcsOk c f (src1 f) = srcOk c f.lit (wideTy f) f.sa := by simp [src1]
@[simp] theorem srcsOk_src2 : srcsOk c f (src2 f) = (srcOk c f.lit (wideTy f) f.sa && srcOk c f.lit (wideTy f) f.sb) := by
  simp [src2]
@[simp] theorem srcsOk_src3 : srcsOk c f (src3 f) =
    (srcOk c f.lit (wideTy f) f.sa && (srcOk c f.lit (wideTy f) f.sb && srcOk c f.lit (wideTy f) f.sc)) := by simp [src3]

end

section
variable (f : ShortForm) (ty : Nat)

@[simp] theorem longOf_dst (op : Nat) : (longOf f ty op).dst = f.dst := rfl
@[simp] theorem longOf_sa (op : Nat) : (longOf f ty op).sa = f.sa := rfl
@[simp] theorem longOf_lit (op : Nat) : (longOf f ty op).lit = none := rfl
@[simp] theorem wideTy_longOf (h : ty < 32) : wideTy (longOf f ty 0) = tyWide ty :=
  congrArg tyWide (longForm_ty f.g f.dst f.sa ty h)

end

/-- An instruction runs through `runCore` with the legality of 04 Table 4.11, by one meaning for every context and state. -/
def RunsLegally (i : Instr) (g : BitVec 5) : Prop :=
  ∃ run : Ctx → State → State, ∀ s, ∃ chk, exec i s = .next (runCore s i g (hasResult i) chk fun c => run c s) ∧
    ∀ c, chk c = operandsLegal s c i

theorem srdLegal_eq (c : Ctx) (code : BitVec 9) (dst : BitVec 8) :
    (decide (0x140 ≤ code.toNat) && decide (code.toNat < 0x160) && sregReadOk c (code.toNat - 0x140) &&
      dstOk c (sregWide (code.toNat - 0x140)) dst) = srdLegal c code dst := by
  simp [srdLegal]

/-- Every core instruction but the hints runs so: the cases are grouped by how the instruction states its check. -/
theorem runsLegally_of_guardOf {i : Instr} {g : BitVec 5} (hg : guardOf i = some g) : RunsLegally i g := by
  cases i with
  -- the check is the statement's as it stands
  | nopS | exitS | retS | yieldS | tretS | pdoneS | grpbarS | gangbarS | stagebarS | braS | callS | meetS | swrS | kmovS
  | knotS | kpopS | mwaitS | kand | kor | kxor | knot | kmov | kpop | bra | call | meet | yield | exit | nop | swr | vote
  | ballot | tret | ctxsave | ctxload | pdone | frecFwd | fence | xfence
  | grpbar | gangbar | stagebar | mwait | mpoll | cpyq | netq =>
    cases hg
    exact ⟨_, fun _ => ⟨_, rfl, fun _ => rfl⟩⟩
  -- the same destination and sources, grouped otherwise
  | mov | movl | lea | iadd | isub | imul | imulh | imad | idiv | irem | imin | imax | iabs | ineg | and | or | xor | andn
  | not | shl | shr | sar | rol | bfx | bfi | popc | clz | brev | sel | icmp | brx | ret | shape | idx | unif | fadd | fsub
  | fmul | ffma | fmin | fmax | fcmp | fclass | frnd | hadd2 | hmul2 | hfma2 | dot4 | dot2 | rcp | rsq | sqrt | ex2 | lg2
  | sin | cos | tanh | shfl | matchL | lscan | lred | lfirst | trap | depwait | frecGet | ld | st | ldg | stg | lde | ste
  | waitc | fld | fset | mbsend | mbrecv | mbpeek | cflush | cinv | cinvCode | pref | evbar | amarm | amdisarm | amdisarmFree
  | amsave | amsaveStop | ownClaim | ownSelf | ownWord | ownMbox | disownClaim | disownSelf | disownWord | disownMbox
  | helpq | mtask | cpy | cpy2 | cpyt | cpyr | strel =>
    cases hg
    exact ⟨_, fun _ => ⟨_, rfl, fun _ => by simp [operandsLegal, Bool.and_assoc]⟩⟩
  | cvt r f | cvts r f | atom r f | red r f =>
    obtain rfl : f.g = g := by cases r <;> exact Option.some.inj hg
    exact ⟨_, fun _ => ⟨_, rfl, fun _ => by simp [operandsLegal, Bool.and_assoc]⟩⟩
  -- a short form checks its long form's operands, whose type has 32 bits
  | movS | notS | inegS | iabsS | popcS | clzS | brevS | rcpS | rsqS | sqrtS =>
    cases hg
    have h32 : tyWide 3 = false ∧ tyWide 7 = false := by decide
    exact ⟨_, fun _ => ⟨_, rfl, fun _ => by simp [operandsLegal, h32]⟩⟩
  | srd f | srdS f =>
    cases hg
    exact ⟨_, fun _ => ⟨_, rfl, fun c => srdLegal_eq c f.sa f.dst⟩⟩
  -- what the instruction's own entry asks besides
  | reggrow | regshrink =>
    cases hg
    exact ⟨_, fun _ => ⟨_, rfl, fun _ => by simp [operandsLegal, uniOk, bits, Bool.and_assoc]; rfl⟩⟩
  | ctxsaveKeep | binz | bequeath =>
    cases hg
    exact ⟨_, fun _ => ⟨_, rfl, fun _ => by simp [operandsLegal, uniOk, bits, Bool.and_assoc, Bool.and_left_comm]⟩⟩
  | pack4 | unpack4 =>
    cases hg
    exact ⟨_, fun _ => ⟨_, rfl, fun _ => by simp [operandsLegal, beq_eq_decide, Bool.and_assoc]⟩⟩
  | evpost | evpostBuf =>
    cases hg
    exact ⟨_, fun _ => ⟨_, rfl, fun _ => by simp [operandsLegal, evpostOk, Bool.and_assoc]; rfl⟩⟩
  | amload | amrestore | binld | binst | bldp =>
    cases hg
    exact ⟨_, fun _ => ⟨_, rfl, fun _ => by simp [operandsLegal, Bool.and_assoc]; rfl⟩⟩
  | _ => cases hg

/-! ## The statement's words for what a core instruction does before its effect -/

theorem readsBad_eq (i : Instr) (t : Thread) : readsBad i t = (readRegs i t).any t.rbad.contains := by
  cases h : t.rbad <;> simp [readsBad, h]

theorem readsBad_eq_false_iff (i : Instr) (t : Thread) : readsBad i t = false ↔ ∀ r ∈ readRegs i t, r ∉ t.rbad := by
  simp [readsBad_eq]

section
variable (c : Ctx) (s : State)

theorem skip_eq (res : Bool) : c.skip s res = updGroup s c.cur.gid fun x => { x with threads := x.threads.map fun t =>
    if t.tid ∈ c.setTids then { t with
      pc := c.cur.next
      latches := if res then (none :: t.latches).take 8 else t.latches }
    else t } := by
  refine congrArg (updGroup s c.cur.gid) (funext fun x => ?_)
  simp only [modThreads, modAll, List.contains_iff_mem]
  cases res <;> rfl

/-- A precise trap of some threads at the instruction that issues, without address and operand. -/
theorem trap_eq (cls cause : Nat) (ts : List Thread) :
    c.trap s cls cause ((ts.map (·.tid)).map fun t => (t, 0#64, 0#64)) = takeTrap s c.cur.gid (ts.map fun t =>
      { tid := t.tid, cls := cls, cause := cause, prec := true, pc := c.cur.pc, xpc := c.cur.pc, addr := 0, info := 0 }) := by
  simp only [Ctx.trap, List.map_map]
  rfl

end

/-- Settles O55: every core instruction runs through `runCore` with the legality of the statement (`runsLegally_of_guardOf`),
and `runCore` decides the cases in the statement's order. -/
theorem illegalAndInactive : Obligations.IllegalAndInactive := by
  unfold Obligations.IllegalAndInactive
  refine ⟨fun s i g c hg hctx => ?_, fun i g hg => ?_⟩
  · obtain ⟨run, hrun⟩ := runsLegally_of_guardOf hg
    obtain ⟨chk, hexec, hchk⟩ := hrun s
    rw [hexec]
    refine ⟨fun ha => ?_, fun ha hw => ?_, fun ha hw hop => ?_⟩
    · rw [runCore_inactive hctx ha, skip_eq]
    · rw [runCore_illegal hctx ha hw]
      exact congrArg _ (trap_eq c s 1 cILLOP c.act)
    · rw [runCore_badOperand ⟨hctx, by simpa using ha, hw⟩ ((hchk c).trans hop)]
      exact congrArg _ (trap_eq c s 1 cILLOPND c.act)
  · obtain ⟨run, hrun⟩ := runsLegally_of_guardOf hg
    refine ⟨run, fun s c harr hop => ?_⟩
    obtain ⟨chk, hexec, hchk⟩ := hrun s
    have hc : chk c = true := (hchk c).trans hop
    rw [hexec]
    refine ⟨fun hsound => ?_, fun bad c' hbad hne hc' => ?_⟩
    · rw [runCore_body ⟨harr, fun t ht => (readsBad_eq_false_iff i t).2 (hsound t ht)⟩ hc]
    · have hb : c.act.filter (readsBad i) = bad := by
        rw [hbad]; exact List.filter_congr fun t _ => readsBad_eq i t
      rw [runCore_bad harr hc, hb, Ctx.sparing, if_neg (by simpa using hne), trap_eq, ← hc']
      simp only [List.isEmpty_iff]

end Sys2Proof.Machine
end

section
/-! What a register write changes (O20), and what an instruction with a result does to its group (O19). -/

namespace Sys2Proof.Machine

open Sys2Proof

/-! ## Register writes (06 R94, R97, 27 R400) -/

theorem reg_setReg (t : Thread) (d r : Nat) (v : W32) : (t.setReg d v).reg r = if d = r then v else t.reg r :=
  tget_tset ..

section
variable (t : Thread) (d : Nat) (v : W64)

@[simp] theorem write_narrow : t.write d false v = t.setReg d (lo32 v) := rfl

@[simp] theorem write_wide : t.write d true v = (t.setReg d (lo32 v)).setReg (d + 1) (hi32 v) := rfl

variable (wide : Bool)

/-- A register after the write of a register or a pair. -/
theorem reg_write (r : Nat) : (t.write d wide v).reg r =
    if d = r then lo32 v else if wide = true ∧ d + 1 = r then hi32 v else t.reg r := by
  cases wide with
  | false => simp [reg_setReg]
  | true =>
    rw [write_wide, reg_setReg, reg_setReg]
    rcases eq_or_ne d r with rfl | hd
    · simp
    · simp [hd]

theorem mem_rbad_write (r : Nat) :
    r ∈ (t.write d wide v).rbad ↔ r ∈ t.rbad ∧ r ≠ d ∧ (wide = true → r ≠ d + 1) := by
  cases wide with
  | false => simp
  | true => simp [and_comm (a := ¬ r = d)]

/-- Only the registers and their errors differ after a write. -/
theorem write_eq : t.write d wide v = { t with regs := (t.write d wide v).regs, rbad := (t.write d wide v).rbad } := by
  cases wide <;> rfl

/-- A write of registers and a move of the pc commute. -/
theorem write_setPc (pc : W64) : { t.write d wide v with pc := pc } = ({ t with pc := pc } : Thread).write d wide v := by
  cases wide <;> rfl

end

/-- Settles O20: the written registers are read by `reg_write`, their errors by `mem_rbad_write`, and `write_eq` is the frame. -/
theorem registerWriteFrame : Obligations.RegisterWriteFrame := by
  unfold Obligations.RegisterWriteFrame
  intro t d wide v
  refine ⟨?low, ?high, fun r hd hhigh => ?other, write_eq t d v wide, mem_rbad_write t d v wide⟩
  case low => rw [reg_write, if_pos rfl]; rfl
  case high =>
    rintro rfl
    rw [reg_write, if_neg (by omega), if_pos ⟨rfl, rfl⟩]
    rfl
  case other => rw [reg_write, if_neg hd.symm, if_neg fun ⟨hw, he⟩ => hhigh hw he.symm]

/-! ## Results (06 R94, R96, 07 R109) -/

/-- A thread of the issuing set after an instruction with a result: an active one has the result in its first latch and,
unless the destination is `_`, in its registers; an inactive one has an empty first latch. -/
def Ctx.resultThread (c : Ctx) (d : BitVec 8) (w : Bool) (r : Result) (h : Thread → Thread) (t : Thread) : Thread :=
  if c.actTids.contains t.tid then
    let u := pushLatch (some (r.latch t)) (h t)
    { (if w then u else u.write d.toNat r.wide (r.val t)) with pc := c.cur.next }
  else { pushLatch none t with pc := c.cur.next }

/-- The issuing group after an instruction with a result. -/
def Ctx.resultGroup (c : Ctx) (d : BitVec 8) (w : Bool) (r : Result) (h : Thread → Thread) (g : Group) : Group :=
  let g1 := modThreads c.setTids (c.resultThread d w r h) g
  if w then g1 else setTags c.warp.num d.toNat r.wide r.tlo r.thi g1

/-- Setting the tags of a warp stays within what `SameGroup` leaves open. -/
theorem sameGroup_setTags (n d : Nat) (wide : Bool) (tlo thi : Tag) {x y : Group} (hxy : SameGroup x y) :
    SameGroup x (setTags n d wide tlo thi y) := by
  obtain ⟨hfields, hwarps⟩ := hxy
  refine ⟨by rw [hfields]; rfl, Eq.trans ?_ hwarps⟩
  rw [setTags, modAll, List.map_map]
  exact List.map_congr_left fun w _ => by simp only [Function.comp]; split <;> rfl

theorem sameGroup_modThreads (l : List Nat) (f : Thread → Thread) (g : Group) : SameGroup g (modThreads l f g) := ⟨rfl, rfl⟩

section
variable (c : Ctx) (d : BitVec 8) (w : Bool) (r : Result) (h : Thread → Thread)

/-- `Ctx.result` is a change of the issuing group. -/
theorem result_eq (s : State) : c.result s d w r h = updGroup s c.cur.gid (c.resultGroup d w r h) := by
  cases w <;> rfl

/-- The thread with its pc moved before the write, which leaves the pc alone. -/
theorem resultThread_eq (t : Thread) : c.resultThread d w r h t =
    if t.tid ∈ c.actTids then
      let u := { pushLatch (some (r.latch t)) (h t) with pc := c.cur.next }
      if w then u else u.write d.toNat r.wide (r.val t)
    else { pushLatch none t with pc := c.cur.next } := by
  simp only [Ctx.resultThread, List.contains_iff_mem]
  cases w with
  | false => simp only [Bool.false_eq_true, if_false, write_setPc]
  | true => rfl

theorem sameGroup_resultGroup (g : Group) : SameGroup g (c.resultGroup d w r h g) := by
  have hmod := sameGroup_modThreads c.setTids (c.resultThread d w r h) g
  cases w with
  | false => exact sameGroup_setTags _ _ _ _ _ hmod
  | true => exact hmod

@[simp] theorem resultGroup_gid (g : Group) : (c.resultGroup d w r h g).gid = g.gid := by
  cases w <;> rfl

theorem resultGroup_threads (g : Group) : (c.resultGroup d w r h g).threads =
    g.threads.map fun t => if t.tid ∈ c.setTids then c.resultThread d w r h t else t := by
  have hmod : (c.resultGroup d w r h g).threads = (modThreads c.setTids (c.resultThread d w r h) g).threads := by
    cases w <;> rfl
  simp only [hmod, modThreads_threads, List.contains_iff_mem]

theorem onlyGroup_result (s : State) : OnlyGroup s (c.result s d w r h) c.cur.gid := by
  rw [result_eq]
  exact onlyGroup_updGroup s _ _ (resultGroup_gid c d w r h)

theorem groupOf_result (s : State) :
    groupOf (c.result s d w r h) c.cur.gid = (groupOf s c.cur.gid).map (c.resultGroup d w r h) := by
  rw [result_eq]
  exact groupOf_updGroup_same s _ _ (resultGroup_gid c d w r h)

end

/-- Settles O19: `onlyGroup_result` is the frame, and the issuing group is `resultGroup`'s (`groupOf_result`), which keeps all
but threads and tags. -/
theorem resultEffect : Obligations.ResultEffect := by
  unfold Obligations.ResultEffect
  intro s c d w r h
  refine ⟨onlyGroup_result c d w r h s, fun g hg => ⟨c.resultGroup d w r h g, ?_, sameGroup_resultGroup c d w r h g, ?_⟩⟩
  · rw [groupOf_result, hg, Option.map_some]
  · simp only [resultGroup_threads, resultThread_eq]
    rfl

end Sys2Proof.Machine
end

section
/-! The exact integers that words denote (07 R108), and the arithmetic of 07 R113 to R116 on words. -/

namespace Sys2Proof.Machine

open Sys2Proof

/-! ## Words as exact integers (07 R108) -/

/-- The exact integer that a word denotes, signed or unsigned. -/
def wordInt {n : Nat} (signed : Bool) (x : BitVec n) : Int := if signed then x.toInt else x.toNat

theorem ofNat_toNat_self {n : Nat} (x : BitVec n) : BitVec.ofNat n x.toNat = x := by
  rw [BitVec.ofNat_toNat, BitVec.setWidth_eq]

section
variable {n : Nat} (signed : Bool) (x y : BitVec n)

/-- The model's reading of a word's bits. -/
theorem intOf_toNat (hn : 0 < n) : intOf signed n x.toNat = wordInt signed x := by
  have hhalf := Nat.two_pow_pred_add_two_pow_pred hn
  have hmod : x.toNat % 2 ^ n = x.toNat := Nat.mod_eq_of_lt x.isLt
  cases signed with
  | false => simp [intOf, wordInt]
  | true =>
    simp only [intOf, wordInt, hmod, Bool.true_and, decide_eq_true_eq, if_true, BitVec.toInt_eq_toNat_cond]
    split <;> split <;> omega

@[simp] theorem ofInt_wordInt : BitVec.ofInt n (wordInt signed x) = x := by
  cases signed with
  | false => exact (BitVec.ofInt_natCast n _).trans (ofNat_toNat_self x)
  | true => exact BitVec.ofInt_toInt

theorem wordInt_eq_zero_iff : wordInt signed x = 0 ↔ x = 0 := by
  cases signed with
  | false => simp [wordInt, BitVec.toNat_eq]
  | true => simp [wordInt, ← BitVec.toInt_inj]

theorem wordInt_le_iff :
    wordInt signed x ≤ wordInt signed y ↔ (if signed then x.sle y else x.ule y) = true := by
  cases signed with
  | false => simp [wordInt, BitVec.ule_iff_toNat_le]
  | true => simp [wordInt, BitVec.sle_iff_toInt_le]

theorem wordInt_lt_iff :
    wordInt signed x < wordInt signed y ↔ (if signed then x.slt y else x.ult y) = true := by
  cases signed with
  | false => simp [wordInt, BitVec.ult_iff_toNat_lt]
  | true => simp [wordInt, BitVec.slt_iff_toInt_lt]

theorem wordInt_inj : wordInt signed x = wordInt signed y ↔ x = y :=
  ⟨fun h => by rw [← ofInt_wordInt signed x, h, ofInt_wordInt], fun h => by rw [h]⟩

/-- `Wrap` keeps the low bits of an exact integer. -/
@[simp] theorem ofNat_wrapN (z : Int) : BitVec.ofNat n (wrapN n z) = BitVec.ofInt n z :=
  BitVec.eq_of_toNat_eq <| by
    have hpos : (0 : Int) < ((2 ^ n : Nat) : Int) := by exact_mod_cast Nat.two_pow_pos n
    have hlt : wrapN n z < 2 ^ n := by
      have := Int.emod_lt_of_pos z hpos
      have := Int.emod_nonneg z hpos.ne'
      unfold wrapN
      omega
    rw [BitVec.toNat_ofNat, BitVec.toNat_ofInt, Nat.mod_eq_of_lt hlt, wrapN]

end

/-! ## Narrowing (07 R108, R113) -/

section
variable {n : Nat} (signed : Bool)

theorem wrapN_eq_toNat (z : Int) : wrapN n z = (BitVec.ofInt n z).toNat := (BitVec.toNat_ofInt z).symm

/-- An integer in the range of a type is what its low bits denote. -/
theorem wordInt_ofInt (hn : 0 < n) {z : Int} (hlo : intMin signed n ≤ z) (hhi : z ≤ intMax signed n) :
    wordInt signed (BitVec.ofInt n z) = z := by
  have hhalf := Nat.two_pow_pred_add_two_pow_pred hn
  cases signed with
  | false =>
    simp only [intMin, intMax, Bool.false_eq_true, if_false] at hlo hhi
    rw [wordInt, if_neg Bool.false_ne_true, BitVec.toNat_ofInt, Int.emod_eq_of_lt hlo (by omega), Int.toNat_of_nonneg hlo]
  | true =>
    simp only [intMin, intMax, if_true] at hlo hhi
    rw [wordInt, if_pos rfl, BitVec.toInt_ofInt, Int.bmod_eq_of_le (by omega) (by omega)]

theorem intMin_le_intMax (n : Nat) : intMin signed n ≤ intMax signed n := by
  have h1 : 0 < 2 ^ n := Nat.two_pow_pos n
  have h2 : 0 < 2 ^ (n - 1) := Nat.two_pow_pos _
  cases signed <;> simp only [intMin, intMax, Bool.false_eq_true, if_false, if_true] <;> omega

theorem intOf_clampN (hn : 0 < n) (z : Int) :
    intOf signed n (clampN signed n z) = max (intMin signed n) (min (intMax signed n) z) := by
  have hle := intMin_le_intMax signed n
  have hclamp : (if z < intMin signed n then intMin signed n else if intMax signed n < z then intMax signed n else z) =
      max (intMin signed n) (min (intMax signed n) z) := by split <;> [skip; split] <;> omega
  rw [clampN, hclamp, wrapN_eq_toNat, intOf_toNat _ _ hn, wordInt_ofInt signed hn (le_max_left _ _) (by omega)]

end

/-! ## Arithmetic of exact integers, wrapped (07 R113 to R116) -/

section
variable {n : Nat} (signed : Bool) (x y : BitVec n)

theorem ofInt_sub {n : Nat} (a b : Int) : BitVec.ofInt n (a - b) = BitVec.ofInt n a - BitVec.ofInt n b := by
  rw [sub_eq_add_neg, BitVec.ofInt_add, BitVec.ofInt_neg, BitVec.sub_eq_add_neg]

theorem ofInt_natAbs_toInt : BitVec.ofInt n (x.toInt.natAbs : Int) = x.abs := by
  simp only [BitVec.abs_eq, BitVec.msb_eq_toInt, decide_eq_true_eq]
  split
  · rw [Int.ofNat_natAbs_of_nonpos (by omega), BitVec.ofInt_neg, BitVec.ofInt_toInt]
  · rw [Int.natAbs_of_nonneg (by omega), BitVec.ofInt_toInt]

/-- The quotient, truncated toward zero. -/
theorem ofInt_tdiv_wordInt : BitVec.ofInt n ((wordInt signed x).tdiv (wordInt signed y)) =
    if signed then x.sdiv y else x / y := by
  cases signed with
  | false =>
    have h : (x.toNat : Int).tdiv y.toNat = ((x / y).toNat : Int) := by
      rw [BitVec.toNat_udiv]; exact (Int.ofNat_tdiv _ _).symm
    simp only [wordInt, Bool.false_eq_true, if_false, h, BitVec.ofInt_natCast, ofNat_toNat_self]
  | true => exact BitVec.eq_of_toInt_eq (by simp [wordInt, BitVec.toInt_ofInt, BitVec.toInt_sdiv])

/-- The remainder of that quotient. -/
theorem ofInt_tmod_wordInt :
    BitVec.ofInt n (wordInt signed x - (wordInt signed x).tdiv (wordInt signed y) * wordInt signed y) =
      if signed then x.srem y else x % y := by
  rw [Int.mul_comm, ← Int.tmod_def]
  cases signed with
  | false =>
    have h : (x.toNat : Int).tmod y.toNat = ((x % y).toNat : Int) := by
      rw [BitVec.toNat_umod]; exact (Int.ofNat_tmod _ _).symm
    simp only [wordInt, Bool.false_eq_true, if_false, h, BitVec.ofInt_natCast, ofNat_toNat_self]
  | true =>
    simp only [wordInt, if_true, ← BitVec.toInt_srem, BitVec.ofInt_toInt]

/-- The high half of the exact product: the product in twice the bits is exact. -/
theorem ofInt_highHalf : BitVec.ofInt n (wordInt signed x * wordInt signed y / ((2 ^ n : Nat) : Int)) =
    highHalf signed x y := by
  have hext (z : BitVec n) :
      (if signed then z.signExtend (n + n) else z.setWidth (n + n)) = BitVec.ofInt (n + n) (wordInt signed z) := by
    cases signed with
    | false => exact ((BitVec.ofInt_natCast _ _).trans (BitVec.ofNat_toNat _ _)).symm
    | true => rfl
  have hprod :
      (if signed then x.signExtend (n + n) * y.signExtend (n + n) else x.setWidth (n + n) * y.setWidth (n + n)) =
        BitVec.ofInt (n + n) (wordInt signed x * wordInt signed y) := by
    rw [BitVec.ofInt_mul, ← hext, ← hext]
    cases signed <;> rfl
  generalize wordInt signed x * wordInt signed y = z at hprod
  simp only [highHalf, hprod]
  refine BitVec.eq_of_toNat_eq ?_
  obtain ⟨m, hm⟩ := Int.eq_ofNat_of_zero_le (Int.emod_nonneg z (b := ((2 ^ (n + n) : Nat) : Int)) (by positivity))
  have hz : z / ((2 ^ n : Nat) : Int) =
      ((m / 2 ^ n : Nat) : Int) + ((2 ^ n : Nat) : Int) * (z / ((2 ^ (n + n) : Nat) : Int)) := by
    conv_lhs => rw [← Int.emod_add_mul_ediv z ((2 ^ (n + n) : Nat) : Int), hm, pow_add, Nat.cast_mul, Int.mul_assoc]
    rw [Int.add_mul_ediv_left _ _ (by positivity)]
    push_cast [pow_add]
    rfl
  rw [BitVec.toNat_ofInt, hz, Int.add_mul_emod_self_left, BitVec.toNat_setWidth, BitVec.toNat_ushiftRight, BitVec.toNat_ofInt,
    hm, Nat.shiftRight_eq_div_pow]
  norm_cast

end

end Sys2Proof.Machine
end

section
/-! Words as bits: bitwise operations, shifts, bit fields, counts and reversal (07 R117 to R120). -/

namespace Sys2Proof.Machine

open Sys2Proof

/-! ## Bitwise operations and shifts (07 R117, R118) -/

section
variable {n : Nat} (x y : BitVec n)

theorem ofNat_and : BitVec.ofNat n (x.toNat &&& y.toNat) = x &&& y := by rw [← BitVec.toNat_and, ofNat_toNat_self]

theorem ofNat_or : BitVec.ofNat n (x.toNat ||| y.toNat) = x ||| y := by rw [← BitVec.toNat_or, ofNat_toNat_self]

theorem ofNat_xor : BitVec.ofNat n (x.toNat ^^^ y.toNat) = x ^^^ y := by rw [← BitVec.toNat_xor, ofNat_toNat_self]

theorem ofNat_not : BitVec.ofNat n (2 ^ n - 1 - x.toNat) = ~~~x := by rw [← BitVec.toNat_not, ofNat_toNat_self]

theorem ofNat_andn : BitVec.ofNat n (x.toNat &&& (2 ^ n - 1 - y.toNat)) = x &&& ~~~y := by rw [← BitVec.toNat_not, ofNat_and]

variable (k : Nat)

theorem ofNat_shlVal : BitVec.ofNat n (shlVal n x.toNat k) = x <<< k := by
  refine BitVec.eq_of_toNat_eq ?_
  rw [BitVec.toNat_ofNat, BitVec.toNat_shiftLeft, Nat.shiftLeft_eq, shlVal]
  split
  next h => rw [Nat.zero_mod, Nat.mod_eq_zero_of_dvd ((Nat.pow_dvd_pow 2 h).mul_left _)]
  next => rw [Nat.mod_mod]

theorem ofNat_shrVal : BitVec.ofNat n (shrVal n x.toNat k) = x >>> k := by
  refine BitVec.eq_of_toNat_eq ?_
  rw [BitVec.toNat_ofNat, BitVec.toNat_ushiftRight, Nat.shiftRight_eq_div_pow, shrVal]
  split
  next h => rw [Nat.zero_mod, Nat.div_eq_of_lt (x.isLt.trans_le (Nat.pow_le_pow_right (by decide) h))]
  next => exact Nat.mod_eq_of_lt ((Nat.div_le_self _ _).trans_lt x.isLt)

/-- A shift by more than the sign's place shifts as far as it. -/
theorem toInt_div_two_pow_min :
    x.toInt / ((2 ^ min k (n - 1) : Nat) : Int) = x.toInt / ((2 ^ k : Nat) : Int) := by
  rcases Nat.le_total k (n - 1) with h | h
  · rw [min_eq_left h]
  · have hlo := x.le_toInt
    have hhi := x.toInt_lt
    have hle : (2 ^ (n - 1) : Int) ≤ ((2 ^ k : Nat) : Int) := by exact_mod_cast Nat.pow_le_pow_right (by decide) h
    rw [min_eq_right h]
    push_cast at hle ⊢
    rcases lt_or_ge x.toInt 0 with hx | hx
    · rw [(Int.ediv_emod_unique (r := x.toInt + 2 ^ (n - 1)) (q := -1) (by positivity)).2 (by omega) |>.1,
        (Int.ediv_emod_unique (r := x.toInt + 2 ^ k) (q := -1) (by positivity)).2 (by omega) |>.1]
    · rw [Int.ediv_eq_zero_of_lt hx hhi, Int.ediv_eq_zero_of_lt hx (by omega)]

theorem ofNat_sarVal (hn : 0 < n) : BitVec.ofNat n (sarVal n x.toNat k) = x.sshiftRight k := by
  rw [sarVal, ofNat_wrapN, intOf_toNat true x hn, wordInt, if_pos rfl, toInt_div_two_pow_min x k, BitVec.sshiftRight,
    Int.shiftRight_eq_div_pow]

/-- A rotation puts the bits that leave at the top below the others. -/
theorem ofNat_rolVal (hn : 0 < n) : BitVec.ofNat n (rolVal n x.toNat k) = x.rotateLeft k := by
  refine BitVec.eq_of_toNat_eq ?_
  have hr : k % n < n := Nat.mod_lt _ hn
  generalize hkr : k % n = r at hr
  have hsplit : 2 ^ n = 2 ^ r * 2 ^ (n - r) := by rw [← pow_add, Nat.add_sub_cancel' hr.le]
  have hlow : x.toNat / 2 ^ (n - r) < 2 ^ r := by
    rw [Nat.div_lt_iff_lt_mul (Nat.two_pow_pos _), ← hsplit]
    exact x.isLt
  have hhigh : x.toNat * 2 ^ r % 2 ^ n = 2 ^ r * (x.toNat % 2 ^ (n - r)) := by
    rw [hsplit, Nat.mul_comm x.toNat, Nat.mul_mod_mul_left]
  have hlt : 2 ^ r * (x.toNat % 2 ^ (n - r)) + x.toNat / 2 ^ (n - r) < 2 ^ n := by
    have : x.toNat % 2 ^ (n - r) + 1 ≤ 2 ^ (n - r) := Nat.mod_lt _ (Nat.two_pow_pos _)
    calc _ < 2 ^ r * (x.toNat % 2 ^ (n - r) + 1) := by rw [Nat.mul_add]; omega
      _ ≤ 2 ^ n := by rw [hsplit]; exact Nat.mul_le_mul_left _ this
  rw [BitVec.toNat_ofNat, BitVec.toNat_rotateLeft, rolVal, hkr, Nat.mod_mod, Nat.shiftLeft_eq, Nat.shiftRight_eq_div_pow,
    hhigh, ← Nat.two_pow_add_eq_or_of_lt hlow, ← Nat.mod_add_mod, hhigh, Nat.mod_eq_of_lt hlt]

end

/-! ## Bit fields (07 R119) -/

/-- A number of `len` bits less `2 ^ len` has ones above them. -/
theorem getLsbD_ofInt_sub_two_pow {n len f i : Nat} (hf : f < 2 ^ len) (hi : i < n) :
    (BitVec.ofInt n ((f : Int) - (2 ^ len : Nat))).getLsbD i = (!decide (i < len) || f.testBit i) := by
  have hneg : (f : Int) - (2 ^ len : Nat) = Int.negSucc (2 ^ len - (f + 1)) := by rw [Int.negSucc_eq]; omega
  rw [hneg, BitVec.ofInt_negSucc_eq_not_ofNat, BitVec.getLsbD_not, BitVec.getLsbD_ofNat, Nat.testBit_two_pow_sub_succ hf]
  simp [hi]

theorem testBit_wrapN {n i : Nat} (z : Int) (hi : i < n) : (wrapN n z).testBit i = (BitVec.ofInt n z).getLsbD i := by
  rw [← ofNat_wrapN, BitVec.getLsbD_ofNat, decide_eq_true hi, Bool.true_and]

/-- The field that a control word names among the bits of a number. -/
def fieldOf (u : Nat) (ctl : W32) : Nat := u / 2 ^ posOf ctl % 2 ^ lenOf ctl

theorem fieldOf_lt (u : Nat) (ctl : W32) : fieldOf u ctl < 2 ^ lenOf ctl := Nat.mod_lt _ (Nat.two_pow_pos _)

theorem testBit_fieldOf (u : Nat) (ctl : W32) (j : Nat) :
    (fieldOf u ctl).testBit j = (decide (j < lenOf ctl) && u.testBit (posOf ctl + j)) := by
  rw [fieldOf, Nat.testBit_mod_two_pow, Nat.testBit_div_two_pow, Nat.add_comm]

theorem bfxVal_eq (signed : Bool) (n u : Nat) (ctl : W32) : bfxVal signed n u ctl.toNat = wrapN n
    (if signed && decide (0 < lenOf ctl) && u.testBit (posOf ctl + lenOf ctl - 1)
     then (fieldOf u ctl : Int) - (2 ^ lenOf ctl : Nat) else (fieldOf u ctl : Int)) := by
  have htop : (signed && decide (0 < lenOf ctl) && (fieldOf u ctl).testBit (lenOf ctl - 1)) =
      (signed && decide (0 < lenOf ctl) && u.testBit (posOf ctl + lenOf ctl - 1)) := by
    rcases Nat.eq_zero_or_pos (lenOf ctl) with h | h
    · simp [h]
    · rw [testBit_fieldOf, Nat.add_sub_assoc h]; simp [h]
  rw [← htop]
  rfl

theorem testBit_bfxVal (signed : Bool) {n i : Nat} (u : Nat) (ctl : W32) (hi : i < n) :
    (bfxVal signed n u ctl.toNat).testBit i =
      if i < lenOf ctl then u.testBit (posOf ctl + i)
      else signed && decide (0 < lenOf ctl) && u.testBit (posOf ctl + lenOf ctl - 1) := by
  rw [bfxVal_eq, testBit_wrapN _ hi]
  cases signed && decide (0 < lenOf ctl) && u.testBit (posOf ctl + lenOf ctl - 1) with
  | true =>
    rw [if_pos rfl, getLsbD_ofInt_sub_two_pow (fieldOf_lt u ctl) hi, testBit_fieldOf]
    split <;> simp [*]
  | false =>
    rw [if_neg Bool.false_ne_true, BitVec.ofInt_natCast, BitVec.getLsbD_ofNat, testBit_fieldOf]
    split <;> simp [*]

/-- The ones where a control word's field stands in `n` bits. -/
def fieldMask (n : Nat) (ctl : W32) : Nat := (2 ^ lenOf ctl - 1) * 2 ^ posOf ctl % 2 ^ n

theorem fieldMask_lt (n : Nat) (ctl : W32) : fieldMask n ctl < 2 ^ n := Nat.mod_lt _ (Nat.two_pow_pos _)

theorem testBit_fieldMask {n i : Nat} (ctl : W32) (hi : i < n) :
    (fieldMask n ctl).testBit i = decide (posOf ctl ≤ i ∧ i < posOf ctl + lenOf ctl) := by
  rw [fieldMask, Nat.testBit_mod_two_pow, Nat.testBit_mul_two_pow, Nat.testBit_two_pow_sub_one, decide_eq_true hi,
    Bool.true_and, ← Bool.decide_and, decide_eq_decide]
  omega

theorem testBit_bfiVal {n i : Nat} (ins base : Nat) (ctl : W32) (hi : i < n) :
    (bfiVal n ins base ctl.toNat).testBit i =
      if posOf ctl ≤ i ∧ i < posOf ctl + lenOf ctl then ins.testBit (i - posOf ctl) else base.testBit i := by
  have hval : bfiVal n ins base ctl.toNat =
      base &&& (2 ^ n - 1 - fieldMask n ctl) ||| (ins * 2 ^ posOf ctl % 2 ^ n &&& fieldMask n ctl) := rfl
  rw [hval, Nat.testBit_or, Nat.testBit_and, Nat.testBit_and, Nat.sub_sub, Nat.add_comm 1,
    Nat.testBit_two_pow_sub_succ (fieldMask_lt n ctl), Nat.testBit_mod_two_pow, Nat.testBit_mul_two_pow,
    testBit_fieldMask ctl hi]
  by_cases h : posOf ctl ≤ i ∧ i < posOf ctl + lenOf ctl <;> simp [h, hi]

/-! ## Counts and reversal (07 R120) -/

theorem popcVal_le (n u : Nat) : popcVal n u ≤ n := (List.length_filter_le _ _).trans_eq List.length_range

/-- The leading zeros are found from the top: they are zeros, and a one follows unless every bit is one of them. -/
theorem clzVal_spec (n u : Nat) : clzVal n u ≤ n ∧ (∀ i, n - clzVal n u ≤ i → i < n → u.testBit i = false) ∧
    (clzVal n u < n → u.testBit (n - 1 - clzVal n u) = true) := by
  cases hf : (List.range n).find? fun i => u.testBit (n - 1 - i) with
  | none =>
    have hn : clzVal n u = n := by rw [clzVal, hf]; rfl
    have hz (j : Nat) (hj : j < n) : u.testBit (n - 1 - j) = false := by
      simpa using List.find?_eq_none.1 hf j (List.mem_range.2 hj)
    refine ⟨hn.le, fun i _ hi => ?_, fun h => by omega⟩
    have := hz (n - 1 - i) (by omega)
    rwa [show n - 1 - (n - 1 - i) = i by omega] at this
  | some k =>
    have hk : clzVal n u = k := by rw [clzVal, hf]; rfl
    obtain ⟨hone, hmem, hz⟩ := List.find?_range_eq_some.1 hf
    rw [hk]
    refine ⟨(List.mem_range.1 hmem).le, fun i hlo hi => ?_, fun _ => hone⟩
    have := hz (n - 1 - i) (by omega)
    rwa [show n - 1 - (n - 1 - i) = i by omega, Bool.not_eq_true'] at this

/-- After `k` steps the reversal holds the lowest `k` bits, the lowest of them on top. -/
theorem testBit_foldl_reverse (u k i : Nat) : ((List.range k).foldl (fun r i => 2 * r + (u.testBit i).toNat) 0).testBit i =
    (decide (i < k) && u.testBit (k - 1 - i)) := by
  induction k generalizing i with
  | zero => simp
  | succ k ih =>
    rw [List.range_succ, List.foldl_append, List.foldl_cons, List.foldl_nil]
    cases i with
    | zero =>
      rw [Nat.testBit_zero, Nat.sub_zero, Nat.add_sub_cancel]
      cases u.testBit k <;> simp
    | succ i =>
      have hhalf (r : Nat) (b : Bool) : (2 * r + b.toNat) / 2 = r := by cases b <;> simp; omega
      rw [Nat.testBit_succ, hhalf, ih, show k + 1 - 1 - (i + 1) = k - 1 - i by omega]
      simp

theorem testBit_brevVal {n i : Nat} (u : Nat) (hi : i < n) : (brevVal n u).testBit i = u.testBit (n - 1 - i) := by
  rw [brevVal, testBit_foldl_reverse, decide_eq_true hi, Bool.true_and]

end Sys2Proof.Machine
end

section
/-! The integer instructions (O1 to O8) and the shapes (O18): each gives its active threads what it computes from its
sources. -/

namespace Sys2Proof.Machine

open Sys2Proof

/-! ## Results of integer instructions (07 R107, R109) -/

/-- Numbers as results of a width: the low 32 bits, or 64. -/
def wordVal (wide : Bool) (v : Thread → Nat) (t : Thread) : W64 :=
  if wide then BitVec.ofNat 64 (v t) else (BitVec.ofNat 32 (v t)).setWidth 64

theorem intResult_eq (c : Ctx) (wide uni : Bool) (aff : Option (W32 × W32)) (v : Thread → Nat) :
    ∃ tlo thi, intResult c wide uni aff v = ⟨wide, wordVal wide v, tlo, thi⟩ := by
  cases wide <;> exact ⟨_, _, rfl⟩

section
variable {s : State} {c : Ctx} {f : LongForm} {i : Instr} {wd : Bool}

/-- An instruction with an integer result that issues with legal operands gives its active threads the value. -/
theorem gives_intResult {res : Bool} {chk : Ctx → Bool} {uni : Ctx → Bool} {aff : Ctx → Option (W32 × W32)}
    {v : Ctx → Thread → Nat} (h : Issues s i f.g c) (hc : chk c = true)
    (hexec : exec i s = .next (runCore s i f.g res chk fun c =>
      c.result s f.dst f.w (intResult c wd (uni c) (aff c) (v c)))) :
    Gives i s c f wd (wordVal wd (v c)) := by
  obtain ⟨tlo, thi, hr⟩ := intResult_eq c wd (uni c) (aff c) (v c)
  exact ⟨tlo, thi, by rw [hexec, runCore_body h hc, hr]⟩

/-- As `gives_intResult`, of a result given as words. -/
theorem gives_res32 {res : Bool} {chk : Ctx → Bool} {v : Thread → W32} {tag : Ctx → Tag} (h : Issues s i f.g c)
    (hc : chk c = true) (hexec : exec i s = .next (runCore s i f.g res chk fun c => c.result s f.dst f.w (res32 v (tag c)))) :
    Gives i s c f false fun t => (v t).setWidth 64 :=
  ⟨_, _, by rw [hexec, runCore_body h hc]; rfl⟩

theorem legal_iff {l : List (BitVec 9 × Bool)} : Legal c f wd l ↔ dstOk c wd f.dst = true ∧ srcsOk c f l = true := by
  simp [Legal, srcsOk]

variable {a b d : BitVec 9} {wa wb wc : Bool}

theorem chk_one (h : Legal c f wd [(a, wa)]) : (dstOk c wd f.dst && srcOk c f.lit wa a) = true := by
  simpa [legal_iff] using h

theorem chk_two (h : Legal c f wd [(a, wa), (b, wb)]) :
    (dstOk c wd f.dst && srcOk c f.lit wa a && srcOk c f.lit wb b) = true := by
  simpa [legal_iff, and_assoc] using h

theorem chk_three (h : Legal c f wd [(a, wa), (b, wb), (d, wc)]) :
    (dstOk c wd f.dst && srcOk c f.lit wa a && srcOk c f.lit wb b && srcOk c f.lit wc d) = true := by
  simpa [legal_iff, and_assoc] using h

theorem gives_op1 {aff : Ctx → Option (W32 × W32)} {v : Thread → Nat} (h : Issues s i f.g c)
    (hl : Legal c f wd [(f.sa, wa)]) (hexec : exec i s = .next (op1 s i f wd wa aff v)) : Gives i s c f wd (wordVal wd v) :=
  gives_intResult (uni := fun c => srcUni c wa f.sa) (aff := aff) (v := fun _ => v) h (chk_one hl) hexec

theorem gives_op2 {aff : Ctx → Option (W32 × W32)} {v : Thread → Nat} (h : Issues s i f.g c)
    (hl : Legal c f wd [(f.sa, wa), (f.sb, wb)]) (hexec : exec i s = .next (op2 s i f wd wa wb aff v)) :
    Gives i s c f wd (wordVal wd v) :=
  gives_intResult (uni := fun c => srcUni c wa f.sa && srcUni c wb f.sb) (aff := aff) (v := fun _ => v) h (chk_two hl) hexec

theorem gives_op3 {aff : Ctx → Option (W32 × W32)} {v : Thread → Nat} (h : Issues s i f.g c)
    (hl : Legal c f wd [(f.sa, wa), (f.sb, wb), (f.sc, wc)]) (hexec : exec i s = .next (op3 s i f wd wa wb wc aff v)) :
    Gives i s c f wd (wordVal wd v) :=
  gives_intResult (uni := fun c => srcUni c wa f.sa && srcUni c wb f.sb && srcUni c wc f.sc) (aff := aff) (v := fun _ => v) h
    (chk_three hl) hexec

end

/-! ## Types of 32 and 64 bits -/

/-- The instruction's type fills a register or a pair. -/
def WordType (f : LongForm) : Prop := tyBits f.ty = if wideTy f then 64 else 32

section
variable {f : LongForm}

theorem ty_mem_of_tyOp {x op : Bool} {tys : List Nat} (h : (x && f.tyOp tys op) = true) : f.ty ∈ tys := by
  simp only [LongForm.tyOp, Bool.and_eq_true, List.contains_iff_mem] at h
  exact h.2.1

theorem wordType_of_tyOp {x op : Bool} {tys : List Nat} (h : (x && f.tyOp tys op) = true)
    (htys : ∀ ty ∈ tys, tyBits ty = if tyWide ty then 64 else 32) : WordType f := htys f.ty (ty_mem_of_tyOp h)

/-- The types that arithmetic of signed integers takes. -/
theorem tySigned_of_tyOp {x op : Bool} (h : (x && f.tyOp TypeSet.i op) = true) : tySigned f.ty = true :=
  (show ∀ ty ∈ TypeSet.i, tySigned ty = true by decide) f.ty (ty_mem_of_tyOp h)

theorem WordType.pos (hw : WordType f) : 0 < tyBits f.ty := by
  rw [hw]; split <;> decide

theorem tyBits_eq_64 (h : wideTy f = true) : tyBits f.ty = 64 := by simpa [wideTy, tyWide] using h

theorem WordType.tyBits_eq_32 (hw : WordType f) (h : wideTy f = false) : tyBits f.ty = 32 := by rw [hw, h]; rfl

section
variable (f) (v : Thread → Nat) (t : Thread)

theorem rdNat_wide (h : wideTy f = true) (code : BitVec 9) : rdNat f f.ty code t = (rd64 f.lit code t).toNat := by
  rw [rdNat, rdBits, if_pos (show tyWide f.ty = true from h)]

theorem rdNat_narrow (h : wideTy f = false) (code : BitVec 9) : rdNat f f.ty code t = (rd32 f.lit code t).toNat := by
  rw [rdNat, rdBits, if_neg (by rw [← wideTy, h]; decide)]

/-- The bits of a source, as the statements read them. -/
theorem getLsbD_byWidth_rd (code : BitVec 9) (k : Nat) :
    (byWidth f (rd32 f.lit code) (rd64 f.lit code) t).getLsbD k = (rdNat f f.ty code t).testBit k := by
  cases h : wideTy f with
  | true => rw [byWidth, if_pos h, rdNat_wide f t h, BitVec.testBit_toNat]
  | false =>
    rw [byWidth, if_neg (by simp [h]), rdNat_narrow f t h, BitVec.testBit_toNat, BitVec.getLsbD_setWidth]
    rcases Nat.lt_or_ge k 64 with hk | hk
    · simp [hk]
    · simp [BitVec.getLsbD_of_ge _ k (show 32 ≤ k by omega)]

theorem getLsbD_byWidth_a (k : Nat) : (byWidth f (a32 f) (a64 f) t).getLsbD k = (rdNat f f.ty f.sa t).testBit k :=
  getLsbD_byWidth_rd f t f.sa k

theorem getLsbD_byWidth_b (k : Nat) : (byWidth f (b32 f) (b64 f) t).getLsbD k = (rdNat f f.ty f.sb t).testBit k :=
  getLsbD_byWidth_rd f t f.sb k

theorem getLsbD_wordVal {k : Nat} (hw : WordType f) (hk : k < tyBits f.ty) :
    (wordVal (wideTy f) v t).getLsbD k = (v t).testBit k := by
  rw [hw] at hk
  cases h : wideTy f with
  | true =>
    rw [h] at hk
    rw [wordVal, if_pos rfl, BitVec.getLsbD_ofNat, decide_eq_true (by simpa using hk), Bool.true_and]
  | false =>
    rw [h] at hk
    have hk : k < 32 := hk
    rw [wordVal, if_neg Bool.false_ne_true, BitVec.getLsbD_setWidth, BitVec.getLsbD_ofNat]
    simp [hk, show k < 64 by omega]

/-- A number that fits 32 bits is its own result. -/
theorem wordVal_false (h : v t < 2 ^ 32) : wordVal false v t = BitVec.ofNat 64 (v t) := by
  rw [wordVal, if_neg Bool.false_ne_true, BitVec.setWidth_ofNat_of_le_of_lt (by decide) h]

/-- The exact integer that a result of the type denotes. -/
theorem intOf_wordVal (signed : Bool) (hw : WordType f) :
    intOf signed (tyBits f.ty) (wordVal (wideTy f) v t).toNat = intOf signed (tyBits f.ty) (v t) := by
  have hmod : (wordVal (wideTy f) v t).toNat % 2 ^ tyBits f.ty = v t % 2 ^ tyBits f.ty := by
    rw [hw]
    cases wideTy f with
    | true => exact Nat.mod_mod _ _
    | false => simp [wordVal]
  simp only [intOf, hmod]

end

/-! ## Values computed alike in either width -/

section
variable (hw : WordType f)
include hw

theorem wordVal_eq_byWidth {v : Thread → Nat} {v32 : Thread → W32} {v64 : Thread → W64}
    (h32 : wideTy f = false → tyBits f.ty = 32 → ∀ t, BitVec.ofNat 32 (v t) = v32 t)
    (h64 : wideTy f = true → tyBits f.ty = 64 → ∀ t, BitVec.ofNat 64 (v t) = v64 t) :
    wordVal (wideTy f) v = byWidth f v32 v64 := by
  funext t
  cases h : wideTy f with
  | true => rw [wordVal, byWidth, if_pos rfl, if_pos h, h64 h (tyBits_eq_64 h)]
  | false => rw [wordVal, byWidth, if_neg (by decide), if_neg (by simp [h]), h32 h (hw.tyBits_eq_32 h)]

theorem wordVal_one (z : Nat → Nat → Nat) (op : ∀ n, BitVec n → BitVec n)
    (hz : ∀ n, 0 < n → ∀ x : BitVec n, BitVec.ofNat n (z n x.toNat) = op n x) :
    wordVal (wideTy f) (fun t => z (tyBits f.ty) (rdNat f f.ty f.sa t)) =
      byWidth f (fun t => op 32 (a32 f t)) fun t => op 64 (a64 f t) :=
  wordVal_eq_byWidth hw (fun h hb t => by rw [hb, rdNat_narrow f t h, hz 32 (by decide)]; rfl)
    fun h hb t => by rw [hb, rdNat_wide f t h, hz 64 (by decide)]; rfl

theorem wordVal_two (z : Nat → Nat → Nat → Nat) (op : ∀ n, BitVec n → BitVec n → BitVec n)
    (hz : ∀ n, 0 < n → ∀ x y : BitVec n, BitVec.ofNat n (z n x.toNat y.toNat) = op n x y) :
    wordVal (wideTy f) (fun t => z (tyBits f.ty) (rdNat f f.ty f.sa t) (rdNat f f.ty f.sb t)) =
      byWidth f (fun t => op 32 (a32 f t) (b32 f t)) fun t => op 64 (a64 f t) (b64 f t) :=
  wordVal_eq_byWidth hw (fun h hb t => by rw [hb, rdNat_narrow f t h, rdNat_narrow f t h, hz 32 (by decide)]; rfl)
    fun h hb t => by rw [hb, rdNat_wide f t h, rdNat_wide f t h, hz 64 (by decide)]; rfl

theorem wordVal_three (z : Nat → Nat → Nat → Nat → Nat) (op : ∀ n, BitVec n → BitVec n → BitVec n → BitVec n)
    (hz : ∀ n, 0 < n → ∀ x y u : BitVec n, BitVec.ofNat n (z n x.toNat y.toNat u.toNat) = op n x y u) :
    wordVal (wideTy f) (fun t => z (tyBits f.ty) (rdNat f f.ty f.sa t) (rdNat f f.ty f.sb t) (rdNat f f.ty f.sc t)) =
      byWidth f (fun t => op 32 (a32 f t) (b32 f t) (c32 f t)) fun t => op 64 (a64 f t) (b64 f t) (c64 f t) :=
  wordVal_eq_byWidth hw
    (fun h hb t => by rw [hb, rdNat_narrow f t h, rdNat_narrow f t h, rdNat_narrow f t h, hz 32 (by decide)]; rfl)
    fun h hb t => by rw [hb, rdNat_wide f t h, rdNat_wide f t h, rdNat_wide f t h, hz 64 (by decide)]; rfl

/-- The second source is a number of 32 bits in either width. -/
theorem wordVal_amount (z : Nat → Nat → Nat → Nat) (op : ∀ n, BitVec n → Nat → BitVec n)
    (hz : ∀ n, 0 < n → ∀ (x : BitVec n) (k : Nat), BitVec.ofNat n (z n x.toNat k) = op n x k) :
    wordVal (wideTy f) (fun t => z (tyBits f.ty) (rdNat f f.ty f.sa t) (rd32 f.lit f.sb t).toNat) =
      byWidth f (fun t => op 32 (a32 f t) (b32 f t).toNat) fun t => op 64 (a64 f t) (b32 f t).toNat :=
  wordVal_eq_byWidth hw (fun h hb t => by rw [hb, rdNat_narrow f t h, hz 32 (by decide)]; rfl)
    fun h hb t => by rw [hb, rdNat_wide f t h, hz 64 (by decide)]; rfl

end

end

section
variable {s : State} {c : Ctx} {f : LongForm} {i : LongForm → Instr} {aff : Ctx → Option (W32 × W32)}

/-- An instruction of one source computes what it does in words of either width. -/
theorem computes_one (z : Nat → Nat → Nat) (op : ∀ n, BitVec n → BitVec n)
    (hexec : exec (i f) s = .next (op1 s (i f) f (wideTy f) (wideTy f) aff fun t => z (tyBits f.ty) (rdNat f f.ty f.sa t)))
    (hw : (i f).wf = true → WordType f)
    (hz : (i f).wf = true → ∀ n, 0 < n → ∀ x : BitVec n, BitVec.ofNat n (z n x.toNat) = op n x) :
    Computes i src1 s c f (byWidth f (fun t => op 32 (a32 f t)) fun t => op 64 (a64 f t)) :=
  fun h hl => wordVal_one (hw h.wf) z op (hz h.wf) ▸ gives_op1 h hl hexec

/-- As `computes_one`, of two sources. -/
theorem computes_two (z : Nat → Nat → Nat → Nat) (op : ∀ n, BitVec n → BitVec n → BitVec n)
    (hexec : exec (i f) s = .next (op2 s (i f) f (wideTy f) (wideTy f) (wideTy f) aff fun t =>
      z (tyBits f.ty) (rdNat f f.ty f.sa t) (rdNat f f.ty f.sb t)))
    (hw : (i f).wf = true → WordType f)
    (hz : ∀ n, 0 < n → ∀ x y : BitVec n, BitVec.ofNat n (z n x.toNat y.toNat) = op n x y) :
    Computes i src2 s c f (byWidth f (fun t => op 32 (a32 f t) (b32 f t)) fun t => op 64 (a64 f t) (b64 f t)) :=
  fun h hl => wordVal_two (hw h.wf) z op hz ▸ gives_op2 h hl hexec

/-- As `computes_one`, of three sources. -/
theorem computes_three (z : Nat → Nat → Nat → Nat → Nat) (op : ∀ n, BitVec n → BitVec n → BitVec n → BitVec n)
    (hexec : exec (i f) s = .next (op3 s (i f) f (wideTy f) (wideTy f) (wideTy f) (wideTy f) aff fun t =>
      z (tyBits f.ty) (rdNat f f.ty f.sa t) (rdNat f f.ty f.sb t) (rdNat f f.ty f.sc t)))
    (hw : (i f).wf = true → WordType f)
    (hz : ∀ n, 0 < n → ∀ x y u : BitVec n, BitVec.ofNat n (z n x.toNat y.toNat u.toNat) = op n x y u) :
    Computes i src3 s c f
      (byWidth f (fun t => op 32 (a32 f t) (b32 f t) (c32 f t)) fun t => op 64 (a64 f t) (b64 f t) (c64 f t)) :=
  fun h hl => wordVal_three (hw h.wf) z op hz ▸ gives_op3 h hl hexec

/-- As `computes_one`, of a source and an amount. -/
theorem computes_amount (z : Nat → Nat → Nat → Nat) (op : ∀ n, BitVec n → Nat → BitVec n)
    (hexec : exec (i f) s = .next (shiftOp s (i f) f aff z))
    (hw : (i f).wf = true → WordType f)
    (hz : ∀ n, 0 < n → ∀ (x : BitVec n) (k : Nat), BitVec.ofNat n (z n x.toNat k) = op n x k) :
    Computes i amount s c f (byWidth f (fun t => op 32 (a32 f t) (b32 f t).toNat) fun t => op 64 (a64 f t) (b32 f t).toNat) :=
  fun h hl => wordVal_amount (hw h.wf) z op hz ▸ gives_op2 h hl hexec

end

/-! ## Integer arithmetic (07 R113) -/

/-- `Wrap` or `Clamp` of an exact integer to `n` bits. -/
def narrowTo (signed sat : Bool) (n : Nat) (x : Int) : Nat := if sat then clampN signed n x else wrapN n x

theorem ofNat_narrowTo_wrap (signed : Bool) (n : Nat) (x : Int) :
    BitVec.ofNat n (narrowTo signed false n x) = BitVec.ofInt n x := ofNat_wrapN x

section
variable (signed sat : Bool)

/-- Sum, difference, product, and product and sum of the numbers that two or three sources denote, to `n` bits. -/
def addTo (n u v : Nat) : Nat := narrowTo signed sat n (intOf signed n u + intOf signed n v)
def subTo (n u v : Nat) : Nat := narrowTo signed sat n (intOf signed n u - intOf signed n v)
def mulTo (n u v : Nat) : Nat := narrowTo signed sat n (intOf signed n u * intOf signed n v)
def madTo (n u v w : Nat) : Nat :=
  narrowTo signed sat n (intOf signed n u * intOf signed n v + intOf signed n w)
def negTo (n u : Nat) : Nat := narrowTo signed sat n (-intOf signed n u)
def absTo (n u : Nat) : Nat := narrowTo signed sat n ((intOf signed n u).natAbs : Int)

variable {n : Nat} (hn : 0 < n) (x y u : BitVec n)
include hn

theorem ofNat_addTo : BitVec.ofNat n (addTo signed false n x.toNat y.toNat) = x + y := by
  simp only [addTo, ofNat_narrowTo_wrap, intOf_toNat _ _ hn, BitVec.ofInt_add, ofInt_wordInt]

theorem ofNat_subTo : BitVec.ofNat n (subTo signed false n x.toNat y.toNat) = x - y := by
  simp only [subTo, ofNat_narrowTo_wrap, intOf_toNat _ _ hn, ofInt_sub, ofInt_wordInt]

theorem ofNat_mulTo : BitVec.ofNat n (mulTo signed false n x.toNat y.toNat) = x * y := by
  simp only [mulTo, ofNat_narrowTo_wrap, intOf_toNat _ _ hn, BitVec.ofInt_mul, ofInt_wordInt]

theorem ofNat_madTo : BitVec.ofNat n (madTo signed false n x.toNat y.toNat u.toNat) = x * y + u := by
  simp only [madTo, ofNat_narrowTo_wrap, intOf_toNat _ _ hn, BitVec.ofInt_add, BitVec.ofInt_mul, ofInt_wordInt]

theorem ofNat_negTo : BitVec.ofNat n (negTo signed false n x.toNat) = -x := by
  simp only [negTo, ofNat_narrowTo_wrap, intOf_toNat _ _ hn, BitVec.ofInt_neg, ofInt_wordInt]

theorem ofNat_absTo (hs : signed = true) : BitVec.ofNat n (absTo signed false n x.toNat) = x.abs := by
  simp only [absTo, ofNat_narrowTo_wrap, intOf_toNat _ _ hn, hs, wordInt, if_true, ofInt_natAbs_toInt]

end

/-- Settles O1: without `.sat` each value is its exact integer wrapped, and `BitVec.ofInt` carries sums, products and signs of
integers to those of words. -/
theorem integerArithmeticWraps : Obligations.IntegerArithmeticWraps := by
  unfold Obligations.IntegerArithmeticWraps
  intro s c f hop
  have hsat : (f.op == 1) = false := by simp [hop]
  refine ⟨?iadd, ?isub, ?imul, ?imad, ?ineg, ?iabs⟩
  case iadd =>
    exact computes_two (addTo (tySigned f.ty) (f.op == 1)) (fun _ x y => x + y) rfl (wordType_of_tyOp · (by decide))
      fun n hn => hsat ▸ ofNat_addTo _ hn
  case isub =>
    exact computes_two (subTo (tySigned f.ty) (f.op == 1)) (fun _ x y => x - y) rfl (wordType_of_tyOp · (by decide))
      fun n hn => hsat ▸ ofNat_subTo _ hn
  case imul =>
    exact computes_two (mulTo (tySigned f.ty) (f.op == 1)) (fun _ x y => x * y) rfl (wordType_of_tyOp · (by decide))
      fun n hn => hsat ▸ ofNat_mulTo _ hn
  case imad =>
    exact computes_three (madTo (tySigned f.ty) (f.op == 1)) (fun _ x y u => x * y + u) rfl (wordType_of_tyOp · (by decide))
      fun n hn => hsat ▸ ofNat_madTo _ hn
  case ineg =>
    exact computes_one (negTo (tySigned f.ty) (f.op == 1)) (fun _ x => -x) rfl (wordType_of_tyOp · (by decide))
      fun _ n hn => hsat ▸ ofNat_negTo _ hn
  case iabs =>
    exact computes_one (absTo (tySigned f.ty) (f.op == 1)) (fun _ x => x.abs) rfl (wordType_of_tyOp · (by decide))
      fun hwf n hn x => hsat ▸ ofNat_absTo _ hn x (tySigned_of_tyOp hwf)

/-- An instruction whose result is clamped gives the nearest integer of its type. -/
theorem exists_clamped {s : State} {c : Ctx} {f : LongForm} {i : Instr} (hw : WordType f) {x : Thread → Int}
    (h : Gives i s c f (wideTy f) (wordVal (wideTy f) fun t => clampN (tySigned f.ty) (tyBits f.ty) (x t))) :
    ∃ v, Gives i s c f (wideTy f) v ∧ ∀ t, intOf (tySigned f.ty) (tyBits f.ty) (v t).toNat =
      max (intMin (tySigned f.ty) (tyBits f.ty)) (min (intMax (tySigned f.ty) (tyBits f.ty)) (x t)) :=
  ⟨_, h, fun t => by rw [intOf_wordVal _ _ _ _ hw, intOf_clampN _ hw.pos]⟩

/-- Settles O2: with `.sat` each value is its exact integer clamped (`narrow`), and a result of the type's width denotes
it. -/
theorem integerArithmeticClamps : Obligations.IntegerArithmeticClamps := by
  unfold Obligations.IntegerArithmeticClamps
  intro s c f hop
  have hsat (x : Int) : narrow f.ty (f.op == 1) x = clampN (tySigned f.ty) (tyBits f.ty) x := by simp [narrow, hop]
  refine ⟨?iadd, ?isub, ?imul, ?imad, ?ineg, ?iabs⟩
  case iadd | isub | imul =>
    refine fun h hl => exists_clamped (wordType_of_tyOp h.wf (by decide)) ?_
    simp only [← hsat]
    exact gives_op2 h hl rfl
  case imad =>
    refine fun h hl => exists_clamped (wordType_of_tyOp h.wf (by decide)) ?_
    simp only [← hsat]
    exact gives_op3 h hl rfl
  case ineg =>
    refine fun h hl => exists_clamped (wordType_of_tyOp h.wf (by decide)) ?_
    simp only [← hsat]
    exact gives_op1 h hl rfl
  case iabs =>
    refine fun h hl => exists_clamped (wordType_of_tyOp h.wf (by decide)) ?_
    simp only [← hsat, ← Int.natCast_natAbs]
    exact gives_op1 h hl rfl

/-! ## Division, high products, extrema (07 R114 to R116) -/

section
variable (signed : Bool)

/-- The values of these instructions from the bits of their sources. -/
def divTo (n u v : Nat) : Nat :=
  if intOf signed n v = 0 then 2 ^ n - 1 else wrapN n ((intOf signed n u).tdiv (intOf signed n v))
def remTo (n u v : Nat) : Nat :=
  wrapN n (if intOf signed n v = 0 then intOf signed n u
    else intOf signed n u - (intOf signed n u).tdiv (intOf signed n v) * intOf signed n v)
def highTo (n u v : Nat) : Nat := wrapN n (intOf signed n u * intOf signed n v / ((2 ^ n : Nat) : Int))
def minTo (n u v : Nat) : Nat :=
  wrapN n (if intOf signed n u ≤ intOf signed n v then intOf signed n u else intOf signed n v)
def maxTo (n u v : Nat) : Nat :=
  wrapN n (if intOf signed n u ≤ intOf signed n v then intOf signed n v else intOf signed n u)

variable {n : Nat} (hn : 0 < n) (x y : BitVec n)

theorem ofNat_two_pow_sub_one : BitVec.ofNat n (2 ^ n - 1) = -1 := by
  rw [← BitVec.toNat_allOnes, ofNat_toNat_self]
  exact BitVec.neg_one_eq_allOnes.symm

include hn

theorem ofNat_divTo : BitVec.ofNat n (divTo signed n x.toNat y.toNat) =
    if y = 0 then -1 else if signed then x.sdiv y else x / y := by
  simp only [divTo, intOf_toNat _ _ hn, wordInt_eq_zero_iff]
  split
  · exact ofNat_two_pow_sub_one
  · rw [ofNat_wrapN, ofInt_tdiv_wordInt]

theorem ofNat_remTo : BitVec.ofNat n (remTo signed n x.toNat y.toNat) =
    if y = 0 then x else if signed then x.srem y else x % y := by
  simp only [remTo, intOf_toNat _ _ hn, wordInt_eq_zero_iff, ofNat_wrapN]
  split
  · rw [ofInt_wordInt]
  · rw [ofInt_tmod_wordInt]

theorem ofNat_highTo : BitVec.ofNat n (highTo signed n x.toNat y.toNat) = highHalf signed x y := by
  rw [highTo, intOf_toNat _ _ hn, intOf_toNat _ _ hn, ofNat_wrapN, ofInt_highHalf]

theorem ofNat_minTo : BitVec.ofNat n (minTo signed n x.toNat y.toNat) =
    if (if signed then x.sle y else x.ule y) then x else y := by
  simp only [minTo, intOf_toNat _ _ hn, ofNat_wrapN, wordInt_le_iff, apply_ite (BitVec.ofInt n), ofInt_wordInt]

theorem ofNat_maxTo : BitVec.ofNat n (maxTo signed n x.toNat y.toNat) =
    if (if signed then x.sle y else x.ule y) then y else x := by
  simp only [maxTo, intOf_toNat _ _ hn, ofNat_wrapN, wordInt_le_iff, apply_ite (BitVec.ofInt n), ofInt_wordInt]

end

/-- Settles O3: the model's truncating division, high half and comparison of exact integers are those of words. -/
theorem divisionHighProductExtrema : Obligations.DivisionHighProductExtrema := by
  unfold Obligations.DivisionHighProductExtrema
  intro s c f
  refine ⟨?idiv, ?irem, ?imulh, ?imin, ?imax⟩
  case idiv =>
    exact computes_two (divTo (tySigned f.ty))
      (fun _ x y => if y = 0 then -1 else if tySigned f.ty then x.sdiv y else x / y) rfl (wordType_of_tyOp · (by decide))
      fun n hn => ofNat_divTo _ hn
  case irem =>
    exact computes_two (remTo (tySigned f.ty))
      (fun _ x y => if y = 0 then x else if tySigned f.ty then x.srem y else x % y) rfl (wordType_of_tyOp · (by decide))
      fun n hn => ofNat_remTo _ hn
  case imulh =>
    exact computes_two (highTo (tySigned f.ty)) (fun _ x y => highHalf (tySigned f.ty) x y) rfl
      (wordType_of_tyOp · (by decide)) fun n hn => ofNat_highTo _ hn
  case imin =>
    exact computes_two (minTo (tySigned f.ty))
      (fun _ x y => if (if tySigned f.ty then x.sle y else x.ule y) then x else y) rfl (wordType_of_tyOp · (by decide))
      fun n hn => ofNat_minTo _ hn
  case imax =>
    exact computes_two (maxTo (tySigned f.ty))
      (fun _ x y => if (if tySigned f.ty then x.sle y else x.ule y) then y else x) rfl (wordType_of_tyOp · (by decide))
      fun n hn => ofNat_maxTo _ hn

/-! ## Logic, shifts, bit fields and counts (07 R117 to R120) -/

/-- Settles O4: each operation on numbers is the one on words of either width. -/
theorem logicAndShifts : Obligations.LogicAndShifts := by
  unfold Obligations.LogicAndShifts
  intro s c f
  refine ⟨?and, ?or, ?xor, ?andn, ?not, ?shl, ?shr, ?sar, ?rol⟩
  case and =>
    exact computes_two (fun _ u v => u &&& v) (fun _ x y => x &&& y) rfl (wordType_of_tyOp · (by decide))
      fun n _ => ofNat_and
  case or =>
    exact computes_two (fun _ u v => u ||| v) (fun _ x y => x ||| y) rfl (wordType_of_tyOp · (by decide))
      fun n _ => ofNat_or
  case xor =>
    exact computes_two (fun _ u v => u ^^^ v) (fun _ x y => x ^^^ y) rfl (wordType_of_tyOp · (by decide))
      fun n _ => ofNat_xor
  case andn =>
    exact computes_two (fun n u v => u &&& (2 ^ n - 1 - v)) (fun _ x y => x &&& ~~~y) rfl (wordType_of_tyOp · (by decide))
      fun n _ => ofNat_andn
  case not =>
    exact computes_one (fun n u => 2 ^ n - 1 - u) (fun _ x => ~~~x) rfl (wordType_of_tyOp · (by decide))
      fun _ n _ => ofNat_not
  case shl =>
    exact computes_amount shlVal (fun _ x k => x <<< k) rfl (wordType_of_tyOp · (by decide))
      fun n _ => ofNat_shlVal
  case shr =>
    exact computes_amount shrVal (fun _ x k => x >>> k) rfl (wordType_of_tyOp · (by decide))
      fun n _ => ofNat_shrVal
  case sar =>
    exact computes_amount sarVal (fun _ x k => x.sshiftRight k) rfl (wordType_of_tyOp · (by decide))
      fun n hn x k => ofNat_sarVal x k hn
  case rol =>
    exact computes_amount rolVal (fun _ x k => x.rotateLeft k) rfl (wordType_of_tyOp · (by decide))
      fun n hn x k => ofNat_rolVal x k hn

/-- Settles O5: the fields bit by bit (`testBit_bfxVal`, `testBit_bfiVal`). -/
theorem bitFields : Obligations.BitFields := by
  unfold Obligations.BitFields
  intro s c f
  refine ⟨fun h hl => ⟨_, gives_op2 h hl rfl, fun t i hi => ?bfx⟩, fun h hl => ⟨_, gives_op3 h hl rfl, fun t i hi => ?bfi⟩⟩
  case bfx =>
    have hw : WordType f := wordType_of_tyOp h.wf (by decide)
    rw [getLsbD_wordVal _ _ _ hw hi, testBit_bfxVal _ _ _ hi, getLsbD_byWidth_a, getLsbD_byWidth_a]
    rfl
  case bfi =>
    have hw : WordType f := wordType_of_tyOp h.wf (by decide)
    rw [getLsbD_wordVal _ _ _ hw hi, testBit_bfiVal _ _ _ hi, getLsbD_byWidth_a, getLsbD_byWidth_b]
    rfl

/-- Settles O6: a count fits a word of 32 bits, so it is its own result; the reversal is read bit by bit. -/
theorem countsAndReversal : Obligations.CountsAndReversal := by
  unfold Obligations.CountsAndReversal
  intro s c f
  have hfits {m : Nat} (hw : WordType f) (hm : m ≤ tyBits f.ty) : m < 2 ^ 32 :=
    hm.trans_lt (by rw [hw]; split <;> decide)
  refine ⟨fun h hl => ?popc, fun h hl => ⟨_, gives_op1 h hl rfl, fun t => ?clz⟩,
    fun h hl => ⟨_, gives_op1 h hl rfl, fun t i hi => ?brev⟩⟩
  case popc =>
    have hw : WordType f := wordType_of_tyOp h.wf (by decide)
    have hval : wordVal false (fun t => popcVal (tyBits f.ty) (rdNat f f.ty f.sa t)) = fun t => BitVec.ofNat 64
        ((List.range (tyBits f.ty)).filter fun i => (byWidth f (a32 f) (a64 f) t).getLsbD i).length := funext fun t => by
      rw [wordVal_false _ t (hfits hw (popcVal_le _ _))]
      simp only [getLsbD_byWidth_a]
      rfl
    exact hval ▸ gives_op1 h hl rfl
  case clz =>
    have hw : WordType f := wordType_of_tyOp h.wf (by decide)
    obtain ⟨hle, hzeros, hone⟩ := clzVal_spec (tyBits f.ty) (rdNat f f.ty f.sa t)
    rw [wordVal_false _ t (hfits hw hle), BitVec.toNat_ofNat, Nat.mod_eq_of_lt ((hfits hw hle).trans (by decide))]
    simp only [getLsbD_byWidth_a]
    exact ⟨hle, hzeros, hone⟩
  case brev =>
    have hw : WordType f := wordType_of_tyOp h.wf (by decide)
    rw [getLsbD_wordVal _ _ _ hw hi, testBit_brevVal _ hi, getLsbD_byWidth_a]

/-! ## Moves, addresses, selection (07 R110 to R112, R121) -/

theorem ofNat_append (x y : W32) : BitVec.ofNat 64 (x.toNat * 2 ^ 32 + y.toNat) = x ++ y := by
  refine BitVec.eq_of_toNat_eq ?_
  rw [BitVec.toNat_ofNat, BitVec.toNat_append, ← Nat.shiftLeft_add_eq_or_of_lt y.isLt, Nat.shiftLeft_eq]
  omega

theorem mul_ofNat_two_pow {n : Nat} (x : BitVec n) (k : Nat) : x * BitVec.ofNat n (2 ^ k) = x <<< k := by
  refine BitVec.eq_of_toNat_eq ?_
  rw [BitVec.toNat_mul, BitVec.toNat_ofNat, BitVec.toNat_shiftLeft, Nat.shiftLeft_eq, Nat.mul_mod_mod]

/-- Settles O7: a copy and a selection are of either width; `MOVL` and `LEA` are of 64 bits. -/
theorem movesAddressesSelection : Obligations.MovesAddressesSelection := by
  unfold Obligations.MovesAddressesSelection
  intro s c f
  refine ⟨?mov, fun h hl hlit => ?movl, fun h hl => ?lea, fun h hl hk => ?sel⟩
  case mov =>
    exact computes_one (fun _ u => u) (fun _ x => x) rfl (wordType_of_tyOp · (by decide))
      fun _ n _ x => ofNat_toNat_self x
  case movl =>
    have hc : (dstOk c true f.dst && srcOk c f.lit false f.sa && f.sb == litCode) = true := by
      rw [chk_one hl, hlit]; rfl
    have hval : wordVal true (fun t => (f.lit.getD 0#32).toNat * 2 ^ 32 + (rd32 f.lit f.sa t).toNat) =
        fun t => f.lit.getD 0#32 ++ a32 f t := funext fun t => ofNat_append _ _
    exact hval ▸ gives_intResult (uni := fun c => srcUni c false f.sa) (aff := noAff)
      (v := fun _ t => (f.lit.getD 0#32).toNat * 2 ^ 32 + (rd32 f.lit f.sa t).toNat) h hc rfl
  case lea =>
    have hval : wordVal true (fun t => (rd64 f.lit f.sa t + leaOffset f t * BitVec.ofNat 64 (2 ^ f.op)).toNat) =
        fun t => a64 f t + leaOffset f t <<< f.op := funext fun t => by
      rw [← mul_ofNat_two_pow]
      exact ofNat_toNat_self _
    have hg : Gives (.lea f) s c f true fun t => a64 f t + leaOffset f t <<< f.op := hval ▸ gives_op2 h hl rfl
    exact hg
  case sel =>
    have hc : (dstOk c (wideTy f) f.dst && srcOk c f.lit (wideTy f) f.sa && srcOk c f.lit (wideTy f) f.sb && maskSrcOk f.sc) =
        true := by
      rw [chk_two hl]; exact decide_eq_true hk
    have hval : wordVal (wideTy f) (fun t => if t.mask f.sc.toNat then rdNat f f.ty f.sa t else rdNat f f.ty f.sb t) =
        byWidth f (fun t => if t.mask f.sc.toNat then a32 f t else b32 f t)
          fun t => if t.mask f.sc.toNat then a64 f t else b64 f t := by
      refine wordVal_eq_byWidth (wordType_of_tyOp h.wf (by decide)) (fun hn _ t => ?_) fun hn _ t => ?_
      · rw [rdNat_narrow f t hn, rdNat_narrow f t hn]
        split <;> exact ofNat_toNat_self _
      · rw [rdNat_wide f t hn, rdNat_wide f t hn]
        split <;> exact ofNat_toNat_self _
    exact hval ▸ gives_intResult (uni := fun _ => false) (aff := noAff)
      (v := fun _ t => if t.mask f.sc.toNat then rdNat f f.ty f.sa t else rdNat f f.ty f.sb t) h hc rfl

/-! ## Comparisons and masks (07 R122, R123) -/

/-- A condition on exact integers is the one on words. -/
theorem cmpInt_wordInt {n : Nat} {cc : Nat} (hcc : cc ≤ 5) (signed : Bool) (x y : BitVec n) :
    cmpInt cc (wordInt signed x) (wordInt signed y) = holds cc signed x y := by
  have hcases : cc = 0 ∨ cc = 1 ∨ cc = 2 ∨ cc = 3 ∨ cc = 4 ∨ cc = 5 := by omega
  rcases hcases with rfl | rfl | rfl | rfl | rfl | rfl
  all_goals
    rw [Bool.eq_iff_iff]
    simp only [cmpInt, holds, beq_iff_eq, bne_iff_ne, ne_eq, decide_eq_true_eq, wordInt_inj, wordInt_le_iff, wordInt_lt_iff]

section
variable {s : State} {c : Ctx} {f : LongForm}

/-- The exact integers that a comparison compares, in either width. -/
theorem cmpInt_sources (hw : WordType f) {cc : Nat} (hcc : cc ≤ 5) (t : Thread) : cmpInt cc (aInt f t) (bInt f t) =
    if wideTy f then holds cc (tySigned f.ty) (a64 f t) (b64 f t) else holds cc (tySigned f.ty) (a32 f t) (b32 f t) := by
  have hint (code : BitVec 9) : rdInt f.lit f.ty code t = intOf (tySigned f.ty) (tyBits f.ty) (rdNat f f.ty code t) := rfl
  rw [aInt, bInt, hint, hint]
  split
  next h => rw [tyBits_eq_64 h, rdNat_wide f t h, rdNat_wide f t h, intOf_toNat _ _ (by decide), intOf_toNat _ _ (by decide),
    cmpInt_wordInt hcc]; rfl
  next h =>
    have h : wideTy f = false := by simpa using h
    rw [hw.tyBits_eq_32 h, rdNat_narrow f t h, rdNat_narrow f t h, intOf_toNat _ _ (by decide), intOf_toNat _ _ (by decide),
      cmpInt_wordInt hcc]; rfl

theorem combine_eq (comb : Nat) (r k : Bool) :
    combine comb r k = if comb = 1 then r && k else if comb = 2 then r || k else r := by
  match comb with
  | 0 => rfl
  | 1 => rfl
  | 2 => rfl
  | n + 3 => rfl

/-- What 07 R122 lets `ICMP` name: a condition and a type of words. -/
theorem icmp_wf (h : (Instr.icmp f).wf = true) : f.op % 8 ≤ 5 ∧ WordType f := by
  have htys : ∀ ty ∈ TypeSet.i ++ TypeSet.n ++ TypeSet.b, tyBits ty = if tyWide ty then 64 else 32 := by decide
  have hok : f.icmpOk = true := (Bool.and_eq_true_iff.1 h).2
  simp only [LongForm.icmpOk, Bool.or_eq_true, Bool.and_eq_true, decide_eq_true_eq, List.contains_iff_mem] at hok
  rcases hok with ⟨⟨_, hcc⟩, hty⟩ | ⟨⟨_, hcc⟩, hty⟩
  · exact ⟨hcc, htys f.ty (List.mem_append_left _ hty)⟩
  · exact ⟨by omega, htys f.ty (List.mem_append_right _ hty)⟩

theorem givesMask_two {i : Instr} {op : Bool → Bool → Bool} (h : Issues s i f.g c) (hm : masksNamed f true)
    (hexec : exec i s = .next (maskOp2 s i f op)) :
    GivesMask i s c f.dst.toNat fun t => op (t.mask f.sa.toNat) (t.mask f.sb.toNat) := by
  obtain ⟨hd, ha, hb⟩ := hm
  rw [GivesMask, hexec, maskOp2, runCore_body h (by simp [maskDstOk, maskSrcOk, hd, ha, hb])]

theorem givesMask_one {i : Instr} {op : Bool → Bool} (h : Issues s i f.g c) (hm : masksNamed f false)
    (hexec : exec i s = .next (maskOp1 s i f op)) : GivesMask i s c f.dst.toNat fun t => op (t.mask f.sa.toNat) := by
  obtain ⟨hd, ha, -⟩ := hm
  rw [GivesMask, hexec, maskOp1, runCore_body h (by simp [maskDstOk, maskSrcOk, hd, ha])]

end

/-- Settles O8: `ICMP` compares exact integers (`cmpInt_sources`); the mask instructions work thread by thread as they
stand. -/
theorem comparisonsAndMasks : Obligations.ComparisonsAndMasks := by
  unfold Obligations.ComparisonsAndMasks
  intro s c f
  refine ⟨fun h hl hk => ?icmp, fun h hm => givesMask_two (op := (· && ·)) h hm rfl,
    fun h hm => givesMask_two (op := (· || ·)) h hm rfl, fun h hm => givesMask_two (op := Bool.xor) h hm rfl,
    fun h hm => givesMask_one (op := (!·)) h hm rfl, fun h hm => givesMask_one (op := id) h hm rfl, fun h hl hk => ?kpop⟩
  case icmp =>
    obtain ⟨hcc, hw⟩ := icmp_wf h.wf
    have hc : (maskDstOk f.dst && srcOk c f.lit (wideTy f) f.sa && srcOk c f.lit (wideTy f) f.sb &&
        (combOf f == 0 || maskSrcOk f.sc)) = true := by
      have hsc : combOf f = 0 ∨ f.sc.toNat < 8 := or_iff_not_imp_left.2 hk
      simpa [LegalMask, src2, maskSrcOk, and_assoc, hsc] using hl
    have hval : (fun t => combine (combOf f) (cmpInt (ccOf f) (aInt f t) (bInt f t)) (t.mask f.sc.toNat)) = fun t =>
        let r := if wideTy f then holds (f.op % 8) (tySigned f.ty) (a64 f t) (b64 f t)
          else holds (f.op % 8) (tySigned f.ty) (a32 f t) (b32 f t)
        if f.op / 8 = 1 then r && t.mask f.sc.toNat else if f.op / 8 = 2 then r || t.mask f.sc.toNat else r :=
      funext fun t => by rw [combine_eq, ccOf, cmpInt_sources hw hcc]; rfl
    have hexec : exec (.icmp f) s = .next (c.masks s f.dst.toNat fun t =>
        combine (combOf f) (cmpInt (ccOf f) (aInt f t) (bInt f t)) (t.mask f.sc.toNat)) := congrArg _ (runCore_body h hc)
    rw [GivesMask, hexec, hval]
  case kpop =>
    have hc : (dstOk c false f.dst && maskSrcOk f.sa) = true := by simpa [maskSrcOk, hk] using hl.1
    have hexec : exec (.kpop f) s = .next (runCore s (.kpop f) f.g true (fun c => dstOk c false f.dst && maskSrcOk f.sa)
      fun c => c.result s f.dst f.w
        (intResult c false true none fun _ => (c.act.filter fun t => t.mask f.sa.toNat).length)) := rfl
    rw [runCore_body h hc] at hexec
    exact ⟨_, _, hexec⟩

/-! ## Shapes and broadcast (07 R136 to R138) -/

/-- Settles O18: the values, under whatever tags the instructions give. -/
theorem shapesAndBroadcast : Obligations.ShapesAndBroadcast := by
  unfold Obligations.ShapesAndBroadcast
  intro s c f
  refine ⟨fun h hl => gives_res32 h (chk_one hl) rfl, fun h hl => gives_res32 h (chk_two hl) rfl, fun t ht h hl => ?unif⟩
  case unif =>
    have hval : wordVal (wideTy f) (fun _ => (c.act.head?.map (rdNat f f.ty f.sa)).getD 0) =
        fun _ => byWidth f (a32 f) (a64 f) t := by
      funext u
      have hone := congrFun (wordVal_one (wordType_of_tyOp h.wf (by decide)) (fun _ u => u) (fun _ x => x)
        fun n _ x => ofNat_toNat_self x) t
      rw [ht]
      exact hone
    exact hval ▸ gives_intResult (uni := fun _ => true) (aff := noAff)
      (v := fun c _ => (c.act.head?.map (rdNat f f.ty f.sa)).getD 0) h (chk_one hl) rfl

end Sys2Proof.Machine
end

section
/-! Control transfers and the control stack: transfers whose targets pass (O10), returns (O11), stack faults (O14), meetings,
`YIELD` and `EXIT` (O15). -/

namespace Sys2Proof.Machine

open Sys2Proof

/-! ## The control stack (07 R124, R128) -/

theorem popTo_eq_none_iff {p : CsEntry → Bool} {l : List CsEntry} : popTo p l = none ↔ ∀ e ∈ l, p e = false := by
  induction l with
  | nil => simp [popTo]
  | cons e l ih =>
    cases h : popTo p l with
    | none => simpa [popTo, h] using fun _ => ih.1 h
    | some x => simpa [popTo, h] using fun _ => by simpa [h] using ih

theorem popTo_append {p : CsEntry → Bool} {e : CsEntry} {above : List CsEntry} (he : p e = true)
    (ha : ∀ x ∈ above, p x = false) (below : List CsEntry) : popTo p (below ++ e :: above) = some (e, below) := by
  induction below with
  | nil => simp [popTo, popTo_eq_none_iff.2 ha, he]
  | cons x below ih => simp [popTo, ih]

theorem popCall_isNone_iff (t : Thread) : (popCall t).isNone = true ↔ ∀ e ∈ t.stack, e.meet = true := by
  simp [popCall, popTo_eq_none_iff]

/-- Settles O11: the topmost entry that satisfies the test is the one that nothing above it satisfies (`popTo_append`). -/
theorem returnPopsTopmostCall : Obligations.ReturnPopsTopmostCall := by
  unfold Obligations.ReturnPopsTopmostCall
  intro t below above e hstack he habove
  rw [popCall, hstack]
  exact popTo_append (by simp [he]) (fun x hx => by simp [habove x hx]) below

section
variable {c : Ctx} {s : State} {cause : Nat} {bad : Thread → Bool} {go : State}

theorem stackFault_none (h : ∀ t ∈ c.act, bad t = false) : c.stackFault s cause bad go = go := by
  rw [Ctx.stackFault, if_neg (by simpa using h)]

theorem stackFault_some (h : ∃ t ∈ c.act, bad t = true) : c.stackFault s cause bad go = c.trapAct s cause := by
  rw [Ctx.stackFault, if_pos (List.any_eq_true.2 h)]

end

theorem stackFull_iff (t : Thread) : stackFull t = true ↔ 32 ≤ t.stack.length := decide_eq_true_iff

theorem stackFull_eq_false_iff (t : Thread) : stackFull t = false ↔ t.stack.length < 32 := by simp [stackFull]

theorem hasMet_iff (m : W64) (t : Thread) :
    hasMet m t = true ↔ t.meet = m ∧ ∃ e, t.stack.getLast? = some e ∧ e.meet = true ∧ e.addr = m := by
  cases h : t.stack.getLast? <;> simp [hasMet, h]

/-- Settles O14: each instruction asks for the fault of its control stack before anything else (`stackFault_some`). -/
theorem stackFaults : Obligations.StackFaults := by
  unfold Obligations.StackFaults
  intro s c f b
  refine ⟨fun h ⟨t, ht, hfull⟩ => ?call, fun h ⟨t, ht, hfull, hmet⟩ => ?meet, fun h hop ⟨t, ht, hall⟩ => ?ret⟩
  case call => exact congrArg _ ((runCore_body h rfl).trans (stackFault_some ⟨t, ht, (stackFull_iff t).2 hfull⟩))
  case meet =>
    have hbad : (!hasMet (relTarget c b.off.toInt) t && stackFull t) = true := by
      rw [(stackFull_iff t).2 hfull, Bool.and_true, Bool.not_eq_true', ← Bool.not_eq_true, hasMet_iff]
      exact hmet
    exact congrArg _ ((runCore_body h rfl).trans (stackFault_some ⟨t, ht, hbad⟩))
  case ret =>
    have hc : (f.op == 0 || srcOk c f.lit true f.sa) = true := by simpa using hop
    exact congrArg _ ((runCore_body h hc).trans (stackFault_some ⟨t, ht, (popCall_isNone_iff t).2 hall⟩))

/-! ## Transfers whose targets pass (04 R62, 07 R125 to R128) -/

section
variable {c : Ctx} {mark : Bool}

/-- Targets that all pass leave the answer `.ok` for each of them, and the state after their checks. -/
theorem foldl_checkTarget_of_pass {l : List W64} {s s' : State} (h : targetsPass c.grp mark l s = some s')
    (acc : List (W64 × TargetRes)) :
    l.foldl (fun (acc : List (W64 × TargetRes) × State) pc =>
      let (r, s1) := checkTarget acc.2 c.grp pc mark
      (acc.1 ++ [(pc, r)], s1)) (acc, s) = (acc ++ l.map (·, TargetRes.ok), s') := by
  induction l generalizing acc s with
  | nil => simpa [targetsPass] using h
  | cons pc l ih =>
    rw [targetsPass] at h
    split at h
    next s1 heq => simp only [List.foldl_cons, heq, ih h, List.map_cons, List.append_assoc, List.singleton_append]
    next => cases h

theorem lookup_map_ok (l : List W64) (pc : W64) : ((l.map (·, TargetRes.ok)).lookup pc).getD .ok = .ok := by
  induction l with
  | nil => rfl
  | cons x l ih =>
    rw [List.map_cons, List.lookup_cons]
    split
    · rfl
    · exact ih

/-- Where all targets pass, the transfer is made. -/
theorem transfer_of_passes {s s' : State} {target : Thread → W64} (h : Passes s c mark target s') (go : State → State) :
    c.transfer s mark target go = go s' := by
  rw [Ctx.transfer, foldl_checkTarget_of_pass h []]
  simp [lookup_map_ok]

end

/-- Settles O10: no control stack is at fault (`stackFault_none`), and the targets pass (`transfer_of_passes`). -/
theorem transfersAreTaken : Obligations.TransfersAreTaken := by
  unfold Obligations.TransfersAreTaken
  intro s s' c f b
  refine ⟨fun h hp => ?bra, fun h ha hp => ?brx, fun h hroom hp => ?call, fun h hop hcall target htarget hp => ?ret⟩
  case bra => exact congrArg _ ((runCore_body h rfl).trans (transfer_of_passes hp _))
  case brx => exact congrArg _ ((runCore_body h ha).trans (transfer_of_passes hp _))
  case call =>
    have hfull : ∀ t ∈ c.act, stackFull t = false := fun t ht => (stackFull_eq_false_iff t).2 (hroom t ht)
    exact congrArg _ ((runCore_body h rfl).trans ((stackFault_none hfull).trans (transfer_of_passes hp _)))
  case ret =>
    have hc : (f.op == 0 || srcOk c f.lit true f.sa) = true := by simpa using hop
    have hsome : ∀ t ∈ c.act, (popCall t).isNone = false := fun t ht => by
      obtain ⟨e, he, hm⟩ := hcall t ht
      rw [← Bool.not_eq_true, popCall_isNone_iff]
      exact fun hall => by simp [hall e he] at hm
    have htgt : (fun t => match (if f.op = 1 then some (rd64 f.lit f.sa) else none) with
        | some a => a t
        | none => ((popCall t).map fun e => e.1.addr).getD 0#64) = target := funext fun t => by
      rw [htarget]
      split <;> simp_all [a64]
    subst htgt
    exact congrArg _ ((runCore_body h hc).trans ((stackFault_none hsome).trans (transfer_of_passes hp _)))

/-! ## Addresses in ascending order (03 R30) -/

section
variable {α : Type} (lt : α → α → Bool)

theorem perm_insertBy (x : α) (l : List α) : (insertBy lt x l).Perm (x :: l) := by
  induction l with
  | nil => exact .refl _
  | cons y l ih =>
    rw [insertBy]
    split
    · exact (ih.cons y).trans (.swap x y l)
    · exact .refl _

theorem perm_sortBy (l : List α) : (sortBy lt l).Perm l := by
  induction l with
  | nil => exact .refl _
  | cons x l ih => exact (perm_insertBy lt x _).trans (ih.cons x)

theorem nodup_distinct [DecidableEq α] (l : List α) : (distinct l).Nodup := by
  induction l with
  | nil => exact List.nodup_nil
  | cons x l ih => exact List.nodup_cons.2 ⟨by simp, ih.filter _⟩

end

theorem mem_addressesOf {ts : List Thread} {p : W64} : p ∈ addressesOf ts ↔ ∃ t ∈ ts, t.pc = p := by
  rw [addressesOf, (perm_sortBy _ _).mem_iff, mem_distinct, List.mem_map]

/-- Addresses in strictly ascending order. -/
abbrev Ascending (l : List W64) : Prop := l.Pairwise fun p q => p.toNat < q.toNat

theorem ascending_insertBy {x : W64} {l : List W64} (hl : Ascending l) (hx : x ∉ l) :
    Ascending (insertBy (fun a b => a.toNat < b.toNat) x l) := by
  induction l with
  | nil => exact List.pairwise_singleton _ _
  | cons y l ih =>
    obtain ⟨hy, hl'⟩ := List.pairwise_cons.1 hl
    obtain ⟨hne, hxl⟩ := not_or.1 (mt List.mem_cons.2 hx)
    rw [insertBy]
    split
    next hlt =>
      refine List.pairwise_cons.2 ⟨fun z hz => ?_, ih hl' hxl⟩
      rcases List.mem_cons.1 ((perm_insertBy _ x l).mem_iff.1 hz) with rfl | hz
      · simpa using hlt
      · exact hy z hz
    next hlt =>
      have hxy : x.toNat < y.toNat := by
        have : x.toNat ≠ y.toNat := fun h => hne (BitVec.eq_of_toNat_eq h)
        simp only [decide_eq_true_eq] at hlt
        omega
      refine List.pairwise_cons.2 ⟨fun z hz => ?_, hl⟩
      rcases List.mem_cons.1 hz with rfl | hz
      · exact hxy
      · exact hxy.trans (hy z hz)

theorem ascending_sortBy {l : List W64} (hl : l.Nodup) : Ascending (sortBy (fun a b => a.toNat < b.toNat) l) := by
  induction l with
  | nil => exact List.Pairwise.nil
  | cons x l ih =>
    obtain ⟨hx, hl'⟩ := List.nodup_cons.1 hl
    exact ascending_insertBy (ih hl') (mt (perm_sortBy _ l).mem_iff.1 hx)

/-- Ascending addresses are determined by which they are. -/
theorem eq_addressesOf {ts : List Thread} {l : List W64} (hl : Ascending l) (hmem : ∀ p, p ∈ l ↔ ∃ t ∈ ts, t.pc = p) :
    l = addressesOf ts := by
  have : Std.Irrefl fun p q : W64 => p.toNat < q.toNat := ⟨fun _ => Nat.lt_irrefl _⟩
  have : Std.Antisymm fun p q : W64 => p.toNat < q.toNat := ⟨fun _ _ h h' => absurd h (Nat.lt_asymm h')⟩
  exact hl.eq_of_mem_iff (ascending_sortBy (nodup_distinct _)) fun p => (hmem p).trans mem_addressesOf.symm

theorem length_addressesOf (ts : List Thread) : (addressesOf ts).length = (distinct (ts.map (·.pc))).length :=
  (perm_sortBy _ _).length_eq

/-! ## `YIELD` and `EXIT` (03 R38, 07 R131, R132) -/

theorem hintOp_eq {c : Ctx} {s : State} (hc : ctxOf s 0 = some c) : hintOp s = c.done s id := by
  rw [hintOp, show ctxOf s 0#5 = some c from hc]

theorem moveTarget_mem {pcs : List W64} (h : pcs ≠ []) (cur : W64) : ∃ p ∈ pcs, moveTarget pcs cur = some p := by
  cases hf : pcs.find? fun p => cur.toNat < p.toNat with
  | some p => exact ⟨p, List.mem_of_find?_eq_some hf, by rw [moveTarget, hf]⟩
  | none => exact ⟨pcs.head h, List.head_mem h, by rw [moveTarget, hf, List.head?_eq_some_head h]⟩

section
variable {c : Ctx} {others : List W64}
  (ho : others = addressesOf ((runnables c.grp c.warp).filter fun t => t.tid ∉ c.setTids))
include ho

theorem yieldTarget_eq : yieldTarget c = if others.all (· == c.cur.pc) then none else moveTarget others c.cur.pc := by
  have hfilter : (runnables c.grp c.warp).filter (fun t => !c.setTids.contains t.tid) =
      (runnables c.grp c.warp).filter fun t => t.tid ∉ c.setTids := List.filter_congr fun t _ => by simp
  rw [yieldTarget, hfilter, ← ho]

theorem yieldTarget_none (h : ∀ p ∈ others, p = c.cur.pc) : yieldTarget c = none := by
  rw [yieldTarget_eq ho, if_pos (by simpa using h)]

theorem yieldTarget_some (h : ∃ p ∈ others, p ≠ c.cur.pc) : yieldTarget c = moveTarget others c.cur.pc := by
  rw [yieldTarget_eq ho, if_neg (by simpa using h)]

end

section
variable {s : State} {c : Ctx} {f : LongForm} (h : Issues s (.yield f) f.g c)
include h

theorem exec_yield_none (hy : yieldTarget c = none) : exec (.yield f) s = .next (c.done s id) :=
  congrArg Host.Outcome.next ((runCore_body h rfl).trans (by simp only [hy]))

theorem exec_yield_some {pc : W64} (hy : yieldTarget c = some pc) :
    exec (.yield f) s = .next (giveAddress (c.done s id) c.cur.gid c.cur.warp pc) :=
  congrArg Host.Outcome.next ((runCore_body h rfl).trans (by simp only [hy]))

end

theorem mem_takeOut {tids : List Nat} {ws : List Warp} {w : Warp} (h : w ∈ takeOut tids ws) :
    w.tids ≠ [] ∧ ∀ t ∈ w.tids, t ∉ tids := by
  obtain ⟨hmem, hne⟩ := List.mem_filter.1 h
  obtain ⟨x, -, rfl⟩ := List.mem_map.1 hmem
  refine ⟨by simpa using hne, fun t ht => ?_⟩
  obtain ⟨o, ho, rfl : o = some t⟩ := List.mem_filterMap.1 ht
  obtain ⟨y, -, hy⟩ := List.mem_map.1 ho
  simpa using (Option.filter_eq_some_iff.1 hy).2

section
variable {tids : List Nat} {x : Group} {t : Thread}

theorem mem_exitThreads_threads : t ∈ (exitThreads tids x).threads ↔
    ∃ u ∈ x.threads, (if u.tid ∈ tids then exitThread u else u) = t := by
  simp [exitThreads, modAll]

theorem exitThreads_exited (h : t ∈ (exitThreads tids x).threads) (ht : t.tid ∈ tids) :
    t.wait = .exited ∧ t.stack = [] ∧ t.regs = [] ∧ t.k = 0 ∧ t.latches = [] := by
  obtain ⟨u, -, rfl⟩ := mem_exitThreads_threads.1 h
  split at ht
  next hu => rw [if_pos hu]; exact ⟨rfl, rfl, rfl, rfl, rfl⟩
  next hu => exact absurd ht hu

end

/-- Settles O15: a meeting is recorded once (`hasMet_iff`), `YIELD` gives the address to the next set (`yieldTarget_some`),
and `EXIT` ends its threads (`exitThreads_exited`) and takes them out of their warps (`mem_takeOut`). -/
theorem meetNopYieldExit : Obligations.MeetNopYieldExit := by
  unfold Obligations.MeetNopYieldExit
  intro s c f b g
  refine ⟨fun h hroom => ?meet, fun h => ?nop, fun h x hc => ?hintS, fun h x lit hc => ?hintL,
    fun others ho h => ⟨fun hall => ?stay, fun hex => ?move⟩, fun h => ?exit, fun tids x =>
      ⟨fun t => exitThreads_exited, fun w => mem_takeOut, fun t ht hn => mem_exitThreads_threads.2 ⟨t, ht, if_neg hn⟩⟩⟩
  case meet =>
    have hbad : ∀ t ∈ c.act, (!hasMet (relTarget c b.off.toInt) t && stackFull t) = false := fun t ht => by
      rw [(stackFull_eq_false_iff t).2 (hroom t ht), Bool.and_false]
    have hexec : exec (.meet b) s = .next (c.done s fun t => if hasMet (relTarget c b.off.toInt) t then t else
        { t with stack := t.stack ++ [⟨t.meet, relTarget c b.off.toInt, true⟩], meet := relTarget c b.off.toInt }) :=
      congrArg _ ((runCore_body h rfl).trans (stackFault_none hbad))
    simpa only [hasMet_iff] using hexec
  case nop => exact congrArg _ (runCore_body h rfl)
  case hintS | hintL => exact congrArg Host.Outcome.next (hintOp_eq hc)
  case stay => exact exec_yield_none h (yieldTarget_none ho hall)
  case move =>
    obtain ⟨pc, hpc, hmove⟩ := moveTarget_mem (List.ne_nil_of_mem hex.choose_spec.1) c.cur.pc
    exact ⟨pc, hpc, hmove, exec_yield_some h ((yieldTarget_some ho hex).trans hmove)⟩
  case exit => exact congrArg _ (runCore_body h rfl)

end Sys2Proof.Machine
end

section
/-! What a taken transfer does, compaction included (O12). -/

namespace Sys2Proof.Machine

open Sys2Proof

/-! ## A transfer as one change of the issuing group (07 R125, 03 R37, 06 Table 6.6) -/

/-- Two changes of a group, one after the other. -/
theorem updGroup_updGroup (s : State) (g : Gid) (f h : Group → Group) (hf : ∀ x, (f x).gid = x.gid) :
    updGroup (updGroup s g f) g h = updGroup s g fun x => h (f x) := by
  simp only [updGroup, modAll, List.map_map]
  congr 1
  refine List.map_congr_left fun x _ => ?_
  by_cases hx : x.gid = g <;> simp [hx, hf]

theorem taken_eq_afterBranch (s : State) (c : Ctx) (target : Thread → W64) (h : Thread → Thread) :
    c.taken s target h = c.afterBranch (parted s c target h) := by
  refine congrArg c.afterBranch ?_
  refine (updGroup_updGroup s c.cur.gid _ _ ?_).trans (congrArg (updGroup s c.cur.gid) (funext fun g => ?_))
  · exact fun _ => rfl
  simp only [givesUp, modThreads, modAll, Ctx.actTids, List.contains_iff_mem, decide_eq_true_eq]

/-- What follows a transfer, by the addresses at which the live threads of the set now stand. -/
theorem afterBranch_eq {s : State} {c : Ctx} {g : Group} {pcs : List W64} (hg : groupOf s c.cur.gid = some g)
    (hasc : Ascending pcs) (hpcs : ∀ p, p ∈ pcs ↔ ∃ t ∈ g.threads, t.tid ∈ c.setTids ∧ t.live = true ∧ t.pc = p) :
    c.afterBranch s = if g.cthr = 0 ∨ pcs.length < 2 then s
      else pcs.foldl (fun s pc => compactAt s c.cur.gid c.setTids pc) s := by
  have heq : pcs = addressesOf (g.threads.filter fun t => c.setTids.contains t.tid && t.live) :=
    eq_addressesOf hasc fun p => by simp [hpcs, and_assoc]
  have hlen := length_addressesOf (g.threads.filter fun t => c.setTids.contains t.tid && t.live)
  rw [← heq] at hlen
  simp only [Ctx.afterBranch, hg, ← hlen, Bool.or_eq_true, decide_eq_true_eq]
  rw [heq]
  rfl

/-! ## Compaction at one address (03 R33, 06 R95) -/

theorem mem_runnableAt {g : Group} {w : Warp} {pc : W64} {tid : Nat} : tid ∈ runnableAt g w pc ↔
    ∃ t ∈ g.threads, t.runnable = true ∧ t.pc = pc ∧ t.tid ∈ w.tids ∧ t.tid = tid := by
  simp [runnableAt, and_assoc]

theorem compactAt_eq {s : State} {gid : Gid} {g : Group} {mine tids : List Nat} {pc : W64} {n : Nat}
    (hg : groupOf s gid = some g)
    (hn : n = (g.threads.filter fun t => t.tid ∈ mine ∧ t.runnable = true ∧ t.pc = pc).length)
    (htids : tids = (g.threads.filter fun t =>
      ∃ w ∈ g.warps, t.tid ∈ runnableAt g w pc ∧ (runnableAt g w pc).length < g.cthr).map (·.tid)) :
    compactAt s gid mine pc = if n = 0 ∨ g.cthr ≤ n then s
      else unblockFreed s (freshWarps32 gid (parts32 32 tids) s) (coreOf g) := by
  have hown : g.threads.filter (fun t => mine.contains t.tid && t.runnable && t.pc = pc) =
      g.threads.filter fun t => t.tid ∈ mine ∧ t.runnable = true ∧ t.pc = pc :=
    List.filter_congr fun t _ => by simp [Bool.and_assoc]
  have hsets : g.threads.filter (fun t => ((g.warps.map fun w => runnableAt g w pc).filter fun l =>
      !l.isEmpty && l.length < g.cthr).any fun l => l.contains t.tid) = g.threads.filter fun t =>
      ∃ w ∈ g.warps, t.tid ∈ runnableAt g w pc ∧ (runnableAt g w pc).length < g.cthr := by
    refine List.filter_congr fun t _ => ?_
    rw [Bool.eq_iff_iff, decide_eq_true_eq]
    simp only [List.any_eq_true, List.mem_filter, List.mem_map, List.contains_iff_mem, Bool.and_eq_true, decide_eq_true_eq]
    constructor
    · rintro ⟨_, ⟨⟨w, hw, rfl⟩, -, hlt⟩, ht⟩
      exact ⟨w, hw, ht, hlt⟩
    · rintro ⟨w, hw, ht, hlt⟩
      exact ⟨_, ⟨⟨w, hw, rfl⟩, by simpa using List.ne_nil_of_mem ht, hlt⟩, ht⟩
  simp only [compactAt, hg, hown, hsets, ← htids, List.isEmpty_map, List.length_map, ← hn, Bool.or_eq_true, decide_eq_true_eq,
    List.isEmpty_iff, ← List.length_eq_zero_iff]

/-! ## A fresh warp (06 R95, log 87) -/

/-- Some number up to a list's length is not in the list. -/
theorem freeNum_not_mem (used : List Nat) : freeNum used ∉ used := by
  cases hf : (List.range (used.length + 1)).find? fun n => !used.contains n with
  | some n =>
    have := List.find?_some hf
    rw [freeNum, hf]
    simpa using this
  | none =>
    have hall : List.range (used.length + 1) ⊆ used := fun n hn => by simpa using List.find?_eq_none.1 hf n hn
    have hle := (List.subperm_of_subset List.nodup_range hall).length_le
    simp at hle

section
variable {s : State} {gid : Gid} {g : Group} {tids : List Nat} (hg : groupOf s gid = some g)

/-- The warps that threads are taken from, and the tags that a fresh warp of them has. -/
def compactSrc (g : Group) (tids : List Nat) : List Warp := g.warps.filter fun w => w.tids.any (tids.contains ·)
def compactTags (s : State) (g : Group) (tids : List Nat) : Table Tag :=
  tableOfTags g.n (mergeTag g (owedOf s g tids) (compactSrc g tids) tids)

/-- The fresh warp, and the group with it. -/
def compactWarp (s : State) (g : Group) (tids : List Nat) : Warp :=
  newWarp (freeNum (usedNums s (coreOf g))) ((List.range 32).map fun i => tids[i]?) (compactTags s g tids)
    (genRegs (compactTags s g tids)) .compaction
def compacted (s : State) (g : Group) (tids : List Nat) (x : Group) : Group := { x with
  warps := takeOut tids x.warps ++ [compactWarp s g tids]
  threads := emptyLatches ((compactSrc g tids).map (·.tids)).flatten x.threads }

theorem compacted_threads (s : State) (g : Group) (tids : List Nat) : (compacted s g tids g).threads =
    g.threads.map fun t => if ∃ x ∈ compactSrc g tids, t.tid ∈ x.tids then { t with latches := [] } else t :=
  List.map_congr_left fun t _ => by simp

include hg

theorem freshWarp_none (h : freeSlots s (coreOf g) = 0 ∨ freeStorage s (coreOf g) < 8 * g.n + 128 * g.g ∨
    g.g < (genRegs (compactTags s g tids)).length) : freshWarp s gid tids = none := by
  have hc : (freeSlots s (coreOf g) < 1 || freeStorage s (coreOf g) < warpCost g.n g.g ||
      g.g < (genRegs (compactTags s g tids)).length) = true := by
    simp only [Bool.or_eq_true, decide_eq_true_eq, Nat.lt_one_iff, or_assoc]
    exact h
  simp only [freshWarp, hg]
  exact if_pos hc

theorem freshWarp_some (h1 : 0 < freeSlots s (coreOf g)) (h2 : 8 * g.n + 128 * g.g ≤ freeStorage s (coreOf g))
    (h3 : (genRegs (compactTags s g tids)).length ≤ g.g) :
    freshWarp s gid tids = some (updGroup s gid (compacted s g tids)) := by
  have hc : ¬ (freeSlots s (coreOf g) < 1 || freeStorage s (coreOf g) < warpCost g.n g.g ||
      g.g < (genRegs (compactTags s g tids)).length) = true := by
    have hcost : warpCost g.n g.g = 8 * g.n + 128 * g.g := rfl
    simp only [Bool.or_eq_true, decide_eq_true_eq]
    omega
  simp only [freshWarp, hg]
  exact if_neg hc

end

/-- Settles O12: a transfer is one change of the group (`taken_eq_afterBranch`) and what follows it (`afterBranch_eq`); a
compaction goes by `compactAt_eq`, and a fresh warp by `freshWarp_none` and `freshWarp_some`. -/
theorem takenEffect : Obligations.TakenEffect := by
  unfold Obligations.TakenEffect
  refine ⟨fun s c target h g pcs hg hasc hpcs => ?taken, fun s gid g mine tids pc n hg hn htids => compactAt_eq hg hn htids,
    fun s gid g tids hg => ⟨freshWarp_none hg, fun h1 h2 h3 => ?fresh⟩⟩
  case taken => rw [taken_eq_afterBranch, afterBranch_eq hg hasc hpcs]
  case fresh =>
    refine ⟨_, compactWarp s g tids, freshWarp_some hg h1 h2 h3, onlyGroup_updGroup s _ _ fun _ => rfl, rfl,
      freeNum_not_mem _, rfl, ?_⟩
    rw [groupOf_updGroup_same s gid (compacted s g tids) fun _ => rfl, hg, Option.map_some]
    exact congrArg (fun ts => some { compacted s g tids g with threads := ts }) (compacted_threads s g tids)

end Sys2Proof.Machine
end

section
/-! Special registers (O16) and the register budget (O17). -/

namespace Sys2Proof.Machine

open Sys2Proof

/-! ## Special registers (06 R103, R104, 07 R133) -/

theorem updGroup_id (s : State) (g : Gid) : updGroup s g (fun x => x) = s := by
  simp [updGroup, modAll]

/-- The value that a write of special register `n` takes from a thread. -/
def swrVal (f : LongForm) (n : Nat) (t : Thread) : W64 :=
  if sregWide n then rd64 f.lit f.sa t else (rd32 f.lit f.sa t).setWidth 64

section
variable {s : State} {c : Ctx} {f : LongForm} {n : Nat} (h : Issues s (.swr f) f.g c) (hd : f.dst.toNat = n)
  (hok : sregWriteOk c n = true) (hsrc : srcOk c f.lit (sregWide n) f.sa = true)
  (hres : ∀ t ∈ c.act, sregReserved n (swrVal f n t) = false)
include h hd hok hsrc hres

/-- A legal write: each active thread writes its own value, and the group takes the highest one's. -/
theorem exec_swr {t : Thread} (ht : c.act.getLast? = some t) : exec (.swr f) s =
    .next (c.upd (c.done s fun t => swrThread n (swrVal f n t) t) (swrGroup n (swrVal f n t))) := by
  subst hd
  have hc : (sregWriteOk c f.dst.toNat && srcOk c f.lit (sregWide f.dst.toNat) f.sa && c.act.all fun t =>
      !sregReserved f.dst.toNat (swrVal f f.dst.toNat t)) = true := by simpa [hok, hsrc] using hres
  exact congrArg Host.Outcome.next ((runCore_body h hc).trans (by simp only [ht, swrVal]))

/-- A register of each thread leaves the group's own registers. -/
theorem exec_swr_thread (hgrp : ∀ v g, swrGroup n v g = g) {w : Thread → Thread}
    (hw : ∀ t, swrThread n (swrVal f n t) t = w t) : exec (.swr f) s = .next (c.done s w) := by
  have hne : c.act ≠ [] := by simpa using h.act
  rw [exec_swr h hd hok hsrc hres (List.getLast?_eq_some_getLast hne), Ctx.upd, funext (hgrp _), updGroup_id, funext hw]

end

theorem sregReadOk_of_named {c : Ctx} {n : Nat} (hn : n ≤ 17 ∨ (24 ≤ n ∧ n ≤ 31 ∧ ∀ t ∈ c.act, t.hnd = true)) :
    sregReadOk c n = true := by
  rcases hn with hn | ⟨h24, h31, hh⟩
  · simp [sregReadOk, hn]
  · simpa [sregReadOk, h24, h31] using .inr hh

theorem reserved_fflag {x : W32} (h : x.toNat < 16) : sregReserved 16 (x.setWidth 64) = false := by
  have hx : x.setWidth 64 = (BitVec.ofNat 4 x.toNat).setWidth 64 :=
    BitVec.eq_of_toNat_eq (by simp; omega)
  rw [hx]
  exact (show ∀ y : BitVec 4, sregReserved 16 (y.setWidth 64) = false by decide) _

theorem reserved_sched {x : W32} (h : x &&& 0xFC0E0000 = 0) : sregReserved 14 (x.setWidth 64) = false := by
  have hand : x.setWidth 64 &&& 0xFC0E0000#64 = (x &&& 0xFC0E0000#32).setWidth 64 := by
    rw [BitVec.setWidth_and]; rfl
  have hz : x &&& 0xFC0E0000#32 = 0#32 := h
  simp [sregReserved, hand, hz]

theorem fairStored_eq (v : Nat) : fairStored v = if v = 0 then 0 else max 256 (min 65536 v) := by
  unfold fairStored
  repeat' split
  all_goals omega

theorem swrGroup_sched (x : W32) (g : Group) : swrGroup 14 (x.setWidth 64) g = { g with
    fair := if x.toNat % 2 ^ 17 = 0 then 0 else max 256 (min 65536 (x.toNat % 2 ^ 17))
    cthr := min 32 (x.toNat / 2 ^ 20 % 64) } := by
  have hx : (x.setWidth 64).toNat = x.toNat := by simp; omega
  have h17 : bits x.toNat 0 17 = x.toNat % 2 ^ 17 := by simp [bits]
  rw [swrGroup, hx, h17, fairStored_eq, cthrStored, Nat.min_comm (bits _ 20 6)]
  rfl

/-- Settles O16: a read is legal for the registers named, and a write does to each thread, or to the group, what the register
says (`exec_swr`, `exec_swr_thread`). -/
theorem specialRegisters : Obligations.SpecialRegisters := by
  unfold Obligations.SpecialRegisters
  intro s c f
  refine ⟨fun h hlo hn hdst => ?srd, fun h hsrc => ⟨fun hd => ?meet, fun hh => ⟨fun hd => ?xpc, fun hd => ?xscr,
    fun hd t ht => ?xhand⟩⟩, fun h hsrc => ⟨fun hd hv => ?fflag, fun hd hv t ht => ?sched⟩⟩
  case srd =>
    have hread := sregReadOk_of_named hn
    have hhi : f.sa.toNat < 0x160 := by
      unfold sregNamed at hn
      omega
    have hc : (decide (0x140 ≤ f.sa.toNat) && decide (f.sa.toNat < 0x160) && sregReadOk c (sregNamed f) &&
        dstOk c (sregWide (sregNamed f)) f.dst) = true := by simp [hlo, hhi, hread, hdst]
    exact ⟨_, _, congrArg Host.Outcome.next (runCore_body h hc)⟩
  case meet => exact exec_swr_thread h hd rfl hsrc (fun _ _ => rfl) (fun _ _ => rfl) fun _ => rfl
  case xpc =>
    exact exec_swr_thread h hd (by simpa [sregWriteOk] using hh) hsrc (fun _ _ => rfl) (fun _ _ => rfl) fun _ => rfl
  case xscr =>
    exact exec_swr_thread h hd (by simpa [sregWriteOk] using hh) hsrc (fun _ _ => rfl) (fun _ _ => rfl) fun _ => rfl
  case xhand =>
    exact exec_swr h hd (by simpa [sregWriteOk] using hh) hsrc (fun _ _ => rfl) ht
  case fflag =>
    exact exec_swr_thread h hd rfl hsrc (fun t ht => reserved_fflag (hv t ht)) (fun _ _ => rfl) fun t =>
      congrArg (fun v => { t with fflag := v }) (BitVec.setWidth_setWidth_of_le (a32 f t) (by decide))
  case sched =>
    have hexec := exec_swr h hd rfl hsrc (fun t ht => reserved_sched (hv t ht)) ht
    rw [hexec]
    exact congrArg (fun u => Host.Outcome.next (c.upd (c.done s id) u)) (funext (swrGroup_sched (a32 f t)))

/-! ## Growing and shrinking the register budget (06 R105, 07 R134, R135) -/

theorem bits_n (b : Nat) : bits b 0 9 = b % 512 := by simp [bits]

theorem bits_g (b : Nat) : bits b 16 9 = b / 65536 % 512 := rfl

/-- A request that is being issued is served if it fits and no pending one of another group of its core does. -/
theorem growServed_none_iff (s : State) (g : Group) (n q : Nat) : growServed s g n q none = true ↔ growFits s g n q = true ∧
    ∀ x ∈ residents s (coreOf g), x.gid ≠ g.gid → ∀ n q k, pendingGrow x = some (n, q) → growSince x = some k →
      growFits s x n q = false := by
  rw [growServed, Bool.and_eq_true, Bool.not_eq_true', List.any_eq_false]
  refine and_congr_right fun _ => forall_congr' fun x => imp_congr_right fun _ => ?_
  rw [Bool.and_eq_true, bne_iff_ne, not_and]
  refine imp_congr_right fun _ => ?_
  cases pendingGrow x with
  | none => simp
  | some nq =>
    obtain ⟨n, q⟩ := nq
    cases growSince x <;> simp

/-- What `REGGROW` does to a thread that it puts in the grow state, and to none else. -/
theorem growThread_eq (c : Ctx) (n q kd since : Nat) (t : Thread) : growThread c n q kd since t =
    if t.runnable = true ∧ inHeld c.grp t.tid = false then
      { t with
        wait := .grow n q (if t.tid ∈ c.act.map (·.tid) then kd else 0) since
        wnext := if t.tid ∈ c.setTids then c.cur.next else t.pc }
    else t := by
  unfold growThread
  cases t.runnable <;> cases inHeld c.grp t.tid <;> simp [Ctx.actTids]

section
variable {s : State} {c : Ctx} {f : LongForm} {b : Nat}

/-- What a legal request of growth does, in the order of its cases. -/
theorem exec_reggrow (h : Issues s (.reggrow f) f.g c) (hd : f.dst.toNat < 8) (hb : BudgetNamed c f b)
    (hn : c.grp.n ≤ b % 512) (hg : c.grp.g ≤ b / 65536 % 512) : exec (.reggrow f) s = .next (
      if b % 512 = c.grp.n ∧ b / 65536 % 512 = c.grp.g then c.masks s f.dst.toNat fun _ => true
      else if growHopeless c.grp (b % 512) (b / 65536 % 512) then c.masks s f.dst.toNat fun _ => false
      else if growServed s c.grp (b % 512) (b / 65536 % 512) none then
        c.upd (c.masks s f.dst.toNat fun _ => true) (growGroup (b % 512) (b / 65536 % 512))
      else c.upd (freshId s).2 fun g => { g with
        threads := g.threads.map (growThread c (b % 512) (b / 65536 % 512) f.dst.toNat (freshId s).1) }) := by
  obtain ⟨hsrc, huni, rfl, hok⟩ := hb
  have hc : (maskDstOk f.dst && srcOk c f.lit false f.sa && srcUni c false f.sa &&
      (budgetOk (uniSrc c f f.sa) && c.grp.n ≤ bits (uniSrc c f f.sa) 0 9 && c.grp.g ≤ bits (uniSrc c f f.sa) 16 9)) =
      true := by
    simp [maskDstOk, hd, hsrc, huni, hok, bits_n, bits_g, hn, hg]
  rw [← bits_g, ← bits_n]
  exact congrArg Host.Outcome.next (runCore_body h hc)

theorem exec_regshrink (h : Issues s (.regshrink f) f.g c) (hb : BudgetNamed c f b) (hn : b % 512 ≤ c.grp.n)
    (hg : b / 65536 % 512 ≤ c.grp.g) : exec (.regshrink f) s =
      .next (unblockFreed s (c.upd (c.done s id) (shrinkGroup (b % 512) (b / 65536 % 512))) c.core) := by
  obtain ⟨hsrc, huni, rfl, hok⟩ := hb
  have hc : (srcOk c f.lit false f.sa && srcUni c false f.sa &&
      (budgetOk (uniSrc c f f.sa) && bits (uniSrc c f f.sa) 0 9 ≤ c.grp.n && bits (uniSrc c f f.sa) 16 9 ≤ c.grp.g)) =
      true := by
    simp [hsrc, huni, hok, bits_n, bits_g, hn, hg]
  rw [← bits_g, ← bits_n]
  exact congrArg Host.Outcome.next (runCore_body h hc)

end

/-- Settles O17: the cases of `exec_reggrow`, decided by the statement's premises (`growServed_none_iff`). -/
theorem registerBudget : Obligations.RegisterBudget := by
  unfold Obligations.RegisterBudget
  intro s c f b
  refine ⟨fun h hd hb hn hg hne => ⟨fun hless => ?hopeless, fun hless hfit hno => ?granted, fun hless hwait => ?waits⟩,
    fun h hd hb hn hg => ?same, fun h hb hn hg => exec_regshrink h hb hn hg⟩
  case same => rw [exec_reggrow h hd hb hn.ge hg.ge, if_pos ⟨hn, hg⟩]
  case hopeless => rw [exec_reggrow h hd hb hn hg, if_neg hne, if_pos hless]
  case granted =>
    have hserved : growServed s c.grp (b % 512) (b / 65536 % 512) none = true :=
      (growServed_none_iff ..).2 ⟨hfit, fun x hx hgid n q _ hp _ => hno x hx hgid n q hp⟩
    rw [exec_reggrow h hd hb hn hg, if_neg hne, if_neg (by simp [hless]), if_pos hserved]
    rfl
  case waits =>
    have hserved : ¬ growServed s c.grp (b % 512) (b / 65536 % 512) none = true := by
      rw [growServed_none_iff]
      rintro ⟨hfit, hno⟩
      rcases hwait with hfit' | ⟨x, hx, hgid, n, q, k, hp, hk, hfits⟩
      · simp [hfit'] at hfit
      · simp [hno x hx hgid n q k hp hk] at hfits
    rw [exec_reggrow h hd hb hn hg, if_neg hne, if_neg (by simp [hless]), if_neg hserved]
    simp only [← growThread_eq]

end Sys2Proof.Machine
end

section
/-! Floating-point arithmetic (O22), packed forms, conversions and special functions (O23), and `UNPACK4` (O24). -/

namespace Sys2Proof.Machine

open Sys2Proof

/-! ## Results that do something besides (08 R140, R141) -/

section
variable {s : State} {c : Ctx} {f : LongForm} {i : Instr} {wd : Bool}

/-- As `gives_intResult`, of an instruction that does something to its active threads besides. -/
theorem givesAnd_intResult {res : Bool} {chk : Ctx → Bool} {uni : Ctx → Bool} {v : Ctx → Thread → Nat}
    {also : Ctx → Thread → Thread} (h : Issues s i f.g c) (hc : chk c = true)
    (hexec : exec i s = .next (runCore s i f.g res chk fun c =>
      c.result s f.dst f.w (intResult c wd (uni c) none (v c)) (also c))) :
    GivesAnd i s c f wd (wordVal wd (v c)) (also c) := by
  obtain ⟨tlo, thi, hr⟩ := intResult_eq c wd (uni c) none (v c)
  exact ⟨tlo, thi, by rw [hexec, runCore_body h hc, hr]⟩

end

section
variable {s : State} {c : Ctx} {f : LongForm} {i : LongForm → Instr} {v : Thread → Nat × BitVec 4}

/-- A floating-point instruction of one, two or three sources. -/
theorem computesF_one (hexec : exec (i f) s = .next (fpResult s (i f) f 1 v)) : ComputesF i fp1 s c f v :=
  fun h hl => givesAnd_intResult (v := fun _ t => (v t).1) (also := fun _ t => t.flag (v t).2) h
    (by simpa [fp1] using chk_one hl) hexec

theorem computesF_two (hexec : exec (i f) s = .next (fpResult s (i f) f 2 v)) : ComputesF i fp2 s c f v :=
  fun h hl => givesAnd_intResult (v := fun _ t => (v t).1) (also := fun _ t => t.flag (v t).2) h
    (by simpa [fp2] using chk_two hl) hexec

theorem computesF_three (hexec : exec (i f) s = .next (fpResult s (i f) f 3 v)) : ComputesF i fp3 s c f v :=
  fun h hl => givesAnd_intResult (v := fun _ t => (v t).1) (also := fun _ t => t.flag (v t).2) h
    (by simpa [fp3] using chk_three hl) hexec

end

/-- A legal `FCMP` writes its condition, combined with a mask where asked, and flags a NaN (08 R144). -/
theorem exec_fcmp {s : State} {c : Ctx} {f : LongForm} (h : Issues s (.fcmp f) f.g c)
    (hl : LegalMask c f [(f.sa, false), (f.sb, false)]) (hk : f.op / 8 ≠ 0 → f.sc.toNat < 8) :
    exec (.fcmp f) s = .next (c.masks s f.dst.toNat
      (fun t => combine (combOf f) (cmpFp (ccOf f) (srcVal f.lit f.ty f.sa t) (srcVal f.lit f.ty f.sb t))
        (t.mask f.sc.toNat))
      fun t => if (srcVal f.lit f.ty f.sa t).isNan || (srcVal f.lit f.ty f.sb t).isNan then t.flag flInv else t) := by
  have hc : (maskDstOk f.dst && srcOk c f.lit false f.sa && srcOk c f.lit false f.sb &&
      (combOf f == 0 || maskSrcOk f.sc)) = true := by
    have hsc : combOf f = 0 ∨ f.sc.toNat < 8 := or_iff_not_imp_left.2 hk
    simpa [LegalMask, maskSrcOk, and_assoc, hsc] using hl
  exact congrArg Host.Outcome.next (runCore_body h hc)

/-- Settles O22: each arithmetic instruction is an `fpResult` of one to three sources, and `FCMP` is `exec_fcmp`. -/
theorem floatArithmetic : Obligations.FloatArithmetic := by
  unfold Obligations.FloatArithmetic
  intro s c f
  refine ⟨computesF_two rfl, computesF_two rfl, computesF_two rfl, computesF_three rfl, computesF_two rfl, computesF_two rfl,
    computesF_one rfl, computesF_one rfl, fun h hl hk => ?fcmp⟩
  case fcmp =>
    rw [exec_fcmp h hl hk]
    simp only [combine_eq]
    rfl

/-- Settles O23: packed forms, dot products, scaled conversions and special functions are each an `fpResult`; `CVT` has a
result of its destination's width, and `PACK4` reads four registers. -/
theorem floatConversionsAndFunctions : Obligations.FloatConversionsAndFunctions := by
  unfold Obligations.FloatConversionsAndFunctions
  intro s c f r
  refine ⟨computesF_two rfl, computesF_two rfl, computesF_three rfl, computesF_three rfl, computesF_three rfl,
    computesF_two rfl, computesF_one rfl, computesF_one rfl, computesF_one rfl, computesF_one rfl, computesF_one rfl,
    computesF_one rfl, computesF_one rfl, computesF_one rfl, fun h hl => ?cvt, fun h hl hreg halign hlast => ?pack4⟩
  case cvt =>
    exact givesAnd_intResult (v := fun _ t => (cvtVal r f t).1) (also := fun _ t => t.flag (cvtVal r f t).2) h
      (chk_one hl) rfl
  case pack4 =>
    have hc : (dstOk c false f.dst && decide (f.sa.toNat < 0x100) && f.sa.toNat % 4 == 0 && decide (f.sa.toNat + 3 < c.grp.n) &&
        srcOk c f.lit false f.sb) = true := by
      simpa [hreg, halign, hlast] using chk_one hl
    exact givesAnd_intResult (v := fun _ t => (pack4Val f t).1) (also := fun _ t => t.flag (pack4Val f t).2) h hc rfl

/-! ## `UNPACK4` (08 R154) -/

section
variable (f : LongForm) (n : Nat) (t : Thread)

/-- Element `i` of a thread's packed word, as a register holds it. -/
def unpackWord (i : Nat) (t : Thread) : W32 := BitVec.ofNat 32 (unpack4Val f i t).1

/-- A thread with the first `n` elements in the registers from `dst` on, and their conditions in its flags. -/
def unpackThread : Thread :=
  (List.range n).foldl (fun u i => (u.setReg (f.dst.toNat + i) (unpackWord f i t)).flag (unpack4Val f i t).2) t

theorem unpackThread_succ : unpackThread f (n + 1) t =
    ((unpackThread f n t).setReg (f.dst.toNat + n) (unpackWord f n t)).flag (unpack4Val f n t).2 := by
  rw [unpackThread, List.range_succ, List.foldl_concat]; rfl

theorem unpackThread_tid : (unpackThread f n t).tid = t.tid := by
  induction n with
  | zero => rfl
  | succ n ih => rw [unpackThread_succ]; exact ih

theorem reg_unpackThread (r : Nat) : (unpackThread f n t).reg r =
    if f.dst.toNat ≤ r ∧ r < f.dst.toNat + n then unpackWord f (r - f.dst.toNat) t else t.reg r := by
  induction n with
  | zero => rw [if_neg (by omega)]; rfl
  | succ n ih =>
    have hstep : (unpackThread f (n + 1) t).reg r =
        if f.dst.toNat + n = r then unpackWord f n t else (unpackThread f n t).reg r := by
      rw [unpackThread_succ, ← reg_setReg]; rfl
    rw [hstep, ih]
    rcases eq_or_ne (f.dst.toNat + n) r with rfl | hr
    · rw [if_pos rfl, if_pos (by omega), Nat.add_sub_cancel_left]
    · rw [if_neg hr]
      exact if_congr (by omega) rfl rfl

end

/-- The thread that a result is given to keeps its number where what the instruction does besides keeps it. -/
theorem resultThread_tid (c : Ctx) (d : BitVec 8) (w : Bool) (r : Result) {h : Thread → Thread} {t : Thread}
    (ht : (h t).tid = t.tid) : (c.resultThread d w r h t).tid = t.tid := by
  rw [resultThread_eq]
  split
  · cases w with
    | true => exact ht
    | false => simp only [Bool.false_eq_true, if_false]; rw [write_eq]; exact ht
  · rfl

/-- The registers of an active thread after a 32-bit result: the destination has it, the others are as the instruction
leaves them. -/
theorem resultThread_narrow (c : Ctx) (d : BitVec 8) (v : Thread → W32) (tag : Tag) (h : Thread → Thread) {t : Thread}
    (ht : t.tid ∈ c.actTids) :
    (c.resultThread d false (res32 v tag) h t).pc = c.cur.next ∧
    ∀ r, (c.resultThread d false (res32 v tag) h t).reg r = if d.toNat = r then v t else (h t).reg r := by
  have hlo : lo32 ((v t).setWidth 64) = v t := BitVec.setWidth_setWidth_of_le (v t) (by decide)
  rw [resultThread_eq, if_pos ht]
  exact ⟨rfl, fun r => by
    simp only [Bool.false_eq_true, if_false, res32, write_narrow, reg_setReg, hlo]; rfl⟩

/-- The tag that the four registers take. -/
def unpackTag (c : Ctx) (f : LongForm) : Tag := tagOf c (srcUni c false f.sa && srcUni c false f.sb)

/-- The result of `UNPACK4`: the first element. -/
def unpackResult (c : Ctx) (f : LongForm) : Result := res32 (unpackWord f 0) (unpackTag c f)

/-- The tags of the three registers after the destination. -/
def unpackTags (c : Ctx) (f : LongForm) (g : Group) : Group :=
  setTags c.warp.num (f.dst.toNat + 1) false (unpackTag c f) .uni
    (setTags c.warp.num (f.dst.toNat + 2) false (unpackTag c f) .uni
      (setTags c.warp.num (f.dst.toNat + 3) false (unpackTag c f) .uni g))

/-- The issuing group after `UNPACK4`, and a thread of the issuing set. -/
def unpackGroup (c : Ctx) (f : LongForm) (g : Group) : Group :=
  unpackTags c f (c.resultGroup f.dst false (unpackResult c f) (unpackThread f 4) g)
def unpackedThread (c : Ctx) (f : LongForm) (t : Thread) : Thread :=
  c.resultThread f.dst false (unpackResult c f) (unpackThread f 4) t

section
variable {s : State} {c : Ctx} {f : LongForm}

/-- A legal `UNPACK4` is one change of the issuing group. -/
theorem exec_unpack4 (h : Issues s (.unpack4 f) f.g c) (halign : f.dst.toNat % 4 = 0) (hlast : f.dst.toNat + 3 < c.grp.n)
    (ha : srcOk c f.lit false f.sa = true) (hb : srcOk c f.lit false f.sb = true) :
    exec (.unpack4 f) s = .next (updGroup s c.cur.gid (unpackGroup c f)) := by
  have hc : (f.dst.toNat % 4 == 0 && decide (f.dst.toNat + 3 < c.grp.n) && srcOk c f.lit false f.sa &&
      srcOk c f.lit false f.sb) = true := by simp [halign, hlast, ha, hb]
  have hexec : exec (.unpack4 f) s =
      .next (c.upd (c.result s f.dst false (unpackResult c f) (unpackThread f 4)) (unpackTags c f)) :=
    congrArg Host.Outcome.next (runCore_body h hc)
  rw [hexec, result_eq, Ctx.upd, updGroup_updGroup _ _ _ _ (resultGroup_gid _ _ _ _ _)]
  rfl

theorem unpackGroup_gid (g : Group) : (unpackGroup c f g).gid = g.gid := resultGroup_gid ..

theorem sameGroup_unpackGroup (g : Group) : SameGroup g (unpackGroup c f g) :=
  sameGroup_setTags _ _ _ _ _ (sameGroup_setTags _ _ _ _ _ (sameGroup_setTags _ _ _ _ _ (sameGroup_resultGroup ..)))

theorem unpackGroup_threads (g : Group) : (unpackGroup c f g).threads =
    g.threads.map fun t => if t.tid ∈ c.setTids then unpackedThread c f t else t :=
  resultGroup_threads ..

theorem unpackedThread_tid (t : Thread) : (unpackedThread c f t).tid = t.tid :=
  resultThread_tid c f.dst false _ (unpackThread_tid f 4 t)

/-- An active thread after `UNPACK4`: its pc, the four registers, and the others. -/
theorem unpackedThread_spec {t : Thread} (ht : t.tid ∈ c.actTids) : (unpackedThread c f t).pc = c.cur.next ∧
    (∀ i, i < 4 → (unpackedThread c f t).reg (f.dst.toNat + i) = unpackWord f i t) ∧
    ∀ r, (r < f.dst.toNat ∨ f.dst.toNat + 4 ≤ r) → (unpackedThread c f t).reg r = t.reg r := by
  obtain ⟨hpc, hreg⟩ := resultThread_narrow c f.dst (unpackWord f 0) (unpackTag c f) (unpackThread f 4) ht
  refine ⟨hpc, fun i hi => (hreg _).trans ?elem, fun r hr => (hreg r).trans ?other⟩
  case elem =>
    rcases Nat.eq_zero_or_pos i with rfl | hpos
    · exact if_pos rfl
    · rw [if_neg (by omega), reg_unpackThread, if_pos (by omega), Nat.add_sub_cancel_left]
  case other => rw [if_neg (by omega), reg_unpackThread, if_neg (by omega)]

end

/-- Settles O24: `UNPACK4` is one change of the issuing group (`exec_unpack4`), whose active threads hold the elements in
their registers (`unpackedThread_spec`). -/
theorem unpackWritesFour : Obligations.UnpackWritesFour := by
  unfold Obligations.UnpackWritesFour
  intro s c f h halign hlast ha hb
  refine ⟨_, exec_unpack4 h halign hlast ha hb, onlyGroup_updGroup s _ _ unpackGroup_gid, fun g hg => ⟨unpackGroup c f g,
    ?group, sameGroup_unpackGroup g, fun u hu hact hset => ?thread⟩⟩
  case group => rw [groupOf_updGroup_same s _ _ unpackGroup_gid, hg, Option.map_some]
  case thread =>
    rw [unpackGroup_threads, List.mem_map] at hu
    obtain ⟨t, ht, rfl⟩ := hu
    have htid : (if t.tid ∈ c.setTids then unpackedThread c f t else t).tid = t.tid := by
      rw [apply_ite Thread.tid, unpackedThread_tid, ite_self]
    rw [htid] at hact hset
    rw [if_pos (show t.tid ∈ c.setTids from hset)]
    exact ⟨t, ht, (unpackedThread_tid t).symm, unpackedThread_spec hact⟩

end Sys2Proof.Machine
end

section
/-! Cross-lane instructions (O25): the values that each thread computes from its participants. -/

namespace Sys2Proof.Machine

open Sys2Proof

/-! ## Masks of threads (08 R160) -/

theorem getLsbD_foldl_lanes (tids : List Nat) (m : W32) {i : Nat} (hi : i < 32) :
    (tids.foldl (fun m t => m ||| (1#32 <<< (t % 32))) m).getLsbD i = true ↔
      m.getLsbD i = true ∨ ∃ t ∈ tids, t % 32 = i := by
  induction tids generalizing m with
  | nil => simp
  | cons t ts ih =>
    have hbit : (1#32 <<< (t % 32)).getLsbD i = decide (t % 32 = i) := by
      rw [← BitVec.twoPow_eq, BitVec.getLsbD_twoPow]
      by_cases h : t % 32 = i <;> simp [h, hi]
    rw [List.foldl_cons, ih, BitVec.getLsbD_or, hbit]
    simp [or_assoc]

theorem getLsbD_laneMask (tids : List Nat) {i : Nat} (hi : i < 32) :
    (laneMask tids).getLsbD i = true ↔ ∃ t ∈ tids, t % 32 = i := by
  simp [laneMask, getLsbD_foldl_lanes tids 0#32 hi]

/-- The participants of a thread whose bit in `BALLOT`'s mask is set, and those that hold the same bits of `MATCH`'s source. -/
def ballotTids (f : LongForm) (c : Ctx) (t : Thread) : List Nat :=
  ((participants c f.wc t).filter fun u => u.mask f.sa.toNat).map (·.tid)
def matchTids (f : LongForm) (c : Ctx) (t : Thread) : List Nat :=
  ((participants c f.wc t).filter fun u => rdNat f f.ty f.sa u == rdNat f f.ty f.sa t).map (·.tid)

/-- An instruction that gives each active thread a mask of threads. -/
theorem gives_laneMask {s : State} {c : Ctx} {f : LongForm} {i : Instr} {res : Bool} {chk uni : Ctx → Bool}
    {tids : Ctx → Thread → List Nat} (h : Issues s i f.g c) (hc : chk c = true)
    (hexec : exec i s = .next (runCore s i f.g res chk fun c =>
      c.result s f.dst f.w (intResult c false (uni c) none fun t => (laneMask (tids c t)).toNat))) :
    Gives i s c f false fun t => (laneMask (tids c t)).setWidth 64 := by
  have hval : wordVal false (fun t => (laneMask (tids c t)).toNat) = fun t => (laneMask (tids c t)).setWidth 64 :=
    funext fun t => congrArg (BitVec.setWidth 64) (ofNat_toNat_self (laneMask (tids c t)))
  rw [← hval]
  exact gives_intResult (aff := fun _ => none) (v := fun c t => (laneMask (tids c t)).toNat) h hc hexec

/-! ## The first source of another thread (08 R158, R160, R162) -/

section
variable (f : LongForm)

theorem toNat_byWidth_a (t : Thread) : (byWidth f (a32 f) (a64 f) t).toNat = rdNat f f.ty f.sa t :=
  Nat.eq_of_testBit_eq fun k => by rw [BitVec.testBit_toNat, getLsbD_byWidth_a]

/-- The value of a source in another thread, as a result of the type's width. -/
theorem wordVal_rdNat (src : Thread → Thread) :
    wordVal (wideTy f) (fun t => rdNat f f.ty f.sa (src t)) = fun t => byWidth f (a32 f) (a64 f) (src t) := by
  funext t
  cases h : wideTy f with
  | true => rw [wordVal, if_pos rfl, ← toNat_byWidth_a, ofNat_toNat_self]
  | false =>
    rw [wordVal, if_neg Bool.false_ne_true, rdNat_narrow f _ h, ofNat_toNat_self, byWidth, if_neg (by simp [h])]
    rfl

/-- Two threads hold the same bits of a source exactly when they hold the same value of it. -/
theorem rdNat_beq_iff (t u : Thread) : (rdNat f f.ty f.sa u == rdNat f f.ty f.sa t) =
    decide (byWidth f (a32 f) (a64 f) u = byWidth f (a32 f) (a64 f) t) := by
  rw [← toNat_byWidth_a, ← toNat_byWidth_a, Bool.eq_iff_iff, beq_iff_eq, decide_eq_true_eq, BitVec.toNat_inj]

end

section
variable {s : State} {c : Ctx} {f : LongForm}

theorem givesAnd_shfl (h : Issues s (.shfl f) f.g c) (hl : Legal c f (wideTy f) [(f.sa, wideTy f), (f.sb, false)])
    (hk : f.sc.toNat < 8) :
    GivesAnd (.shfl f) s c f (wideTy f) (fun t => byWidth f (a32 f) (a64 f) ((shflFrom c f t).getD t))
      fun t => t.setMask f.sc.toNat (shflFrom c f t).isSome := by
  have hc : (dstOk c (wideTy f) f.dst && srcOk c f.lit (wideTy f) f.sa && srcOk c f.lit false f.sb &&
      maskSrcOk f.sc) = true := by simpa [maskSrcOk, hk] using chk_two hl
  rw [← wordVal_rdNat f fun t => (shflFrom c f t).getD t]
  exact givesAnd_intResult (v := fun c t => rdNat f f.ty f.sa ((shflFrom c f t).getD t))
    (also := fun c t => t.setMask f.sc.toNat (shflFrom c f t).isSome) h hc rfl

theorem givesMask_vote (h : Issues s (.vote f) f.g c) (hd : f.dst.toNat < 8) (ha : f.sa.toNat < 8) :
    GivesMask (.vote f) s c f.dst.toNat fun t =>
      voteBit (f.op % 4) ((participants c f.wc t).map fun u => u.mask f.sa.toNat) := by
  have hc : (maskDstOk f.dst && maskSrcOk f.sa) = true := by simp [maskDstOk, maskSrcOk, hd, ha]
  exact congrArg Host.Outcome.next (runCore_body h hc)

theorem gives_ballot (h : Issues s (.ballot f) f.g c) (hl : Legal c f false []) (ha : f.sa.toNat < 8) :
    Gives (.ballot f) s c f false fun t =>
      (laneMask (((participants c f.wc t).filter fun u => u.mask f.sa.toNat).map (·.tid))).setWidth 64 := by
  have hc : (dstOk c false f.dst && maskSrcOk f.sa) = true := by simpa [maskSrcOk, ha] using hl.1
  exact gives_laneMask (tids := ballotTids f) h hc rfl

theorem gives_matchL (h : Issues s (.matchL f) f.g c) (hl : Legal c f false (src1 f)) :
    Gives (.matchL f) s c f false fun t =>
      (laneMask (((participants c f.wc t).filter fun u =>
        byWidth f (a32 f) (a64 f) u = byWidth f (a32 f) (a64 f) t).map (·.tid))).setWidth 64 := by
  simp only [← rdNat_beq_iff]
  exact gives_laneMask (tids := matchTids f) h (chk_one hl) rfl

theorem gives_lfirst (h : Issues s (.lfirst f) f.g c) (hl : Legal c f (wideTy f) (src1 f)) :
    Gives (.lfirst f) s c f (wideTy f) fun t =>
      byWidth f (a32 f) (a64 f) (((participants c f.wc t).head?).getD t) := by
  rw [← wordVal_rdNat f fun t => ((participants c f.wc t).head?).getD t]
  exact gives_intResult (uni := fun c => groupUni c f) (aff := fun _ => none)
    (v := fun c t => rdNat f f.ty f.sa (((participants c f.wc t).head?).getD t)) h (chk_one hl) rfl

theorem computesF_lscan : ComputesF .lscan fp1 s c f (lscanVal c f) := fun h hl =>
  givesAnd_intResult (v := fun c t => (lscanVal c f t).1) (also := fun c t => t.flag (lscanVal c f t).2) h (chk_one hl) rfl

theorem computesF_lred : ComputesF .lred fp1 s c f (lredVal c f) := fun h hl =>
  givesAnd_intResult (v := fun c t => (lredVal c f t).1) (also := fun c t => t.flag (lredVal c f t).2) h (chk_one hl) rfl

end

/-- Settles O25: another thread's source is read by `wordVal_rdNat`, a mask of threads is given by `gives_laneMask`, and its bits
are read by `getLsbD_laneMask`. -/
theorem crossLane : Obligations.CrossLane := by
  unfold Obligations.CrossLane
  exact fun s c f => ⟨givesAnd_shfl, givesMask_vote, gives_ballot, gives_matchL, gives_lfirst, computesF_lscan,
    computesF_lred, fun tids _ hi => getLsbD_laneMask tids hi⟩

end Sys2Proof.Machine
end

section
/-! Taking an exception (O38): entry of the handler, and the failure of a gang. -/

namespace Sys2Proof.Machine

open Sys2Proof

/-! ## What accesses to memory and records leave as it was -/

/-- Everything is as it was but for memory, the groups, whose waits a write answers, and the dies with their queues of
records. -/
def OnlyRecords (s s' : State) : Prop := ∃ mm groups dies, s' = { s with mm := mm, groups := groups, dies := dies }

namespace OnlyRecords

variable {s s' s'' : State}

theorem refl (s : State) : OnlyRecords s s := ⟨_, _, _, rfl⟩

theorem trans (h : OnlyRecords s s') (h' : OnlyRecords s' s'') : OnlyRecords s s'' := by
  obtain ⟨_, _, _, rfl⟩ := h
  obtain ⟨_, _, _, rfl⟩ := h'
  exact ⟨_, _, _, rfl⟩

theorem cached (h : OnlyRecords s s') (t : List TlbEntry) : OnlyRecords s { s' with mm := { s'.mm with tlb := t } } :=
  h.trans ⟨_, _, _, rfl⟩

theorem gangs (h : OnlyRecords s s') : s'.gangs = s.gangs := by
  obtain ⟨_, _, _, rfl⟩ := h
  rfl

/-- A choice between two states that differ so. -/
theorem ite {p : Prop} [Decidable p] (h : OnlyRecords s s') (h' : OnlyRecords s s'') :
    OnlyRecords s (if p then s' else s'') := by
  split
  · exact h
  · exact h'

end OnlyRecords

section
variable (s : State)

theorem onlyRecords_updGroup (g : Gid) (f : Group → Group) : OnlyRecords s (updGroup s g f) := ⟨_, _, _, rfl⟩

theorem onlyRecords_writeLoc (w : Writer) (l : Nat) (b : Bytes) : OnlyRecords s (writeLoc s w l b) := ⟨_, _, _, rfl⟩

theorem onlyRecords_areaWrite (g : Group) (pages : List (Nat × Nat)) (ws : List (Nat × Byte)) :
    OnlyRecords s (areaWrite s g pages ws) := ⟨_, _, _, rfl⟩

theorem onlyRecords_setLeafBits (l e : Nat) (a : Acc) : OnlyRecords s (setLeafBits s l e a) :=
  .ite (.refl s) (onlyRecords_writeLoc ..)

/-- A translation marks the leaf entry of its walk and is cached. -/
theorem onlyRecords_translate {s s' : State} {eng ham asn : Nat} {va : W64} {n : Nat} {a : Acc} {p : Nat} {unc : Bool}
    (h : translate s eng ham asn va n a = .ok (p, unc, s')) : OnlyRecords s s' := by
  unfold translate at h
  split at h
  · cases h
  split at h
  · split at h
    · cases h
    simp only [Except.ok.injEq, Prod.mk.injEq] at h
    obtain ⟨-, -, rfl⟩ := h
    exact .refl s
  dsimp only at h
  split at h
  · split at h <;> cases h
    exact .refl s
  split at h
  · cases h
  split at h
  · cases h
  simp only [Except.ok.injEq, Prod.mk.injEq] at h
  obtain ⟨-, -, rfl⟩ := h
  exact (OnlyRecords.ite (onlyRecords_setLeafBits ..) (.refl s)).cached _

theorem onlyRecords_decidePiece (eng ham asn : Nat) (va : W64) (n : Nat) (a : Acc) :
    OnlyRecords s (decidePiece s eng ham asn va n a).2 := by
  unfold decidePiece
  split
  · exact .refl s
  next h =>
    have hs := onlyRecords_translate h
    dsimp only
    split
    · exact hs
    · split <;> exact hs

theorem onlyRecords_decideAccess (eng ham asn : Nat) (va : W64) (n align : Nat) (a : Acc) :
    OnlyRecords s (decideAccess s eng ham asn va n align a).2 := by
  unfold decideAccess
  dsimp only
  have hfold : OnlyRecords s ((pagePieces va n).foldl (fun (acc : List (Except (Nat × W64) Places) × State)
      (pc : W64 × Nat) => (acc.1 ++ [(decidePiece acc.2 eng ham asn pc.1 pc.2 a).1],
        (decidePiece acc.2 eng ham asn pc.1 pc.2 a).2)) ([], s)).2 :=
    foldl_keeps (fun x : List (Except (Nat × W64) Places) × State => OnlyRecords s x.2) _
      (fun _ _ h => h.trans (onlyRecords_decidePiece ..)) _ _ (.refl s)
  split
  · exact .refl s
  split
  · exact .refl s
  split
  · exact hfold
  split
  · exact hfold
  split
  · exact hfold
  · split <;> exact hfold

theorem onlyRecords_areaPages (eng : Nat) (g : Group) (a : Acc) (fuel off n : Nat) (acc : List (Nat × Nat)) :
    OnlyRecords s (areaPages eng g a fuel off n acc s).st := by
  induction fuel generalizing off n acc s with
  | zero => exact .refl s
  | succ fuel ih =>
    by_cases hn : n = 0
    · rw [areaPages, if_pos hn]
      exact .refl s
    rw [areaPages, if_neg hn]
    dsimp only
    have hs := onlyRecords_decideAccess s eng (coreOf g / 8) g.asn (g.xsave + BitVec.ofNat 64 off)
      (min n (65536 - (g.xsave + BitVec.ofNat 64 off).toNat % 65536)) 1 a
    split <;> rename_i heq <;> rw [heq] at hs
    · split
      · exact hs
      · exact hs.trans (ih ..)
    all_goals exact hs

theorem onlyRecords_saveImage (g : Group) (full : Bool) (keep : Nat → Nat → Bool) :
    OnlyRecords s (saveImage s g full keep).st := by
  have hs := onlyRecords_areaPages s (areaEngine g) g .store (saBytes g / 65536 + 2) 0 (saBytes g) []
  unfold saveImage
  split
  next heq =>
    rw [heq] at hs
    exact hs.trans (onlyRecords_areaWrite ..)
  · exact hs

theorem onlyRecords_putRecord (die : Nat) (b : Bytes) (o : Option OpenRec) : OnlyRecords s (putRecord s die b o).2 :=
  ⟨_, _, _, rfl⟩

theorem onlyRecords_postRecord (die : Nat) (b : Bytes) : OnlyRecords s (postRecord s die b) :=
  .ite ⟨_, _, _, rfl⟩ (onlyRecords_putRecord ..)

theorem onlyRecords_class3 (die asn kind : Nat) (nw : Bool) (hw : Option (Nat × Nat × Nat)) (r : FRec) :
    OnlyRecords s (class3 s die asn kind nw hw r).2 := by
  unfold class3
  dsimp only
  split
  · exact .ite ((onlyRecords_writeLoc ..).trans (onlyRecords_writeLoc ..)) (onlyRecords_writeLoc ..)
  · split
    · exact .refl s
    · dsimp only
      exact onlyRecords_putRecord ..

end

/-! ## A gang that has failed (09 R170, R173) -/

/-- Every gang of a tag has failed and is stopped. -/
def GangFailed (tag : Nat) (s : State) : Prop := ∀ x ∈ s.gangs, x.tag = tag → x.stopped = true ∧ x.fail.isSome = true

section
variable {tag : Nat} {s s' : State}

theorem GangFailed.of_gangs (h : GangFailed tag s) (hs : s'.gangs = s.gangs) : GangFailed tag s' := by
  rwa [GangFailed, hs]

theorem GangFailed.of_onlyRecords (h : GangFailed tag s) (hs : OnlyRecords s s') : GangFailed tag s' := h.of_gangs hs.gangs

theorem GangFailed.of_gangOf (h : GangFailed tag s) {y : Gang} (hy : gangOf s tag = some y) :
    y.stopped = true ∧ y.fail.isSome = true :=
  h y (List.mem_of_find?_eq_some hy) (by simpa using List.find?_some hy)

/-- The gangs of one tag fail; a gang of another that has failed stays so. -/
theorem gangFailed_updGang {t cause : Nat} (h : t = tag ∨ GangFailed tag s) :
    GangFailed tag (updGang s t fun x => { x with fail := some (x.fail.getD cause), stopped := true }) := by
  intro x hx htag
  obtain ⟨y, hy, rfl⟩ := List.mem_map.1 hx
  by_cases hyt : y.tag = t
  · simp [hyt]
  · simp only [hyt, decide_false, Bool.false_eq_true, if_false] at htag ⊢
    exact h.elim (fun ht => absurd (htag.trans ht.symm) hyt) fun h => h y hy htag

theorem GangFailed.areaEnds (h : GangFailed tag s) (g : Group) (cause : Nat) (addr : W64) :
    GangFailed tag (areaEnds s g cause addr) :=
  gangFailed_updGang (.inr (h.of_gangs (onlyRecords_postRecord ..).gangs))

/-- What an access to a save area meets takes back no failure. -/
theorem GangFailed.areaMeets (h : GangFailed tag s) (g : Group) (store : Bool) {r : AreaRes} (hr : OnlyRecords s r.st) :
    GangFailed tag (areaMeets s g store r) := by
  cases r with
  | ok => exact h
  | cls3 cause addr s' =>
    exact h.of_onlyRecords ((hr.trans (onlyRecords_class3 s' ..)).trans (onlyRecords_updGroup ..))
  | waits s' => exact h.of_onlyRecords (hr.trans (onlyRecords_updGroup ..))
  | cls4 cause addr s' => exact (h.of_onlyRecords hr).areaEnds g cause addr

theorem GangFailed.saveAll (h : GangFailed tag s) (gids : List Gid) : GangFailed tag (saveAll gids s) := by
  induction gids generalizing s with
  | nil => exact h
  | cons gid rest ih =>
    unfold Machine.saveAll
    split
    · exact ih h
    next g _ =>
      split
      · exact ih (h.of_onlyRecords (onlyRecords_updGroup ..))
      dsimp only
      have hs := onlyRecords_saveImage s (saveForm s g true) true fun _ _ => true
      split
      next heq =>
        rw [heq] at hs
        exact ih ((h.of_onlyRecords hs).of_gangs rfl)
      next heq =>
        rw [heq] at hs
        exact (h.of_onlyRecords hs).areaEnds _ _ _
      · exact ih (h.areaMeets g true hs)

theorem gangFailed_failGang (s : State) (tag cause : Nat) : GangFailed tag (failGang s tag cause) :=
  (gangFailed_updGang (.inl rfl)).saveAll _

theorem gangFailed_doubleTrap (s : State) (g : Group) (cs : List Charge) (x : Charge) :
    GangFailed g.gid.tag (doubleTrap s g cs x) :=
  (gangFailed_failGang s _ _).of_onlyRecords (onlyRecords_postRecord ..)

theorem gangFailed_forwardTraps (s : State) (g : Group) (cs : List Charge) : GangFailed g.gid.tag (forwardTraps s g cs) :=
  gangFailed_failGang _ _ _

end

/-! ## The cases of taking an exception (09 R167, R168, R170) -/

section
variable {s s' : State} {gid : Gid} {g : Group} {cs : List Charge}

theorem gid_of_groupOf (hg : groupOf s gid = some g) : g.gid = gid := by simpa using List.find?_some hg

/-- Whether a charged thread is in the handler. -/
theorem any_inHandler_iff : (cs.any fun x => g.threads.any fun t => t.tid = x.tid && t.hnd) = true ↔
    ∃ x ∈ cs, ∃ t ∈ g.threads, t.tid = x.tid ∧ t.hnd = true := by simp

theorem any_inHandler_false (h : ∀ x ∈ cs, ∀ t ∈ g.threads, t.tid = x.tid → t.hnd = false) :
    (cs.any fun x => g.threads.any fun t => t.tid = x.tid && t.hnd) = false := by
  rw [← Bool.not_eq_true, any_inHandler_iff]
  rintro ⟨x, hx, t, ht, htid, hhnd⟩
  simp [h x hx t ht htid] at hhnd

variable (hg : groupOf s gid = some g) (hcore : onCore g = true) (hcs : cs ≠ [])
include hg hcore hcs

theorem takeTrap_double (h : ∃ x ∈ cs, ∃ t ∈ g.threads, t.tid = x.tid ∧ t.hnd = true) :
    ∃ x, takeTrap s gid cs = doubleTrap s g cs x := by
  obtain ⟨first, rest, rfl⟩ := List.exists_cons_of_ne_nil hcs
  refine ⟨lowestCharge first (first :: rest), ?_⟩
  simp only [takeTrap, hg, hcore, Bool.not_true, Bool.false_eq_true, if_false]
  rw [if_pos (any_inHandler_iff.2 h)]

variable (hout : ∀ x ∈ cs, ∀ t ∈ g.threads, t.tid = x.tid → t.hnd = false)
include hout

theorem takeTrap_forward (hx : g.xhand = 0) : takeTrap s gid cs = forwardTraps s g cs := by
  obtain ⟨first, rest, rfl⟩ := List.exists_cons_of_ne_nil hcs
  simp only [takeTrap, hg, hcore, Bool.not_true, Bool.false_eq_true, if_false]
  rw [any_inHandler_false hout, if_neg Bool.false_ne_true, if_pos (show g.xhand = 0#64 from hx)]

theorem takeTrap_enter (hx : g.xhand ≠ 0) (hline : checkTarget s g g.xhand true = (.ok, s')) :
    takeTrap s gid cs = updGroup s' gid (enterGroup cs (nowNs s)) := by
  obtain ⟨first, rest, rfl⟩ := List.exists_cons_of_ne_nil hcs
  simp only [takeTrap, hg, hcore, Bool.not_true, Bool.false_eq_true, if_false]
  rw [any_inHandler_false hout, if_neg Bool.false_ne_true, if_neg (show g.xhand ≠ 0#64 from hx), hline]

end

theorem xcauseWord_eq (cls cause : Nat) (prec hlp : Bool) : xcauseWord cls cause prec hlp =
    BitVec.ofNat 32 (cls + cause * 2 ^ 8 + (if prec then 2 ^ 16 else 0) + (if hlp then 2 ^ 17 else 0)) := by
  cases prec <;> cases hlp <;> rfl

/-- The entry of a thread, as the statement has it (Table 9.3). -/
theorem enterThread_eq (g : Group) (now : Nat) (lanes : W32) (x : Charge) (t : Thread) :
    enterThread g.xhand g.helper.isSome now lanes x t = entered g now lanes x t := by
  have hpre : (x.cls != 8) = decide (x.cls ≠ 8) := by simp [bne, beq_eq_decide]
  rw [enterThread, entered, xcauseWord_eq, hpre]

theorem enterGroup_eq (cs : List Charge) (now : Nat) (g : Group) : enterGroup cs now g =
    { g with threads := g.threads.map fun t => ((cs.find? fun x => x.tid = t.tid).map fun x => entered g now
        (laneMask ((cs.filter fun y => y.tid / 32 = t.tid / 32).map (·.tid))) x t).getD t } := by
  refine congrArg (fun ts => { g with threads := ts }) (List.map_congr_left fun t _ => ?_)
  cases cs.find? fun x => x.tid = t.tid with
  | none => rfl
  | some x => exact enterThread_eq g now _ x t

/-- Settles O38: an entry is `takeTrap_enter`; a double trap and a group without a handler fail the gang, and nothing that
follows takes a failure back (`GangFailed.saveAll`). -/
theorem trapEntry : Obligations.TrapEntry := by
  unfold Obligations.TrapEntry
  intro s s' gid g g' cs hg hcore hcs
  refine ⟨fun _ hout hx hline hg' => ?enters, fun h y hy => ?fails⟩
  case enters =>
    rw [takeTrap_enter hg hcore hcs hout hx hline]
    refine ⟨onlyGroup_updGroup s' gid _ fun _ => rfl, ?_⟩
    rw [groupOf_updGroup_same s' gid (enterGroup cs (nowNs s)) fun _ => rfl, hg', Option.map_some, enterGroup_eq]
  case fails =>
    have hfailed : GangFailed g.gid.tag (takeTrap s gid cs) := by
      obtain ⟨-, hin⟩ | ⟨-, hout, hx⟩ := h
      · obtain ⟨x, hx⟩ := takeTrap_double hg hcore hcs hin
        exact hx ▸ gangFailed_doubleTrap s g cs x
      · exact takeTrap_forward hg hcore hcs hout hx ▸ gangFailed_forwardTraps s g cs
    rw [gid_of_groupOf hg] at hfailed
    exact hfailed.of_gangOf hy

end Sys2Proof.Machine
end

section
/-! The instructions of the handler (O39). -/

namespace Sys2Proof.Machine

open Sys2Proof

/-! ## Accesses that meet no condition (12 R222, R224) -/

section
variable {ls : List Lane}

theorem cls4_of_allOk (h : AllOk ls) : ls.filterMap Lane.cls4 = [] := List.filterMap_eq_nil_iff.2 fun l hl => by
  obtain ⟨p, hp⟩ := h l hl
  rw [Lane.cls4, hp]

theorem cls3_of_allOk (h : AllOk ls) : ls.filterMap Lane.cls3 = [] := List.filterMap_eq_nil_iff.2 fun l hl => by
  obtain ⟨p, hp⟩ := h l hl
  rw [Lane.cls3, hp]

theorem no_waits_of_allOk (h : AllOk ls) : (ls.any fun l => l.dec == .waits) = false := by
  rw [List.any_eq_false]
  intro l hl
  obtain ⟨p, hp⟩ := h l hl
  simp [hp]

@[simp] theorem without_nil (c : Ctx) : c.without [] = c := by simp [Ctx.without]

@[simp] theorem hold3_nil (s : State) (g : Group) (pc : W64) (kind : Nat) : hold3 s g pc kind [] = s := rfl

@[simp] theorem traps4_nil (c : Ctx) (s : State) : c.traps4 s [] = s := rfl

/-- Every thread goes on. -/
theorem perform_of_allOk {c : Ctx} (h : AllOk ls) (hact : c.act.isEmpty = false) (s : State) (res : Bool) (kind : Nat)
    (go : Ctx → State → State) : c.perform s res kind ls go = go c s := by
  simp [Ctx.perform, no_waits_of_allOk h, cls4_of_allOk h, cls3_of_allOk h, firstBad, distinct, hact]

/-- Every part is stored, by threads that have no reply to wait for first. -/
theorem storeParted_of_allOk {c : Ctx} {s : State} {scope : Nat} (h : AllOk ls) (hw : c.releaseWaits s scope ls = false)
    (s0 : State) (data : State → Lane → Places → Bytes × Table Byte) :
    c.storeParted s0 s scope data ls = c.done (c.storeLanes (c.fenceFirst s scope ls) scope data ls) id := by
  simp [Ctx.storeParted, no_waits_of_allOk h, hw, cls4_of_allOk h, cls3_of_allOk h, firstBad, distinct]

/-- Below `dom` nothing is released to a peer (11 R216). -/
theorem peerReleases_of_lt {scope : Nat} (h : scope < 6) (c : Ctx) (ls : List Lane) : c.peerReleases scope ls = [] :=
  if_pos h

end

theorem addrOk_of_legal {c : Ctx} {f : LongForm} (h : AddrLegal c f) : addrOk c f = true := by rw [addrOk, h.1, h.2]; rfl

/-! ## The check that threads are in the handler (09 R172) -/

theorem inHandler_iff (c : Ctx) : c.inHandler = true ↔ InHandler c := by simp [Ctx.inHandler, InHandler]

theorem inHandler_false {c : Ctx} (h : ∃ t ∈ c.act, t.hnd = false) : c.inHandler = false := by
  obtain ⟨t, ht, hhnd⟩ := h
  rw [← Bool.not_eq_true, inHandler_iff]
  exact fun hall => by simp [hall t ht] at hhnd

section
variable {s : State} {i : Instr} {g : BitVec 5} {res : Bool} {chk : Ctx → Bool} {body : Ctx → State} {c : Ctx}

/-- An instruction of the handler, in it and outside it. -/
theorem runCore_inHandler (h : Issues s i g c) (hc : chk c = true) (hh : InHandler c) :
    runCore s i g res chk (fun c => if !c.inHandler then c.trapAct s cILLOP else body c) = body c :=
  (runCore_body h hc).trans (if_neg (by rw [(inHandler_iff c).2 hh]; decide))

theorem runCore_outside (h : Issues s i g c) (hc : chk c = true) (hout : ∃ t ∈ c.act, t.hnd = false) :
    runCore s i g res chk (fun c => if !c.inHandler then c.trapAct s cILLOP else body c) = c.trapAct s 0x01 :=
  (runCore_body h hc).trans (if_pos (by rw [inHandler_false hout]; rfl))

end

/-- Whether every active thread is in the handler for class 8. -/
theorem answers_iff (c : Ctx) : (c.act.all fun t => t.hnd && bits t.xcause.toNat 0 8 = 8) = true ↔
    ∀ t ∈ c.act, t.hnd = true ∧ t.xcause.toNat % 256 = 8 := by simp [bits]

section
variable {s s1 : State} {c : Ctx} {f : LongForm} {ls : List Lane}

theorem exec_trap (h : Issues s (.trap f) f.g c) (ha : srcOk c f.lit false f.sa = true) :
    exec (.trap f) s = .next (takeTrap s c.cur.gid (c.act.map fun t =>
      ⟨t.tid, 7, 0x60, false, c.cur.pc, c.cur.next, 0, (a32 f t).setWidth 64⟩)) :=
  congrArg Host.Outcome.next (runCore_body h ha)

/-! ### `TRET` -/

/-- Threads that hold no entry go to their `xpc`. -/
theorem exec_tret (h : Issues s (.tret f) f.g c) (hh : InHandler c) (hentry : ∀ t ∈ c.act, t.dph = none ∧ t.pre = false)
    (hp : Passes s c false (·.xpc) s1) : exec (.tret f) s = .next (c.tretTo s1) := by
  have hnone : c.act.filter holdsEntry = [] := List.filter_eq_nil_iff.2 fun t ht => by
    obtain ⟨hdph, hpre⟩ := hentry t ht
    simp [holdsEntry, hdph, hpre]
  refine congrArg Host.Outcome.next ((runCore_inHandler h rfl hh).trans ?_)
  simp only [hnone, List.map_nil, without_nil, h.act, Bool.false_eq_true, if_false, transfer_of_passes hp, Ctx.enterHeld]

theorem exec_tret_outside (h : Issues s (.tret f) f.g c) (hout : ∃ t ∈ c.act, t.hnd = false) :
    exec (.tret f) s = .next (c.trapAct s 0x01) :=
  congrArg Host.Outcome.next (runCore_outside h rfl hout)

/-! ### `FREC` -/

theorem exec_frecGet (h : Issues s (.frecGet f) f.g c) (ha : AddrLegal c f) (hh : InHandler c)
    (hd : c.decideLanes s (effAddr f) (fun _ => 64) 64 .store = (ls, s1)) (hok : AllOk ls) :
    exec (.frecGet f) s = .next (c.done (c.storeLanes s1 0 (fun _ l _ =>
      (((c.act.find? fun t => t.tid = l.tid).map fun t => (recordOf s c.grp t false).bytes t.xtime).getD [], [])) ls) id) := by
  have hw : c.releaseWaits s1 0 ls = false := by rw [Ctx.releaseWaits, peerReleases_of_lt (by decide)]; rfl
  have hf : c.fenceFirst s1 0 ls = s1 := by rw [Ctx.fenceFirst, peerReleases_of_lt (by decide)]
  refine congrArg Host.Outcome.next ((runCore_inHandler h (addrOk_of_legal ha) hh).trans ?_)
  simp only [hd, storeParted_of_allOk hok hw, hf]

theorem exec_frecGet_outside (h : Issues s (.frecGet f) f.g c) (ha : AddrLegal c f) (hout : ∃ t ∈ c.act, t.hnd = false) :
    exec (.frecGet f) s = .next (c.trapAct s 0x01) :=
  congrArg Host.Outcome.next (runCore_outside h (addrOk_of_legal ha) hout)

theorem exec_frecFwd (h : Issues s (.frecFwd f) f.g c) (hh : InHandler c) {t0 : Thread} (ht0 : c.act.head? = some t0) :
    exec (.frecFwd f) s = .next (failGang ((c.act.filter fun t =>
        c.act.all fun u => u.tid / 32 != t.tid / 32 || t.tid ≤ u.tid).foldl (fun s t =>
      postRecord s c.die ((recordOf s c.grp t true).bytes t.xtime)) s) c.cur.gid.tag (t0.xcause.toNat / 2 ^ 8 % 2 ^ 8)) := by
  refine congrArg Host.Outcome.next ((runCore_inHandler h rfl hh).trans ?_)
  rw [ht0]
  rfl

theorem exec_frecFwd_outside (h : Issues s (.frecFwd f) f.g c) (hout : ∃ t ∈ c.act, t.hnd = false) :
    exec (.frecFwd f) s = .next (c.trapAct s 0x01) :=
  congrArg Host.Outcome.next (runCore_outside h rfl hout)

/-! ### `PDONE` -/

theorem exec_pdone (h : Issues s (.pdone f) f.g c) (ha : ∀ t ∈ c.act, t.hnd = true ∧ t.xcause.toNat % 256 = 8) :
    exec (.pdone f) s = .next (keptSave (c.upd (c.done s id) (modThreads c.actTids fun t =>
      { t with wait := .pdone, pc := t.xpc, hnd := false, owes := false, latches := [] })) c.cur.gid) :=
  congrArg Host.Outcome.next ((runCore_body h rfl).trans (if_neg (by rw [(answers_iff c).2 ha]; decide)))

theorem exec_pdone_outside (h : Issues s (.pdone f) f.g c) (hout : ∃ t ∈ c.act, t.hnd = false) :
    exec (.pdone f) s = .next (c.trapAct s 0x01) := by
  have hno : ¬ (c.act.all fun t => t.hnd && bits t.xcause.toNat 0 8 = 8) = true := by
    obtain ⟨t, ht, hhnd⟩ := hout
    rw [answers_iff]
    exact fun hall => by simp [(hall t ht).1] at hhnd
  exact congrArg Host.Outcome.next ((runCore_body h rfl).trans (if_pos (by simpa using hno)))

end

/-- Settles O39, from the lemmas above, one for each instruction in the handler and outside it. -/
theorem trapInstructions : Obligations.TrapInstructions := by
  unfold Obligations.TrapInstructions
  intro s s1 c f ls
  refine ⟨exec_trap, fun h hh hentry hp => ?tret, exec_frecGet, fun h hh t0 => exec_frecFwd h hh,
    fun h hh hcls => exec_pdone h fun t ht => ⟨hh t ht, hcls t ht⟩, fun hout => ⟨fun h => exec_tret_outside h hout,
      fun h ha => exec_frecGet_outside h ha hout, fun h => exec_frecFwd_outside h hout, fun h => exec_pdone_outside h hout⟩⟩
  case tret =>
    rw [exec_tret h hh hentry hp, Ctx.tretTo]
    simp only [List.contains_iff_mem]

end Sys2Proof.Machine
end

section
/-! Context saves and loads (O40). -/

namespace Sys2Proof.Machine

open Sys2Proof

/-! ## Ranges and areas (09 R174, R175) -/

section
variable {c : Ctx} {f : LongForm} {v n : Nat}

theorem rangeOf_named (hr : RangeNamed c f v n) : rangeOf c f = (v, n) := by
  obtain ⟨hv, -, -, hn, -⟩ := hr
  rw [rangeOf, hv, hn]

theorem ctxRangeOk_named (hr : RangeNamed c f v n) : ctxRangeOk c f = true := by
  have hrange := rangeOf_named hr
  obtain ⟨rfl, hsrc, huni, -, h1, h256, hle, hcode⟩ := hr
  have hlt : f.sa.toNat < c.grp.n := by omega
  simp [ctxRangeOk, regCodeOk, hrange, hsrc, huni, h1, h256, hle, hcode, hlt]

theorem slotIdle_iff (g : Group) (d : Nat) : slotIdle g d = true ↔ ∀ op, g.slots.getD d .idle ≠ .pending op := by
  unfold slotIdle
  cases g.slots.getD d .idle <;> simp

/-- An access to the area whose pieces are all reached goes on. -/
theorem areaAccess_ok {s s1 : State} {store : Bool} {pieces pages : List (Nat × Nat)}
    (h : areaPieces c.grp (if store then .store else .load) pieces [] s = .ok pages s1) (go : List (Nat × Nat) → State → State) :
    c.areaAccess s store pieces go = go pages s1 := by
  rw [Ctx.areaAccess, h]

/-- Writes to the area that the fabric delivers. -/
theorem areaStore_delivered {s : State} {g : Group} {pages : List (Nat × Nat)} {ws : List (Nat × Byte)}
    (h : ∀ x ∈ ws, (areaLoc g pages x.1).any (fabricFails s.fab) = false) (locs : List Nat)
    (hl : locs = ws.filterMap fun x => areaLoc g pages x.1) : c.areaStore s g pages ws = acquireAnswered s (c.actTids.foldl
      (fun s t => markWrite s (threadWho c.grp t) 0 locs) (areaWriteBy (countArea s c.cur.gid locs) g (some c.core)
        (some (0, .thread c.cur.gid (c.actTids.headD 0))) pages ws)) := by
  have hgood : (ws.filter fun x => !(areaLoc g pages x.1).any (fabricFails s.fab)) = ws :=
    List.filter_eq_self.2 fun x hx => by simp only [h x hx, Bool.not_false]
  have hlost : (ws.find? fun x => (areaLoc g pages x.1).any (fabricFails s.fab)) = none :=
    List.find?_eq_none.2 fun x hx => by simp only [h x hx, Bool.false_eq_true, not_false_eq_true]
  simp only [Ctx.areaStore, hgood, hlost, hl]

end

section
variable {s s1 s2 : State} {c : Ctx} {f : LongForm} {v n : Nat} {p1 p2 : List (Nat × Nat)}

theorem exec_ctxsaveKeep (hr : RangeNamed c f v n) (h : Issues s (.ctxsaveKeep f) f.g c)
    (ha : ∀ t ∈ c.act, t.hnd = true ∧ t.xcause.toNat % 256 = 8) : exec (.ctxsaveKeep f) s =
      .next (c.upd (c.done s id) fun g => { g with keep := some ((g.keep.getD []) ++ [(v, n)]) }) := by
  have hc : (ctxRangeOk c f && c.act.all fun t => t.hnd && bits t.xcause.toNat 0 8 == 8) = true := by
    rw [ctxRangeOk_named hr]
    exact (answers_iff c).2 ha
  refine congrArg Host.Outcome.next ((runCore_body h hc).trans ?_)
  rw [rangeOf_named hr]

theorem exec_ctxsave {g : Group} {ws : List (Nat × Byte)} {locs : List Nat} (hr : RangeNamed c f v n)
    (hg : g = reformAll c.grp [] []) (h : Issues s (.ctxsave f) f.g c)
    (hp : areaPieces c.grp .store (entryPieces g v n ++ rowPieces g v n fun w r => homeTag g w r == .gen) [] s = .ok p1 s1)
    (hws : ws = ((List.range (homeWarps c.grp.nthr)).map fun w => regWrites g w ((List.range n).map (v + ·))
      fun q => (areaBytes s1 g p1 (saWarp g w + q) 1).headD 0#8).flatten)
    (hd : ∀ x ∈ ws, (areaLoc g p1 x.1).any (fabricFails s1.fab) = false) (hl : locs = ws.filterMap fun x => areaLoc g p1 x.1) :
    exec (.ctxsave f) s = .next (c.done (acquireAnswered s1 (c.actTids.foldl (fun s t =>
      markWrite s (threadWho c.grp t) 0 locs) (areaWriteBy (countArea s1 c.cur.gid locs) g (some c.core)
        (some (0, .thread c.cur.gid (c.actTids.headD 0))) p1 ws))) id) := by
  refine congrArg Host.Outcome.next ((runCore_body h (ctxRangeOk_named hr)).trans ?_)
  subst hg
  simp only [rangeOf_named hr]
  rw [areaAccess_ok hp, ← areaStore_delivered hd locs hl, hws]
  rfl

/-- The state after a load of a range but for the errors of its places. -/
def rangeLoaded (c : Ctx) (s : State) (d v n : Nat) (pages : List (Nat × Nat)) : State :=
  slotStarts (c.upd (c.done s id) fun g => setSlot d (.pending (.ctxload v n))
    ((List.range (homeWarps g.nthr)).foldl (fun g w =>
      (List.range n).foldl (fun g i => loadReg s pages w (v + i) g) g) g)) c.cur.gid d c.actTids

theorem exec_ctxload (hr : RangeNamed c f v n) (h : Issues s (.ctxload f) f.g c) (hd : f.dst.toNat < 16)
    (hslot : ∀ op, c.grp.slots.getD f.dst.toNat .idle ≠ .pending op)
    (hp1 : areaPieces c.grp .load (entryPieces c.grp v n) [] s = .ok p1 s1)
    (hp2 : areaPieces c.grp .load (entryPieces c.grp v n ++ rowPieces c.grp v n fun w r =>
      2 ≤ savedTag (areaBytes s1 c.grp p1 (saWarp c.grp w) 64) r) [] s1 = .ok p2 s2) : exec (.ctxload f) s =
      .next (match ctxPoison s2 c.grp p2 v n with
        | some (r, e, a) => pushErrs (rangeLoaded c s2 f.dst.toNat v n p2) c.cur.gid (BitVec.ofNat 64 r)
            (c.actTids.map fun t => (t, e, a))
        | none => rangeLoaded c s2 f.dst.toNat v n p2) := by
  have hc : (slotOk f.dst && ctxRangeOk c f && slotIdle c.grp f.dst.toNat) = true := by
    simp [slotOk, hd, ctxRangeOk_named hr, (slotIdle_iff _ _).2 hslot]
  refine congrArg Host.Outcome.next ((runCore_body h hc).trans ?_)
  simp only [rangeOf_named hr]
  rw [areaAccess_ok hp1, areaAccess_ok hp2]
  rfl

end

/-- Settles O40, from the lemmas above, one for each instruction. -/
theorem contextInstructions : Obligations.ContextInstructions := by
  unfold Obligations.ContextInstructions
  intro s s1 s2 t c f v n p1 p2 g ws locs hr hg
  refine ⟨exec_ctxsave hr hg, exec_ctxsaveKeep hr, fun h hd hslot hp1 hp2 ht => ?load⟩
  have hload := exec_ctxload hr h hd hslot hp1 hp2
  rw [rangeLoaded, ← ht] at hload
  exact ⟨fun hno => by rw [hload, hno], fun r e a hbad => by rw [hload, hbad]⟩

end Sys2Proof.Machine
end

section
/-! Dependency slots (O41): `DEPWAIT`, `MWAIT`, `MPOLL` and the end of `CTXLOAD`. -/

namespace Sys2Proof.Machine

open Sys2Proof

section
variable {s s1 : State} {c : Ctx} {f : LongForm} {ls : List Lane} {l : Lane} {p : Places}

/-! ## `DEPWAIT` (09 R182) -/

/-- What `DEPWAIT` does once it has read the header at a save area. -/
def headerRead (c : Ctx) (d : Nat) (p : Places) (va : W64) (s : State) : State :=
  match depositsOf s p, headerErr s p with
  | some x, some e => pushErrs (slotStarts (c.upd (c.done s id) (setSlot d x)) c.cur.gid d c.actTids) c.cur.gid 0
      (c.actTids.map fun t => (t, e, va))
  | some x, none => slotStarts (c.upd (c.done s id) (setSlot d x)) c.cur.gid d c.actTids
  | none, _ => slotStarts (c.upd s fun g =>
      setSlot d (.pending (.deposit va)) { g with threads := g.threads.map (depThread c d) }) c.cur.gid d c.actTids

theorem exec_depwait (h : Issues s (.depwait f) f.g c) (hd : f.dst.toNat < 16) (ha : AddrLegal c f)
    (huni : addrUni c f = true) (hslot : ∀ op, c.grp.slots.getD f.dst.toNat .idle ≠ .pending op)
    (hls : c.decideLanes s (effAddr f) (fun _ => 8) 1 .load = (ls, s1)) (hok : AllOk ls) (hl : ls.head? = some l)
    (hp : l.dec = .ok p) : exec (.depwait f) s = .next (headerRead c f.dst.toNat p l.va s1) := by
  have hc : (slotOk f.dst && addrOk c f && addrUni c f && slotIdle c.grp f.dst.toNat) = true := by
    simp [slotOk, hd, addrOk_of_legal ha, huni, (slotIdle_iff _ _).2 hslot]
  have hplaces : (some l).bind Lane.places = some p := by rw [Option.bind_some, Lane.places, hp]
  refine congrArg Host.Outcome.next ((runCore_body h hc).trans ?_)
  simp only [hls]
  rw [perform_of_allOk hok h.act, hl, hplaces]
  rfl

/-- The threads that wait, as the statement has them. -/
theorem depThread_eq (c : Ctx) (d : Nat) (t : Thread) : depThread c d t =
    if t.runnable && !(inHeld c.grp t.tid) then
      { t with wait := .slot d, wnext := if t.tid ∈ c.setTids then c.cur.next else t.pc }
    else t := by
  simp only [depThread, waitThread, List.contains_iff_mem]

/-! ## The end of `CTXLOAD` (09 R182) -/

theorem exec_ctxloadDone {g : Group} {d v n : Nat} (hg : groupOf s g.gid = some g)
    (hslot : g.slots.getD d .idle = .pending (.ctxload v n)) :
    exec (.ctxloadDone g.gid.tag g.gid.grp d) s = .next (finishSlot s g.gid d (depositSlot g.derr)) := by
  have hdue : ctxloadDue g d = true := by rw [ctxloadDue, hslot]
  refine congrArg Host.Outcome.next ?_
  rw [show (⟨g.gid.tag, g.gid.grp⟩ : Gid) = g.gid from rfl, hg]
  exact if_pos hdue

/-! ## `MWAIT` and `MPOLL` (22 R336, 23 R342, R343) -/

/-- What `MWAIT` does by the state of its slot. -/
def slotAwaited (c : Ctx) (s : State) (d : Nat) : Slot → State
  | .idle => c.done s id
  | .set => c.done (slotFound s c.cur.gid d c.actTids) id
  | .failed word addr => c.raiseSlot s d word addr
  | .pending _ => c.upd s (modThreads c.setTids fun t =>
      if t.tid ∈ c.actTids then waitThread c.cur.pc (.slot d) t else { t with pc := c.cur.next })

theorem exec_mwait (h : Issues s (.mwait f) f.g c) (hd : f.dst.toNat < 16) :
    exec (.mwait f) s = .next (slotAwaited c s f.dst.toNat (c.grp.slots.getD f.dst.toNat .idle)) := by
  have hc : slotOk f.dst = true := by simpa [slotOk] using hd
  refine congrArg Host.Outcome.next ((runCore_body h hc).trans ?_)
  cases c.grp.slots.getD f.dst.toNat .idle <;> simp only [slotAwaited, List.contains_iff_mem]

/-- A failure that is not a deposit's is of class 5, with the slot's word. -/
theorem raiseSlot_mill {w a : W64} (hw : w.toNat % 256 ≠ 0x50) (c : Ctx) (s : State) (d : Nat) :
    c.raiseSlot s d w a =
      if trapTaken (c.trap (c.upd s (setSlot d .idle)) 5 (w.toNat % 256) (c.actTids.map fun t => (t, a, w))) c.cur.gid
          c.actTids = true
      then c.trap (c.upd s (setSlot d .idle)) 5 (w.toNat % 256) (c.actTids.map fun t => (t, a, w))
      else c.upd (c.trap (c.upd s (setSlot d .idle)) 5 (w.toNat % 256) (c.actTids.map fun t => (t, a, w)))
        (setSlot d (.failed w a)) := by
  have hbits : bits w.toNat 0 8 = w.toNat % 256 := by simp [bits]
  simp only [Ctx.raiseSlot, hbits, if_neg hw]

/-- What `MPOLL` gives by the state of its slot, unless it has failed. -/
theorem exec_mpoll (h : Issues s (.mpoll f) f.g c) (hd : dstOk c false f.dst = true) (ha : f.sa.toNat < 16)
    (hf : ∀ w a, c.grp.slots.getD f.sa.toNat .idle ≠ .failed w a) : exec (.mpoll f) s = .next (c.result
      (if slotState (c.grp.slots.getD f.sa.toNat .idle) = 2 then slotFound s c.cur.gid f.sa.toNat c.actTids else s) f.dst f.w
      (intResult c false true none fun _ => slotState (c.grp.slots.getD f.sa.toNat .idle))) := by
  have hc : (dstOk c false f.dst && slotSrcOk f.sa) = true := by simp [hd, slotSrcOk, ha]
  refine congrArg Host.Outcome.next ((runCore_body h hc).trans ?_)
  dsimp only
  split
  next heq => exact absurd heq (hf _ _)
  next => rfl

theorem gives_mpoll (h : Issues s (.mpoll f) f.g c) (hd : dstOk c false f.dst = true) (ha : f.sa.toNat < 16)
    (hf : ∀ w a, c.grp.slots.getD f.sa.toNat .idle ≠ .failed w a) (hs : c.grp.slots.getD f.sa.toNat .idle ≠ .set) :
    Gives (.mpoll f) s c f false fun _ => if c.grp.slots.getD f.sa.toNat .idle = .idle then 0 else 1 := by
  have hexec := exec_mpoll h hd ha hf
  obtain ⟨tlo, thi, hr⟩ := intResult_eq c false true none fun _ => slotState (c.grp.slots.getD f.sa.toNat .idle)
  rw [hr] at hexec
  refine ⟨tlo, thi, hexec.trans ?_⟩
  cases hx : c.grp.slots.getD f.sa.toNat .idle with
  | idle => rfl
  | pending op => rfl
  | set => exact absurd hx hs
  | failed w a => exact absurd hx (hf w a)

theorem exec_mpoll_set (h : Issues s (.mpoll f) f.g c) (hd : dstOk c false f.dst = true) (ha : f.sa.toNat < 16)
    (hs : c.grp.slots.getD f.sa.toNat .idle = .set) : ∃ tlo thi, exec (.mpoll f) s =
      .next (c.result (slotFound s c.cur.gid f.sa.toNat c.actTids) f.dst f.w ⟨false, fun _ => 2, tlo, thi⟩) := by
  obtain ⟨tlo, thi, hr⟩ := intResult_eq c false true none fun _ => 2
  refine ⟨tlo, thi, (exec_mpoll h hd ha fun w a => by rw [hs]; exact Slot.noConfusion).trans ?_⟩
  rw [hs]
  exact congrArg (fun r => Host.Outcome.next (c.result (slotFound s c.cur.gid f.sa.toNat c.actTids) f.dst f.w r)) hr

end

/-- Settles O41: each instruction by the state of its slot, and `CTXLOAD`'s end by the group's deposit error. -/
theorem slotInstructions : Obligations.SlotInstructions := by
  unfold Obligations.SlotInstructions
  intro s s1 c f ls l p g d v n
  refine ⟨fun h hd ha huni hslot hls hok hl hp => ?depwait, fun hg hslot => ?ctxload, fun h hd => ?mwait,
    fun h hd ha => ⟨gives_mpoll h hd ha, exec_mpoll_set h hd ha⟩⟩
  case depwait =>
    rw [exec_depwait h hd ha huni hslot hls hok hl hp]
    refine ⟨?_, fun hx => by simp only [headerRead, hx, funext (depThread_eq c f.dst.toNat)]⟩
    rintro x u hx rfl
    exact ⟨fun he => by rw [headerRead, hx, he], fun e he => by rw [headerRead, hx, he]⟩
  case ctxload =>
    rw [exec_ctxloadDone hg hslot]
    cases g.derr <;> rfl
  case mwait =>
    rw [exec_mwait h hd]
    refine ⟨fun hx => by rw [hx]; rfl, fun hx => by rw [hx]; rfl, fun op hx => by rw [hx]; rfl, ?_⟩
    rintro w a t hx hw rfl
    rw [hx]
    exact congrArg Host.Outcome.next (raiseSlot_mill hw c s f.dst.toNat)

end Sys2Proof.Machine
end

section
/-! What a load reads (O27): its bytes at their homes, a copy in the core's own L1, or what a write has replaced. -/

namespace Sys2Proof.Machine

open Sys2Proof

/-! ## The copies that serve a load (10 R188, R189, 11 R212) -/

/-- From `s` to `s'` bytes and replaced writes stay as they were, and the only new copies in L1 are clean ones. -/
structure OnlyFills (s s' : State) : Prop where
  mem : s'.mm.mem = s.mm.mem
  deferred : s'.mm.deferred = s.mm.deferred
  past : s'.mm.past = s.mm.past
  copies : ∀ y ∈ s'.mm.l1, y.bytes = none ∨ y ∈ s.mm.l1

namespace OnlyFills

variable {s s' s'' : State}

theorem refl (s : State) : OnlyFills s s := ⟨rfl, rfl, rfl, fun _ hy => .inr hy⟩

theorem trans (h : OnlyFills s s') (h' : OnlyFills s' s'') : OnlyFills s s'' :=
  ⟨h'.mem.trans h.mem, h'.deferred.trans h.deferred, h'.past.trans h.past,
    fun y hy => (h'.copies y hy).elim .inl (h.copies y)⟩

theorem homeByte_eq (h : OnlyFills s s') (l : Nat) : homeByte s'.mm l = homeByte s.mm l := by
  rw [homeByte, homeByte, h.mem, h.deferred]

end OnlyFills

theorem mem_of_mem_roomIn {α : Type} [DecidableEq α] {mine : α → Bool} {pick : Nat} {l : List α} {x : α}
    (h : x ∈ (roomIn mine pick l).1) : x ∈ l := by
  unfold roomIn at h
  dsimp only at h
  split at h
  · exact h
  · split at h
    · exact List.mem_of_mem_erase h
    · exact h

theorem onlyFills_fillLine (s : State) (c line : Nat) : OnlyFills s (fillLine s c line) := by
  refine ⟨rfl, rfl, rfl, fun y hy => ?_⟩
  rcases List.mem_cons.1 hy with rfl | hy
  · exact .inl rfl
  · exact .inr (List.mem_filter.1 (mem_of_mem_roomIn hy)).1

theorem onlyFills_fill (s : State) (fill : Bool) (c line : Nat) :
    OnlyFills s (if fill then fillLine s c line else s) := by
  split
  · exact onlyFills_fillLine s c line
  · exact .refl s

theorem onlyFills_lineSource (s : State) (c cover : Nat) (fill : Bool) (line : Nat) :
    OnlyFills s (lineSource s c cover fill line).2 := by
  unfold lineSource
  split
  · dsimp only
    split
    · exact .refl s
    · split
      · exact ⟨rfl, rfl, rfl, fun _ hy => .inr hy⟩
      · refine OnlyFills.trans ?_ (onlyFills_fill _ fill c line)
        exact ⟨rfl, rfl, rfl, fun _ hy => .inr (List.mem_filter.1 hy).1⟩
  · exact onlyFills_fill s fill c line

/-- The copy that serves a line is one of this core's of that line, not older than the covering event. -/
theorem lineSource_some {s : State} {c cover : Nat} {fill : Bool} {line : Nat} {y : L1Line}
    (h : (lineSource s c cover fill line).1 = some y) : y ∈ s.mm.l1 ∧ y.core = c ∧ cover ≤ y.stamp := by
  unfold lineSource at h
  split at h
  next l hl =>
    have hfound : l ∈ s.mm.l1 ∧ l.core = c ∧ cover ≤ l.stamp := by
      have hp := List.find?_some hl
      simp only [Bool.and_eq_true, decide_eq_true_eq] at hp
      exact ⟨List.mem_of_find?_eq_some hl, hp.1.1, hp.2⟩
    dsimp only at h
    split at h
    · cases h
      exact hfound
    · split at h
      · cases h
        exact hfound
      · cases h
  · cases h

/-- What a load has gathered of the lines so far: the copies that serve it, and the state. -/
structure Gathered (s : State) (c cover : Nat) (x : List L1Line × State) : Prop where
  fills : OnlyFills s x.2
  copies : ∀ y ∈ x.1, y.core = c ∧ cover ≤ y.stamp ∧ (y.bytes = none ∨ y ∈ s.mm.l1)

theorem Gathered.cons {s : State} {c cover : Nat} {x : List L1Line × State} (h : Gathered s c cover x) {fill : Bool}
    {line : Nat} {y : L1Line} {s' : State} (hy : lineSource x.2 c cover fill line = (some y, s')) :
    Gathered s c cover (y :: x.1, s') := by
  obtain ⟨hmem, hcore, hcover⟩ := lineSource_some (congrArg Prod.fst hy)
  have hs' : OnlyFills x.2 s' := by simpa only [hy] using onlyFills_lineSource x.2 c cover fill line
  refine ⟨h.fills.trans hs', fun z hz => ?_⟩
  rcases List.mem_cons.1 hz with rfl | hz
  · exact ⟨hcore, hcover, h.fills.copies _ hmem⟩
  · exact h.copies z hz

theorem Gathered.skip {s : State} {c cover : Nat} {x : List L1Line × State} (h : Gathered s c cover x) {fill : Bool}
    {line : Nat} {s' : State} (hy : lineSource x.2 c cover fill line = (none, s')) : Gathered s c cover (x.1, s') := by
  have hs' : OnlyFills x.2 s' := by simpa only [hy] using onlyFills_lineSource x.2 c cover fill line
  exact ⟨h.fills.trans hs', h.copies⟩

/-! ## The statement -/

/-- Settles O27: what a load gathers of its lines is `Gathered`, by induction on the lines; a byte that no copy serves is one
of `seenByte_cases`. -/
theorem loadsReadHomeOrCopy : Obligations.LoadsReadHomeOrCopy := by
  unfold Obligations.LoadsReadHomeOrCopy
  rintro s me core cover unc fill key locs r rfl
  unfold readCore
  dsimp only
  generalize hx : List.foldl _ _ _ = x
  have hg : Gathered s core cover x := hx ▸ foldl_keeps (Gathered s core cover) _ (fun x line h => by
    split
    next hy => exact h.cons hy
    next hy => exact h.skip hy) _ _ ⟨.refl s, fun _ hy => absurd hy List.not_mem_nil⟩
  obtain ⟨old, s'⟩ := x
  refine ⟨List.length_map _, fun i l hl => ?byte, ?mem, ?deferred⟩
  case mem => exact (lookPast_bytes ..).1.trans hg.fills.mem
  case deferred => exact (lookPast_bytes ..).2.trans hg.fills.deferred
  case byte =>
    simp only [List.getElem?_map, hl, Option.map_some]
    split
    next b hb =>
      obtain ⟨y, hy, hyb⟩ := Option.bind_eq_some_iff.1 hb
      split at hy
      · cases hy
      next hunc =>
      obtain ⟨hcore, hcover, hmem⟩ := hg.copies y (List.mem_of_find?_eq_some hy)
      have hline : y.line = l / 128 := by simpa using List.find?_some hy
      exact .inr (.inl ⟨by simpa using hunc, y, hmem.resolve_left (by simp [hyb]), hcore, hline, hcover, b, hyb, rfl⟩)
    · rcases seenByte_cases s' me 0 (unitOf key _ l) l with hhome | ⟨w, hw, -, hbinds, hwas⟩
      · exact .inl (congrArg some (hhome.trans (hg.fills.homeByte_eq l)))
      · exact .inr (.inr ⟨w, hg.fills.past ▸ hw, hbinds, _, hwas, rfl⟩)

end Sys2Proof.Machine
end

section
/-! A write of some bits of a poisoned granule (O29). -/

namespace Sys2Proof.Machine

open Sys2Proof

/-- A writer that enables the low half of byte 0, as a store of a 4-bit element does (10 R195), and all bits of every other
byte. -/
def halfByteWriter : Writer := { deviceWriter with en := [(0, 0x0F#8)] }

/-- The machine after reset, its first granule poisoned. -/
def poisonedReset : State := { State.reset with mm := { State.reset.mm with poison := [0] } }

/-- Its write of 32 bytes leaves four bits of the granule as they were, so the poison stays (10 R203). -/
theorem poison_halfByteWrite : 0 ∈ (writeLoc poisonedReset halfByteWriter (32 * 0) (zeros 32)).mm.poison := by decide +kernel

/-- Refutes O29: its last part says of every writer that 32 bytes from a granule's first on clear the granule's poison, but a
writer may enable only some bits of a byte (`Writer.en`, 10 R195), and then it does not write the whole granule: the bits that
it leaves are poisoned still. `halfByteWriter` is one. -/
theorem not_writeLands : ¬ Obligations.WriteLands := by
  unfold Obligations.WriteLands
  rintro ⟨-, -, hpoison⟩
  exact (hpoison poisonedReset halfByteWriter 0 (zeros 32) 0 (List.mem_singleton.2 rfl)).1 List.length_replicate
    poison_halfByteWrite

end Sys2Proof.Machine
end

section
/-! What a translation changes, and what an access that lies in one page meets (O30). -/

namespace Sys2Proof.Machine

open Sys2Proof

/-! ## What a translation changes (10 R199) -/

/-- A write of one byte leaves every other, whatever the form of memory. -/
theorem homeByte_putByte_other (mm : MemSys) {l m : Nat} (h : l ≠ m) (b : Byte) :
    homeByte (putByte mm l b) m = homeByte mm m := by
  cases hl : isHostLoc l <;> simp [putByte, hl, homeByte, tget_tset, tfind_tput, h]

theorem homeByte_putBytes_ne (mm : MemSys) {ws : List (Nat × Byte)} {m : Nat} (h : m ∉ ws.map (·.1)) :
    homeByte (putBytes mm ws) m = homeByte mm m := by
  induction ws generalizing mm with
  | nil => rfl
  | cons x ws ih =>
    rw [List.map_cons, List.mem_cons, not_or] at h
    exact (ih _ h.2).trans (homeByte_putByte_other mm (Ne.symm h.1) x.2)

/-- A write changes no byte that it does not name, and poison lets no further one through. -/
theorem homeByte_applyWrite_other (s : State) (w : Writer) {ws : List (Nat × Byte)} {m : Nat} (h : m ∉ ws.map (·.1)) :
    homeByte (applyWrite s w ws).mm m = homeByte s.mm m :=
  homeByte_putBytes_ne (beforeWrite s w ws) fun hm => h ((List.filter_sublist.map _).subset hm)

theorem sameMemory_setLeafBits (s : State) (at_ e : Nat) (a : Acc) :
    SameMemory s (setLeafBits s at_ e a) fun l => ¬ (at_ ≤ l ∧ l < at_ + 8) := by
  intro l hl
  simp only [setLeafBits]
  generalize e ||| 2 ^ 57 ||| _ = e'
  split
  · rfl
  · refine homeByte_applyWrite_other s _ ?_
    rw [writesAt_locs, length_natLe, List.mem_map]
    rintro ⟨i, hi, rfl⟩
    exact hl ⟨by omega, by have := List.mem_range.1 hi; omega⟩

/-- A translation leaves the state, or it is that of a walk: it may set bits of the leaf, and it is cached. -/
theorem translate_ok {s s' : State} {eng ham asn : Nat} {va : W64} {n : Nat} {a : Acc} {p : Nat} {unc : Bool}
    (h : translate s eng ham asn va n a = .ok (p, unc, s')) :
    s' = s ∨ ∃ at_ sh e s1 t, walk s asn a (va.toNat % 2 ^ 57) = .ok (at_, sh, e) ∧ (s1 = s ∨ s1 = setLeafBits s at_ e a) ∧
      s' = { s1 with mm := { s1.mm with tlb := t } } := by
  unfold translate at h
  split at h
  · cases h
  split at h
  · split at h
    · cases h
    · simp only [Except.ok.injEq, Prod.mk.injEq] at h
      exact .inl h.2.2.symm
  dsimp only at h
  split at h
  · split at h <;> cases h
    exact .inl rfl
  split at h
  · cases h
  next at_ sh e hwalk =>
  split at h <;> cases h
  exact .inr ⟨at_, sh, e, _, _, hwalk, (ite_eq_or_eq _ _ _).symm, rfl⟩

theorem sameMemory_translate {s s' : State} {eng ham asn : Nat} {va : W64} {n : Nat} {a : Acc} {p : Nat} {unc : Bool}
    (h : translate s eng ham asn va n a = .ok (p, unc, s')) : SameMemory s s' fun l =>
      ∀ at_ sh e, walk s asn a (va.toNat % 2 ^ 57) = .ok (at_, sh, e) → ¬ (at_ ≤ l ∧ l < at_ + 8) := by
  intro l hl
  obtain rfl | ⟨at_, sh, e, s1, t, hwalk, rfl | rfl, rfl⟩ := translate_ok h
  · rfl
  · rfl
  · exact sameMemory_setLeafBits s at_ e a l (hl at_ sh e hwalk)

/-! ## An access that lies in one page (10 R185, R186, R201, 12 R222) -/

section
variable {s s' : State} {eng ham asn : Nat} {va : W64} {n align : Nat} {a : Acc}

/-- The last byte of the access is canonical where its first is: an edge of the canonical addresses is a page's. -/
theorem canonical_last (hn : 0 < n) (hpage : va.toNat % 65536 + n ≤ 65536) (h : canonical va = true) :
    canonical (va + BitVec.ofNat 64 (n - 1)) = true := by
  have hva := va.isLt
  have hsum : (va + BitVec.ofNat 64 (n - 1)).toNat = va.toNat + (n - 1) := by
    rw [BitVec.toNat_add, BitVec.toNat_ofNat]
    omega
  simp only [canonical, Bool.or_eq_true, decide_eq_true_eq, hsum] at h ⊢
  omega

theorem pagePieces_onePage (hpage : va.toNat % 65536 + n ≤ 65536) : pagePieces va n = [(va, n)] := by
  have hmin : min n (65536 - va.toNat % 65536) = n := by omega
  simp [pagePieces, hmin]

theorem decideAccess_not_canonical (hpage : va.toNat % 65536 + n ≤ 65536) (h : canonical va = false) :
    decideAccess s eng ham asn va n align a = (.cls4 0x34 va, s) := by
  simp [decideAccess, pagePieces_onePage hpage, h]

variable (hn : 0 < n) (hpage : va.toNat % 65536 + n ≤ 65536) (hc : canonical va = true)
include hn hpage hc

theorem decideAccess_misaligned (h : va.toNat % align ≠ 0) :
    decideAccess s eng ham asn va n align a = (.cls4 0x36 va, s) := by
  simp [decideAccess, pagePieces_onePage hpage, hc, canonical_last hn hpage hc, h]

/-- What the access comes to where its page meets a cause. -/
theorem decideAccess_cause (hal : va.toNat % align = 0) {cause : Nat} {v : W64}
    (h : decidePiece s eng ham asn va n a = (.error (cause, v), s')) : decideAccess s eng ham asn va n align a =
      (if cause = notReady then .waits else if isCls3 cause then .cls3 cause v else .cls4 cause v, s') := by
  by_cases hw : cause = notReady
  · subst hw
    simp [decideAccess, pagePieces_onePage hpage, hc, canonical_last hn hpage hc, hal, h, firstCause]
  · cases h3 : isCls3 cause <;>
      simp [decideAccess, pagePieces_onePage hpage, hc, canonical_last hn hpage hc, hal, h, firstCause, hw, h3]

end

/-- The first index at which a list that is given by its indices meets a test. -/
theorem findIdx?_map_range {α : Type} {f : Nat → α} {q : α → Bool} {n i : Nat} (hi : i < n) (hq : q (f i) = true)
    (hlow : ∀ j < i, q (f j) = false) : ((List.range n).map f).findIdx? q = some i := by
  rw [List.findIdx?_eq_some_iff_getElem]
  exact ⟨by simpa using hi, by simpa using hq, fun j hj => by simp [hlow j hj]⟩

section
variable {s s' : State} {eng ham asn : Nat} {va : W64} {n : Nat} {a : Acc} {p i : Nat} {unc : Bool}

theorem decidePiece_untranslated {cause : Nat} (h : translate s eng ham asn va n a = .error cause) :
    decidePiece s eng ham asn va n a = (.error (cause, va), s) := by
  rw [decidePiece, h]

variable (h : translate s eng ham asn va n a = .ok (p, unc, s')) (hi : i < n)
include h hi

theorem decidePiece_unbacked (hnone : locOf s.fab (p + i) = none) (hlow : ∀ j < i, locOf s.fab (p + j) ≠ none) :
    decidePiece s eng ham asn va n a = (.error (0x35, va + BitVec.ofNat 64 i), s') := by
  have hfind : ((List.range n).map fun i => locOf s.fab (p + i)).findIdx? Option.isNone = some i :=
    findIdx?_map_range hi (by rw [hnone]; rfl) fun j hj => by simpa [Option.isSome_iff_ne_none] using hlow j hj
  rw [decidePiece, h]
  simp only [hfind]

theorem decidePiece_busy (hback : ∀ j < n, locOf s.fab (p + j) ≠ none)
    (hbusy : ∃ l, locOf s.fab (p + i) = some l ∧ windowBusy s.mm l = true)
    (hlow : ∀ j < i, ∀ l, locOf s.fab (p + j) = some l → windowBusy s.mm l = false) :
    decidePiece s eng ham asn va n a = (.error (0x21, va + BitVec.ofNat 64 i), s') := by
  have hsome : ∀ j < n, locOf s.fab (p + j) = some ((locOf s.fab (p + j)).getD 0) := fun j hj =>
    by
    obtain ⟨l, hl⟩ := Option.ne_none_iff_exists'.1 (hback j hj)
    rw [hl, Option.getD_some]
  have hall : ((List.range n).map fun i => locOf s.fab (p + i)).findIdx? Option.isNone = none := by
    simpa [List.findIdx?_eq_none_iff, Option.isSome_iff_ne_none] using hback
  have hlocs : ((List.range n).map fun i => locOf s.fab (p + i)).filterMap id =
      (List.range n).map fun i => (locOf s.fab (p + i)).getD 0 := by
    rw [List.filterMap_map, ← List.filterMap_eq_map]
    exact List.filterMap_congr fun j hj => hsome j (List.mem_range.1 hj)
  have hfind : ((List.range n).map fun i => (locOf s.fab (p + i)).getD 0).findIdx? (windowBusy s.mm) = some i := by
    obtain ⟨l, hl, hb⟩ := hbusy
    exact findIdx?_map_range hi (by rw [hl]; exact hb) fun j hj => hlow j hj _ (hsome j (hj.trans hi))
  rw [decidePiece, h]
  simp only [hall, hlocs, hfind]

end

end Sys2Proof.Machine
end

section
/-! The records of threads that meet class 3 conditions, how the threads are held, and traps of one cause (O30). -/

namespace Sys2Proof.Machine

open Sys2Proof

/-! ## Class 3 records: one for each home warp and page (13 R252, 10 R202) -/

theorem distinct_const {α : Type} [DecidableEq α] {l : List α} {c : α} (hne : l ≠ []) (h : ∀ x ∈ l, x = c) :
    distinct l = [c] := by
  cases l with
  | nil => exact absurd rfl hne
  | cons x l =>
    rw [distinct, h x List.mem_cons_self, List.filter_eq_nil_iff.2]
    exact fun y hy => by simpa using h y (List.mem_cons_of_mem _ ((mem_distinct y l).1 hy))

/-- Parting a list by the values that a key takes loses nothing and doubles nothing. -/
theorem perm_flatten_filter_key {α κ : Type} [DecidableEq κ] (key : α → κ) (l : List α) (ks : List κ) (hn : ks.Nodup) :
    ((ks.map fun k => l.filter fun x => key x = k).flatten).Perm (l.filter fun x => key x ∈ ks) := by
  induction ks with
  | nil => simp
  | cons k ks ih =>
    obtain ⟨hk, hn⟩ := List.nodup_cons.1 hn
    have hsplit := List.filter_append_perm (fun x => decide (key x = k)) (l.filter fun x => key x ∈ k :: ks)
    have hfst : (l.filter fun x => key x ∈ k :: ks).filter (fun x => decide (key x = k)) = l.filter fun x => key x = k := by
      rw [List.filter_filter]
      exact List.filter_congr fun x _ => by simp +contextual
    have hsnd : (l.filter fun x => key x ∈ k :: ks).filter (fun x => !decide (key x = k)) = l.filter fun x => key x ∈ ks := by
      rw [List.filter_filter]
      refine List.filter_congr fun x _ => ?_
      by_cases hx : key x = k <;> simp [hx, hk]
    rw [hfst, hsnd] at hsplit
    exact ((ih hn).append_left _).trans hsplit

/-- The home warp and the page of a held thread's access. -/
def Held3.key (h : Held3) : Nat × Nat := (h.tid / 32, pageOf h.addr)

theorem Held3.key_eq_iff {x y : Held3} : x.key = y.key ↔ x.tid / 32 = y.tid / 32 ∧ pageOf x.addr = pageOf y.addr :=
  Prod.ext_iff

theorem heldParts_eq (hs : List Held3) :
    heldParts hs = (distinct (hs.map Held3.key)).map fun k => hs.filter fun h => h.key = k := by
  refine List.map_congr_left fun k _ => List.filter_congr fun h _ => ?_
  simp [Held3.key, Prod.ext_iff]

theorem heldParts_perm (hs : List Held3) : (heldParts hs).flatten.Perm hs := by
  have h := perm_flatten_filter_key Held3.key hs _ (nodup_distinct (hs.map Held3.key))
  rwa [← heldParts_eq, List.filter_eq_self.2 fun x hx => by simpa [mem_distinct] using ⟨x, hx, rfl⟩] at h

theorem mem_heldParts {hs part : List Held3} :
    part ∈ heldParts hs ↔ ∃ x ∈ hs, part = hs.filter fun h => h.key = x.key := by
  rw [heldParts_eq, List.mem_map]
  simp only [mem_distinct, List.mem_map, exists_exists_and_eq_and, eq_comm (b := part)]

/-- Held threads of one home warp and page are one part. -/
theorem heldParts_onePart {hs : List Held3} {k : Nat × Nat} (hne : hs ≠ []) (hk : ∀ x ∈ hs, x.key = k) :
    heldParts hs = [hs] := by
  rw [heldParts_eq, distinct_const (c := k) (by simpa using hne) (by simpa using hk), List.map_singleton,
    List.filter_eq_self.2 fun x hx => by simpa using hk x hx]

/-- A part holds the held threads of one home warp and page. -/
theorem heldParts_key {hs part : List Held3} (h : part ∈ heldParts hs) :
    ∃ k, part ≠ [] ∧ ∀ y, y ∈ part ↔ y ∈ hs ∧ y.key = k := by
  obtain ⟨x, hx, rfl⟩ := mem_heldParts.1 h
  exact ⟨x.key, List.ne_nil_of_mem (List.mem_filter.2 ⟨hx, by simp⟩), fun y => by simp⟩

/-- The lowest of an address and those of some held threads. -/
def lowestAddr (m : W64) (hs : List Held3) : W64 := hs.foldl (fun m x => if x.addr.toNat < m.toNat then x.addr else m) m

theorem lowestAddr_eq {m low : W64} {hs : List Held3} (hat : m = low ∨ ∃ x ∈ hs, x.addr = low) (hm : low.toNat ≤ m.toNat)
    (hle : ∀ x ∈ hs, low.toNat ≤ x.addr.toNat) : lowestAddr m hs = low := by
  induction hs generalizing m with
  | nil => simpa [lowestAddr] using hat
  | cons y hs ih =>
    obtain ⟨hy, hrest⟩ := List.forall_mem_cons.1 hle
    rw [lowestAddr, List.foldl_cons, ← lowestAddr]
    rcases hat with rfl | ⟨x, hx, hxl⟩
    · rw [if_neg (by omega)]
      exact ih (.inl rfl) hm hrest
    rcases List.mem_cons.1 hx with rfl | hx
    · refine ih (.inl ?_) (by split <;> omega) hrest
      split
      · exact hxl
      · exact BitVec.eq_of_toNat_eq (by rw [hxl] at *; omega)
    · exact ih (.inr ⟨x, hx, hxl⟩) (by split <;> omega) hrest

section
variable (s : State) (g : Group) (pc : W64) (kind : Nat) (nw : Bool)

/-- The class 3 condition of one part, whose first thread is `h` (log 25). -/
def partClass3 (h : Held3) (part : List Held3) (low : W64) : RecRef × State :=
  class3 s (coreOf g / 128) g.asn kind nw (some (g.gid.tag, g.gid.grp, h.tid / 32))
    { cls := 3, cause := h.cause, prec := true, fwd := false, rpl := true, lanes := laneMask (part.map (·.tid)),
      who := groupWho g h.tid, tag := g.gid.tag, pc := pc, addr := low, info := 0, hlp := hlpOf s g }

/-- The records of one part: each thread's is that of the part. -/
def partRecord : List Held3 → List (Nat × RecRef) × State
  | [] => ([], s)
  | h :: rest =>
    let r := partClass3 s g pc kind nw h (h :: rest) (lowestAddr h.addr rest)
    ((h :: rest).map fun x => (x.tid, r.1), r.2)

theorem partRecord_fst (part : List Held3) : (partRecord s g pc kind nw part).1.map (·.1) = part.map (·.tid) := by
  cases part with
  | nil => rfl
  | cons h rest => simp [partRecord]

theorem record3_eq_partRecord (hs : List Held3) : record3 s g pc kind nw hs = (heldParts hs).foldl (fun acc part =>
    (acc.1 ++ (partRecord acc.2 g pc kind nw part).1, (partRecord acc.2 g pc kind nw part).2)) ([], s) := by
  refine List.foldl_ext _ _ _ fun acc part _ => ?_
  cases part with
  | nil => exact Prod.ext (List.append_nil _).symm rfl
  | cons h rest => rfl

theorem record3_onePart {hs : List Held3} {k : Nat × Nat} (hne : hs ≠ []) (hk : ∀ x ∈ hs, x.key = k) :
    record3 s g pc kind nw hs = partRecord s g pc kind nw hs := by
  rw [record3_eq_partRecord, heldParts_onePart hne hk]
  rfl

theorem record3_eq_foldl (hs : List Held3) : record3 s g pc kind nw hs = (heldParts hs).foldl (fun acc part =>
    (acc.1 ++ (record3 acc.2 g pc kind nw part).1, (record3 acc.2 g pc kind nw part).2)) ([], s) := by
  rw [record3_eq_partRecord]
  refine List.foldl_ext _ _ _ fun acc part hpart => ?_
  obtain ⟨k, hne, hk⟩ := heldParts_key hpart
  rw [record3_onePart _ _ _ _ _ hne fun x hx => ((hk x).1 hx).2]

theorem tids_foldl_partRecord (parts : List (List Held3)) (acc : List (Nat × RecRef) × State) :
    (parts.foldl (fun acc part => (acc.1 ++ (partRecord acc.2 g pc kind nw part).1,
      (partRecord acc.2 g pc kind nw part).2)) acc).1.map (·.1) = acc.1.map (·.1) ++ parts.flatten.map (·.tid) := by
  induction parts generalizing acc with
  | nil => simp
  | cons part parts ih => simp [ih, partRecord_fst]

/-- The threads that get a record are those held. -/
theorem record3_tids (hs : List Held3) : ((record3 s g pc kind nw hs).1.map (·.1)).Perm (hs.map (·.tid)) := by
  rw [record3_eq_partRecord, tids_foldl_partRecord]
  exact (heldParts_perm hs).map _

variable {s g pc kind nw}

theorem record3_lowest {hs : List Held3} {h : Held3} {low : W64} (hhead : hs.head? = some h)
    (hk : ∀ x ∈ hs, x.tid / 32 = h.tid / 32 ∧ pageOf x.addr = pageOf h.addr) (hat : ∃ x ∈ hs, x.addr = low)
    (hle : ∀ x ∈ hs, low.toNat ≤ x.addr.toNat) : record3 s g pc kind nw hs =
      (hs.map fun x => (x.tid, (partClass3 s g pc kind nw h hs low).1), (partClass3 s g pc kind nw h hs low).2) := by
  obtain ⟨rest, rfl⟩ := List.head?_eq_some_iff.1 hhead
  have hlow : lowestAddr h.addr rest = low :=
    lowestAddr_eq (by simpa using hat) (hle h List.mem_cons_self) fun x hx => hle x (List.mem_cons_of_mem _ hx)
  rw [record3_onePart s g pc kind nw (List.cons_ne_nil _ _) fun x hx => Held3.key_eq_iff.2 (hk x hx), partRecord, hlow]

end

/-! ## Threads that are held (12 R222) -/

theorem OnlyGroup.trans {s s' s'' : State} {gid : Gid} (h : OnlyGroup s s' gid) (h' : OnlyGroup s' s'' gid) :
    OnlyGroup s s'' gid := by
  refine ⟨?_, fun x hx => (h'.2 x hx).trans (h.2 x hx)⟩
  rw [h'.1, h.1]

/-- Changes of single threads, one after the other, each of another thread. -/
theorem groupOf_foldl_modThreads {F : Nat → RecRef → Thread → Thread} (hF : ∀ n r t, (F n r t).tid = t.tid) {gid : Gid}
    {refs : List (Nat × RecRef)} (hn : (refs.map (·.1)).Nodup) {s : State} {g : Group} (hg : groupOf s gid = some g) :
    groupOf (refs.foldl (fun s x => updGroup s gid (modThreads [x.1] (F x.1 x.2))) s) gid =
      some { g with threads := g.threads.map fun t => ((refs.lookup t.tid).map fun r => F t.tid r t).getD t } := by
  induction refs generalizing s g with
  | nil => simpa using hg
  | cons x refs ih =>
    obtain ⟨n, r⟩ := x
    obtain ⟨hx, hn⟩ := List.nodup_cons.1 hn
    have hgone : refs.lookup n = none := List.lookup_eq_none_iff.2 fun y hy => by
      have hne : n ≠ y.1 := fun h => hx (List.mem_map.2 ⟨y, hy, h.symm⟩)
      simpa using hne
    have hg1 : groupOf (updGroup s gid (modThreads [n] (F n r))) gid = some (modThreads [n] (F n r) g) := by
      rw [groupOf_updGroup_same s gid (modThreads [n] (F n r)) fun _ => rfl, hg, Option.map_some]
    rw [List.foldl_cons, ih hn hg1, modThreads_threads, List.map_map]
    refine congrArg (fun ts => some { g with threads := ts }) (List.map_congr_left fun t _ => ?_)
    by_cases ht : t.tid = n
    · subst ht
      simp [hF, hgone]
    · simp [ht, List.lookup_cons, beq_false_of_ne ht]

section
variable (g : Group) (kind : Nat) (hs : List Held3)

/-- What a held thread waits for: the record of its own page. -/
def heldWait (tid : Nat) (ref : RecRef) : Wait :=
  .fault g.asn (((hs.find? fun h => h.tid = tid).map fun h => pageOf h.addr).getD 0) kind
    (((hs.find? fun h => h.tid = tid).map fun h => h.addr).getD 0) ref

theorem hold3_eq (s : State) (pc : W64) : hold3 s g pc kind hs = (record3 s g pc kind false hs).1.foldl (fun s x =>
    updGroup s g.gid (modThreads [x.1] fun t => { t with wait := heldWait g kind hs x.1 x.2 }))
    (record3 s g pc kind false hs).2 := rfl

theorem onlyGroup_hold3 (s : State) (pc : W64) :
    OnlyGroup (record3 s g pc kind false hs).2 (hold3 s g pc kind hs) g.gid := by
  rw [hold3_eq]
  exact foldl_keeps (OnlyGroup (record3 s g pc kind false hs).2 · g.gid) _
    (fun s x h => h.trans (onlyGroup_updGroup s g.gid (modThreads _ _) fun _ => rfl)) _ _ ⟨rfl, fun _ _ => rfl⟩

variable {hs}

theorem groupOf_hold3 {s : State} {pc : W64} {g' : Group} (hn : (hs.map (·.tid)).Nodup)
    (hg : groupOf (record3 s g pc kind false hs).2 g.gid = some g') : groupOf (hold3 s g pc kind hs) g.gid = some { g' with
      threads := g'.threads.map fun t => ((hs.find? fun h => h.tid = t.tid).map fun h => { t with
        wait := .fault g.asn (pageOf h.addr) kind h.addr
          (((record3 s g pc kind false hs).1.lookup t.tid).getD none) }).getD t } := by
  have htids := record3_tids s g pc kind false hs
  rw [hold3_eq, groupOf_foldl_modThreads (F := fun n r t => { t with wait := heldWait g kind hs n r }) (fun _ _ _ => rfl)
    (htids.nodup_iff.2 hn) hg]
  refine congrArg (fun ts => some { g' with threads := ts }) (List.map_congr_left fun t _ => ?_)
  cases hfind : hs.find? fun h => h.tid = t.tid with
  | none =>
    have hlook : (record3 s g pc kind false hs).1.lookup t.tid = none := List.lookup_eq_none_iff.2 fun x hx => by
      obtain ⟨h, hh, hhx⟩ := List.mem_map.1 (htids.mem_iff.1 (List.mem_map_of_mem hx))
      have hne : h.tid ≠ t.tid := by simpa using List.find?_eq_none.1 hfind h hh
      exact bne_iff_ne.2 fun ht => hne (hhx.trans ht.symm)
    simp [hlook]
  | some h =>
    have hht : h.tid = t.tid := by simpa using List.find?_some hfind
    have hlook : (record3 s g pc kind false hs).1.lookup t.tid ≠ none := fun hnone => by
      obtain ⟨x, hx, hxt⟩ := List.mem_map.1 (htids.mem_iff.2 (List.mem_map_of_mem (List.mem_of_find?_eq_some hfind)))
      exact absurd (hht.symm.trans hxt.symm) (by simpa using List.lookup_eq_none_iff.1 hnone x hx)
    obtain ⟨r, hr⟩ := Option.ne_none_iff_exists'.1 hlook
    simp [hr, heldWait, hfind]

end

/-! ## Class 4 conditions (09 R167) -/

theorem traps4_oneCause (s : State) (c : Ctx) {cause : Nat} {bad : List (Nat × Nat × W64)} (hne : bad ≠ [])
    (h : ∀ b ∈ bad, b.2.1 = cause) : c.traps4 s bad = takeTrap s c.cur.gid (bad.map fun b =>
      { tid := b.1, cls := 4, cause := cause, prec := true, pc := c.cur.pc, xpc := c.cur.pc, addr := b.2.2, info := 0 }) := by
  have hone : distinct (bad.map fun b => b.2.1) = [cause] := distinct_const (by simpa using hne) (List.forall_mem_map.2 h)
  rw [Ctx.traps4, hone, List.foldl_cons, List.foldl_nil, List.filter_eq_self.2 (by simpa using h), Ctx.trap, List.map_map]
  rfl

/-! ## The statement -/

/-- Settles O30: a translation is `translate_ok`; what an access in one page meets is its one piece's cause
(`decideAccess_cause`); the records are those of the parts (`record3_eq_partRecord`), which part the held threads
(`heldParts_perm`), and each thread is held once (`groupOf_foldl_modThreads`). -/
theorem translationFrame : Obligations.TranslationFrame := by
  unfold Obligations.TranslationFrame
  refine ⟨fun s s' eng ham asn va n a p unc h => sameMemory_translate h, ?access, ?records, ?held,
    fun s c cause bad => traps4_oneCause s c⟩
  case access =>
    intro s eng ham asn va n align a hn hpage
    refine ⟨decideAccess_not_canonical hpage, decideAccess_misaligned hn hpage, fun hc hal => ⟨?_, ?_, ?_, ?_⟩⟩
    · intro cause h hcause
      rw [decideAccess_cause hn hpage hc hal (decidePiece_untranslated h), if_neg (show cause ≠ notReady from hcause)]
      simp only [isCls3, Bool.and_eq_true, decide_eq_true_eq]
    · exact fun h => decideAccess_cause hn hpage hc hal (decidePiece_untranslated h)
    · exact fun p unc s' i h hi hnone hlow => decideAccess_cause hn hpage hc hal (decidePiece_unbacked h hi hnone hlow)
    · exact fun p unc s' i h hback hi hbusy hlow =>
        decideAccess_cause hn hpage hc hal (decidePiece_busy h hi hback hbusy hlow)
  case records =>
    intro s g pc kind nw hs
    refine ⟨record3_eq_foldl s g pc kind nw hs, heldParts_perm hs, fun part hpart => ?_, fun h low hhead hk hat hle =>
      ⟨_, _, rfl, record3_lowest hhead hk hat hle⟩⟩
    obtain ⟨k, hne, hk⟩ := heldParts_key hpart
    refine ⟨hne, fun x hx y => (hk y).trans (and_congr_right fun _ => ?_)⟩
    rw [← ((hk x).1 hx).2]
    exact Prod.ext_iff
  case held =>
    rintro s s' g g' pc kind hs refs hn hrec hg'
    obtain rfl : (record3 s g pc kind false hs).1 = refs := congrArg Prod.fst hrec
    obtain rfl : (record3 s g pc kind false hs).2 = s' := congrArg Prod.snd hrec
    exact ⟨onlyGroup_hold3 g kind hs s pc, groupOf_hold3 g kind hn hg'⟩

end Sys2Proof.Machine
end

section
/-! What keeps the invariant of memory: folds, and answers that hold a state (O59). -/

namespace Sys2Proof.Machine

open Sys2Proof

/-! ## Folds and answers -/

theorem foldl_inv {β : Type} {f : State → β → State} {l : List β} {s : State} (hf : ∀ a b, a.Inv → (f a b).Inv)
    (h : s.Inv) : (l.foldl f s).Inv := foldl_keeps State.Inv f hf l s h

theorem foldl_inv_snd {α β : Type} {f : α × State → β → α × State} {l : List β} {p : α × State}
    (hf : ∀ a b, a.2.Inv → (f a b).2.Inv) (h : p.2.Inv) : (l.foldl f p).2.Inv :=
  foldl_keeps (fun x : α × State => x.2.Inv) f hf l p h

theorem foldl_inv_third {α β γ : Type} {f : α × γ × State → β → α × γ × State} {l : List β} {p : α × γ × State}
    (hf : ∀ a b, a.2.2.Inv → (f a b).2.2.Inv) (h : p.2.2.Inv) : (l.foldl f p).2.2.Inv :=
  foldl_keeps (fun x : α × γ × State => x.2.2.Inv) f hf l p h

theorem mem_foldl_inv {β : Type} {f : MemSys → β → MemSys} {l : List β} {m : MemSys} (hf : ∀ a b, a.Inv → (f a b).Inv)
    (h : m.Inv) : MemSys.Inv (l.foldl f m) := foldl_keeps MemSys.Inv f hf l m h

theorem inv_of_pair {α : Type} {p : α × State} {a : α} {s : State} (e : p = (a, s)) (h : p.2.Inv) : s.Inv := by
  subst e; exact h

theorem inv_of_third {α β : Type} {p : α × β × State} {a : α} {b : β} {s : State} (e : p = (a, b, s)) (h : p.2.2.Inv) :
    s.Inv := by
  subst e; exact h

/-- The state of an optional answer keeps the invariant. -/
def OptInv : Option State → Prop
  | some s => s.Inv
  | none => True

theorem inv_of_some {o : Option State} {s : State} (e : o = some s) (h : OptInv o) : s.Inv := by subst e; exact h

theorem optInv_getD {o : Option State} {s : State} (h : OptInv o) (hs : s.Inv) : (o.getD s).Inv := by
  cases o with
  | none => exact hs
  | some t => exact h

/-- So does the state of an optional answer with a value. -/
def OptSndInv {α : Type} : Option (α × State) → Prop
  | some x => x.2.Inv
  | none => True

theorem inv_of_some_pair {α : Type} {o : Option (α × State)} {a : α} {s : State} (e : o = some (a, s))
    (h : OptSndInv o) : s.Inv := by subst e; exact h

theorem optInv_map {α : Type} {o : Option (α × State)} {f : α × State → State} (hf : ∀ x, x.2.Inv → (f x).Inv)
    (h : OptSndInv o) : OptInv (o.map f) := by
  cases o with
  | none => trivial
  | some x => exact hf x h

/-- The next state of an outcome keeps the invariant. -/
def NextInv : Host.Outcome State Fault Refusal → Prop
  | .next s => s.Inv
  | _ => True

/-- Every state that an access to a save area may end in keeps the invariant. -/
def AreaRes.Inv : AreaRes → Prop
  | .ok _ s | .cls3 _ _ s | .cls4 _ _ s | .waits s => s.Inv

theorem AreaRes.inv_ok {r : AreaRes} {ps : List (Nat × Nat)} {s : State} (e : r = .ok ps s) (h : r.Inv) : s.Inv := by
  subst e; exact h

theorem AreaRes.inv_cls3 {r : AreaRes} {c : Nat} {v : W64} {s : State} (e : r = .cls3 c v s) (h : r.Inv) : s.Inv := by
  subst e; exact h

theorem AreaRes.inv_cls4 {r : AreaRes} {c : Nat} {v : W64} {s : State} (e : r = .cls4 c v s) (h : r.Inv) : s.Inv := by
  subst e; exact h

theorem AreaRes.inv_waits {r : AreaRes} {s : State} (e : r = .waits s) (h : r.Inv) : s.Inv := by
  subst e; exact h

end Sys2Proof.Machine
end

section
/-! The invariant of memory over records, groups, save areas and overflow rows (O59). -/

namespace Sys2Proof.Machine

open Sys2Proof

theorem wakeAll_inv {s : State} {ws : List (Nat × Byte)} (h : s.Inv) : (wakeAll s ws).Inv := h

theorem putBits_inv {s : State} {w : Writer} {fs : List (Nat × Nat × Nat × Nat)} (h : s.Inv) : (putBits s w fs).Inv :=
  applyWrite_inv h ..

theorem fillLine_inv {s : State} {c line : Nat} (h : s.Inv) : (fillLine s c line).Inv := h.of_eq rfl rfl

theorem updDie_inv {s : State} {d : Nat} {f : Die → Die} (h : s.Inv) : (updDie s d f).Inv := h

theorem updHam_inv {s : State} {h : Nat} {f : Hamlet → Hamlet} (hs : s.Inv) : (updHam s h f).Inv := hs

theorem updStream_inv {s : State} {n : Nat} {f : Stream → Stream} (h : s.Inv) : (updStream s n f).Inv := h

theorem updBox_inv {s : State} {core b : Nat} {f : Mailbox → Mailbox} (h : s.Inv) : (updBox s core b f).Inv := h

theorem freshId_inv {s : State} (h : s.Inv) : (freshId s).2.Inv := h

theorem putRecord_inv {s : State} {die : Nat} {b : Bytes} {o : Option OpenRec} (h : s.Inv) :
    (putRecord s die b o).2.Inv :=
  updDie_inv (writeLoc_inv h ..)

theorem postRecord_inv {s : State} {die : Nat} {b : Bytes} (h : s.Inv) : (postRecord s die b).Inv := by
  unfold postRecord
  split
  · exact updDie_inv h
  · exact putRecord_inv h

theorem postNotice_inv {s : State} {die : Nat} {b : Bytes} {o : OpenRec} (h : s.Inv) :
    (postNotice s die b o).2.Inv := by
  unfold postNotice
  dsimp only
  split
  · exact h
  · dsimp only
    exact putRecord_inv h

theorem flushRecords_inv {die m : Nat} {s : State} (h : s.Inv) : (flushRecords die m s).Inv := by
  induction m generalizing s with
  | zero => exact h
  | succ n ih =>
    unfold flushRecords
    split
    · exact h
    · split
      · exact h
      · exact ih (putRecord_inv (updDie_inv h))

theorem class3_inv {s : State} {die asn kind : Nat} {nw : Bool} {hw : Option (Nat × Nat × Nat)} {r : FRec} (h : s.Inv) :
    (class3 s die asn kind nw hw r).2.Inv := by
  unfold class3
  dsimp only
  split
  · dsimp only
    split
    · exact writeLoc_inv (writeLoc_inv h ..) ..
    · exact writeLoc_inv h ..
  · split
    · exact h
    · dsimp only
      exact putRecord_inv h

theorem updGang_inv {s : State} {tag : Nat} {f : Gang → Gang} (h : s.Inv) : (updGang s tag f).Inv := h

theorem updThread_inv {s : State} {g : Gid} {tid : Nat} {f : Thread → Thread} (h : s.Inv) :
    (updThread s g tid f).Inv :=
  updGroup_inv h ..

theorem coverThreads_inv {s : State} {g : Gid} {tids : List Nat} (h : s.Inv) : (coverThreads s g tids).Inv :=
  updGroup_inv (by exact coverPast_inv (coverNow_inv h) ..) ..

theorem progress_inv {s : State} {g : Group} (h : s.Inv) : (progress s g).Inv := h

theorem areaPages_inv {eng : Nat} {g : Group} {a : Acc} {m k j : Nat} {xs : List (Nat × Nat)} {s : State}
    (h : s.Inv) : (areaPages eng g a m k j xs s).Inv := by
  induction m generalizing k j xs s with
  | zero => exact h
  | succ n ih =>
    unfold areaPages
    dsimp only
    split
    · exact h
    · split
      · have h1 := inv_of_pair ‹_› (decideAccess_inv h ..)
        split
        · exact h1
        · exact ih h1
      all_goals exact inv_of_pair ‹_› (decideAccess_inv h ..)

theorem areaWriteBy_inv {s : State} {g : Group} {core : Option Nat} {src : Option (Nat × Agent)}
    {pages : List (Nat × Nat)} {ws : List (Nat × Byte)} (h : s.Inv) : (areaWriteBy s g core src pages ws).Inv :=
  applyWrite_inv h ..

theorem areaWrite_inv {s : State} {g : Group} {pages : List (Nat × Nat)} {ws : List (Nat × Byte)} (h : s.Inv) :
    (areaWrite s g pages ws).Inv :=
  areaWriteBy_inv h

theorem dropReplies_inv {s : State} {tag : Nat} (h : s.Inv) : (dropReplies s tag).Inv := h

theorem stopGang_inv {s : State} {tag cause : Nat} (h : s.Inv) : (stopGang s tag cause).Inv :=
  updGang_inv (dropReplies_inv h)

theorem areaRecord_inv {s : State} {g : Group} {cause : Nat} {addr : W64} {store : Bool} (h : s.Inv) :
    (areaRecord s g cause addr store).2.Inv :=
  class3_inv h

theorem areaEnds_inv {s : State} {g : Group} {cause : Nat} {addr : W64} (h : s.Inv) : (areaEnds s g cause addr).Inv :=
  stopGang_inv (postRecord_inv h)

theorem holdArea_inv {s : State} {gid : Gid} {ref : RecRef} {addr : W64} (h : s.Inv) :
    (holdArea s gid ref addr).Inv :=
  updGroup_inv h ..

theorem areaMeets_inv {s : State} {g : Group} {store : Bool} {x : AreaRes} (h : s.Inv) (hx : x.Inv) :
    (areaMeets s g store x).Inv := by
  unfold areaMeets
  dsimp only
  split
  · exact h
  · exact holdArea_inv (areaRecord_inv hx)
  · exact holdArea_inv hx
  · exact areaEnds_inv hx

theorem areaPut_inv {s : State} {g : Group} {off : Nat} {b : Bytes} (h : s.Inv) : (areaPut s g off b).Inv := by
  unfold areaPut
  dsimp only
  split
  · exact updGroup_inv h ..
  · split
    · have h1 := AreaRes.inv_ok ‹_› (areaPages_inv h)
      exact areaWrite_inv h1
    · have h1 := AreaRes.inv_cls4 ‹_› (areaPages_inv h)
      exact areaEnds_inv h1
    · exact updGroup_inv (areaMeets_inv h (areaPages_inv h)) ..

theorem flushPuts_inv {s : State} {gid : Gid} (h : s.Inv) : (flushPuts s gid).Inv := by
  unfold flushPuts
  dsimp only
  split
  · exact h
  · refine foldl_inv (fun _ _ h1 => ?_) (updGroup_inv h ..)
    split
    · exact areaPut_inv h1
    · exact h1

theorem saveImage_inv {s : State} {g : Group} {full : Bool} {keep : Nat → Nat → Bool} (h : s.Inv) :
    (saveImage s g full keep).Inv := by
  unfold saveImage
  dsimp only
  split
  · have h1 := AreaRes.inv_ok ‹_› (areaPages_inv h)
    exact areaWrite_inv h1
  · exact areaPages_inv h

theorem depositRow_inv {s : State} {g : Group} {tid r : Nat} {v : W32} (h : s.Inv) : (depositRow s g tid r v).Inv :=
  areaPut_inv h

theorem putPend_inv {s : State} {g : Group} (h : s.Inv) : (putPend s g).Inv := areaPut_inv h

theorem settleWord_inv {s0 : State} {was : List (Nat × Nat × W32)} {gid : Gid} {s : State} {x : Nat × Nat × W32}
    (h : s.Inv) : (settleWord s0 was gid s x).Inv := by
  unfold settleWord
  dsimp only
  split
  · exact h
  · split
    · exact h
    · split
      · exact areaPut_inv h
      · split
        · exact h
        · split
          · exact h
          · split
            · exact updThread_inv h
            · exact h

theorem readOver_inv {s : State} {gid : Gid} {w : Warp} {l : List Nat} (h : s.Inv) :
    (readOver s gid w l).2.Inv := by
  induction l generalizing s with
  | nil => exact h
  | cons x xs ih =>
    unfold readOver
    dsimp only
    split
    · exact h
    · split
      · refine ih ?_
        refine foldl_inv_snd (fun _ _ h1 => ?_) h
        split
        · exact h1
        · split
          · have h2 := AreaRes.inv_ok ‹_› (areaPages_inv h1)
            split
            · exact areaEnds_inv h2
            · exact h2
          · exact areaMeets_inv h1 (areaPages_inv h1)
      · refine foldl_inv_snd (fun _ _ h1 => ?_) h
        split
        · exact h1
        · split
          · have h2 := AreaRes.inv_ok ‹_› (areaPages_inv h1)
            split
            · exact areaEnds_inv h2
            · exact h2
          · exact areaMeets_inv h1 (areaPages_inv h1)

theorem settleRows_inv {s0 s : State} (h : s.Inv) : (settleRows s0 s).Inv :=
  foldl_inv (fun _ _ h1 => foldl_inv (fun _ _ h2 => settleWord_inv h2) h1) h

theorem Ctx.upd_inv {c : Ctx} {s : State} {f : Group → Group} (h : s.Inv) : (c.upd s f).Inv := updGroup_inv h ..

theorem saveAll_inv {l : List Gid} {s : State} (h : s.Inv) : (saveAll l s).Inv := by
  induction l generalizing s with
  | nil => exact h
  | cons x xs ih =>
    unfold saveAll
    dsimp only
    split
    · exact ih h
    · split
      · exact ih (updGroup_inv h ..)
      · split
        · have h1 := AreaRes.inv_ok ‹_› (saveImage_inv h)
          exact ih (updGroup_inv (by exact h1) ..)
        · have h1 := AreaRes.inv_cls4 ‹_› (saveImage_inv h)
          exact areaEnds_inv h1
        · exact ih (areaMeets_inv h (saveImage_inv h))

theorem failGang_inv {s : State} {tag cause : Nat} (h : s.Inv) : (failGang s tag cause).Inv :=
  saveAll_inv (updGang_inv h)

theorem forwardTraps_inv {s : State} {g : Group} {cs : List Charge} (h : s.Inv) : (forwardTraps s g cs).Inv :=
  failGang_inv (foldl_inv (fun _ _ h1 => postRecord_inv h1) h)

theorem doubleTrap_inv {s : State} {g : Group} {cs : List Charge} {x : Charge} (h : s.Inv) :
    (doubleTrap s g cs x).Inv :=
  postRecord_inv (failGang_inv h)

theorem holdOne_inv {s : State} {gid : Gid} {asn tid page kind : Nat} {addr : W64} {ref : RecRef} (h : s.Inv) :
    (holdOne s gid asn tid page kind addr ref).Inv :=
  updGroup_inv h ..

theorem record3_inv {s : State} {g : Group} {pc : W64} {kind : Nat} {nw : Bool} {hs : List Held3} (h : s.Inv) :
    (record3 s g pc kind nw hs).2.Inv := by
  unfold record3
  refine foldl_inv_snd (fun _ _ h1 => ?_) h
  dsimp only
  split
  · exact h1
  · exact class3_inv h1

theorem hold3_inv {s : State} {g : Group} {pc : W64} {kind : Nat} {hs : List Held3} (h : s.Inv) :
    (hold3 s g pc kind hs).Inv :=
  foldl_inv (fun _ _ h1 => holdOne_inv h1) (record3_inv h)

theorem takeTrap_inv {s : State} {gid : Gid} {cs : List Charge} (h : s.Inv) : (takeTrap s gid cs).Inv := by
  unfold takeTrap
  dsimp only
  split
  · exact h
  · exact h
  · split
    · exact h
    · split
      · exact doubleTrap_inv h
      · split
        · exact forwardTraps_inv h
        · split
          · have h1 := inv_of_pair ‹_› (checkTarget_inv h ..)
            exact updGroup_inv h1 ..
          · have h1 := inv_of_pair ‹_› (checkTarget_inv h ..)
            exact hold3_inv (updGroup_inv h1 ..)
          · have h1 := inv_of_pair ‹_› (checkTarget_inv h ..)
            exact forwardTraps_inv h1
          · have h1 := inv_of_pair ‹_› (checkTarget_inv h ..)
            exact updGroup_inv h1 ..

theorem Ctx.trap_inv {c : Ctx} {s : State} {cls cause : Nat} {who : List (Nat × W64 × W64)} (h : s.Inv) :
    (c.trap s cls cause who).Inv :=
  takeTrap_inv h

theorem Ctx.trapAct_inv {c : Ctx} {s : State} {cause : Nat} (h : s.Inv) : (c.trapAct s cause).Inv := Ctx.trap_inv h

theorem Ctx.trapMill_inv {c : Ctx} {s : State} {cause : Nat} {tids : List Nat} {addr info : W64} (h : s.Inv) :
    (c.trapMill s cause tids addr info).Inv :=
  Ctx.trap_inv h

theorem Ctx.transfer_inv {c : Ctx} {s : State} {mark : Bool} {target : Thread → W64} {go : State → State} (h : s.Inv)
    (hgo : ∀ (a : State), a.Inv → (go a).Inv) : (c.transfer s mark target go).Inv := by
  unfold Ctx.transfer
  dsimp only
  split
  · split
    · exact Ctx.trap_inv (foldl_inv_snd (fun _ _ h1 => checkTarget_inv h1 ..) h)
    · exact foldl_inv_snd (fun _ _ h1 => checkTarget_inv h1 ..) h
  · split
    · exact hold3_inv (foldl_inv_snd (fun _ _ h1 => checkTarget_inv h1 ..) h)
    · split
      · exact foldl_inv_snd (fun _ _ h1 => checkTarget_inv h1 ..) h
      · exact hgo _ (foldl_inv_snd (fun _ _ h1 => checkTarget_inv h1 ..) h)

theorem tryRecWrite_inv {s : State} {w : RecWrite} (h : s.Inv) : (tryRecWrite s w).Inv := by
  unfold tryRecWrite
  dsimp only
  split
  · have h1 := inv_of_pair ‹_› (decideAccess_inv h ..)
    exact h1
  · have h1 := inv_of_pair ‹_› (decideAccess_inv h ..)
    split
    · exact postRecord_inv h1
    · exact acquireAnswered_inv _ (by exact learnTo_inv (applyWrite_inv h1 ..) ..)
  · have h1 := inv_of_pair ‹_› (decideAccess_inv h ..)
    exact postRecord_inv h1

theorem writeRecord_inv {s : State} {w : RecWrite} (h : s.Inv) : (writeRecord s w).Inv := by
  unfold writeRecord
  split
  · exact h
  · exact tryRecWrite_inv h

theorem flushRecords18_inv {s : State} (h : s.Inv) : (flushRecords18 s).Inv :=
  foldl_inv (fun _ _ h1 => writeRecord_inv h1) h

theorem ownState_inv {s : State} {g : Group} {st cause : Nat} (h : s.Inv) : (ownState s g st cause).Inv := by
  unfold ownState
  split
  · exact h
  · exact writeRecord_inv h

theorem unbindRecord_inv {s : State} {gid : Gid} (h : s.Inv) : (unbindRecord s gid).Inv := updGroup_inv h ..

theorem unblock_inv {s : State} {die : Nat} (h : s.Inv) : (unblock s die).Inv := by
  unfold unblock
  dsimp only
  split
  · exact updDie_inv h
  · exact h

theorem unblockFreed_inv {before after : State} {core : Nat} (hafter : after.Inv) :
    (unblockFreed before after core).Inv := by
  unfold unblockFreed
  split
  · exact unblock_inv hafter
  · exact hafter

theorem parkGroup_inv {s : State} {gid : Gid} {full : Bool} {place : Place} (h : s.Inv) :
    (parkGroup s gid full place).Inv := by
  unfold parkGroup
  dsimp only
  split
  · exact h
  · split
    · exact h
    · split
      · have h1 := AreaRes.inv_ok ‹_› (saveImage_inv h)
        exact ownState_inv (unblockFreed_inv (updGroup_inv (by exact h1) ..))
      · split
        · exact areaMeets_inv h (saveImage_inv h)
        · exact updGroup_inv (areaMeets_inv h (saveImage_inv h)) ..

theorem markSaved_inv {s : State} {tag : Nat} (h : s.Inv) : (markSaved s tag).Inv := by
  unfold markSaved
  split
  · exact updGang_inv h
  · exact h

theorem keptSave_inv {s : State} {gid : Gid} (h : s.Inv) : (keptSave s gid).Inv := by
  unfold keptSave
  split
  · exact h
  · split
    · exact markSaved_inv (parkGroup_inv h)
    · exact h

end Sys2Proof.Machine
end

section
/-! The invariant of memory over the instructions of a core: operands, results, transfers, loads, stores, atomics, waits
and mailboxes (O59). -/

namespace Sys2Proof.Machine

open Sys2Proof

theorem Ctx.result_inv {c : Ctx} {s : State} {d : BitVec 8} {w : Bool} {r : Result}
    {f : Thread → Thread} {wr : Thread → Bool} (h : s.Inv) :
    (c.result s d w r f wr).Inv :=
  Ctx.upd_inv h

theorem Ctx.masks_inv {c : Ctx} {s : State} {d : Nat} {b : Thread → Bool} {f : Thread → Thread}
    (h : s.Inv) : (c.masks s d b f).Inv :=
  Ctx.done_inv h ..

theorem Ctx.sparing_inv {c : Ctx} {s : State} {res : Bool} {bad : List Nat} {go : Ctx → State} (h : s.Inv)
    (hgo : ∀ (a : Ctx), (go a).Inv) : (c.sparing s res bad go).Inv := by
  unfold Ctx.sparing
  dsimp only
  split
  · exact hgo _
  · refine Ctx.trap_inv ?_
    split
    · exact Ctx.skip_inv h ..
    · exact hgo _

theorem runCore_inv {s : State} {i : Instr} {g : BitVec 5} {res : Bool} {chk : Ctx → Bool} {body : Ctx → State}
    (h : s.Inv) (hbody : ∀ (a : Ctx), (body a).Inv) : (runCore s i g res chk body).Inv := by
  unfold runCore
  split
  · exact h
  · split
    · exact Ctx.skip_inv h ..
    · split
      · exact Ctx.trapAct_inv h
      · split
        · exact Ctx.trapAct_inv h
        · exact Ctx.sparing_inv h (fun _ => hbody _)

theorem op1_inv {s : State} {i : Instr} {f : LongForm} {wd ws : Bool} {aff : Ctx → Option (W32 × W32)}
    {v : Thread → Nat} (h : s.Inv) : (op1 s i f wd ws aff v).Inv :=
  runCore_inv h (fun _ => Ctx.result_inv h)

theorem op2_inv {s : State} {i : Instr} {f : LongForm} {wd wa wb : Bool} {aff : Ctx → Option (W32 × W32)}
    {v : Thread → Nat} (h : s.Inv) : (op2 s i f wd wa wb aff v).Inv :=
  runCore_inv h (fun _ => Ctx.result_inv h)

theorem op3_inv {s : State} {i : Instr} {f : LongForm} {wd wa wb wc : Bool} {aff : Ctx → Option (W32 × W32)}
    {v : Thread → Nat} (h : s.Inv) : (op3 s i f wd wa wb wc aff v).Inv :=
  runCore_inv h (fun _ => Ctx.result_inv h)

theorem movOp_inv {s : State} {i : Instr} {f : LongForm} (h : s.Inv) : (movOp s i f).Inv := op1_inv h

theorem iabsOp_inv {s : State} {i : Instr} {f : LongForm} (h : s.Inv) : (iabsOp s i f).Inv := op1_inv h

theorem inegOp_inv {s : State} {i : Instr} {f : LongForm} (h : s.Inv) : (inegOp s i f).Inv := op1_inv h

theorem logicOp_inv {s : State} {i : Instr} {f : LongForm} {op : Nat → Nat → Nat} (h : s.Inv) :
    (logicOp s i f op).Inv :=
  op2_inv h

theorem notOp_inv {s : State} {i : Instr} {f : LongForm} (h : s.Inv) : (notOp s i f).Inv := op1_inv h

theorem shiftOp_inv {s : State} {i : Instr} {f : LongForm} {aff : Ctx → Option (W32 × W32)}
    {op : Nat → Nat → Nat → Nat} (h : s.Inv) : (shiftOp s i f aff op).Inv :=
  op2_inv h

theorem popcOp_inv {s : State} {i : Instr} {f : LongForm} (h : s.Inv) : (popcOp s i f).Inv := op1_inv h

theorem clzOp_inv {s : State} {i : Instr} {f : LongForm} (h : s.Inv) : (clzOp s i f).Inv := op1_inv h

theorem brevOp_inv {s : State} {i : Instr} {f : LongForm} (h : s.Inv) : (brevOp s i f).Inv := op1_inv h

theorem maskOp2_inv {s : State} {i : Instr} {f : LongForm} {op : Bool → Bool → Bool} (h : s.Inv) :
    (maskOp2 s i f op).Inv :=
  runCore_inv h (fun _ => Ctx.masks_inv h)

theorem maskOp1_inv {s : State} {i : Instr} {f : LongForm} {op : Bool → Bool} (h : s.Inv) : (maskOp1 s i f op).Inv :=
  runCore_inv h (fun _ => Ctx.masks_inv h)

theorem kpopOp_inv {s : State} {i : Instr} {f : LongForm} (h : s.Inv) : (kpopOp s i f).Inv :=
  runCore_inv h (fun _ => Ctx.result_inv h)

theorem freshWarp_inv {s : State} {gid : Gid} {tids : List Nat} (h : s.Inv) : OptInv (freshWarp s gid tids) := by
  unfold freshWarp
  dsimp only
  split
  · exact trivial
  · split
    · exact trivial
    · exact updGroup_inv h ..

theorem freshWarps32_inv {gid : Gid} {parts : List (List Nat)} {s : State} (h : s.Inv) :
    (freshWarps32 gid parts s).Inv :=
  foldl_inv (fun _ _ h1 => optInv_getD (freshWarp_inv h1) h1) h

theorem compactAt_inv {s : State} {gid : Gid} {mine : List Nat} {pc : W64} (h : s.Inv) :
    (compactAt s gid mine pc).Inv := by
  unfold compactAt
  dsimp only
  split
  · exact h
  · split
    · exact h
    · exact unblockFreed_inv (freshWarps32_inv h)

theorem Ctx.afterBranch_inv {c : Ctx} {s : State} (h : s.Inv) : (c.afterBranch s).Inv := by
  unfold Ctx.afterBranch
  dsimp only
  split
  · exact h
  · split
    · exact h
    · exact foldl_inv (fun _ _ h1 => compactAt_inv h1) h

theorem Ctx.taken_inv {c : Ctx} {s : State} {target : Thread → W64} {f : Thread → Thread} (h : s.Inv) :
    (c.taken s target f).Inv :=
  Ctx.afterBranch_inv (Ctx.upd_inv (Ctx.upd_inv h))

theorem braOp_inv {s : State} {i : Instr} {g : BitVec 5} {off : Int} (h : s.Inv) : (braOp s i g off).Inv :=
  runCore_inv h (fun _ => Ctx.transfer_inv h (fun _ h1 => Ctx.taken_inv h1))

theorem execBrx_inv {f : LongForm} {s : State} (h : s.Inv) : NextInv (execBrx f s) :=
  runCore_inv h (fun _ => Ctx.transfer_inv h (fun _ h1 => Ctx.taken_inv h1))

theorem Ctx.stackFault_inv {c : Ctx} {s : State} {cause : Nat} {bad : Thread → Bool} {go : State} (h : s.Inv)
    (hgo : go.Inv) : (c.stackFault s cause bad go).Inv := by
  unfold Ctx.stackFault
  split
  · exact Ctx.trapAct_inv h
  · exact hgo

theorem callOp_inv {s : State} {i : Instr} {g : BitVec 5} {off : Int} (h : s.Inv) : (callOp s i g off).Inv :=
  runCore_inv h (fun _ => Ctx.stackFault_inv h (Ctx.transfer_inv h (fun _ h1 => Ctx.taken_inv h1)))

theorem retOp_inv {s : State} {i : Instr} {g : BitVec 5} {chk : Ctx → Bool} {addr : Option (Thread → W64)} (h : s.Inv) :
    (retOp s i g chk addr).Inv :=
  runCore_inv h (fun _ => Ctx.stackFault_inv h (Ctx.transfer_inv h (fun _ h1 => Ctx.taken_inv h1)))

theorem meetOp_inv {s : State} {i : Instr} {g : BitVec 5} {off : Int} (h : s.Inv) : (meetOp s i g off).Inv :=
  runCore_inv h (fun _ => Ctx.stackFault_inv h (Ctx.done_inv h ..))

theorem execMeetingRelease_inv {tag grp : Nat} {addr : W64} {s : State} (h : s.Inv) :
    NextInv (execMeetingRelease tag grp addr s) := by
  unfold execMeetingRelease
  show State.Inv _
  dsimp only
  split
  · exact h
  · split
    · exact progress_inv (unblockFreed_inv (updGroup_inv h ..))
    · exact h

theorem giveAddress_inv {s : State} {gid : Gid} {num : Nat} {pc : W64} (h : s.Inv) : (giveAddress s gid num pc).Inv :=
  updGroup_inv h ..

theorem moveWarp_inv {s : State} {gid : Gid} {num : Nat} {cur : W64} (h : s.Inv) : (moveWarp s gid num cur).Inv := by
  unfold moveWarp
  split
  · exact h
  · split
    · split
      · exact h
      · exact giveAddress_inv h
    · exact h

theorem yieldOp_inv {s : State} {i : Instr} {g : BitVec 5} (h : s.Inv) : (yieldOp s i g).Inv := by
  unfold yieldOp
  refine runCore_inv h (fun _ => ?_)
  split
  · exact giveAddress_inv (Ctx.done_inv h ..)
  · exact Ctx.done_inv h ..

theorem execFairnessMove_inv {tag grp warp : Nat} {s : State} (h : s.Inv) :
    NextInv (execFairnessMove tag grp warp s) := by
  unfold execFairnessMove
  show State.Inv _
  split
  · exact h
  · split
    · exact h
    · split
      · split
        · exact moveWarp_inv h
        · exact h
      · exact h

theorem nopOp_inv {s : State} {i : Instr} {g : BitVec 5} (h : s.Inv) : (nopOp s i g).Inv :=
  runCore_inv h (fun _ => Ctx.done_inv h ..)

theorem hintOp_inv {s : State} (h : s.Inv) : (hintOp s).Inv := by
  unfold hintOp
  split
  · exact h
  · exact Ctx.done_inv h ..

theorem exitOp_inv {s : State} {i : Instr} {g : BitVec 5} (h : s.Inv) : (exitOp s i g).Inv :=
  runCore_inv h (fun _ => keptSave_inv (progress_inv (unblockFreed_inv (Ctx.upd_inv (Ctx.done_inv h ..)))))

theorem srdOp_inv {s : State} {i : Instr} {f : LongForm} (h : s.Inv) : (srdOp s i f).Inv :=
  runCore_inv h (fun _ => Ctx.result_inv h)

theorem swrOp_inv {s : State} {i : Instr} {f : LongForm} (h : s.Inv) : (swrOp s i f).Inv := by
  unfold swrOp
  refine runCore_inv h (fun _ => ?_)
  dsimp only
  split
  · exact Ctx.upd_inv (Ctx.done_inv h ..)
  · exact Ctx.done_inv h ..

theorem execReggrow_inv {f : LongForm} {s : State} (h : s.Inv) : NextInv (execReggrow f s) := by
  unfold execReggrow
  show State.Inv _
  refine runCore_inv h (fun _ => ?_)
  dsimp only
  split
  · exact Ctx.masks_inv h
  · split
    · exact Ctx.masks_inv h
    · split
      · exact Ctx.upd_inv (Ctx.masks_inv h)
      · exact Ctx.upd_inv (freshId_inv h)

theorem execRegshrink_inv {f : LongForm} {s : State} (h : s.Inv) : NextInv (execRegshrink f s) :=
  runCore_inv h (fun _ => unblockFreed_inv (Ctx.upd_inv (Ctx.done_inv h ..)))

theorem execReggrowGrant_inv {tag grp : Nat} {s : State} (h : s.Inv) : NextInv (execReggrowGrant tag grp s) := by
  unfold execReggrowGrant
  show State.Inv _
  split
  · exact h
  · split
    · exact h
    · split
      · exact updGroup_inv h ..
      · exact h

theorem execReggrowFail_inv {core : Nat} {s : State} (h : s.Inv) : NextInv (execReggrowFail core s) := by
  unfold execReggrowFail
  show State.Inv _
  split
  · exact h
  · split
    · exact updGroup_inv h ..
    · exact h

theorem fpResult_inv {s : State} {i : Instr} {f : LongForm} {nsrc : Nat} {v : Thread → Nat × BitVec 4} (h : s.Inv) :
    (fpResult s i f nsrc v).Inv :=
  runCore_inv h (fun _ => Ctx.result_inv h)

theorem specialOp_inv {s : State} {i : Instr} {f : LongForm} {fn : SpFn} (h : s.Inv) : (specialOp s i f fn).Inv :=
  fpResult_inv h

theorem Ctx.decide_inv {c : Ctx} {s : State} {va : W64} {n align : Nat} {a : Acc} (h : s.Inv) :
    (c.decide s va n align a).2.Inv :=
  decideAccess_inv h ..

theorem Ctx.decideParts_inv {c : Ctx} {s : State} {parts : List (Nat × W64 × Nat × Nat)} {align : Nat} {a : Acc}
    (h : s.Inv) : (c.decideParts s parts align a).2.Inv :=
  foldl_inv_snd (fun _ _ h1 => Ctx.decide_inv h1) h

theorem Ctx.decideLanes_inv {c : Ctx} {s : State} {va : Thread → W64} {n : Thread → Nat} {align : Nat} {a : Acc}
    (h : s.Inv) : (c.decideLanes s va n align a).2.Inv :=
  Ctx.decideParts_inv h

theorem Ctx.traps4_inv {c : Ctx} {s : State} {bad : List (Nat × Nat × W64)} (h : s.Inv) : (c.traps4 s bad).Inv :=
  foldl_inv (fun _ _ h1 => Ctx.trap_inv h1) h

theorem Ctx.perform_inv {c : Ctx} {s : State} {res : Bool} {kind : Nat} {ls : List Lane} {go : Ctx → State → State}
    (h : s.Inv) (hgo : ∀ (a : Ctx) (b : State), b.Inv → (go a b).Inv) : (c.perform s res kind ls go).Inv := by
  unfold Ctx.perform
  dsimp only
  split
  · exact h
  · refine Ctx.traps4_inv ?_
    refine hold3_inv ?_
    split
    · exact Ctx.skip_inv h ..
    · exact hgo _ _ h

theorem Ctx.acquire_inv {c : Ctx} {s : State} {scope : Nat} (h : s.Inv) : (c.acquire s scope).Inv := by
  unfold Ctx.acquire
  split
  · exact coverThreads_inv h
  · exact h

theorem takeMarks_inv {s : State} {scope : Nat} {locs : List Nat} (h : s.Inv) : (takeMarks s scope locs).Inv := by
  unfold takeMarks
  split
  · exact mem_foldl_inv (fun _ _ h1 => takeMark_inv h1 ..) h
  · exact h

theorem pushReq_inv {s : State} {gid : Gid} {f : ReqForm} {ls : List ReqLane} {buf : Option Nat} (h : s.Inv) :
    (pushReq s gid f ls buf).Inv := by
  unfold pushReq
  dsimp only
  split
  · exact freshId_inv h
  · exact updGroup_inv (by exact freshId_inv h) ..

theorem homeReqs_inv {gid : Gid} {f : ReqForm} {s : State} {ls : List ReqLane} (h : s.Inv) :
    (homeReqs gid f s ls).Inv := by
  unfold homeReqs
  split
  · split
    · exact pushReq_inv h
    · exact pushReq_inv (pushReq_inv h)
  · exact pushReq_inv h

theorem makeReqs_inv {s : State} {gid : Gid} {f : ReqForm} {ls : List ReqLane} (h : s.Inv) :
    (makeReqs s gid f ls).Inv :=
  foldl_inv (fun _ _ h1 => homeReqs_inv h1) h

theorem pushErrs_inv {s : State} {gid : Gid} {info : W64} {es : List (Nat × Nat × W64)} (h : s.Inv) :
    (pushErrs s gid info es).Inv := by
  unfold pushErrs
  dsimp only
  split
  · exact h
  · exact freshId_inv h

theorem Ctx.loadLane_inv {c : Ctx} {s : State} {scope : Nat} {fill : Bool} {cover : Nat} {conv : Nat → Nat → W64}
    {key : Nat → Nat} {tids : List Nat} {l : Lane} {p : Places} (h : s.Inv) :
    (c.loadLane s scope fill cover conv key tids l p).2.Inv :=
  acquired_inv (readCore_inv (takeMarks_inv h) ..) ..

theorem Ctx.loadLanes_inv {c : Ctx} {s : State} {scope : Nat} {fill one : Bool} {conv : Nat → Nat → W64}
    {ls : List Lane} {key : Nat → Nat} (h : s.Inv) :
    (c.loadLanes s scope fill one conv ls key).2.Inv := by
  unfold Ctx.loadLanes
  dsimp only
  split
  · exact h
  · split
    · dsimp only
      exact Ctx.loadLane_inv h
    · refine foldl_inv_snd (fun _ _ h1 => ?_) h
      dsimp only
      exact Ctx.loadLane_inv h1

theorem oweLoaded_inv {s : State} {gid : Gid} {f : ReqForm} {xs : List Loaded} (h : s.Inv) :
    (oweLoaded s gid f xs).Inv :=
  makeReqs_inv (pushErrs_inv h)

theorem Ctx.loaded_inv {c : Ctx} {s : State} {f : LongForm} {wide uni : Bool} {xs : List Loaded} (h : s.Inv) :
    (c.loaded s f wide uni xs).Inv :=
  oweLoaded_inv (Ctx.result_inv h)

theorem countFab_inv {s : State} {gid : Gid} {dev : Nat} (h : s.Inv) : (countFab s gid dev).Inv := by
  unfold countFab
  dsimp only
  split
  · exact h
  · exact updGroup_inv (by exact h) ..

theorem countFabs_inv {s : State} {gid : Gid} {dev n : Nat} (h : s.Inv) : (countFabs s gid dev n).Inv :=
  foldl_inv (fun _ _ h1 => countFab_inv h1) h

theorem countOne_inv {s : State} {gid : Gid} {p : Places} (h : s.Inv) : (countOne s gid p).Inv := by
  unfold countOne
  split
  · exact countFab_inv h
  · exact h

theorem countPlaces_inv {s : State} {gid : Gid} {p : Places} (h : s.Inv) : (countPlaces s gid p).Inv := by
  unfold countPlaces
  split
  · exact countFabs_inv h
  · exact h

theorem Ctx.storeAt_inv {c : Ctx} {s : State} {scope tid : Nat} {p : Places} {b : Bytes}
    {en : Table Byte} (h : s.Inv) : (c.storeAt s scope tid p b en).2.Inv := by
  unfold Ctx.storeAt
  dsimp only
  split
  · exact countPlaces_inv h
  · exact writeAs_inv (countPlaces_inv h) ..

theorem Ctx.storeLanes_inv {c : Ctx} {s : State} {scope : Nat} {data : State → Lane → Places → Bytes × Table Byte}
    {ls : List Lane} (h : s.Inv) : (c.storeLanes s scope data ls).Inv := by
  unfold Ctx.storeLanes
  refine makeReqs_inv ?_
  refine foldl_inv_snd (fun _ _ h1 => ?_) h
  dsimp only
  split
  · exact Ctx.storeAt_inv h1
  · exact h1

theorem fenceThreads_inv {s : State} {g : Group} {scope : Nat} {cross tids : List Nat} (h : s.Inv) :
    (fenceThreads s g scope cross tids).Inv := by
  unfold fenceThreads
  show MemSys.Inv _
  refine mem_foldl_inv (fun _ _ h1 => fenceAt_inv h1 ..) ?_
  split
  · exact coverThreads_inv h
  · exact h

theorem Ctx.fenceFirst_inv {c : Ctx} {s : State} {scope : Nat} {ls : List Lane} (h : s.Inv) :
    (c.fenceFirst s scope ls).Inv := by
  unfold Ctx.fenceFirst
  split
  · exact h
  · exact fenceThreads_inv h

theorem execLd_inv {f : LongForm} {s : State} (h : s.Inv) : NextInv (execLd f s) := by
  unfold execLd
  show State.Inv _
  refine runCore_inv h (fun _ => ?_)
  dsimp only
  exact Ctx.perform_inv (Ctx.decideLanes_inv h) (fun _ _ h1 => Ctx.loaded_inv (Ctx.loadLanes_inv (Ctx.acquire_inv
    h1)))

theorem Ctx.storeParted_inv {c : Ctx} {s0 s : State} {scope : Nat} {data : State → Lane → Places → Bytes × Table Byte}
    {ls : List Lane} (hs0 : s0.Inv) (h : s.Inv) : (c.storeParted s0 s scope data ls).Inv := by
  unfold Ctx.storeParted
  dsimp only
  split
  · exact h
  · split
    · exact hs0
    · exact Ctx.traps4_inv (hold3_inv (Ctx.done_inv (Ctx.storeLanes_inv (Ctx.fenceFirst_inv h)) ..))

theorem Ctx.storeForm_inv {c : Ctx} {s : State} {f : LongForm} (h : s.Inv) : (c.storeForm s f).Inv :=
  Ctx.storeParted_inv h (Ctx.decideParts_inv h)

theorem Ctx.ldgWrite_inv {c : Ctx} {s : State} {f : LongForm} {xs : List Loaded} (h : s.Inv) :
    (c.ldgWrite s f xs).Inv :=
  Ctx.upd_inv h

theorem execLdg_inv {f : LongForm} {s : State} (h : s.Inv) : NextInv (execLdg f s) := by
  unfold execLdg
  show State.Inv _
  refine runCore_inv h (fun _ => ?_)
  dsimp only
  split
  · exact Ctx.decideLanes_inv h
  · exact Ctx.traps4_inv (record3_inv (oweLoaded_inv (Ctx.ldgWrite_inv (Ctx.loadLanes_inv (Ctx.acquire_inv
      (Ctx.decideLanes_inv h))))))

theorem execStg_inv {f : LongForm} {s : State} (h : s.Inv) : NextInv (execStg f s) := by
  unfold execStg
  show State.Inv _
  refine runCore_inv h (fun _ => ?_)
  dsimp only
  split
  · exact Ctx.decideParts_inv h
  · split
    · exact h
    · exact Ctx.traps4_inv (record3_inv (Ctx.done_inv (Ctx.storeLanes_inv (Ctx.fenceFirst_inv (Ctx.decideParts_inv
        h))) ..))

theorem execLde_inv {f : LongForm} {s : State} (h : s.Inv) : NextInv (execLde f s) := by
  unfold execLde
  show State.Inv _
  refine runCore_inv h (fun _ => ?_)
  dsimp only
  exact Ctx.perform_inv (Ctx.decideLanes_inv h) (fun _ _ h1 => Ctx.loaded_inv (Ctx.loadLanes_inv (Ctx.acquire_inv
    (dropL1_inv h1 ..))))

theorem Ctx.atomPlace_inv {c : Ctx} {s : State} {op : AtomOp} {ty scope : Nat} {acq : Bool} {va : W64} {p : Places}
    {args : List AtomArg} (h : s.Inv) : (c.atomPlace s op ty scope acq va p args).2.Inv := by
  unfold Ctx.atomPlace
  dsimp only
  split
  · dsimp only
    split
    · exact takeMarks_inv (countPlaces_inv h)
    · exact countPlaces_inv h
  · refine acquireAnswered_inv _ ?_
    refine foldl_inv (fun _ _ h1 => markWrite_inv h1 ..) ?_
    show MemSys.Inv _
    refine dropL1_inv ?_ ..
    refine applyWrite_inv ?_ ..
    split
    · exact acquired_inv (takeMarks_inv (countPlaces_inv h)) ..
    · exact countPlaces_inv h

theorem Ctx.atomLanes_inv {c : Ctx} {s : State} {op : AtomOp} {ty scope : Nat} {acq : Bool} {arg : Nat → Nat × Nat}
    {ls : List Lane} (h : s.Inv) : (c.atomLanes s op ty scope acq arg ls).2.Inv := by
  unfold Ctx.atomLanes
  refine foldl_inv_snd (fun _ _ h1 => ?_) h
  dsimp only
  split
  · exact Ctx.atomPlace_inv h1
  · exact h1

theorem execAtom_inv {op : AtomOp} {f : LongForm} {s : State} (h : s.Inv) : NextInv (execAtom op f s) := by
  unfold execAtom
  show State.Inv _
  refine runCore_inv h (fun _ => ?_)
  dsimp only
  split
  · exact h
  · exact Ctx.perform_inv (Ctx.decideLanes_inv h) (fun _ _ h1 => Ctx.loaded_inv (Ctx.atomLanes_inv (Ctx.acquire_inv
      (Ctx.fenceFirst_inv h1))))

theorem execRed_inv {op : RedOp} {f : LongForm} {s : State} (h : s.Inv) : NextInv (execRed op f s) := by
  unfold execRed
  show State.Inv _
  refine runCore_inv h (fun _ => ?_)
  dsimp only
  split
  · exact h
  · exact Ctx.perform_inv (Ctx.decideLanes_inv h) (fun _ _ h1 => oweLoaded_inv (Ctx.done_inv (Ctx.atomLanes_inv
      (Ctx.fenceFirst_inv h1)) ..))

theorem Ctx.fence_inv {c : Ctx} {s : State} {scope : Nat} (h : s.Inv) : (c.fence s scope).Inv := by
  unfold Ctx.fence
  split
  · exact h
  · exact Ctx.done_inv (fenceThreads_inv h) ..

theorem Ctx.crossFence_inv {c : Ctx} {s : State} {scope : Nat} {qs : List Nat} (h : s.Inv) :
    (c.crossFence s scope qs).Inv := by
  unfold Ctx.crossFence
  split
  · exact h
  · exact Ctx.done_inv (fenceThreads_inv h) ..

theorem linePiece_inv {s : State} {c : Ctx} {va : W64} {n : Nat} (h : s.Inv) : (linePiece s c va n).2.Inv := by
  unfold linePiece
  dsimp only
  split
  · exact h
  · have h1 := translate_inv h ‹_›
    split
    · exact h1
    · split <;> exact h1

theorem decideRange_inv {s : State} {c : Ctx} {va : W64} {n : Nat} (h : s.Inv) : (decideRange s c va n).2.Inv := by
  unfold decideRange
  dsimp only
  split
  · exact foldl_inv_snd (fun _ _ h1 => linePiece_inv h1) h
  · split
    · exact foldl_inv_snd (fun _ _ h1 => linePiece_inv h1) h
    · split
      · exact foldl_inv_snd (fun _ _ h1 => linePiece_inv h1) h
      · split <;> exact foldl_inv_snd (fun _ _ h1 => linePiece_inv h1) h

theorem execCflush_inv {f : LongForm} {s : State} (h : s.Inv) : NextInv (execCflush f s) := by
  refine runCore_inv h fun _ => ?_
  extract_lets
  refine Ctx.perform_inv (foldl_inv_snd (fun _ _ h1 => decideRange_inv h1) h) fun c s h1 => ?_
  exact (foldl_writeBackLine_inv (mm := s.mm) h1 _).of_eq rfl rfl

theorem execCinv_inv {f : LongForm} {s : State} (h : s.Inv) : NextInv (execCinv f s) := by
  unfold execCinv
  show State.Inv _
  refine runCore_inv h (fun _ => ?_)
  dsimp only
  split
  · exact h
  · exact Ctx.done_inv (by exact coverPast_inv (dropL1_inv h ..) ..) ..

theorem dropCode_inv {mm : MemSys} {locs : List Nat} (hmm : mm.Inv) : (dropCode mm locs).Inv := hmm.of_eq rfl rfl

theorem execCinvCode_inv {f : LongForm} {s : State} (h : s.Inv) : NextInv (execCinvCode f s) := by
  unfold execCinvCode
  show State.Inv _
  refine runCore_inv h (fun _ => ?_)
  split
  · exact h
  · exact Ctx.done_inv (by exact dropCode_inv (dropL1_inv h ..)) ..

theorem prefLine_inv {s : State} {c line : Nat} (h : s.Inv) : (prefLine s c line).Inv := by
  unfold prefLine
  split
  · exact h
  · exact fillLine_inv h

theorem execPref_inv {f : LongForm} {s : State} (h : s.Inv) : NextInv (execPref f s) := by
  unfold execPref
  show State.Inv _
  refine runCore_inv h (fun _ => ?_)
  dsimp only
  split
  · exact Ctx.done_inv h ..
  · refine Ctx.done_inv ?_ ..
    refine foldl_inv (fun _ _ h1 => ?_) h
    split
    · have h2 := inv_of_pair ‹_› (Ctx.decide_inv h1)
      split
      · exact h2
      · exact prefLine_inv h2
    · exact inv_of_pair ‹_› (Ctx.decide_inv h1)

theorem readRec_inv {s : State} {g : Group} {va : W64} (h : s.Inv) : (readRec s g va).2.Inv := by
  unfold readRec
  dsimp only
  split <;> exact inv_of_pair ‹_› (decideAccess_inv h ..)

theorem failedOwner_inv {s : State} {g : Group} {orec : Option W64} (h : s.Inv) : (failedOwner s g orec).2.Inv := by
  unfold failedOwner
  split
  · exact h
  · split <;> exact inv_of_pair ‹_› (readRec_inv h)

theorem completeWait_inv {s : State} {g : Group} {tid scope : Nat} {locs : List Nat} {r : WaitRes}
    {f : Thread → Thread} (h : s.Inv) : (completeWait s g tid scope locs r f).Inv := by
  unfold completeWait
  dsimp only
  split
  · split
    · refine coverThreads_inv ?_
      refine updGroup_inv ?_ ..
      split
      · exact dropL1_inv (takeMarks_inv h) ..
      · exact takeMarks_inv h
    · refine updGroup_inv ?_ ..
      split
      · exact dropL1_inv (takeMarks_inv h) ..
      · exact takeMarks_inv h
  · split
    · refine depositRow_inv ?_
      refine depositRow_inv ?_
      split
      · refine coverThreads_inv ?_
        refine updGroup_inv ?_ ..
        split
        · exact dropL1_inv (takeMarks_inv h) ..
        · exact takeMarks_inv h
      · refine updGroup_inv ?_ ..
        split
        · exact dropL1_inv (takeMarks_inv h) ..
        · exact takeMarks_inv h
    · refine depositRow_inv ?_
      split
      · refine coverThreads_inv ?_
        refine updGroup_inv ?_ ..
        split
        · exact dropL1_inv (takeMarks_inv h) ..
        · exact takeMarks_inv h
      · refine updGroup_inv ?_ ..
        split
        · exact dropL1_inv (takeMarks_inv h) ..
        · exact takeMarks_inv h

theorem putDerr_inv {s : State} {g : Group} (h : s.Inv) : (putDerr s g).Inv := by
  unfold putDerr
  split
  · exact h
  · exact areaPut_inv (areaPut_inv h)

theorem waitError_inv {s : State} {g : Group} {tid scope : Nat} {r : WaitRes} {f : Thread → Thread} {cause : Nat}
    {va : W64} (h : s.Inv) : (waitError s g tid scope r f cause va).Inv := by
  unfold waitError
  dsimp only
  split
  · exact freshId_inv (completeWait_inv h)
  · split
    · exact putDerr_inv (updGroup_inv (completeWait_inv h) ..)
    · exact updGroup_inv (completeWait_inv h) ..

theorem Ctx.waitcLane_inv {c : Ctx} {f : LongForm} {inst : Nat} {acc : Asked × State} {l : Lane} (hacc : acc.2.Inv) :
    (c.waitcLane f inst acc l).2.Inv := by
  unfold Ctx.waitcLane
  dsimp only
  split
  · exact hacc
  · split
    · exact hacc
    · split
      · exact acquired_inv (takeMarks_inv hacc) ..
      · exact updThread_inv hacc

theorem Ctx.asked_inv {c : Ctx} {s : State} {f : LongForm} {wide : Bool} {a : Asked} {kd : Option Nat} (h : s.Inv) :
    (c.asked s f wide a kd).Inv := by
  unfold Ctx.asked
  dsimp only
  split
  · exact Ctx.skip_inv h ..
  · split
    · exact Ctx.upd_inv (Ctx.loaded_inv (Ctx.acquire_inv h))
    · exact Ctx.loaded_inv (Ctx.acquire_inv h)

theorem Ctx.dropRead_inv {c : Ctx} {s : State} {ls : List Lane} (h : s.Inv) : (c.dropRead s ls).Inv := dropL1_inv h ..

theorem execWaitc_inv {f : LongForm} {s : State} (h : s.Inv) : NextInv (execWaitc f s) :=
  runCore_inv h (fun _ => Ctx.perform_inv (Ctx.decideLanes_inv h) (fun _ _ h1 => Ctx.asked_inv (Ctx.dropRead_inv
    (foldl_inv_snd (fun _ _ h2 => Ctx.waitcLane_inv h2) (freshId_inv h1)))))

theorem Ctx.fldLane_inv {c : Ctx} {f : LongForm} {inst : Nat} {acc : Asked × State} {l : Lane} (hacc : acc.2.Inv) :
    (c.fldLane f inst acc l).2.Inv := by
  unfold Ctx.fldLane
  dsimp only
  split
  · exact hacc
  · split
    · exact hacc
    · split
      · exact acquired_inv (takeMarks_inv hacc) ..
      · split
        · exact inv_of_pair ‹_› (failedOwner_inv hacc)
        · have h := inv_of_pair ‹_› (failedOwner_inv hacc)
          exact updThread_inv h

theorem execFld_inv {f : LongForm} {s : State} (h : s.Inv) : NextInv (execFld f s) :=
  runCore_inv h (fun _ => Ctx.perform_inv (Ctx.decideLanes_inv h) (fun _ _ h1 => Ctx.asked_inv (Ctx.dropRead_inv
    (foldl_inv_snd (fun _ _ h2 => Ctx.fldLane_inv h2) (freshId_inv h1)))))

theorem Ctx.fsetLane_inv {c : Ctx} {f : LongForm} {acc : List (Nat × Nat × W64) × State} {l : Lane} (hacc : acc.2.Inv) :
    (c.fsetLane f acc l).2.Inv := by
  unfold Ctx.fsetLane
  dsimp only
  split
  · exact hacc
  · split
    · exact countOne_inv hacc
    · split
      · exact countOne_inv hacc
      · exact dropL1_inv (writeAs_inv (countOne_inv hacc) ..) ..

theorem execFset_inv {f : LongForm} {s : State} (h : s.Inv) : NextInv (execFset f s) := by
  unfold execFset
  show State.Inv _
  refine runCore_inv h (fun _ => ?_)
  dsimp only
  split
  · exact h
  · exact Ctx.perform_inv (Ctx.decideLanes_inv h) (fun _ _ h1 => pushErrs_inv (Ctx.done_inv (foldl_inv_snd (fun _ _ h2
      => Ctx.fsetLane_inv h2) (Ctx.fenceFirst_inv h1)) ..))

theorem endMonitor_inv {s : State} {g : Group} {tid : Nat} {m : MonWait} {v : W64} (h : s.Inv) :
    (endMonitor s g tid m v).Inv :=
  completeWait_inv h

theorem execMonitorReply_inv {tag grp tid : Nat} {s : State} (h : s.Inv) :
    NextInv (execMonitorReply tag grp tid s) := by
  unfold execMonitorReply
  show State.Inv _
  split
  · split
    · split
      · exact endMonitor_inv h
      · exact h
    · exact h
  · exact h

theorem endFuture_inv {s : State} {g : Group} {tid : Nat} {f : FutWait} {v : W64} {k : Bool} (h : s.Inv) :
    (endFuture s g tid f v k).Inv :=
  completeWait_inv h

theorem execFutureAnswer_inv {tag grp tid : Nat} {s : State} (h : s.Inv) :
    NextInv (execFutureAnswer tag grp tid s) := by
  unfold execFutureAnswer
  show State.Inv _
  split
  · split
    · split
      · exact endFuture_inv h
      · exact h
    · exact h
  · exact h

theorem resendMonitor_inv {s : State} {g : Group} {tid : Nat} {m : MonWait} (h : s.Inv) :
    (resendMonitor s g tid m).Inv := by
  unfold resendMonitor
  dsimp only
  split
  · exact h
  · exact waitError_inv h
  · split
    · exact endMonitor_inv (acquired_inv h ..)
    · exact updThread_inv h

theorem resendFuture_inv {s : State} {g : Group} {tid : Nat} {f : FutWait} (h : s.Inv) :
    (resendFuture s g tid f).Inv := by
  unfold resendFuture
  dsimp only
  split
  · exact h
  · exact waitError_inv h
  · split
    · exact endFuture_inv (acquired_inv h ..)
    · split
      · have h1 := inv_of_pair ‹_› (failedOwner_inv h)
        exact endFuture_inv h1
      · have h1 := inv_of_pair ‹_› (failedOwner_inv h)
        exact updThread_inv h1

theorem execNackResend_inv {tag grp tid : Nat} {s : State} (h : s.Inv) : NextInv (execNackResend tag grp tid s) := by
  unfold execNackResend
  show State.Inv _
  dsimp only
  split
  · split
    · split
      · exact resendMonitor_inv (updGroup_inv h ..)
      · exact resendFuture_inv (updGroup_inv h ..)
      · exact h
    · exact h
  · exact h

theorem storeMsg_inv {s : State} {g : Group} {tid : Nat} {p : Places} {va : W64} {b : Bytes} (h : s.Inv) :
    (storeMsg s g tid p va b).Inv := by
  unfold storeMsg
  dsimp only
  split
  · refine makeReqs_inv ?_
    split
    · exact countPlaces_inv h
    · exact writeAs_inv (countPlaces_inv h) ..
  · split
    · exact countPlaces_inv h
    · exact writeAs_inv (countPlaces_inv h) ..

theorem meetOne_inv {s : State} {gid : Gid} {met : List Met} (h : s.Inv) : (meetOne s gid met).Inv := by
  unfold meetOne
  dsimp only
  split
  · exact foldl_inv (fun _ _ h1 => takeTrap_inv h1) (updGroup_inv (hold3_inv (updGroup_inv h ..)) ..)
  · exact h

theorem meetAll_inv {s : State} {gid : Gid} {met : List Met} (h : s.Inv) : (meetAll s gid met).Inv :=
  foldl_inv (fun _ _ h1 => meetOne_inv h1) h

theorem takeMsg_inv {s : State} {g : Group} {scope tid id : Nat} (h : s.Inv) : (takeMsg s g scope tid id).Inv :=
  forget_inv (acquireBy_inv h ..) ..

theorem offerMsg_inv {key : Nat} {acc : List (Gid × Met) × State} {w : Group × Thread × BoxWait} (hacc : acc.2.Inv) :
    (offerMsg key acc w).2.Inv := by
  unfold offerMsg
  dsimp only
  split
  · exact hacc
  · split
    · have h := inv_of_pair ‹_› (decideAccess_inv hacc ..)
      exact completeWait_inv (storeMsg_inv (takeMsg_inv (updBox_inv h)))
    · exact inv_of_pair ‹_› (decideAccess_inv hacc ..)

theorem deliverMsg_inv {s : State} {key : Nat} (h : s.Inv) : (deliverMsg s key).Inv := by
  unfold deliverMsg
  dsimp only
  split
  · exact h
  · exact foldl_inv (fun _ _ h1 => meetAll_inv h1) (foldl_inv_snd (fun _ _ h1 => offerMsg_inv h1) h)

theorem Ctx.mbsendLane_inv {c : Ctx} {f : LongForm} {acc : List (Nat × Bool) × List (Nat × Nat × W64) × State}
    {l : Lane} (hacc : acc.2.2.Inv) : (c.mbsendLane f acc l).2.2.Inv := by
  unfold Ctx.mbsendLane
  dsimp only
  split
  · exact hacc
  · split
    · exact readCore_inv hacc ..
    · split
      · exact deliverMsg_inv (updBox_inv (releaseBy_inv (freshId_inv (readCore_inv hacc ..)) ..))
      · exact readCore_inv hacc ..

theorem execMbsend_inv {f : LongForm} {s : State} (h : s.Inv) : NextInv (execMbsend f s) :=
  runCore_inv h (fun _ => Ctx.perform_inv (Ctx.decideLanes_inv h) (fun _ _ h1 => pushErrs_inv (Ctx.masks_inv
    (foldl_inv_third (fun _ _ h2 => Ctx.mbsendLane_inv h2) h1))))

theorem Ctx.mbrecvLane_inv {c : Ctx} {f : LongForm} {since : Nat} {acc : Asked × State} {l : Lane} (hacc : acc.2.Inv) :
    (c.mbrecvLane f since acc l).2.Inv := by
  unfold Ctx.mbrecvLane
  dsimp only
  split
  · exact hacc
  · split
    · exact storeMsg_inv (updBox_inv (takeMsg_inv (updBox_inv hacc)))
    · exact updThread_inv (updBox_inv hacc)

theorem execMbrecv_inv {f : LongForm} {s : State} (h : s.Inv) : NextInv (execMbrecv f s) :=
  runCore_inv h (fun _ => Ctx.perform_inv (Ctx.decideLanes_inv h) (fun _ _ h1 => Ctx.asked_inv (foldl_inv_snd (fun _ _
    h2 => Ctx.mbrecvLane_inv h2) (Ctx.acquire_inv (freshId_inv h1)))))

theorem dropReq_inv {s : State} {id : Nat} (h : s.Inv) : (dropReq s id).Inv := h

theorem firstPacket_inv {s : State} {r : Req} (h : s.Inv) : (firstPacket s r).Inv := h

theorem replyNow_inv {s : State} {r : Req} (h : s.Inv) : (replyNow s r).Inv := by
  unfold replyNow
  dsimp only
  split
  · exact firstPacket_inv h
  · exact pushErrs_inv (updGroup_inv (dropReq_inv h) ..)

theorem execLoadReply_inv {id : Nat} {s : State} (h : s.Inv) : NextInv (execLoadReply id s) := by
  unfold execLoadReply
  show State.Inv _
  split
  · split
    · exact replyNow_inv h
    · exact h
  · exact h

theorem ackNow_inv {s : State} {r : Req} {tid : Nat} (h : s.Inv) : (ackNow s r tid).Inv := by
  unfold ackNow
  refine pushErrs_inv ?_
  split
  · exact dropReq_inv h
  · exact h

theorem execStoreAcknowledgement_inv {tag grp tid : Nat} {s : State} (h : s.Inv) :
    NextInv (execStoreAcknowledgement tag grp tid s) := by
  unfold execStoreAcknowledgement
  show State.Inv _
  split
  · exact ackNow_inv h
  · exact h

theorem bufferPut_inv {s : State} {g : Group} {r : Req} {arr : Nat} {valid : Bool} {new : List ReqLane} (h : s.Inv) :
    (bufferPut s g r arr valid new).Inv := by
  unfold bufferPut
  dsimp only
  split
  · exact h
  · exact areaPut_inv (foldl_inv (fun _ _ h1 => areaPut_inv h1) h)

theorem depositPacket_inv {s : State} {r : Req} (h : s.Inv) : (depositPacket s r).Inv := by
  unfold depositPacket
  dsimp only
  split
  · exact updGroup_inv (firstPacket_inv h) ..
  · exact putPend_inv (bufferPut_inv (updGroup_inv (firstPacket_inv h) ..))

theorem depositRows_inv {s : State} {g : Group} {r : Req} (h : s.Inv) : (depositRows s g r).Inv := by
  unfold depositRows
  dsimp only
  split
  · refine foldl_inv (fun _ _ h1 => ?_) h
    split
    · exact depositRow_inv (depositRow_inv h1)
    · exact depositRow_inv h1
  · exact h

theorem depositNow_inv {s : State} {r : Req} (h : s.Inv) : (depositNow s r).Inv := by
  unfold depositNow
  dsimp only
  split
  · exact depositPacket_inv h
  · split
    · exact updGroup_inv (dropReq_inv h) ..
    · exact putDerr_inv (putPend_inv (depositRows_inv (bufferPut_inv (updGroup_inv (dropReq_inv h) ..))))

theorem execDepositArrival_inv {id : Nat} {s : State} (h : s.Inv) : NextInv (execDepositArrival id s) := by
  unfold execDepositArrival
  show State.Inv _
  split
  · split
    · exact depositNow_inv h
    · exact h
  · exact h

theorem exitedError_inv {s : State} {g : Group} {e : ImpErr} (h : s.Inv) : (exitedError s g e).Inv :=
  failGang_inv (postRecord_inv h)

theorem raiseError_inv {s : State} {e : ImpErr} (h : s.Inv) : (raiseError s e).Inv := by
  unfold raiseError
  dsimp only
  split
  · split
    · exact exitedError_inv h
    · split <;> exact takeTrap_inv h
  · exact h

theorem execDeferredError_inv {id : Nat} {s : State} (h : s.Inv) : NextInv (execDeferredError id s) := by
  unfold execDeferredError
  show State.Inv _
  split
  · exact raiseError_inv h
  · exact h

end Sys2Proof.Machine
end

section
/-! The invariant of memory over exceptions, saves, haywards and streams (O59). -/

namespace Sys2Proof.Machine

open Sys2Proof

theorem Ctx.enterHeld_inv {c : Ctx} {s : State} {ts : List Thread} (h : s.Inv) : (c.enterHeld s ts).Inv := by
  unfold Ctx.enterHeld
  dsimp only
  split
  · exact h
  · split
    · split
      · exact h
      · exact checkTarget_inv h ..
    · refine hold3_inv ?_
      split
      · exact h
      · exact checkTarget_inv h ..
    · refine takeTrap_inv ?_
      refine takeTrap_inv ?_
      refine Ctx.upd_inv ?_
      split
      · exact h
      · exact checkTarget_inv h ..

theorem Ctx.tretTo_inv {c : Ctx} {s : State} (h : s.Inv) : (c.tretTo s).Inv := Ctx.upd_inv h

theorem tretOp_inv {s : State} {i : Instr} {g : BitVec 5} (h : s.Inv) : (tretOp s i g).Inv := by
  unfold tretOp
  refine runCore_inv h (fun _ => ?_)
  dsimp only
  split
  · exact Ctx.trapAct_inv h
  · refine Ctx.enterHeld_inv ?_
    split
    · exact Ctx.skip_inv h ..
    · exact Ctx.transfer_inv h (fun _ h1 => Ctx.tretTo_inv h1)

theorem execFrecGet_inv {f : LongForm} {s : State} (h : s.Inv) : NextInv (execFrecGet f s) := by
  unfold execFrecGet
  show State.Inv _
  refine runCore_inv h (fun _ => ?_)
  dsimp only
  split
  · exact Ctx.trapAct_inv h
  · exact Ctx.storeParted_inv h (Ctx.decideLanes_inv h)

theorem execFrecFwd_inv {f : LongForm} {s : State} (h : s.Inv) : NextInv (execFrecFwd f s) := by
  unfold execFrecFwd
  show State.Inv _
  refine runCore_inv h (fun _ => ?_)
  dsimp only
  split
  · exact Ctx.trapAct_inv h
  · exact failGang_inv (foldl_inv (fun _ _ h1 => postRecord_inv h1) h)

theorem areaPieces_inv {g : Group} {a : Acc} {l ys : List (Nat × Nat)} {s : State} (h : s.Inv) :
    (areaPieces g a l ys s).Inv := by
  induction l generalizing ys s with
  | nil => exact h
  | cons x xs ih =>
    unfold areaPieces
    split
    · have h1 := AreaRes.inv_ok ‹_› (areaPages_inv h)
      exact ih h1
    · exact areaPages_inv h

theorem Ctx.areaAccess_inv {c : Ctx} {s : State} {store : Bool} {pieces : List (Nat × Nat)}
    {go : List (Nat × Nat) → State → State} (h : s.Inv)
    (hgo : ∀ (a : List (Nat × Nat)) (b : State), b.Inv → (go a b).Inv) :
    (c.areaAccess s store pieces go).Inv := by
  unfold Ctx.areaAccess
  split
  · have h1 := AreaRes.inv_ok ‹_› (areaPieces_inv h)
    exact hgo _ _ h1
  · have h1 := AreaRes.inv_cls4 ‹_› (areaPieces_inv h)
    exact Ctx.trap_inv h1
  · have h1 := AreaRes.inv_cls3 ‹_› (areaPieces_inv h)
    exact hold3_inv h1
  · exact AreaRes.inv_waits ‹_› (areaPieces_inv h)

theorem countArea_inv {s : State} {gid : Gid} {locs : List Nat} (h : s.Inv) : (countArea s gid locs).Inv :=
  foldl_inv (fun _ _ h1 => countFabs_inv h1) h

theorem Ctx.areaStore_inv {c : Ctx} {s : State} {g : Group} {pages : List (Nat × Nat)} {ws : List (Nat × Byte)}
    (h : s.Inv) : (c.areaStore s g pages ws).Inv := by
  unfold Ctx.areaStore
  dsimp only
  split
  · exact pushErrs_inv (acquireAnswered_inv _ (foldl_inv (fun _ _ h1 => markWrite_inv h1 ..) (areaWriteBy_inv
      (countArea_inv h))))
  · exact acquireAnswered_inv _ (foldl_inv (fun _ _ h1 => markWrite_inv h1 ..) (areaWriteBy_inv (countArea_inv h)))

theorem execCtxsave_inv {f : LongForm} {s : State} (h : s.Inv) : NextInv (execCtxsave f s) :=
  runCore_inv h (fun _ => Ctx.areaAccess_inv h (fun _ _ h1 => Ctx.done_inv (Ctx.areaStore_inv h1) ..))

theorem slotStarts_inv {s : State} {gid : Gid} {d : Nat} {tids : List Nat} (h : s.Inv) :
    (slotStarts s gid d tids).Inv :=
  learnTo_inv (forget_inv h ..) ..

theorem slotFound_inv {s : State} {gid : Gid} {d : Nat} {tids : List Nat} (h : s.Inv) :
    (slotFound s gid d tids).Inv :=
  mem_foldl_inv (fun _ _ h1 => learnTo_inv h1 ..) (coverThreads_inv h)

theorem execCtxload_inv {f : LongForm} {s : State} (h : s.Inv) : NextInv (execCtxload f s) := by
  unfold execCtxload
  show State.Inv _
  refine runCore_inv h (fun _ => ?_)
  refine Ctx.areaAccess_inv h (fun _ _ h1 => ?_)
  refine Ctx.areaAccess_inv h1 (fun _ _ h2 => ?_)
  dsimp only
  split
  · exact pushErrs_inv (slotStarts_inv (Ctx.upd_inv (Ctx.done_inv h2 ..)))
  · exact slotStarts_inv (Ctx.upd_inv (Ctx.done_inv h2 ..))

theorem mapTasks_inv {f : Task → Task} {s : State} (h : s.Inv) : (mapTasks f s).Inv := h

theorem slotToTasks_inv {s : State} {gid : Gid} {d : Nat} (h : s.Inv) : (slotToTasks s gid d).Inv := by
  unfold slotToTasks
  show MemSys.Inv _
  refine mem_foldl_inv (fun _ _ h1 => ?_) h
  refine mem_foldl_inv (fun _ _ h2 => ?_) h1
  dsimp only
  split
  · exact learnTo_inv h2 ..
  · exact h2

theorem finishSlot_inv {s0 : State} {gid : Gid} {d : Nat} {x : Slot} (hs0 : s0.Inv) :
    (finishSlot s0 gid d x).Inv := by
  unfold finishSlot
  dsimp only
  split
  · exact mapTasks_inv (slotToTasks_inv hs0)
  · split
    · exact updGroup_inv (mapTasks_inv (slotToTasks_inv hs0)) ..
    · split
      · exact updGroup_inv (mapTasks_inv (slotToTasks_inv hs0)) ..
      · split
        · exact updGroup_inv (mapTasks_inv (slotToTasks_inv hs0)) ..
        · exact putPend_inv (areaPut_inv (updGroup_inv (mapTasks_inv (slotToTasks_inv hs0)) ..))

theorem execCtxloadDone_inv {tag grp slot : Nat} {s : State} (h : s.Inv) :
    NextInv (execCtxloadDone tag grp slot s) := by
  unfold execCtxloadDone
  show State.Inv _
  split
  · split
    · exact finishSlot_inv h
    · exact h
  · exact h

theorem pollDeposits_inv {s : State} (h : s.Inv) : (pollDeposits s).Inv := by
  unfold pollDeposits
  refine foldl_inv (fun _ _ h1 => ?_) h
  refine foldl_inv (fun _ _ h2 => ?_) h1
  dsimp only
  split
  · split
    · split
      · split
        · refine updGroup_inv ?_ ..
          refine mapTasks_inv ?_
          refine slotToTasks_inv ?_
          split
          · exact pushErrs_inv h2
          · exact h2
        · refine areaPut_inv ?_
          refine updGroup_inv ?_ ..
          refine mapTasks_inv ?_
          refine slotToTasks_inv ?_
          split
          · exact pushErrs_inv h2
          · exact h2
      · exact h2
    · exact h2
  · exact h2

theorem execDepwait_inv {f : LongForm} {s : State} (h : s.Inv) : NextInv (execDepwait f s) := by
  unfold execDepwait
  show State.Inv _
  refine runCore_inv h (fun _ => ?_)
  refine Ctx.perform_inv (Ctx.decideLanes_inv h) (fun _ _ h1 => ?_)
  dsimp only
  split
  · exact Ctx.done_inv h1 ..
  · split
    · exact pushErrs_inv (slotStarts_inv (Ctx.upd_inv (Ctx.done_inv h1 ..)))
    · exact slotStarts_inv (Ctx.upd_inv (Ctx.done_inv h1 ..))
    · exact slotStarts_inv (Ctx.upd_inv h1)

theorem Ctx.raiseSlot_inv {c : Ctx} {s : State} {d : Nat} {word addr : W64} (h : s.Inv) :
    (c.raiseSlot s d word addr).Inv := by
  unfold Ctx.raiseSlot
  dsimp only
  split
  · split
    · exact Ctx.trap_inv (Ctx.upd_inv h)
    · exact Ctx.upd_inv (Ctx.trap_inv (Ctx.upd_inv h))
  · split
    · exact Ctx.trap_inv (Ctx.upd_inv h)
    · exact Ctx.upd_inv (Ctx.trap_inv (Ctx.upd_inv h))

theorem mwaitOp_inv {s : State} {i : Instr} {g : BitVec 5} {dst : BitVec 8} (h : s.Inv) :
    (mwaitOp s i g dst).Inv := by
  unfold mwaitOp
  refine runCore_inv h (fun _ => ?_)
  split
  · exact Ctx.done_inv h ..
  · exact Ctx.done_inv (slotFound_inv h) ..
  · exact Ctx.raiseSlot_inv h
  · exact Ctx.upd_inv h

theorem execMpoll_inv {f : LongForm} {s : State} (h : s.Inv) : NextInv (execMpoll f s) := by
  unfold execMpoll
  show State.Inv _
  refine runCore_inv h (fun _ => ?_)
  dsimp only
  split
  · exact Ctx.raiseSlot_inv h
  · refine Ctx.result_inv ?_
    split
    · exact slotFound_inv h
    · exact h

theorem pdoneOp_inv {s : State} {i : Instr} {g : BitVec 5} (h : s.Inv) : (pdoneOp s i g).Inv := by
  unfold pdoneOp
  refine runCore_inv h (fun _ => ?_)
  dsimp only
  split
  · exact Ctx.trapAct_inv h
  · exact keptSave_inv (Ctx.upd_inv (Ctx.done_inv h ..))

theorem enterDeposit_inv {s : State} {gid : Gid} (h : s.Inv) : (enterDeposit s gid).Inv := by
  unfold enterDeposit
  dsimp only
  split
  · exact h
  · split
    · exact h
    · exact takeTrap_inv (updGroup_inv h ..)

theorem deliverAll_inv {core m : Nat} {s : State} (h : s.Inv) : (deliverAll core m s).Inv := by
  induction m generalizing s with
  | zero => exact h
  | succ n ih =>
    unfold deliverAll
    exact ih (foldl_inv (fun _ _ h1 => deliverMsg_inv h1) h)

theorem restoreMeets_inv {s : State} {g : Group} (h : s.Inv) : (restoreMeets s g).Inv := by
  unfold restoreMeets
  split
  · have h1 := AreaRes.inv_ok ‹_› (areaPages_inv h)
    split <;> exact h1
  · exact areaPages_inv h

theorem putOnCore_inv {s : State} {gid : Gid} {core : Nat} {owner : Option (Gid × Nat)} (h : s.Inv) :
    (putOnCore s gid core owner).Inv := by
  unfold putOnCore
  dsimp only
  split
  · exact h
  · exact deliverAll_inv (enterDeposit_inv (ownState_inv (coverThreads_inv (updGroup_inv (freshId_inv h) ..))))

theorem resumeGroup_inv {s : State} {gid : Gid} {core : Nat} {owner : Option (Gid × Nat)} (h : s.Inv) :
    (resumeGroup s gid core owner).Inv := by
  unfold resumeGroup
  split
  · exact h
  · split
    · have h1 := AreaRes.inv_ok ‹_› (restoreMeets_inv h)
      exact putOnCore_inv h1
    · exact areaMeets_inv h (restoreMeets_inv h)

theorem resumeRest_inv {l : List Gid} {s : State} (h : s.Inv) : OptInv (resumeRest l s) := by
  induction l generalizing s with
  | nil => exact h
  | cons x xs ih =>
    unfold resumeRest
    split
    · exact ih h
    · split
      · exact ih (putOnCore_inv h)
      · exact trivial

theorem restoreStops_inv {s : State} {gs : List Group} {g : Group} {r : AreaRes} (h : s.Inv)
    (e : restoreStops s gs = some (g, r)) : r.Inv := by
  obtain ⟨x, -, hx⟩ := List.exists_of_findSome?_eq_some e
  have hr : (restoreMeets s x).Inv := restoreMeets_inv h
  split at hx
  · cases hx
  · cases hx
    exact hr

theorem resumeGang_inv {s : State} {tag : Nat} {first : Gid} {core : Nat} (h : s.Inv) :
    (resumeGang s tag first core).Inv := by
  unfold resumeGang
  extract_lets saved s0
  split
  · exact h
  · split
    · exact areaMeets_inv h (restoreStops_inv h ‹_›)
    · have h0 : s0.Inv := by
        refine foldl_inv (fun _ _ h1 => ?_) h
        split
        · exact AreaRes.inv_ok ‹_› (restoreMeets_inv h1)
        · exact h1
      split
      · exact updGang_inv (inv_of_some ‹_› (resumeRest_inv (putOnCore_inv h0)))
      · exact h

theorem execGroupResume_inv {tag grp core : Nat} {s : State} (h : s.Inv) :
    NextInv (execGroupResume tag grp core s) := by
  unfold execGroupResume
  show State.Inv _
  split
  · exact h
  · split
    · exact h
    · split
      · exact resumeGroup_inv h
      · split
        · exact resumeGang_inv h
        · exact h

theorem presentThread_inv {gid : Gid} {acc : List Met × List Nat × State} {tid : Nat} (hacc : acc.2.2.Inv) :
    (presentThread gid acc tid).2.2.Inv := by
  unfold presentThread
  dsimp only
  split
  · split
    · split
      · exact hacc
      · split
        · have h := inv_of_pair ‹_› (decideAccess_inv hacc ..)
          exact resendMonitor_inv (updThread_inv h)
        · exact inv_of_pair ‹_› (decideAccess_inv hacc ..)
        · exact inv_of_pair ‹_› (decideAccess_inv hacc ..)
    · split
      · exact hacc
      · split
        · have h := inv_of_pair ‹_› (failedOwner_inv hacc)
          exact endFuture_inv h
        · split
          · have h1 := inv_of_pair ‹_› (decideAccess_inv hacc ..)
            exact resendFuture_inv (updThread_inv h1)
          · exact inv_of_pair ‹_› (decideAccess_inv hacc ..)
          · exact inv_of_pair ‹_› (decideAccess_inv hacc ..)
    · split
      · have h := inv_of_pair ‹_› (decideAccess_inv hacc ..)
        exact deliverMsg_inv (updThread_inv h)
      · exact inv_of_pair ‹_› (decideAccess_inv hacc ..)
      · exact inv_of_pair ‹_› (decideAccess_inv hacc ..)
    · exact hacc
  · exact hacc

theorem presentAll_inv {s : State} {gid : Gid} {tids : List Nat} (h : s.Inv) : (presentAll s gid tids).Inv :=
  updGroup_inv (meetAll_inv (foldl_inv_third (fun _ _ h1 => presentThread_inv h1) h)) ..

theorem resumeHelper_inv {s : State} {g : Group} (h : s.Inv) : (resumeHelper s g).Inv := by
  unfold resumeHelper
  dsimp only
  split
  · split
    · exact presentAll_inv (updGroup_inv (unblockFreed_inv (resumeGroup_inv h)) ..)
    · exact unblockFreed_inv (resumeGroup_inv h)
  · split
    · exact presentAll_inv (updGroup_inv (unblockFreed_inv (resumeGroup_inv h)) ..)
    · exact unblockFreed_inv (resumeGroup_inv h)

theorem execSwapOut_inv {tag grp : Nat} {s : State} (h : s.Inv) : NextInv (execSwapOut tag grp s) := by
  unfold execSwapOut
  show State.Inv _
  split
  · exact h
  · split
    · exact parkGroup_inv h
    · exact h

theorem unwind_inv {m : Nat} {x : Gid} {s : State} (h : s.Inv) : (unwind m x s).Inv := by
  induction m generalizing x s with
  | zero => exact h
  | succ n ih =>
    unfold unwind
    dsimp only
    split
    · exact h
    · split
      · exact h
      · split
        · split
          · split
            · exact resumeHelper_inv (parkGroup_inv (ih h))
            · exact parkGroup_inv (ih h)
          · split
            · exact resumeHelper_inv h
            · exact h
        · split
          · exact parkGroup_inv (ih h)
          · exact h

theorem signalGroup_inv {s : State} {gid : Gid} {deadline : Nat} (h : s.Inv) : (signalGroup s gid deadline).Inv := by
  unfold signalGroup
  dsimp only
  split
  · exact unwind_inv h
  · split
    · exact updGroup_inv (unwind_inv h) ..
    · split
      · exact unwind_inv h
      · split
        · exact parkGroup_inv (unwind_inv h)
        · exact keptSave_inv (takeTrap_inv (updGroup_inv (unwind_inv h) ..))

theorem execPreemptSignal_inv {tag : Nat} {s : State} (h : s.Inv) : NextInv (execPreemptSignal tag s) := by
  unfold execPreemptSignal
  show State.Inv _
  dsimp only
  split
  · exact h
  · split
    · exact markSaved_inv (foldl_inv (fun _ _ h1 => signalGroup_inv h1) (updGang_inv h))
    · split
      · exact foldl_inv (fun _ _ h1 => signalGroup_inv h1) h
      · exact h

theorem execHelperResume_inv {tag grp : Nat} {s : State} (h : s.Inv) : NextInv (execHelperResume tag grp s) := by
  unfold execHelperResume
  show State.Inv _
  split
  · exact h
  · split
    · exact presentAll_inv h
    · split
      · split
        · split
          · exact signalGroup_inv (resumeHelper_inv h)
          · exact resumeHelper_inv h
        · exact resumeHelper_inv h
      · exact h

theorem execPreemptDeadline_inv {tag : Nat} {s : State} (h : s.Inv) : NextInv (execPreemptDeadline tag s) := by
  unfold execPreemptDeadline
  show State.Inv _
  split
  · exact h
  · split
    · refine markSaved_inv ?_
      refine foldl_inv (fun _ _ h1 => ?_) h
      split
      · exact keptSave_inv h1
      · exact parkGroup_inv h1
    · exact h

theorem hayAccess_inv {s : State} {me : Option Who} {die asn : Nat} {va : W64} {n align : Nat} {a : Acc}
    {clean : Bool} (h : s.Inv) : (hayAccess s me die asn va n align a clean).2.Inv := by
  unfold hayAccess
  split
  · exact inv_of_pair ‹_› (decideAccess_inv h ..)
  · exact inv_of_pair ‹_› (decideAccess_inv h ..)
  · exact inv_of_pair ‹_› (decideAccess_inv h ..)
  · have h1 := inv_of_pair ‹_› (decideAccess_inv h ..)
    split
    · exact h1
    · split
      · exact h1
      · split
        · exact h1
        · exact lookPast_inv h1 ..

theorem hayWrite_inv {s : State} {me : Who} {locs : List Nat} {b : Bytes} {sys : Bool} (h : s.Inv) :
    (hayWrite s me locs b sys).Inv :=
  writeAs_inv h ..

theorem haySync_inv {s : State} {me : Who} {locs : List Nat} (h : s.Inv) : (haySync s me locs).Inv := by
  unfold haySync
  dsimp only
  split
  · exact acquire_inv (takeMarks_inv h) ..
  · exact takeMarks_inv h

theorem dropPost_inv {s : State} {n : Nat} (h : s.Inv) : (dropPost s n).Inv := updStream_inv h

theorem streamRecord_inv {s : State} {n cause : Nat} {addr : W64} {kind : Nat} {post : Bool} (h : s.Inv) :
    (streamRecord s n cause addr kind post).2.Inv := by
  unfold streamRecord
  dsimp only
  split
  · exact h
  · dsimp only
    exact putRecord_inv h

theorem stallStream_inv {s : State} {n cause : Nat} {addr : W64} {kind : Nat} (h : s.Inv) :
    (stallStream s n cause addr kind).Inv :=
  updStream_inv (streamRecord_inv h)

theorem killStream_inv {s : State} {n cause : Nat} {addr : W64} {kind : Nat} (h : s.Inv) :
    (killStream s n cause addr kind).Inv :=
  updStream_inv (postRecord_inv h)

theorem resolveRec_inv {s : State} {ref : RecRef} (h : s.Inv) : (resolveRec s ref).Inv := by
  unfold resolveRec
  split
  · exact updDie_inv h
  · exact h

theorem postAt_inv {s : State} {by_ : Poster} {n etype ts : Nat} {payload : Bytes} {ctl : Places} {i : W32}
    (h : s.Inv) : (postAt s by_ n etype ts payload ctl i).2.Inv := by
  unfold postAt
  dsimp only
  split
  · exact inv_of_pair ‹_› (decideAccess_inv h ..)
  · exact inv_of_pair ‹_› (decideAccess_inv h ..)
  · exact inv_of_pair ‹_› (decideAccess_inv h ..)
  · have h1 := inv_of_pair ‹_› (decideAccess_inv h ..)
    split
    · exact h1
    · refine updStream_inv ?_
      refine acquireAnswered_inv _ ?_
      refine markWrite_inv ?_ ..
      refine applyWrite_inv ?_ ..
      split
      · exact dropL1_inv (writeAs_inv h1 ..) ..
      · exact writeAs_inv h1 ..

theorem postTo_inv {s : State} {by_ : Poster} {n etype ts : Nat} {payload : Bytes} (h : s.Inv) :
    (postTo s by_ n etype ts payload).2.Inv := by
  unfold postTo
  dsimp only
  split
  · exact dropPost_inv h
  · split
    · exact inv_of_pair ‹_› (decideAccess_inv h ..)
    · exact inv_of_pair ‹_› (decideAccess_inv h ..)
    · exact inv_of_pair ‹_› (decideAccess_inv h ..)
    · have h1 := inv_of_pair ‹_› (decideAccess_inv h ..)
      split
      · exact h1
      · split
        · exact h1
        · split
          · exact postAt_inv h1
          · exact h1

theorem afterPost_inv {s : State} {p : Post} (h : s.Inv) : (afterPost s p).Inv := by
  unfold afterPost
  split
  · exact updGang_inv h
  · exact h

theorem endPost_inv {s : State} {n : Nat} {p : Post} (h : s.Inv) : (endPost s n p).Inv :=
  afterPost_inv (forget_inv (updStream_inv h) ..)

theorem runPosts_inv {n m : Nat} {s : State} (h : s.Inv) : (runPosts n m s).Inv := by
  induction m generalizing s with
  | zero => exact h
  | succ n ih =>
    unfold runPosts
    dsimp only
    split
    · split
      · have h1 := inv_of_pair ‹_› (postTo_inv h)
        exact ih (endPost_inv h1)
      · have h1 := inv_of_pair ‹_› (postTo_inv h)
        exact ih (endPost_inv h1)
      · exact inv_of_pair ‹_› (postTo_inv h)
      · exact inv_of_pair ‹_› (postTo_inv h)
      · have h1 := inv_of_pair ‹_› (postTo_inv h)
        exact updStream_inv (streamRecord_inv h1)
      · have h1 := inv_of_pair ‹_› (postTo_inv h)
        exact ih (endPost_inv (postRecord_inv h1))
      · have h1 := inv_of_pair ‹_› (postTo_inv h)
        exact ih (endPost_inv (postRecord_inv h1))
    · exact h

theorem retryPosts_inv {s : State} {n : Nat} (h : s.Inv) : (retryPosts s n).Inv := runPosts_inv h

theorem postEvent_inv {s : State} {n : Nat} {p : Post} {work : Past → Option (List Nat)} (h : s.Inv) :
    (postEvent s n p work).Inv :=
  retryPosts_inv (updStream_inv (learnTo_inv (freshId_inv h) ..))

theorem serviceEvent_inv {s : State} {d kind about other : Nat} (h : s.Inv) :
    (serviceEvent s d kind about other).Inv := by
  unfold serviceEvent
  dsimp only
  split
  · exact h
  · exact postEvent_inv h

theorem raiseMsix_inv {s : State} {v : Nat} (h : s.Inv) : (raiseMsix s v).Inv := h

theorem updAuto_inv {s : State} {die slot : Nat} {f : Automaton → Automaton} (h : s.Inv) :
    (updAuto s die slot f).Inv := by
  unfold updAuto
  split
  · exact updDie_inv h
  · exact h

theorem discardCand_inv {s : State} {die slot id : Nat} (h : s.Inv) : (discardCand s die slot id).Inv := updAuto_inv h

theorem setHold_inv {s : State} {n : Nat} {h : OfferHold} (hs : s.Inv) : (setHold s n h).Inv := updStream_inv hs

theorem endHold_inv {s : State} {n : Nat} {drop : Bool} (h : s.Inv) : (endHold s n drop).Inv := by
  unfold endHold
  dsimp only
  split
  · exact h
  · split
    · exact updAuto_inv (setHold_inv (resolveRec_inv h))
    · exact setHold_inv (resolveRec_inv h)

theorem leaveOffer_inv {s : State} {n die slot : Nat} (h : s.Inv) : (leaveOffer s n die slot).Inv := by
  unfold leaveOffer
  split
  · exact h
  · split
    · exact h
    · split
      · exact updStream_inv (endHold_inv h)
      · exact setHold_inv h

theorem takeEdge_inv {s : State} {n die slot : Nat} {c : Cand} {e : Edge} {ev : Option Bytes} {tau : Nat}
    {index : W32} (h : s.Inv) : (takeEdge s n die slot c e ev tau index).Inv := by
  unfold takeEdge
  dsimp only
  split
  · exact h
  · split
    · exact updAuto_inv h
    · split
      · exact updAuto_inv (leaveOffer_inv (updStream_inv (updAuto_inv h)))
      · exact updStream_inv (updAuto_inv h)

theorem processTime_inv {s : State} {die n : Nat} {p : Pending} (h : s.Inv) : (processTime s die n p).Inv := by
  unfold processTime
  split
  · exact takeEdge_inv h
  · exact discardCand_inv h

theorem offerCand_inv {s : State} {n die : Nat} {a : Automaton} {h : OfferHold} {id : Nat} {rest : List Nat}
    (hs : s.Inv) : (offerCand s n die a h id rest).Inv := by
  unfold offerCand
  dsimp only
  split
  · exact setHold_inv hs
  · split
    · exact setHold_inv hs
    · split
      · exact discardCand_inv (setHold_inv hs)
      · exact takeEdge_inv (setHold_inv hs)

theorem newCand_inv {s : State} {n die : Nat} {a : Automaton} {h : OfferHold} {e : Edge} (hs : s.Inv) :
    (newCand s n die a h e).Inv :=
  takeEdge_inv (setHold_inv (freshId_inv hs))

theorem overflowNotice_inv {s : State} {n die : Nat} {h : OfferHold} (hs : s.Inv) : (overflowNotice s n die h).Inv :=
  setHold_inv (postNotice_inv hs)

theorem offerStart_inv {s : State} {n die : Nat} {a : Automaton} {h : OfferHold} (hs : s.Inv) :
    (offerStart s n die a h).Inv := by
  unfold offerStart
  dsimp only
  split
  · exact setHold_inv hs
  · split
    · exact newCand_inv hs
    · split
      · split
        · exact updAuto_inv (setHold_inv hs)
        · exact newCand_inv (updAuto_inv (discardCand_inv hs))
      · exact updAuto_inv (setHold_inv hs)
      · exact setHold_inv hs
      · split
        · exact setHold_inv hs
        · exact overflowNotice_inv hs

theorem consume_inv {s : State} {n : Nat} {headm : List Nat} (h : s.Inv) : (consume s n headm).Inv :=
  retryPosts_inv (updStream_inv (hayWrite_inv h))

theorem finishOffer_inv {s : State} {n : Nat} (h : s.Inv) : OptInv (finishOffer s n) := by
  unfold finishOffer
  dsimp only
  split
  · have h1 := inv_of_pair ‹_› (hayAccess_inv h)
    exact consume_inv h1
  · have h1 := inv_of_pair ‹_› (hayAccess_inv h)
    exact stallStream_inv h1
  · have h1 := inv_of_pair ‹_› (hayAccess_inv h)
    exact killStream_inv h1
  · exact trivial

theorem offerStep_inv {s : State} {n : Nat} (h : s.Inv) : OptInv (offerStep s n) := by
  unfold offerStep
  dsimp only
  split
  · exact trivial
  · split
    · exact trivial
    · split
      · exact processTime_inv h
      · split
        · split
          · split
            · exact processTime_inv h
            · exact setHold_inv h
          · exact setHold_inv h
        · split
          · split
            · exact setHold_inv h
            · exact finishOffer_inv h
          · split
            · split
              · exact setHold_inv h
              · exact finishOffer_inv h
            · split
              · exact offerCand_inv h
              · split
                · exact offerStart_inv h
                · split
                  · exact setHold_inv h
                  · exact finishOffer_inv h

theorem offerLoop_inv {n m : Nat} {s : State} (h : s.Inv) : (offerLoop n m s).Inv := by
  induction m generalizing s with
  | zero => exact h
  | succ n ih =>
    unfold offerLoop
    split
    · have h1 := inv_of_some ‹_› (offerStep_inv h)
      exact ih h1
    · exact h

theorem offerOn_inv {s : State} {n : Nat} (h : s.Inv) : (offerOn s n).Inv := by
  unfold offerOn
  dsimp only
  split
  · exact h
  · exact offerLoop_inv h

theorem Ctx.holdEnds_inv {c : Ctx} {s : State} {ends : List (Nat × LaneEnd)} (h : s.Inv) : (c.holdEnds s ends).Inv :=
  foldl_inv (fun _ _ h1 => hold3_inv h1) h

theorem Ctx.finishWith_inv {c : Ctx} {s : State} {res : Bool} {info : W64} {ends : List (Nat × LaneEnd)}
    {go : Ctx → State → State} (h : s.Inv) (hgo : ∀ (a : Ctx) (b : State), b.Inv → (go a b).Inv) :
    (c.finishWith s res info ends go).Inv := by
  unfold Ctx.finishWith
  refine Ctx.traps4_inv ?_
  refine pushErrs_inv ?_
  refine Ctx.holdEnds_inv ?_
  refine foldl_inv (fun _ _ h1 => ?_) ?_
  · split
    · exact updThread_inv h1
    · exact h1
  · split
    · exact Ctx.skip_inv h ..
    · exact hgo _ _ h

theorem Ctx.finishLanes_inv {c : Ctx} {s : State} {ends : List (Nat × LaneEnd)} {f : Thread → Thread} (h : s.Inv) :
    (c.finishLanes s ends f).Inv :=
  Ctx.finishWith_inv h (fun _ _ h1 => Ctx.done_inv h1 ..)

theorem Ctx.evpostLane_inv {c : Ctx} {f : LongForm} {payload : State → Thread → Except LaneEnd Bytes × State}
    {acc : List (Nat × LaneEnd) × State} {t : Thread}
    (hpayload : ∀ (a : State), a.Inv → ∀ (b : Thread), (payload a b).2.Inv) (hacc : acc.2.Inv) :
    (c.evpostLane f payload acc t).2.Inv := by
  unfold Ctx.evpostLane
  dsimp only
  split
  · exact dropPost_inv hacc
  · split
    · exact inv_of_pair ‹_› (hpayload _ hacc _)
    · have h := inv_of_pair ‹_› (hpayload _ hacc _)
      exact postTo_inv h

theorem evpostOp_inv {s : State} {i : Instr} {f : LongForm}
    {payload : Ctx → State → Thread → Except LaneEnd Bytes × State} (h : s.Inv)
    (hpayload : ∀ (a : Ctx) (b : State), b.Inv → ∀ (x : Thread), (payload a b x).2.Inv) :
    (evpostOp s i f payload).Inv := by
  unfold evpostOp
  refine runCore_inv h (fun _ => ?_)
  dsimp only
  split
  · exact h
  · exact Ctx.finishLanes_inv (foldl_inv_snd (fun _ _ h1 => Ctx.evpostLane_inv (fun _ h2 _ => hpayload _ _ h2 _) h1)
      h)

theorem readPayload_inv {f : LongForm} {c : Ctx} {s : State} {t : Thread} (h : s.Inv) :
    (readPayload f c s t).2.Inv := by
  unfold readPayload
  dsimp only
  split
  · exact inv_of_pair ‹_› (Ctx.decide_inv h)
  · exact inv_of_pair ‹_› (Ctx.decide_inv h)
  · exact inv_of_pair ‹_› (Ctx.decide_inv h)
  · have h1 := inv_of_pair ‹_› (Ctx.decide_inv h)
    split <;> exact readCore_inv h1 ..

theorem arriveAt_inv {s : State} {locs : List Nat} (h : s.Inv) : (arriveAt s locs).Inv := applyWrite_inv h ..

theorem Ctx.evbarPosts_inv {c : Ctx} {f : LongForm} {tid : Nat} {va : W64} {locs l : List Nat} {s : State}
    (h : s.Inv) : (c.evbarPosts f tid va locs l s).2.Inv := by
  induction l generalizing s with
  | nil => exact updThread_inv h
  | cons x xs ih =>
    unfold Ctx.evbarPosts
    dsimp only
    split
    · have h1 := inv_of_pair ‹_› (postTo_inv h)
      exact ih (updThread_inv h1)
    · have h1 := inv_of_pair ‹_› (postTo_inv h)
      exact ih (updThread_inv (arriveAt_inv h1))
    · have h1 := inv_of_pair ‹_› (postTo_inv h)
      dsimp only
      split
      · exact h1
      · exact updThread_inv h1

theorem Ctx.evbarLane_inv {c : Ctx} {f : LongForm} {acc : List (Nat × Bool × LaneEnd) × State} {l : Lane}
    (hacc : acc.2.Inv) : (c.evbarLane f acc l).2.Inv := by
  unfold Ctx.evbarLane
  dsimp only
  split
  · exact hacc
  · exact hacc
  · exact hacc
  · split
    · exact hacc
    · split
      · exact Ctx.evbarPosts_inv hacc
      · split
        · exact hacc
        · exact Ctx.evbarPosts_inv (updThread_inv (dropL1_inv (writeAs_inv (countOne_inv hacc) ..) ..))

theorem execEvbar_inv {f : LongForm} {s : State} (h : s.Inv) : NextInv (execEvbar f s) := by
  unfold execEvbar
  show State.Inv _
  refine runCore_inv h (fun _ => ?_)
  dsimp only
  split
  · exact h
  · split
    · exact h
    · exact Ctx.finishLanes_inv (foldl_inv_snd (fun _ _ h1 => Ctx.evbarLane_inv h1) (Ctx.decideLanes_inv h))

theorem pollRings_inv {s : State} (h : s.Inv) : (pollRings s).Inv := by
  unfold pollRings
  dsimp only
  split <;> exact h

theorem readSlot_inv {s : State} {n : Nat} (h : s.Inv) : (readSlot s n).2.Inv := by
  unfold readSlot
  dsimp only
  split
  · have h1 := inv_of_pair ‹_› (hayAccess_inv h)
    split
    · exact h1
    · split <;> exact inv_of_pair ‹_› (hayAccess_inv (updStream_inv (haySync_inv h1)))
  · exact inv_of_pair ‹_› (hayAccess_inv h)

theorem slotTrouble_inv {s : State} {n : Nat} {x : Slotted} (h : s.Inv) : (slotTrouble s n x).Inv := by
  unfold slotTrouble
  split
  · exact updStream_inv h
  · exact stallStream_inv h
  · exact killStream_inv h
  · exact h

theorem offerRecord_inv {s : State} {n : Nat} {b : Bytes} (h : s.Inv) : (offerRecord s n b).Inv :=
  offerLoop_inv (updStream_inv h)

theorem execEventOffer_inv {n : Nat} {s : State} (h : s.Inv) : NextInv (execEventOffer n s) := by
  unfold execEventOffer
  show State.Inv _
  split
  · exact offerOn_inv h
  · split
    · exact h
    · split
      · have h1 := inv_of_pair ‹_› (readSlot_inv h)
        split
        · exact h
        · exact offerRecord_inv h1
      · have h1 := inv_of_pair ‹_› (readSlot_inv h)
        exact slotTrouble_inv h1

theorem blockAt_inv {s : State} {n : Nat} {va : W64} (h : s.Inv) : (blockAt s n va).2.Inv := hayAccess_inv h

theorem consumeAt_inv {s : State} {n : Nat} (h : s.Inv) : (consumeAt s n).Inv := optInv_getD (finishOffer_inv h) h

theorem reachBarrier_inv {s : State} {n : Nat} {va : W64} (h : s.Inv) : (reachBarrier s n va).Inv := by
  unfold reachBarrier
  split
  · have h1 := inv_of_pair ‹_› (blockAt_inv h)
    split
    · exact updStream_inv (arriveAt_inv h1)
    · exact consumeAt_inv h1
  · exact inv_of_pair ‹_› (blockAt_inv h)
  · have h1 := inv_of_pair ‹_› (blockAt_inv h)
    exact consumeAt_inv h1

theorem execBarrierRecord_inv {n : Nat} {s : State} (h : s.Inv) : NextInv (execBarrierRecord n s) := by
  unfold execBarrierRecord
  show State.Inv _
  split
  · exact h
  · split
    · have h1 := inv_of_pair ‹_› (readSlot_inv h)
      exact reachBarrier_inv h1
    · exact h

theorem execBarrierRecordDone_inv {n : Nat} {s : State} (h : s.Inv) : NextInv (execBarrierRecordDone n s) := by
  unfold execBarrierRecordDone
  show State.Inv _
  split
  · exact consumeAt_inv h
  · exact h

theorem execOverflowHoldEnd_inv {n : Nat} {s : State} (h : s.Inv) : NextInv (execOverflowHoldEnd n s) := by
  unfold execOverflowHoldEnd
  show State.Inv _
  dsimp only
  split
  · exact offerOn_inv (endHold_inv h)
  · exact h

end Sys2Proof.Machine
end

section
/-! The invariant of memory over automata and launches (O59). -/

namespace Sys2Proof.Machine

open Sys2Proof

theorem Ctx.readPiece_inv {c : Ctx} {t : Thread} {s : State} {va : W64} {n align : Nat} (h : s.Inv) :
    (c.readPiece t s va n align).2.Inv := by
  unfold Ctx.readPiece
  dsimp only
  split
  · exact inv_of_pair ‹_› (Ctx.decide_inv h)
  · exact inv_of_pair ‹_› (Ctx.decide_inv h)
  · exact inv_of_pair ‹_› (Ctx.decide_inv h)
  · have h1 := inv_of_pair ‹_› (Ctx.decide_inv h)
    split <;> exact readCore_inv h1 ..

theorem hayPiece_inv {me : Who} {die asn : Nat} {s : State} {va : W64} {n align : Nat} (h : s.Inv) :
    (hayPiece me die asn s va n align).2.Inv := by
  unfold hayPiece
  split <;> exact inv_of_pair ‹_› (hayAccess_inv h)

theorem readPieces_inv {rd : ReadBy} {l : List (W64 × Nat)} {s : State}
    (hrd : ∀ (a : State), a.Inv → ∀ (b : W64) (x y : Nat), (rd a b x y).2.Inv) (h : s.Inv) :
    (readPieces rd l s).2.Inv := by
  induction l generalizing s with
  | nil => exact h
  | cons x xs ih =>
    unfold readPieces
    split
    · exact inv_of_pair ‹_› (hrd _ h _ _ _)
    · have h1 := inv_of_pair ‹_› (hrd _ h _ _ _)
      split <;> exact inv_of_pair ‹_› (ih h1)

theorem readMany_inv {rd : ReadBy} {s : State} {va : W64} {n : Nat}
    (hrd : ∀ (a : State), a.Inv → ∀ (b : W64) (x y : Nat), (rd a b x y).2.Inv) (h : s.Inv) :
    (readMany rd s va n).2.Inv :=
  readPieces_inv (fun _ h1 _ _ _ => hrd _ h1 _ _ _) h

theorem Ctx.decideMany_inv {c : Ctx} {pieces : List (W64 × Nat)} {s : State} (h : s.Inv) :
    (c.decideMany pieces s).2.Inv := by
  unfold Ctx.decideMany
  dsimp only
  split
  · exact foldl_inv_snd (fun _ _ h1 => Ctx.decide_inv h1) h
  · split
    · exact foldl_inv_snd (fun _ _ h1 => Ctx.decide_inv h1) h
    · split <;> exact foldl_inv_snd (fun _ _ h1 => Ctx.decide_inv h1) h

theorem Ctx.writePieces_inv {c : Ctx} {tid : Nat} {ps : List (W64 × Bytes)} {err : Option LaneEnd} {s : State}
    (h : s.Inv) : (c.writePieces tid ps err s).2.Inv := by
  induction ps generalizing err s with
  | nil => cases err <;> exact h
  | cons x rest ih =>
    unfold Ctx.writePieces
    split
    · exact inv_of_pair ‹_› (Ctx.decide_inv h)
    · exact inv_of_pair ‹_› (Ctx.decide_inv h)
    · exact inv_of_pair ‹_› (Ctx.decide_inv h)
    · have h1 := inv_of_pair ‹_› (Ctx.decide_inv h)
      exact ih (Ctx.storeAt_inv h1)

theorem hayMany_inv {me : Who} {die asn : Nat} {l : List (W64 × Bytes)} {s : State} (h : s.Inv) :
    (hayMany me die asn l s).2.Inv := by
  induction l generalizing s with
  | nil => exact h
  | cons x xs ih =>
    unfold hayMany
    split
    · have h1 := inv_of_pair ‹_› (hayAccess_inv h)
      exact ih (hayWrite_inv h1)
    all_goals exact inv_of_pair ‹_› (hayAccess_inv h)

theorem hayStore_inv {me : Who} {die asn : Nat} {s : State} {va : W64} {b : Bytes} (h : s.Inv) :
    (hayStore me die asn s va b).2.Inv :=
  hayMany_inv h

theorem Ctx.writeMany_inv {c : Ctx} {tid : Nat} {s : State} {va : W64} {b : Bytes} (h : s.Inv) :
    (c.writeMany tid s va b).2.Inv :=
  Ctx.writePieces_inv h

theorem readImage_inv {rd : ReadBy} {s : State} {va : W64}
    (hrd : ∀ (a : State), a.Inv → ∀ (b : W64) (x y : Nat), (rd a b x y).2.Inv) (h : s.Inv) :
    (readImage rd s va).2.Inv := by
  unfold readImage
  split
  · exact inv_of_pair ‹_› (hrd _ h _ _ _)
  · have h1 := inv_of_pair ‹_› (hrd _ h _ _ _)
    split <;> exact inv_of_pair ‹_› (readMany_inv (fun _ h2 _ _ _ => hrd _ h2 _ _ _) h1)

theorem placeAuto_inv {s : State} {die slot : Nat} {a : Automaton} (h : s.Inv) : (placeAuto s die slot a).Inv :=
  updDie_inv h

theorem loadInto_inv {s : State} {die n : Nat} {img : Bytes} (h : s.Inv) : (loadInto s die n img).2.Inv := by
  unfold loadInto
  split
  · exact h
  · split
    · exact h
    · exact placeAuto_inv h

theorem readSave_inv {rd : ReadBy} {s : State} {va : W64}
    (hrd : ∀ (a : State), a.Inv → ∀ (b : W64) (x y : Nat), (rd a b x y).2.Inv) (h : s.Inv) :
    (readSave rd s va).2.Inv := by
  unfold readSave
  dsimp only
  split
  · exact inv_of_pair ‹_› (hrd _ h _ _ _)
  · have h1 := inv_of_pair ‹_› (hrd _ h _ _ _)
    split
    · exact inv_of_pair ‹_› (readImage_inv (fun _ h2 _ _ _ => hrd _ h2 _ _ _) h1)
    · have h2 := inv_of_pair ‹_› (readImage_inv (fun _ h2 _ _ _ => hrd _ h2 _ _ _) h1)
      split
      · exact h2
      · split <;> exact inv_of_pair ‹_› (readMany_inv (fun _ h3 _ _ _ => hrd _ h3 _ _ _) h2)

theorem freshIds_inv {s : State} {n : Nat} (h : s.Inv) : (freshIds s n).2.Inv := h

theorem armSlot_inv {s : State} {die slot : Nat} (h : s.Inv) : (armSlot s die slot).Inv := by
  unfold armSlot
  dsimp only
  split
  · exact h
  · split
    · exact h
    · exact updStream_inv (updDie_inv h)

theorem restoreInto_inv {s : State} {die n : Nat} {r : SaveRec} (h : s.Inv) : OptSndInv (restoreInto s die n r) := by
  unfold restoreInto
  dsimp only
  split
  · exact h
  · split
    · exact trivial
    · show State.Inv _
      split
      · exact armSlot_inv (placeAuto_inv (freshIds_inv h))
      · exact placeAuto_inv (freshIds_inv h)

theorem stopAuto_inv {s : State} {die slot : Nat} {a : Automaton} (h : s.Inv) : (stopAuto s die slot a).Inv := by
  unfold stopAuto
  split
  · exact leaveOffer_inv h
  · exact h

theorem freeSlot_inv {s : State} {die slot n : Nat} (h : s.Inv) : (freeSlot s die slot n).Inv := by
  unfold freeSlot
  dsimp only
  split
  · exact updDie_inv h
  · exact updStream_inv (updDie_inv h)

theorem disarmSlot_inv {s : State} {die slot : Nat} {free : Bool} (h : s.Inv) : (disarmSlot s die slot free).Inv := by
  unfold disarmSlot
  dsimp only
  split
  · exact h
  · refine offerOn_inv ?_
    split
    · exact freeSlot_inv (updAuto_inv (stopAuto_inv h))
    · exact updAuto_inv (stopAuto_inv h)

theorem saveSlot_inv {wr : WriteBy} {s : State} {die slot : Nat} {a : Automaton} {va : W64} {stop : Bool}
    (hwr : ∀ (a : State), a.Inv → ∀ (b : W64) (x : Bytes), (wr a b x).2.Inv) (h : s.Inv) :
    (saveSlot wr s die slot a va stop).2.Inv := by
  unfold saveSlot
  dsimp only
  split
  · exact h
  · dsimp only
    split
    · exact offerOn_inv (hwr _ (updAuto_inv (stopAuto_inv h)) _ _)
    · exact hwr _ h _ _
  · dsimp only
    split
    · exact disarmSlot_inv (hwr _ (updAuto_inv (stopAuto_inv h)) _ _)
    · exact hwr _ h _ _

theorem Ctx.holdAgain_inv {c : Ctx} {s : State} {rs : List AutoRes} (h : s.Inv) : (c.holdAgain s rs).Inv := by
  unfold Ctx.holdAgain
  dsimp only
  split
  · exact h
  · exact Ctx.upd_inv h

theorem Ctx.autoWords_inv {c : Ctx} {s : State} {f : LongForm} {rs : List AutoRes} (h : s.Inv) :
    (c.autoWords s f rs).Inv :=
  Ctx.holdAgain_inv (Ctx.finishWith_inv h (fun _ _ h1 => Ctx.result_inv h1))

theorem Ctx.autoMasks_inv {c : Ctx} {s : State} {f : LongForm} {rs : List AutoRes} (h : s.Inv) :
    (c.autoMasks s f rs).Inv :=
  Ctx.holdAgain_inv (Ctx.finishLanes_inv h)

theorem Ctx.oneByOne_inv {c : Ctx} {s : State} {act : State → Thread → AutoRes × State} (h : s.Inv)
    (hact : ∀ (a : State), a.Inv → ∀ (b : Thread), (act a b).2.Inv) : (c.oneByOne s act).2.Inv := by
  unfold Ctx.oneByOne
  refine foldl_inv_snd (fun _ _ h1 => ?_) h
  dsimp only
  split
  · exact h1
  · exact hact _ h1 _

theorem Ctx.amReadLane_inv {c : Ctx} {f : LongForm} {restore : Bool} {s : State} {t : Thread} (h : s.Inv) :
    (c.amReadLane f restore s t).2.Inv := by
  unfold Ctx.amReadLane
  dsimp only
  split
  · exact h
  · exact h
  · split
    · split
      · exact inv_of_pair ‹_› (readSave_inv (fun _ h1 _ _ _ => Ctx.readPiece_inv h1) h)
      · have h1 := inv_of_pair ‹_› (readSave_inv (fun _ h1 _ _ _ => Ctx.readPiece_inv h1) h)
        split
        · exact h1
        · exact inv_of_some_pair ‹_› (restoreInto_inv h1)
    · split
      · exact inv_of_pair ‹_› (readImage_inv (fun _ h1 _ _ _ => Ctx.readPiece_inv h1) h)
      · have h1 := inv_of_pair ‹_› (readImage_inv (fun _ h1 _ _ _ => Ctx.readPiece_inv h1) h)
        exact loadInto_inv h1

theorem amReadOp_inv {s : State} {i : Instr} {f : LongForm} {restore : Bool} (h : s.Inv) :
    (amReadOp s i f restore).Inv := by
  unfold amReadOp
  refine runCore_inv h (fun _ => ?_)
  dsimp only
  exact Ctx.autoWords_inv (Ctx.oneByOne_inv h (fun _ h1 _ => Ctx.amReadLane_inv h1))

theorem onHandle_inv {s : State} {w : W32} {go : Nat → Nat → Automaton → Option (Bool × State)} (h : s.Inv)
    (hgo : ∀ (a b : Nat) (x : Automaton), OptSndInv (go a b x)) : OptSndInv (onHandle s w go) := by
  unfold onHandle
  split
  · exact h
  · split
    · exact trivial
    · exact h
    · split
      · exact h
      · exact hgo _ _ _

theorem armHandle_inv {s : State} {w : W32} (h : s.Inv) : OptSndInv (armHandle s w) := by
  unfold armHandle
  refine onHandle_inv h (fun _ _ _ => ?_)
  split
  · exact h
  · split
    · exact h
    · split
      · exact trivial
      · exact armSlot_inv h

theorem disarmHandle_inv {free : Bool} {s : State} {w : W32} (h : s.Inv) : OptSndInv (disarmHandle free s w) := by
  unfold disarmHandle
  refine onHandle_inv h (fun _ _ _ => ?_)
  split
  · exact trivial
  · exact disarmSlot_inv h

theorem amHandleOp_inv {s : State} {i : Instr} {f : LongForm} {go : State → W32 → Option (Bool × State)} (h : s.Inv)
    (hgo : ∀ (a : State), a.Inv → ∀ (b : W32), OptSndInv (go a b)) : (amHandleOp s i f go).Inv := by
  unfold amHandleOp
  refine runCore_inv h (fun _ => ?_)
  dsimp only
  refine Ctx.autoMasks_inv ?_
  refine Ctx.oneByOne_inv h (fun _ h1 _ => ?_)
  split
  · exact inv_of_some_pair ‹_› (hgo _ h1 _)
  · exact h1

theorem Ctx.amSaveLane_inv {c : Ctx} {f : LongForm} {stop : Bool} {s : State} {t : Thread} (h : s.Inv) :
    (c.amSaveLane f stop s t).2.Inv := by
  unfold Ctx.amSaveLane
  dsimp only
  split
  · exact h
  · split
    · exact h
    · exact h
    · split
      · exact h
      · split
        · exact h
        · split
          · exact h
          · dsimp only
            exact saveSlot_inv (fun _ h1 _ _ => Ctx.writeMany_inv h1) h

theorem amSaveOp_inv {s : State} {i : Instr} {f : LongForm} {stop : Bool} (h : s.Inv) :
    (amSaveOp s i f stop).Inv := by
  unfold amSaveOp
  refine runCore_inv h (fun _ => ?_)
  dsimp only
  exact Ctx.autoMasks_inv (Ctx.oneByOne_inv h (fun _ h1 _ => Ctx.amSaveLane_inv h1))

theorem portEnd_inv {s : State} {w : W32} (h : s.Inv) : (portEnd s w).Inv := h

theorem portBit_inv {r : Option (Bool × State)} (hr : OptSndInv r) : OptInv (portBit r) :=
  optInv_map (fun _ h => portEnd_inv h) hr

theorem portRead_inv {α : Type} {s : State} {die : Nat} {rd : Except LaneEnd α × State}
    {go : State → α → Option (W32 × State)} (h : s.Inv) (hrd : rd.2.Inv) (hgo : ∀ s x, s.Inv → OptSndInv (go s x)) :
    OptInv (portRead s die rd go) := by
  obtain ⟨r, t⟩ := rd
  unfold portRead
  cases hayState s die with
  | waits => trivial
  | never => exact portEnd_inv h
  | acts =>
    cases r with
    | ok x => exact optInv_map (fun _ h1 => portEnd_inv h1) (hgo t x hrd)
    | error e =>
      cases e with
      | waits => trivial
      | _ => exact portEnd_inv hrd

theorem portSave_inv {s : State} {die slot : Nat} {a : Automaton} {stop : Bool} (h : s.Inv) :
    OptInv (portSave s die slot a stop) := by
  unfold portSave
  dsimp only
  split
  · exact trivial
  · split
    · have h1 := inv_of_pair ‹_› (saveSlot_inv (fun _ h1 _ _ => hayStore_inv h1) h)
      exact portEnd_inv h1
    · exact trivial
    · have h1 := inv_of_pair ‹_› (saveSlot_inv (fun _ h1 _ _ => hayStore_inv h1) h)
      exact portEnd_inv h1

theorem portRun_inv {s : State} (h : s.Inv) : OptInv (portRun s) := by
  unfold portRun
  dsimp only
  split
  · exact portEnd_inv h
  · split
    · exact portRead_inv h (readImage_inv (fun _ h1 _ _ _ => hayPiece_inv h1) h) (fun _ _ h1 => loadInto_inv h1)
    · exact portBit_inv (armHandle_inv h)
    · exact portBit_inv (disarmHandle_inv h)
    · exact portBit_inv (disarmHandle_inv h)
    · exact portRead_inv h (readSave_inv (fun _ h1 _ _ _ => hayPiece_inv h1) h) (fun _ _ h1 => restoreInto_inv h1)
    · split
      · exact portEnd_inv h
      · split
        · exact trivial
        · exact portSave_inv h
        · exact portEnd_inv h

theorem portCmd_inv {op : Nat} {s : State} (h : s.Inv) : (portCmd op s).Inv := by
  unfold portCmd
  split
  · exact optInv_getD (portRun_inv h) h
  · exact h

theorem doTime_inv {s : State} {die : Nat} {deadline : Bool} (h : s.Inv) : (doTime s die deadline).Inv := by
  unfold doTime
  split
  · split
    · exact processTime_inv h
    · exact h
  · exact h

theorem readTemplate_inv {s : State} {me : Who} {die asn : Nat} {va : W64} (h : s.Inv) :
    (readTemplate s me die asn va).2.Inv := by
  unfold readTemplate
  dsimp only
  split
  · exact inv_of_pair ‹_› (hayAccess_inv h)
  · exact inv_of_pair ‹_› (hayAccess_inv h)
  · exact inv_of_pair ‹_› (hayAccess_inv h)
  · have h1 := inv_of_pair ‹_› (hayAccess_inv h)
    split
    · exact h1
    · split <;> exact inv_of_pair ‹_› (hayAccess_inv h1)

theorem updAccept_inv {s : State} {n : Nat} {f : Accept → Accept} (h : s.Inv) : (updAccept s n f).Inv :=
  updStream_inv h

theorem stallIn_inv {s : State} {n asn cause : Nat} {addr : W64} {kind : Nat} (h : s.Inv) :
    OptInv (stallIn s n asn cause addr kind) := by
  unfold stallIn
  dsimp only
  split
  · exact trivial
  · show State.Inv _
    refine updAccept_inv ?_
    refine updStream_inv ?_
    split
    · exact h
    · dsimp only
      exact putRecord_inv h

theorem endAccept_inv {s : State} {n : Nat} (h : s.Inv) : (endAccept s n).Inv := offerOn_inv (updStream_inv h)

theorem dropLaunch_inv {s : State} {n code : Nat} {x : Accept} (h : s.Inv) : (dropLaunch s n code x).Inv :=
  endAccept_inv (postRecord_inv h)

theorem takeTag_inv {s : State} {die : Nat} (h : s.Inv) : (takeTag s die).2.Inv := updDie_inv h

theorem toldHost_inv {s : State} {me : Who} (h : s.Inv) : (toldHost s me).Inv := learnTo_inv h ..

theorem acceptNogang_inv {s : State} {n : Nat} {t : Template} (h : s.Inv) : (acceptNogang s n t).Inv := by
  unfold acceptNogang
  refine endAccept_inv ?_
  split
  · refine postEvent_inv ?_
    split
    · exact raiseMsix_inv (toldHost_inv h)
    · exact h
  · split
    · exact raiseMsix_inv (toldHost_inv h)
    · exact h

theorem launched_inv {s : State} {me : Who} {tag : Nat} (h : s.Inv) : (launched s me tag).Inv := learnTo_inv h ..

theorem writeBlock_inv {s : State} {n : Nat} {x : Accept} {t : Template} {i : Nat} (h : s.Inv) :
    OptInv (writeBlock s n x t i) := by
  unfold writeBlock
  dsimp only
  split
  · have h1 := inv_of_pair ‹_› (hayAccess_inv h)
    exact stallIn_inv h1
  · have h1 := inv_of_pair ‹_› (hayAccess_inv h)
    exact dropLaunch_inv h1
  · exact trivial
  · have h1 := inv_of_pair ‹_› (hayAccess_inv h)
    split
    · exact trivial
    · split
      · have h2 := inv_of_pair ‹_› (hayAccess_inv h1)
        exact stallIn_inv h2
      · have h2 := inv_of_pair ‹_› (hayAccess_inv h1)
        exact dropLaunch_inv h2
      · exact trivial
      · have h2 := inv_of_pair ‹_› (hayAccess_inv h1)
        show State.Inv _
        refine updStream_inv ?_
        split
        · exact raiseMsix_inv (toldHost_inv (launched_inv (hayWrite_inv (hayWrite_inv (takeTag_inv h2)))))
        · exact launched_inv (hayWrite_inv (hayWrite_inv (takeTag_inv h2)))

theorem takeIndex_inv {s : State} {n : Nat} {x : Accept} {t : Template} (h : s.Inv) : OptInv (takeIndex s n x t) := by
  unfold takeIndex
  dsimp only
  split
  · exact writeBlock_inv h
  · split
    · have h1 := inv_of_pair ‹_› (hayAccess_inv h)
      exact stallIn_inv h1
    · have h1 := inv_of_pair ‹_› (hayAccess_inv h)
      exact dropLaunch_inv h1
    · exact trivial
    · have h1 := inv_of_pair ‹_› (hayAccess_inv h)
      exact optInv_getD (writeBlock_inv (updAccept_inv (hayWrite_inv h1))) (updAccept_inv (hayWrite_inv h1))

theorem launchWith_inv {s : State} {n : Nat} {x : Accept} {t : Template} (h : s.Inv) :
    OptInv (launchWith s n x t) := by
  unfold launchWith
  split
  · exact trivial
  · split
    · exact acceptNogang_inv h
    · exact takeIndex_inv h

theorem acceptStep_inv {s : State} {n : Nat} (h : s.Inv) : OptInv (acceptStep s n) := by
  unfold acceptStep
  dsimp only
  split
  · exact trivial
  · split
    · exact launchWith_inv h
    · split
      · have h1 := inv_of_pair ‹_› (readTemplate_inv h)
        exact stallIn_inv h1
      · have h1 := inv_of_pair ‹_› (readTemplate_inv h)
        exact dropLaunch_inv h1
      · exact trivial
      · have h1 := inv_of_pair ‹_› (readTemplate_inv h)
        exact optInv_getD (launchWith_inv (updAccept_inv h1)) (updAccept_inv h1)

theorem execArgBlockWrite_inv {n : Nat} {s : State} (h : s.Inv) : NextInv (execArgBlockWrite n s) := by
  unfold execArgBlockWrite
  show State.Inv _
  split
  · exact optInv_getD (acceptStep_inv h) h
  · exact h

theorem updQueue_inv {s : State} {die q : Nat} {f : Queue → Queue} (h : s.Inv) : (updQueue s die q f).Inv :=
  updDie_inv h

theorem addGang_inv {s : State} {die : Nat} {l : Launch} {fail : Option Nat} {started : Bool} (h : s.Inv) :
    (addGang s die l fail started).Inv :=
  freshId_inv h

theorem unqueueTag_inv {s : State} {die q tag : Nat} (h : s.Inv) : (unqueueTag s die q tag).Inv := updQueue_inv h

theorem removeUnplaceable_inv {s : State} {die q : Nat} {l : Launch} (h : s.Inv) :
    (removeUnplaceable s die q l).Inv :=
  addGang_inv (unqueueTag_inv h)

theorem enqueueLaunch_inv {s : State} {die q : Nat} {l : Launch} (h : s.Inv) : (enqueueLaunch s die q l).Inv := by
  unfold enqueueLaunch
  dsimp only
  split
  · refine removeUnplaceable_inv ?_
    split
    · exact writeRecord_inv (updQueue_inv (updDie_inv h))
    · exact updQueue_inv (updDie_inv h)
  · split
    · exact writeRecord_inv (updQueue_inv (updDie_inv h))
    · exact updQueue_inv (updDie_inv h)

theorem execLaunchEnqueue_inv {n : Nat} {s : State} (h : s.Inv) : NextInv (execLaunchEnqueue n s) := by
  unfold execLaunchEnqueue
  show State.Inv _
  dsimp only
  split
  · exact h
  · split
    · exact offerOn_inv (updStream_inv (enqueueLaunch_inv h))
    · exact h

theorem drawQueue_inv {s : State} {die : Nat} (h : s.Inv) : (drawQueue s die).2.Inv := by
  unfold drawQueue
  dsimp only
  split
  · split
    · exact updDie_inv h
    · exact h
  · exact updDie_inv h

theorem execLotteryDraw_inv {die : Nat} {s : State} (h : s.Inv) : NextInv (execLotteryDraw die s) := by
  unfold execLotteryDraw
  show State.Inv _
  split
  · exact h
  · split
    · exact inv_of_pair ‹_› (drawQueue_inv h)
    · have h1 := inv_of_pair ‹_› (drawQueue_inv h)
      split
      · exact h1
      · split
        · exact removeUnplaceable_inv h1
        · split
          · exact updQueue_inv h1
          · exact updDie_inv h1

theorem bqRead_inv {s : State} {me : Who} {die asn : Nat} {va : W64} {n : Nat} {go : Bytes → State → InhEnd × State}
    (h : s.Inv) (hgo : ∀ (a : Bytes) (b : State), b.Inv → (go a b).2.Inv) :
    (bqRead s me die asn va n go).2.Inv := by
  unfold bqRead
  split
  · have h1 := inv_of_pair ‹_› (hayAccess_inv h)
    exact hgo _ _ h1
  · exact inv_of_pair ‹_› (hayAccess_inv h)
  · exact inv_of_pair ‹_› (hayAccess_inv h)

theorem inheritRegs_inv {me : Who} {gid : Gid} {die asn : Nat} {area : W64} {w bqf bqn n : Nat} {head : Bytes}
    {l : List Nat} {s : State} (h : s.Inv) : (inheritRegs me gid die asn area w bqf bqn n head l s).2.Inv := by
  induction l generalizing s with
  | nil => exact h
  | cons x xs ih =>
    unfold inheritRegs
    dsimp only
    split
    · exact ih h
    · exact bqRead_inv h (fun _ _ h1 => ih (updGroup_inv h1 ..))

theorem inheritWarps_inv {me : Who} {gid : Gid} {die asn : Nat} {area : W64} {bqf bqn n : Nat} {l : List Nat}
    {s : State} (h : s.Inv) : (inheritWarps me gid die asn area bqf bqn n l s).2.Inv := by
  induction l generalizing s with
  | nil => exact h
  | cons x xs ih =>
    unfold inheritWarps
    refine bqRead_inv h (fun _ _ h1 => ?_)
    split
    · have h2 := inv_of_pair ‹_› (inheritRegs_inv h1)
      exact ih h2
    · exact inheritRegs_inv h1

theorem inheritGroups_inv {me : Who} {die asn : Nat} {base : W64} {stride : W32} {stages : List Nat} {l : List Gid}
    {s : State} (h : s.Inv) : (inheritGroups me die asn base stride stages l s).2.Inv := by
  induction l generalizing s with
  | nil => exact h
  | cons x xs ih =>
    unfold inheritGroups
    refine bqRead_inv h (fun _ _ h1 => ?_)
    dsimp only
    split
    · exact ih h1
    · split
      · exact h1
      · split
        · exact ih h1
        · split
          · have h2 := inv_of_pair ‹_› (inheritWarps_inv h1)
            exact ih h2
          · exact inheritWarps_inv h1

theorem inherit_inv {s : State} {die : Nat} {l : Launch} {gids : List Gid} {e : Bytes} (h : s.Inv) :
    OptInv (inherit s die l gids e) := by
  unfold inherit
  dsimp only
  split
  · have h1 := inv_of_pair ‹_› (hayAccess_inv h)
    split
    · exact h1
    · split
      · have h2 := inv_of_pair ‹_› (inheritGroups_inv (hayWrite_inv h1))
        exact postRecord_inv h2
      · exact trivial
      · have h2 := inv_of_pair ‹_› (inheritGroups_inv (hayWrite_inv h1))
        exact hayWrite_inv h2
  · exact trivial
  · exact inv_of_pair ‹_› (hayAccess_inv h)

theorem droppedWrite_inv {s : State} {die : Nat} {va : W64} (h : s.Inv) : (droppedWrite s die va).Inv :=
  postRecord_inv h

theorem holdWrite_inv {s : State} {die core : Nat} {l : Launch} {hlp : Option (W32 × Nat)} {cause : Nat} {addr : W64}
    (h : s.Inv) : (holdWrite s die core l hlp cause addr).2.Inv :=
  class3_inv h

theorem writeAstate_inv {s : State} {die core : Nat} {l : Launch} {hlp : Option (W32 × Nat)} {v : Nat} {sys : Bool}
    (h : s.Inv) : (writeAstate s die core l hlp v sys).2.Inv := by
  unfold writeAstate
  split
  · have h1 := inv_of_pair ‹_› (hayAccess_inv h)
    exact hayWrite_inv h1
  · have h1 := inv_of_pair ‹_› (hayAccess_inv h)
    exact droppedWrite_inv h1
  · exact inv_of_pair ‹_› (hayAccess_inv h)
  · have h1 := inv_of_pair ‹_› (hayAccess_inv h)
    exact holdWrite_inv h1

theorem clearBequest_inv {s : State} {die core grp stage : Nat} {l : Launch} {hlp : Option (W32 × Nat)} (h : s.Inv) :
    (clearBequest s die core grp stage l hlp).2.Inv := by
  unfold clearBequest
  dsimp only
  split
  · have h1 := inv_of_pair ‹_› (decideAccess_inv h ..)
    exact holdWrite_inv h1
  · have h1 := inv_of_pair ‹_› (decideAccess_inv h ..)
    exact droppedWrite_inv h1
  · exact inv_of_pair ‹_› (decideAccess_inv h ..)
  · have h1 := inv_of_pair ‹_› (decideAccess_inv h ..)
    split
    · exact droppedWrite_inv h1
    · exact applyWrite_inv h1 ..

theorem startGang_inv {s : State} {die q : Nat} {l : Launch} {cores : List Nat} {owner : Option (Gid × Nat)}
    (h : s.Inv) : OptInv (startGang s die q l cores owner) := by
  unfold startGang
  extract_lets s0 gs s1 s2
  have hgs : gs.Inv := foldl_inv (fun _ _ h1 => h1) (coverNow_inv h)
  have h1 : s1.Inv := addGang_inv hgs
  have h2 : OptInv s2 := by
    dsimp only [s2]
    split
    · exact inherit_inv h1
    · exact h1
  cases hs : s2 with
  | none => trivial
  | some t =>
    have ht : t.Inv := inv_of_some hs h2
    show State.Inv _
    dsimp only
    split
    · exact ownState_inv (updQueue_inv ht)
    · exact updQueue_inv ht

theorem setPlaced_inv {s : State} {die : Nat} {p : Placement} (h : s.Inv) : (setPlaced s die p).Inv := updDie_inv h

theorem dropPlaced_inv {s : State} {die : Nat} {p : Placement} (h : s.Inv) : (dropPlaced s die p).Inv := updDie_inv h

theorem commitWrite_inv {s : State} {die : Nat} {p : Placement} {i : Nat} (h : s.Inv) :
    (commitWrite s die p i).2.Inv := by
  unfold commitWrite
  dsimp only
  split
  · exact writeAstate_inv h
  · exact clearBequest_inv h

theorem commitWrites_inv {die : Nat} {l : List Nat} {y : Placement} {s : State} (h : s.Inv) :
    (commitWrites die l y s).2.2.Inv := by
  induction l generalizing y s with
  | nil => exact h
  | cons x xs ih =>
    unfold commitWrites
    split
    · exact ih h
    · split
      · have h1 := inv_of_pair ‹_› (commitWrite_inv h)
        exact ih h1
      · exact inv_of_pair ‹_› (commitWrite_inv h)
      · exact inv_of_pair ‹_› (commitWrite_inv h)

theorem commitOn_inv {s : State} {die : Nat} {p : Placement} (h : s.Inv) : OptInv (commitOn s die p) := by
  unfold commitOn
  split
  · have h1 := inv_of_third ‹_› (commitWrites_inv h)
    split
    · exact inv_of_some ‹_› (startGang_inv (unqueueTag_inv (dropPlaced_inv h1)))
    · split
      · exact trivial
      · exact setPlaced_inv h1
  · have h1 := inv_of_third ‹_› (commitWrites_inv h)
    exact setPlaced_inv h1
  · have h1 := inv_of_third ‹_› (commitWrites_inv h)
    split
    · exact trivial
    · exact setPlaced_inv h1

theorem commitPlaced_inv {s : State} {die : Nat} {p : Placement} (h : s.Inv) : OptInv (commitPlaced s die p) := by
  unfold commitPlaced
  dsimp only
  split
  · exact commitOn_inv h
  · split
    · exact dropPlaced_inv h
    · split
      · exact updQueue_inv (dropPlaced_inv h)
      · exact optInv_getD (commitOn_inv (setPlaced_inv h)) (setPlaced_inv h)

theorem commitNext_inv {s : State} {die : Nat} (h : s.Inv) : OptInv (commitNext s die) := by
  unfold commitNext
  cases hs : (dieOf s die).placed.findSome? fun p => if mayCommit s die p then commitPlaced s die p else none with
  | none => trivial
  | some t =>
    obtain ⟨p, -, hp⟩ := List.exists_of_findSome?_eq_some hs
    split at hp
    · exact inv_of_some hp (commitPlaced_inv h)
    · cases hp

theorem freeBoxes_inv {s : State} {mine : Gid → Bool} (h : s.Inv) : (freeBoxes s mine).Inv := by
  unfold freeBoxes
  dsimp only
  split <;> exact h

theorem finishGroup_inv {s : State} {g : Group} (h : s.Inv) : (finishGroup s g).Inv := by
  unfold finishGroup
  refine markSaved_inv ?_
  split
  · exact unblockFreed_inv (freeBoxes_inv (updGroup_inv (ownState_inv h) ..))
  · exact freeBoxes_inv (updGroup_inv (ownState_inv h) ..)

theorem execGroupComplete_inv {tag grp : Nat} {s : State} (h : s.Inv) : NextInv (execGroupComplete tag grp s) := by
  unfold execGroupComplete
  show State.Inv _
  split
  · split
    · exact finishGroup_inv h
    · exact h
  · exact h

theorem failRecords_inv {s : State} {x : Gang} {cause : Nat} (h : s.Inv) : (failRecords s x cause).Inv := by
  unfold failRecords
  dsimp only
  split
  · exact foldl_inv (fun _ _ h1 => updGroup_inv (unbindRecord_inv (ownState_inv h1)) ..) h
  · split
    · exact writeRecord_inv (foldl_inv (fun _ _ h1 => updGroup_inv (unbindRecord_inv (ownState_inv h1)) ..) h)
    · exact foldl_inv (fun _ _ h1 => updGroup_inv (unbindRecord_inv (ownState_inv h1)) ..) h

theorem dropGang_inv {s : State} {tag : Nat} (h : s.Inv) : (dropGang s tag).Inv := forget_inv (freeBoxes_inv h) ..

theorem endGang_inv {s : State} {x : Gang} (h : s.Inv) : (endGang s x).Inv := by
  unfold endGang
  extract_lets s1
  have h1 : s1.Inv := learnTo_inv h ..
  split
  · exact inv_of_pair ‹_› (writeAstate_inv h1)
  · exact updGang_inv (inv_of_pair ‹_› (writeAstate_inv h1))
  · have h2 := inv_of_pair ‹_› (writeAstate_inv h1)
    refine dropGang_inv ?_
    split <;> exact h2

theorem completeGang_inv {s : State} {x : Gang} (h : s.Inv) : (completeGang s x).Inv := by
  unfold completeGang
  dsimp only
  split
  · exact endGang_inv h
  · split
    · split
      · refine endGang_inv ?_
        split
        · refine postEvent_inv ?_
          refine updGang_inv ?_
          split
          · exact failRecords_inv h
          · exact h
        · refine updGang_inv ?_
          split
          · exact failRecords_inv h
          · exact h
      · split
        · refine postEvent_inv ?_
          refine updGang_inv ?_
          split
          · exact failRecords_inv h
          · exact h
        · refine updGang_inv ?_
          split
          · exact failRecords_inv h
          · exact h
    · split
      · refine postEvent_inv ?_
        refine updGang_inv ?_
        split
        · exact failRecords_inv h
        · exact h
      · refine updGang_inv ?_
        split
        · exact failRecords_inv h
        · exact h

theorem execGangComplete_inv {tag : Nat} {s : State} (h : s.Inv) : NextInv (execGangComplete tag s) := by
  unfold execGangComplete
  show State.Inv _
  split
  · split
    · exact completeGang_inv h
    · exact h
  · exact h

theorem execProgressTimeout_inv {tag : Nat} {s : State} (h : s.Inv) : NextInv (execProgressTimeout tag s) := by
  unfold execProgressTimeout
  show State.Inv _
  dsimp only
  split
  · split
    · exact postRecord_inv (stopGang_inv h)
    · exact h
  · exact h

theorem Ctx.bqDecide_inv {c : Ctx} {s : State} {area : W64} {n : Nat} (h : s.Inv) :
    (c.bqDecide s area n).2.2.Inv := by
  unfold Ctx.bqDecide
  refine foldl_inv_third (fun _ _ h1 => ?_) h
  split <;> exact inv_of_pair ‹_› (Ctx.decideMany_inv h1)

theorem Ctx.bqStore_inv {c : Ctx} {x : BqLane} {piece off : Nat} {b : Bytes} {acc : Option Nat × State}
    (hacc : acc.2.Inv) : (c.bqStore x piece off b acc).2.Inv :=
  Ctx.storeAt_inv hacc

theorem Ctx.bqWords_inv {c : Ctx} {first n hdr : Nat} {x : BqLane} {s : State} (h : s.Inv) :
    (c.bqWords first n hdr x s).2.Inv :=
  foldl_inv_snd (fun _ _ h1 => Ctx.bqStore_inv h1) (Ctx.bqStore_inv h)

theorem Ctx.bqTags_inv {c : Ctx} {first n : Nat} {mine : List BqLane} {x : BqLane} {acc : Option Nat × State}
    (hacc : acc.2.Inv) : (c.bqTags first n mine x acc).2.Inv := by
  unfold Ctx.bqTags
  dsimp only
  split
  · exact Ctx.bqStore_inv hacc
  · exact foldl_inv_snd (fun _ _ h => Ctx.bqStore_inv h) (Ctx.bqStore_inv hacc)

theorem Ctx.bqMask_inv {c : Ctx} {mine : List BqLane} {x : BqLane} {acc : Option Nat × State} (hacc : acc.2.Inv) :
    (c.bqMask mine x acc).2.Inv := by
  unfold Ctx.bqMask
  dsimp only
  split
  · exact hacc
  · exact dropL1_inv (writeAs_inv (countOne_inv hacc) ..) ..

theorem Ctx.bqWarp_inv {c : Ctx} {first n hdr : Nat} {area : W64} {acc : List (Nat × LaneEnd) × State}
    {mine : List BqLane} (hacc : acc.2.Inv) : (c.bqWarp first n hdr area acc mine).2.Inv := by
  unfold Ctx.bqWarp
  dsimp only
  split
  · exact hacc
  · exact Ctx.bqMask_inv (Ctx.bqTags_inv (foldl_inv_snd (fun _ _ h => Ctx.bqWords_inv h) hacc))

theorem Ctx.bequeath_inv {c : Ctx} {s : State} {f : LongForm} {l : Launch} (h : s.Inv) : (c.bequeath s f l).Inv := by
  unfold Ctx.bequeath
  dsimp only
  split
  · exact Ctx.trapAct_inv h
  · refine Ctx.finishLanes_inv ?_
    split
    · exact foldl_inv_snd (fun _ _ h1 => Ctx.bqWarp_inv h1) (Ctx.bqDecide_inv h)
    · exact updGang_inv (foldl_inv_snd (fun _ _ h1 => Ctx.bqWarp_inv h1) (Ctx.bqDecide_inv h))

theorem execBequeath_inv {f : LongForm} {s : State} (h : s.Inv) : NextInv (execBequeath f s) := by
  unfold execBequeath
  show State.Inv _
  refine runCore_inv h (fun _ => ?_)
  split
  · exact Ctx.bequeath_inv h
  · exact h

theorem barOp_inv {s : State} {i : Instr} {g : BitVec 5} {k : BarKind} (h : s.Inv) : (barOp s i g k).Inv :=
  runCore_inv h (fun _ => Ctx.upd_inv h)

theorem barrierEdges_inv {s : State} {tag : Nat} {k : BarKind} {gs : List Group} (h : s.Inv) :
    (barrierEdges s tag k gs).Inv :=
  mem_foldl_inv (fun _ _ h1 => learn_inv h1 ..) h

theorem completeBarrier_inv {s : State} {tag : Nat} {k : BarKind} {idx : Nat} (h : s.Inv) :
    (completeBarrier s tag k idx).Inv := by
  unfold completeBarrier
  refine foldl_inv (fun _ _ h1 => ?_) (barrierEdges_inv h)
  refine progress_inv ?_
  split
  · exact updGroup_inv h1 ..
  · exact coverThreads_inv (updGroup_inv h1 ..)

theorem execBarrierComplete_inv {tag : Nat} {kind : BarKind} {idx : Nat} {s : State} (h : s.Inv) :
    NextInv (execBarrierComplete tag kind idx s) := by
  unfold execBarrierComplete
  show State.Inv _
  split
  · exact completeBarrier_inv h
  · exact h

theorem killGang_inv {s : State} {x : Gang} (h : s.Inv) : (killGang s x).Inv :=
  dropGang_inv (stopGang_inv (failRecords_inv h))

theorem killQueued_inv {die : Nat} {s : State} {l : Launch} (h : s.Inv) : (killQueued die s l).Inv := by
  unfold killQueued
  split
  · exact writeRecord_inv h
  · exact h

theorem arriveAll_inv {s : State} {n : Nat} {vas : List W64} (h : s.Inv) : (arriveAll s n vas).Inv := by
  unfold arriveAll
  refine foldl_inv (fun _ _ h1 => ?_) h
  split
  · have h2 := inv_of_pair ‹_› (blockAt_inv h1)
    split
    · exact arriveAt_inv h2
    · exact h2
  · exact inv_of_pair ‹_› (blockAt_inv h1)

theorem arriveRing_inv {s : State} {x : Nat × Nat × W64} (h : s.Inv) : (arriveRing s x).Inv := by
  unfold arriveRing
  split
  · have h1 := inv_of_pair ‹_› (decideAccess_inv h ..)
    split
    · exact h1
    · exact arriveAt_inv h1
  · exact inv_of_pair ‹_› (decideAccess_inv h ..)

theorem goReset_inv {s : State} {n : Nat} (h : s.Inv) : (goReset s n).Inv :=
  foldl_inv (fun _ _ h1 => retryPosts_inv h1) (updStream_inv ((foldl_inv (fun _ _ h1 => killGang_inv h1) (foldl_inv
    (fun _ _ h1 => killQueued_inv h1) (foldl_inv (fun _ _ h1 => arriveRing_inv h1) (arriveAll_inv (resolveRec_inv
    (resolveRec_inv (updStream_inv h))))))).of_eq rfl rfl))

theorem startReset_inv {s : State} {n : Nat} (h : s.Inv) : (startReset s n).Inv := by
  unfold startReset
  dsimp only
  split
  · exact h
  · split
    · exact updStream_inv h
    · exact goReset_inv (updStream_inv h)

theorem freeBlock_inv {die : Nat} {s : State} {l : Launch} (h : s.Inv) : (freeBlock die s l).Inv := by
  unfold freeBlock
  split
  · have h1 := inv_of_pair ‹_› (hayAccess_inv h)
    split
    · exact h1
    · exact hayWrite_inv h1
  · have h1 := inv_of_pair ‹_› (hayAccess_inv h)
    exact postRecord_inv h1

theorem endReset_inv {s : State} {n : Nat} (h : s.Inv) : (endReset s n).Inv := by
  unfold endReset
  refine updStream_inv ?_
  split
  · have h1 := inv_of_pair ‹_› (hayAccess_inv (resolveRec_inv (foldl_inv (fun _ _ h1 => freeBlock_inv h1) h)))
    exact hayWrite_inv h1
  · exact inv_of_pair ‹_› (hayAccess_inv (resolveRec_inv (foldl_inv (fun _ _ h1 => freeBlock_inv h1) h)))

theorem execStreamResetDrain_inv {n : Nat} {s : State} (h : s.Inv) : NextInv (execStreamResetDrain n s) := by
  unfold execStreamResetDrain
  show State.Inv _
  split
  · exact h
  · split
    · exact goReset_inv h
    · exact endReset_inv h

end Sys2Proof.Machine
end

section
/-! The invariant of memory over help, mills, bolters and carters (O59). -/

namespace Sys2Proof.Machine

open Sys2Proof

theorem Ctx.ownMasks_inv {c : Ctx} {s : State} {d : Nat} {rs : List (Nat × Bool × LaneEnd)} (h : s.Inv) :
    (c.ownMasks s d rs).Inv :=
  Ctx.finishLanes_inv h

theorem Ctx.ownAccess_inv {c : Ctx} {s : State} {va : W64} {n align : Nat} {a : Acc} (h : s.Inv) :
    (c.ownAccess s va n align a).2.Inv := by
  unfold Ctx.ownAccess
  dsimp only
  split
  · split <;> exact Ctx.decide_inv h
  · exact Ctx.decide_inv h

theorem Ctx.putRec_inv {c : Ctx} {s : State} {tid : Nat} {p : Places} {b : Bytes} (h : s.Inv) :
    (c.putRec s tid p b).Inv :=
  dropL1_inv (writeAs_inv (countOne_inv h) ..) ..

theorem Ctx.each_inv {c : Ctx} {go : State → Thread → (Bool × LaneEnd) × State} {s : State}
    (hgo : ∀ (a : State), a.Inv → ∀ (b : Thread), (go a b).2.Inv) (h : s.Inv) : (c.each go s).2.Inv :=
  foldl_inv_snd (fun _ _ h1 => hgo _ h1 _) h

theorem Ctx.claimLane_inv {c : Ctx} {f : LongForm} {s : State} {t : Thread} (h : s.Inv) :
    (c.claimLane f s t).2.Inv := by
  unfold Ctx.claimLane
  dsimp only
  split
  · exact inv_of_pair ‹_› (Ctx.ownAccess_inv h)
  · have h1 := inv_of_pair ‹_› (Ctx.ownAccess_inv h)
    split
    · exact updDie_inv (Ctx.putRec_inv h1)
    · exact h1

theorem ownOp_inv {s : State} {i : Instr} {f : LongForm} {chk : Ctx → Bool}
    {go : Ctx → State → Thread → (Bool × LaneEnd) × State} (h : s.Inv)
    (hgo : ∀ (a : Ctx) (b : State), b.Inv → ∀ (x : Thread), (go a b x).2.Inv) : (ownOp s i f chk go).Inv :=
  runCore_inv h (fun _ => Ctx.ownMasks_inv (Ctx.each_inv (fun _ h1 _ => hgo _ _ h1 _) h))

theorem disownGroup_inv {s : State} {gid : Gid} (h : s.Inv) : (disownGroup s gid).Inv := by
  unfold disownGroup
  split
  · exact unbindRecord_inv (ownState_inv h)
  · exact h

theorem Ctx.selfLane_inv {c : Ctx} {f : LongForm} {s : State} {t : Thread} (h : s.Inv) :
    (c.selfLane f s t).2.Inv := by
  unfold Ctx.selfLane
  dsimp only
  split
  · exact inv_of_pair ‹_› (Ctx.ownAccess_inv h)
  · have h1 := inv_of_pair ‹_› (Ctx.ownAccess_inv h)
    split
    · refine updGroup_inv ?_ ..
      refine Ctx.putRec_inv ?_
      split
      · exact h1
      · exact disownGroup_inv h1
    · exact h1

theorem setOwner_inv {mm : MemSys} {loc : Nat} {rec_ : W64} {stream : Nat} {gid : Gid} (hmm : mm.Inv) :
    (setOwner mm loc rec_ stream gid).Inv :=
  hmm.of_eq rfl rfl

theorem Ctx.wordLane_inv {c : Ctx} {f : LongForm} {s : State} {t : Thread} (h : s.Inv) :
    (c.wordLane f s t).2.Inv := by
  unfold Ctx.wordLane
  dsimp only
  split
  · split
    · exact Ctx.decide_inv h
    · split
      · exact Ctx.decide_inv h
      · split
        · exact Ctx.decide_inv h
        · exact setOwner_inv (Ctx.decide_inv h)
  · exact Ctx.decide_inv h

theorem Ctx.mboxLane_inv {c : Ctx} {f : LongForm} {s : State} {t : Thread} (h : s.Inv) :
    (c.mboxLane f s t).2.Inv := by
  unfold Ctx.mboxLane
  dsimp only
  split
  · exact updBox_inv (Ctx.decide_inv h)
  · exact Ctx.decide_inv h

theorem Ctx.unclaimLane_inv {c : Ctx} {f : LongForm} {s : State} {t : Thread} (h : s.Inv) :
    (c.unclaimLane f s t).2.Inv := by
  unfold Ctx.unclaimLane
  dsimp only
  split
  · exact inv_of_pair ‹_› (Ctx.ownAccess_inv h)
  · have h1 := inv_of_pair ‹_› (Ctx.ownAccess_inv h)
    split
    · exact Ctx.putRec_inv (updDie_inv h1)
    · exact h1

theorem Ctx.unselfLane_inv {c : Ctx} {s : State} {x : Thread} (h : s.Inv) : (c.unselfLane s x).2.Inv := by
  unfold Ctx.unselfLane
  dsimp only
  split
  · exact disownGroup_inv h
  · exact h

theorem Ctx.unwordLane_inv {c : Ctx} {f : LongForm} {s : State} {t : Thread} (h : s.Inv) :
    (c.unwordLane f s t).2.Inv := by
  unfold Ctx.unwordLane
  dsimp only
  split
  · exact (Ctx.decide_inv h).of_eq rfl rfl
  · exact Ctx.decide_inv h

theorem Ctx.unmboxLane_inv {x : Ctx} {f : LongForm} {s : State} {t : Thread} (h : s.Inv) :
    (x.unmboxLane f s t).2.Inv :=
  updBox_inv h

theorem countAdoption_inv {s : State} {die depth : Nat} {queued : Bool} (h : s.Inv) :
    (countAdoption s die depth queued).Inv :=
  updDie_inv h

theorem countRefusal_inv {s : State} {die : Nat} (h : s.Inv) : (countRefusal s die).Inv := updDie_inv h

theorem unchoose_inv {s : State} {h : Gid} (hs : s.Inv) : (unchoose s h).Inv := updGroup_inv hs ..

theorem ownerGone_inv {s : State} {h : Group} (hs : s.Inv) : (ownerGone s h).Inv := by
  unfold ownerGone
  dsimp only
  split
  · exact resumeHelper_inv (updGroup_inv (unchoose_inv (countRefusal_inv hs)) ..)
  · exact updGroup_inv (unchoose_inv (countRefusal_inv hs)) ..

theorem placeQueued_inv {s : State} {h : Group} {q tag : Nat} (hs : s.Inv) : (placeQueued s h q tag).Inv := by
  unfold placeQueued
  dsimp only
  split
  · exact ownerGone_inv hs
  · split
    · exact ownerGone_inv hs
    · exact optInv_getD (commitPlaced_inv (updDie_inv (countAdoption_inv (unchoose_inv (unqueueTag_inv hs)))))
        (updDie_inv (countAdoption_inv (unchoose_inv (unqueueTag_inv hs))))

theorem placeParked_inv {s : State} {h : Group} {gid : Gid} (hs : s.Inv) : (placeParked s h gid).Inv := by
  unfold placeParked
  dsimp only
  split
  · exact ownerGone_inv hs
  · split
    · exact hs
    · split
      · exact ownerGone_inv hs
      · split
        · split
          · exact countAdoption_inv (unchoose_inv (resumeGroup_inv hs))
          · split
            · exact resumeGroup_inv hs
            · exact ownerGone_inv (resumeGroup_inv hs)
        · exact ownerGone_inv (resumeGroup_inv hs)

theorem adoptOn_inv {s : State} {gid : Gid} (h : s.Inv) : (adoptOn s gid).Inv := by
  unfold adoptOn
  dsimp only
  split
  · exact h
  · split
    · exact h
    · split
      · split
        · exact parkGroup_inv h
        · exact h
      · split
        · split
          · exact parkGroup_inv h
          · exact h
        · split
          · refine placeQueued_inv ?_
            split
            · exact parkGroup_inv h
            · exact h
          · refine placeParked_inv ?_
            split
            · exact parkGroup_inv h
            · exact h

theorem searchRecs_inv {gid : Gid} {l : List W64} {s : State} (h : s.Inv) : (searchRecs gid l s).Inv := by
  induction l generalizing s with
  | nil => exact updGroup_inv h ..
  | cons x xs ih =>
    unfold searchRecs
    dsimp only
    split
    · exact h
    · split
      · exact ih (countRefusal_inv (readRec_inv h))
      · exact adoptOn_inv (updGroup_inv (readRec_inv h) ..)

theorem execAdoption_inv {tag grp : Nat} {s : State} (h : s.Inv) : NextInv (execAdoption tag grp s) := by
  unfold execAdoption
  show State.Inv _
  split
  · exact h
  · split
    · exact searchRecs_inv (coverThreads_inv h)
    · exact h

theorem Ctx.helpq_inv {c : Ctx} {s : State} {f : LongForm} {va : W64} (h : s.Inv) : (c.helpq s f va).Inv := by
  unfold Ctx.helpq
  dsimp only
  split
  · exact h
  · split
    · exact Ctx.result_inv (countRefusal_inv (coverThreads_inv (readRec_inv h)))
    · exact adoptOn_inv (Ctx.upd_inv (coverThreads_inv (readRec_inv h)))

theorem execHelpq_inv {f : LongForm} {s : State} (h : s.Inv) : NextInv (execHelpq f s) := by
  unfold execHelpq
  show State.Inv _
  refine runCore_inv h (fun _ => ?_)
  dsimp only
  split
  · exact Ctx.trap_inv h
  · split
    · exact Ctx.trap_inv h
    · exact Ctx.helpq_inv h

theorem updMill_inv {s : State} {ham m : Nat} {f : Mill → Mill} (h : s.Inv) : (updMill s ham m f).Inv := updHam_inv h

theorem updRun_inv {s : State} {ham m : Nat} {f : Run → Run} (h : s.Inv) : (updRun s ham m f).Inv := updMill_inv h

theorem queueTask_inv {s : State} {ham : Nat} {t : Task} (h : s.Inv) : (queueTask s ham t).Inv :=
  updHam_inv (updGroup_inv (by exact forget_inv h ..) ..)

theorem Ctx.issues_inv {c : Ctx} {s : State} {a : Agent} (h : s.Inv) : (c.issues s a).Inv := learnTo_inv h ..

theorem Ctx.holdWarp_inv {c : Ctx} {s : State} {what : Hold} (h : s.Inv) : (c.holdWarp s what).Inv := Ctx.upd_inv h

theorem Ctx.readRecord_inv {c : Ctx} {s : State} {p : Places} (h : s.Inv) : (c.readRecord s p).2.Inv := by
  unfold Ctx.readRecord
  dsimp only
  split <;> exact readCore_inv h ..

theorem Ctx.lostRecord_inv {c : Ctx} {s : State} {va : W64} {cause : Nat} (h : s.Inv) :
    (c.lostRecord s va cause).Inv :=
  pushErrs_inv (Ctx.done_inv h ..)

theorem Ctx.mtask_inv {c : Ctx} {s : State} {slot : Nat} {va : W64} {img : Bytes} (h : s.Inv) :
    (c.mtask s slot va img).Inv := by
  unfold Ctx.mtask
  dsimp only
  split
  · exact Ctx.trapMill_inv h
  · split
    · split
      · exact queueTask_inv (Ctx.done_inv (Ctx.issues_inv (freshId_inv h)) ..)
      · exact Ctx.holdWarp_inv (Ctx.issues_inv (freshId_inv h))
    · split
      · exact queueTask_inv (Ctx.done_inv (Ctx.issues_inv (freshId_inv h)) ..)
      · exact Ctx.holdWarp_inv (Ctx.issues_inv (freshId_inv h))

theorem execMtask_inv {f : LongForm} {s : State} (h : s.Inv) : NextInv (execMtask f s) := by
  unfold execMtask
  show State.Inv _
  refine runCore_inv h (fun _ => ?_)
  refine Ctx.perform_inv (Ctx.decideLanes_inv h) (fun _ _ h1 => ?_)
  split
  · exact Ctx.done_inv h1 ..
  · split
    · exact Ctx.done_inv h1 ..
    · split
      · have h2 := inv_of_pair ‹_› (Ctx.readRecord_inv h1)
        exact Ctx.lostRecord_inv h2
      · have h2 := inv_of_pair ‹_› (Ctx.readRecord_inv h1)
        exact Ctx.mtask_inv h2

theorem setHeld_inv {s : State} {gid : Gid} {num : Nat} {h : Option Held} (hs : s.Inv) : (setHeld s gid num h).Inv :=
  updGroup_inv hs ..

theorem endHeld_inv {s : State} {gid : Gid} {num : Nat} {h : Held} {tids : List Nat} (hs : s.Inv) :
    (endHeld s gid num h tids).Inv :=
  updGroup_inv (setHeld_inv hs) ..

theorem execMtaskEnqueue_inv {tag grp warp : Nat} {s : State} (h : s.Inv) :
    NextInv (execMtaskEnqueue tag grp warp s) := by
  unfold execMtaskEnqueue
  show State.Inv _
  dsimp only
  split
  · split
    · split
      · exact setHeld_inv h
      · split
        · exact queueTask_inv (endHeld_inv h)
        · exact h
    · exact h
  · exact h

theorem execBinst_inv {f : LongForm} {s : State} (h : s.Inv) : NextInv (execBinst f s) := by
  unfold execBinst
  show State.Inv _
  refine runCore_inv h (fun _ => ?_)
  dsimp only
  split
  · exact h
  · exact Ctx.done_inv (foldl_inv (fun _ _ h1 => updMill_inv h1) h) ..

theorem execBinz_inv {f : LongForm} {s : State} (h : s.Inv) : NextInv (execBinz f s) := by
  unfold execBinz
  show State.Inv _
  refine runCore_inv h (fun _ => ?_)
  dsimp only
  split
  · exact h
  · exact Ctx.done_inv (updMill_inv h) ..

theorem putProg_inv {s : State} {ham : Nat} {w : W32} {img : Option Bytes} (h : s.Inv) : (putProg s ham w img).Inv :=
  foldl_inv (fun _ _ h1 => updMill_inv h1) h

theorem bldpAct_inv {s : State} {g : Group} {h : Held} {kd tid : Nat} {va : W64} {w : W32} (hs : s.Inv) :
    (bldpAct s g h kd tid va w).Inv := by
  unfold bldpAct
  dsimp only
  split
  · exact updGroup_inv (putProg_inv hs) ..
  · split
    · exact inv_of_pair ‹_› (decideAccess_inv hs ..)
    · have h1 := inv_of_pair ‹_› (decideAccess_inv hs ..)
      exact hold3_inv h1
    · have h1 := inv_of_pair ‹_› (decideAccess_inv hs ..)
      exact takeTrap_inv h1
    · have h1 := inv_of_pair ‹_› (decideAccess_inv hs ..)
      split
      · exact pushErrs_inv (updGroup_inv (readCore_inv h1 ..) ..)
      · split
        · exact updGroup_inv (putProg_inv (readCore_inv h1 ..)) ..
        · exact updGroup_inv (readCore_inv h1 ..) ..

theorem bldpRun_inv {gid : Gid} {num m : Nat} {s : State} (h : s.Inv) : (bldpRun gid num m s).Inv := by
  induction m generalizing s with
  | zero => exact h
  | succ n ih =>
    unfold bldpRun
    dsimp only
    split
    · split
      · split
        · exact ih (setHeld_inv h)
        · split
          · exact h
          · split
            · exact h
            · split
              · exact bldpAct_inv h
              · exact ih (setHeld_inv (bldpAct_inv h))
      · exact setHeld_inv h
      · exact h
    · exact h

theorem execBldpReplace_inv {tag grp warp : Nat} {s : State} (h : s.Inv) :
    NextInv (execBldpReplace tag grp warp s) := by
  unfold execBldpReplace
  show State.Inv _
  split
  · exact bldpRun_inv h
  · exact h

theorem issueTask_inv {s : State} {ham : Nat} {t : Task} {m : Nat} (h : s.Inv) : (issueTask s ham t m).Inv :=
  mapTasks_inv (updMill_inv (updHam_inv h))

theorem execTaskIssue_inv {ham : Nat} {s : State} (h : s.Inv) : NextInv (execTaskIssue ham s) := by
  unfold execTaskIssue
  show State.Inv _
  split
  · exact issueTask_inv h
  · exact h

theorem stepDone_inv {s : State} {ham m : Nat} (h : s.Inv) : (stepDone s ham m).Inv := updMill_inv (updRun_inv h)

theorem stopStep_inv {s : State} {ham m : Nat} {e : Stop} (h : s.Inv) : (stopStep s ham m e).Inv := by
  unfold stopStep
  dsimp only
  split
  · exact h
  · split
    · exact h
    · exact updRun_inv h
    · exact updRun_inv (class3_inv h)

theorem millAccess_inv {s : State} {ham asn : Nat} {va : W64} {n : Nat} {a : Acc} {clean : Bool} {opnd : Nat}
    (h : s.Inv) : (millAccess s ham asn va n a clean opnd).2.Inv := by
  unfold millAccess
  dsimp only
  split
  · exact inv_of_pair ‹_› (decideAccess_inv h ..)
  · exact inv_of_pair ‹_› (decideAccess_inv h ..)
  · exact inv_of_pair ‹_› (decideAccess_inv h ..)
  · have h1 := inv_of_pair ‹_› (decideAccess_inv h ..)
    split
    · exact h1
    · split
      · exact h1
      · exact nextLook_inv h1

theorem collect_inv {α β : Type} {f : State → β → Except Stop α × State} {l : List β} {s : State}
    (hf : ∀ (a : State), a.Inv → ∀ (b : β), (f a b).2.Inv) (h : s.Inv) : (collect f l s).2.Inv := by
  induction l generalizing s with
  | nil => exact h
  | cons x xs ih =>
    unfold collect
    split
    · exact inv_of_pair ‹_› (hf _ h _)
    · have h1 := inv_of_pair ‹_› (hf _ h _)
      split <;> exact inv_of_pair ‹_› (ih h1)

theorem operandOf_inv {s : State} {ham : Nat} {t : Task} {opnd : Nat} {seen : Option Nat} (h : s.Inv) :
    (operandOf s ham t opnd seen).2.Inv := by
  unfold operandOf
  dsimp only
  split
  · split
    · exact h
    · split
      · exact h
      · split
        · exact inv_of_pair ‹_› (millAccess_inv h)
        · have h1 := inv_of_pair ‹_› (millAccess_inv h)
          split <;> exact h1
  · split
    · exact h
    · split
      · exact h
      · split
        · exact inv_of_pair ‹_› (millAccess_inv h)
        · have h1 := inv_of_pair ‹_› (millAccess_inv h)
          split <;> exact h1

theorem readElems_inv {t : Task} {ham : Nat} {o : Operand} {c n : Nat} {s : State} {row : Nat} (h : s.Inv) :
    (readElems t ham o c n s row).2.Inv := by
  unfold readElems
  dsimp only
  split
  · exact inv_of_pair ‹_› (millAccess_inv h)
  · have h1 := inv_of_pair ‹_› (millAccess_inv h)
    split <;> exact h1

theorem readMeta_inv {t : Task} {ham k nk : Nat} {s : State} {row : Nat} (h : s.Inv) :
    (readMeta t ham k nk s row).2.Inv := by
  unfold readMeta
  dsimp only
  split
  · exact inv_of_pair ‹_› (millAccess_inv h)
  · have h1 := inv_of_pair ‹_› (millAccess_inv h)
    split <;> exact h1

theorem readA_inv {t : Task} {ham : Nat} {o : Operand} {k nk : Nat} {s : State} {row : Nat} (h : s.Inv) :
    (readA t ham o k nk s row).2.Inv := by
  unfold readA
  split
  · split <;> exact inv_of_pair ‹_› (readElems_inv h)
  · split
    · exact inv_of_pair ‹_› (readElems_inv h)
    · have h1 := inv_of_pair ‹_› (readElems_inv h)
      split <;> exact inv_of_pair ‹_› (readMeta_inv h1)

theorem kStep_inv {s : State} {ham m : Nat} {r : Run} {p kk : Nat} (h : s.Inv) : (kStep s ham m r p kk).2.Inv := by
  unfold kStep
  extract_lets t k nk rowsB
  split
  · exact inv_of_pair ‹_› (operandOf_inv h)
  have h1 := inv_of_pair ‹_› (operandOf_inv h)
  split
  · exact inv_of_pair ‹_› (operandOf_inv h1)
  have h2 := inv_of_pair ‹_› (operandOf_inv h1)
  split
  · exact h2
  split
  · exact inv_of_pair ‹_› (collect_inv (fun _ hs _ => readA_inv hs) h2)
  have h3 := inv_of_pair ‹_› (collect_inv (fun _ hs _ => readA_inv hs) h2)
  split
  · exact inv_of_pair ‹_› (collect_inv (fun _ hs _ => by split <;> exact readElems_inv hs) h3)
  have h4 := inv_of_pair ‹_› (collect_inv (fun _ hs _ => by split <;> exact readElems_inv hs) h3)
  split <;> exact h4

theorem applyStep_inv {s : State} {ham m : Nat}
    {x : Except Stop (List (Nat × W32) × Option Nat × Option Nat) × State} (h : s.Inv) (hx : x.2.Inv) :
    (applyStep s ham m x).Inv := by
  unfold applyStep
  split
  · exact h
  · exact stopStep_inv hx
  · split
    · exact stopStep_inv hx
    · exact stepDone_inv (updMill_inv hx)

theorem execKStep_inv {ham mill : Nat} {s : State} (h : s.Inv) : NextInv (execKStep ham mill s) := by
  unfold execKStep
  show State.Inv _
  split
  · exact applyStep_inv h (kStep_inv h)
  · exact h

theorem execZeroStep_inv {ham mill : Nat} {s : State} (h : s.Inv) : NextInv (execZeroStep ham mill s) := by
  unfold execZeroStep
  show State.Inv _
  dsimp only
  split
  · exact stepDone_inv (updMill_inv h)
  · exact h

theorem loadAdd_inv {s : State} {ham m : Nat} {r : Run} {p : Nat} (h : s.Inv) : (loadAdd s ham m r p).2.Inv := by
  unfold loadAdd
  dsimp only
  split
  · exact inv_of_pair ‹_› (operandOf_inv h)
  · have h1 := inv_of_pair ‹_› (operandOf_inv h)
    split
    · exact h1
    · split
      · exact inv_of_pair ‹_› (collect_inv (fun _ h2 _ => readElems_inv h2) h1)
      · have h2 := inv_of_pair ‹_› (collect_inv (fun _ h2 _ => readElems_inv h2) h1)
        split <;> exact h2

theorem execLoadAddStep_inv {ham mill : Nat} {s : State} (h : s.Inv) : NextInv (execLoadAddStep ham mill s) := by
  unfold execLoadAddStep
  show State.Inv _
  split
  · exact applyStep_inv h (loadAdd_inv h)
  · exact h

theorem completeTask_inv {s : State} {ham : Nat} {t : Task} {m start : Nat} {err : Option (W64 × W64)} (h : s.Inv) :
    (completeTask s ham t m start err).Inv := by
  unfold completeTask
  dsimp only
  split
  · exact postEvent_inv (finishSlot_inv (learnTo_inv (updHam_inv h) ..))
  · exact finishSlot_inv (learnTo_inv (updHam_inv h) ..)

theorem execTaskCompletion_inv {ham task : Nat} {s : State} (h : s.Inv) :
    NextInv (execTaskCompletion ham task s) := by
  unfold execTaskCompletion
  show State.Inv _
  dsimp only
  split
  · exact completeTask_inv (updHam_inv h)
  · split
    · exact completeTask_inv (updMill_inv h)
    · exact h

theorem execEpilogueStep_inv {ham mill : Nat} {s : State} (h : s.Inv) : NextInv (execEpilogueStep ham mill s) := by
  unfold execEpilogueStep
  show State.Inv _
  dsimp only
  split
  · exact h
  · split
    · exact updRun_inv h
    · exact h

theorem endBolt_inv {s : State} {ham m : Nat} (h : s.Inv) : (endBolt s ham m).Inv := by
  unfold endBolt
  dsimp only
  split
  · exact updMill_inv (updRun_inv h)
  · exact updRun_inv h

theorem boltStop_inv {s : State} {c : BCtx} {e : Stop} (h : s.Inv) : (boltStop s c e).Inv := by
  unfold boltStop
  split
  · exact h
  · exact endBolt_inv (stopStep_inv h)
  · exact endBolt_inv (stopStep_inv h)

theorem boltOp_inv {s : State} {f : BCtx → State → Except Stop Bolt × State} (h : s.Inv)
    (hf : ∀ (a : BCtx) (b : State), b.Inv → (f a b).2.Inv) : (boltOp s f).Inv := by
  unfold boltOp
  split
  · exact h
  · split
    · exact h
    · have h1 := inv_of_pair ‹_› (hf _ _ h)
      exact boltStop_inv h1
    · have h1 := inv_of_pair ‹_› (hf _ _ h)
      exact updRun_inv h1

theorem boltReg_inv {s : State} {d : BitVec 3} {v : BCtx → State → List W32} (h : s.Inv) : (boltReg s d v).Inv :=
  boltOp_inv h (fun _ _ h1 => h1)

theorem commitOne_inv {c : BCtx} {s : State} {x : BStore} (h : s.Inv) : (commitOne c s x).Inv := by
  unfold commitOne
  dsimp only
  split
  · exact updMill_inv h
  · exact applyWrite_inv h ..
  · exact putBits_inv h
  · exact applyWrite_inv h ..

theorem endPass_inv {s : State} {c : BCtx} (h : s.Inv) : (endPass s c).Inv := by
  unfold endPass
  split
  · exact endBolt_inv (stopStep_inv h)
  · exact endBolt_inv (stopStep_inv h)
  · exact endBolt_inv (stepDone_inv (foldl_inv (fun _ _ h1 => commitOne_inv h1) h))

theorem execBend_inv {s : State} (h : s.Inv) : NextInv (execBend s) := by
  unfold execBend
  show State.Inv _
  dsimp only
  split
  · exact h
  · split
    · exact updRun_inv h
    · exact endPass_inv h

theorem execBld_inv {d : BitVec 3} {int : Bool} {s : State} (h : s.Inv) : NextInv (execBld d int s) := by
  unfold execBld
  show State.Inv _
  refine boltOp_inv h (fun _ _ h1 => ?_)
  dsimp only
  split <;> exact h1

theorem execBcolv_inv {d x : BitVec 3} {bf16 : Bool} {s : State} (h : s.Inv) : NextInv (execBcolv d x bf16 s) := by
  unfold execBcolv
  show State.Inv _
  refine boltOp_inv h (fun _ _ h1 => ?_)
  dsimp only
  split <;> exact inv_of_pair ‹_› (millAccess_inv h1)

theorem execBrowv_inv {d x : BitVec 3} {bf16 : Bool} {s : State} (h : s.Inv) : NextInv (execBrowv d x bf16 s) := by
  unfold execBrowv
  show State.Inv _
  refine boltOp_inv h (fun _ _ h1 => ?_)
  dsimp only
  split <;> exact inv_of_pair ‹_› (millAccess_inv h1)

theorem boltBin_inv {s : State} {d a b : BitVec 3} {f : W32 → W32 → W32} (h : s.Inv) : (boltBin s d a b f).Inv :=
  boltReg_inv h

theorem boltUn_inv {s : State} {d a : BitVec 3} {f : W32 → W32} (h : s.Inv) : (boltUn s d a f).Inv := boltReg_inv h

theorem execBsto_inv {a b : BitVec 3} {i : BitVec 7} {s : State} (h : s.Inv) : NextInv (execBsto a b i s) := by
  unfold execBsto
  show State.Inv _
  refine boltOp_inv h (fun _ _ h1 => ?_)
  dsimp only
  split <;> exact inv_of_pair ‹_› (millAccess_inv h1)

theorem execBstsc_inv {a x : BitVec 3} {wide : Bool} {s : State} (h : s.Inv) : NextInv (execBstsc a x wide s) := by
  unfold execBstsc
  show State.Inv _
  refine boltOp_inv h (fun _ _ h1 => ?_)
  dsimp only
  split <;> exact inv_of_pair ‹_› (millAccess_inv h1)

theorem execBamaxg_inv {a x : BitVec 3} {s : State} (h : s.Inv) : NextInv (execBamaxg a x s) := by
  unfold execBamaxg
  show State.Inv _
  refine boltOp_inv h (fun _ _ h1 => ?_)
  dsimp only
  split <;> exact inv_of_pair ‹_› (millAccess_inv h1)

theorem queueCopy_inv {s : State} {ham : Nat} {c : Copy} (h : s.Inv) : (queueCopy s ham c).Inv := updHam_inv h

theorem Ctx.copy_inv {c : Ctx} {s : State} {form : Nat} {va : W64} {img : Bytes} (h : s.Inv) :
    (c.copy s form va img).Inv := by
  unfold Ctx.copy
  dsimp only
  split
  · exact Ctx.trapAct_inv h
  · split
    · exact Ctx.holdWarp_inv (Ctx.issues_inv (freshId_inv h))
    · exact queueCopy_inv (Ctx.done_inv (Ctx.issues_inv (freshId_inv h)) ..)

theorem copyOp_inv {s : State} {i : Instr} {f : LongForm} {form : Nat} (h : s.Inv) : (copyOp s i f form).Inv := by
  unfold copyOp
  refine runCore_inv h (fun _ => ?_)
  refine Ctx.perform_inv (Ctx.decideLanes_inv h) (fun _ _ h1 => ?_)
  split
  · exact Ctx.done_inv h1 ..
  · split
    · exact Ctx.done_inv h1 ..
    · split
      · have h2 := inv_of_pair ‹_› (Ctx.readRecord_inv h1)
        exact Ctx.lostRecord_inv h2
      · have h2 := inv_of_pair ‹_› (Ctx.readRecord_inv h1)
        exact Ctx.copy_inv h2

theorem execCopyEnqueue_inv {tag grp warp : Nat} {s : State} (h : s.Inv) :
    NextInv (execCopyEnqueue tag grp warp s) := by
  unfold execCopyEnqueue
  show State.Inv _
  dsimp only
  split
  · split
    · split
      · exact setHeld_inv h
      · split
        · exact h
        · exact queueCopy_inv (endHeld_inv h)
    · exact h
  · exact h

theorem carterAccess_inv {s : State} {ham asn : Nat} {va : W64} {n : Nat} {a : Acc} (h : s.Inv) :
    (carterAccess s ham asn va n a).2.Inv := by
  unfold carterAccess
  split
  · exact inv_of_pair ‹_› (decideAccess_inv h ..)
  · exact inv_of_pair ‹_› (decideAccess_inv h ..)
  · exact inv_of_pair ‹_› (decideAccess_inv h ..)
  · have h1 := inv_of_pair ‹_› (decideAccess_inv h ..)
    split
    · exact h1
    · exact nextLook_inv h1

theorem unitPlaces_inv {s : State} {ham : Nat} {c : Copy} {sva dva : W64} {n m : Nat} (h : s.Inv) :
    (unitPlaces s ham c sva dva n m).2.Inv := by
  unfold unitPlaces
  dsimp only
  split <;> exact carterAccess_inv (carterAccess_inv h)

theorem addPoison_inv {mm : MemSys} {gs : List Nat} (hmm : mm.Inv) : (addPoison mm gs).Inv := hmm.of_eq rfl rfl

theorem updCopy_inv {s : State} {ham id : Nat} {f : Copy → Copy} (h : s.Inv) : (updCopy s ham id f).Inv :=
  updHam_inv h

theorem copyRecord_inv {s : State} {ham : Nat} {c : Copy} {cause : Nat} {addr : W64} {store : Bool} (h : s.Inv) :
    (copyRecord s ham c cause addr store).2.Inv :=
  class3_inv h

theorem byteUnit_inv {s : State} {ham : Nat} {c : Copy} {u : CUnit} (h : s.Inv) : (byteUnit s ham c u).2.Inv := by
  unfold byteUnit
  dsimp only
  split
  · exact inv_of_pair ‹_› (unitPlaces_inv h)
  · have h1 := inv_of_pair ‹_› (unitPlaces_inv h)
    exact addPoison_inv (applyWrite_inv h1 ..)

theorem tensorUnit_inv {s : State} {ham : Nat} {c : Copy} {u : CUnit} (h : s.Inv) : (tensorUnit s ham c u).2.Inv := by
  unfold tensorUnit
  dsimp only
  split
  · split <;> exact inv_of_pair ‹_› (unitPlaces_inv h)
  · split
    · exact inv_of_pair ‹_› (unitPlaces_inv h)
    · have h1 := inv_of_pair ‹_› (unitPlaces_inv h)
      split
      · exact h1
      · split
        · exact h1
        · split
          · exact h1
          · split
            · exact applyWrite_inv h1 ..
            · exact putBits_inv h1

theorem redUnit_inv {s : State} {ham : Nat} {c : Copy} {u : CUnit} (h : s.Inv) : (redUnit s ham c u).2.Inv := by
  unfold redUnit
  dsimp only
  split
  · exact inv_of_pair ‹_› (unitPlaces_inv h)
  · have h1 := inv_of_pair ‹_› (unitPlaces_inv h)
    split
    · exact h1
    · exact addPoison_inv (foldl_inv (fun _ _ h2 => applyWrite_inv h2 ..) h1)

theorem runUnit_inv {s : State} {ham : Nat} {c : Copy} {u : CUnit} (h : s.Inv) : (runUnit s ham c u).2.Inv := by
  unfold runUnit
  split
  · exact byteUnit_inv h
  · split
    · exact tensorUnit_inv h
    · exact redUnit_inv h

theorem doUnit_inv {s : State} {ham : Nat} {c : Copy} {u : Nat} {x : CUnit} (h : s.Inv) :
    (doUnit s ham c u x).Inv := by
  unfold doUnit
  dsimp only
  split
  · have h1 := inv_of_pair ‹_› (runUnit_inv h)
    exact updCopy_inv h1
  · exact h
  · have h1 := inv_of_pair ‹_› (runUnit_inv h)
    exact updCopy_inv h1
  · have h1 := inv_of_pair ‹_› (runUnit_inv h)
    exact updCopy_inv (copyRecord_inv h1)

theorem execCopyUnit_inv {ham copy unit : Nat} {s : State} (h : s.Inv) : NextInv (execCopyUnit ham copy unit s) := by
  unfold execCopyUnit
  show State.Inv _
  split
  · split
    · exact h
    · split
      · exact doUnit_inv h
      · exact h
  · exact h

theorem endCopy_inv {s : State} {ham id : Nat} (h : s.Inv) : (endCopy s ham id).Inv := updHam_inv h

theorem copyEvent_inv {s : State} {ham : Nat} {c : Copy} (h : s.Inv) : (copyEvent s ham c).Inv := by
  unfold copyEvent
  dsimp only
  split
  · exact endCopy_inv h
  · split
    · exact updCopy_inv (postEvent_inv h)
    · exact endCopy_inv (postEvent_inv h)

theorem dropWord_inv {s : State} {ham : Nat} {c : Copy} (h : s.Inv) : (dropWord s ham c).Inv :=
  copyEvent_inv (updCopy_inv (postRecord_inv h))

theorem writeWord_inv {s : State} {c : Copy} {locs : List Nat} (h : s.Inv) : (writeWord s c locs).Inv :=
  acquireAnswered_inv _ (by exact learnTo_inv (applyWrite_inv h ..) ..)

theorem completeCopy_inv {s : State} {ham : Nat} {c : Copy} (h : s.Inv) : (completeCopy s ham c).Inv := by
  unfold completeCopy
  dsimp only
  split
  · exact copyEvent_inv h
  · split
    · exact h
    · have h1 := inv_of_pair ‹_› (carterAccess_inv h)
      exact updCopy_inv (copyRecord_inv h1)
    · have h1 := inv_of_pair ‹_› (carterAccess_inv h)
      exact dropWord_inv h1
    · have h1 := inv_of_pair ‹_› (carterAccess_inv h)
      exact copyEvent_inv (writeWord_inv h1)

theorem execCopyCompletion_inv {ham copy : Nat} {s : State} (h : s.Inv) :
    NextInv (execCopyCompletion ham copy s) := by
  unfold execCopyCompletion
  show State.Inv _
  split
  · split
    · split
      · exact h
      · exact endCopy_inv h
    · split
      · exact h
      · exact completeCopy_inv h
  · exact h

end Sys2Proof.Machine
end

section
/-! The invariant of memory over the fabric, the host and the controllers, and over a warp's turn (O59). -/

namespace Sys2Proof.Machine

open Sys2Proof

/-- The state that a warp's turn ends or runs in keeps the invariant. -/
def Turn.Inv : Turn → Prop
  | .none => True
  | .line s | .run _ _ s _ => s.Inv

theorem sendStrel_inv {s : State} {g : Gid} {scope : Nat} {l : Lane} {loc : Nat} {b : Bytes} (h : s.Inv) :
    (sendStrel s g scope l loc b).Inv :=
  updGroup_inv (by exact freshId_inv h) ..

theorem leaveHold_inv {s : State} {h : HeldStrel} (hs : s.Inv) : (leaveHold s h).Inv := hs

theorem Ctx.strelLane_inv {c : Ctx} {f : LongForm} {acc : List ReqLane × State} {l : Lane} (hacc : acc.2.Inv) :
    (c.strelLane f acc l).2.Inv := by
  unfold Ctx.strelLane
  dsimp only
  split
  · exact hacc
  · split
    · exact Ctx.storeAt_inv hacc
    · split
      · exact sendStrel_inv hacc
      · split
        · exact sendStrel_inv hacc
        · exact Ctx.storeAt_inv (leaveHold_inv (sendStrel_inv hacc))

theorem execStrel_inv {f : LongForm} {s : State} (h : s.Inv) : NextInv (execStrel f s) :=
  runCore_inv h (fun _ => Ctx.perform_inv (Ctx.decideLanes_inv h) (fun _ _ h1 => Ctx.done_inv (makeReqs_inv
    (foldl_inv_snd (fun _ _ h2 => Ctx.strelLane_inv h2) h1)) ..))

theorem applyStrel_inv {s : State} {h : HeldStrel} (hs : s.Inv) : (applyStrel s h).Inv := by
  unfold applyStrel
  dsimp only
  split
  · exact leaveHold_inv hs
  · split
    · exact pushErrs_inv (leaveHold_inv hs)
    · exact writeAs_inv (leaveHold_inv hs) ..

theorem execStrelApply_inv {id : Nat} {s : State} (h : s.Inv) : NextInv (execStrelApply id s) := by
  unfold execStrelApply
  show State.Inv _
  split
  · split
    · exact applyStrel_inv h
    · exact h
  · exact h

theorem fabAccess_inv {s : State} {x : Option Nat × Nat × FabOp} (h : s.Inv) : (fabAccess s x).Inv := by
  unfold fabAccess
  dsimp only
  split
  · exact h
  · split
    · exact h
    · exact writeAs_inv h ..

theorem flushFab_inv {s : State} (h : s.Inv) : (flushFab s).Inv := foldl_inv (fun _ _ h1 => fabAccess_inv h1) h

theorem execHostMarkedRead_inv {addr : Nat} {s : State} (h : s.Inv) : NextInv (execHostMarkedRead addr s) := by
  unfold execHostMarkedRead
  show State.Inv _
  split
  · exact h
  · exact acquire_inv (takeMark_inv h ..) ..

theorem poisonGranule_inv {mm : MemSys} {g : Nat} (hmm : mm.Inv) : (poisonGranule mm g).Inv := hmm.of_eq rfl rfl

theorem execEvictionError_inv {granule : Nat} {s : State} (h : s.Inv) : NextInv (execEvictionError granule s) := by
  unfold execEvictionError
  show State.Inv _
  dsimp only
  split
  · exact h
  · exact poisonGranule_inv (writeBackLine_inv h ..)
  · exact postRecord_inv (poisonGranule_inv (writeBackLine_inv h ..))

theorem hostRelease_inv {before s : State} {locs : List Nat} (h : s.Inv) : (hostRelease before s locs).Inv :=
  acquireAnswered_inv _ (by exact release_inv h ..)

theorem hostOwnWrite_inv {s : State} {ws : List (Nat × Byte)} (h : s.Inv) : (hostOwnWrite s ws).Inv := by
  unfold hostOwnWrite
  extract_lets mm
  have hmm : mm.Inv := foldl_writeBackLine_inv h _
  refine hostRelease_inv (wakeAll_inv (MemSys.Inv.of_sub hmm ?_ fun _ hx => hx))
  exact foldl_keeps (fun m => Memory.wf m = true) _ (fun _ _ hm => twf_tset hm) _ _ hmm.1

theorem hostWrite_inv {s : State} {addr : Nat} {b : Bytes} (h : s.Inv) : (hostWrite s addr b).Inv := by
  unfold hostWrite
  dsimp only
  split
  · exact hostOwnWrite_inv h
  · split
    · exact h
    · exact hostRelease_inv (applyWrite_inv h ..)

theorem flushHeld_inv {s : State} (h : s.Inv) : (flushHeld s).Inv := foldl_inv (fun _ _ h1 => hostWrite_inv h1) h

theorem setWin_inv {s : State} {w : Nat} {x : Window} (h : s.Inv) : (setWin s w x).Inv := h.of_eq rfl rfl

theorem refuseOthers_inv {s : State} {w : Nat} {x : Window} (h : s.Inv) : (refuseOthers s w x).Inv := h.of_eq rfl rfl

theorem enableWrite_inv {s : State} {w v : Nat} (h : s.Inv) : (enableWrite s w v).Inv := by
  unfold enableWrite
  dsimp only
  split
  · exact setWin_inv h
  · split
    · exact setWin_inv h
    · exact refuseOthers_inv (setWin_inv h)

theorem disableWrite_inv {s : State} {w v : Nat} (h : s.Inv) : (disableWrite s w v).Inv := setWin_inv h

theorem execWindowEnable_inv {w : Nat} {v : W32} {s : State} (h : s.Inv) : NextInv (execWindowEnable w v s) := by
  unfold execWindowEnable
  show State.Inv _
  split
  · exact enableWrite_inv h
  · exact h

theorem execWindowDisable_inv {w : Nat} {v : W32} {s : State} (h : s.Inv) : NextInv (execWindowDisable w v s) := by
  unfold execWindowDisable
  show State.Inv _
  split
  · exact disableWrite_inv h
  · exact h

theorem cleanRange_inv {mm : MemSys} {x : Window} (hmm : mm.Inv) : (cleanRange mm x).Inv := hmm.of_eq rfl rfl

theorem startXli_inv {s : State} {v : W32} (h : s.Inv) : (startXli s v).Inv := h.of_eq rfl rfl

theorem execXliInvalidate_inv {v : W32} {s : State} (h : s.Inv) : NextInv (execXliInvalidate v s) := by
  unfold execXliInvalidate
  show State.Inv _
  dsimp only
  split
  · exact h
  · split
    · exact startXli_inv h
    · exact h.of_eq rfl rfl

theorem execXliDone_inv {s : State} (h : s.Inv) : NextInv (execXliDone s) := by
  unfold execXliDone
  show State.Inv _
  dsimp only
  split
  · exact h.of_eq rfl rfl
  · exact h

theorem resumeSave_inv {s : State} {gid : Gid} (h : s.Inv) : (resumeSave s gid).Inv := by
  unfold resumeSave
  dsimp only
  split
  · exact flushPuts_inv h
  · split
    · exact flushPuts_inv h
    · split
      · exact saveAll_inv (flushPuts_inv h)
      · split
        · exact adoptOn_inv (flushPuts_inv h)
        · split
          · exact adoptOn_inv (flushPuts_inv h)
          · split
            · exact markSaved_inv (parkGroup_inv (flushPuts_inv h))
            · exact keptSave_inv (flushPuts_inv h)

theorem retryStream_inv {ref : RecRef} {s : State} {n : Nat} (h : s.Inv) : (retryStream ref s n).Inv := by
  unfold retryStream
  dsimp only
  split
  · refine retryPosts_inv ?_
    refine updStream_inv ?_
    split
    · exact offerOn_inv (updStream_inv h)
    · exact h
  · split
    · exact offerOn_inv (updStream_inv h)
    · exact h

theorem retryRef_inv {ref : RecRef} {s : State} (h : s.Inv) : (retryRef ref s).Inv :=
  foldl_inv (fun _ _ h1 => retryStream_inv h1) (foldl_inv (fun _ _ h1 => optInv_getD (commitNext_inv (setPlaced_inv
    h1)) (setPlaced_inv h1)) (foldl_inv (fun _ _ h1 => resumeSave_inv h1) h))

theorem repostNotice_inv {s : State} {n : Nat} (h : s.Inv) : (repostNotice s n).Inv := by
  unfold repostNotice
  dsimp only
  split
  · split
    · exact overflowNotice_inv h
    · exact h
  · exact h

theorem slotFreed_inv {s : State} {die : Nat} (h : s.Inv) : (slotFreed s die).Inv := by
  unfold slotFreed
  dsimp only
  split
  · exact h
  · split
    · exact flushRecords_inv h
    · exact foldl_inv (fun _ _ h1 => repostNotice_inv h1) (retryRef_inv (flushRecords_inv h))

theorem homesFree_inv {s : State} (h : s.Inv) : (homesFree s).Inv :=
  foldl_inv (fun _ _ h1 => deliverMsg_inv h1) (foldl_inv (fun _ _ h1 => retryPosts_inv h1) (flushRecords18_inv
    (foldl_inv (fun _ _ h1 => slotFreed_inv h1) (retryRef_inv (flushFab_inv (flushHeld_inv h))))))

theorem winDone_inv {s : State} {w : Nat} {x : Window} (h : s.Inv) : (winDone s w x).Inv :=
  homesFree_inv (setWin_inv (cleanRange_inv h))

theorem execWindowEnableDone_inv {w : Nat} {s : State} (h : s.Inv) : NextInv (execWindowEnableDone w s) := by
  unfold execWindowEnableDone
  show State.Inv _
  dsimp only
  split
  · exact winDone_inv h
  · exact h

theorem execWindowDisableDone_inv {w : Nat} {s : State} (h : s.Inv) : NextInv (execWindowDisableDone w s) := by
  unfold execWindowDisableDone
  show State.Inv _
  dsimp only
  split
  · exact winDone_inv h
  · exact h

theorem setAction_inv {s : State} {die act slot : Nat} {err : Bool} (h : s.Inv) :
    (setAction s die act slot err).Inv :=
  updDie_inv h

theorem execRqRetry_inv {die slot : Nat} {s : State} (h : s.Inv) : NextInv (execRqRetry die slot s) := by
  unfold execRqRetry
  show State.Inv _
  split
  · split
    · exact setAction_inv h
    · exact slotFreed_inv (retryRef_inv (resolveRec_inv (setAction_inv h)))
  · exact setAction_inv h

theorem failThreads_inv {ref : RecRef} {s : State} {g : Group} (h : s.Inv) : (failThreads ref s g).Inv :=
  foldl_inv (fun _ _ h1 => takeTrap_inv h1) h

theorem failSave_inv {s : State} {g : Group} (h : s.Inv) : (failSave s g).Inv := by
  unfold failSave
  dsimp only
  split
  · split
    · exact adoptOn_inv (areaEnds_inv h)
    · exact areaEnds_inv h
  · exact h

theorem failPlaced_inv {s : State} {k : Nat} {p : Placement} (h : s.Inv) : (failPlaced s k p).Inv := by
  unfold failPlaced
  dsimp only
  split
  · exact optInv_getD (commitNext_inv (setPlaced_inv (droppedWrite_inv h))) (setPlaced_inv (droppedWrite_inv h))
  · exact h

theorem failEnd_inv {s : State} {x : Gang} (h : s.Inv) : (failEnd s x).Inv := dropGang_inv (droppedWrite_inv h)

theorem failHeldCopy_inv {s : State} {ham : Nat} {c : Copy} {u : Option Nat} (h : s.Inv) :
    (failHeldCopy s ham c u).Inv := by
  unfold failHeldCopy
  split
  · exact updCopy_inv h
  · exact dropWord_inv h

theorem failStream_inv {ref : RecRef} {addr : W64} {s : State} {n : Nat} (h : s.Inv) :
    (failStream ref addr s n).Inv := by
  unfold failStream
  dsimp only
  split
  · split
    · refine retryPosts_inv ?_
      refine endPost_inv ?_
      refine updStream_inv ?_
      refine postRecord_inv ?_
      split
      · exact updStream_inv h
      · exact h
    · refine updStream_inv ?_
      refine postRecord_inv ?_
      split
      · exact updStream_inv h
      · exact h
  · split
    · exact updStream_inv h
    · exact h

theorem failRef_inv {ref : RecRef} {addr : W64} {s : State} (h : s.Inv) : (failRef ref addr s).Inv :=
  foldl_inv (fun _ _ h1 => failStream_inv h1) (foldl_inv (fun _ _ h1 => failHeldCopy_inv h1) (foldl_inv (fun _ _ h1 =>
    failEnd_inv h1) (foldl_inv (fun _ _ h1 => failPlaced_inv h1) (foldl_inv (fun _ _ h1 => failSave_inv h1) (foldl_inv
    (fun _ _ h1 => failThreads_inv h1) h)))))

theorem execRqFail_inv {die slot : Nat} {s : State} (h : s.Inv) : NextInv (execRqFail die slot s) := by
  unfold execRqFail
  show State.Inv _
  split
  · split
    · exact setAction_inv h
    · exact slotFreed_inv (failRef_inv (resolveRec_inv (setAction_inv h)))
  · exact setAction_inv h

theorem dropHeld_inv {s : State} {ref : RecRef} (h : s.Inv) : (dropHeld s ref).Inv := by
  unfold dropHeld
  dsimp only
  split
  · exact offerOn_inv (endHold_inv h)
  · exact resolveRec_inv h

theorem execRqDrop_inv {die slot : Nat} {s : State} (h : s.Inv) : NextInv (execRqDrop die slot s) := by
  unfold execRqDrop
  show State.Inv _
  split
  · split
    · exact slotFreed_inv (dropHeld_inv (setAction_inv h))
    · exact setAction_inv h
  · exact setAction_inv h

theorem execRqconsWrite_inv {die : Nat} {v : W32} {s : State} (h : s.Inv) : NextInv (execRqconsWrite die v s) := by
  unfold execRqconsWrite
  show State.Inv _
  dsimp only
  split
  · exact slotFreed_inv (updDie_inv h)
  · exact h

theorem execRqbaseWrite_inv {die : Nat} {v : W64} {s : State} (h : s.Inv) : NextInv (execRqbaseWrite die v s) := by
  unfold execRqbaseWrite
  show State.Inv _
  split
  · exact slotFreed_inv (updDie_inv h)
  · exact h

theorem setReady_inv {s : State} {f : DevFn} {on : Bool} (h : s.Inv) : (setReady s f on).Inv := h

theorem moveAuto_inv {source dest : Nat} {acc : List (Nat × Nat) × State} {x : Nat × Automaton} (hacc : acc.2.Inv) :
    (moveAuto source dest acc x).2.Inv := by
  unfold moveAuto
  dsimp only
  split
  · exact updAuto_inv (stopAuto_inv hacc)
  · exact updDie_inv (updDie_inv hacc)

theorem moveStream_inv {source dest : Nat} {s : State} {n : Nat} (h : s.Inv) : (moveStream source dest s n).Inv := by
  unfold moveStream
  dsimp only
  split
  · exact h
  · exact updStream_inv (foldl_inv_snd (fun _ _ h1 => moveAuto_inv h1) h)

theorem moveQueues_inv {source dest : Nat} {s : State} (h : s.Inv) : (moveQueues source dest s).Inv := by
  unfold moveQueues
  refine updDie_inv ?_
  refine foldl_inv (fun _ _ h1 => ?_) h
  dsimp only
  split
  · exact h1
  · exact updQueue_inv h1

theorem endMove_inv {s : State} {source : Nat} (h : s.Inv) : (endMove s source).Inv := by
  unfold endMove
  dsimp only
  split
  · exact serviceEvent_inv (moveQueues_inv h)
  · exact moveQueues_inv h

theorem moveNext_inv {source m : Nat} {s : State} (h : s.Inv) : (moveNext source m s).Inv := by
  induction m generalizing s with
  | zero => exact h
  | succ n ih =>
    unfold moveNext
    dsimp only
    split
    · exact h
    · split
      · exact h
      · split
        · exact endMove_inv (moveStream_inv (updDie_inv h))
        · exact ih (moveStream_inv (updDie_inv h))

theorem goMoves_inv {s : State} (h : s.Inv) : (goMoves s).Inv := foldl_inv (fun _ _ h1 => moveNext_inv h1) h

theorem moveStreams_inv {s : State} {source dest : Nat} (h : s.Inv) : (moveStreams s source dest).Inv := by
  unfold moveStreams
  dsimp only
  split
  · exact endMove_inv (setReady_inv (updDie_inv h))
  · exact moveNext_inv (setReady_inv (updDie_inv h))

theorem execHeartbeat_inv {die : Nat} {column : Bool} {s : State} (h : s.Inv) :
    NextInv (execHeartbeat die column s) := by
  unfold execHeartbeat
  show State.Inv _
  split
  · exact h
  · split <;> exact updDie_inv h

theorem declareHung_inv {s : State} {die by_ : Nat} (h : s.Inv) : (declareHung s die by_).Inv := by
  unfold declareHung
  dsimp only
  split
  · refine moveStreams_inv ?_
    split
    · exact serviceEvent_inv (setReady_inv (updDie_inv h))
    · exact setReady_inv (updDie_inv h)
  · split
    · exact serviceEvent_inv (setReady_inv (updDie_inv h))
    · exact setReady_inv (updDie_inv h)

theorem execHangDeclare_inv {die : Nat} {s : State} (h : s.Inv) : NextInv (execHangDeclare die s) := by
  unfold execHangDeclare
  show State.Inv _
  split
  · exact declareHung_inv h
  · exact h

theorem execColumnHangDeclare_inv {die : Nat} {s : State} (h : s.Inv) : NextInv (execColumnHangDeclare die s) := by
  unfold execColumnHangDeclare
  show State.Inv _
  dsimp only
  split
  · exact declareHung_inv h
  · exact h

theorem execReeveRestart_inv {die : Nat} {s : State} (h : s.Inv) : NextInv (execReeveRestart die s) := by
  show State.Inv (if _ then _ else _)
  split
  · exact h
  · exact h

theorem exhaustMargin_inv {s : State} {die : Nat} (h : s.Inv) : (exhaustMargin s die).Inv := by
  unfold exhaustMargin
  dsimp only
  split
  · exact moveStreams_inv (serviceEvent_inv (foldl_inv (fun _ _ h1 => updHam_inv (setReady_inv h1)) (setReady_inv h)))
  · exact serviceEvent_inv (foldl_inv (fun _ _ h1 => updHam_inv (setReady_inv h1)) (setReady_inv h))

theorem execMarginSample_inv {die : Nat} {pdm : BitVec 16} {s : State} (h : s.Inv) :
    NextInv (execMarginSample die pdm s) := by
  unfold execMarginSample
  show State.Inv _
  dsimp only
  split
  · exact h
  · split
    · exact exhaustMargin_inv (updDie_inv h)
    · exact updDie_inv h

theorem execCodeTableRefresh_inv {die : Nat} {temp droop inj : Bytes} {s : State} (h : s.Inv) :
    NextInv (execCodeTableRefresh die temp droop inj s) := by
  unfold execCodeTableRefresh
  show State.Inv _
  split
  · exact h
  · exact updDie_inv h

theorem execPatrolScrub_inv {granule : Nat} {found : ScrubFound} {s : State} (h : s.Inv) :
    NextInv (execPatrolScrub granule found s) := by
  unfold execPatrolScrub
  show State.Inv _
  split
  · exact h
  · split
    · exact h
    · exact updDie_inv h
    · exact poisonGranule_inv h

theorem startImage_inv {s : State} {ctl : Nat} {i : FwImage} (h : s.Inv) : (startImage s ctl i).Inv := h

theorem setFailed_inv {s : State} {f : DevFn} (h : s.Inv) : (setFailed s f).Inv := h

theorem execControllerBoot_inv {ctl : Nat} {img : FwImage} {s : State} (h : s.Inv) :
    NextInv (execControllerBoot ctl img s) := by
  unfold execControllerBoot
  show State.Inv _
  split
  · exact h
  · split
    · exact startImage_inv h
    · exact setFailed_inv h

theorem execAttestRequest_inv {s : State} (h : s.Inv) : NextInv (execAttestRequest s) := h

theorem afterReady_inv {s : State} {f : DevFn} (h : s.Inv) : (afterReady s f).Inv := by
  unfold afterReady
  dsimp only
  split
  · exact homesFree_inv h
  · exact unblock_inv h
  · exact goMoves_inv h
  · split
    · exact serviceEvent_inv (updDie_inv h)
    · exact updDie_inv h
  · exact h

theorem execFunctionReady_inv {f : DevFn} {s : State} (h : s.Inv) : NextInv (execFunctionReady f s) := by
  unfold execFunctionReady
  show State.Inv _
  split
  · exact h
  · exact afterReady_inv (setReady_inv h)

theorem execBringupFail_inv {f : DevFn} {s : State} (h : s.Inv) : NextInv (execBringupFail f s) := by
  unfold execBringupFail
  show State.Inv _
  split
  · exact h
  · split
    · exact homesFree_inv (setFailed_inv h)
    · exact setFailed_inv h

theorem execLstateWrite_inv {die : Nat} {v : W32} {s : State} (h : s.Inv) : NextInv (execLstateWrite die v s) :=
  updDie_inv h

theorem streamReg_inv {n r : Nat} {v : W32} {s : State} (h : s.Inv) : (streamReg n r v s).Inv := by
  unfold streamReg
  dsimp only
  split
  · exact updStream_inv h
  · exact updStream_inv h
  · exact updStream_inv h
  · exact updStream_inv h
  · exact updStream_inv h
  · split
    · exact startReset_inv (retryPosts_inv (updStream_inv h))
    · exact retryPosts_inv (updStream_inv h)
  · exact updStream_inv h
  · exact h

theorem winField_inv {s : State} {w : Nat} {f : Window → Window} (h : s.Inv) : (winField s w f).Inv := by
  unfold winField
  dsimp only
  split
  · exact h
  · exact setWin_inv h

theorem windowReg_inv {w r : Nat} {v : W32} {s : State} (h : s.Inv) : (windowReg w r v s).Inv := by
  unfold windowReg
  split
  · exact winField_inv h
  · exact winField_inv h
  · exact winField_inv h
  · exact winField_inv h
  · exact winField_inv h
  · exact winField_inv h
  · split
    · exact enableWrite_inv h
    · exact disableWrite_inv h
  · exact winField_inv h

theorem nextOr_inv {s : State} {o : Host.Outcome State Fault Refusal} (h : s.Inv) (ho : NextInv o) :
    (nextOr s o).Inv := by
  unfold nextOr
  split
  · exact ho
  · exact h

theorem actionReg_inv {die v : Nat} {s : State} (h : s.Inv) : (actionReg die v s).Inv := by
  unfold actionReg
  dsimp only
  split
  · exact updDie_inv h
  · split
    · exact nextOr_inv h (execRqRetry_inv h)
    · exact nextOr_inv h (execRqFail_inv h)
    · exact nextOr_inv h (execRqDrop_inv h)
    · exact setAction_inv h

theorem reeveReg_inv {die r : Nat} {v : W32} {s : State} (h : s.Inv) : (reeveReg die r v s).Inv := by
  unfold reeveReg
  split
  · exact nextOr_inv h (execRqbaseWrite_inv h)
  · exact nextOr_inv h (execRqbaseWrite_inv h)
  · exact nextOr_inv h (execRqconsWrite_inv h)
  · exact actionReg_inv h
  · split
    · exact nextOr_inv h (execReeveRestart_inv h)
    · exact h
  · exact updDie_inv h
  · exact h

theorem schedReg_inv {die r : Nat} {v : W32} {s : State} (h : s.Inv) : (schedReg die r v s).Inv := by
  unfold schedReg
  split
  · exact nextOr_inv h (execLstateWrite_inv h)
  · exact updDie_inv h
  · exact h

theorem attestReg_inv {r : Nat} {v : W32} {s : State} (h : s.Inv) : (attestReg r v s).Inv := by
  unfold attestReg
  dsimp only
  split
  · exact h
  · split
    · exact nextOr_inv h (execAttestRequest_inv h)
    · exact h

theorem xliReg_inv {r : Nat} {v : W32} {s : State} (h : s.Inv) : (xliReg r v s).Inv := by
  unfold xliReg
  dsimp only
  split
  · exact h.of_eq rfl rfl
  · exact h.of_eq rfl rfl
  · exact nextOr_inv h (execXliInvalidate_inv h)
  · exact h

theorem millReg_inv {ham r : Nat} {v : W32} {s : State} (h : s.Inv) : (millReg ham r v s).Inv := by
  unfold millReg
  split
  · exact h
  · exact updHam_inv h

theorem inv_ite {p : Prop} [Decidable p] {s t : State} (hs : s.Inv) (ht : t.Inv) : (if p then s else t).Inv := by
  split
  · exact hs
  · exact ht

theorem controlReg_inv {o : Nat} {v : W32} {s : State} (h : s.Inv) : (controlReg o v s).Inv := by
  unfold controlReg
  refine inv_ite (xliReg_inv h) (inv_ite (windowReg_inv h) (inv_ite (inv_ite (updQueue_inv h) h) ?_))
  refine inv_ite (schedReg_inv h) (inv_ite (millReg_inv h) (inv_ite h (inv_ite (reeveReg_inv h) ?_)))
  exact inv_ite (attestReg_inv h) (inv_ite h (inv_ite h h))

theorem msixReg_inv {o : Nat} {v : W32} {s : State} (h : s.Inv) : (msixReg o v s).Inv := by
  unfold msixReg
  dsimp only
  split <;> exact h

theorem asnReg_inv {o : Nat} {v : W32} {s : State} (h : s.Inv) : (asnReg o v s).Inv := by
  unfold asnReg
  dsimp only
  split
  · exact h.of_eq rfl rfl
  · exact h

theorem execRegisterWrite_inv {bar off : Nat} {v : W32} {s : State} (h : s.Inv) :
    NextInv (execRegisterWrite bar off v s) := by
  unfold execRegisterWrite
  show State.Inv _
  split
  · exact h
  · split
    · split
      · exact streamReg_inv h
      · exact controlReg_inv h
    · exact msixReg_inv h
    · exact asnReg_inv h
    · exact h

theorem issueState_inv {s : State} {g : Group} {w : Warp} {all set : List Nat} {pc : W64} {n : Nat} {ranOn : Bool}
    (h : s.Inv) : (issueState s g w all set pc n ranOn).Inv := h

theorem lineFault_inv {s : State} {g : Group} {pc : W64} {set : List Nat} {cls cause : Nat} {addr : W64} (h : s.Inv) :
    (lineFault s g pc set cls cause addr).Inv :=
  takeTrap_inv h

theorem runTurn_inv {s : State} {g : Group} {w : Warp} {i : Instr} {gd : BitVec 5} {all set : List Nat} {pc : W64}
    {n : Nat} {ranOn : Bool} (h : s.Inv) : (runTurn s g w i gd all set pc n ranOn).Inv := by
  unfold runTurn
  split
  · exact issueState_inv (inv_of_pair ‹_› (readOver_inv h))
  · exact inv_of_pair ‹_› (readOver_inv h)

theorem turnAt_inv {s : State} {g : Group} {w : Warp} {ranOn : Bool} {pc : W64} {onward : Turn} (h : s.Inv)
    (ho : onward.Inv) : (turnAt s g w ranOn pc onward).Inv := by
  unfold turnAt
  extract_lets ts all base
  split
  · trivial
  split
  · trivial
  · exact hold3_inv (inv_of_pair ‹_› (enterLine_inv h ..))
  · exact lineFault_inv (inv_of_pair ‹_› (enterLine_inv h ..))
  · have h1 := inv_of_pair ‹_› (enterLine_inv h ..)
    split
    · exact lineFault_inv h1
    split
    · exact lineFault_inv h1
    split
    · exact issueState_inv h1
    · extract_lets ready set
      split
      · exact ho
      split
      · split
        · exact ho
        · trivial
      · exact runTurn_inv h1

theorem turnsOver_inv {s : State} {g : Group} {w : Warp} {ranOn : Bool} {pcs : List W64} (h : s.Inv) :
    (turnsOver s g w ranOn pcs).Inv := by
  induction pcs generalizing ranOn with
  | nil => trivial
  | cons pc rest ih => exact turnAt_inv h ih

theorem warpTurn_inv {s : State} {g : Group} {w : Warp} (h : s.Inv) : (warpTurn s g w).Inv := by
  unfold warpTurn
  dsimp only
  split
  · trivial
  split
  · exact turnsOver_inv h
  split
  · trivial
  · exact takeTrap_inv h

theorem illegalOp_inv {g : BitVec 5} {s : State} (h : s.Inv) : (illegalOp g s).Inv := by
  unfold illegalOp
  split
  · exact h
  · split
    · exact Ctx.skip_inv h ..
    · exact Ctx.trapAct_inv h

theorem tick_inv {skip : Option (Gid × Nat)} {s : State} (h : s.Inv) : (tick skip s).Inv := h

theorem unblockAll_inv {s0 s : State} (h : s.Inv) : (unblockAll s0 s).Inv :=
  foldl_inv (fun _ _ h1 => unblockFreed_inv h1) h

theorem freeQueues_inv {s0 s : State} (h : s.Inv) : (freeQueues s0 s).Inv := by
  unfold freeQueues
  refine foldl_inv (fun _ _ h1 => ?_) h
  split
  · exact slotFreed_inv h1
  · exact h1

theorem settle_inv {s0 : State} {skip : Option (Gid × Nat)} {s : State} (h : s.Inv) : (settle s0 skip s).Inv :=
  tick_inv (nextLook_inv (goMoves_inv (freeQueues_inv (pollRings_inv (pollDeposits_inv (unblockAll_inv (settleRows_inv
    h)))))))

end Sys2Proof.Machine
end

section
/-! Every step keeps the invariant of memory (O59). -/

namespace Sys2Proof.Machine

open Sys2Proof

/-! ## Every instruction -/

theorem exec_inv {i : Instr} {s : State} (h : s.Inv) : NextInv (exec i s) := by
  cases i with
  | nopS | nop => exact nopOp_inv h
  | exitS | exit => exact exitOp_inv h
  | retS | ret => exact retOp_inv h
  | yieldS | yield => exact yieldOp_inv h
  | tretS | tret => exact tretOp_inv h
  | pdoneS | pdone => exact pdoneOp_inv h
  | grpbarS | gangbarS | stagebarS | grpbar | gangbar | stagebar => exact barOp_inv h
  | braS | bra => exact braOp_inv h
  | callS | call => exact callOp_inv h
  | meetS | meet => exact meetOp_inv h
  | movS | mov => exact movOp_inv h
  | notS | not => exact notOp_inv h
  | inegS | ineg => exact inegOp_inv h
  | iabsS | iabs => exact iabsOp_inv h
  | popcS | popc => exact popcOp_inv h
  | clzS | clz => exact clzOp_inv h
  | brevS | brev => exact brevOp_inv h
  | srdS | srd => exact srdOp_inv h
  | swrS | swr => exact swrOp_inv h
  | kmovS | knotS | knot | kmov => exact maskOp1_inv h
  | kpopS | kpop => exact kpopOp_inv h
  | rcpS | rsqS | sqrtS | rcp | rsq | sqrt | ex2 | lg2 | sin | cos | tanh => exact specialOp_inv h
  | mwaitS | mwait => exact mwaitOp_inv h
  | hintS | hintL => exact hintOp_inv h
  | movl | sel | shape | idx | unif | cvt | pack4 | shfl | ballot | matchL | lscan | lred | lfirst | mbpeek |
    cpyq | netq => exact runCore_inv h (fun _ => Ctx.result_inv h)
  | lea | iadd | isub | imul | imulh | idiv | irem | imin | imax => exact op2_inv h
  | imad | bfi => exact op3_inv h
  | and | or | xor | andn => exact logicOp_inv h
  | shl | shr | sar | rol | bfx => exact shiftOp_inv h
  | icmp | fcmp | vote => exact runCore_inv h (fun _ => Ctx.masks_inv h)
  | kand | kor | kxor => exact maskOp2_inv h
  | brx => exact execBrx_inv h
  | reggrow => exact execReggrow_inv h
  | regshrink => exact execRegshrink_inv h
  | fadd | fsub | fmul | ffma | fmin | fmax | fclass | frnd | hadd2 | hmul2 | hfma2 | dot4 | dot2 | cvts =>
    exact fpResult_inv h
  | unpack4 => exact runCore_inv h (fun _ => Ctx.upd_inv (Ctx.result_inv h))
  | trap => exact runCore_inv h (fun _ => takeTrap_inv h)
  | ctxsave => exact execCtxsave_inv h
  | ctxsaveKeep => exact runCore_inv h (fun _ => Ctx.upd_inv (Ctx.done_inv h ..))
  | ctxload => exact execCtxload_inv h
  | depwait => exact execDepwait_inv h
  | frecGet => exact execFrecGet_inv h
  | frecFwd => exact execFrecFwd_inv h
  | ld => exact execLd_inv h
  | st => exact runCore_inv h (fun _ => Ctx.storeForm_inv h)
  | ldg => exact execLdg_inv h
  | stg => exact execStg_inv h
  | lde => exact execLde_inv h
  | ste => exact runCore_inv h (fun _ => Ctx.storeParted_inv h (Ctx.decideLanes_inv h))
  | atom => exact execAtom_inv h
  | red => exact execRed_inv h
  | waitc => exact execWaitc_inv h
  | fld => exact execFld_inv h
  | fset => exact execFset_inv h
  | mbsend => exact execMbsend_inv h
  | mbrecv => exact execMbrecv_inv h
  | fence => exact runCore_inv h (fun _ => Ctx.fence_inv h)
  | xfence => exact runCore_inv h (fun _ => Ctx.crossFence_inv h)
  | cflush => exact execCflush_inv h
  | cinv => exact execCinv_inv h
  | cinvCode => exact execCinvCode_inv h
  | pref => exact execPref_inv h
  | evpost => exact evpostOp_inv h (fun _ _ h1 _ => h1)
  | evpostBuf => exact evpostOp_inv h (fun _ _ h1 _ => readPayload_inv h1)
  | evbar => exact execEvbar_inv h
  | amload | amrestore => exact amReadOp_inv h
  | amarm => exact amHandleOp_inv h (fun _ h1 _ => armHandle_inv h1)
  | amdisarm | amdisarmFree => exact amHandleOp_inv h (fun _ h1 _ => disarmHandle_inv h1)
  | amsave | amsaveStop => exact amSaveOp_inv h
  | bequeath => exact execBequeath_inv h
  | ownClaim => exact ownOp_inv h (fun _ _ h1 _ => Ctx.claimLane_inv h1)
  | ownSelf => exact ownOp_inv h (fun _ _ h1 _ => Ctx.selfLane_inv h1)
  | ownWord => exact ownOp_inv h (fun _ _ h1 _ => Ctx.wordLane_inv h1)
  | ownMbox => exact ownOp_inv h (fun _ _ h1 _ => Ctx.mboxLane_inv h1)
  | disownClaim => exact ownOp_inv h (fun _ _ h1 _ => Ctx.unclaimLane_inv h1)
  | disownSelf => exact ownOp_inv h (fun _ _ h1 _ => Ctx.unselfLane_inv h1)
  | disownWord => exact ownOp_inv h (fun _ _ h1 _ => Ctx.unwordLane_inv h1)
  | disownMbox => exact ownOp_inv h (fun _ _ h1 _ => Ctx.unmboxLane_inv h1)
  | helpq => exact execHelpq_inv h
  | mtask => exact execMtask_inv h
  | mpoll => exact execMpoll_inv h
  | binld => exact runCore_inv h (fun _ => Ctx.sparing_inv h (fun _ => Ctx.result_inv h))
  | binst => exact execBinst_inv h
  | binz => exact execBinz_inv h
  | bldp => exact runCore_inv h (fun _ => bldpRun_inv (Ctx.holdWarp_inv h))
  | cpy | cpy2 | cpyt | cpyr => exact copyOp_inv h
  | strel => exact execStrel_inv h
  | bend => exact execBend_inv h
  | bnop | bst => exact boltOp_inv h (fun _ _ h1 => h1)
  | bld => exact execBld_inv h
  | bconst | bfma | bclamp | bamax | bscale => exact boltReg_inv h
  | bcolv => exact execBcolv_inv h
  | browv => exact execBrowv_inv h
  | badd | bsub | bmul | bmin | bmax => exact boltBin_inv h
  | brelu | bgelu | bsilu | btanh => exact boltUn_inv h
  | bsto => exact execBsto_inv h
  | bstsc => exact execBstsc_inv h
  | bamaxg => exact execBamaxg_inv h
  | stailWrite => exact updStream_inv h
  | streamEnable => exact retryPosts_inv (updStream_inv h)
  | streamReset => exact startReset_inv h
  | streamResetDrain => exact execStreamResetDrain_inv h
  | eventOffer => exact execEventOffer_inv h
  | overflowHoldEnd => exact execOverflowHoldEnd_inv h
  | barrierRecord => exact execBarrierRecord_inv h
  | barrierRecordDone => exact execBarrierRecordDone_inv h
  | deadlineEdge | invariantExpiry => exact doTime_inv h
  | argBlockWrite => exact execArgBlockWrite_inv h
  | launchEnqueue => exact execLaunchEnqueue_inv h
  | lotteryDraw => exact execLotteryDraw_inv h
  | gangCommit => exact optInv_getD (commitNext_inv h) h
  | groupComplete => exact execGroupComplete_inv h
  | gangComplete => exact execGangComplete_inv h
  | meetingRelease => exact execMeetingRelease_inv h
  | barrierComplete => exact execBarrierComplete_inv h
  | fairnessMove => exact execFairnessMove_inv h
  | progressTimeout => exact execProgressTimeout_inv h
  | swapOut => exact execSwapOut_inv h
  | groupResume => exact execGroupResume_inv h
  | adoption => exact execAdoption_inv h
  | helperResume => exact execHelperResume_inv h
  | preemptSignal => exact execPreemptSignal_inv h
  | preemptDeadline => exact execPreemptDeadline_inv h
  | loadReply => exact execLoadReply_inv h
  | deferredError => exact execDeferredError_inv h
  | depositArrival => exact execDepositArrival_inv h
  | monitorReply => exact execMonitorReply_inv h
  | futureAnswer => exact execFutureAnswer_inv h
  | nackResend => exact execNackResend_inv h
  | reggrowGrant => exact execReggrowGrant_inv h
  | reggrowFail => exact execReggrowFail_inv h
  | ctxloadDone => exact execCtxloadDone_inv h
  | mtaskEnqueue => exact execMtaskEnqueue_inv h
  | taskIssue => exact execTaskIssue_inv h
  | zeroStep => exact execZeroStep_inv h
  | kStep => exact execKStep_inv h
  | loadAddStep => exact execLoadAddStep_inv h
  | epilogueStep => exact execEpilogueStep_inv h
  | taskCompletion => exact execTaskCompletion_inv h
  | millHold | millRelease => exact updMill_inv h
  | bldpReplace => exact execBldpReplace_inv h
  | copyEnqueue => exact execCopyEnqueue_inv h
  | copyUnit => exact execCopyUnit_inv h
  | copyCompletion => exact execCopyCompletion_inv h
  | strelApply => exact execStrelApply_inv h
  | fabAccess => exact fabAccess_inv h
  | hostMarkedRead => exact execHostMarkedRead_inv h
  | hostOwnershipRequest => exact wakeAll_inv (writeBackLine_inv h ..)
  | evictionError => exact execEvictionError_inv h
  | nodeThrottle | attestRequest | fstripeWrite | fabricPortTrained => exact h
  | windowEnable => exact execWindowEnable_inv h
  | windowEnableDone => exact execWindowEnableDone_inv h
  | windowDisable => exact execWindowDisable_inv h
  | windowDisableDone => exact execWindowDisableDone_inv h
  | xliInvalidate => exact execXliInvalidate_inv h
  | xliDone => exact execXliDone_inv h
  | portLoad | portArm | portDisarm | portDisarmFree | portSave | portSaveStop | portRestore | portReservedOp =>
    exact portCmd_inv h
  | rqRetry => exact execRqRetry_inv h
  | rqFail => exact execRqFail_inv h
  | rqDrop => exact execRqDrop_inv h
  | rqconsWrite => exact execRqconsWrite_inv h
  | rqbaseWrite => exact execRqbaseWrite_inv h
  | reeveRestart => exact execReeveRestart_inv h
  | heartbeat => exact execHeartbeat_inv h
  | hangDeclare => exact execHangDeclare_inv h
  | columnHangDeclare => exact execColumnHangDeclare_inv h
  | marginSample => exact execMarginSample_inv h
  | codeTableRefresh => exact execCodeTableRefresh_inv h
  | patrolScrub => exact execPatrolScrub_inv h
  | controllerBoot => exact execControllerBoot_inv h
  | functionReady => exact execFunctionReady_inv h
  | bringupFail => exact execBringupFail_inv h
  | lstateWrite => exact updDie_inv h
  | registerWrite => exact execRegisterWrite_inv h
  | hostMemoryWrite => exact hostWrite_inv h
  | storeAcknowledgement => exact execStoreAcknowledgement_inv h
  | deviceReset => exact ⟨h.1, fun _ hx => nomatch hx⟩

/-- What runs an instruction keeps the invariant in the state that it ends in. -/
theorem runThen_inv {i : Instr} {s s' : State} {f : State → State} (h : s.Inv) (hf : ∀ t, t.Inv → (f t).Inv)
    (e : runThen (exec i) s f = .next s') : s'.Inv := by
  obtain ⟨t, ht⟩ := exec_next i s
  have hn : NextInv (exec i s) := exec_inv h
  rw [ht] at hn
  simp only [runThen, ht, Host.Outcome.next.injEq] at e
  exact e ▸ hf t hn

/-! ## What can happen of itself is an instruction -/

/-- Each of some happenings is what an instruction does. -/
def AllInstr (l : List Hap) : Prop := ∀ x ∈ l, ∃ i, x = exec i

namespace AllInstr

theorem nil : AllInstr [] := fun _ h => nomatch h

theorem cons (i : Instr) {l : List Hap} (h : AllInstr l) : AllInstr (exec i :: l) :=
  List.forall_mem_cons.2 ⟨⟨i, rfl⟩, h⟩

theorem single (i : Instr) : AllInstr [exec i] := cons i nil

theorem append {a b : List Hap} (ha : AllInstr a) (hb : AllInstr b) : AllInstr (a ++ b) :=
  List.forall_mem_append.2 ⟨ha, hb⟩

theorem map {α : Type} {f : α → Hap} {l : List α} (h : ∀ x, ∃ i, f x = exec i) : AllInstr (l.map f) :=
  List.forall_mem_map.2 fun x _ => h x

theorem flatten {α : Type} {f : α → List Hap} {l : List α} (h : ∀ x, AllInstr (f x)) : AllInstr (l.map f).flatten := by
  intro y hy
  obtain ⟨x, -, hx⟩ := List.mem_flatMap.1 (List.flatMap_def ▸ hy)
  exact h x y hx

theorem filterMap {α : Type} {f : α → Option Hap} {l : List α} (h : ∀ x y, f x = some y → ∃ i, y = exec i) :
    AllInstr (l.filterMap f) := by
  intro y hy
  obtain ⟨x, -, hx⟩ := List.mem_filterMap.1 hy
  exact h x y hx

theorem ite {p : Prop} [Decidable p] {a b : List Hap} (ha : AllInstr a) (hb : AllInstr b) :
    AllInstr (if p then a else b) := by
  split
  · exact ha
  · exact hb

end AllInstr

open AllInstr in
theorem threadHaps_instr (g : Group) (t : Thread) : AllInstr (threadHaps g t) := by
  unfold threadHaps
  split
  · exact cons (.monitorReply ..) (single (.nackResend ..))
  · exact cons (.futureAnswer ..) (single (.nackResend ..))
  · exact single (.nackResend ..)
  · exact single (.barrierComplete ..)
  · exact cons (.reggrowGrant ..) (single (.reggrowFail _))
  · exact ite (single (.meetingRelease ..)) nil
  · exact nil

open AllInstr in
theorem warpHaps_instr (g : Group) (w : Warp) : AllInstr (warpHaps g w) := by
  refine append ?_ (ite (single (.fairnessMove ..)) nil)
  split
  · split
    · exact nil
    · exact single (.mtaskEnqueue ..)
    · exact single (.bldpReplace ..)
    · exact single (.copyEnqueue ..)
  · exact nil

open AllInstr in
theorem groupHaps_instr (s : State) (g : Group) : AllInstr (groupHaps s g) :=
  append (append (append (append (append (append (map fun _ => ⟨.ctxloadDone .., rfl⟩) (flatten (threadHaps_instr g)))
    (flatten (warpHaps_instr g))) (cons (.groupComplete ..) (single (.helperResume ..)))) (ite (single (.adoption ..)) nil))
    (ite nil (map fun _ => ⟨.groupResume .., rfl⟩))) (ite (single (.swapOut ..)) nil)

open AllInstr in
theorem gangHaps_instr (s : State) (x : Gang) : AllInstr (gangHaps s x) :=
  append (ite (single (.preemptSignal _)) nil)
    (cons (.preemptDeadline _) (cons (.progressTimeout _) (single (.gangComplete _))))

open AllInstr in
theorem hamHaps_instr (k : Nat) (h : Hamlet) : AllInstr (hamHaps k h) := by
  refine append (append (append (cons (.taskIssue k) (flatten fun m => ?steps)) (map fun _ => ⟨.taskCompletion .., rfl⟩))
    (filterMap fun m x hx => ?runs)) (flatten fun c => append (map fun _ => ⟨.copyUnit .., rfl⟩) (single (.copyCompletion ..)))
  case steps =>
    split
    · exact cons (.zeroStep ..) (cons (.kStep ..) (cons (.loadAddStep ..) (single (.epilogueStep ..))))
    · exact nil
  case runs =>
    obtain ⟨r, -, rfl⟩ := Option.map_eq_some_iff.1 hx
    exact ⟨.taskCompletion .., rfl⟩

open AllInstr in
theorem streamHaps_instr (n : Nat) : AllInstr (streamHaps n) :=
  cons (.streamResetDrain n) (cons (.overflowHoldEnd n) (cons (.argBlockWrite n) (cons (.launchEnqueue n)
    (cons (.barrierRecordDone n) (cons (.barrierRecord n) (single (.eventOffer n)))))))

open AllInstr in
theorem dieHaps_instr (d : Nat) : AllInstr (dieHaps d) :=
  cons (.deadlineEdge d) (cons (.invariantExpiry d) (cons (.gangCommit d) (single (.lotteryDraw d))))

open AllInstr in
theorem portHaps_instr (s : State) : AllInstr (portHaps s) :=
  ite (cons .portLoad (cons .portArm (cons .portDisarm (cons .portDisarmFree (cons .portSave (cons .portSaveStop
    (cons .portRestore (single .portReservedOp)))))))) nil

open AllInstr in
theorem windowHaps_instr (s : State) : AllInstr (windowHaps s) := by
  refine append (filterMap fun x y hy => ?_) (ite (single .xliDone) nil)
  dsimp only at hy
  split at hy
  · split at hy
    · cases hy
      exact ⟨.windowEnableDone _, rfl⟩
    · cases hy
      exact ⟨.windowDisableDone _, rfl⟩
  · cases hy

theorem boltHaps_instr (s : State) : AllInstr (boltHaps s) := by
  unfold boltHaps
  split
  · intro x hx
    obtain ⟨i, -, rfl⟩ := Option.map_eq_some_iff.1 (Option.mem_toList.1 hx)
    exact ⟨i, rfl⟩
  · exact AllInstr.nil

theorem replyHap_instr (s : State) (r : Req) : ∃ i, replyHap s r = exec i := by
  unfold replyHap
  split
  · exact ⟨.storeAcknowledgement .., rfl⟩
  split
  · exact ⟨.loadReply _, rfl⟩
  · exact ⟨.depositArrival _, rfl⟩

open AllInstr in
theorem happenings_instr (s : State) : AllInstr (happenings s) :=
  append (append (append (append (append (append (append (append (append (append (boltHaps_instr s)
    (map fun _ => ⟨.strelApply _, rfl⟩)) (map fun x => ⟨.deferredError x, rfl⟩)) (map (replyHap_instr s)))
    (flatten (groupHaps_instr s))) (flatten (gangHaps_instr s))) (flatten fun x => hamHaps_instr x.1 x.2))
    (flatten fun x => dieHaps_instr x.1)) (flatten fun x => streamHaps_instr x.1)) (windowHaps_instr s))
    (portHaps_instr s)

/-! ## The choice -/

/-- An act goes on from a state that keeps the invariant, and what it runs is an instruction. -/
def Act.Inv : Act → Prop
  | .exec x s _ => s.Inv ∧ ∃ i, x = Machine.exec i
  | .pass s => s.Inv

theorem actOf_inv {s : State} {g : Group} {w : Warp} {a : Act} (h : s.Inv) (e : actOf s g w = some a) : a.Inv := by
  have ht : (warpTurn s g w).Inv := warpTurn_inv h
  unfold actOf at e
  generalize warpTurn s g w = t at ht e
  cases t with
  | none => cases e
  | line s' =>
    cases e
    exact ht
  | run i gd s' ranOn =>
    cases i with
    | none =>
      cases e
      exact illegalOp_inv ht
    | some i =>
      cases e
      exact ⟨ht, i, rfl⟩

theorem rotate_inv {s : State} (h : s.Inv) : (rotate s).Inv := by
  unfold rotate
  extract_lets ws from_ order sch s1
  split
  · obtain ⟨⟨g, w⟩, -, hx⟩ := List.exists_of_findSome?_eq_some ‹_›
    exact actOf_inv (s := s1) h hx
  · exact h

theorem issueOn_inv {s : State} {core warp : Nat} (h : s.Inv) : (issueOn s core warp).Inv := by
  unfold issueOn
  split
  · rename_i g w _
    cases ha : actOf s g w with
    | none => exact h
    | some a => exact actOf_inv h ha
  · exact h

theorem nextAct_inv {s : State} (h : s.Inv) : (nextAct s).Inv := by
  unfold nextAct
  split
  · extract_lets sch s1
    have h1 : s1.Inv := h
    split
    · split
      · exact ⟨h1, _, rfl⟩
      · exact h1
    · exact issueOn_inv h1
    · exact upsetNow_inv h1 _
    · exact h1
  · extract_lets sch s1
    have h1 : s1.Inv := h
    split
    · exact ⟨h1, happenings_instr s1 _ (List.mem_of_find?_eq_some ‹_›)⟩
    · exact rotate_inv h1

/-! ## The statement -/

/-- Settles O59: the act that a step chooses goes on from a state with the invariant (`nextAct_inv`), what it runs is an
instruction or a happening, each of which keeps it (`exec_inv`), and so does what follows every choice (`settle_inv`). -/
theorem stepKeepsInv : Obligations.StepKeepsInv := by
  intro s s' h e
  have ha : (nextAct s).Inv := nextAct_inv h
  unfold step at e
  generalize nextAct s = a at ha e
  cases a with
  | exec x t skip =>
    obtain ⟨ht, i, rfl⟩ := ha
    exact runThen_inv ht (fun _ => settle_inv) e
  | pass t =>
    cases e
    exact settle_inv ha

end Sys2Proof.Machine
end

section
/-! Fences and cache instructions (O33). -/

namespace Sys2Proof.Machine

open Sys2Proof

/-! ## What someone is told of a write (11 R209, R214) -/

/-- The write is the same, and whoever knew of it knows of it still, through no fewer paths. -/
def Past.Grows (r r' : Past) : Prop :=
  r'.was = r.was ∧ r'.path = r.path ∧ r'.by_ = r.by_ ∧
  ∀ k ∈ r.know, ∃ k' ∈ r'.know, k'.who = k.who ∧ ∀ q ∈ k.via, q ∈ k'.via

theorem Past.Grows.refl (r : Past) : r.Grows r := ⟨rfl, rfl, rfl, fun k hk => ⟨k, hk, rfl, fun _ hq => hq⟩⟩

theorem Past.Grows.trans {r r1 r2 : Past} (h1 : r.Grows r1) (h2 : r1.Grows r2) : r.Grows r2 := by
  obtain ⟨hwas1, hpath1, hby1, hknow1⟩ := h1
  obtain ⟨hwas2, hpath2, hby2, hknow2⟩ := h2
  refine ⟨hwas2.trans hwas1, hpath2.trans hpath1, hby2.trans hby1, fun k hk => ?_⟩
  obtain ⟨k1, hk1, hwho1, hvia1⟩ := hknow1 k hk
  obtain ⟨k2, hk2, hwho2, hvia2⟩ := hknow2 k1 hk1
  exact ⟨k2, hk2, hwho2.trans hwho1, fun q hq => hvia2 q (hvia1 q hq)⟩

/-- Telling someone of a write takes nothing from anyone: an entry of the one that is told gains paths, and another stays. -/
theorem Past.grows_tell (r : Past) (k : Know) : r.Grows (r.tell k) := by
  unfold Past.tell
  split
  · refine ⟨rfl, rfl, rfl, fun x hx => ⟨_, List.mem_map_of_mem hx, ?_⟩⟩
    split
    · exact ⟨rfl, fun q hq => (mem_distinct _ _).2 (List.mem_append_left _ hq)⟩
    · exact ⟨rfl, fun _ hq => hq⟩
  · exact ⟨rfl, rfl, rfl, fun x hx => ⟨x, List.mem_append_left _ hx, rfl, fun _ hq => hq⟩⟩

/-- Who is told of a write knows of it, through the paths that it is told. -/
theorem Past.knows_tell (r : Past) (k : Know) : ∃ x ∈ (r.tell k).know, x.who = k.who ∧ ∀ q ∈ k.via, q ∈ x.via := by
  unfold Past.tell
  split
  case isTrue hany =>
    obtain ⟨x, hx, hwho⟩ := List.any_eq_true.1 hany
    have hwho : x.who = k.who := of_decide_eq_true hwho
    refine ⟨_, List.mem_map_of_mem hx, ?_⟩
    rw [if_pos hwho]
    exact ⟨hwho, fun q hq => (mem_distinct _ _).2 (List.mem_append_right _ hq)⟩
  case isFalse => exact ⟨k, List.mem_append_right _ (List.mem_singleton.2 rfl), rfl, fun _ hq => hq⟩

/-! ## An edge of happens-before -/

section
variable {mm : MemSys} {w : Past} {src : Past → Option (List Nat)} {dst : Agent} {carry : Nat → List Nat}
  {cov : Past → Bool}

theorem exists_grows_mapPast {f : Past → Past} (hf : ∀ r : Past, r.Grows (f r)) (hw : w ∈ mm.past) :
    ∃ w' ∈ (mapPast mm f).past, w.Grows w' := ⟨f w, List.mem_map_of_mem hw, hf w⟩

theorem mem_mapPast_of_fixed {f : Past → Past} (hf : f w = w) (hw : w ∈ mm.past) : w ∈ (mapPast mm f).past :=
  List.mem_map.2 ⟨w, hw, hf⟩

theorem exists_grows_learn (hw : w ∈ mm.past) : ∃ w' ∈ (learn mm src dst carry cov).past, w.Grows w' := by
  refine exists_grows_mapPast (fun r => ?_) hw
  split
  · exact .refl r
  · exact r.grows_tell _

theorem mem_learn_of_none (hsrc : src w = none) (hw : w ∈ mm.past) : w ∈ (learn mm src dst carry cov).past :=
  mem_mapPast_of_fixed (by rw [hsrc]) hw

/-- The one that an edge leads to knows of each write that the edge picks, through the paths that the edge carries. -/
theorem exists_knows_learn (hsrc : (src w).isSome) (hw : w ∈ mm.past) :
    ∃ w' ∈ (learn mm src dst carry cov).past, w.Grows w' ∧
      ∃ k ∈ w'.know, k.who = dst ∧ ∀ q ∈ carry w.path, q ∈ k.via := by
  obtain ⟨via, hvia⟩ := Option.isSome_iff_exists.1 hsrc
  obtain ⟨k, hk, hwho, hq⟩ := w.knows_tell ⟨dst, distinct (via ++ carry w.path), cov w⟩
  exact ⟨_, List.mem_map.2 ⟨w, hw, by rw [hvia]⟩, w.grows_tell _, k, hk, hwho,
    fun q h => hq q ((mem_distinct _ _).2 (List.mem_append_right _ h))⟩

end

/-! ## A fence (11 R213) -/

/-- The paths that a fence carries beside a write's own. -/
def crossCarry (cross : List Nat) (p : Nat) : List Nat := if cross.contains p then cross else []

/-- What a fence of someone takes over of a release that it has read: of the entry `k` of the write `r`. -/
def takeSeen (me : Who) (scope : Nat) (cross : List Nat) (r x : Past) (k : Know) : Past :=
  match k.who, me.own with
  | .seen g t rel, .thread g' t' =>
    if g = g' && t = t' && rel.meets scope me.spot then
      x.tell ⟨me.own, distinct (k.via ++ crossCarry cross r.path), admits (3 ≤ scope) me r⟩
    else x
  | _, _ => x

def takeAllSeen (me : Who) (scope : Nat) (cross : List Nat) (r : Past) : Past :=
  r.know.foldl (takeSeen me scope cross r) r

/-- A fence of a thread in three steps: the thread knows what came before it, takes over the releases that it has read, and
leaves what it knows to its fence. -/
theorem fenceAt_thread (m : MemSys) (g : Group) (t scope : Nat) (cross : List Nat) :
    fenceAt m (threadWho g t) scope cross =
      learnTo (mapPast (learn m (·.priorTo (threadWho g t)) (.thread g.gid t) (crossCarry cross)
          (admits (3 ≤ scope) (threadWho g t)))
        (takeAllSeen (threadWho g t) scope cross)) (·.knownBy [.thread g.gid t]) (.fence g.gid t scope) noCarry := rfl

theorem grows_takeAllSeen (me : Who) (scope : Nat) (cross : List Nat) (r : Past) :
    r.Grows (takeAllSeen me scope cross r) := by
  refine foldl_keeps r.Grows _ (fun x k hx => ?_) r.know r (.refl r)
  unfold takeSeen
  split
  · split
    · exact hx.trans (x.grows_tell _)
    · exact hx
  · exact hx

theorem takeSeen_of_ne {g : Group} {t scope : Nat} {cross : List Nat} {r x : Past} {k : Know}
    (h : ∀ rel, k.who ≠ .seen g.gid t rel) : takeSeen (threadWho g t) scope cross r x k = x := by
  unfold takeSeen
  split
  case h_1 g0 t0 rel g1 t1 hwho hown =>
    obtain ⟨rfl, rfl⟩ : g.gid = g1 ∧ t = t1 := Agent.thread.inj hown
    refine if_neg fun hc => h rel ?_
    simp only [Bool.and_eq_true, decide_eq_true_eq] at hc
    obtain ⟨⟨rfl, rfl⟩, -⟩ := hc
    exact hwho
  case h_2 => rfl

theorem takeAllSeen_of_ne {g : Group} {t scope : Nat} {cross : List Nat} {r : Past}
    (h : ∀ k ∈ r.know, ∀ rel, k.who ≠ .seen g.gid t rel) : takeAllSeen (threadWho g t) scope cross r = r :=
  List.foldlRecOn (motive := (· = r)) r.know _ rfl fun _ hx k hk => (takeSeen_of_ne (h k hk)).trans hx

/-- A thread knows of no write that does not come before it. -/
theorem knownBy_thread_of_priorTo {g : Group} {t : Nat} {r : Past} (h : r.priorTo (threadWho g t) = none) :
    r.knownBy [.thread g.gid t] = none := by
  have hall : r.knownBy (threadAgents g.gid t) = none := by
    unfold Past.priorTo Past.priorOf at h
    split at h
    · cases h
    · exact h
  have hnil : r.know.filter (fun k => (threadAgents g.gid t).contains k.who) = [] := by
    unfold Past.knownBy at hall
    split at hall
    · assumption
    · cases hall
  have hone : r.know.filter (fun k => [Agent.thread g.gid t].contains k.who) = [] := by
    refine List.filter_eq_nil_iff.2 fun k hk hmem => List.filter_eq_nil_iff.1 hnil k hk ?_
    rw [List.contains_iff_mem, List.mem_singleton] at hmem
    rw [hmem]
    exact List.contains_iff_mem.2 List.mem_cons_self
  rw [Past.knownBy, hone]

/-- What comes before a fence is known after it, and a path that the fence names leads to the others that it names. -/
theorem exists_knows_fenceAt {m : MemSys} {g : Group} {t scope : Nat} {cross : List Nat} {w : Past} (hw : w ∈ m.past)
    (h : (w.priorTo (threadWho g t)).isSome) : ∃ w' ∈ (fenceAt m (threadWho g t) scope cross).past, w.Grows w' ∧
      ∃ k ∈ w'.know, k.who = .thread g.gid t ∧ ∀ q, w.path ∈ cross → q ∈ cross → q ∈ k.via := by
  rw [fenceAt_thread]
  obtain ⟨w1, hw1, hgrow1, k, hk, hwho, hvia⟩ := exists_knows_learn (src := (·.priorTo (threadWho g t)))
    (dst := .thread g.gid t) (carry := crossCarry cross) (cov := admits (3 ≤ scope) (threadWho g t)) h hw
  obtain ⟨w2, hw2, hgrow2⟩ := exists_grows_mapPast (grows_takeAllSeen (threadWho g t) scope cross) hw1
  obtain ⟨w3, hw3, hgrow3⟩ := exists_grows_learn (src := (·.knownBy [.thread g.gid t])) (dst := .fence g.gid t scope)
    (carry := noCarry) (cov := fun _ => true) hw2
  have hgrow : w1.Grows w3 := hgrow2.trans hgrow3
  obtain ⟨-, -, -, hknow⟩ := id hgrow
  obtain ⟨k', hk', hwho', hvia'⟩ := hknow k hk
  refine ⟨w3, hw3, hgrow1.trans hgrow, k', hk', hwho'.trans hwho, fun q hp hq => hvia' q (hvia q ?_)⟩
  rwa [crossCarry, if_pos (List.contains_iff_mem.2 hp)]

/-- What does not come before a fence stays as it was. -/
theorem mem_fenceAt_of_not_prior {m : MemSys} {g : Group} {t scope : Nat} {cross : List Nat} {w : Past}
    (hw : w ∈ m.past) (h : w.priorTo (threadWho g t) = none) (hseen : ∀ k ∈ w.know, ∀ rel, k.who ≠ .seen g.gid t rel) :
    w ∈ (fenceAt m (threadWho g t) scope cross).past := by
  rw [fenceAt_thread]
  exact mem_learn_of_none (knownBy_thread_of_priorTo h)
    (mem_mapPast_of_fixed (takeAllSeen_of_ne hseen) (mem_learn_of_none h hw))

/-! ## The instructions -/

theorem fenceThreads_eq (s : State) (g : Group) (scope : Nat) (cross tids : List Nat) :
    fenceThreads s g scope cross tids = { (if 3 ≤ scope ∧ tids ≠ [] then coverThreads s g.gid tids else s) with
      mm := tids.foldl (fun m t => fenceAt m (threadWho g t) scope cross)
        (if 3 ≤ scope ∧ tids ≠ [] then coverThreads s g.gid tids else s).mm } := by
  simp [fenceThreads]

section
variable {s s1 : State} {c : Ctx} {f : LongForm} {locs : List Nat} {ls : List Lane}

/-- Below `dom` a fence waits for nothing, and from there on for what is owed to its threads. -/
theorem not_owed (h : 6 ≤ fenceScope f → ∀ t ∈ c.act, owed s c.cur.gid t.tid = false) :
    (decide (6 ≤ fenceScope f) && c.act.any fun t => owed s c.cur.gid t.tid) = false := by
  rw [Bool.and_eq_false_imp]
  intro hs
  simpa [List.any_eq_false] using h (of_decide_eq_true hs)

theorem crossFence_of_not_owed {qs : List Nat} (h : 6 ≤ fenceScope f → ∀ t ∈ c.act, owed s c.cur.gid t.tid = false) :
    c.crossFence s (fenceScope f) qs = c.done (fenceThreads s c.grp (fenceScope f) qs c.actTids) id := by
  rw [Ctx.crossFence, not_owed h]
  rfl

theorem exec_fence (h : Issues s (.fence f) f.g c)
    (howed : 6 ≤ fenceScope f → ∀ t ∈ c.act, owed s c.cur.gid t.tid = false) :
    exec (.fence f) s = .next (c.done (fenceThreads s c.grp (fenceScope f) [] c.actTids) id) :=
  congrArg Host.Outcome.next ((runCore_body h rfl).trans (crossFence_of_not_owed howed))

theorem pathCode_eq_some {code : BitVec 9} {a : Nat} (ha : a ≤ 4) (h : code.toNat = 0x110 + a) :
    pathCode code = some a := by
  have hlo : 0x110 ≤ code.toNat := by omega
  have hhi : code.toNat ≤ 0x114 := by omega
  rw [pathCode, decide_eq_true hlo, decide_eq_true hhi, Bool.and_self, if_pos rfl, h, Nat.add_sub_cancel_left]

theorem exec_xfence {a b : Nat} (h : Issues s (.xfence f) f.g c) (ha : a ≤ 4) (hb : b ≤ 4) (hab : a ≠ b)
    (hsa : f.sa.toNat = 0x110 + a) (hsb : f.sb.toNat = 0x110 + b)
    (howed : 6 ≤ fenceScope f → ∀ t ∈ c.act, owed s c.cur.gid t.tid = false) :
    exec (.xfence f) s = .next (c.done (fenceThreads s c.grp (fenceScope f) [a, b] c.actTids) id) := by
  have hpa : pathCode f.sa = some a := pathCode_eq_some ha hsa
  have hpb : pathCode f.sb = some b := pathCode_eq_some hb hsb
  have hc : ((pathCode f.sa).isSome && (pathCode f.sb).isSome && pathCode f.sa != pathCode f.sb) = true := by
    simp [hpa, hpb, hab]
  refine congrArg Host.Outcome.next ((runCore_body h hc).trans ?_)
  rw [hpa, hpb]
  exact crossFence_of_not_owed howed

section
variable (ha : srcOk c f.lit true f.sa = true) (hb : srcOk c f.lit false f.sb = true)
include ha hb

theorem addrOk_of_srcs : addrOk c f = true := addrOk_of_legal ⟨ha, hb⟩

variable (hlen : srcOk c f.lit false f.sc = true)
include hlen

theorem rangeOk_of_srcs : (addrOk c f && srcOk c f.lit false f.sc) = true := by rw [addrOk_of_srcs ha hb, hlen]; rfl

theorem exec_cflush (h : Issues s (.cflush f) f.g c)
    (hls : (c.act.foldl (fun (acc : List Lane × State) t =>
      ((acc.1 ++ [⟨t.tid, effAddr f t, rangeLen f t, (decideRange acc.2 c (effAddr f t) (rangeLen f t)).1, 0⟩]),
        (decideRange acc.2 c (effAddr f t) (rangeLen f t)).2)) ([], s)) = (ls, s1)) (hok : AllOk ls) {mm : MemSys}
    (hlocs : locs = ((ls.filter fun l => c.actTids.contains l.tid).filterMap fun l => l.places.map (·.locs)).flatten)
    (hmm : mm = (distinct ((locs.filter isHostLoc).map (· / 128))).foldl writeBackLine s1.mm) :
    exec (.cflush f) s = .next (c.done { s1 with
      mm := dropL1 { mm with writers := mm.writers.filter fun x => !(locs.any fun l => l / 128 == x.1) } c.core locs }
      id) := by
  subst hlocs hmm
  refine congrArg Host.Outcome.next ((runCore_body h (rangeOk_of_srcs ha hb hlen)).trans ?_)
  rw [hls]
  exact perform_of_allOk hok h.act ..

theorem exec_cinv (h : Issues s (.cinv f) f.g c) :
    (c.rangeLines s f = some locs → exec (.cinv f) s = .next (c.done { s with
      mm := coverPast (dropL1 s.mm c.core locs) c.cur.gid c.actTids fun r =>
        r.was.any fun x => locs.any fun l => l / 128 == x.1 / 128 } id)) ∧
    (c.rangeLines s f = none → exec (.cinv f) s = .next s) := by
  have hc : (addrOk c f && srcOk c f.lit false f.sc) = true := rangeOk_of_srcs ha hb hlen
  exact ⟨fun hr => congrArg Host.Outcome.next ((runCore_body h hc).trans (by rw [hr])),
    fun hr => congrArg Host.Outcome.next ((runCore_body h hc).trans (by rw [hr]))⟩

theorem exec_cinvCode (h : Issues s (.cinvCode f) f.g c) :
    (c.rangeLines s f = some locs →
      exec (.cinvCode f) s = .next (c.done { s with mm := dropCode (dropL1 s.mm c.core locs) locs } id)) ∧
    (c.rangeLines s f = none → exec (.cinvCode f) s = .next s) := by
  have hc : (addrOk c f && srcOk c f.lit false f.sc) = true := rangeOk_of_srcs ha hb hlen
  exact ⟨fun hr => congrArg Host.Outcome.next ((runCore_body h hc).trans (by rw [hr])),
    fun hr => congrArg Host.Outcome.next ((runCore_body h hc).trans (by rw [hr]))⟩

omit hlen in
/-- With the hint 3 a prefetch does nothing; with another it may bring lines in, and completes. -/
theorem exec_pref (h : Issues s (.pref f) f.g c) :
    ∃ s2, exec (.pref f) s = .next (c.done s2 id) ∧ (f.hint = 3 → s2 = s) := by
  by_cases hhint : f.hint = 3
  · exact ⟨s, congrArg Host.Outcome.next ((runCore_body h (addrOk_of_srcs ha hb)).trans (if_pos hhint)), fun _ => rfl⟩
  · exact ⟨_, congrArg Host.Outcome.next ((runCore_body h (addrOk_of_srcs ha hb)).trans (if_neg hhint)), fun h3 => absurd h3 hhint⟩

end

end

/-! ## The statement -/

/-- Settles O33: what a fence makes known of each write (`exists_knows_fenceAt`) and what it leaves
(`mem_fenceAt_of_not_prior`), and an equation for each instruction. -/
theorem fencesAndCaches : Obligations.FencesAndCaches := by
  intro s s1 c f locs ls mm
  refine ⟨exec_fence, fun a b => exec_xfence, fenceThreads_eq s, fun m g t scope cross w hw => ⟨fun h => ?_, fun h hseen =>
      mem_fenceAt_of_not_prior hw (Option.isNone_iff_eq_none.1 h) hseen⟩,
    fun h ha hb hlen hls hok hlocs hmm => exec_cflush ha hb hlen h hls hok hlocs hmm,
    fun h ha hb hlen => exec_cinv ha hb hlen h, fun h ha hb hlen => exec_cinvCode ha hb hlen h,
    fun h ha hb => exec_pref ha hb h⟩
  obtain ⟨w', hw', ⟨hwas, hpath, hby, -⟩, hknows⟩ := exists_knows_fenceAt hw h
  exact ⟨w', hw', hwas, hpath, hby, hknows⟩

end Sys2Proof.Machine
end

section
/-! What the ordering of memory leaves at the homes, and what a write at clean places leaves there (O28, O31, O35). -/

namespace Sys2Proof.Machine

open Sys2Proof

/-! ## Bytes and poison at their homes (11 R209 to R213) -/

/-- The bytes at their homes, those that are deferred, and the poison are the same. -/
structure MemSys.SameHome (a b : MemSys) : Prop where
  mem : b.mem = a.mem
  deferred : b.deferred = a.deferred
  poison : b.poison = a.poison

namespace MemSys.SameHome

variable {a b d : MemSys}

theorem refl (a : MemSys) : a.SameHome a := ⟨rfl, rfl, rfl⟩

theorem trans (h : a.SameHome b) (h' : b.SameHome d) : a.SameHome d :=
  ⟨h'.mem.trans h.mem, h'.deferred.trans h.deferred, h'.poison.trans h.poison⟩

theorem homeByte_eq (h : a.SameHome b) (l : Nat) : homeByte b l = homeByte a l := by
  rw [homeByte, homeByte, h.mem, h.deferred]

theorem inv (h : a.SameHome b) (ha : a.Inv) : b.Inv := ha.of_eq h.mem h.deferred

end MemSys.SameHome

theorem sameHome_foldl {β : Type} {f : MemSys → β → MemSys} (hf : ∀ (m : MemSys) x, m.SameHome (f m x)) (l : List β)
    (m : MemSys) : m.SameHome (l.foldl f m) := foldl_keeps m.SameHome f (fun a x h => h.trans (hf a x)) l m (.refl m)

theorem sameHome_foldl_state {β : Type} {f : State → β → State} (hf : ∀ (s : State) x, s.mm.SameHome (f s x).mm)
    (l : List β) (s : State) : s.mm.SameHome (l.foldl f s).mm :=
  foldl_keeps (fun a : State => s.mm.SameHome a.mm) f (fun a x h => h.trans (hf a x)) l s (.refl s.mm)

section
variable (mm : MemSys) (s : State)

theorem sameHome_learnTo (src : Past → Option (List Nat)) (dst : Agent) (carry : Nat → List Nat) :
    mm.SameHome (learnTo mm src dst carry) := ⟨rfl, rfl, rfl⟩

theorem sameHome_acquire (me : Who) (scope : Nat) (locs : List Nat) : mm.SameHome (acquire mm me scope locs) :=
  ⟨rfl, rfl, rfl⟩

theorem sameHome_release (me : Who) (scope : Nat) (locs : List Nat) (carry : Nat → List Nat) :
    mm.SameHome (release mm me scope locs carry) := by
  unfold release releaseBy
  split
  · exact .refl mm
  · refine MemSys.SameHome.trans ?_ (sameHome_foldl (fun m sc => sameHome_learnTo m ..) ..)
    split
    · exact .refl mm
    · exact sameHome_learnTo mm ..

theorem sameHome_markWord (loc : Nat) (lines : List Nat) : mm.SameHome (markWord mm loc lines) := by
  unfold markWord
  dsimp only
  split
  · exact .refl mm
  · exact ⟨rfl, rfl, rfl⟩

theorem sameHome_fenceAt (me : Who) (scope : Nat) (cross : List Nat) : mm.SameHome (fenceAt mm me scope cross) :=
  foldl_keeps mm.SameHome _ (fun m _ h => h.trans (sameHome_learnTo m ..)) _ _ ⟨rfl, rfl, rfl⟩

theorem sameHome_acquired (g : Group) (scope : Nat) (newest : Bool) (locs tids : List Nat) :
    s.mm.SameHome (acquired s g scope newest locs tids).mm := by
  unfold acquired
  split
  · exact .refl s.mm
  · exact sameHome_foldl (fun m t => sameHome_acquire m ..) _ _

@[simp] theorem acquired_host (g : Group) (scope : Nat) (newest : Bool) (locs tids : List Nat) :
    (acquired s g scope newest locs tids).host = s.host := by
  unfold acquired
  split <;> rfl

theorem sameHome_acquireAnswered (before : State) : s.mm.SameHome (acquireAnswered before s).mm := by
  unfold acquireAnswered
  split
  · exact .refl s.mm
  · refine sameHome_foldl_state (fun s g => sameHome_foldl_state (fun s t => ?_) _ s) _ s
    split
    · split
      · exact sameHome_acquired s ..
      · exact .refl s.mm
    · exact .refl s.mm

theorem sameHome_markWrite (me : Who) (scope : Nat) (locs : List Nat) (carry : Nat → List Nat) :
    s.mm.SameHome (markWrite s me scope locs carry).mm := by
  refine (sameHome_release s.mm me scope locs carry).trans ?_
  unfold markWrite
  dsimp only
  split
  · exact .refl _
  · exact sameHome_foldl (fun m w => sameHome_markWord m ..) _ _

/-- What a write releases changes nothing at the homes beside the write. -/
theorem sameHome_writeAs (w : Writer) (ws : List (Nat × Byte)) (me : Who) (scope : Nat) (carry : Nat → List Nat) :
    (applyWrite s w ws).mm.SameHome (writeAs s w ws me scope carry).mm :=
  (sameHome_markWrite (applyWrite s w ws) me scope _ carry).trans (sameHome_acquireAnswered _ s)

theorem sameHome_coverThreads (g : Gid) (tids : List Nat) : s.mm.SameHome (coverThreads s g tids).mm := ⟨rfl, rfl, rfl⟩

theorem sameHome_fenceThreads (g : Group) (scope : Nat) (cross tids : List Nat) :
    s.mm.SameHome (fenceThreads s g scope cross tids).mm := by
  unfold fenceThreads
  refine MemSys.SameHome.trans ?_ (sameHome_foldl (fun m t => sameHome_fenceAt m ..) _ _)
  split
  · exact sameHome_coverThreads s ..
  · exact .refl s.mm

theorem sameHome_fenceFirst (c : Ctx) (scope : Nat) (ls : List Lane) : s.mm.SameHome (c.fenceFirst s scope ls).mm := by
  unfold Ctx.fenceFirst
  split
  · exact .refl s.mm
  · exact sameHome_fenceThreads s ..

end

/-! ## What counts accesses and notes what is owed leaves memory (12 R223, 26 R374, R382) -/

theorem foldl_mm {β : Type} {f : State → β → State} (hf : ∀ s x, (f s x).mm = s.mm) (l : List β) (s : State) :
    (l.foldl f s).mm = s.mm :=
  foldl_keeps (fun a : State => a.mm = s.mm) f (fun _ _ h => (hf _ _).trans h) l s rfl

section
variable (s : State)

@[simp] theorem countFab_mm (gid : Gid) (dev : Nat) : (countFab s gid dev).mm = s.mm := by
  unfold countFab
  split <;> rfl

@[simp] theorem countPlaces_mm (gid : Gid) (p : Places) : (countPlaces s gid p).mm = s.mm := by
  unfold countPlaces
  split
  · exact foldl_mm (fun s _ => countFab_mm s ..) _ s
  · rfl

@[simp] theorem pushReq_mm (gid : Gid) (f : ReqForm) (ls : List ReqLane) (buf : Option Nat) :
    (pushReq s gid f ls buf).mm = s.mm := by
  unfold pushReq
  dsimp only
  split <;> rfl

@[simp] theorem homeReqs_mm (gid : Gid) (f : ReqForm) (ls : List ReqLane) : (homeReqs gid f s ls).mm = s.mm := by
  unfold homeReqs
  split
  · split
    · exact pushReq_mm s ..
    · exact (pushReq_mm _ ..).trans (pushReq_mm s ..)
  · exact pushReq_mm s ..

@[simp] theorem makeReqs_mm (gid : Gid) (f : ReqForm) (ls : List ReqLane) : (makeReqs s gid f ls).mm = s.mm :=
  foldl_mm (fun s _ => homeReqs_mm s ..) _ s

end

/-! ## Places without poison (10 R203, 01 R19) -/

theorem map_fst_zip_subset {locs : List Nat} {b : Bytes} {l : Nat} (h : l ∈ (locs.zip b).map (·.1)) : l ∈ locs := by
  obtain ⟨x, hx, rfl⟩ := List.mem_map.1 h
  exact (List.of_mem_zip hx).1

section
variable {s : State} {locs : List Nat} {b : Bytes}

theorem throughPoison_clean {ws : List (Nat × Byte)} (hp : ∀ x ∈ ws, poisoned s x.1 = false) (w : Writer) :
    (throughPoison s w ws).1 = ws := by
  refine List.filter_eq_self.2 fun x hx => ?_
  have hx := hp x hx
  rw [poisoned, Bool.or_eq_false_iff] at hx
  simp only [hx, Bool.not_false, Bool.true_or, Bool.and_self]

theorem map_eq_of_zip {F : Nat → Byte} (hb : b.length = locs.length) (h : ∀ x ∈ locs.zip b, F x.1 = x.2) :
    locs.map F = b := by
  refine List.ext_getElem (by simpa using hb.symm) fun i hi hi' => ?_
  have hmem : (locs.zip b)[i]'(by simpa [hb] using hi) ∈ locs.zip b := List.getElem_mem _
  simpa using h _ hmem

/-- Bytes that are written at distinct places without poison stand at their homes. -/
theorem map_homeByte_applyWrite (hs : s.Inv) (hn : locs.Nodup) (hp : ∀ l ∈ locs, poisoned s l = false)
    (hb : b.length = locs.length) (w : Writer) : locs.map (homeByte (applyWrite s w (locs.zip b)).mm) = b := by
  have hfst : (locs.zip b).map (·.1) = locs := List.map_fst_zip hb.ge
  have hclean : (throughPoison s w (locs.zip b)).1 = locs.zip b :=
    throughPoison_clean (fun x hx => hp x.1 (List.of_mem_zip hx).1) w
  refine map_eq_of_zip hb fun x hx => ?_
  have hput := homeByte_putBytes (mm := beforeWrite s w (locs.zip b)) (hs.of_eq rfl rfl) (locs.zip b)
    (by rw [hfst]; exact hn) x hx
  rw [← hput, homeByte, homeByte, (applyWrite_bytes s w _).1, (applyWrite_bytes s w _).2, hclean]

theorem homeByte_applyWrite_zip_other {l : Nat} (h : l ∉ locs) (s : State) (w : Writer) (b : Bytes) :
    homeByte (applyWrite s w (locs.zip b)).mm l = homeByte s.mm l :=
  homeByte_applyWrite_other s w fun hl => h (map_fst_zip_subset hl)

end

/-- An access to local places meets no error where none of them is poisoned. -/
theorem placeErr_local {s : State} {p : Places} (hvia : p.via = []) (hlocs : ∀ l ∈ p.locs, l < 2 ^ 52)
    (hp : ∀ l ∈ p.locs, poisoned s l = false) : placeErr s p (p.locs.any (poisoned s)) = none := by
  have hreach : unreached s.fab p = false := by
    rw [unreached, hvia, Bool.or_eq_false_iff]
    refine ⟨List.any_eq_false.2 fun l hl => ?_, rfl⟩
    have hlt := hlocs l hl
    simp only [fabricFails, decide_eq_false (Nat.not_le.2 hlt), Bool.false_and, Bool.false_eq_true, not_false_iff]
  have hclean : p.locs.any (poisoned s) = false := List.any_eq_false.2 fun l hl => by simp [hp l hl]
  rw [placeErr, hreach, hclean]
  rfl

end Sys2Proof.Machine
end

section
/-! Accesses that meet conditions (12 R222), and stores (O28). -/

namespace Sys2Proof.Machine

open Sys2Proof

/-! ## Accesses that meet conditions (12 R222) -/

section
variable {ls : List Lane}

theorem heldOf3_eq (ls : List Lane) : heldOf3 ls =
    (ls.filterMap Lane.cls3).filter fun h => !((trapped ls).any fun b => b.1 = h.tid) := by
  simp only [heldOf3, List.not_any_eq_all_not, decide_not]

theorem any_waits_eq_false (h : ∀ l ∈ ls, l.dec ≠ .waits) : (ls.any fun l => l.dec == .waits) = false :=
  List.any_eq_false.2 fun l hl => by simpa using h l hl

/-- The threads that meet no condition go on, and the others are held or trap. -/
theorem perform_of_conditions (h : ∀ l ∈ ls, l.dec ≠ .waits) (c : Ctx) (s : State) (res : Bool) (kind : Nat)
    (go : Ctx → State → State) : c.perform s res kind ls go =
      c.traps4 (hold3 (if (c.without (faulting ls)).act.isEmpty then (c.without (faulting ls)).skip s res
        else go (c.without (faulting ls)) s) c.grp c.cur.pc kind (heldOf3 ls)) (trapped ls) := by
  simp only [Ctx.perform, any_waits_eq_false h, Bool.false_eq_true, if_false, ← heldOf3_eq, faulting]

/-- So where some threads meet no condition, and where none does. -/
theorem perform_of_some {c : Ctx} (h : ∀ l ∈ ls, l.dec ≠ .waits) (hact : (c.without (faulting ls)).act ≠ []) (s : State)
    (res : Bool) (kind : Nat) (go : Ctx → State → State) : c.perform s res kind ls go =
      c.traps4 (hold3 (go (c.without (faulting ls)) s) c.grp c.cur.pc kind (heldOf3 ls)) (trapped ls) := by
  rw [perform_of_conditions h, if_neg (by simpa using hact)]

theorem perform_of_none {c : Ctx} (h : ∀ l ∈ ls, l.dec ≠ .waits) (hact : (c.without (faulting ls)).act = []) (s : State)
    (res : Bool) (kind : Nat) (go : Ctx → State → State) : c.perform s res kind ls go =
      c.traps4 (hold3 ((c.without (faulting ls)).skip s res) c.grp c.cur.pc kind (heldOf3 ls)) (trapped ls) := by
  rw [perform_of_conditions h, if_pos (by simp [hact])]

theorem storeParted_of_conditions (h : ∀ l ∈ ls, l.dec ≠ .waits) {c : Ctx} {s : State} {scope : Nat}
    (hw : c.releaseWaits s scope ls = false) (s0 : State) (data : State → Lane → Places → Bytes × Table Byte) :
    c.storeParted s0 s scope data ls = c.traps4 (hold3 ((c.without (faulting ls)).done
      (c.storeLanes (c.fenceFirst s scope ls) scope data ls) id) c.grp c.cur.pc 1 (heldOf3 ls)) (trapped ls) := by
  simp only [Ctx.storeParted, any_waits_eq_false h, hw, Bool.false_eq_true, if_false, ← heldOf3_eq, faulting]

@[simp] theorem record3_nil (s : State) (g : Group) (pc : W64) (kind : Nat) (nw : Bool) :
    record3 s g pc kind nw [] = ([], s) := rfl

theorem waits_ne_of_allOk (h : AllOk ls) : ∀ l ∈ ls, l.dec ≠ .waits := fun l hl hw => by
  obtain ⟨p, hp⟩ := h l hl
  rw [hw] at hp
  cases hp

theorem trapped_of_allOk (h : AllOk ls) : trapped ls = [] := by rw [trapped, cls4_of_allOk h]; rfl

theorem heldOf3_of_allOk (h : AllOk ls) : heldOf3 ls = [] := by rw [heldOf3, cls3_of_allOk h]; rfl

end

/-! ## What a store leaves (12 R227) -/

theorem ok_of_places {x : Lane} {p : Places} (h : x.places = some p) : x.dec = .ok p := by
  unfold Lane.places at h
  split at h
  next hq => exact hq.trans (congrArg Decision.ok (Option.some.inj h))
  · cases h

theorem homeByte_storeAt {l : Nat} {p : Places} (h : l ∉ p.locs) (s : State) (c : Ctx) (scope tid : Nat) (b : Bytes)
    (en : Table Byte) : homeByte (c.storeAt s scope tid p b en).2.mm l = homeByte s.mm l := by
  unfold Ctx.storeAt
  dsimp only
  split
  · rw [countPlaces_mm]
  · rw [(sameHome_writeAs ..).homeByte_eq, homeByte_applyWrite_zip_other h, countPlaces_mm]

/-- A store changes no byte outside the places of its lanes. -/
theorem homeByte_storeLanes {l : Nat} {ls : List Lane} (h : ¬ Stored ls l) (s : State) (c : Ctx) (scope : Nat)
    (data : State → Lane → Places → Bytes × Table Byte) :
    homeByte (c.storeLanes s scope data ls).mm l = homeByte s.mm l := by
  unfold Ctx.storeLanes
  dsimp only
  rw [makeReqs_mm]
  refine List.foldlRecOn (motive := fun x : List ReqLane × State => homeByte x.2.mm l = homeByte s.mm l) ls _ rfl
    fun x hx y hy => ?_
  split
  case h_1 p hp =>
    exact (homeByte_storeAt (fun hl => h ⟨y, hy, p, ok_of_places hp, hl⟩) ..).trans hx
  case h_2 => exact hx

/-! ## The instructions -/

section
variable {s s1 : State} {c : Ctx} {f : LongForm} {ls : List Lane}

theorem storeChk (ha : AddrLegal c f) {w : Bool} (hc : srcOk c f.lit w f.sc = true) :
    (addrOk c f && srcOk c f.lit w f.sc) = true := by rw [addrOk_of_legal ha, hc]; rfl

variable (ha : AddrLegal c f)
include ha

theorem exec_st (h : Issues s (.st f) f.g c) (hc : srcOk c f.lit (wideTy f) f.sc = true)
    (hls : c.decideParts s (c.storeParts s (effAddr f) (tyBytes f.ty)) 1 .store = (ls, s1)) :
    exec (.st f) s = .next (c.storeParted s s1 f.scope (c.partBytes f) ls) := by
  refine congrArg Host.Outcome.next ((runCore_body h (storeChk ha hc)).trans ?_)
  rw [Ctx.storeForm, hls]

theorem exec_ste (h : Issues s (.ste f) f.g c) (hc : srcOk c f.lit false f.sc = true)
    (hls : c.decideLanes s (fun t => (elemOf f t).va) (fun t => (elemOf f t).n) 1 .store = (ls, s1)) :
    exec (.ste f) s = .next (c.storeParted s s1 f.scope
      (fun s l p => (mergeElem (leNat (p.locs.map (homeByte s.mm))) (c.elem f l.tid).sh (tyBits f.ty)
        (c.dataOf (dataBits f) l.tid) l.n, elemEnables p.locs (c.elem f l.tid).sh (tyBits f.ty)))
      (ls.map (c.markStraddle s))) := by
  refine congrArg Host.Outcome.next ((runCore_body h (storeChk ha hc)).trans ?_)
  rw [hls]
  rfl

/-- `STG` stores for the threads whose mask bit is 0 and sets the bit, but for those that meet class 3; class 4 traps
its threads alone. -/
theorem exec_stg (h : Issues s (.stg f) f.g c) (hd : f.dst.toNat < 8) (hd0 : f.dst ≠ 0)
    (hc : srcOk c f.lit (wideTy f) f.sc = true)
    (hls : (todo c f.dst.toNat).decideParts s ((todo c f.dst.toNat).storeParts s (effAddr f) (tyBytes f.ty)) 1 .store =
      (ls, s1)) (hw : ∀ l ∈ ls, l.dec ≠ .waits) (hr : c.releaseWaits s1 f.scope ls = false) :
    exec (.stg f) s = .next (c.traps4 (record3 ((c.without ((trapped ls).map (·.1))).done
      ((todo c f.dst.toNat).storeLanes ((todo c f.dst.toNat).fenceFirst s1 f.scope ls) f.scope
        ((todo c f.dst.toNat).partBytes f) ls) fun t =>
      if t.tid ∈ (todo c f.dst.toNat).act.map (·.tid) ∧ ∀ h ∈ heldOf3 ls, h.tid ≠ t.tid then t.setMask f.dst.toNat true
      else t) c.grp c.cur.pc 1 true (heldOf3 ls)).2 (trapped ls)) := by
  have hchk : (maskDstOk f.dst && f.dst != 0#8 && addrOk c f && srcOk c f.lit (wideTy f) f.sc) = true := by
    have hne : (f.dst != 0#8) = true := bne_iff_ne.2 hd0
    simp only [maskDstOk, hd, decide_true, hne, addrOk_of_legal ha, hc, Bool.and_self]
  refine congrArg Host.Outcome.next ((runCore_body h hchk).trans ?_)
  simp only [todo] at hls ⊢
  simp only [hls, any_waits_eq_false hw, hr, Bool.false_eq_true, if_false, ← heldOf3_eq, Ctx.actTids,
    List.contains_iff_mem, Bool.and_eq_true, Bool.not_eq_true', List.any_eq_false, decide_eq_true_eq]
  rfl

end

/-! ## The statement -/

/-- Settles O28: an equation for each instruction, by `storeParted_of_allOk` and `storeParted_of_conditions`, and the
frame of `homeByte_storeLanes`. -/
theorem storesCompleteAndFrame : Obligations.StoresCompleteAndFrame := by
  intro s s1 c f ls
  refine ⟨?st, ?ste, ?stg, ?stConditions, ?stgConditions, ?frame⟩
  case st =>
    intro h ha hb hc hls hok hr
    rw [exec_st ⟨ha, hb⟩ h hc hls, storeParted_of_allOk hok hr]
  case ste =>
    intro h ha hb hc hls hok hr
    rw [exec_ste ⟨ha, hb⟩ h hc hls, storeParted_of_allOk hok hr]
  case stg =>
    intro h hd hd0 ha hb hc hls hok hr
    have hstg := exec_stg ⟨ha, hb⟩ h hd hd0 hc hls (waits_ne_of_allOk hok) hr
    simpa [trapped_of_allOk hok, heldOf3_of_allOk hok] using hstg
  case stConditions =>
    intro h ha hc hls hr hw
    rw [exec_st ha h hc hls, storeParted_of_conditions hw hr]
  case stgConditions =>
    intro h hd hd0 ha hc hls hw hr
    exact exec_stg ha h hd hd0 hc hls hw hr
  case frame =>
    intro scope data l hl
    rw [done_mm, homeByte_storeLanes hl, (sameHome_fenceFirst ..).homeByte_eq]

end Sys2Proof.Machine
end

section
/-! An atomic and an `FSET` at local places without poison (O31, O35). -/

namespace Sys2Proof.Machine

open Sys2Proof

/-! ## A read-modify-write at its home (12 R234, R242) -/

theorem countPlaces_local {p : Places} (h : p.peer = false) (s : State) (gid : Gid) : countPlaces s gid p = s := by
  rw [countPlaces, h]
  rfl

theorem countOne_local {p : Places} (h : p.peer = false) (s : State) (gid : Gid) : countOne s gid p = s := by
  rw [countOne, h]
  rfl

theorem takeMarks_below_sys {scope : Nat} (h : scope ≠ 7) (s : State) (locs : List Nat) : takeMarks s scope locs = s :=
  if_neg h

/-- Only an `fadd` sums its operands first (05 R84). -/
theorem atomSet_one {op : AtomOp} (h : op ≠ .fadd) (ty m tid b e : Nat) :
    atomSet op ty m [(tid, b, e)] = ([(tid, m)], rmw op ty m b e) := by
  cases op with
  | fadd => exact absurd rfl h
  | _ => rfl

/-- The writer of a thread's read-modify-write, which goes past its core's L1. -/
def rmwWriter (g : Group) (tid : Nat) : Writer := { groupWriter g tid with core := none, rmw := true }

/-- The core's L1 copies of some places are dropped. -/
def dropped (c : Ctx) (s : State) (locs : List Nat) : State := { s with mm := dropL1 s.mm c.core locs }

theorem sameHome_dropped (c : Ctx) (s : State) (locs : List Nat) : s.mm.SameHome (dropped c s locs).mm := ⟨rfl, rfl, rfl⟩

/-- From `s` to `s'` bytes are written at some places, and every other byte stays. -/
structure WritesHome (s s' : State) (locs : List Nat) (b : Bytes) : Prop where
  written : locs.map (homeByte s'.mm) = b
  other : SameMemory s s' fun l => l ∉ locs

/-- A write at distinct places without poison writes its bytes, and what it releases or answers changes no byte. -/
theorem writesHome_applyWrite {s s' : State} {locs : List Nat} {b : Bytes} (hs : s.Inv) (hn : locs.Nodup)
    (hp : ∀ l ∈ locs, poisoned s l = false) (hb : b.length = locs.length) (w : Writer)
    (h : (applyWrite s w (locs.zip b)).mm.SameHome s'.mm) : WritesHome s s' locs b where
  written := (List.map_congr_left fun l _ => h.homeByte_eq l).trans (map_homeByte_applyWrite hs hn hp hb w)
  other l hl := (h.homeByte_eq l).trans (homeByte_applyWrite_zip_other hl s w b)

/-! ## Atomics (12 R234, R235) -/

/-- An atomic of one thread at its write: the bytes, what it releases, and the waits that it answers. -/
def Ctx.atomWritten (c : Ctx) (s : State) (scope tid : Nat) (locs : List Nat) (b : Bytes) : State :=
  acquireAnswered s (markWrite (dropped c (applyWrite s (rmwWriter c.grp tid) (locs.zip b)) locs) (threadWho c.grp tid)
    scope locs)

/-- What it acquires as a read. -/
def Ctx.atomAcquired (c : Ctx) (s : State) (scope tid : Nat) (acq : Bool) (locs : List Nat) : State :=
  if acq then acquired s c.grp scope true locs [tid] else s

section
variable {s : State} {c : Ctx} {scope tid : Nat} {acq : Bool} {locs : List Nat}

theorem atomPlace_one {op : AtomOp} {ty b e : Nat} {va : W64} {p : Places} (hscope : scope ≠ 7) (hpeer : p.peer = false)
    (herr : placeErr s p (p.locs.any (poisoned s)) = none) (hop : op ≠ .fadd) :
    c.atomPlace s op ty scope acq va p [(tid, b, e)] =
      ([⟨tid, va, BitVec.ofNat 64 (leNat (p.locs.map (homeByte s.mm))), none, isRemote p⟩],
        c.atomWritten (c.atomAcquired s scope tid acq p.locs) scope tid p.locs
          (natLe (tyBytes ty) (rmw op ty (leNat (p.locs.map (homeByte s.mm))) b e))) := by
  simp only [Ctx.atomPlace, countPlaces_local hpeer, takeMarks_below_sys hscope, ite_self, readHome, herr,
    atomSet_one hop]
  rfl

theorem sameHome_atomAcquired (c : Ctx) (s : State) (scope tid : Nat) (acq : Bool) (locs : List Nat) :
    s.mm.SameHome (c.atomAcquired s scope tid acq locs).mm := by
  unfold Ctx.atomAcquired
  split
  · exact sameHome_acquired s ..
  · exact .refl s.mm

theorem poisoned_atomAcquired (l : Nat) : poisoned (c.atomAcquired s scope tid acq locs) l = poisoned s l := by
  rw [poisoned, poisoned, (sameHome_atomAcquired ..).poison, Ctx.atomAcquired, apply_ite State.host, acquired_host,
    ite_self]

theorem writesHome_atomWritten {b : Bytes} (hs : s.Inv) (hn : locs.Nodup) (hp : ∀ l ∈ locs, poisoned s l = false)
    (hb : b.length = locs.length) : WritesHome s (c.atomWritten s scope tid locs b) locs b := by
  refine writesHome_applyWrite hs hn hp hb (rmwWriter c.grp tid) ?_
  refine MemSys.SameHome.trans ?_ (sameHome_acquireAnswered ..)
  exact (sameHome_dropped c ..).trans (sameHome_markWrite (dropped c _ locs) ..)

end

/-- Settles O31: `atomPlace_one` says what the atomic does, and `writesHome_atomWritten` what its write leaves. -/
theorem atomicReadsModifiesWrites : Obligations.AtomicReadsModifiesWrites := by
  intro s c op ty scope tid b e acq va p hs hscope hpeer hvia hlen hn hp hlocs hop
  have hacq := sameHome_atomAcquired c s scope tid acq p.locs
  obtain ⟨hwritten, hother⟩ : WritesHome (c.atomAcquired s scope tid acq p.locs) _ p.locs _ :=
    writesHome_atomWritten (c := c) (scope := scope) (tid := tid) (hacq.inv hs) hn
      (fun l hl => (poisoned_atomAcquired l).trans (hp l hl)) ((length_natLe _ _).trans hlen.symm)
  exact ⟨_, atomPlace_one hscope hpeer (placeErr_local hvia hlocs hp) hop, hwritten,
    fun l hl => (hother l hl).trans (hacq.homeByte_eq l)⟩

/-! ## Futures (12 R238, R242) -/

theorem leNat_lt (b : Bytes) : leNat b < 256 ^ b.length := by
  induction b with
  | nil => exact Nat.one_pos
  | cons x b ih =>
    have hx := x.isLt
    rw [leNat, List.length_cons, Nat.pow_succ]
    omega

/-- The upper two bits of a future's state word (12 R238). -/
theorem futState_eq (b : Bytes) : futState b = field b 8 8 / 2 ^ 62 := by
  have hlt : field b 8 8 < 256 ^ 8 :=
    (leNat_lt _).trans_le (Nat.pow_le_pow_right (by omega) (by simp))
  exact Nat.mod_eq_of_lt (by omega)

theorem length_fsetBytes (fail : Bool) (b : Bytes) (v : Nat) : (fsetBytes fail b v).length = 16 := by simp [fsetBytes]

section
variable {s : State} {c : Ctx} {f : LongForm} {l : Lane} {p : Places} {es : List (Nat × Nat × W64)}
  (hl : l.dec = .ok p) (hpeer : p.peer = false) (herr : placeErr s p (p.locs.any (poisoned s)) = none)
include hl hpeer herr

theorem fsetLane_full (h : futState (p.locs.map (homeByte s.mm)) ≠ 0) : c.fsetLane f (es, s) l = (es, s) := by
  simp only [Ctx.fsetLane, Lane.places, hl, countOne_local hpeer, herr, h, ne_eq, not_false_eq_true, if_true]

/-- The state after an `FSET` has written its bytes. -/
def Ctx.fsetWritten (c : Ctx) (s : State) (f : LongForm) (tid : Nat) (locs : List Nat) (b : Bytes) : State :=
  dropped c (writeAs s (rmwWriter c.grp tid) (locs.zip b) (threadWho c.grp tid) (scopeOr 5 f)) locs

theorem fsetLane_empty (h : futState (p.locs.map (homeByte s.mm)) = 0) : c.fsetLane f (es, s) l =
    (es, c.fsetWritten s f l.tid p.locs (fsetBytes (f.ty == 0) (p.locs.map (homeByte s.mm))
      (c.dataOf (fun t => rdBits f.lit (wideTy f) f.sc t) l.tid))) := by
  simp only [Ctx.fsetLane, Lane.places, hl, countOne_local hpeer, herr, h, ne_eq, not_true_eq_false, if_false]
  rfl

end

theorem writesHome_fsetWritten {s : State} {c : Ctx} {f : LongForm} {tid : Nat} {locs : List Nat} {b : Bytes}
    (hs : s.Inv) (hn : locs.Nodup) (hp : ∀ l ∈ locs, poisoned s l = false) (hb : b.length = locs.length) :
    WritesHome s (c.fsetWritten s f tid locs b) locs b :=
  writesHome_applyWrite hs hn hp hb (rmwWriter c.grp tid) ((sameHome_writeAs s ..).trans (sameHome_dropped c ..))

/-- The state word that an `FSET` writes to an empty future: `fst` joins the other bits, and none of them changes. -/
theorem fsetBytes_empty {fail : Bool} {b : Bytes} {v : Nat} (h : field b 8 8 / 2 ^ 62 = 0) : fsetBytes fail b v =
    natLe 8 v ++ natLe 8 (field b 8 8 + (if fail then 2 else 1) * 2 ^ 62) := by
  have hlow : bits (field b 8 8) 0 62 = field b 8 8 := by
    rw [bits, Nat.pow_zero, Nat.div_one]
    exact Nat.mod_eq_of_lt (by omega)
  rw [fsetBytes, hlow]

/-- Settles O35: by the state of the future (`futState_eq`), the lane is `fsetLane_full` or `fsetLane_empty`. -/
theorem futuresAreSetOnce : Obligations.FuturesAreSetOnce := by
  intro s c f l p hs hl hlen hpeer hvia hn hp
  have hpoison : ∀ x ∈ p.locs, poisoned s x = false := fun x hx => (hp x hx).1
  have herr := placeErr_local hvia (fun x hx => (hp x hx).2) hpoison
  refine ⟨fun hfull => fsetLane_full hl hpeer herr (by rwa [futState_eq]), fun hempty => ?_⟩
  have hwrites := writesHome_fsetWritten (c := c) (f := f) (tid := l.tid) hs hn hpoison ((length_fsetBytes (f.ty == 0)
    (p.locs.map (homeByte s.mm)) (c.dataOf (fun t => rdBits f.lit (wideTy f) f.sc t) l.tid)).trans hlen.symm)
  rw [fsetLane_empty hl hpeer herr (by rwa [futState_eq]), hwrites.written, fsetBytes_empty hempty]
  simp only [beq_iff_eq]

end Sys2Proof.Machine
end

section
/-! What a reply and the end of a wait write (O37), and the happenings that bring them (O36). -/

namespace Sys2Proof.Machine

open Sys2Proof

/-! ## A value that comes later (12 R226, R237) -/

/-- A thread with a value in its destination, where it has one and the budget still holds it. -/
def givenReg (n d : Nat) (toReg wide : Bool) (v : W64) (t : Thread) : Thread :=
  if toReg && d < n then t.write d wide v else t

section
variable {n d : Nat} {toReg : Bool} {wide : Bool} {v : W64} {t : Thread}

theorem givenReg_eq : givenReg n d toReg wide v t =
    { t with regs := (givenReg n d toReg wide v t).regs, rbad := (givenReg n d toReg wide v t).rbad } := by
  unfold givenReg
  split
  · exact write_eq ..
  · rfl

theorem reg_givenReg_other {r : Nat} (hr : r ≠ d) (hhigh : r ≠ d + 1) : (givenReg n d toReg wide v t).reg r = t.reg r := by
  have hpair : ¬ (wide = true ∧ d + 1 = r) := fun h => hhigh h.2.symm
  unfold givenReg
  split
  · rw [reg_write, if_neg hr.symm, if_neg hpair]
  · rfl

variable (htoReg : toReg = true) (hd : d < n)
include htoReg hd

theorem givenReg_write : givenReg n d toReg wide v t = t.write d wide v := if_pos (by rw [htoReg, decide_eq_true hd]; rfl)

theorem reg_givenReg : (givenReg n d toReg wide v t).reg d = v.setWidth 32 := by
  rw [givenReg_write htoReg hd, reg_write, if_pos rfl]
  rfl

theorem reg_givenReg_high (hwide : wide = true) : (givenReg n d toReg wide v t).reg (d + 1) = (v >>> 32).setWidth 32 := by
  rw [givenReg_write htoReg hd, reg_write, if_neg (by omega), if_pos ⟨hwide, rfl⟩]
  rfl

end

/-! ## A reply reaches a thread (12 R226, R228) -/

section
variable {n : Nat} {r : Req} {t : Thread} {l : ReqLane} (hl : r.lanes.find? (fun l => l.tid = t.tid) = some l)
include hl

theorem replyThread_masked {k : Nat} (hk : r.kset = some k) (herr : l.err = none) :
    replyThread n r t = (givenReg n r.dst r.toReg r.wide l.val t).setMask k true := by
  simp only [replyThread, hl, hk, herr, Option.isNone_none, if_true]
  rfl

theorem replyThread_unmasked (h : r.kset = none ∨ l.err ≠ none) :
    replyThread n r t = givenReg n r.dst r.toReg r.wide l.val t := by
  rcases hk : r.kset with _ | k
  · simp only [replyThread, hl, hk]
    rfl
  · have herr : l.err.isNone = false := by
      rw [← Bool.not_eq_true, Option.isNone_iff_eq_none]
      exact h.resolve_left (by simp [hk])
    simp only [replyThread, hl, hk, herr, Bool.false_eq_true, if_false]
    rfl

/-- A reply gives its thread the value, and beside it changes masks only. -/
theorem replyThread_eq : replyThread n r t =
    { givenReg n r.dst r.toReg r.wide l.val t with k := (replyThread n r t).k } := by
  by_cases h : r.kset = none ∨ l.err ≠ none
  · rw [replyThread_unmasked hl h]
  · obtain ⟨hk, herr⟩ := not_or.1 h
    obtain ⟨k, hk⟩ := Option.ne_none_iff_exists'.1 hk
    rw [replyThread_masked hl hk (not_not.1 herr)]
    exact setMask_eq ..

theorem reg_replyThread (d : Nat) :
    (replyThread n r t).reg d = (givenReg n r.dst r.toReg r.wide l.val t).reg d := by
  rw [replyThread_eq hl]
  rfl

theorem replyThread_frame : (replyThread n r t).pc = t.pc ∧ (replyThread n r t).wait = t.wait ∧
    (replyThread n r t).latches = t.latches := by
  rw [replyThread_eq hl, givenReg_eq]
  exact ⟨rfl, rfl, rfl⟩

end

/-! ## A wait ends (12 R237, R241, R245) -/

section
variable (n : Nat) (r : WaitRes) (t : Thread)

theorem fillLatch_eq (l : Latch) : fillLatch l t = { t with latches := (fillLatch l t).latches } := by
  unfold fillLatch
  split
  · split <;> rfl
  · rfl

/-- The latch entry of a result that a thread has waited for. -/
def WaitRes.latch : Latch :=
  ⟨lo32 r.val, if r.wide then hi32 r.val else 0#32, .gen, if r.wide then .gen else .uni, none⟩

theorem endWait_eq : endWait n r t =
    { givenReg n r.dst r.toReg r.wide r.val (fillLatch r.latch t) with wait := .run, pc := t.wnext } := rfl

/-- The end of a wait leaves all of its thread but registers, latches, waiting state and pc. -/
theorem endWait_frame : endWait n r t = { t with
    regs := (endWait n r t).regs, rbad := (endWait n r t).rbad, latches := (endWait n r t).latches, wait := .run,
    pc := t.wnext } := by
  rw [endWait_eq, givenReg_eq, fillLatch_eq]

theorem reg_endWait (d : Nat) : (endWait n r t).reg d =
    (givenReg n r.dst r.toReg r.wide r.val (fillLatch r.latch t)).reg d := rfl

theorem reg_fillLatch (l : Latch) (d : Nat) : (fillLatch l t).reg d = t.reg d := by
  rw [fillLatch_eq]
  rfl

end

/-- Settles O37: the registers are those of `givenReg`, the mask is `mask_setMask`'s, and the rest of the thread stays
(`replyThread_frame`, `endWait_frame`). -/
theorem repliesAndWaitsWrite : Obligations.RepliesAndWaitsWrite := by
  refine ⟨fun n r t l hl => ⟨fun htoReg hdst => ?regs, fun k hk hk8 herr => ?mask, fun k _ herr => ?noMask,
    replyThread_frame hl⟩, fun n r t => ?wait⟩
  case regs =>
    rw [reg_replyThread hl, reg_replyThread hl]
    exact ⟨reg_givenReg htoReg hdst, reg_givenReg_high htoReg hdst⟩
  case mask =>
    rw [replyThread_masked hl hk herr, mask_setMask _ _ _ hk8]
    by_cases h0 : k = 0
    · subst h0
      rfl
    · rw [if_pos ⟨rfl, h0⟩]
  case noMask => rw [replyThread_unmasked hl (.inr herr), givenReg_eq]
  case wait =>
    have hframe := endWait_frame n r t
    refine ⟨by rw [hframe], by rw [hframe], reg_givenReg, fun d hd hd1 => ?_, by rw [hframe], by rw [hframe],
      by rw [hframe]⟩
    rw [reg_endWait, reg_givenReg_other hd hd1, reg_fillLatch]

/-! ## The happenings' meanings -/

theorem exec_loadReply (rid : Nat) (s : State) : exec (.loadReply rid) s = execLoadReply rid s := rfl

theorem exec_depositArrival (rid : Nat) (s : State) : exec (.depositArrival rid) s = execDepositArrival rid s := rfl

theorem exec_storeAcknowledgement (tag grp tid : Nat) (s : State) :
    exec (.storeAcknowledgement tag grp tid) s = execStoreAcknowledgement tag grp tid s := rfl

theorem exec_monitorReply (tag grp tid : Nat) (s : State) :
    exec (.monitorReply tag grp tid) s = execMonitorReply tag grp tid s := rfl

theorem exec_futureAnswer (tag grp tid : Nat) (s : State) :
    exec (.futureAnswer tag grp tid) s = execFutureAnswer tag grp tid s := rfl

theorem exec_nackResend (tag grp tid : Nat) (s : State) :
    exec (.nackResend tag grp tid) s = execNackResend tag grp tid s := rfl

theorem exec_deferredError (rid : Nat) (s : State) : exec (.deferredError rid) s = execDeferredError rid s := rfl

/-! ## Replies and acknowledgements (12 R223, 26 R374) -/

section
variable (s : State) (gid : Gid) (info : W64) (es : List (Nat × Nat × W64))

@[simp] theorem pushErrs_mm : (pushErrs s gid info es).mm = s.mm := by
  unfold pushErrs
  split <;> rfl

@[simp] theorem pushErrs_groups : (pushErrs s gid info es).groups = s.groups := by
  unfold pushErrs
  split <;> rfl

@[simp] theorem pushErrs_reqs : (pushErrs s gid info es).reqs = s.reqs := by
  unfold pushErrs
  split <;> rfl

end

theorem packetsOf_eq_two_iff (r : Req) : packetsOf r = 2 ↔ r.more = true := by
  cases h : r.more <;> simp [packetsOf, h]

theorem packetsOf_eq_one_iff (r : Req) : packetsOf r = 1 ↔ r.more = false := by
  cases h : r.more <;> simp [packetsOf, h]

theorem reqs_firstPacket {s : State} {r x : Req} (hx : x ∈ (firstPacket s r).reqs) (hid : x.id = r.id) :
    packetsOf x = 1 := by
  obtain ⟨y, -, rfl⟩ := List.mem_map.1 hx
  split at hid
  next hy =>
    rw [if_pos hy, packetsOf_eq_one_iff, Req.more]
    dsimp only
    split <;> simp
  next hy => exact absurd (decide_eq_true hid) hy

section
variable {s : State} {r : Req} {g : Group}

theorem replyDue_iff : replyDue s r = true ↔ r.store = false ∧ ∃ g, groupOf s r.gid = some g ∧ onCore g = true := by
  simp [replyDue, Option.any_eq_true]

theorem loadReply_due {rid : Nat} (hr : reqOf s rid = some r) (hstore : r.store = false) (hg : groupOf s r.gid = some g)
    (hon : onCore g = true) : exec (.loadReply rid) s = .next (replyNow s r) := by
  rw [exec_loadReply, execLoadReply, hr]
  exact congrArg Host.Outcome.next (if_pos (replyDue_iff.2 ⟨hstore, g, hg, hon⟩))

theorem replyNow_first (h : packetsOf r = 2) : replyNow s r = firstPacket s r := if_pos ((packetsOf_eq_two_iff r).1 h)

/-- A group whose threads a reply has reached. -/
def replyGroup (r : Req) (g : Group) : Group := { g with threads := g.threads.map (replyThread g.n r) }

/-- A reply that is whole. -/
theorem replyNow_whole (h : packetsOf r = 1) : replyNow s r =
    pushErrs (updGroup (dropReq s r.id) r.gid (replyGroup r)) r.gid
      (if r.toReg then BitVec.ofNat 64 r.dst else 0#64) (reqErrs r) :=
  if_neg (by simp [(packetsOf_eq_one_iff r).1 h])

theorem groupOf_replyGroup (hg : groupOf s r.gid = some g) :
    groupOf (updGroup (dropReq s r.id) r.gid (replyGroup r)) r.gid = some (replyGroup r g) :=
  (groupOf_updGroup_same (dropReq s r.id) r.gid (replyGroup r) fun _ => rfl).trans
    (congrArg (Option.map (replyGroup r)) hg)

theorem groupOf_pushErrs (gid gid' : Gid) (info : W64) (es : List (Nat × Nat × W64)) :
    groupOf (pushErrs s gid info es) gid' = groupOf s gid' := by rw [groupOf, groupOf, pushErrs_groups]

theorem depositArrival_due {rid : Nat} (hr : reqOf s rid = some r) (hstore : r.store = false)
    (hg : groupOf s r.gid = some g) (hoff : onCore g = false) (hplace : g.place ≠ .done) :
    exec (.depositArrival rid) s = .next (depositNow s r) := by
  have hdue : depositDue s r = true := by simp [depositDue, hstore, hg, hoff, hplace]
  rw [exec_depositArrival, execDepositArrival, hr]
  exact congrArg Host.Outcome.next (if_pos hdue)

section
variable {tid : Nat}

@[simp] theorem ackNow_mm : (ackNow s r tid).mm = s.mm := by
  unfold ackNow
  dsimp only
  rw [pushErrs_mm]
  split <;> rfl

@[simp] theorem ackNow_groups : (ackNow s r tid).groups = s.groups := by
  unfold ackNow
  dsimp only
  rw [pushErrs_groups]
  split <;> rfl

/-- An acknowledgement leaves no lane of its thread in the request. -/
theorem lanes_ackNow {x : Req} (hx : x ∈ (ackNow s r tid).reqs) (hid : x.id = r.id) : ∀ l ∈ x.lanes, l.tid ≠ tid := by
  unfold ackNow at hx
  dsimp only at hx
  rw [pushErrs_reqs] at hx
  split at hx
  case isTrue => simp [dropReq, hid] at hx
  case isFalse =>
    obtain ⟨y, -, rfl⟩ := List.mem_map.1 hx
    split at hid
    next hy =>
      rw [if_pos hy]
      intro l hl
      simpa using (List.mem_filter.1 hl).2
    next hy => exact absurd (decide_eq_true hid) hy

end

end

/-! ## Waits that are answered or asked again (12 R237, R241) -/

section
variable {s : State} {tag grp tid : Nat} {g : Group} {t : Thread}

theorem waiting_of_member (h : Member s tag grp tid g t) : waiting s tag grp tid = some (g, t) := by
  obtain ⟨hg, ht⟩ := h
  rw [waiting, hg, Option.bind_some, ht, Option.map_some]

theorem silent_eq_false (h : g.place ≠ .below) : silent g = false := beq_eq_false_iff_ne.2 h

variable (h : Member s tag grp tid g t)
include h

theorem monitorReply_due (hp : g.place ≠ .below) {m : MonWait} {v : W64} (hw : t.wait = .monitor m)
    (hv : m.hit = some v) :
    exec (.monitorReply tag grp tid) s =
      .next (completeWait s g tid m.scope [m.loc] ⟨m.dst, m.toReg, tyWide m.ty, v⟩ id) := by
  have hdue : monitorDue g t = true := by simp [monitorDue, hw, hv, silent_eq_false hp]
  simp only [exec_monitorReply, execMonitorReply, waiting_of_member h, hdue, hw, hv, if_true]
  rfl

theorem futureAnswer_due (hp : g.place ≠ .below) {w : FutWait} {v : W64} {b : Bool} (hw : t.wait = .future w)
    (hv : w.hit = some (v, b)) : exec (.futureAnswer tag grp tid) s =
      .next (completeWait s g tid w.scope [w.loc, w.loc + 8] ⟨w.dst, w.toReg, w.wide, futValue w.wide v⟩
        fun t => t.setMask w.kd b) := by
  have hdue : futureDue g t = true := by simp [futureDue, hw, hv, silent_eq_false hp]
  simp only [exec_futureAnswer, execFutureAnswer, waiting_of_member h, hdue, hw, hv, if_true]
  rfl

theorem nackResend_monitor (hp : g.place ≠ .below) {m : MonWait} (hw : t.wait = .monitor m) (hhit : m.hit = none)
    (hplaced : m.placed = false) (hsent : m.sent + 1024 ≤ s.sch.cycle) : exec (.nackResend tag grp tid) s =
      .next (resendMonitor (updGroup s ⟨tag, grp⟩ fun g => { g with searched := false }) g tid m) := by
  have hdue : resendDue s g t = true := by simp [resendDue, hw, hhit, hplaced, hsent, silent_eq_false hp]
  simp only [exec_nackResend, execNackResend, waiting_of_member h, hdue, hw, if_true, gid_of_groupOf h.1]

theorem nackResend_future (hp : g.place ≠ .below) {w : FutWait} (hw : t.wait = .future w) (hhit : w.hit = none)
    (hplaced : w.placed = false) (hsent : w.sent + 1024 ≤ s.sch.cycle) : exec (.nackResend tag grp tid) s =
      .next (resendFuture (updGroup s ⟨tag, grp⟩ fun g => { g with searched := false }) g tid w) := by
  have hdue : resendDue s g t = true := by simp [resendDue, hw, hhit, hplaced, hsent, silent_eq_false hp]
  simp only [exec_nackResend, execNackResend, waiting_of_member h, hdue, hw, if_true, gid_of_groupOf h.1]

end

/-- Settles O36, from one lemma for each happening. -/
theorem repliesArrive : Obligations.RepliesArrive := by
  intro s tag grp tid rid g t r
  refine ⟨?first, ?whole, depositArrival_due, ?ack, fun m v hm hw hv hp => monitorReply_due hm hp hw hv,
    fun w v b hm hw hv hp => futureAnswer_due hm hp hw hv,
    fun m hm hw hhit hplaced hp hsent => nackResend_monitor hm hp hw hhit hplaced hsent,
    fun w hm hw hhit hplaced hp hsent => nackResend_future hm hp hw hhit hplaced hsent, fun e he => ?error⟩
  case first =>
    intro hr hstore hg hon h2
    rw [loadReply_due hr hstore hg hon, replyNow_first h2]
    exact ⟨_, rfl, rfl, rfl, fun x => reqs_firstPacket⟩
  case whole =>
    intro hr hstore hg hon h1
    rw [loadReply_due hr hstore hg hon, replyNow_whole h1]
    refine ⟨_, rfl, ?_, by simp, replyGroup r g, by rw [groupOf_pushErrs, groupOf_replyGroup hg], rfl⟩
    rw [pushErrs_reqs]
    simp [dropReq, bne, beq_eq_decide]
  case ack =>
    intro hr
    refine ⟨ackNow s r tid, ?_, ackNow_mm, ackNow_groups, fun x => lanes_ackNow⟩
    rw [exec_storeAcknowledgement, execStoreAcknowledgement, hr]
  case error => rw [exec_deferredError, execDeferredError, he]

end Sys2Proof.Machine
end

section
/-! Loads (O26) and atomics (O32). -/

namespace Sys2Proof.Machine

open Sys2Proof

/-! ## The lanes of the active threads (12 R222) -/

theorem tid_of_mem_decideParts {c : Ctx} {s : State} {parts : List (Nat × W64 × Nat × Nat)} {align : Nat} {a : Acc}
    {l : Lane} (h : l ∈ (c.decideParts s parts align a).1) : l.tid ∈ parts.map (·.1) := by
  unfold Ctx.decideParts at h
  refine List.foldlRecOn (motive := fun x : List Lane × State => ∀ l ∈ x.1, l.tid ∈ parts.map (·.1)) parts _
    (fun l hl => absurd hl List.not_mem_nil) (fun x hx p hp l hl => ?_) l h
  rcases List.mem_append.1 hl with hl | hl
  · exact hx l hl
  · rw [List.mem_singleton.1 hl]
    exact List.mem_map_of_mem hp

theorem tid_of_mem_decideLanes {c : Ctx} {s : State} {va : Thread → W64} {n : Thread → Nat} {align : Nat} {a : Acc}
    {ls : List Lane} {s1 : State} (h : c.decideLanes s va n align a = (ls, s1)) {l : Lane} (hl : l ∈ ls) :
    l.tid ∈ c.actTids := by
  have htid := tid_of_mem_decideParts (l := l) (by rw [← Ctx.decideLanes, h]; exact hl)
  rwa [List.map_map] at htid

@[simp] theorem markStraddle_tid (c : Ctx) (s : State) (l : Lane) : (c.markStraddle s l).tid = l.tid := by
  unfold Ctx.markStraddle
  exact (apply_ite Lane.tid _ _ _).trans (ite_self l.tid)

/-! ## What the threads that go on do -/

/-- `LD` of some threads. -/
def ldGo (f : LongForm) (ls : List Lane) (c : Ctx) (s : State) : State :=
  let x := c.loadLanes (c.acquire s f.scope) f.scope (f.hint != 3) (addrUni c f) (fun _ => loadVal f.ty) ls
  c.loaded x.2 f (wideTy f) (addrUni c f) x.1

/-- `LDE` of some threads. -/
def ldeGo (f : LongForm) (ls : List Lane) (c : Ctx) (s : State) : State :=
  let go := ls.filter fun l => c.actTids.contains l.tid
  let x := c.loadLanes (c.acquire (dropsOver s c go) f.scope) f.scope (f.hint != 3) false
    (fun tid x => BitVec.ofNat 64 (x / 2 ^ (c.elem f tid).sh % 2 ^ tyBits f.ty)) (go.map overLines) (fun _ => 0)
  c.loaded x.2 f false false x.1

/-- The comparand of an atomic: what stands in its destination (12 Table 12.4). -/
def comparand (f : LongForm) (t : Thread) : Nat :=
  if wideTy f then (join64 (t.reg f.dst.toNat) (t.reg (f.dst.toNat + 1))).toNat else (t.reg f.dst.toNat).toNat

theorem comparand_eq (f : LongForm) : comparand f = fun t =>
    if wideTy f then (join64 (t.reg f.dst.toNat) (t.reg (f.dst.toNat + 1))).toNat else (t.reg f.dst.toNat).toNat := rfl

/-- `ATOM` of some threads. -/
def atomGo (op : AtomOp) (f : LongForm) (ls : List Lane) (c : Ctx) (s : State) : State :=
  let x := c.atomLanes (c.acquire (c.fenceFirst s f.scope ls) f.scope) op f.ty f.scope true
    (fun tid => (c.dataOf (dataBits f) tid, c.dataOf (comparand f) tid)) ls
  c.loaded x.2 f (wideTy f) false x.1

/-- `RED` of some threads. -/
def redGo (op : RedOp) (f : LongForm) (ls : List Lane) (c : Ctx) (s : State) : State :=
  let x := c.atomLanes (c.fenceFirst s f.scope ls) (RedOp.atom op) f.ty f.scope false
    (fun tid => (c.dataOf (dataBits f) tid, 0)) ls
  oweLoaded (c.done x.2 id) c.cur.gid ⟨0, false, false, true, none⟩ (x.1.filter fun x => x.err.isSome || x.remote)

section
variable {s s1 : State} {c : Ctx} {f : LongForm} {ls : List Lane}

theorem dropsOver_eq (s : State) (c : Ctx) (ls : List Lane) : dropsOver s c ls =
    { s with mm := dropL1 s.mm c.core (((ls.map overLines).filterMap fun l => l.places.map fun p =>
      if p.locs == p.unc then p.locs else []).flatten) } := by
  simp only [dropsOver, beq_iff_eq]

/-! ## Loads (12 R226, R228, R232) -/

theorem loadChk {w : Bool} (hl : Legal c f w [(f.sa, true), (f.sb, false)]) : (dstOk c w f.dst && addrOk c f) = true := by
  rw [addrOk, ← Bool.and_assoc]
  exact chk_two hl

theorem exec_ld (h : Issues s (.ld f) f.g c) (hl : Legal c f (wideTy f) [(f.sa, true), (f.sb, false)])
    (hls : c.decideLanes s (effAddr f) (fun _ => tyBytes f.ty) 1 .load = (ls, s1)) :
    exec (.ld f) s = .next (c.perform s1 true 0 ls (ldGo f ls)) := by
  refine congrArg Host.Outcome.next ((runCore_body h (loadChk hl)).trans ?_)
  rw [hls]
  rfl

theorem exec_lde (h : Issues s (.lde f) f.g c) (hl : Legal c f false [(f.sa, true), (f.sb, false)])
    (hls : c.decideLanes s (fun t => (elemOf f t).va) (fun t => (elemOf f t).n) 1 .load = (ls, s1)) :
    exec (.lde f) s = .next (c.perform s1 true 0 (ls.map (c.markStraddle s)) (ldeGo f (ls.map (c.markStraddle s)))) := by
  refine congrArg Host.Outcome.next ((runCore_body h (loadChk hl)).trans ?_)
  rw [hls]
  unfold ldeGo
  simp only [dropsOver_eq]
  rfl

/-- Every lane that an instruction decides goes on where none meets a condition. -/
theorem ldeGo_all (hls : ∀ l ∈ ls, l.tid ∈ c.actTids) (s : State) : ldeGo f ls c s =
    (let x := c.loadLanes (c.acquire (dropsOver s c ls) f.scope) f.scope (f.hint != 3) false
      (fun tid x => BitVec.ofNat 64 (x / 2 ^ (c.elem f tid).sh % 2 ^ tyBits f.ty)) (ls.map overLines) (fun _ => 0)
    c.loaded x.2 f false false x.1) := by
  have hall : (ls.filter fun l => c.actTids.contains l.tid) = ls :=
    List.filter_eq_self.2 fun l hl => List.contains_iff_mem.2 (hls l hl)
  rw [ldeGo, hall]

/-- `LDG` loads for the threads whose mask bit is 0; those that meet class 3 go on without their value, and class 4 traps
its threads alone. -/
theorem exec_ldg (h : Issues s (.ldg f) f.g c) (hl : Legal c f (wideTy f) [(f.sa, true), (f.sb, false)])
    (hd : f.sc.toNat < 8) (hd0 : f.sc ≠ 0)
    (hls : (todo c f.sc.toNat).decideLanes s (effAddr f) (fun _ => tyBytes f.ty) 1 .load = (ls, s1))
    (hw : ∀ l ∈ ls, l.dec ≠ .waits) {c' : Ctx} {xs : List Loaded} {s2 : State}
    (hc' : c' = (todo c f.sc.toNat).without ((trapped ls).map (·.1) ++ (ls.filterMap Lane.cls3).map (·.tid)))
    (hxs : c'.loadLanes (c'.acquire s1 f.scope) f.scope (f.hint != 3) false (fun _ => loadVal f.ty) ls = (xs, s2)) :
    exec (.ldg f) s = .next (c.traps4 (record3 (oweLoaded ((c.without ((trapped ls).map (·.1))).ldgWrite s2 f xs) c.cur.gid
      ⟨f.dst.toNat, !f.w, wideTy f, false, some f.sc.toNat⟩ xs) c.grp c.cur.pc 0 true (ls.filterMap Lane.cls3)).2
      (trapped ls)) := by
  have hchk : (dstOk c (wideTy f) f.dst && addrOk c f && maskSrcOk f.sc && f.sc != 0#9) = true := by
    have hne : (f.sc != 0#9) = true := bne_iff_ne.2 hd0
    simp only [loadChk hl, maskSrcOk, hd, decide_true, hne, Bool.and_self]
  refine congrArg Host.Outcome.next ((runCore_body h hchk).trans ?_)
  subst hc'
  simp only [todo] at hls hxs ⊢
  simp only [hls, any_waits_eq_false hw, Bool.false_eq_true, if_false, hxs]

/-! ## Atomics (12 R234, R235) -/

theorem exec_atom {op : AtomOp} (h : Issues s (.atom op f) f.g c) (hd : dstOk c (wideTy f) f.dst = true)
    (ha : AddrLegal c f) (hc : srcOk c f.lit (wideTy f) f.sc = true)
    (hls : c.decideLanes s (effAddr f) (fun _ => tyBytes f.ty) (tyBytes f.ty) .store = (ls, s1))
    (hr : c.releaseWaits s1 f.scope ls = false) :
    exec (.atom op f) s = .next (c.perform s1 true 1 ls (atomGo op f ls)) := by
  have hchk : (dstOk c (wideTy f) f.dst && addrOk c f && srcOk c f.lit (wideTy f) f.sc) = true := by
    rw [hd, addrOk_of_legal ha, hc]
    rfl
  refine congrArg Host.Outcome.next ((runCore_body h hchk).trans ?_)
  simp only [hls, hr, Bool.false_eq_true, if_false]
  rfl

theorem exec_red {op : RedOp} (h : Issues s (.red op f) f.g c) (ha : AddrLegal c f)
    (hc : srcOk c f.lit (wideTy f) f.sc = true)
    (hls : c.decideLanes s (effAddr f) (fun _ => tyBytes f.ty) (tyBytes f.ty) .store = (ls, s1))
    (hr : c.releaseWaits s1 f.scope ls = false) :
    exec (.red op f) s = .next (c.perform s1 false 1 ls (redGo op f ls)) := by
  refine congrArg Host.Outcome.next ((runCore_body h (storeChk ha hc)).trans ?_)
  simp only [hls, hr, Bool.false_eq_true, if_false]
  rfl

end

/-! ## The statements -/

/-- Settles O26: an equation for each instruction, and by `perform_of_allOk`, `perform_of_some` and
`perform_of_none` who goes on. -/
theorem loadsComplete : Obligations.LoadsComplete := by
  intro s s1 s2 c f ls xs
  refine ⟨?ld, ?lde, ?ldg, ?ldConditions, ?ldgConditions⟩
  case ld =>
    intro h hl hls hok hxs
    rw [exec_ld h hl hls, perform_of_allOk hok h.act, ldGo, hxs]
  case lde =>
    intro h hl hls hok hxs
    have hact : ∀ l ∈ ls.map (c.markStraddle s), l.tid ∈ c.actTids := by
      intro l hl
      obtain ⟨l0, hl0, rfl⟩ := List.mem_map.1 hl
      rw [markStraddle_tid]
      exact tid_of_mem_decideLanes hls hl0
    rw [exec_lde h hl hls, perform_of_allOk hok h.act, ldeGo_all hact, hxs]
  case ldg =>
    intro h hl hd hd0 hls hok hxs
    have hldg := exec_ldg h hl hd hd0 hls (waits_ne_of_allOk hok) rfl
      (by simpa [trapped_of_allOk hok, cls3_of_allOk hok] using hxs)
    simpa [trapped_of_allOk hok, cls3_of_allOk hok] using hldg
  case ldConditions =>
    rintro c' h hl hls rfl
    refine ⟨fun hnone hw => ?_, fun hsome hxs hw => ?_⟩
    · rw [exec_ld h hl hls, perform_of_none hw hnone]
    · rw [exec_ld h hl hls, perform_of_some hw hsome, ldGo, hxs]
  case ldgConditions =>
    intro c' h hl hd hd0 hls hw hc' hxs
    exact exec_ldg h hl hd hd0 hls hw hc' hxs

/-- Settles O32: an equation for each instruction, and by `perform_of_allOk`, `perform_of_some` and
`perform_of_none` who goes on. -/
theorem atomicsComplete : Obligations.AtomicsComplete := by
  intro s s1 s2 c f ls xs hls hr
  refine ⟨fun op hok h hd ha hb hc hxs => ?atom, fun op hok h ha hb hc hxs => ?red,
    fun op c' h hd ha hc hc' => ?conditions⟩
  case atom =>
    rw [exec_atom h hd ⟨ha, hb⟩ hc hls hr, perform_of_allOk hok h.act]
    simp only [atomGo, comparand_eq, hxs]
  case red =>
    rw [exec_red h ⟨ha, hb⟩ hc hls hr, perform_of_allOk hok h.act, redGo, hxs]
  case conditions =>
    subst hc'
    refine ⟨fun hnone hw => ?_, fun hsome hxs hw => ?_⟩
    · rw [exec_atom h hd ha hc hls hr, perform_of_none hw hnone]
    · rw [exec_atom h hd ha hc hls hr, perform_of_some hw hsome]
      simp only [atomGo, comparand_eq, hxs]

end Sys2Proof.Machine
end

section
/-! Waits, futures and mailboxes, lane by lane (O34). -/

namespace Sys2Proof.Machine

open Sys2Proof

/-! ## What the threads that go on do -/

/-- `WAITC` of some threads. -/
def waitcGo (f : LongForm) (ls : List Lane) (c : Ctx) (s : State) : State :=
  let x := (c.okLanes ls).foldl (c.waitcLane f (freshId s).1) (⟨[], [], []⟩, (freshId s).2)
  c.asked (c.dropRead x.2 ls) f (wideTy f) x.1 none

/-- `FLD` of some threads. -/
def fldGo (f : LongForm) (ls : List Lane) (c : Ctx) (s : State) : State :=
  let x := (c.okLanes ls).foldl (c.fldLane f (freshId s).1) (⟨[], [], []⟩, (freshId s).2)
  c.asked (c.dropRead x.2 ls) f (wideTy f) x.1 (some f.sc.toNat)

/-- `FSET` of some threads. -/
def fsetGo (f : LongForm) (ls : List Lane) (c : Ctx) (s : State) : State :=
  let x := (c.okLanes ls).foldl (c.fsetLane f) ([], c.fenceFirst s (scopeOr 5 f) ls)
  pushErrs (c.done x.2 id) c.cur.gid 0 x.1

/-- `MBSEND` of some threads. -/
def mbsendGo (f : LongForm) (ls : List Lane) (c : Ctx) (s : State) : State :=
  let x := (c.okLanes ls).foldl (c.mbsendLane f) ([], [], s)
  pushErrs (c.masks x.2.2 f.dst.toNat fun t => (x.1.lookup t.tid).getD false) c.cur.gid 0 x.2.1

/-- `MBRECV` of some threads. -/
def mbrecvGo (f : LongForm) (ls : List Lane) (c : Ctx) (s : State) : State :=
  let x := (c.okLanes ls).foldl (c.mbrecvLane f (freshId s).1) (⟨[], [], []⟩, c.acquire (freshId s).2 (scopeOr 4 f))
  c.asked x.2 f false x.1 none

/-! ## The instructions -/

section
variable {s s1 : State} {c : Ctx} {f : LongForm} {ls : List Lane}

theorem exec_waitc (h : Issues s (.waitc f) f.g c) (hl : Legal c f (wideTy f) [(f.sa, true), (f.sc, wideTy f)])
    (hcc : waitCcOk f = true) (hls : c.decideLanes s (a64 f) (fun _ => tyBytes f.ty) (tyBytes f.ty) .load = (ls, s1)) :
    exec (.waitc f) s = .next (c.perform s1 true 0 ls (waitcGo f ls)) := by
  have hchk : (dstOk c (wideTy f) f.dst && srcOk c f.lit true f.sa && waitCcOk f &&
      srcOk c f.lit (wideTy f) f.sc) = true := by
    simpa [hcc] using chk_two hl
  refine congrArg Host.Outcome.next ((runCore_body h hchk).trans ?_)
  have hls : c.decideLanes s (rd64 f.lit f.sa) (fun _ => tyBytes f.ty) (tyBytes f.ty) .load = (ls, s1) := hls
  rw [hls]
  rfl

theorem exec_fld (h : Issues s (.fld f) f.g c) (hl : Legal c f (wideTy f) [(f.sa, true), (f.sb, false)])
    (hk : f.sc.toNat < 8) (hls : c.decideLanes s (effAddr f) (fun _ => 16) 16 .load = (ls, s1)) :
    exec (.fld f) s = .next (c.perform s1 true 0 ls (fldGo f ls)) := by
  have hchk : (dstOk c (wideTy f) f.dst && addrOk c f && maskSrcOk f.sc) = true := by
    rw [loadChk hl, maskSrcOk, decide_eq_true hk]
    rfl
  refine congrArg Host.Outcome.next ((runCore_body h hchk).trans ?_)
  rw [hls]
  rfl

theorem exec_fset (h : Issues s (.fset f) f.g c) (ha : AddrLegal c f) (hc : srcOk c f.lit (wideTy f) f.sc = true)
    (hls : c.decideLanes s (effAddr f) (fun _ => 16) 16 .store = (ls, s1))
    (hr : c.releaseWaits s1 (scopeOr 5 f) ls = false) :
    exec (.fset f) s = .next (c.perform s1 false 1 ls (fsetGo f ls)) := by
  refine congrArg Host.Outcome.next ((runCore_body h (storeChk ha hc)).trans ?_)
  simp only [hls, hr, Bool.false_eq_true, if_false]
  rfl

theorem exec_mbsend (h : Issues s (.mbsend f) f.g c) (hd : f.dst.toNat < 8) (ha : AddrLegal c f)
    (hc : srcOk c f.lit false f.sc = true) (hid : ∀ t ∈ c.act, (c32 f t).toNat < 2 ^ 14)
    (hls : c.decideLanes s (effAddr f) (fun _ => 64) 64 .load = (ls, s1)) :
    exec (.mbsend f) s = .next (c.perform s1 false 0 ls (mbsendGo f ls)) := by
  have hbox : (c.act.all fun t => boxWord (boxId f.lit f.sc t)) = true :=
    List.all_eq_true.2 fun t ht => decide_eq_true (hid t ht)
  have hchk : (maskDstOk f.dst && addrOk c f && srcOk c f.lit false f.sc &&
      c.act.all fun t => boxWord (boxId f.lit f.sc t)) = true := by
    rw [maskDstOk, decide_eq_true hd, addrOk_of_legal ha, hc, hbox]
    rfl
  refine congrArg Host.Outcome.next ((runCore_body h hchk).trans ?_)
  rw [hls]
  rfl

theorem exec_mbrecv (h : Issues s (.mbrecv f) f.g c) (hl : Legal c f false [(f.sa, true), (f.sb, false), (f.sc, false)])
    (hbox : ∀ t ∈ c.act, c.recvOk s f t = true)
    (hls : c.decideLanes s (effAddr f) (fun _ => 64) 64 .store = (ls, s1)) :
    exec (.mbrecv f) s = .next (c.perform s1 true 1 ls (mbrecvGo f ls)) := by
  have hchk : (dstOk c false f.dst && addrOk c f && srcOk c f.lit false f.sc && c.act.all (c.recvOk s f)) = true := by
    rw [List.all_eq_true.2 hbox, Bool.and_true, addrOk, ← Bool.and_assoc]
    exact chk_three hl
  refine congrArg Host.Outcome.next ((runCore_body h hchk).trans ?_)
  rw [hls]
  rfl

theorem gives_mbpeek (h : Issues s (.mbpeek f) f.g c) (hl : Legal c f false [(f.sa, false)])
    (hid : ∀ t ∈ c.act, (a32 f t).toNat < 2 ^ 14 ∧ (a32 f t).toNat % 1024 / 128 = c.core / 128) :
    Gives (.mbpeek f) s c f false fun t => (BitVec.ofNat 32 (peekWord s c.cur.gid (a32 f t).toNat)).setWidth 64 := by
  have hbox : (c.act.all fun t => boxWord (boxId f.lit f.sa t) && boxCore (boxId f.lit f.sa t) / 128 == c.die) = true := by
    refine List.all_eq_true.2 fun t ht => ?_
    obtain ⟨hword, hdie⟩ := hid t ht
    have hcore : boxCore (boxId f.lit f.sa t) = (a32 f t).toNat % 1024 := by
      rw [boxCore, bits, Nat.pow_zero, Nat.div_one]
      rfl
    rw [hcore, hdie, Ctx.die, beq_self_eq_true, Bool.and_true]
    exact decide_eq_true hword
  have hchk : (dstOk c false f.dst && srcOk c f.lit false f.sa &&
      c.act.all fun t => boxWord (boxId f.lit f.sa t) && boxCore (boxId f.lit f.sa t) / 128 == c.die) = true := by
    rw [chk_one hl, hbox]
    rfl
  exact gives_intResult (uni := fun c => srcUni c false f.sa) (aff := fun _ => none)
    (v := fun c t => peekWord s c.cur.gid (boxId f.lit f.sa t)) h hchk rfl

end

/-! ## The statement -/

/-- Settles O34, by an equation for each instruction; where no access meets a condition every thread goes on
(`perform_of_allOk`). -/
theorem waitsComplete : Obligations.WaitsComplete := by
  intro s s1 s2 c f ls a
  refine ⟨fun h hl hcc hls hok hx => ?waitc, fun h hl hk hls hok hx => ?fld, fun es h ha hb hc hls hok hr hx => ?fset,
    fun ks es h hd ha hb hc hid hls hok hx => ?mbsend, fun h hl hbox hls hok hx => ?mbrecv, gives_mbpeek⟩
  case waitc => rw [exec_waitc h hl hcc hls, perform_of_allOk hok h.act, waitcGo, hx]
  case fld => rw [exec_fld h hl hk hls, perform_of_allOk hok h.act, fldGo, hx]
  case fset => rw [exec_fset h ⟨ha, hb⟩ hc hls hr, perform_of_allOk hok h.act, fsetGo, hx]
  case mbsend => rw [exec_mbsend h hd ⟨ha, hb⟩ hc hid hls, perform_of_allOk hok h.act, mbsendGo, hx]
  case mbrecv => rw [exec_mbrecv h hl hbox hls, perform_of_allOk hok h.act, mbrecvGo, hx]

end Sys2Proof.Machine
end

section
/-! A post to a stream (O43): its record and the stream's tail in memory. -/

namespace Sys2Proof.Machine

open Sys2Proof

/-! ## What a write and what it releases leave as it was -/

namespace OnlyRecords

variable {s s' : State}

theorem streamOf_eq (h : OnlyRecords s s') (n : Nat) : streamOf s' n = streamOf s n := by
  obtain ⟨_, _, _, rfl⟩ := h
  rfl

theorem fab (h : OnlyRecords s s') : s'.fab = s.fab := by
  obtain ⟨_, _, _, rfl⟩ := h
  rfl

theorem host (h : OnlyRecords s s') : s'.host = s.host := by
  obtain ⟨_, _, _, rfl⟩ := h
  rfl

theorem foldl {β : Type} {f : State → β → State} (hf : ∀ s x, OnlyRecords s (f s x)) (l : List β) (s : State) :
    OnlyRecords s (l.foldl f s) :=
  foldl_keeps (OnlyRecords s) f (fun _ _ h => h.trans (hf _ _)) l s (.refl s)

end OnlyRecords

section
variable (s : State)

theorem onlyRecords_applyWrite (w : Writer) (ws : List (Nat × Byte)) : OnlyRecords s (applyWrite s w ws) := ⟨_, _, _, rfl⟩

theorem onlyRecords_markWrite (me : Who) (scope : Nat) (locs : List Nat) (carry : Nat → List Nat) :
    OnlyRecords s (markWrite s me scope locs carry) := ⟨_, _, _, rfl⟩

theorem onlyRecords_acquired (g : Group) (scope : Nat) (newest : Bool) (locs tids : List Nat) :
    OnlyRecords s (acquired s g scope newest locs tids) := .ite (.refl s) ⟨_, _, _, rfl⟩

theorem onlyRecords_acquireAnswered (before : State) : OnlyRecords s (acquireAnswered before s) := by
  unfold acquireAnswered
  refine .ite (.refl s) (.foldl (fun s g => .foldl (fun s t => ?_) _ s) _ s)
  split
  · exact .ite (onlyRecords_acquired s ..) (.refl s)
  · exact .refl s

theorem onlyRecords_writeAs (w : Writer) (ws : List (Nat × Byte)) (me : Who) (scope : Nat) (carry : Nat → List Nat) :
    OnlyRecords s (writeAs s w ws me scope carry) :=
  ((onlyRecords_applyWrite s w ws).trans (onlyRecords_markWrite _ me scope _ carry)).trans (onlyRecords_acquireAnswered _ s)

end

section
variable {s s' : State} {eng ham asn : Nat} {va : W64} {n align : Nat} {a : Acc} {d : Decision}
  (h : decideAccess s eng ham asn va n align a = (d, s'))
include h

theorem onlyRecords_of_decided : OnlyRecords s s' := by
  rw [← show _ = s' from congrArg Prod.snd h]
  exact onlyRecords_decideAccess ..

theorem inv_of_decided (hs : s.Inv) : s'.Inv := by
  rw [← show _ = s' from congrArg Prod.snd h]
  exact decideAccess_inv hs ..

end

@[simp] theorem putByte_poison (mm : MemSys) (l : Nat) (b : Byte) : (putByte mm l b).poison = mm.poison := by
  unfold putByte
  split <;> rfl

@[simp] theorem putBytes_poison (mm : MemSys) (ws : List (Nat × Byte)) : (putBytes mm ws).poison = mm.poison :=
  foldl_keeps (fun m : MemSys => m.poison = mm.poison) _ (fun m x h => (putByte_poison m x.1 x.2).trans h) ws mm rfl

/-- A write poisons no place. -/
theorem poisoned_applyWrite {s : State} {l : Nat} (h : poisoned s l = false) (w : Writer) (ws : List (Nat × Byte)) :
    poisoned (applyWrite s w ws) l = false := by
  rw [poisoned, Bool.or_eq_false_iff] at h ⊢
  refine ⟨?_, h.2⟩
  have hp : (applyWrite s w ws).mm.poison = (throughPoison s w ws).2 := putBytes_poison (beforeWrite s w ws) _
  rw [hp]
  simp only [throughPoison, List.contains_eq_mem, decide_eq_false_iff_not] at h ⊢
  exact fun hl => h.1 (List.mem_filter.1 hl).1

/-- What poison there is depends on memory's and on the channels that have failed. -/
theorem poisoned_of_sameHome {s s' : State} (h : s.mm.SameHome s'.mm) (hh : s'.host = s.host) (l : Nat) :
    poisoned s' l = poisoned s l := by rw [poisoned, poisoned, h.poison, hh]

/-- Two writes one after the other at places of their own. -/
theorem WritesHome.trans {s s' s'' : State} {locs locs' : List Nat} {b b' : Bytes} (h : WritesHome s s' locs b)
    (h' : WritesHome s' s'' locs' b') (hd : ∀ l ∈ locs, l ∉ locs') : WritesHome s s'' (locs ++ locs') (b ++ b') where
  written := by
    rw [List.map_append, h'.written, List.map_congr_left fun l hl => h'.other l (hd l hl), h.written]
  other l hl := by
    obtain ⟨hl, hl'⟩ := not_or.1 (mt List.mem_append.2 hl)
    exact (h'.other l hl').trans (h.other l hl)

/-! ## The two writes of a post (15 R264) -/

/-- The write of `res`, an atomic of the poster, which its core's L1 copies do not survive. -/
def Poster.reserves (b : Poster) (s : State) (ctl : Places) (i : W32) : State :=
  let s1 := writeAs s { b.writer with core := none, rmw := true } ((ctl.locs.take 4).zip (le32 (i + 1))) b.me b.scope
  match b.writer.core with
  | some c => { s1 with mm := dropL1 s1.mm c ctl.locs }
  | none => s1

/-- The write of the record, a release by its index. -/
def Poster.records (b : Poster) (s : State) (p : Places) (r : Bytes) : State :=
  acquireAnswered s (markWrite (applyWrite s { b.writer with past := p.unc } (p.locs.zip r)) b.me b.scope (p.locs.take 4)
    (carryFrom 0 3))

theorem eventBytes_eq_recordBytes {payload : Bytes} (h : payload.length ≤ 48) (i : W32) (etype src ts : Nat) :
    eventBytes i etype src ts payload = recordBytes i etype src ts payload := by
  rw [eventBytes, List.take_of_length_le h]
  rfl

theorem length_recordBytes {payload : Bytes} (h : payload.length ≤ 48) (i : W32) (etype src ts : Nat) :
    (recordBytes i etype src ts payload).length = 64 := by
  simp only [recordBytes, zeros, List.length_append, length_natLe, List.length_replicate]
  omega

section
variable (b : Poster) (s : State)

theorem sameHome_reserves (ctl : Places) (i : W32) :
    (applyWrite s { b.writer with core := none, rmw := true } ((ctl.locs.take 4).zip (le32 (i + 1)))).mm.SameHome
      (b.reserves s ctl i).mm := by
  refine (sameHome_writeAs s _ _ b.me b.scope noCarry).trans ?_
  unfold Poster.reserves
  dsimp only
  split
  · exact ⟨rfl, rfl, rfl⟩
  · exact .refl _

theorem onlyRecords_reserves (ctl : Places) (i : W32) : OnlyRecords s (b.reserves s ctl i) := by
  have hwrite := onlyRecords_writeAs s { b.writer with core := none, rmw := true } ((ctl.locs.take 4).zip (le32 (i + 1)))
    b.me b.scope noCarry
  refine hwrite.trans ?_
  unfold Poster.reserves
  dsimp only
  split
  · exact ⟨_, _, _, rfl⟩
  · exact .refl _

theorem onlyRecords_records (p : Places) (r : Bytes) : OnlyRecords s (b.records s p r) :=
  ((onlyRecords_applyWrite s ..).trans (onlyRecords_markWrite ..)).trans (onlyRecords_acquireAnswered ..)

theorem poisoned_reserves {l : Nat} (h : poisoned s l = false) (ctl : Places) (i : W32) :
    poisoned (b.reserves s ctl i) l = false := by
  rw [poisoned_of_sameHome (sameHome_reserves b s ctl i) (onlyRecords_reserves b s ctl i).host]
  exact poisoned_applyWrite h ..

theorem writesHome_reserves {ctl : Places} (hs : s.Inv) (hn : (ctl.locs.take 4).Nodup) (hlen : ctl.locs.length = 8)
    (hp : ∀ l ∈ ctl.locs.take 4, poisoned s l = false) (i : W32) :
    WritesHome s (b.reserves s ctl i) (ctl.locs.take 4) (le32 (i + 1)) :=
  writesHome_applyWrite hs hn hp (by simp [hlen]) _ (sameHome_reserves b s ctl i)

theorem writesHome_records {p : Places} (hs : s.Inv) (hn : p.locs.Nodup) (hp : ∀ l ∈ p.locs, poisoned s l = false)
    {r : Bytes} (hr : r.length = p.locs.length) : WritesHome s (b.records s p r) p.locs r :=
  writesHome_applyWrite hs hn hp hr _ ((sameHome_markWrite ..).trans (sameHome_acquireAnswered ..))

end

/-! ## A post that is made -/

theorem reached_of_home {fab : Fabric} {p : Places} (hdown : fab.did ∉ fab.down)
    (hp : ∀ l ∈ p.locs, fabricFails fab l = false) : unreached fab p = false := by
  have hlocs : p.locs.any (fabricFails fab) = false := List.any_eq_false.2 fun l hl => by simp [hp l hl]
  simp [unreached, hlocs, hdown]

section
variable {s s1 s2 : State} {b : Poster} {n etype ts : Nat} {payload : Bytes} {p q : Places}

/-- With room for it, a post writes its index and its record, and moves the tail. -/
theorem postTo_posted {res head : W32} (hopen : streamOpen (streamOf s n) = true)
    (hctl : decideAccess s b.eng b.ham (streamOf s n).asn (streamOf s n).scba 8 4 .store = (.ok p, s1))
    (hres : res = f32 (p.locs.map (homeByte s1.mm)) 0) (hhead : head = f32 (p.locs.map (homeByte s1.mm)) 4)
    (hroom : (res - head).toNat < ringSize (streamOf s n))
    (hslot : decideAccess s1 b.eng b.ham (streamOf s n).asn (slotVa (streamOf s n) res) 64 64 .store = (.ok q, s2))
    (hp : unreached s1.fab p = false) (hclean : p.locs.any (poisoned s1) = false) (hq : unreached s2.fab q = false) :
    postTo s b n etype ts payload = (.posted, updStream (b.records (b.reserves s2 p res) q
      (eventBytes res etype b.src ts payload)) n (tailWrite (res + 1))) := by
  have hs1 := onlyRecords_of_decided hctl
  subst hres hhead
  simp only [postTo, hopen, Bool.not_true, Bool.false_eq_true, if_false, hctl, hp, hclean, if_pos hroom, postAt,
    hs1.streamOf_eq n, hslot, hq]
  rfl

end

/-- Settles O43: a post is `postTo_posted`, whose two writes stand at places of their own (`writesHome_reserves`,
`writesHome_records`). -/
theorem postWritesRecord : Obligations.PostWritesRecord := by
  intro s s1 s2 b n etype ts payload p q res head hs hopen hctl hres hhead hroom hslot hlenp hlenq hn hpay hdown hl
  have h1 := onlyRecords_of_decided hctl
  have h2 := onlyRecords_of_decided hslot
  have hs2 := inv_of_decided hslot (inv_of_decided hctl hs)
  have hfails : ∀ l ∈ p.locs ++ q.locs, fabricFails s.fab l = false := fun l h => (hl l h).1
  have hclean : p.locs.any (poisoned s1) = false := by
    refine List.any_eq_false.2 fun l h => ?_
    simp [(hl l (List.mem_append_left _ h)).2.1]
  have hreachp : unreached s1.fab p = false := by
    rw [h1.fab]
    exact reached_of_home hdown fun l h => hfails l (List.mem_append_left _ h)
  have hreachq : unreached s2.fab q = false := by
    rw [h2.fab, h1.fab]
    exact reached_of_home hdown fun l h => hfails l (List.mem_append_right _ h)
  have hpost := postTo_posted (etype := etype) (ts := ts) (payload := payload) hopen hctl hres hhead hroom hslot hreachp
    hclean hreachq
  obtain ⟨hnp, hnq, hdisj⟩ := List.nodup_append'.1 hn
  have hsub : ∀ l ∈ p.locs.take 4, l ∈ p.locs := fun l h => List.mem_of_mem_take h
  have hpoison : ∀ l ∈ p.locs ++ q.locs, poisoned s2 l = false := fun l h => (hl l h).2.2
  have hreserve := writesHome_reserves b s2 hs2 (hnp.sublist (List.take_sublist 4 _)) hlenp
    (fun l h => hpoison l (List.mem_append_left _ (hsub l h))) res
  have hinv : (b.reserves s2 p res).Inv := (sameHome_reserves b s2 p res).inv (applyWrite_inv hs2 ..)
  have hrecord := writesHome_records b (b.reserves s2 p res) (p := q)
    (r := eventBytes res etype b.src ts payload) hinv hnq
    (fun l h => poisoned_reserves b s2 (hpoison l (List.mem_append_right _ h)) p res)
    (by rw [eventBytes_eq_recordBytes hpay, length_recordBytes hpay, hlenq])
  have hboth := hreserve.trans hrecord fun l h => hdisj (hsub l h)
  refine ⟨_, hpost, ?record, ?index, ?tail, hboth.other⟩
  case record => exact hrecord.written.trans (eventBytes_eq_recordBytes hpay ..)
  case index =>
    exact (List.map_congr_left fun l h => hrecord.other l (hdisj (hsub l h))).trans hreserve.written
  case tail =>
    rw [streamOf_updStream_same, (onlyRecords_records b _ q _).streamOf_eq, (onlyRecords_reserves b s2 p res).streamOf_eq,
      h2.streamOf_eq, h1.streamOf_eq]

end Sys2Proof.Machine
end

section
/-! Posting, barriers and automaton instructions, thread by thread (O42). -/

namespace Sys2Proof.Machine

open Sys2Proof

/-! ## Threads that end one by one, and all of them done -/

/-- Threads that are all done. -/
def allDone (tids : List Nat) : List (Nat × LaneEnd) := tids.map fun n => (n, .done)

theorem holdEnds_allDone (c : Ctx) (s : State) (tids : List Nat) : c.holdEnds s (allDone tids) = s := by
  simp [Ctx.holdEnds, allDone, List.filterMap_map, distinct]

theorem finishWith_allDone {c : Ctx} (hact : c.act.isEmpty = false) (s : State) (res : Bool) (info : W64)
    (tids : List Nat) (go : Ctx → State → State) : c.finishWith s res info (allDone tids) go = go c s := by
  have hstay : ((allDone tids).filter fun e => e.2.stays) = [] := by
    simp [allDone, List.filter_map, Function.comp_def, LaneEnd.stays]
  rw [Ctx.finishWith, hstay]
  simp only [List.map_nil, without_nil, hact, holdEnds_allDone]
  simp [allDone, List.filterMap_map, List.foldl_map, pushErrs]

section
variable {ends : List (Nat × LaneEnd)} (h : ∀ e ∈ ends, e.2 = .done)
include h

theorem eq_allDone : ends = allDone (ends.map (·.1)) := by
  rw [allDone, List.map_map]
  exact (List.map_id ends).symm.trans (List.map_congr_left fun e he => Prod.ext rfl (h e he))

theorem finishWith_of_done {c : Ctx} (hact : c.act.isEmpty = false) (s : State) (res : Bool) (info : W64)
    (go : Ctx → State → State) : c.finishWith s res info ends go = go c s := by
  rw [eq_allDone h, finishWith_allDone hact]

theorem finishLanes_of_done {c : Ctx} (hact : c.act.isEmpty = false) (s : State) (f : Thread → Thread) :
    c.finishLanes s ends f = c.done s f := finishWith_of_done h hact ..

end

section
variable {rs : List AutoRes} (h : ∀ r ∈ rs, r.fin = .done)
include h

theorem ends_of_done : ∀ e ∈ rs.map fun r => (r.tid, r.fin), e.2 = .done := by
  intro e he
  obtain ⟨r, hr, rfl⟩ := List.mem_map.1 he
  exact h r hr

theorem holdAgain_of_done (c : Ctx) (s : State) : c.holdAgain s rs = s := by
  have hwait : (rs.filter fun r => r.fin = .waits) = [] := List.filter_eq_nil_iff.2 fun r hr => by simp [h r hr]
  rw [Ctx.holdAgain, hwait]
  rfl

theorem autoMasks_of_done {c : Ctx} (hact : c.act.isEmpty = false) (s : State) (f : LongForm) : c.autoMasks s f rs =
    c.done s fun t => t.setMask f.dst.toNat (((rs.find? fun r => r.tid = t.tid).map (·.ok)).getD false) := by
  rw [Ctx.autoMasks, holdAgain_of_done h, finishLanes_of_done (ends_of_done h) hact]

theorem autoWords_of_done {c : Ctx} (hact : c.act.isEmpty = false) (s : State) (f : LongForm) : c.autoWords s f rs =
    c.result s f.dst f.w ⟨false, fun t => (autoWord rs t).setWidth 64, .gen, .uni⟩ id
      fun t => rs.any fun r => r.tid = t.tid && r.fin = .done := by
  have hwrote : (fun t : Thread => rs.any fun r => r.tid = t.tid && !r.fin.stays) =
      fun t => rs.any fun r => r.tid = t.tid && r.fin = .done := by
    funext t
    refine Bool.eq_iff_iff.2 ?_
    simp only [List.any_eq_true]
    refine exists_congr fun r => and_congr_right fun hr => ?_
    simp [h r hr, LaneEnd.stays]
  simp only [Ctx.autoWords, holdAgain_of_done h, finishWith_of_done (ends_of_done h) hact, hwrote]
  rfl

end

/-! ## The instructions -/

section
variable {s s1 s2 : State} {c : Ctx} {f : LongForm}

/-- A release that has no reply to wait for is made. -/
theorem releases (h : MayRelease s c (scopeOr 5 f)) :
    (decide (6 ≤ scopeOr 5 f) && c.act.any fun t => owed s c.cur.gid t.tid) = false := by
  by_cases hscope : 6 ≤ scopeOr 5 f
  · rw [List.any_eq_false.2 fun t ht => by simp [h hscope t ht], Bool.and_false]
  · rw [decide_eq_false hscope, Bool.false_and]

theorem evpostOp_done {i : Instr} {payload : Ctx → State → Thread → Except LaneEnd Bytes × State}
    {ends : List (Nat × LaneEnd)} (hr : MayRelease s c (scopeOr 5 f)) (h : Issues s i f.g c) (hok : evpostOk c f = true)
    (hends : c.act.foldl (c.evpostLane f (payload c)) ([], s) = (ends, s1)) (hdone : ∀ e ∈ ends, e.2 = .done) :
    evpostOp s i f payload = c.done s1 id := by
  refine (runCore_body h hok).trans ?_
  simp only [releases hr, Bool.false_eq_true, if_false, hends, finishLanes_of_done hdone h.act]

theorem evbar_done {ls : List Lane} {xs : List (Nat × Bool × LaneEnd)} (hr : MayRelease s c (scopeOr 5 f))
    (h : Issues s (.evbar f) f.g c) (hd : f.dst.toNat < 8) (ha : AddrLegal c f)
    (hls : c.decideLanes s (effAddr f) (fun _ => 64) 64 .store = (ls, s1)) (hok : AllOk ls)
    (hxs : ls.foldl (c.evbarLane f) ([], s1) = (xs, s2)) (hdone : ∀ x ∈ xs, x.2.2 = .done) :
    exec (.evbar f) s = .next (c.done s2 fun t =>
      t.setMask f.dst.toNat (((xs.find? fun x => x.1 = t.tid).map (·.2.1)).getD false)) := by
  have hchk : (maskDstOk f.dst && addrOk c f) = true := by
    rw [maskDstOk, decide_eq_true hd, addrOk_of_legal ha]
    rfl
  have hends : ∀ e ∈ xs.map fun x => (x.1, x.2.2), e.2 = .done := by
    intro e he
    obtain ⟨x, hx, rfl⟩ := List.mem_map.1 he
    exact hdone x hx
  refine congrArg Host.Outcome.next ((runCore_body h hchk).trans ?_)
  simp only [releases hr, hls, no_waits_of_allOk hok, Bool.false_eq_true, if_false, hxs, finishLanes_of_done hends h.act]

theorem amReadOp_done {i : Instr} {restore : Bool} {rs : List AutoRes} (h : Issues s i f.g c)
    (hl : Legal c f false [(f.sa, true), (f.sb, false), (f.sc, false)]) (hn : ∀ t ∈ c.act, (c32 f t).toNat < 4096)
    (hrs : c.oneByOne s (c.amReadLane f restore) = (rs, s1)) (hdone : ∀ r ∈ rs, r.fin = .done) :
    amReadOp s i f restore = c.result s1 f.dst f.w ⟨false, fun t => (autoWord rs t).setWidth 64, .gen, .uni⟩ id
      fun t => rs.any fun r => r.tid = t.tid && r.fin = .done := by
  have hstream : (c.act.all fun t => decide (amStream f t < 4096)) = true :=
    List.all_eq_true.2 fun t ht => decide_eq_true (hn t ht)
  have hchk : (dstOk c false f.dst && addrOk c f && srcOk c f.lit false f.sc &&
      c.act.all fun t => decide (amStream f t < 4096)) = true := by
    rw [hstream, Bool.and_true, addrOk, ← Bool.and_assoc]
    exact chk_three hl
  refine (runCore_body h hchk).trans ?_
  simp only [hrs, autoWords_of_done hdone h.act]

theorem amHandleOp_done {i : Instr} {go : State → W32 → Option (Bool × State)} {rs : List AutoRes}
    (h : Issues s i f.g c) (hd : f.dst.toNat < 8) (ha : srcOk c f.lit false f.sa = true)
    (hrs : c.oneByOne s (fun s t => match go s (a32 f t) with
      | some (k, s') => (⟨t.tid, .done, 0, k⟩, s')
      | none => (⟨t.tid, .waits, 0, false⟩, s)) = (rs, s1)) (hdone : ∀ r ∈ rs, r.fin = .done) :
    amHandleOp s i f go = c.done s1 fun t =>
      t.setMask f.dst.toNat (((rs.find? fun r => r.tid = t.tid).map (·.ok)).getD false) := by
  have hchk : (maskDstOk f.dst && srcOk c f.lit false f.sa) = true := by
    rw [maskDstOk, decide_eq_true hd, ha]
    rfl
  rw [← autoMasks_of_done hdone h.act]
  refine (runCore_body h hchk).trans ?_
  change (match c.oneByOne s (fun s t => match go s (a32 f t) with
      | some (k, s') => ((⟨t.tid, .done, 0, k⟩ : AutoRes), s')
      | none => (⟨t.tid, .waits, 0, false⟩, s)) with | (rs, s') => c.autoMasks s' f rs) = _
  rw [hrs]

theorem amSaveOp_done {i : Instr} {stop : Bool} {rs : List AutoRes} (h : Issues s i f.g c) (hd : f.dst.toNat < 8)
    (ha : AddrLegal c f) (hc : srcOk c f.lit false f.sc = true) (hrs : c.oneByOne s (c.amSaveLane f stop) = (rs, s1))
    (hdone : ∀ r ∈ rs, r.fin = .done) : amSaveOp s i f stop = c.done s1 fun t =>
      t.setMask f.dst.toNat (((rs.find? fun r => r.tid = t.tid).map (·.ok)).getD false) := by
  have hchk : (maskDstOk f.dst && addrOk c f && srcOk c f.lit false f.sc) = true := by
    rw [maskDstOk, decide_eq_true hd, addrOk_of_legal ha, hc]
    rfl
  refine (runCore_body h hchk).trans ?_
  simp only [hrs, autoMasks_of_done hdone h.act]

end

/-! ## The statement -/

/-- Settles O42, by an equation for each kind of instruction, all of whose threads end done (`finishWith_of_done`). -/
theorem eventInstructions : Obligations.EventInstructions := by
  intro s s1 s2 c f ls rs hr
  refine ⟨fun ends h hok hends hdone => ?post, fun ends h hok hends hdone => ?postBuf,
    fun xs h hd ha hls hok hxs hdone => evbar_done hr h hd ha hls hok hxs hdone, fun restore hl hn hrs hdone h => ?read,
    fun hd ha => ⟨?arm, ?disarm, ?disarmFree⟩, fun stop hd ha hc hrs hdone h => ?save⟩
  case post => exact congrArg Host.Outcome.next (evpostOp_done hr h hok hends hdone)
  case postBuf => exact congrArg Host.Outcome.next (evpostOp_done hr h hok hends hdone)
  case read =>
    cases restore with
    | false => exact congrArg Host.Outcome.next (amReadOp_done h hl hn hrs hdone)
    | true => exact congrArg Host.Outcome.next (amReadOp_done h hl hn hrs hdone)
  case arm => exact fun s1 rs h hrs hdone => congrArg Host.Outcome.next (amHandleOp_done h hd ha hrs hdone)
  case disarm => exact fun s1 rs h hrs hdone => congrArg Host.Outcome.next (amHandleOp_done h hd ha hrs hdone)
  case disarmFree => exact fun s1 rs h hrs hdone => congrArg Host.Outcome.next (amHandleOp_done h hd ha hrs hdone)
  case save =>
    cases stop with
    | false => exact congrArg Host.Outcome.next (amSaveOp_done h hd ha hc hrs hdone)
    | true => exact congrArg Host.Outcome.next (amSaveOp_done h hd ha hc hrs hdone)

end Sys2Proof.Machine
end

section
/-! The reset of a stream (O48): what its steps keep of the streams and the gangs, and what they remove. -/

namespace Sys2Proof.Machine

open Sys2Proof

/-! ## Accesses of a die's engines -/

theorem onlyRecords_hayAccess (s : State) (die asn : Nat) (va : W64) (n align : Nat) (a : Acc) (clean : Bool) :
    OnlyRecords s (hayAccess s none die asn va n align a clean).2 := by
  have h := onlyRecords_decideAccess s (1024 + die) (16 * die) asn va n align a
  unfold hayAccess
  split
  case h_4 heq =>
    rw [heq] at h
    split
    · exact h
    · split <;> exact h
  all_goals
    rename_i heq
    rw [heq] at h
    exact h

theorem onlyRecords_hayWrite (s : State) (me : Who) (locs : List Nat) (b : Bytes) (sys : Bool) :
    OnlyRecords s (hayWrite s me locs b sys) := onlyRecords_writeAs ..

theorem onlyRecords_resolveRec (s : State) (ref : RecRef) : OnlyRecords s (resolveRec s ref) := by
  unfold resolveRec
  split
  · exact ⟨_, _, _, rfl⟩
  · exact .refl s

section
variable {s s' : State} {die asn : Nat} {va : W64} {n align : Nat} {a : Acc} {clean : Bool} {r : HayRes}

theorem onlyRecords_of_hayAccess (h : hayAccess s none die asn va n align a clean = (r, s')) : OnlyRecords s s' := by
  rw [← show _ = s' from congrArg Prod.snd h]
  exact onlyRecords_hayAccess ..

end

/-! ## What goes on from a reset -/

/-- What a reset itself writes of a stream. -/
structure ResetPart where
  rst : Bool
  waits : Bool
  res : W32
  accepts : List Accept
  queued : List (Nat × Launch)

def resetPart (st : Stream) : ResetPart := ⟨st.rst, st.rstWait, st.rstRes, st.accepts, st.queued⟩

/-- From `s` to `s'` every stream's part in a reset stays as it was, and every gang was one before, of the same tag and launch. -/
structure KeepsLaunches (s s' : State) : Prop where
  part : ∀ n, resetPart (streamOf s' n) = resetPart (streamOf s n)
  gang : ∀ y ∈ s'.gangs, ∃ x ∈ s.gangs, x.tag = y.tag ∧ x.launch = y.launch

namespace KeepsLaunches

variable {s s' s'' : State}

theorem refl (s : State) : KeepsLaunches s s := ⟨fun _ => rfl, fun y hy => ⟨y, hy, rfl, rfl⟩⟩

theorem trans (h : KeepsLaunches s s') (h' : KeepsLaunches s' s'') : KeepsLaunches s s'' where
  part n := (h'.part n).trans (h.part n)
  gang y hy := by
    obtain ⟨x', hx', htag', hlaunch'⟩ := h'.gang y hy
    obtain ⟨x, hx, htag, hlaunch⟩ := h.gang x' hx'
    exact ⟨x, hx, htag.trans htag', hlaunch.trans hlaunch'⟩

theorem of_eq (hs : s'.streams = s.streams) (hg : s'.gangs = s.gangs) : KeepsLaunches s s' where
  part n := by rw [streamOf, streamOf, hs]
  gang y hy := ⟨y, hg ▸ hy, rfl, rfl⟩

theorem of_records (h : OnlyRecords s s') : KeepsLaunches s s' := by
  obtain ⟨_, _, _, rfl⟩ := h
  exact of_eq rfl rfl

theorem ite {p : Prop} [Decidable p] (h : KeepsLaunches s s') (h' : KeepsLaunches s s'') :
    KeepsLaunches s (if p then s' else s'') := by
  split
  · exact h
  · exact h'

theorem foldl {β : Type} {f : State → β → State} (hf : ∀ s x, KeepsLaunches s (f s x)) (l : List β) (s : State) :
    KeepsLaunches s (l.foldl f s) :=
  foldl_keeps (KeepsLaunches s) f (fun _ _ h => h.trans (hf _ _)) l s (.refl s)

end KeepsLaunches

section
variable (s : State)

theorem keepsLaunches_updStream (n : Nat) {f : Stream → Stream} (hf : ∀ st, resetPart (f st) = resetPart st) :
    KeepsLaunches s (updStream s n f) where
  part m := by
    rw [streamOf_updStream]
    split
    · subst m
      exact hf _
    · rfl
  gang y hy := ⟨y, hy, rfl, rfl⟩

theorem keepsLaunches_updGang (tag : Nat) {f : Gang → Gang} (hf : ∀ x, (f x).tag = x.tag ∧ (f x).launch = x.launch) :
    KeepsLaunches s (updGang s tag f) where
  part _ := rfl
  gang y hy := by
    obtain ⟨x, hx, rfl⟩ := List.mem_map.1 hy
    refine ⟨x, hx, ?_⟩
    split
    · exact ⟨(hf x).1.symm, (hf x).2.symm⟩
    · exact ⟨rfl, rfl⟩

/-! ### Records of owners (18 R309) -/

theorem keepsLaunches_tryRecWrite (w : RecWrite) : KeepsLaunches s (tryRecWrite s w) := by
  have h := onlyRecords_decideAccess s w.core (w.core / 8) w.asn w.va 16 16 .store
  unfold tryRecWrite
  dsimp only
  split <;> rename_i heq <;> rw [heq] at h <;> have h := KeepsLaunches.of_records h
  · exact h.trans (.of_eq rfl rfl)
  · refine .ite (h.trans (.of_records (onlyRecords_postRecord ..))) (h.trans ?_)
    refine KeepsLaunches.trans (KeepsLaunches.of_eq rfl rfl) (.of_records (onlyRecords_acquireAnswered _ _))
  · exact h.trans (.of_records (onlyRecords_postRecord ..))

theorem keepsLaunches_writeRecord (w : RecWrite) : KeepsLaunches s (writeRecord s w) :=
  .ite (.of_eq rfl rfl) (keepsLaunches_tryRecWrite s w)

theorem keepsLaunches_ownState (g : Group) (st cause : Nat) : KeepsLaunches s (ownState s g st cause) := by
  unfold ownState
  split
  · exact .refl s
  · exact keepsLaunches_writeRecord ..

theorem keepsLaunches_failRecords (x : Gang) (cause : Nat) : KeepsLaunches s (failRecords s x cause) := by
  unfold failRecords
  dsimp only
  have hgroups := KeepsLaunches.foldl (f := fun s g => updGroup (unbindRecord (ownState s g 7 cause) g.gid) g.gid
    fun x => { x with helper := none }) (fun s g => (keepsLaunches_ownState s g 7 cause).trans (.of_eq rfl rfl))
    (gangGroups s x.tag) s
  refine .ite hgroups ?_
  split
  · exact hgroups.trans (keepsLaunches_writeRecord ..)
  · exact hgroups

/-! ### Gangs that are killed -/

theorem keepsLaunches_stopGang (tag cause : Nat) : KeepsLaunches s (stopGang s tag cause) := by
  refine KeepsLaunches.trans ?_ (keepsLaunches_updGang _ tag fun _ => ?_)
  · exact .of_eq rfl rfl
  · exact ⟨rfl, rfl⟩

theorem freeBoxes_gangs (mine : Gid → Bool) : (freeBoxes s mine).gangs = s.gangs := by
  unfold freeBoxes
  split <;> rfl

theorem freeBoxes_streams (mine : Gid → Bool) : (freeBoxes s mine).streams = s.streams := by
  unfold freeBoxes
  split <;> rfl

/-- A gang that is gone has left the list of gangs. -/
theorem mem_gangs_dropGang {tag : Nat} {y : Gang} : y ∈ (dropGang s tag).gangs ↔ y ∈ s.gangs ∧ y.tag ≠ tag := by
  rw [dropGang]
  simp only [freeBoxes_gangs, List.mem_filter, bne_iff_ne]

theorem keepsLaunches_dropGang (tag : Nat) : KeepsLaunches s (dropGang s tag) where
  part n := by
    have hstreams : (dropGang s tag).streams = s.streams := freeBoxes_streams s _
    rw [streamOf, streamOf, hstreams]
  gang y hy := ⟨y, ((mem_gangs_dropGang s).1 hy).1, rfl, rfl⟩

theorem tfind_mapVal {α : Type} (f : α → α) (t : Table α) (n : Nat) :
    tfind (t.map fun x => (x.1, f x.2)) n = (tfind t n).map f := by
  induction t with
  | nil => rfl
  | cons x t ih =>
    by_cases h : x.1 = n
    · simp [tfind, h]
    · simpa [tfind, h] using ih

theorem keepsLaunches_mapStreams {f : Stream → Stream} (hf : ∀ st, resetPart (f st) = resetPart st) :
    KeepsLaunches s { s with streams := s.streams.map fun x => (x.1, f x.2) } where
  part n := by
    simp only [streamOf, tfind_mapVal]
    cases tfind s.streams n with
    | none => rfl
    | some st => exact hf st
  gang y hy := ⟨y, hy, rfl, rfl⟩

theorem killGang_gangs (x : Gang) :
    (killGang s x).gangs = (dropGang (stopGang (failRecords s x 0x82) x.tag 0x82) x.tag).gangs := rfl

theorem keepsLaunches_killGang (x : Gang) : KeepsLaunches s (killGang s x) := by
  have hdrop := ((keepsLaunches_failRecords s x 0x82).trans (keepsLaunches_stopGang _ x.tag 0x82)).trans
    (keepsLaunches_dropGang _ x.tag)
  exact hdrop.trans ((keepsLaunches_mapStreams _ (f := cancelPosts x.tag) fun _ => rfl).trans (.of_eq rfl rfl))

theorem tag_ne_of_mem_killGang {x y : Gang} (h : y ∈ (killGang s x).gangs) : y.tag ≠ x.tag := by
  rw [killGang_gangs] at h
  exact ((mem_gangs_dropGang _).1 h).2

/-- Of gangs that are killed one after the other none is left. -/
theorem tag_ne_of_mem_killed {l : List Gang} {x y : Gang} (hx : x ∈ l) (h : y ∈ (l.foldl killGang s).gangs) :
    y.tag ≠ x.tag := by
  induction l generalizing s with
  | nil => cases hx
  | cons z l ih =>
    rcases List.mem_cons.1 hx with rfl | hx
    · obtain ⟨w, hw, htag, -⟩ := (KeepsLaunches.foldl keepsLaunches_killGang l _).gang y h
      exact htag ▸ tag_ne_of_mem_killGang s hw
    · exact ih _ hx h

theorem keepsLaunches_killQueued (die : Nat) (l : Launch) : KeepsLaunches s (killQueued die s l) := by
  unfold killQueued
  split
  · exact keepsLaunches_writeRecord ..
  · exact .refl s

/-! ### Arrivals at the blocks of barriers (15 R262) -/

theorem onlyRecords_arriveAt (locs : List Nat) : OnlyRecords s (arriveAt s locs) := onlyRecords_applyWrite ..

theorem onlyRecords_arriveAll (n : Nat) (vas : List W64) : OnlyRecords s (arriveAll s n vas) := by
  refine OnlyRecords.foldl (fun s va => ?_) vas s
  split <;> rename_i heq <;> have h := onlyRecords_of_hayAccess heq
  · exact .ite (h.trans (onlyRecords_arriveAt ..)) h
  · exact h

theorem onlyRecords_arriveRing (x : Nat × Nat × W64) : OnlyRecords s (arriveRing s x) := by
  unfold arriveRing
  split <;> rename_i heq <;> have h := onlyRecords_of_decided heq
  · exact .ite h (h.trans (onlyRecords_arriveAt ..))
  · exact h

/-! ### Posts that can be made now (15 R264, R417) -/

theorem keepsLaunches_postAt (b : Poster) (n etype ts : Nat) (payload : Bytes) (ctl : Places) (i : W32) :
    KeepsLaunches s (postAt s b n etype ts payload ctl i).2 := by
  unfold postAt
  dsimp only
  split <;> rename_i heq <;> have h := KeepsLaunches.of_records (onlyRecords_of_decided heq)
  case h_4 =>
    split
    · exact h
    · refine (h.trans ?_).trans (keepsLaunches_updStream _ n fun st => ?_)
      · exact .of_records ((onlyRecords_reserves b _ ctl i).trans (onlyRecords_records b _ _ _))
      · unfold tailWrite
        dsimp only
        split
        · rfl
        · split <;> rfl
  all_goals exact h

theorem keepsLaunches_dropPost (n : Nat) : KeepsLaunches s (dropPost s n) := keepsLaunches_updStream s n fun _ => rfl

theorem keepsLaunches_postTo (b : Poster) (n etype ts : Nat) (payload : Bytes) :
    KeepsLaunches s (postTo s b n etype ts payload).2 := by
  unfold postTo
  dsimp only
  split
  · exact keepsLaunches_dropPost s n
  split <;> rename_i heq <;> have h := KeepsLaunches.of_records (onlyRecords_of_decided heq)
  case h_4 =>
    split
    · exact h
    split
    · exact h
    split
    · exact h.trans (keepsLaunches_postAt ..)
    · exact h
  all_goals exact h

theorem keepsLaunches_endPost (n : Nat) (p : Post) : KeepsLaunches s (endPost s n p) := by
  have hpost := keepsLaunches_updStream s n (f := fun st => { st with posts := st.posts.drop 1 }) fun _ => rfl
  unfold endPost afterPost
  dsimp only
  split
  · refine KeepsLaunches.trans ?_ (keepsLaunches_updGang _ p.tag fun _ => ?_)
    · exact hpost.trans (.of_eq rfl rfl)
    · exact ⟨rfl, rfl⟩
  · exact hpost.trans (.of_eq rfl rfl)

theorem onlyRecords_streamRecord (n cause : Nat) (addr : W64) (kind : Nat) (post : Bool) :
    OnlyRecords s (streamRecord s n cause addr kind post).2 := by
  unfold streamRecord
  dsimp only
  split
  · exact .refl s
  · dsimp only
    exact onlyRecords_putRecord ..

theorem keepsLaunches_runPosts (n k : Nat) : KeepsLaunches s (runPosts n k s) := by
  induction k generalizing s with
  | zero => exact .refl s
  | succ k ih =>
    unfold runPosts
    dsimp only
    split
    · next p _ _ _ =>
      have h := keepsLaunches_postTo s (hayPoster (streamOf s n).odie p) n p.etype
        (if p.source = 3 then nowNs s else p.ts) p.payload
      split <;> rename_i heq <;> rw [heq] at h
      · exact (h.trans (keepsLaunches_endPost ..)).trans (ih _)
      · exact (h.trans (keepsLaunches_endPost ..)).trans (ih _)
      · exact h
      · exact h
      · refine (h.trans (.of_records (onlyRecords_streamRecord ..))).trans (keepsLaunches_updStream _ n ?_)
        exact fun _ => rfl
      · exact ((h.trans (.of_records (onlyRecords_postRecord ..))).trans (keepsLaunches_endPost ..)).trans (ih _)
      · exact ((h.trans (.of_records (onlyRecords_postRecord ..))).trans (keepsLaunches_endPost ..)).trans (ih _)
    · exact .refl s

theorem keepsLaunches_retryPosts (n : Nat) : KeepsLaunches s (retryPosts s n) := keepsLaunches_runPosts ..

end

/-! ## Steps 2 and 3 of a reset (15 R267) -/

section
variable (s : State) (n : Nat)

/-- The reset's own fields of its stream: `res` as it stood, and no more waiting for the accesses of step 2. -/
def resetMarked : State :=
  updStream s n fun st => { st with rstWait := false, rstRes := reserved s n, postRef := none }

/-- The arrivals that the reset makes for the barrier records that it discards. -/
def resetArrived : State :=
  let st := streamOf s n
  let vas := unconsumed s n (resetSpan s n).2 (resetSpan s n).1
  let open_ := resolveRec (resolveRec (resetMarked s n) ((st.hold.map (·.notice)).getD none)) (st.postRef.getD none)
  (ringBlocks s n).foldl arriveRing (arriveAll open_ n vas)

/-- The stream's launch records and its gangs are killed. -/
def resetKilled : State :=
  (streamGangs s n).foldl killGang ((streamLaunches s n).foldl (fun s x => killQueued x.1 s x.2) (resetArrived s n))

/-- Queues, waiting threads and owners are rid of the stream, and so is the stream of its acceptances. -/
def resetCleared : State :=
  let s3 := resetKilled s n
  updStream { s3 with
    dies := s3.dies.map fun (k, d) => (k, unqueue n d)
    groups := s3.groups.map fun g => { g with threads := g.threads.map (dropRingWait n) }
    mm := { s3.mm with owners := s3.mm.owners.filter fun o => o.2.2.1 != n } } n fun st => { st with
    accepts := []
    queued := []
    hold := none
    killed := (streamGangs s n).map (·.launch) ++ (streamLaunches s n).map (·.2) }

theorem goReset_eq : goReset s n = ((resetCleared s n).streams.map (·.1)).foldl retryPosts (resetCleared s n) := rfl

theorem keepsLaunches_resetArrived : KeepsLaunches (resetMarked s n) (resetArrived s n) := by
  refine .of_records ?_
  unfold resetArrived
  dsimp only
  refine OnlyRecords.trans ?_ (.foldl onlyRecords_arriveRing _ _)
  refine OnlyRecords.trans ?_ (onlyRecords_arriveAll ..)
  exact (onlyRecords_resolveRec ..).trans (onlyRecords_resolveRec ..)

theorem keepsLaunches_queuedKilled : KeepsLaunches (resetMarked s n)
    ((streamLaunches s n).foldl (fun s x => killQueued x.1 s x.2) (resetArrived s n)) :=
  (keepsLaunches_resetArrived s n).trans (.foldl (fun s (x : Nat × Launch) => keepsLaunches_killQueued s x.1 x.2) _ _)

theorem keepsLaunches_resetKilled : KeepsLaunches (resetMarked s n) (resetKilled s n) :=
  (keepsLaunches_queuedKilled s n).trans (.foldl keepsLaunches_killGang _ _)

theorem keepsLaunches_goReset : KeepsLaunches (resetCleared s n) (goReset s n) := by
  rw [goReset_eq]
  exact .foldl keepsLaunches_retryPosts _ _

theorem resetPart_goReset : resetPart (streamOf (goReset s n) n) = ⟨(streamOf s n).rst, false, reserved s n, [], []⟩ := by
  have hmarked : resetPart (streamOf (resetKilled s n) n) = resetPart (streamOf (resetMarked s n) n) :=
    (keepsLaunches_resetKilled s n).part n
  have hcleared : streamOf (resetCleared s n) n = { streamOf (resetKilled s n) n with
      accepts := []
      queued := []
      hold := none
      killed := (streamGangs s n).map (·.launch) ++ (streamLaunches s n).map (·.2) } := streamOf_updStream_same ..
  rw [resetMarked, streamOf_updStream_same] at hmarked
  simp only [resetPart, ResetPart.mk.injEq] at hmarked
  obtain ⟨hrst, hwait, hres, -, -⟩ := hmarked
  rw [(keepsLaunches_goReset s n).part n, hcleared, resetPart, hrst, hwait, hres]

/-- A gang of the stream was there before the reset, and it was killed. -/
theorem stream_ne_of_mem_goReset {y : Gang} (h : y ∈ (goReset s n).gangs) : y.launch.stream ≠ n := by
  obtain ⟨z, hz, htag, hlaunch⟩ := (keepsLaunches_goReset s n).gang y h
  have hz : z ∈ (resetKilled s n).gangs := hz
  obtain ⟨x, hx, hxtag, hxlaunch⟩ := (keepsLaunches_resetKilled s n).gang z hz
  intro hn
  have hmine : x ∈ streamGangs s n := List.mem_filter.2 ⟨hx, by simp [hxlaunch, hlaunch, hn]⟩
  exact tag_ne_of_mem_killed _ hmine hz hxtag.symm

/-! ## Steps 4 and 5 -/

theorem onlyRecords_freeBlock (die : Nat) (l : Launch) : OnlyRecords s (freeBlock die s l) := by
  unfold freeBlock
  split <;> rename_i heq <;> have h := onlyRecords_of_hayAccess heq
  · exact .ite h (h.trans (onlyRecords_hayWrite ..))
  · exact h.trans (onlyRecords_postRecord ..)

/-- The killed gangs' blocks are free, what stalled the stream is resolved, and `headm` is written. -/
def resetFreed : State :=
  let st := streamOf s n
  let s2 := resolveRec (st.killed.foldl (freeBlock st.odie) s) (st.ref.getD none)
  match hayAccess s2 none st.odie st.asn (st.scba + 4#64) 4 4 .store true with
  | (.ok _ locs, s') => hayWrite s' (hayWho n st.odie) locs (le32 st.rstRes) true
  | (_, s') => s'

theorem onlyRecords_resetFreed : OnlyRecords s (resetFreed s n) := by
  have hfree := (OnlyRecords.foldl (onlyRecords_freeBlock · (streamOf s n).odie ·) (streamOf s n).killed s).trans
    (onlyRecords_resolveRec _ ((streamOf s n).ref.getD none))
  unfold resetFreed
  dsimp only
  split <;> rename_i heq <;> have h := onlyRecords_of_hayAccess heq
  · exact (hfree.trans h).trans (onlyRecords_hayWrite ..)
  · exact hfree.trans h

theorem endReset_eq : endReset s n = updStream (resetFreed s n) n fun st => { st with
    stail := st.rstRes
    shead := st.rstRes
    rst := false
    stall := false
    gap := false
    bar := none
    dead := false
    drop := 0
    ref := none
    hold := none
    postRef := none
    killed := []
    behind := 0 } := rfl

theorem streamOf_endReset : streamOf (endReset s n) n = { streamOf s n with
    stail := (streamOf s n).rstRes
    shead := (streamOf s n).rstRes
    rst := false
    stall := false
    gap := false
    bar := none
    dead := false
    drop := 0
    ref := none
    hold := none
    postRef := none
    killed := []
    behind := 0 } := by
  rw [endReset_eq, streamOf_updStream_same, (onlyRecords_resetFreed s n).streamOf_eq]

end

end Sys2Proof.Machine
end

section
/-! The happenings of streams (O48): tails, control, resets, offers, barriers and time. -/

namespace Sys2Proof.Machine

open Sys2Proof

/-! ## The happenings' meanings -/

section
variable (n : Nat) (v : W32) (s : State)

theorem exec_stailWrite : exec (.stailWrite n v) s = execStailWrite n v s := rfl

theorem exec_streamEnable : exec (.streamEnable n v) s = execStreamEnable n v s := rfl

theorem exec_streamReset : exec (.streamReset n) s = execStreamReset n s := rfl

theorem exec_streamResetDrain : exec (.streamResetDrain n) s = execStreamResetDrain n s := rfl

theorem exec_eventOffer : exec (.eventOffer n) s = execEventOffer n s := rfl

theorem exec_barrierRecord : exec (.barrierRecord n) s = execBarrierRecord n s := rfl

theorem exec_barrierRecordDone : exec (.barrierRecordDone n) s = execBarrierRecordDone n s := rfl

theorem exec_overflowHoldEnd : exec (.overflowHoldEnd n) s = execOverflowHoldEnd n s := rfl

theorem exec_deadlineEdge : exec (.deadlineEdge n) s = execDeadlineEdge n s := rfl

theorem exec_invariantExpiry : exec (.invariantExpiry n) s = execInvariantExpiry n s := rfl

end

/-! ## Registers of a stream (15 R256, R257, R260) -/

theorem setsStream_updStream {i : Instr} {s : State} {n : Nat} {f : Stream → Stream}
    (h : exec i s = .next (updStream s n f)) : SetsStream i s n (f (streamOf s n)) :=
  ⟨_, h, rfl, streamOf_updStream_same .., fun m hm => (streamOf_updStream s n m f).trans (if_neg hm.symm)⟩

theorem tailWrite_eq (v : W32) (st : Stream) : tailWrite v st =
    if streamOpen st = false ∨ v = st.stail ∨ 2 ^ 31 ≤ (v - st.stail).toNat then st
    else if 2 ^ st.lsize < (v - st.shead).toNat then { st with ovf := true }
    else { st with stail := v } := by
  have hsame : (v - st.stail).toNat = 0 ↔ v = st.stail := by
    rw [← BitVec.toNat_inj, BitVec.toNat_sub]
    have := v.isLt
    have := st.stail.isLt
    omega
  simp only [tailWrite, ringSize, Bool.or_eq_true, Bool.not_eq_true', decide_eq_true_eq, hsame, or_assoc]
  congr

theorem sctlFields_eq (v : Nat) (st : Stream) : sctlFields v st = sctlSet v st := by
  simp [sctlFields, sctlSet, bits]

theorem sctlBad_iff (v : Nat) (st : Stream) : sctlBad v st = true ↔ SctlRefused v st := by
  simp only [sctlBad, SctlRefused, bits, ringSize, Bool.or_eq_true, decide_eq_true_eq, bne_iff_ne, or_assoc]

theorem sctlWrite_eq (v : W32) (st : Stream) : sctlWrite v.toNat st =
    if v.getLsbD 30 = false then { sctlSet v.toNat st with en := false }
    else if SctlRefused v.toNat (sctlSet v.toNat st) then { sctlSet v.toNat st with cfgerr := true }
    else { sctlSet v.toNat st with en := true, cfgerr := false } := by
  have hen : bit v.toNat 30 = v.getLsbD 30 := rfl
  simp only [sctlWrite, sctlFields_eq, hen, Bool.not_eq_true', sctlBad_iff]

theorem sctlWrite_posts (v : Nat) (st : Stream) : (sctlWrite v st).posts = st.posts := by
  have hfields : (sctlFields v st).posts = st.posts := by
    unfold sctlFields
    split <;> rfl
  simp only [sctlWrite, apply_ite Stream.posts, hfields, ite_self]

theorem retryPosts_nil {s : State} {n : Nat} (h : (streamOf s n).posts = []) : retryPosts s n = s := by
  rw [retryPosts, h]
  rfl

theorem streamEnable_idle {s : State} {n : Nat} (h : (streamOf s n).posts = []) (v : W32) :
    exec (.streamEnable n v) s = .next (updStream s n (sctlWrite v.toNat)) := by
  rw [exec_streamEnable, execStreamEnable, retryPosts_nil]
  rw [streamOf_updStream_same, sctlWrite_posts, h]

/-! ## Resets (15 R267) -/

section
variable {s : State} {n : Nat}

theorem streamReset_fresh (h : (streamOf s n).rst = false) : exec (.streamReset n) s =
    .next (let s1 := updStream s n fun st => { st with rst := true, rstWait := true }
      if resetWaits s1 n then s1 else goReset s1 n) := by
  simp [exec_streamReset, execStreamReset, startReset, h]

theorem streamResetDrain_due (h : drainDue s n = true) : exec (.streamResetDrain n) s =
    .next (if (streamOf s n).rstWait then goReset s n else endReset s n) := by
  simp [exec_streamResetDrain, execStreamResetDrain, h]

/-! ## Events and barrier records (15 R258, R262, R266, 16 R274, R278) -/

theorem eventOffer_unfinished (h : offerUnfinished s n = true) : exec (.eventOffer n) s = .next (offerOn s n) := by
  rw [exec_eventOffer, execEventOffer, if_pos h]

section
variable {s1 : State} (hf : fetches s n = true)
include hf

theorem eventOffer_gap (hu : offerUnfinished s n = false) (hr : readSlot s n = (.gap, s1)) :
    exec (.eventOffer n) s = .next (updStream s1 n fun st => { st with gap := true }) := by
  simp only [exec_eventOffer, execEventOffer, hu, hf, hr, Bool.not_true, Bool.false_eq_true, if_false]
  rfl

theorem eventOffer_found {b : Bytes} (hu : offerUnfinished s n = false) (hr : readSlot s n = (.found b, s1))
    (hb : field b 4 2 ≠ 0xFFFF) : exec (.eventOffer n) s = .next (offerRecord s1 n b) := by
  have hev : isBarrier b = false := beq_false_of_ne hb
  simp only [exec_eventOffer, execEventOffer, hu, hf, hr, hev, Bool.not_true, Bool.false_eq_true, if_false]

theorem barrierDue_of_found {b : Bytes} (hr : readSlot s n = (.found b, s1)) (hb : field b 4 2 = 0xFFFF)
    (hblock : (∃ k ls, (blockAt s n (f64 b 16)).1 = .ok k ls ∧ blockLive k = true) ∨
      ((blockAt s n (f64 b 16)).1 ≠ .waits ∧ (finishOffer s n).isSome = true)) : barrierDue s n = true := by
  have hev : isBarrier b = true := beq_iff_eq.2 hb
  rw [barrierDue, hf, hr]
  simp only [hev, Bool.true_and]
  rcases hblock with ⟨k, ls, hk, hlive⟩ | ⟨hwaits, hoffer⟩
  · simp [hk, hlive]
  · cases hk : (blockAt s n (f64 b 16)).1 with
    | waits => exact absurd hk hwaits
    | _ => simp [hoffer]

theorem barrierRecord_found {b : Bytes} (hr : readSlot s n = (.found b, s1)) (hb : field b 4 2 = 0xFFFF)
    (hblock : (∃ k ls, (blockAt s n (f64 b 16)).1 = .ok k ls ∧ blockLive k = true) ∨
      ((blockAt s n (f64 b 16)).1 ≠ .waits ∧ (finishOffer s n).isSome = true)) :
    exec (.barrierRecord n) s = .next (reachBarrier s1 n (f64 b 16)) := by
  simp only [exec_barrierRecord, execBarrierRecord, barrierDue_of_found hf hr hb hblock, hr, Bool.not_true,
    Bool.false_eq_true, if_false]

end

theorem barrierRecordDone_over (h : barrierOver s n = true) :
    exec (.barrierRecordDone n) s = .next (consumeAt s n) := by
  rw [exec_barrierRecordDone, execBarrierRecordDone, if_pos h]

/-- The event is consumed where the write of `headm` can be made. -/
theorem consumeAt_ok {s1 : State} {b : Bytes} {locs : List Nat} (h : hayAccess s none (streamOf s n).odie
    (streamOf s n).asn ((streamOf s n).scba + 4#64) 4 4 .store true = (.ok b locs, s1)) :
    consumeAt s n = consume s1 n locs := by
  simp only [consumeAt, finishOffer, h, Option.getD_some]

theorem overflowHoldEnd_over {h : OfferHold} (ho : holdOver s n = true) (hh : (streamOf s n).hold = some h) :
    exec (.overflowHoldEnd n) s = .next (offerOn
      (endHold s n (!((autoOf s (streamOf s n).odie h.slot).any fun a => a.armed.isSome))) n) := by
  simp only [exec_overflowHoldEnd, execOverflowHoldEnd, ho, hh, Option.any_some, if_true]

/-! ## Pending times (16 R276) -/

theorem doTime_due {die m : Nat} {p : Pending} (h : timeDue s die = some (m, p)) :
    doTime s die p.edge.isSome = processTime s die m p := by
  simp only [doTime, h, if_true]

end

/-! ## The statement -/

/-- Settles O48, from one lemma for each happening; what a reset leaves is `resetPart_goReset`'s,
`stream_ne_of_mem_goReset`'s and `streamOf_endReset`'s. -/
theorem streamHappenings : Obligations.StreamHappenings := by
  intro s s1 n die v b locs
  refine ⟨?tail, fun hp => ?enable, ?reset, fun hd hw => ?resume, ?clears, fun hd hw => ?drain, eventOffer_unfinished,
    fun hf => ⟨eventOffer_gap hf, eventOffer_found hf, barrierRecord_found hf⟩, barrierRecordDone_over, consumeAt_ok,
    fun h => overflowHoldEnd_over, fun m p hp => ⟨fun he => ?deadline, fun he => ?expiry⟩⟩
  case tail =>
    rw [← tailWrite_eq]
    exact setsStream_updStream rfl
  case enable =>
    rw [← sctlWrite_eq]
    exact setsStream_updStream (streamEnable_idle hp v)
  case reset =>
    rintro hr rfl
    rw [streamReset_fresh hr]
    exact ⟨fun hw => congrArg _ (if_pos hw), fun hw => congrArg _ (if_neg (by simp [hw]))⟩
  case resume => rw [streamResetDrain_due hd, if_pos hw]
  case clears =>
    have hpart := resetPart_goReset s n
    simp only [resetPart, ResetPart.mk.injEq] at hpart
    obtain ⟨hrst, hwait, hres, hacc, hqueued⟩ := hpart
    exact ⟨hwait, hrst, hres, hacc, hqueued, fun x hx => stream_ne_of_mem_goReset s n hx⟩
  case drain =>
    have hend := streamOf_endReset s n
    rw [streamResetDrain_due hd, if_neg (by simp [hw])]
    exact ⟨_, rfl, by rw [hend], by rw [hend], by rw [hend], by rw [hend], by rw [hend], by rw [hend], by rw [hend]⟩
  case deadline => rw [exec_deadlineEdge, execDeadlineEdge, ← he, doTime_due hp]
  case expiry => rw [exec_invariantExpiry, execInvariantExpiry, ← he, doTime_due hp]

end Sys2Proof.Machine
end

section
/-! The state after reset (O60). -/

namespace Sys2Proof.Machine

open Sys2Proof

/-- Settles O60: the lookups after reset find every register as it stands then, and memory lists nothing (`inv_reset`). -/
theorem resetState : Obligations.ResetState := by
  refine ⟨inv_reset, rfl, rfl, rfl, rfl, rfl, rfl, rfl, rfl, fun n _ => ?streams, fun n _ => ?dies, fun w _ => ?windows,
    fun k _ => ⟨reset_hamOf k, rfl, rfl⟩⟩
  case streams => exact ⟨rfl, rfl, rfl, rfl, rfl, rfl⟩
  case dies => exact ⟨rfl, rfl, rfl, rfl, rfl, rfl, rfl, rfl, rfl, rfl, rfl, rfl, fun _ => rfl, rfl, rfl, rfl, rfl, rfl⟩
  case windows => exact ⟨rfl, rfl, rfl⟩

end Sys2Proof.Machine
end

section
/-! Loading and arming automata (O44). -/

namespace Sys2Proof.Machine

open Sys2Proof

/-! ## Slots of automata (16 R279, R281) -/

section
variable (s : State) (die k : Nat)

/-- A change of a die that leaves every slot but `k` leaves the automata elsewhere. -/
theorem autoOf_updDie_other {f : Die → Die} {d j : Nat} (hf : ∀ x m, m ≠ k → tfind (f x).autos m = tfind x.autos m)
    (h : (d, j) ≠ (die, k)) : autoOf (updDie s die f) d j = autoOf s d j := by
  rw [autoOf, autoOf, dieOf_updDie]
  split
  · subst d
    exact hf _ j fun hj => h (by rw [hj])
  · rfl

theorem tfind_tput_other {α : Type} {t : Table α} {n m : Nat} (v : α) (h : m ≠ n) :
    tfind (tput t n v) m = tfind t m := by
  rw [tfind_tput, if_neg h.symm]

@[simp] theorem tfind_tput_same {α : Type} (t : Table α) (n : Nat) (v : α) : tfind (tput t n v) n = some v := by
  rw [tfind_tput, if_pos rfl]

theorem autoOf_placeAuto (a : Automaton) : autoOf (placeAuto s die k a) die k = some a := by
  rw [autoOf, placeAuto, dieOf_updDie_same, tfind_tput_same]

theorem autoOf_placeAuto_other (a : Automaton) {d j : Nat} (h : (d, j) ≠ (die, k)) :
    autoOf (placeAuto s die k a) d j = autoOf s d j :=
  autoOf_updDie_other s die k (fun _ _ hm => tfind_tput_other a hm) h

/-! ## Loading (16 R281) -/

theorem freeAuto_eq_none (h : ∀ k, k < 256 → (autoOf s die k).isSome = true) : freeAuto s die = none := by
  refine List.find?_eq_none.2 fun k hk => ?_
  have hsome := h k (List.mem_range.1 hk)
  simp [Option.isSome_iff_ne_none.1 hsome]

theorem freeAuto_eq_some {k : Nat} (hk : k < 256) (hfree : autoOf s die k = none)
    (hbelow : ∀ j, j < k → (autoOf s die j).isSome = true) : freeAuto s die = some k := by
  refine List.find?_range_eq_some.2 ⟨by rw [hfree]; rfl, List.mem_range.2 hk, fun j hj => ?_⟩
  simpa using hbelow j hj

variable {s die} {n : Nat} {img : Bytes}

theorem loadInto_malformed {code idx : Nat} (h : malformed img = some (code, idx)) :
    loadInto s die n img = (errWord code idx, s) := by
  simp only [loadInto, h]

theorem loadInto_full (h : malformed img = none) (hfull : freeAuto s die = none) :
    loadInto s die n img = (errWord 6 0, s) := by
  simp only [loadInto, h, hfull]

theorem loadInto_free {k : Nat} (h : malformed img = none) (hfree : freeAuto s die = some k) :
    loadInto s die n img = (handleWord die k, placeAuto s die k ⟨img, n, none, 0, []⟩) := by
  simp only [loadInto, h, hfree]

/-! ## Arming (16 R279) -/

/-- The die of an automaton that is armed: its place is at the end of the arming order. -/
def armedDie (slot : Nat) (a : Automaton) (d : Die) : Die :=
  { d with nextArm := d.nextArm + 1, autos := tput d.autos slot { a with armed := some d.nextArm } }

theorem dies_armSlot {k : Nat} {a : Automaton} (h : autoOf s die k = some a) (hidle : a.armed = none) :
    (armSlot s die k).dies = (updDie s die (armedDie k a)).dies := by
  simp only [armSlot, h, hidle, Option.isSome_none, Bool.false_eq_true, if_false, updStream_dies]
  rfl

theorem dieOf_of_dies {s s' : State} (h : s'.dies = s.dies) (d : Nat) : dieOf s' d = dieOf s d := by
  rw [dieOf, dieOf, h]

theorem dieOf_armSlot {k : Nat} {a : Automaton} (h : autoOf s die k = some a) (hidle : a.armed = none) :
    dieOf (armSlot s die k) die = armedDie k a (dieOf s die) := by
  rw [dieOf_of_dies (dies_armSlot h hidle), dieOf_updDie_same]

theorem autoOf_armSlot_other {k d j : Nat} {a : Automaton} (h : autoOf s die k = some a) (hidle : a.armed = none)
    (hj : (d, j) ≠ (die, k)) : autoOf (armSlot s die k) d j = autoOf s d j := by
  rw [autoOf, dieOf_of_dies (dies_armSlot h hidle)]
  exact autoOf_updDie_other s die k (fun _ _ hm => tfind_tput_other _ hm) hj

end

/-- Settles O44: the cases of `loadInto` by the image and the lowest free slot, and the die after `armSlot`. -/
theorem automataAreLoadedAndArmed : Obligations.AutomataAreLoadedAndArmed := by
  intro s die n img
  refine ⟨fun code idx h => loadInto_malformed h, fun h hfull => loadInto_full h (freeAuto_eq_none s die hfull),
    fun k h hk hfree hbelow => ⟨_, loadInto_free h (freeAuto_eq_some s die hk hfree hbelow), autoOf_placeAuto s die k _, rfl,
      fun d j hj => autoOf_placeAuto_other s die k _ hj⟩,
    fun k a ha hidle => ⟨?armed, ?next, fun d j hj => autoOf_armSlot_other ha hidle hj⟩⟩
  case armed => rw [autoOf, dieOf_armSlot ha hidle, armedDie, tfind_tput_same]
  case next => rw [dieOf_armSlot ha hidle, armedDie]

end Sys2Proof.Machine
end

section
/-! The happenings of the reeves and of the automaton port (O53). -/

namespace Sys2Proof.Machine

open Sys2Proof

/-! ## The happenings' meanings -/

section
variable (die slot : Nat) (v : W32) (s : State)

theorem exec_rqRetry : exec (.rqRetry die slot) s = execRqRetry die slot s := rfl

theorem exec_rqFail : exec (.rqFail die slot) s = execRqFail die slot s := rfl

theorem exec_rqDrop : exec (.rqDrop die slot) s = execRqDrop die slot s := rfl

theorem exec_rqconsWrite : exec (.rqconsWrite die v) s = execRqconsWrite die v s := rfl

theorem exec_rqbaseWrite (a : W64) : exec (.rqbaseWrite die a) s = execRqbaseWrite die a s := rfl

theorem exec_reeveRestart : exec (.reeveRestart die) s = execReeveRestart die s := rfl

theorem exec_lstateWrite : exec (.lstateWrite die v) s =
    .next (updDie s die fun d => { d with lstate := if v = 0 then 1 else v }) := rfl

theorem exec_heartbeat (column : Bool) : exec (.heartbeat die column) s = execHeartbeat die column s := rfl

theorem exec_hangDeclare : exec (.hangDeclare die) s = execHangDeclare die s := rfl

theorem exec_columnHangDeclare : exec (.columnHangDeclare die) s = execColumnHangDeclare die s := rfl

theorem exec_marginSample (pdm : BitVec 16) : exec (.marginSample die pdm) s = execMarginSample die pdm s := rfl

theorem exec_codeTableRefresh (t1 t2 t3 : Bytes) :
    exec (.codeTableRefresh die t1 t2 t3) s = execCodeTableRefresh die t1 t2 t3 s := rfl

end

/-! ## Changes of one die -/

theorem setsDie_updDie {i : Instr} {s : State} {n : Nat} {f : Die → Die} (h : exec i s = .next (updDie s n f)) :
    SetsDie i s n (f (dieOf s n)) :=
  ⟨_, h, rfl, dieOf_updDie_same .., fun m hm => (dieOf_updDie s n m f).trans (if_neg hm.symm)⟩

theorem tput_tput {α : Type} (t : Table α) (n : Nat) (v w : α) : tput (tput t n v) n w = tput t n w := by
  induction t with
  | nil => simp [tput]
  | cons x t ih =>
    obtain ⟨k, u⟩ := x
    simp only [tput]
    by_cases hlt : n < k
    · simp [hlt, tput]
    · by_cases heq : k = n
      · simp [heq, tput]
      · simp [hlt, heq, tput, ih]

theorem updDie_updDie (s : State) (n : Nat) (f g : Die → Die) :
    updDie (updDie s n f) n g = updDie s n fun d => g (f d) := by
  simp only [updDie, dieOf, tput_tput, tfind_tput, if_true, Option.getD_some]

/-! ## The port (16 R286) -/

theorem portCmd_runs {s : State} {op : Nat} (hgo : s.host.port.go = true) (hop : portOp s.host.port = op) :
    portCmd op s = (portRun s).getD s := by
  simp [portCmd, hgo, hop]

theorem portRuns {i : Instr} {s : State} {op : Nat} (h : exec i s = .next (portCmd op s)) : PortRuns i s op :=
  fun hgo hop _ => h.trans (congrArg _ (portCmd_runs hgo hop))

/-- Operation 7 is malformed: code 11. -/
theorem portRun_reserved {s : State} (hop : portOp s.host.port = 7) : portRun s = some (portEnd s (errWord 11 0)) := by
  have hbad : portBad s.host.port = true := by simp [portBad, hop]
  simp only [portRun, hbad, if_true]

/-! ## The actions of a reeve queue (27 R388, R389) -/

section
variable {s : State} {die slot : Nat} {o : OpenRec}

theorem rqRetry_idle (h : openRec s die slot = none) :
    exec (.rqRetry die slot) s = .next (setAction s die 0 slot true) := by
  simp only [exec_rqRetry, execRqRetry, h]

theorem rqFail_idle (h : openRec s die slot = none) :
    exec (.rqFail die slot) s = .next (setAction s die 1 slot true) := by
  simp only [exec_rqFail, execRqFail, h]

theorem rqDrop_idle (h : openRec s die slot = none) :
    exec (.rqDrop die slot) s = .next (setAction s die 2 slot true) := by
  simp only [exec_rqDrop, execRqDrop, h]

/-- The action word and the record that the action resolves. -/
theorem resolveRec_setAction (s : State) (die act slot : Nat) :
    resolveRec (setAction s die act slot false) (some (die, slot)) = updDie s die fun d =>
      { d with act := act, aslot := slot, aerr := false, recs := tdel d.recs slot } :=
  updDie_updDie s die (fun d => { d with act := act, aslot := slot, aerr := false })
    fun d => { d with recs := tdel d.recs slot }

section
variable (h : openRec s die slot = some o) (hn : o.notice ≠ some 1)
include h hn

theorem rqRetry_open : exec (.rqRetry die slot) s = .next (slotFreed (retryRef (some (die, slot)) (updDie s die fun d =>
    { d with act := 0, aslot := slot, aerr := false, recs := tdel d.recs slot })) die) := by
  simp only [exec_rqRetry, execRqRetry, h, if_neg hn, resolveRec_setAction]

theorem rqFail_open : exec (.rqFail die slot) s = .next (slotFreed (failRef (some (die, slot)) o.addr
    (updDie s die fun d => { d with act := 1, aslot := slot, aerr := false, recs := tdel d.recs slot })) die) := by
  simp only [exec_rqFail, execRqFail, h, if_neg hn, resolveRec_setAction]

theorem rqDrop_open : exec (.rqDrop die slot) s = .next (setAction s die 2 slot true) := by
  simp only [exec_rqDrop, execRqDrop, h, if_neg hn]

end

theorem rqDrop_notice (h : openRec s die slot = some o) (hn : o.notice = some 1) : exec (.rqDrop die slot) s =
    .next (slotFreed (dropHeld (setAction s die 2 slot false) (some (die, slot))) die) := by
  simp only [exec_rqDrop, execRqDrop, h, hn, if_true]

end

/-! ## The registers of a reeve queue (27 R387, R388) -/

section
variable {s : State} {die : Nat}

theorem rqconsWrite_eq (v : W32) : exec (.rqconsWrite die v) s =
    .next (if (v - (dieOf s die).rqcons).toNat ≤ ((dieOf s die).rqprod - (dieOf s die).rqcons).toNat then
      slotFreed (updDie s die fun d => { d with rqcons := v }) die else s) := rfl

theorem rqbaseOk_iff (a : W64) : rqbaseOk die a = true ↔ a.toNat % 65536 = 0 ∧ die * Config.dieBytes ≤ a.toNat ∧
    a.toNat + 65536 ≤ (die + 1) * Config.dieBytes := by
  simp [rqbaseOk, and_assoc]

theorem rqbaseWrite_eq (a : W64) : exec (.rqbaseWrite die a) s = .next (if rqbaseOk die a then
    slotFreed (updDie s die fun d => { d with rqbase := a, rqset := true }) die else s) := rfl

/-! ## Restart, heartbeats and hang declarations (27 R392, R395) -/

theorem reeveRestart_hung (hh : (dieOf s die).hung = true) (hr : (dieOf s die).rrst = false) : ∃ s',
    exec (.reeveRestart die) s = .next s' ∧ (dieOf s' die).rrst = true ∧ tfind s'.host.running die = none ∧
      s'.mm = s.mm := by
  refine ⟨{ updDie s die fun d => { d with rrst := true } with
    host := { s.host with running := tdel s.host.running die } }, ?_, ?_, ?_, rfl⟩
  · simp [exec_reeveRestart, execReeveRestart, hh, hr]
  · simp only [dieOf, updDie, tfind_tput, if_true, Option.getD_some]
  · exact (tfind_tdel ..).trans (if_pos rfl)

theorem heartbeat_ready (h : DevFn.reeve die ∈ s.host.ready) (column : Bool) : exec (.heartbeat die column) s =
    .next (updDie s die fun d => if column then { d with beatC := nowNs s }
      else { d with hbeat := d.hbeat + 1, beatP := nowNs s }) := by
  have hready : isReady s (.reeve die) = true := List.contains_iff_mem.2 h
  cases column <;> simp [exec_heartbeat, execHeartbeat, hready]

theorem hangDeclare_due (hd : reeveRuns s die = true) (hp : reeveRuns s (Nat.xor die 1) = true)
    (hb : (dieOf s die).beatP + 1000000 ≤ nowNs s) :
    exec (.hangDeclare die) s = .next (declareHung s die (Nat.xor die 1)) := by
  have hpartner : reeveRuns s (partner die) = true := hp
  simp only [exec_hangDeclare, execHangDeclare, hd, hpartner, hb, decide_true, Bool.and_self, if_true]
  rfl

theorem columnHangDeclare_due (hd : reeveRuns s die = true) (hm : (dieOf s die).moved = false)
    (hp : reeveRuns s (Nat.xor die 4) = true) (hb : (dieOf s die).beatC + 1200000 ≤ nowNs s) :
    exec (.columnHangDeclare die) s = .next (declareHung s die (Nat.xor die 4)) := by
  have hpartner : reeveRuns s (columnPartner die) = true := hp
  rw [reeveRuns, Bool.and_eq_true, Bool.not_eq_true'] at hd
  obtain ⟨hready, hhung⟩ := hd
  simp only [exec_columnHangDeclare, execColumnHangDeclare, hready, hhung, hm, hpartner, hb, Bool.or_false, Bool.not_false,
    decide_true, Bool.and_self, Bool.true_or, if_true]
  rfl

/-! ## Samples of the supply (27 R397, R398) -/

/-- The supply at its ceiling has no margin left. -/
theorem vleft_eq_zero_iff (m : Margin) : m.vleft = 0 ↔ 1440 ≤ m.vnow := Nat.sub_eq_zero_iff_le

theorem stepSupply_mexh (pdm : BitVec 16) (m : Margin) : (stepSupply pdm m).mexh = m.mexh := by
  simp only [stepSupply, apply_ite Margin.mexh, ite_self]

theorem stepSupply_eq (pdm : BitVec 16) (m : Margin) : stepSupply pdm m = (let m' := { m with pdm := pdm }
    if pdm = 0xFFFF then m'
    else if pdm.toNat < 20 ∧ m'.vnow < 1440 then { m' with vnow := m'.vnow + 5, vsteps := m'.vsteps + 1 }
    else if 40 < pdm.toNat ∧ 1300 < m'.vnow then { m' with vnow := m'.vnow - 5 }
    else m') := by
  simp only [stepSupply, Bool.and_eq_true, decide_eq_true_eq]
  rfl

theorem marginSample_left (hd : reeveRuns s die = true) {pdm : BitVec 16}
    (h : ¬ (1440 ≤ (dieOf s die).margin.vnow ∧ pdm.toNat < 10)) : exec (.marginSample die pdm) s =
      .next (updDie s die fun d => { d with margin := stepSupply pdm (dieOf s die).margin }) := by
  have hout : ((dieOf s die).margin.vleft == 0 && decide (pdm.toNat < 10) && !(dieOf s die).margin.mexh) = false := by
    have hleft : ((dieOf s die).margin.vleft == 0 && decide (pdm.toNat < 10)) = false := by
      rw [Bool.eq_false_iff]
      simpa [vleft_eq_zero_iff] using h
    rw [hleft, Bool.false_and]
  have hsame : { stepSupply pdm (dieOf s die).margin with mexh := (dieOf s die).margin.mexh || false } =
      stepSupply pdm (dieOf s die).margin := by
    rw [Bool.or_false, ← stepSupply_mexh pdm]
  simp only [exec_marginSample, execMarginSample, hd, hout, hsame, Bool.not_true, Bool.false_eq_true, if_false]

/-! ## Tables of codes (27 R397) -/

/-- Bytes listed from place `k` on: each stands at its place. -/
theorem tget_codes (b : Bytes) (k : Nat) (t : Table Byte) (i : Nat) :
    tget 0#8 ((b.zipIdx k).foldl (fun t x => tset 0#8 t x.2 x.1) t) i =
      if k ≤ i ∧ i < k + b.length then b.getD (i - k) 0#8 else tget 0#8 t i := by
  induction b generalizing k t with
  | nil => simp
  | cons x b ih =>
    rw [List.zipIdx_cons, List.foldl_cons, ih, tget_tset, List.length_cons]
    by_cases hi : k = i
    · subst hi
      simp
    · by_cases hin : k + 1 ≤ i ∧ i < k + 1 + b.length
      · have hsub : i - k = i - (k + 1) + 1 := by omega
        rw [if_pos hin, if_pos (by omega), hsub, List.getD_cons_succ]
      · rw [if_neg hin, if_neg hi, if_neg (by omega)]

theorem tget_codeTable (b : Bytes) {i : Nat} (hi : i < 128) : tget 0#8 (codeTable b) i = b.getD i 0 := by
  refine (tget_codes (b.take 128) 0 [] i).trans ?_
  rw [List.length_take]
  split
  · rw [Nat.sub_zero, List.getD_eq_getElem?_getD, List.getD_eq_getElem?_getD, List.getElem?_take_of_lt hi]
    rfl
  · rw [List.getD_eq_default _ _ (by omega)]
    rfl

theorem codeTableRefresh_runs (hd : reeveRuns s die = true) (t1 t2 t3 : Bytes) : exec (.codeTableRefresh die t1 t2 t3) s =
    .next (updDie s die fun d =>
      { d with ptemp := codeTable t1, pdroop := codeTable t2, pinj := codeTable t3 }) := by
  simp only [exec_codeTableRefresh, execCodeTableRefresh, hd, Bool.not_true, Bool.false_eq_true, if_false]

end

/-! ## The statement -/

/-- Settles O53, from the lemmas above, one for each happening and each register. -/
theorem reeveHappenings : Obligations.ReeveHappenings := by
  intro s die slot v a o pdm t1 t2 t3
  refine ⟨portRuns rfl, portRuns rfl, portRuns rfl, portRuns rfl, portRuns rfl, portRuns rfl, portRuns rfl, ?reserved,
    fun h => ⟨setsDie_updDie (rqRetry_idle h), setsDie_updDie (rqFail_idle h), setsDie_updDie (rqDrop_idle h)⟩,
    fun h hn => ⟨rqRetry_open h hn, rqFail_open h hn, setsDie_updDie (rqDrop_open h hn)⟩, rqDrop_notice, ?cons, ?consOut,
    ?base, ?baseOdd, reeveRestart_hung,
    fun h => ⟨setsDie_updDie (heartbeat_ready h false), setsDie_updDie (heartbeat_ready h true)⟩, hangDeclare_due,
    columnHangDeclare_due, ?sample, ?codes, setsDie_updDie (exec_lstateWrite die v s)⟩
  case reserved =>
    intro hgo hop
    refine congrArg Host.Outcome.next ((portCmd_runs hgo hop).trans ?_)
    rw [portRun_reserved hop]
    rfl
  case cons =>
    intro h
    rw [rqconsWrite_eq, if_pos h]
  case consOut =>
    intro h
    rw [rqconsWrite_eq, if_neg (Nat.not_le.2 h)]
  case base =>
    intro hal hlo hhi
    rw [rqbaseWrite_eq, if_pos ((rqbaseOk_iff a).2 ⟨hal, hlo, hhi⟩)]
  case baseOdd =>
    intro hal
    rw [rqbaseWrite_eq, if_neg fun h => hal ((rqbaseOk_iff a).1 h).1]
  case sample =>
    intro hd h
    rw [← stepSupply_eq]
    exact setsDie_updDie (marginSample_left hd h)
  case codes =>
    intro hd
    refine ⟨_, codeTableRefresh_runs hd t1 t2 t3, rfl, fun i hi => ?_⟩
    rw [dieOf_updDie_same]
    exact ⟨tget_codeTable t1 hi, tget_codeTable t2 hi, tget_codeTable t3 hi⟩

end Sys2Proof.Machine
end

section
/-! Barriers, ownership, adoption and `BEQUEATH` (O45). -/

namespace Sys2Proof.Machine

open Sys2Proof

theorem tag_of_gangOf {s : State} {tag : Nat} {x : Gang} (h : gangOf s tag = some x) : x.tag = tag := by
  have hx := List.find?_some h
  exact of_decide_eq_true hx

/-! ## Barriers (17 R304) -/

section
variable {s : State} {c : Ctx} {f : LongForm}

theorem barOp_issues {i : Instr} {g : BitVec 5} (h : Issues s i g c) (k : BarKind) :
    barOp s i g k = c.upd s (modThreads c.setTids fun t =>
      if t.tid ∈ c.actTids then { t with wait := .barrier k s.sch.cycle, wnext := c.cur.next }
      else { t with pc := c.cur.next }) := by
  refine (runCore_body h rfl).trans ?_
  simp only [List.contains_iff_mem, waitThread]

/-! ## Ownership instructions (18 R311) -/

/-- Where no thread meets a condition, each gets its mask bit. -/
theorem ownMasks_of_done {rs : List (Nat × Bool × LaneEnd)} (hact : c.act.isEmpty = false)
    (h : ∀ r ∈ rs, r.2.2 = .done) (s : State) (d : Nat) : c.ownMasks s d rs =
      c.done s fun t => t.setMask d (((rs.find? fun r => r.1 = t.tid).map (·.2.1)).getD false) := by
  refine finishLanes_of_done (fun e he => ?_) hact s _
  obtain ⟨r, hr, rfl⟩ := List.mem_map.1 he
  exact h r hr

theorem ownOp_eachThread {i : Instr} {chk : Ctx → Bool} {go : Ctx → State → Thread → (Bool × LaneEnd) × State}
    (hi : exec i s = .next (ownOp s i f chk go)) (hchk : chk c = true) : EachThread i s c f (go c) := by
  intro rs s1 h hd hrs hdone
  refine hi.trans (congrArg Host.Outcome.next ((runCore_body h ?_).trans ?_))
  · rw [maskDstOk, decide_eq_true hd, hchk]
    rfl
  · rw [hrs]
    exact ownMasks_of_done h.act hdone s1 _

section
variable (f : LongForm) (s : State)

theorem exec_ownClaim : exec (.ownClaim f) s =
    .next (ownOp s (.ownClaim f) f (fun c => addrOk c f && srcOk c f.lit true f.sc) fun c => c.claimLane f) := rfl

theorem exec_ownSelf : exec (.ownSelf f) s =
    .next (ownOp s (.ownSelf f) f (fun c => addrOk c f && addrUni c f) fun c => c.selfLane f) := rfl

theorem exec_ownWord : exec (.ownWord f) s =
    .next (ownOp s (.ownWord f) f (fun c => addrOk c f && srcOk c f.lit true f.sc) fun c => c.wordLane f) := rfl

theorem exec_ownMbox : exec (.ownMbox f) s = .next (ownOp s (.ownMbox f) f
    (fun c => addrOk c f && srcOk c f.lit false f.sc && c.act.all fun t => dieBox c (boxId f.lit f.sc t))
    fun c => c.mboxLane f) := rfl

theorem exec_disownClaim : exec (.disownClaim f) s =
    .next (ownOp s (.disownClaim f) f (fun c => addrOk c f) fun c => c.unclaimLane f) := rfl

theorem exec_disownSelf : exec (.disownSelf f) s =
    .next (ownOp s (.disownSelf f) f (fun _ => true) fun c => c.unselfLane) := rfl

theorem exec_disownWord : exec (.disownWord f) s =
    .next (ownOp s (.disownWord f) f (fun c => addrOk c f) fun c => c.unwordLane f) := rfl

theorem exec_disownMbox : exec (.disownMbox f) s = .next (ownOp s (.disownMbox f) f
    (fun c => srcOk c f.lit false f.sc && c.act.all fun t => dieBox c (boxId f.lit f.sc t))
    fun c => c.unmboxLane f) := rfl

end

/-! ## `HELPQ` (18 R317) -/

theorem helpq_issues {r : RecRead} {s2 : State} (h : AsksHelp s c f r s2) : ∃ va s1,
    exec (.helpq f) s = .next (c.helpq s f va) ∧ readRec s c.grp va = (r, s1) ∧ r ≠ .waits ∧
      s2 = coverThreads s1 c.cur.gid c.actTids := by
  obtain ⟨t0, s1, h, hd, ha, hu, hhead, hcan, hal, hread, hwaits, hs2⟩ := h
  refine ⟨effAddr f t0, s1, congrArg Host.Outcome.next ((runCore_body h ?_).trans ?_), hread, hwaits, hs2⟩
  · rw [hd, addrOk_of_legal ha, hu]
    rfl
  · simp only [hhead, Option.map_some, Option.getD_some, hcan, hal, Bool.not_true, Bool.false_eq_true, if_false, ne_eq,
      not_true_eq_false]

theorem helpq_refused {r : RecRead} {s1 : State} {w : Nat} (h : AsksHelp s c f r s1)
    (hno : adoptable s1 c.grp r.rec? = .no w) : exec (.helpq f) s = .next
      (c.result (countRefusal s1 c.die) f.dst f.w (res32 (fun _ => helpWord r.rec? (.no w)) (tagOf c true))) := by
  obtain ⟨va, s0, hrun, hread, hwaits, rfl⟩ := helpq_issues h
  rw [hrun, Ctx.helpq, hread]
  simp only [hwaits, if_false, hno, Adoptable.chosen]

/-- The status word of an owner that is adopted: adoptable, without a reason. -/
theorem helpWord_of_chosen {r : Rec} {a : Adoptable} {x : Chosen} (h : a.chosen = some x) :
    helpWord (some r) a = BitVec.ofNat 32 (r.state + 2 ^ 4 + r.cause * 2 ^ 8) := by
  cases a with
  | no w => cases h
  | queued q l => rfl
  | parked g => rfl

theorem helpq_adopts {r : Rec} {s1 : State} {x : Chosen} (h : AsksHelp s c f (.ok r) s1)
    (hx : (adoptable s1 c.grp (some r)).chosen = some x) : exec (.helpq f) s = .next (adoptOn (c.upd s1
      (c.stopFor f x (BitVec.ofNat 32 (r.state + 2 ^ 4 + r.cause * 2 ^ 8)))) c.cur.gid) := by
  obtain ⟨va, s0, hrun, hread, hwaits, rfl⟩ := helpq_issues h
  rw [hrun, Ctx.helpq, hread]
  simp only [hwaits, if_false, RecRead.rec?, hx, helpWord_of_chosen hx]

end

/-! ## The status word as the group resumes (18 R317) -/

/-- A thread that receives the status word goes on behind its `HELPQ`. -/
def helpedThread (q : HelpRes) (t : Thread) : Thread :=
  { (if q.toReg then t.write q.dst false (q.word.setWidth 64) else t) with pc := t.wnext }

theorem giveHelp_threads {g : Group} {q : HelpRes} (h : g.helpq = some q) :
    (giveHelp g).threads = g.threads.map fun t => if q.tids.contains t.tid then helpedThread q t else t := by
  rw [giveHelp, h]
  rfl

theorem giveHelp_helpq {g : Group} {q : HelpRes} (h : g.helpq = some q) : (giveHelp g).helpq = none := by
  rw [giveHelp, h]

section
variable (q : HelpRes) (u : Thread)

@[simp] theorem helpedThread_tid : (helpedThread q u).tid = u.tid := by
  unfold helpedThread
  split <;> rfl

@[simp] theorem helpedThread_pc : (helpedThread q u).pc = u.wnext := rfl

theorem reg_helpedThread (d : Nat) :
    (helpedThread q u).reg d = if q.toReg = true ∧ q.dst = d then q.word else u.reg d := by
  unfold helpedThread
  split
  case isTrue hto =>
    refine (reg_write u q.dst (q.word.setWidth 64) false d).trans ?_
    by_cases hd : q.dst = d
    · rw [if_pos hd, if_pos ⟨hto, hd⟩]
      exact BitVec.setWidth_setWidth_of_le q.word (by decide)
    · rw [if_neg hd, if_neg (by simp), if_neg fun h => hd h.2]
  case isFalse hto => rw [if_neg fun h => hto h.1]; rfl

end

/-! ## Adoption (18 R314) -/

section
variable {s s1 : State} {h : Gid}

/-- A helper on its core parks first. -/
theorem adoptOn_parks {g g1 : Group} {x : Chosen} {full : Bool} (hg : groupOf s h = some g) (hx : g.chosen = some (x, full))
    (hon : onCore g = true) (hpark : parkGroup s h full .below = s1) (hg1 : groupOf s1 h = some g1)
    (hbelow : g1.place = .below) (hx1 : g1.chosen = some (x, full)) : adoptOn s h = adoptOn s1 h := by
  have hoff : onCore g1 = false := by rw [onCore, hbelow]
  simp only [adoptOn, hg, hx, hon, hpark, hg1, hx1, hoff, if_true, Bool.false_eq_true, if_false]

/-- Below it a parked owner resumes on its core. -/
theorem adoptOn_resumes {o : Gid} {g x y : Group} {full : Bool} (hg : groupOf s h = some g)
    (hc : g.chosen = some (.parked o, full)) (hbelow : g.place = .below) (ho : groupOf s o = some x)
    (hparked : x.place = .parked) (hfree : x.saveHold = none) (hwakes : wakes s x = true)
    (hfits : ownerFits s g (groupWarps x) (groupBytes x) = true)
    (hres : resumeGroup s o (coreOf g) (some (h, g.depth + 1)) = s1) (hy : groupOf s1 o = some y) (hon : onCore y = true) :
    adoptOn s h = countAdoption (unchoose s1 h) (coreOf g / 128) (g.depth + 1) false := by
  have hoff : onCore g = false := by rw [onCore, hbelow]
  obtain rfl := gid_of_groupOf hg
  simp only [adoptOn, hg, hc, hoff, hbelow, Bool.false_eq_true, if_false, ne_eq, not_true_eq_false]
  simp [placeParked, ho, hparked, hfree, hwakes, hfits, hres, hy, hon]

end

/-! ## Threads of which none stays (12 R223) -/

@[simp] theorem pushErrs_gangs (s : State) (gid : Gid) (info : W64) (es : List (Nat × Nat × W64)) :
    (pushErrs s gid info es).gangs = s.gangs := by
  unfold pushErrs
  split <;> rfl

theorem foldl_fixed_of_mem {α β : Type} {f : α → β → α} {a : α} {l : List β} (h : ∀ x ∈ l, f a x = a) :
    l.foldl f a = a :=
  List.foldlRecOn (motive := fun b => b = a) l f rfl fun b hb x hx => by rw [hb, h x hx]

theorem traps4_of_nil {bad : List (Nat × Nat × W64)} (h : bad = []) (c : Ctx) (s : State) : c.traps4 s bad = s := by
  rw [h, traps4_nil]

section
variable {c : Ctx} {ends : List (Nat × LaneEnd)} (h : ∀ e ∈ ends, e.2 = .done ∨ ∃ k a, e.2 = .err k a)
include h

theorem holdEnds_of_goes (s : State) : c.holdEnds s ends = s := by
  unfold Ctx.holdEnds
  dsimp only
  rw [List.filterMap_eq_nil_iff.2 fun e he => ?_]
  · rfl
  · obtain hd | ⟨k, a, hd⟩ := h e he <;> simp only [hd]

/-- Threads that are done or have an error reply go on together; the replies charge them. -/
theorem finishLanes_of_goes (hact : c.act.isEmpty = false) (s : State) (f : Thread → Thread) :
    (c.finishLanes s ends f).mm = s.mm ∧ (c.finishLanes s ends f).gangs = s.gangs := by
  have hstay : (ends.filter fun e => e.2.stays) = [] := List.filter_eq_nil_iff.2 fun e he => by
    obtain hd | ⟨k, a, hd⟩ := h e he <;> simp [hd, LaneEnd.stays]
  unfold Ctx.finishLanes Ctx.finishWith
  dsimp only
  rw [hstay, List.map_nil, without_nil, hact, holdEnds_of_goes h,
    traps4_of_nil (List.filterMap_eq_nil_iff.2 fun e he => ?trap), pushErrs_mm, pushErrs_gangs,
    foldl_fixed_of_mem fun e he => ?ring]
  case trap => obtain hd | ⟨k, a, hd⟩ := h e he <;> simp only [hd]
  case ring => obtain hd | ⟨k, a, hd⟩ := h e he <;> simp only [hd]
  exact ⟨rfl, rfl⟩

end

/-! ## `BEQUEATH`: what its threads write (17 R302) -/

/-- Two states whose gangs, and whose bytes at some homes, are the same. -/
def Spares (out : Nat → Prop) (s s' : State) : Prop := SameMemory s s' out ∧ s'.gangs = s.gangs

namespace Spares

variable {out : Nat → Prop} {s s' s'' : State}

theorem refl (out : Nat → Prop) (s : State) : Spares out s s := ⟨fun _ _ => rfl, rfl⟩

theorem trans (h : Spares out s s') (h' : Spares out s' s'') : Spares out s s'' :=
  ⟨fun l hl => (h'.1 l hl).trans (h.1 l hl), h'.2.trans h.2⟩

theorem foldl {α β : Type} {f : α × State → β → α × State} {xs : List β}
    (hf : ∀ a, ∀ x ∈ xs, Spares out a.2 (f a x).2)
    (a : α × State) : Spares out a.2 (xs.foldl f a).2 :=
  List.foldlRecOn (motive := fun b : α × State => Spares out a.2 b.2) xs f (refl out a.2)
    fun b hb x hx => hb.trans (hf b x hx)

end Spares

theorem countFab_gangs (s : State) (gid : Gid) (dev : Nat) : (countFab s gid dev).gangs = s.gangs := by
  unfold countFab
  split <;> rfl

theorem countOne_gangs (s : State) (gid : Gid) (p : Places) : (countOne s gid p).gangs = s.gangs := by
  unfold countOne
  split
  · exact countFab_gangs ..
  · rfl

theorem countOne_mm (s : State) (gid : Gid) (p : Places) : (countOne s gid p).mm = s.mm := by
  unfold countOne
  split
  · exact countFab_mm ..
  · rfl

theorem countPlaces_gangs (s : State) (gid : Gid) (p : Places) : (countPlaces s gid p).gangs = s.gangs := by
  unfold countPlaces
  split
  · exact foldl_keeps (fun a : State => a.gangs = s.gangs) _ (fun _ _ h => (countFab_gangs ..).trans h) _ s rfl
  · rfl

section
variable {out : Nat → Prop} (c : Ctx)

theorem spares_storeAt {p : Places} (h : ∀ l, out l → l ∉ p.locs) (s : State) (scope tid : Nat) (b : Bytes) :
    Spares out s (c.storeAt s scope tid p b).2 := by
  refine ⟨fun l hl => homeByte_storeAt (h l hl) s c scope tid b [], ?_⟩
  unfold Ctx.storeAt
  dsimp only
  split
  · exact countPlaces_gangs ..
  · exact (onlyRecords_writeAs ..).gangs.trans (countPlaces_gangs ..)

/-- The places of a piece of a thread. -/
theorem not_mem_piece {l : Nat} {x : BqLane} (h : ∀ p ∈ x.here, l ∉ p.locs) (piece : Nat) :
    l ∉ (x.here.getD piece ⟨[], [], false, []⟩).locs := by
  rw [List.getD_eq_getElem?_getD]
  cases hp : x.here[piece]? with
  | none => exact List.not_mem_nil
  | some p => exact h p (List.mem_of_getElem? hp)

section
variable {x : BqLane} (h : ∀ l, out l → ∀ p ∈ x.here, l ∉ p.locs)
include h

theorem spares_bqStore (piece off : Nat) (b : Bytes) (acc : Option Nat × State) :
    Spares out acc.2 (c.bqStore x piece off b acc).2 :=
  spares_storeAt c (fun l ho hl => not_mem_piece (h l ho) piece (List.mem_of_mem_drop (List.mem_of_mem_take hl))) ..

theorem spares_bqWords (first n hdr : Nat) (s : State) : Spares out s (c.bqWords first n hdr x s).2 :=
  (spares_bqStore c h 0 0 (natLe 4 hdr) (none, s)).trans (.foldl (fun _ _ _ => spares_bqStore c h ..) _)

theorem spares_bqTags (first n : Nat) (mine : List BqLane) (acc : Option Nat × State) :
    Spares out acc.2 (c.bqTags first n mine x acc).2 := by
  unfold Ctx.bqTags
  dsimp only
  split
  · exact spares_bqStore c h ..
  · exact (spares_bqStore c h ..).trans (.foldl (fun _ _ _ => spares_bqStore c h ..) _)

theorem spares_bqMask (mine : List BqLane) (acc : Option Nat × State) : Spares out acc.2 (c.bqMask mine x acc).2 := by
  unfold Ctx.bqMask
  dsimp only
  split
  · exact .refl out acc.2
  · refine ⟨fun l ho => ((sameHome_writeAs ..).homeByte_eq l).trans ?_,
      (onlyRecords_writeAs ..).gangs.trans (countOne_gangs ..)⟩
    have hl : l ∉ (x.here.getD 1 ⟨[], [], false, []⟩).locs.take 4 := fun hl =>
      not_mem_piece (h l ho) 1 (List.mem_of_mem_take hl)
    rw [homeByte_applyWrite_zip_other hl, countOne_mm]

end

theorem spares_bqWarp {mine : List BqLane} (h : ∀ x ∈ mine, ∀ l, out l → ∀ p ∈ x.here, l ∉ p.locs)
    (first n hdr : Nat) (area : W64) (acc : List (Nat × LaneEnd) × State) :
    Spares out acc.2 (c.bqWarp first n hdr area acc mine).2 := by
  cases mine with
  | nil => exact .refl out acc.2
  | cons x rest =>
    have hx := h x (List.mem_cons_self ..)
    have hwords : Spares out acc.2 ((x :: rest).foldl (fun (r : List (Nat × Option Nat) × State) y =>
        let (e, s') := c.bqWords first n hdr y r.2
        (r.1 ++ [(y.t.tid, e)], s')) ([], acc.2)).2 := by
      refine Spares.foldl (fun a y hy => ?_) (([], acc.2) : List (Nat × Option Nat) × State)
      exact spares_bqWords c (h y hy) first n hdr a.2
    exact hwords.trans ((spares_bqTags c hx first n ..).trans (spares_bqMask c hx ..))

end

/-- A home warp's threads are done or have an error reply. -/
theorem goes_bqWarp (c : Ctx) (first n hdr : Nat) (area : W64) {acc : List (Nat × LaneEnd) × State}
    (h : ∀ e ∈ acc.1, e.2 = .done ∨ ∃ k a, e.2 = .err k a) (mine : List BqLane) :
    ∀ e ∈ (c.bqWarp first n hdr area acc mine).1, e.2 = .done ∨ ∃ k a, e.2 = .err k a := by
  cases mine with
  | nil => exact h
  | cons x rest =>
    intro e he
    obtain he | he := List.mem_append.1 he
    · exact h e he
    · obtain ⟨y, -, rfl⟩ := List.mem_map.1 he
      dsimp only
      split
      · exact .inr ⟨_, _, rfl⟩
      · exact .inl rfl

/-- Every active thread decides its accesses or ends. -/
theorem length_bqDecide (c : Ctx) (s : State) (area : W64) (n : Nat) :
    (c.bqDecide s area n).1.length + (c.bqDecide s area n).2.1.length = c.act.length := by
  unfold Ctx.bqDecide
  generalize hacc : (([], [], s) : List BqLane × List (Nat × LaneEnd) × State) = acc
  have hlen : acc.1.length + acc.2.1.length = 0 := by rw [← hacc]; rfl
  rw [← Nat.zero_add c.act.length, ← hlen]
  clear hacc hlen
  induction c.act generalizing acc with
  | nil => rfl
  | cons t act ih =>
    rw [List.foldl_cons, ih]
    split <;> simp <;> omega

/-! ## `BEQUEATH` (17 R302) -/

section
variable {s s1 : State} {c : Ctx} {f : LongForm} {l : Launch} {xs : List BqLane}

theorem bequeathChk (hr : RangeNamed c f f.sa.toNat (bqCount c f)) (hn : bqCount c f ≤ 8) (hl : c.launch s = some l)
    (hen : gcfgBqen l.tmpl = true) : (f.sa.toNat < 0x100 && srcOk c f.lit false f.sb && srcUni c false f.sb &&
      1 ≤ bqCount c f && bqCount c f ≤ 8 && f.sa.toNat + bqCount c f ≤ c.grp.n &&
      (c.launch s).any fun l => gcfgBqen l.tmpl) = true := by
  obtain ⟨-, hok, huni, -, hpos, -, hbudget, hreg⟩ := hr
  simp [hok, huni, hpos, hbudget, hreg, hn, hl, hen]

/-- The header agrees with the range, or is not valid yet. -/
theorem bqHeader_agrees {hdr first n : Nat} (hfirst : first < 256)
    (h : hdr.testBit 31 = true → hdr % 256 = first ∧ hdr / 256 % 16 = n) :
    (bit hdr 31 && (bits hdr 0 8 != first % 256 || bits hdr 8 4 != n)) = false := by
  rw [bit]
  cases hv : hdr.testBit 31 with
  | false => rfl
  | true =>
    obtain ⟨hf, hn⟩ := h hv
    simp [bits, hf, hn, Nat.mod_eq_of_lt hfirst]

/-- The writes of the home warps, from the state in which all accesses are decided. -/
theorem bequeath_decided {area : W64} {n : Nat} (harea : area = bqArea l.tmpl l.aix c.cur.gid.grp) (hn : n = bqCount c f)
    (hact : c.act.isEmpty = false) (hdec : c.bqDecide s area n = (xs, [], s1))
    (hhdr : (bit (c.bqHeader s area) 31 && (bits (c.bqHeader s area) 0 8 != f.sa.toNat % 256 ||
      bits (c.bqHeader s area) 8 4 != n)) = false) : ∃ es s2, (∀ e ∈ es, e.2 = .done ∨ ∃ k a, e.2 = .err k a) ∧
      Spares (fun b => ∀ x ∈ xs, ∀ p ∈ x.here, b ∉ p.locs) s1 s2 ∧
      c.bequeath s f l = c.finishLanes (updGang s2 c.cur.gid.tag fun x => { x with bq := true }) es id := by
  subst harea hn
  have hxs : xs.isEmpty = false := by
    have hlen := length_bqDecide c s (bqArea l.tmpl l.aix c.cur.gid.grp) (bqCount c f)
    rw [hdec] at hlen
    cases xs with
    | nil => exact absurd (List.length_eq_zero_iff.1 hlen.symm) (by simpa using hact)
    | cons x xs => rfl
  unfold Ctx.bequeath
  dsimp only
  rw [hhdr, hdec]
  simp only [Bool.false_eq_true, if_false, hxs, List.nil_append]
  refine ⟨_, _, ?_, ?_, rfl⟩
  · exact foldl_keeps (fun a : List (Nat × LaneEnd) × State => ∀ e ∈ a.1, e.2 = .done ∨ ∃ k a, e.2 = .err k a) _
      (fun _ mine h => goes_bqWarp c _ _ _ _ h mine) _ ([], s1) (by simp)
  · refine Spares.foldl (fun a mine hmine => spares_bqWarp c (fun x hx b hb => hb x ?_) ..) ([], s1)
    obtain ⟨w, -, rfl⟩ := List.mem_map.1 hmine
    exact List.mem_of_mem_filter hx

theorem bequeath_runs (h : Issues s (.bequeath f) f.g c) (hr : RangeNamed c f f.sa.toNat (bqCount c f)) (hn : bqCount c f ≤ 8)
    (hl : c.launch s = some l) (hen : gcfgBqen l.tmpl = true)
    (hhdr : (c.bqHeader s (bqArea l.tmpl l.aix c.cur.gid.grp)).testBit 31 = true →
      c.bqHeader s (bqArea l.tmpl l.aix c.cur.gid.grp) % 256 = f.sa.toNat ∧
      c.bqHeader s (bqArea l.tmpl l.aix c.cur.gid.grp) / 256 % 16 = bqCount c f)
    (hdec : c.bqDecide s (bqArea l.tmpl l.aix c.cur.gid.grp) (bqCount c f) = (xs, [], s1)) :
    ∃ s', exec (.bequeath f) s = .next s' ∧ SameMemory s1 s' (fun b => ∀ x ∈ xs, ∀ p ∈ x.here, b ∉ p.locs) ∧
      ∀ x, gangOf s1 c.cur.gid.tag = some x → gangOf s' c.cur.gid.tag = some { x with bq := true } := by
  obtain ⟨-, -, -, -, -, -, -, hreg⟩ := id hr
  obtain ⟨es, s2, hes, hspare, hrun⟩ := bequeath_decided rfl rfl h.act hdec (bqHeader_agrees hreg hhdr)
  obtain ⟨hmm, hgangs⟩ := finishLanes_of_goes hes h.act (updGang s2 c.cur.gid.tag fun x => { x with bq := true }) id
  refine ⟨c.bequeath s f l, congrArg Host.Outcome.next ((runCore_body h (bequeathChk hr hn hl hen)).trans (by rw [hl])),
    fun b hb => ?_, fun x hx => ?_⟩
  · rw [hrun, hmm]
    exact hspare.1 b hb
  · rw [hrun, gangOf, hgangs, ← gangOf, gangOf_updGang _ _ _ _ (by exact fun _ => rfl), gangOf, hspare.2, ← gangOf, hx,
      Option.map_some, if_pos (tag_of_gangOf hx)]

end

/-! ## The statement -/

/-- Settles O45, from the lemmas above, one for each kind of instruction. -/
theorem launchInstructions : Obligations.LaunchInstructions := by
  intro s s1 c f
  refine ⟨fun h => congrArg _ (barOp_issues h .group), fun h => congrArg _ (barOp_issues h .gang),
    fun h => congrArg _ (barOp_issues h .stage), fun ha hc => ?claim, fun ha hu => ?self, fun ha hc => ?word,
    fun ha hc hb => ?mbox, fun ha => ?unclaim, ?unself, fun ha => ?unword, fun hc hb => ?unmbox,
    fun r w h hno => ⟨tagOf c true, .uni, helpq_refused h hno⟩, fun r x h hx => ?adopts,
    fun g q hq => ⟨giveHelp_helpq hq, fun t ht => ?help⟩,
    fun h g g1 x full hg hx hon hpark hg1 hb hx1 => adoptOn_parks hg hx hon hpark hg1 hb hx1,
    fun h o g x y full hg hc hb ho hp hf hw hfits hres hy hon => adoptOn_resumes hg hc hb ho hp hf hw hfits hres hy hon,
    fun l xs h hr hn hl hen hhdr hdec => bequeath_runs h hr hn hl hen hhdr hdec⟩
  case claim => exact ownOp_eachThread (go := fun c => c.claimLane f) (exec_ownClaim f s) (by rw [addrOk_of_legal ha, hc]; rfl)
  case self => exact ownOp_eachThread (go := fun c => c.selfLane f) (exec_ownSelf f s) (by rw [addrOk_of_legal ha, hu]; rfl)
  case word => exact ownOp_eachThread (go := fun c => c.wordLane f) (exec_ownWord f s) (by rw [addrOk_of_legal ha, hc]; rfl)
  case mbox =>
    exact ownOp_eachThread (go := fun c => c.mboxLane f) (exec_ownMbox f s)
      (by rw [addrOk_of_legal ha, hc, List.all_eq_true.2 hb]; rfl)
  case unclaim => exact ownOp_eachThread (go := fun c => c.unclaimLane f) (exec_disownClaim f s) (addrOk_of_legal ha)
  case unself => exact ownOp_eachThread (go := fun c => c.unselfLane) (exec_disownSelf f s) rfl
  case unword => exact ownOp_eachThread (go := fun c => c.unwordLane f) (exec_disownWord f s) (addrOk_of_legal ha)
  case unmbox =>
    exact ownOp_eachThread (go := fun c => c.unmboxLane f) (exec_disownMbox f s)
      (by rw [hc, List.all_eq_true.2 hb]; rfl)
  case adopts =>
    refine (helpq_adopts h hx).trans
      (congrArg (fun u => Host.Outcome.next (adoptOn (c.upd s1 u) c.cur.gid)) (funext fun g => ?_))
    simp only [Ctx.stopFor, List.contains_iff_mem]
  case help =>
    rw [giveHelp_threads hq] at ht
    obtain ⟨u, hu, rfl⟩ := List.mem_map.1 ht
    refine ⟨u, hu, ?_⟩
    by_cases hin : u.tid ∈ q.tids
    · rw [if_pos (List.contains_iff_mem.2 hin)]
      refine ⟨helpedThread_tid q u, fun hn => absurd hin hn, fun _ => ⟨rfl, fun hto => ?_, fun d hd => ?_⟩⟩
      · rw [reg_helpedThread, if_pos ⟨hto, rfl⟩]
      · rw [reg_helpedThread, if_neg fun h => hd h.2.symm]
    · rw [if_neg fun h => hin (List.contains_iff_mem.1 h)]
      exact ⟨rfl, fun _ => rfl, fun h => absurd h hin⟩

end Sys2Proof.Machine
end

section
/-! Launches: acceptance, the lottery, commit, completion and time-outs (O49). -/

namespace Sys2Proof.Machine

open Sys2Proof

/-! ## The happenings' meanings -/

section
variable (s : State) (n die tag grp : Nat)

theorem exec_argBlockWrite : exec (.argBlockWrite n) s = execArgBlockWrite n s := rfl

theorem exec_launchEnqueue : exec (.launchEnqueue n) s = execLaunchEnqueue n s := rfl

theorem exec_lotteryDraw : exec (.lotteryDraw die) s = execLotteryDraw die s := rfl

theorem exec_gangCommit : exec (.gangCommit die) s = .next ((commitNext s die).getD s) := rfl

theorem exec_groupComplete : exec (.groupComplete tag grp) s = execGroupComplete tag grp s := rfl

theorem exec_gangComplete : exec (.gangComplete tag) s = execGangComplete tag s := rfl

theorem exec_barrierComplete (k : BarKind) (idx : Nat) : exec (.barrierComplete tag k idx) s =
    .next (if barDue s tag k idx then completeBarrier s tag k idx else s) := rfl

theorem exec_progressTimeout : exec (.progressTimeout tag) s = execProgressTimeout tag s := rfl

end

/-! ## Acceptances (17 R290) -/

section
variable {s : State} {n : Nat} {x : Accept} {rest : List Accept} (hr : acceptReady s n = true)
  (hx : (streamOf s n).accepts = x :: rest)
include hr

theorem argBlockWrite_ready : exec (.argBlockWrite n) s = .next ((acceptStep s n).getD s) := by
  rw [exec_argBlockWrite, execArgBlockWrite, hr, if_pos rfl]

include hx

/-- An acceptance whose template has been read goes on with it. -/
theorem argBlockWrite_read {t : Template} (ht : x.read = some t) :
    exec (.argBlockWrite n) s = .next ((launchWith s n x t).getD s) := by
  simp only [argBlockWrite_ready hr, acceptStep, hx, ht]

/-- Another reads its template first. -/
theorem argBlockWrite_fresh {t : Template} {s1 : State} (hnone : x.read = none)
    (ht : readTemplate s (hayWho n (streamOf s n).odie) (streamOf s n).odie (streamOf s n).asn x.tmpl = (.ok t, s1)) :
    exec (.argBlockWrite n) s = .next ((launchWith (updAccept s1 n fun x => { x with read := some t }) n
      { x with read := some t } t).getD (updAccept s1 n fun x => { x with read := some t })) := by
  simp only [argBlockWrite_ready hr, acceptStep, hx, hnone, ht, Option.getD_some]

end

/-! ## Queues (17 R294) -/

theorem launchEnqueue_room {s : State} {n q : Nat} {l : Launch} {rest : List (Nat × Launch)}
    (hq : (streamOf s n).queued = (q, l) :: rest) (hrst : (streamOf s n).rst = false)
    (hroom : (queueOf s (streamOf s n).odie q).recs.length < 32) :
    exec (.launchEnqueue n) s = .next (offerOn (updStream (enqueueLaunch s (streamOf s n).odie q l) n
      fun st => { st with queued := rest }) n) := by
  have hdue : enqueueDue s n = true := by simp only [enqueueDue, hq, hrst, hroom, Bool.not_false, Bool.true_and, decide_true]
  simp only [exec_launchEnqueue, execLaunchEnqueue, hdue, hq, Bool.not_true, Bool.false_eq_true, if_false]

/-! ## The lottery (17 R296) -/

/-- A ticket below the sum of the tickets falls to the queue within whose tickets it lies. -/
theorem pickByTickets_some {r : Nat} {es : List (Nat × Queue)} (h : r < (es.map fun e => e.2.tick).sum) :
    ∃ pre e post, es = pre ++ e :: post ∧ pickByTickets r es = some e.1 ∧ (pre.map fun e => e.2.tick).sum ≤ r ∧
      r < (pre.map fun e => e.2.tick).sum + e.2.tick := by
  induction es generalizing r with
  | nil => exact absurd h (Nat.not_lt_zero r)
  | cons e es ih =>
    rw [List.map_cons, List.sum_cons] at h
    by_cases hr : r < e.2.tick
    · exact ⟨[], e, es, rfl, if_pos hr, Nat.zero_le r, by simpa using hr⟩
    · obtain ⟨pre, e', post, rfl, hpick, hlo, hhi⟩ := ih (r := r - e.2.tick) (by omega)
      refine ⟨e :: pre, e', post, rfl, (if_neg hr).trans hpick, ?_, ?_⟩ <;> rw [List.map_cons, List.sum_cons] <;> omega

section
variable {s : State} {die : Nat}

theorem drawQueue_tickets (h : ((eligible s die).map fun e => e.2.tick).sum ≠ 0) : drawQueue s die =
    (pickByTickets ((stepLstate (dieOf s die).lstate).toNat % ((eligible s die).map fun e => e.2.tick).sum) (eligible s die),
      updDie s die fun d => { d with lstate := stepLstate (dieOf s die).lstate }) := by
  rw [drawQueue]
  exact if_neg h

theorem lstate_drawQueue (h : ((eligible s die).map fun e => e.2.tick).sum ≠ 0) :
    (dieOf (drawQueue s die).2 die).lstate = stepLstate (dieOf s die).lstate := by
  rw [drawQueue_tickets h, dieOf_updDie_same]

variable {q : Nat} {s1 : State} {l : Launch} {rest : List Launch} (hd : drawDue s die = true)
  (hq : drawQueue s die = (some q, s1)) (hl : (queueOf s1 die q).recs = l :: rest) (hp : unplaceable l.tmpl = false)
include hd hq hl hp

theorem lotteryDraw_placed {cores : List Nat} (hc : placeGang s1 die l.tmpl = some cores) :
    exec (.lotteryDraw die) s = .next (updDie s1 die fun d => { d with
      placed := d.placed ++ [⟨q, l, cores, none, [], none, false⟩]
      rrp := ((cores.getLast?.getD 0) % 128 + 1) % 128 }) := by
  simp only [exec_lotteryDraw, execLotteryDraw, hd, hq, hl, hp, hc, Bool.not_true, Bool.false_eq_true, if_false]

theorem lotteryDraw_blocked (hc : placeGang s1 die l.tmpl = none) :
    exec (.lotteryDraw die) s = .next (updQueue s1 die q fun x => { x with blk := true }) := by
  simp only [exec_lotteryDraw, execLotteryDraw, hd, hq, hl, hp, hc, Bool.not_true, Bool.false_eq_true, if_false]

end

/-! ## Commit (17 R299) -/

section
variable {s : State} {die : Nat}

/-- No record commits while a parked group's wake has come (log 101). -/
theorem gangCommit_waits (h : wakesFirst s die = true) : exec (.gangCommit die) s = .next s := by
  have hnone : commitNext s die = none := List.findSome?_eq_none_iff.2 fun p _ => by
    simp only [mayCommit, h, Bool.not_true, Bool.and_false, Bool.false_eq_true, if_false]
  rw [exec_gangCommit, hnone, Option.getD_none]

/-- A commit whose writes are made starts its gang. -/
theorem commitOn_starts {p p' : Placement} {s1 t : State}
    (hw : commitWrites die (commitList p) p s = (.done, p', s1))
    (ht : startGang (unqueueTag (dropPlaced s1 die p') die p'.queue p'.launch.tag) die p'.queue p'.launch p'.cores p'.owner =
      some t) : commitOn s die p = some t := by
  simp only [commitOn, hw, ht]

theorem gangCommit_starts {p p' : Placement} {l : Launch} {s1 t : State} (hone : (dieOf s die).placed = [p])
    (hfree : p.hold = none) (hown : p.owner = none) (hbegun : p.begun = false) (hwake : wakesFirst s die = false)
    (hhead : (queueOf s die p.queue).recs.head? = some l) (htag : l.tag = p.launch.tag) (hfits : placeFits s p = true)
    (hw : commitWrites die (commitList { p with begun := true }) { p with begun := true }
      (setPlaced s die { p with begun := true }) = (.done, p', s1))
    (ht : startGang (unqueueTag (dropPlaced s1 die p') die p'.queue p'.launch.tag) die p'.queue p'.launch p'.cores p'.owner =
      some t) : exec (.gangCommit die) s = .next t := by
  have hplaced : commitPlaced s die p = some t := by
    rw [commitPlaced, if_neg (by simp [hown, hbegun]), if_neg (by simp [hhead, htag]), if_neg (by simp [hfits])]
    dsimp only
    rw [commitOn_starts hw ht, Option.getD_some]
  have hnext : commitNext s die = some t := by
    have hmay : mayCommit s die p = true := by rw [mayCommit, hfree, hwake]; rfl
    rw [commitNext, hone, List.findSome?_cons, if_pos hmay, hplaced]
  rw [exec_gangCommit, hnext, Option.getD_some]

end

/-! ## Time-outs (03 R40) -/

section
variable {s : State} {tag : Nat} {x : Gang}

theorem gangOf_stopGang (s : State) (tag cause : Nat) : gangOf (stopGang s tag cause) tag =
    (gangOf s tag).map fun x => { x with fail := some (x.fail.getD cause), stopped := true } := by
  refine (gangOf_updGang _ tag tag _ fun _ => ?_).trans ?_
  · rfl
  · refine Option.map_congr fun x hx => ?_
    rw [if_pos (tag_of_gangOf hx)]

theorem progressTimeout_due (hx : gangOf s tag = some x) (hd : timeoutDue s x = true) :
    ∃ s', exec (.progressTimeout tag) s = .next s' ∧
      ∀ y, gangOf s' tag = some y → y.stopped = true ∧ y.fail = some (x.fail.getD 0x71) := by
  simp only [exec_progressTimeout, execProgressTimeout, hx, hd, if_true]
  refine ⟨_, rfl, fun y hy => ?_⟩
  rw [gangOf, (onlyRecords_postRecord ..).gangs, ← gangOf, gangOf_stopGang, hx] at hy
  obtain rfl := Option.some.inj hy
  exact ⟨rfl, rfl⟩

end

/-! ## The statement -/

/-- Settles O49, from the lemmas above, one for each happening. -/
theorem launchHappenings : Obligations.LaunchHappenings := by
  intro s s1 n die q tag grp k idx
  refine ⟨fun x rest t hr hx hnone ht => argBlockWrite_fresh hr hx hnone ht,
    fun x rest t hr hx ht => argBlockWrite_read hr hx ht, fun l rest hq hrst hroom => launchEnqueue_room hq hrst hroom,
    fun h => ⟨lstate_drawQueue h, ?draw⟩,
    fun l rest cores hd hq hl hp => ⟨lotteryDraw_placed hd hq hl hp, lotteryDraw_blocked hd hq hl hp⟩,
    fun p p' l t hone hfree hown hbegun hwake hhead htag hfits hw ht =>
      gangCommit_starts hone hfree hown hbegun hwake hhead htag hfits hw ht,
    gangCommit_waits, fun g hg hq => ?group, fun x hx hd => ?gang, fun hd => ?barrier,
    fun x hx hd => progressTimeout_due hx hd⟩
  case draw =>
    obtain ⟨pre, e, post, hes, hpick, hlo, hhi⟩ := pickByTickets_some
      (Nat.mod_lt (stepLstate (dieOf s die).lstate).toNat (Nat.pos_of_ne_zero h))
    rw [lstate_drawQueue h]
    exact ⟨pre, e, post, hes, by rw [drawQueue_tickets h]; exact hpick, hlo, hhi⟩
  case group => simp only [exec_groupComplete, execGroupComplete, hg, hq, if_true]
  case gang => simp only [exec_gangComplete, execGangComplete, hx, hd, if_true]
  case barrier => rw [exec_barrierComplete, hd, if_pos rfl]

end Sys2Proof.Machine
end

section
/-! The bolter's operations (O47). -/

namespace Sys2Proof.Machine

open Sys2Proof

/-! ## What an operation of the bolter that runs does (23 R354) -/

section
variable {s s1 : State} {c : BCtx} (hc : bctxOf s = some c)
include hc

/-- An operation that gives the next bolter stands in it, and the next word follows. -/
theorem boltOp_ok {f : BCtx → State → Except Stop Bolt × State} {b : Bolt} (hf : f c s = (.ok b, s1)) :
    boltOp s f = updRun s1 c.ham c.m fun r => { r with bolt := some { b with word := b.word + 1 } } := by
  simp only [boltOp, hc, hf]

theorem boltReg_sets (d : BitVec 3) (v : BCtx → State → List W32) :
    boltReg s d v = updRun s c.ham c.m fun r =>
      { r with bolt := some { c.b with word := c.b.word + 1, regs := c.b.regs.set d.toNat (v c s) } } :=
  boltOp_ok hc (f := fun c s => (.ok (c.setReg d (v c s)), s)) rfl

/-- An operation on registers alone sets its register. -/
theorem boltSets_of_boltReg {i : Instr} {d : BitVec 3} {v : BCtx → State → List W32}
    (hi : exec i s = .next (boltReg s d v)) :
    BoltSets i s c d (v c s) :=
  hi.trans (congrArg _ (boltReg_sets hc d v))

theorem boltSets_un {i : Instr} {d a : BitVec 3} {f : W32 → W32} (hi : exec i s = .next (boltUn s d a f)) :
    BoltSets i s c d ((c.reg a).map f) :=
  boltSets_of_boltReg hc (v := fun c _ => (c.reg a).map f) hi

theorem boltSets_bin {i : Instr} {d a b : BitVec 3} {f : W32 → W32 → W32} (hi : exec i s = .next (boltBin s d a b f)) :
    BoltSets i s c d (lanes2 (c.reg a) (c.reg b) f) :=
  boltSets_of_boltReg hc (v := fun c _ => ((c.reg a).zip (c.reg b)).map fun (x, y) => f x y) hi

/-- An operation that adds to the stores of the pass. -/
theorem boltStores_of_boltOp {i : Instr} {f : BCtx → State → Except Stop Bolt × State} {xs : List BStore}
    (hi : exec i s = .next (boltOp s f)) (hf : f c s = (.ok { c.b with stores := c.b.stores ++ xs }, s1)) :
    BoltStores i s s1 c xs :=
  hi.trans (congrArg _ (boltOp_ok hc hf))

/-! ## Rows and passes -/

theorem bend_nextRow (h : c.b.row + 1 < 128 * c.b.pass + (c.r.task.passRows c.b.pass).length) :
    exec .bend s = .next (updRun s c.ham c.m fun r => { r with bolt := some { c.b with
      row := c.b.row + 1, word := 0, regs := List.replicate 8 (List.replicate c.r.task.n 0) } }) := by
  refine congrArg Host.Outcome.next ?_
  simp only [hc, h, if_true]
  rfl

/-- After the last row the pass commits its stores, where no check failed and no store falls in a changing window. -/
theorem bend_commits (h : ¬ c.b.row + 1 < 128 * c.b.pass + (c.r.task.passRows c.b.pass).length) (hchk : c.b.chk = none)
    (hfree : ∀ x ∈ c.b.stores, x.busy s.mm = none) :
    exec .bend s = .next (endBolt (stepDone (c.b.stores.foldl (commitOne c) s) c.ham c.m) c.ham c.m) := by
  refine congrArg Host.Outcome.next ?_
  simp only [hc, h, if_false, endPass, hchk, List.findSome?_eq_none_iff.2 hfree]

theorem bnop_runs : exec .bnop s =
    .next (updRun s c.ham c.m fun r => { r with bolt := some { c.b with word := c.b.word + 1 } }) :=
  congrArg Host.Outcome.next (boltOp_ok hc rfl)

/-! ## Loads (23 R356) -/

theorem bld_sound (hgood : ∀ j < c.r.task.n,
      128 * (c.r.task.row0 + c.b.row) + (c.r.task.col0 + j) ∉ ((hamOf s c.ham).mill c.m).bad) (d : BitVec 3) (int : Bool) :
    BoltSets (.bld d int) s c d ((List.range c.r.task.n).map fun j =>
      let w := tget 0#32 ((hamOf s c.ham).mill c.m).bin (128 * (c.r.task.row0 + c.b.row) + (c.r.task.col0 + j))
      if int then toF32 (FVal.ofInt w.toInt) else w) := by
  have hgood' : (((List.range c.r.task.n).map fun j => binKey (c.r.task.row0 + c.b.row) (c.r.task.col0 + j)).any
      ((hamOf s c.ham).mill c.m).bad.contains) = false := by
    simpa [List.any_eq_false, binKey] using hgood
  refine congrArg Host.Outcome.next ((boltOp_ok hc (s1 := s) (b := c.setReg d _) ?_).trans rfl)
  simp only [hgood', Bool.false_eq_true, if_false, List.map_map]
  rfl

variable {locs : List Nat} {x : BitVec 3} {h : Bool}

theorem bcolv_runs (d : BitVec 3)
    (ha : millAccess s c.ham c.r.task.asn (boltAddr c.img x.toNat) ((if h then 2 else 4) * c.r.task.n) .load true 3 =
      (.ok locs, s1)) :
    exec (.bcolv d x h) s = .next (updRun s1 c.ham c.m fun r => { r with bolt := some { c.b with
      word := c.b.word + 1
      regs := c.b.regs.set d.toNat ((List.range c.r.task.n).map fun j => loadedWord h
        (seenBits s1 (c.r.task.me c.ham) 1 locs (8 * (if h then 2 else 4) * j) (8 * if h then 2 else 4))) } }) := by
  refine congrArg Host.Outcome.next ((boltOp_ok hc (s1 := s1) (b := c.setReg d _) ?_).trans rfl)
  simp only [ha]

theorem browv_runs (d : BitVec 3)
    (ha : millAccess s c.ham c.r.task.asn (boltAddr c.img x.toNat + BitVec.ofNat 64 ((if h then 2 else 4) * c.b.row))
      (if h then 2 else 4) .load true 3 = (.ok locs, s1)) :
    exec (.browv d x h) s = .next (updRun s1 c.ham c.m fun r => { r with bolt := some { c.b with
      word := c.b.word + 1
      regs := c.b.regs.set d.toNat (List.replicate c.r.task.n
        (loadedWord h (seenBits s1 (c.r.task.me c.ham) 1 locs 0 (8 * if h then 2 else 4)))) } }) := by
  refine congrArg Host.Outcome.next ((boltOp_ok hc (s1 := s1) (b := c.setReg d _) ?_).trans rfl)
  simp only [ha]

/-! ## Stores (23 R358) -/

theorem bst_runs (a : BitVec 3) : BoltStores (.bst a) s s c ((c.reg a).zipIdx.map fun p =>
    .bin (128 * (c.r.task.row0 + c.b.row) + (c.r.task.col0 + p.2)) p.1) :=
  boltStores_of_boltOp hc rfl rfl

/-- Without a check no element of a row is checked. -/
theorem bsto_runs {a b : BitVec 3} {im : BitVec 7}
    (ha : millAccess s c.ham c.r.task.asn (c.r.task.out + BitVec.ofNat 64 (c.b.row * boltPitch c.img))
      (((boltFmt (im.toNat % 16)).width * c.r.task.n + 7) / 8) .store false 3 = (.ok locs, s1)) (hchk : im.getLsbD 5 = false) :
    BoltStores (.bsto a b im) s s1 c [rowStore (c.r.task.out + BitVec.ofNat 64 (c.b.row * boltPitch c.img)) locs
      (boltFmt (im.toNat % 16)).width (((c.reg a).zip (c.reg b)).map fun p => (cvt (boltFmt (im.toNat % 16)) .rn (im.getLsbD 4)
        (if im.getLsbD 6 then boltQuot (fv p.1) (fv p.2) else fv p.1)).1)] := by
  refine boltStores_of_boltOp hc rfl ?_
  simp only [ha, hchk, Bool.false_and, List.filter_false, List.map_nil, List.foldl_nil, List.map_map]
  rfl

theorem bstsc_runs {a : BitVec 3}
    (ha : millAccess s c.ham c.r.task.asn (boltAddr c.img x.toNat + BitVec.ofNat 64 ((if h then 4 else 1) * c.b.row))
      (if h then 4 else 1) .store false 3 = (.ok locs, s1)) :
    BoltStores (.bstsc a x h) s s1 c [.mem (boltAddr c.img x.toNat + BitVec.ofNat 64 ((if h then 4 else 1) * c.b.row)) locs
      (if h then natLe 4 ((c.reg a).headD 0).toNat
      else natLe 1 (scaleCode .rn true (fv ((c.reg a).headD 0))))] := by
  refine boltStores_of_boltOp hc rfl ?_
  simp only [ha]
  rfl

theorem bamaxg_runs {a : BitVec 3}
    (ha : millAccess s c.ham c.r.task.asn (boltAddr c.img x.toNat) 4 .store true 3 = (.ok locs, s1)) :
    BoltStores (.bamaxg a x) s s1 c [.max (boltAddr c.img x.toNat) locs (magOf ((c.reg a).headD 0))] := by
  refine boltStores_of_boltOp hc rfl ?_
  simp only [ha]
  rfl

end

/-! ## The greatest magnitude (23 R357) -/

/-- The greater of two words; the first of equal ones. -/
def maxWord (m x : W32) : W32 := if m.toNat < x.toNat then x else m

theorem le_maxWord_left (m x : W32) : m.toNat ≤ (maxWord m x).toNat := by
  unfold maxWord
  split <;> omega

theorem le_maxWord_right (m x : W32) : x.toNat ≤ (maxWord m x).toNat := by
  unfold maxWord
  split <;> omega

theorem maxWord_eq_or (m x : W32) : maxWord m x = m ∨ maxWord m x = x := by
  unfold maxWord
  split
  · exact .inr rfl
  · exact .inl rfl

theorem le_foldl_maxWord (ws : List W32) (m : W32) :
    m.toNat ≤ (ws.foldl maxWord m).toNat ∧ ∀ x ∈ ws, x.toNat ≤ (ws.foldl maxWord m).toNat := by
  induction ws generalizing m with
  | nil => exact ⟨Nat.le_refl _, by simp⟩
  | cons w ws ih =>
    obtain ⟨hm, hws⟩ := ih (maxWord m w)
    refine ⟨(le_maxWord_left m w).trans hm, fun x hx => ?_⟩
    obtain rfl | hx := List.mem_cons.1 hx
    · exact (le_maxWord_right m x).trans hm
    · exact hws x hx

theorem foldl_maxWord_mem (ws : List W32) (m : W32) : ws.foldl maxWord m = m ∨ ws.foldl maxWord m ∈ ws := by
  induction ws generalizing m with
  | nil => exact .inl rfl
  | cons w ws ih =>
    rw [List.foldl_cons, List.mem_cons]
    rcases ih (maxWord m w) with h | h
    · exact (maxWord_eq_or m w).imp h.trans fun hw => .inl (h.trans hw)
    · exact .inr (.inr h)

theorem bamax_runs {s : State} {c : BCtx} (hc : bctxOf s = some c) (d a : BitVec 3) :
    ∃ v, BoltSets (.bamax d a) s c d (List.replicate c.r.task.n v) ∧ (∀ u ∈ c.reg a, (magOf u).toNat ≤ v.toNat) ∧
      (v = 0 ∨ ∃ u ∈ c.reg a, v = magOf u) := by
  refine ⟨((c.reg a).map magOf).foldl maxWord 0, boltSets_of_boltReg hc (v := fun c _ =>
    List.replicate c.r.task.n (((c.reg a).map magOf).foldl maxWord 0)) rfl, fun u hu => ?_, ?_⟩
  · exact (le_foldl_maxWord _ 0).2 _ (List.mem_map_of_mem hu)
  · refine (foldl_maxWord_mem _ 0).imp_right fun h => ?_
    obtain ⟨u, hu, he⟩ := List.mem_map.1 h
    exact ⟨u, hu, he.symm⟩

/-! ## The statement -/

/-- Settles O47, from `boltSets_of_boltReg` for the operations on registers and a lemma for each load and store. -/
theorem bolterOperations : Obligations.BolterOperations := by
  intro s s1 c d a b x h fm im locs n hc hn
  subst hn
  refine ⟨bend_nextRow hc, bend_commits hc, bnop_runs hc,
    fun hgood => ⟨bld_sound hc hgood d false, bld_sound hc hgood d true⟩,
    bst_runs hc a, boltSets_of_boltReg hc (v := fun c _ => List.replicate c.r.task.n (boltConst c.img x.toNat)) rfl,
    bcolv_runs hc d, browv_runs hc d, boltSets_bin hc rfl, boltSets_bin hc rfl, boltSets_bin hc rfl, ?fma,
    boltSets_bin hc rfl, boltSets_bin hc rfl, ?clamp, boltSets_un hc rfl, boltSets_un hc rfl, boltSets_un hc rfl,
    boltSets_un hc rfl, bamax_runs hc d a,
    boltSets_of_boltReg hc (v := fun c _ => List.replicate c.r.task.n (scaleWord (boltFmt fm.toNat) ((c.reg a).headD 0))) rfl,
    bsto_runs hc, bstsc_runs hc, bamaxg_runs hc⟩
  case fma => exact boltSets_of_boltReg hc (v := fun c _ => lanes3 (c.reg a) (c.reg b) (c.reg x) fun u v w =>
    toF32 (((fv u).mul (fv v)).add (fv w))) rfl
  case clamp => exact boltSets_of_boltReg hc (v := fun c _ => lanes3 (c.reg a) (c.reg b) (c.reg x) fun u v w =>
    boltMin (boltMax u v) w) rfl

end Sys2Proof.Machine
end

section
/-! What the engines do on their own: the miller, the mills, the carter and the counted releases (O51). -/

namespace Sys2Proof.Machine

open Sys2Proof

/-! ## Held instructions (23 R341, R347, 25 R364) -/

section
variable {s : State} {tag grp num : Nat} {g : Group} {h : Held} (hh : heldOf s ⟨tag, grp⟩ num = some (g, h))
include hh

theorem bldpReplace_runs {todo : List (Nat × W64 × W32)} {kd : Nat} (hw : h.what = .bldp todo kd) :
    exec (.bldpReplace tag grp num) s = .next (bldpRun ⟨tag, grp⟩ num (todo.length + 1) s) := by
  obtain ⟨tids, pc, next, what⟩ := h
  obtain rfl : what = _ := hw
  refine congrArg Host.Outcome.next ?_
  simp only [hh]

variable (hs : stillHeld g h ≠ [])
include hs

theorem mtaskEnqueue_taken {t : Task} (hw : h.what = .mtask t) (ht : millerTakes s (coreOf g / 8) t = true)
    (hidle : ∀ op, g.slots.getD t.slot .idle ≠ .pending op) : exec (.mtaskEnqueue tag grp num) s =
      .next (queueTask (endHeld s g.gid num h (stillHeld g h)) (coreOf g / 8) t) := by
  refine congrArg Host.Outcome.next ?_
  simp only [hh, hw, List.isEmpty_eq_false_iff.2 hs, ht, (slotIdle_iff g t.slot).2 hidle, Bool.and_true,
    Bool.false_eq_true, if_false, if_true]

theorem copyEnqueue_room {x : Copy} (hw : h.what = .copy x) (hroom : (hamOf s (coreOf g / 8)).copies.length < 32) :
    exec (.copyEnqueue tag grp num) s =
      .next (queueCopy (endHeld s g.gid num h (stillHeld g h)) (coreOf g / 8) x) := by
  have hfull : carterFull s (coreOf g / 8) = false := decide_eq_false (Nat.not_le.2 hroom)
  refine congrArg Host.Outcome.next ?_
  simp only [hh, hw, List.isEmpty_eq_false_iff.2 hs, hfull, Bool.false_eq_true, if_false]

end

/-! ## The miller (22 R329) -/

/-- The task that is issued stands in the queue, is ready, and goes to a free mill. -/
theorem nextIssue_some {h : Hamlet} {ts : List Task} {t : Task} {m : Nat} (hi : nextIssue h ts = some (t, m)) :
    t ∈ ts ∧ t.ready = true ∧ millFree h m = true := by
  induction ts with
  | nil => cases hi
  | cons x ts ih =>
    unfold nextIssue at hi
    split at hi
    next m' hm =>
      obtain ⟨rfl, rfl⟩ := Prod.mk.inj (Option.some.inj hi)
      have hgo := List.find?_some hm
      simp only [Bool.and_eq_true] at hgo
      exact ⟨List.mem_cons_self .., hgo.1.2, hgo.1.1⟩
    next =>
      obtain ⟨hmem, hrest⟩ := ih hi
      exact ⟨List.mem_cons_of_mem x hmem, hrest⟩

theorem millFree_iff {h : Hamlet} {m : Nat} : millFree h m = true ↔ (h.mill m).run = none ∧ (h.mill m).hold = false := by
  simp [millFree]

theorem taskIssue_next {s : State} {ham m : Nat} {t : Task}
    (hi : nextIssue (hamOf s ham) (hamOf s ham).queue = some (t, m)) :
    exec (.taskIssue ham) s = .next (issueTask s ham t m) := by
  refine congrArg Host.Outcome.next ?_
  simp only [hi]

/-! ## Mills after an update -/

section
variable (s : State) (ham : Nat) {m n : Nat} (f : Mill → Mill) (hm : m < 2) (hn : n < 2)
include hm hn

theorem mill_updMill : (hamOf (updMill s ham m f) ham).mill n =
    if m = n then f ((hamOf s ham).mill n) else (hamOf s ham).mill n := by
  rw [updMill, hamOf_updHam_same, mill_setMill _ m n _ hm hn]
  split
  · subst m; rfl
  · rfl

end

theorem mill_updMill_same (s : State) (ham : Nat) {m : Nat} (f : Mill → Mill) (hm : m < 2) :
    (hamOf (updMill s ham m f) ham).mill m = f ((hamOf s ham).mill m) := by
  rw [mill_updMill s ham f hm hm, if_pos rfl]

/-! ## Steps (22 R333) -/

/-- The entries of a table whose numbers pass a test. -/
theorem tfind_filterKey {α : Type} (t : Table α) (p : Nat → Bool) (n : Nat) :
    tfind (t.filter fun x => p x.1) n = if p n then tfind t n else none := by
  induction t with
  | nil => simp [tfind]
  | cons x t ih =>
    obtain ⟨k, v⟩ := x
    rw [List.filter_cons]
    by_cases hk : k = n
    · subst hk
      by_cases hp : p k = true <;> simp [tfind, ih, hp]
    · split <;> simp only [tfind, hk, if_false, ih]

theorem tget_binZero (b : Table W32) (row col rows cols k : Nat) : tget 0#32 (binZero b row col rows cols) k =
    if row ≤ k / 128 ∧ k / 128 < row + rows ∧ col ≤ k % 128 ∧ k % 128 < col + cols then 0 else tget 0#32 b k := by
  rw [tget, binZero, tfind_filterKey b fun k => !inRegion row col rows cols k]
  simp only [inRegion, Bool.not_eq_true', Bool.and_eq_false_iff, decide_eq_false_iff_not, ← not_and_or, ite_not, and_assoc]
  split <;> rfl

section
variable {s s1 : State} {ham m : Nat} {r : Run} {p : Nat}

theorem run_of_nextStep {x : MStep} (h : nextStep s ham m = some (r, x)) : ((hamOf s ham).mill m).run = some r := by
  unfold nextStep at h
  dsimp only at h
  split at h
  · cases h
  next r' hr =>
    split at h
    · cases h
    · rw [hr, (Prod.mk.inj (Option.some.inj h)).1]

theorem zeroStep_runs (h : nextStep s ham m = some (r, .z p)) : exec (.zeroStep ham m) s =
    .next (stepDone (updMill s ham m fun x =>
      x.zeroBin (r.task.row0 + 128 * p) r.task.col0 (r.task.passRows p).length r.task.n) ham m) := by
  refine congrArg Host.Outcome.next ?_
  simp only [h]

theorem length_passRows (t : Task) (p : Nat) : (t.passRows p).length = min 128 (t.m - 128 * p) := by
  rw [Task.passRows, List.length_map, List.length_range]

theorem zeroStep_zeros (hm : m < 2) (h : nextStep s ham m = some (r, .z p)) :
    ∃ s', exec (.zeroStep ham m) s = .next (stepDone s' ham m) ∧
      ZeroedBin ((hamOf s ham).mill m).bin ((hamOf s' ham).mill m).bin (r.task.row0 + 128 * p) r.task.col0
        (min 128 (r.task.m - 128 * p)) r.task.n := by
  refine ⟨_, zeroStep_runs h, fun k => ?_⟩
  rw [mill_updMill_same s ham _ hm, ← length_passRows]
  exact tget_binZero ..

theorem kStep_runs {k : Nat} (h : nextStep s ham m = some (r, .x p k)) :
    exec (.kStep ham m) s = .next (applyStep s ham m (kStep s ham m r p k)) := by
  refine congrArg Host.Outcome.next ?_
  simp only [h]

theorem loadAddStep_runs (h : nextStep s ham m = some (r, .l p)) :
    exec (.loadAddStep ham m) s = .next (applyStep s ham m (loadAdd s ham m r p)) := by
  refine congrArg Host.Outcome.next ?_
  simp only [h]

section
variable {ws : List (Nat × W32)} {wa wb : Option Nat}

/-- A step over sound words of the bin is applied whole. -/
theorem applyStep_sound (h : ∀ w ∈ ws, w.1 ∉ ((hamOf s1 ham).mill m).bad) :
    applyStep s ham m (.ok (ws, wa, wb), s1) = stepDone (updMill s1 ham m fun x => { x with
      bin := ws.foldl (fun b w => tset 0#32 b w.1 w.2) x.bin
      bad := x.bad.filter fun k => !(ws.any fun w => w.1 = k)
      run := x.run.map fun r => { r with winA := wa, winB := wb } }) ham m := by
  have hsound : binSpoilt s1 ham m ws = false := by
    simpa [binSpoilt, List.any_eq_false] using h
  simp only [applyStep, hsound, Bool.false_eq_true, if_false]
  rfl

/-- One over a spoilt word fails its task (27 R400). -/
theorem applyStep_spoilt (h : ∃ w ∈ ws, w.1 ∈ ((hamOf s1 ham).mill m).bad) :
    applyStep s ham m (.ok (ws, wa, wb), s1) = stopStep s1 ham m (.fail 0x48 0x37 0 0 0) := by
  have hspoilt : binSpoilt s1 ham m ws = true := by
    simpa [binSpoilt, List.any_eq_true] using h
  simp only [applyStep, hspoilt, if_true]
  rfl

end

theorem epilogueStep_begins (hm : m < 2) (hb : s.sch.bolt = none) (h : nextStep s ham m = some (r, .e p)) :
    ∃ s', exec (.epilogueStep ham m) s = .next s' ∧ s'.sch.bolt = some (ham, m) ∧ s'.mm = s.mm ∧
      ((hamOf s' ham).mill m).run = some { r with
        bolt := some ⟨p, 128 * p, 0, List.replicate 8 (List.replicate r.task.n 0), [], none⟩ } := by
  refine ⟨updRun { s with sch := { s.sch with bolt := some (ham, m) } } ham m fun x =>
    { x with bolt := some ⟨p, 128 * p, 0, zeroRegs r.task.n, [], none⟩ }, congrArg Host.Outcome.next ?_, rfl, rfl, ?_⟩
  · simp only [hb, h, Option.isSome_none, Bool.false_eq_true, if_false]
  · rw [updRun, mill_updMill_same _ ham _ hm]
    exact congrArg (Option.map _) (run_of_nextStep h)

end

/-! ## Copies (25 R367, R368) -/

section
variable {s : State} {ham k : Nat} {x : Copy} (hx : copyOf s ham k = some x) (hpost : x.post = none) (hhold : x.hold = none)
  (hstart : mayStart (hamOf s ham) x = true)
include hx hpost hhold hstart

theorem copyUnit_runs {u : Nat} {y : CUnit} (hfail : x.fail = none) (hnew : u ∉ x.units) (hu : x.unit u = some y) :
    exec (.copyUnit ham k u) s = .next (doUnit s ham x u y) := by
  have hcond : (x.hold.isSome || x.post.isSome || x.units.contains u || !mayStart (hamOf s ham) x ||
      x.fail.any (fun f => f.2 ≤ u)) = false := by
    simp [hhold, hpost, hnew, hstart, hfail]
  refine congrArg Host.Outcome.next ?_
  simp only [hx, hcond, hu, Bool.false_eq_true, if_false]

theorem copyCompletion_moved (hmoved : x.moved = true) : exec (.copyCompletion ham k) s = .next (completeCopy s ham x) := by
  refine congrArg Host.Outcome.next ?_
  simp only [hx, hpost, hhold, hstart, hmoved, Option.isSome_none, Bool.not_true, Bool.or_self, Bool.false_eq_true, if_false]

end

/-! ## Completion of tasks (22 R335, R336) -/

section
variable {s : State} {ham k : Nat}

theorem taskCompletion_failed {t : Task} (h : (hamOf s ham).queue.find? (fun t => t.id = k && t.failed.isSome) = some t) :
    exec (.taskCompletion ham k) s = .next (completeTask (updHam s ham fun h =>
      { h with queue := h.queue.filter fun x => x.id ≠ k }) ham t 0 0 t.failed) := by
  refine congrArg Host.Outcome.next ?_
  simp only [h]

theorem taskCompletion_ended {m : Nat} {r : Run}
    (h : (hamOf s ham).queue.find? (fun t => t.id = k && t.failed.isSome) = none)
    (he : endedOn (hamOf s ham) k = some (m, r)) :
    exec (.taskCompletion ham k) s = .next (completeTask (updMill s ham m fun x =>
      { x with run := none, held := false }) ham r.task m r.start r.ended) := by
  refine congrArg Host.Outcome.next ?_
  simp only [h, he]

end

/-! ## Holds (22 R334) -/

theorem exec_millHold (ham m : Nat) (s : State) : exec (.millHold ham m) s = .next (updMill s ham m (holdMill true)) := rfl

theorem exec_millRelease (ham m : Nat) (s : State) :
    exec (.millRelease ham m) s = .next (updMill s ham m (holdMill false)) := rfl

/-! ## Counted releases (26 R383) -/

theorem strelApply_due {s : State} {k : Nat} {x : HeldStrel} (h : s.fab.strels.find? (fun x => x.id = k) = some x)
    (hd : x.count ≤ arrivedOf s.fab x.gid x.dev) : exec (.strelApply k) s = .next (applyStrel s x) := by
  have hdue : strelDue s x = true := decide_eq_true hd
  refine congrArg Host.Outcome.next ?_
  simp only [h, hdue, if_true]

/-! ## The statement -/

/-- Settles O51, from the lemmas above, one for each happening. -/
theorem engineHappenings : Obligations.EngineHappenings := by
  intro s s1 tag grp num ham m g h r p hm
  refine ⟨fun hh hs => ⟨fun t hw ht hidle => mtaskEnqueue_taken hh hs hw ht hidle,
      fun x hw hroom => copyEnqueue_room hh hs hw hroom, fun todo kd hw => bldpReplace_runs hh hw⟩,
    fun t hi => ?issue, zeroStep_zeros hm, fun k ws wa wb hn hk hsound => ?step, fun ws wa wb hn hl hsound => ?load,
    fun k ws wa wb hn hk hspoilt => ?spoilt, epilogueStep_begins hm,
    fun x k hx hpost hhold hstart => ⟨fun u y hfail hnew hu => copyUnit_runs hx hpost hhold hstart hfail hnew hu,
      copyCompletion_moved hx hpost hhold hstart⟩,
    fun t k ht => taskCompletion_failed ht, fun k hq he => taskCompletion_ended hq he,
    ⟨_, exec_millHold ham m s, ?held, ?heldRun, ?other⟩, ⟨_, exec_millRelease ham m s, ?free, ?freed, ?freeRun⟩,
    fun x k hx hd => strelApply_due hx hd⟩
  case issue =>
    obtain ⟨hmem, hready, hfree⟩ := nextIssue_some hi
    exact ⟨taskIssue_next hi, hmem, hready, millFree_iff.1 hfree⟩
  case step => rw [kStep_runs hn, hk, applyStep_sound hsound]
  case load => rw [loadAddStep_runs hn, hl, applyStep_sound hsound]
  case spoilt => rw [kStep_runs hn, hk, applyStep_spoilt hspoilt]
  case held => rw [mill_updMill_same s ham _ hm]; rfl
  case heldRun => rw [mill_updMill_same s ham _ hm]; rfl
  case other => rw [mill_updMill s ham _ hm (by omega), if_neg (by omega)]
  case free => rw [mill_updMill_same s ham _ hm]; rfl
  case freed => rw [mill_updMill_same s ham _ hm]; rfl
  case freeRun => rw [mill_updMill_same s ham _ hm]; rfl

end Sys2Proof.Machine
end

section
/-! Tile tasks, the bins, bolter programs, copies, status words and `STREL` (O46). -/

namespace Sys2Proof.Machine

open Sys2Proof

/-! ## Records (23 R341, 25 R364) -/

theorem places_of_ok {l : Lane} {p : Places} (h : l.dec = .ok p) : l.places = some p := by
  unfold Lane.places
  rw [h]

/-! ## `MTASK` (23 R341) -/

section
variable {s s2 : State} {c : Ctx} {f : LongForm} {l : Lane} {img : Bytes}

theorem mtask_reads (h : Issues s (.mtask f) f.g c) (hd : f.dst.toNat < 16) (ha : AddrLegal c f) (hsame : sameAddr c f = true)
    (hidle : ∀ op, c.grp.slots.getD f.dst.toNat .idle ≠ .pending op) (hr : RecordRead s c f l img s2) :
    exec (.mtask f) s = .next (c.mtask s2 f.dst.toNat l.va img) := by
  obtain ⟨ls, s1, p, hls, hok, hhead, hp, hread⟩ := hr
  refine congrArg Host.Outcome.next ((runCore_body h ?_).trans ?_)
  · rw [slotOk, decide_eq_true hd, addrOk_of_legal ha, hsame, (slotIdle_iff ..).2 hidle]
    rfl
  · simp only [hls, perform_of_allOk hok h.act, hhead, places_of_ok hp, hread]

theorem mtask_error {slot e : Nat} {va : W64} (h : taskError (hamOf s c.ham) (taskOf c s slot va img)
      (followed (hamOf s c.ham) (captures c.grp (field img 4 4))).isSome = some e) :
    c.mtask s slot va img = c.trap s 5 e (c.actTids.map fun t => (t, 0, BitVec.ofNat 64 e)) := by
  unfold Ctx.mtask
  dsimp only
  split
  next e' he =>
    obtain rfl : e = e' := Option.some.inj (h.symm.trans he)
    rfl
  next hn => cases h.symm.trans hn

theorem mtask_queues {slot : Nat} {va : W64} (h : taskError (hamOf s c.ham) (taskOf c s slot va img)
      (followed (hamOf s c.ham) (captures c.grp (field img 4 4))).isSome = none)
    (ht : millerTakes (idTaken s) c.ham (taskOf c s slot va img) = true) : c.mtask s slot va img =
      queueTask (c.done (c.issues (idTaken s) (.task c.cur.gid s.sch.ids)) id) c.ham (taskOf c s slot va img) := by
  unfold Ctx.mtask
  dsimp only
  split
  next e he => cases h.symm.trans he
  next => exact if_pos ht

theorem forget_mem (mm : MemSys) (p : Agent → Bool) : (forget mm p).mem = mm.mem := by
  unfold forget
  split <;> rfl

/-! ## The bins (23 R344, R345) -/

theorem binWordOk_iff (a : W32) : binWordOk a = true ↔ a.toNat < 2 ^ 17 := decide_eq_true_iff

theorem binIndex_eq (a : W32) : binIndex a = a.toNat % 2 ^ 16 := by
  rw [binIndex, bits, pow_zero, Nat.div_one]

theorem binMill_eq (a : W32) : binMill a = a.toNat / 2 ^ 16 % 2 := rfl

/-- The threads name words of the bins. -/
theorem all_binWordOk (h : ∀ t ∈ c.act, (a32 f t).toNat < 2 ^ 17) :
    (c.act.all fun t => binWordOk (rd32 f.lit f.sa t)) = true :=
  List.all_eq_true.2 fun t ht => (binWordOk_iff _).2 (h t ht)

theorem binld_gives (h : Issues s (.binld f) f.g c) (hd : dstOk c false f.dst = true) (ha : srcOk c f.lit false f.sa = true)
    (hword : ∀ t ∈ c.act, (a32 f t).toNat < 2 ^ 17)
    (hgood : ∀ t ∈ c.act, (a32 f t).toNat % 2 ^ 16 ∉ ((hamOf s c.ham).mill ((a32 f t).toNat / 2 ^ 16 % 2)).bad) :
    Gives (.binld f) s c f false fun t => (tget 0#32 ((hamOf s c.ham).mill ((a32 f t).toNat / 2 ^ 16 % 2)).bin
      ((a32 f t).toNat % 2 ^ 16)).setWidth 64 := by
  refine ⟨tagOf c (srcUni c false f.sa), .uni, congrArg Host.Outcome.next ((runCore_body h ?_).trans ?_)⟩
  · rw [hd, ha, all_binWordOk hword]
    rfl
  · simp only [binMill_eq, binIndex_eq]
    rw [List.filter_eq_nil_iff.2 fun t ht => by rw [List.contains_iff_mem]; exact hgood t ht]
    rfl

theorem binst_runs (h : Issues s (.binst f) f.g c) (ha : srcOk c f.lit false f.sa = true)
    (hc : srcOk c f.lit false f.sc = true) (hword : ∀ t ∈ c.act, (a32 f t).toNat < 2 ^ 17)
    (hfree : ∀ t ∈ c.act, inBolter s c.ham ((a32 f t).toNat / 2 ^ 16 % 2) = false) :
    exec (.binst f) s = .next (c.done (c.act.foldl (fun s t => updMill s c.ham ((a32 f t).toNat / 2 ^ 16 % 2) fun x =>
      { x with
        bin := tset 0#32 x.bin ((a32 f t).toNat % 2 ^ 16) (c32 f t)
        bad := (x.putBin [((a32 f t).toNat % 2 ^ 16, c32 f t)]).bad }) s) id) := by
  refine congrArg Host.Outcome.next ((runCore_body h ?_).trans ?_)
  · rw [ha, hc, all_binWordOk hword]
    rfl
  · have hany : (c.act.any fun t => inBolter s c.ham (binMill (rd32 f.lit f.sa t))) = false :=
      List.any_eq_false.2 fun t ht => Bool.eq_false_iff.1 (hfree t ht)
    simp only [hany, Bool.false_eq_true, if_false, binIndex_eq]
    rfl

/-- A region that is given by its first and its last row and column. -/
theorem region_iff (row col rows cols k : Nat) :
    (row ≤ k / 128 ∧ k / 128 < row + (rows + 1) ∧ col ≤ k % 128 ∧ k % 128 < col + (cols + 1)) ↔
      (row ≤ k / 128 ∧ k / 128 ≤ row + rows) ∧ (col ≤ k % 128 ∧ k % 128 ≤ col + cols) := by
  omega

theorem binz_zeros {t0 : Thread} {a x : Nat} (h : Issues s (.binz f) f.g c) (hsa : srcOk c f.lit false f.sa = true)
    (hsb : srcOk c f.lit false f.sb = true) (hua : srcUni c false f.sa = true) (hub : srcUni c false f.sb = true)
    (hhead : c.act.head? = some t0) (ha : a = (a32 f t0).toNat) (hx : x = (b32 f t0).toNat) (hal : a < 2 ^ 17)
    (hxl : x < 2 ^ 16) (hrow : a / 128 % 512 + x / 128 % 512 + 1 ≤ 512) (hcol : a % 128 + x % 128 + 1 ≤ 128)
    (hfree : inBolter s c.ham (a / 2 ^ 16 % 2) = false) :
    ∃ s', exec (.binz f) s = .next (c.done s' id) ∧ s'.groups = s.groups ∧ s'.mm = s.mm ∧ ∀ m k, m < 2 →
      tget 0#32 ((hamOf s' c.ham).mill m).bin k =
        if m = a / 2 ^ 16 ∧ (a / 128 % 512 ≤ k / 128 ∧ k / 128 ≤ a / 128 % 512 + x / 128 % 512) ∧
          (a % 128 ≤ k % 128 ∧ k % 128 ≤ a % 128 + x % 128) then 0
        else tget 0#32 ((hamOf s c.ham).mill m).bin k := by
  have hargs : binzArgs c f = (a32 f t0, b32 f t0) := by
    obtain ⟨rest, hact⟩ := List.head?_eq_some_iff.1 hhead
    rw [binzArgs, hact]
    rfl
  have hmill : a / 2 ^ 16 % 2 = a / 2 ^ 16 := by omega
  rw [hmill] at hfree
  refine ⟨updMill s c.ham (a / 2 ^ 16) fun m =>
    m.zeroBin (a / 128 % 512) (a % 128) (x / 128 % 512 + 1) (x % 128 + 1),
    congrArg Host.Outcome.next ((runCore_body h ?_).trans ?_), rfl, rfl, fun m k hm => ?_⟩
  · rw [hsa, hsb, hua, hub, hargs, binzOk]
    simp [binWordOk_iff, bits, ← ha, ← hx, hrow, hcol]
    exact ⟨hal, hxl⟩
  · simp only [hargs, binMill_eq, bits, ← ha, ← hx, hmill, hfree, Bool.false_eq_true, if_false, pow_zero, Nat.div_one]
    rfl
  · rw [mill_updMill s c.ham _ (by omega) hm]
    by_cases hsame : a / 2 ^ 16 = m
    · rw [if_pos hsame]
      refine (tget_binZero ..).trans ?_
      simp only [region_iff, hsame, true_and]
    · rw [if_neg hsame, if_neg fun hk => hsame hk.1.symm]

/-! ## `BLDP` (23 R347) -/

theorem bldp_runs (h : Issues s (.bldp f) f.g c) (hd : f.dst.toNat < 8) (ha : AddrLegal c f)
    (hc : srcOk c f.lit false f.sc = true) (hword : ∀ t ∈ c.act, (c32 f t).toNat < 2 ^ 6) :
    exec (.bldp f) s = .next (bldpRun c.cur.gid c.warp.num c.act.length
      (c.holdWarp s (.bldp (c.act.map fun t => (t.tid, effAddr f t, c32 f t)) f.dst.toNat))) := by
  have hall : (c.act.all fun t => (rd32 f.lit f.sc t).toNat < 2 ^ 6) = true :=
    List.all_eq_true.2 fun t ht => decide_eq_true (hword t ht)
  refine congrArg Host.Outcome.next ((runCore_body h ?_).trans ?_)
  · rw [maskDstOk, decide_eq_true hd, addrOk_of_legal ha, hc, hall]
    rfl
  · dsimp only
    rw [List.length_map]
    rfl

/-- A thread that loads its slots: they hold the image that it reads, where that is good. -/
theorem bldpAct_loads {g : Group} {hd : Held} {kd tid : Nat} {va : W64} {w : W32} {p : Places} {r : Read} {s1 : State}
    (hload : w.getLsbD 5 = false)
    (hp : decideAccess s (coreOf g) (coreOf g / 8) g.asn va 256 64 .load = (.ok p, s1))
    (hread : readCore s1 (threadWho g tid) (coreOf g) (coverOf s1 g.gid tid) p.unc true byPart p.locs = r)
    (hgood : readErr s1 p r = none) : bldpAct s g hd kd tid va w = updGroup
      (if imageOk r.bytes then putProg r.st (coreOf g / 8) w (some r.bytes) else r.st) g.gid
      (modThreads [tid] fun t => { t.setMask kd (imageOk r.bytes) with pc := hd.next }) := by
  have hbit : bit w.toNat 5 = false := hload
  simp only [bldpAct, hbit, hp, hread, hgood, Bool.false_eq_true, if_false]
  cases imageOk r.bytes <;> rfl

/-! ## Copies (25 R364) -/

theorem copyOp_reads {i : Instr} {form : Nat} (h : Issues s i f.g c) (ha : AddrLegal c f) (hsame : sameAddr c f = true)
    (hr : RecordRead s c f l img s2) : copyOp s i f form = c.copy s2 form l.va img := by
  obtain ⟨ls, s1, p, hls, hok, hhead, hp, hread⟩ := hr
  refine (runCore_body h (by rw [addrOk_of_legal ha, hsame]; rfl)).trans ?_
  simp only [hls, perform_of_allOk hok h.act, hhead, places_of_ok hp, hread]

theorem copy_eq (s : State) (c : Ctx) (form : Nat) (va : W64) (img : Bytes) : c.copy s form va img =
    if !copyOk (copyRec c s form va img) then c.trapAct s 0x02
    else if carterFull s c.ham then
      c.holdWarp (c.issues (idTaken s) (.copy c.cur.gid s.sch.ids)) (.copy (copyRec c s form va img))
    else queueCopy (c.done (c.issues (idTaken s) (.copy c.cur.gid s.sch.ids)) id) c.ham (copyRec c s form va img) := rfl

theorem copy_queues {form : Nat} {va : W64} (hok : copyOk (copyRec c s form va img) = true)
    (hroom : (hamOf s c.ham).copies.length < 32) : c.copy s form va img =
      updHam (c.done (c.issues (idTaken s) (.copy c.cur.gid s.sch.ids)) id) c.ham fun h =>
        { h with copies := h.copies ++ [copyRec c s form va img] } := by
  have hfull : carterFull s c.ham = false := decide_eq_false (Nat.not_le.2 hroom)
  rw [copy_eq, hok, hfull]
  rfl

theorem copy_illegal {form : Nat} {va : W64} (hok : copyOk (copyRec c s form va img) = false) :
    c.copy s form va img = c.trapAct s 0x02 := by
  rw [copy_eq, hok]
  rfl

theorem copies_of_copyOp {i : LongForm → Instr} {form : Nat} (hi : exec (i f) s = .next (copyOp s (i f) f form)) :
    Copies (i f) s c f form := by
  intro l img s2 h ha hsame hr
  rw [hi, copyOp_reads h ha hsame hr]
  exact ⟨fun hok hroom => congrArg _ (copy_queues hok hroom), fun hok => congrArg _ (copy_illegal hok)⟩

/-! ## Status words (25 R366, 26 R373) -/

theorem cpyq_gives (h : Issues s (.cpyq f) f.g c) (hd : dstOk c false f.dst = true) : Gives (.cpyq f) s c f false fun _ =>
    (BitVec.ofNat 32 ((hamOf s c.ham).copies.length +
      ((hamOf s c.ham).copies.filter fun x => x.gid = c.cur.gid).length * 2 ^ 16)).setWidth 64 :=
  ⟨tagOf c true, .uni, congrArg Host.Outcome.next (runCore_body h hd)⟩

theorem netWord_eq (s : State) (c : Ctx) : netWord s c = BitVec.ofNat 32 (min 8 (buffersHeld s c.cur.gid) +
    (tget 0#8 (dieOf s c.die).pinj (c.core % 128)).toNat * 2 ^ 8 + min 255 (nodeOf s c.core).rate * 2 ^ 16 +
      (if (nodeOf s c.core).thr then 2 ^ 31 else 0)) := by
  rw [netWord]
  cases (nodeOf s c.core).thr <;> rfl

theorem netq_gives (h : Issues s (.netq f) f.g c) (hd : dstOk c false f.dst = true) : Gives (.netq f) s c f false fun _ =>
    (BitVec.ofNat 32 (min 8 (buffersHeld s c.cur.gid) + (tget 0#8 (dieOf s c.die).pinj (c.core % 128)).toNat * 2 ^ 8 +
      min 255 (nodeOf s c.core).rate * 2 ^ 16 + (if (nodeOf s c.core).thr then 2 ^ 31 else 0))).setWidth 64 := by
  rw [← netWord_eq]
  exact ⟨tagOf c true, .uni, congrArg Host.Outcome.next (runCore_body h hd)⟩

/-! ## `STREL` (26 R383) -/

theorem strel_runs {s1 : State} {ls : List Lane} {rs : List ReqLane} (h : Issues s (.strel f) f.g c) (ha : AddrLegal c f)
    (hc : srcOk c f.lit (wideTy f) f.sc = true)
    (hls : c.decideLanes s (effAddr f) (fun _ => tyBytes f.ty) (tyBytes f.ty) .store = (ls, s1)) (hok : AllOk ls)
    (hgo : (ls.filter fun l => c.actTids.contains l.tid).foldl (c.strelLane f) ([], s1) = (rs, s2)) :
    exec (.strel f) s = .next (c.done (makeReqs s2 c.cur.gid ⟨0, false, false, true, none⟩ rs) id) := by
  refine congrArg Host.Outcome.next ((runCore_body h (storeChk ha hc)).trans ?_)
  simp only [hls, perform_of_allOk hok h.act, hgo]

end

/-! ## The statement -/

/-- Settles O46, from the lemmas above, one or two for each instruction. -/
theorem engineInstructions : Obligations.EngineInstructions := by
  intro s s1 s2 c f l ls img rs
  refine ⟨fun h hd ha hsame hidle hr => ⟨fun e he => ?error, fun hnone ht => ?queue⟩,
    fun t ham => ⟨queueTask s ham t, rfl, forget_mem .., rfl, rfl⟩,
    binld_gives, binst_runs, fun t0 a x h hsa hsb hua hub hhead ha hx hal hxl hrow hcol hfree =>
      binz_zeros h hsa hsb hua hub hhead ha hx hal hxl hrow hcol hfree,
    bldp_runs, fun g hd kd tid va w p r hload hp hread hgood => bldpAct_loads hload hp hread hgood,
    copies_of_copyOp (i := .cpy) rfl, copies_of_copyOp (i := .cpy2) rfl, copies_of_copyOp (i := .cpyt) rfl,
    copies_of_copyOp (i := .cpyr) rfl, cpyq_gives, netq_gives,
    fun h ha hc hls hok hgo => strel_runs h ha hc hls hok hgo⟩
  case error => rw [mtask_reads h hd ha hsame hidle hr, mtask_error he]
  case queue => rw [mtask_reads h hd ha hsame hidle hr, mtask_queues hnone ht]

end Sys2Proof.Machine
end
